-- ==== Sys2Proof/Word.lean ====
section
/-! DEFINITION. The machine's words and their plainest arithmetic (R1: bit 0 is the least significant bit; memory is little-endian). -/

namespace Sys2Proof

/-- A scalar register, an address or a control register. -/
abbrev Word := BitVec 64

/-- A byte of memory. -/
abbrev Byte := BitVec 8

/-- An instruction word (R120). -/
abbrev Word32 := BitVec 32

end Sys2Proof
end

