-- ==== Sys2Proof/Syntax.lean ====
section
/-! DEFINITION. Every instruction and every step of the hardware that spec/opcode_table.json lists, one constructor each.
The operands of an encoded row are the fields of its format (R124 to R131); a row that no word encodes (spec/95_what_each_step_holds.md) carries the operands its rule speaks of. -/

namespace Sys2Proof

/-- Access width of the L format (R125). -/
inductive Width where
  | b | bu | h | hu | w | wu | d
  deriving DecidableEq, Repr

/-- Order of an L-format access (R125, R147): `sync` is acquire for LD and release for ST. -/
inductive LOrder where
  | plain | relaxed | sync
  deriving DecidableEq, Repr

/-- Order of an AMO (R125, R160). -/
inductive XOrder where
  | relaxed | acquire | release
  deriving DecidableEq, Repr

/-- Scope of an AMO, FENCE, ACQ or REL (R125, R134, R278). -/
inductive Scope where
  | core | clu | die | mod | dom
  deriving DecidableEq, Repr

/-- Condition of BR (R125, R149). -/
inductive Cond where
  | eq | ne | lt | ge | ltu | geu | full | empty
  deriving DecidableEq, Repr

/-- The second source of a V-format instruction (R127): a vector register with its fe bit, or a scalar register (s = 1). -/
inductive VSrc where
  | vec (r : Fin 32) (fe : Bool)
  | sca (r : Fin 32)
  deriving DecidableEq, Repr

/-- The causes of the static decode checks, steps 1 to 5 of R121. -/
inductive DecodeCause where
  | illZero | illOpc | illFn | illField | illHint
  deriving DecidableEq, Repr

/-- The causes of a failed instruction fetch: those of a walk (R316), of the pool windows (R53), of a non-canonical address and of a misaligned one (R151, R336), and the loss of a page that an invalidation discarded (R328). -/
inductive FetchCause where
  | vaNoncanon | pcAlign | trNotmapped | trPerm | pteIllegal | asidInvalid | trPriv | execLost
  deriving DecidableEq, Repr

/-- A loop context: module core index and loop context number, 0 to 3 (R13, R52). Place n + 4 holds the work that the die scheduler has parked in place from loop context n (R308; log 39). -/
structure CtxId where
  core : Fin 1024
  lc : Fin 8
  deriving DecidableEq, Repr

/-- A Tug command context: module cluster index and context number (R15). -/
structure TugId where
  cluster : Fin 128
  t : Fin 16
  deriving DecidableEq, Repr

/-- An Awl walk context: module walker index and context number (R15). -/
structure WalkId where
  walker : Fin 32
  k : Fin 8
  deriving DecidableEq, Repr

/-- What a host command carries besides its payload (R383): the queue that fetched it, its completion queue, index and tag. -/
structure CmdHead where
  sq : Fin 64
  cq : Fin 64
  seq : BitVec 32
  tag : BitVec 64
  deriving DecidableEq, Repr

/-- The payload of NVME_QPAIR (R384). -/
structure QPair where
  drive : BitVec 32
  depth : BitVec 32
  sq : BitVec 64
  cq : BitVec 64
  deriving DecidableEq, Repr

/-- A register of the host windows that has no step of its own (R381, R382, R408). -/
inductive HostReg where
  | sqbase (q : Fin 64)
  | cqbase (q : Fin 64)
  | memoff
  | dladdr
  | dllen
  | other (off : Nat)
  deriving DecidableEq, Repr

/-- A host access through the MEM window (R389). -/
inductive HostAccess where
  | read (n : Nat)
  | write (data : List (BitVec 8))
  deriving DecidableEq, Repr

/-- An access that another module sends to a byte homed here (R291): a read, a write, or an atomic by its AMO function code (R157). -/
inductive FabricAccess where
  | read (pa n : Nat)
  | write (pa : Nat) (data : List (BitVec 8))
  | amo (pa : Nat) (op : Fin 8) (operand compare : BitVec 64)
  deriving DecidableEq, Repr

/-- What the Saddler plans for a cluster from its monitors (R396, R397, R407): supply voltage in millivolts, floor clock and largest lease clock in MHz, current limit in milliamperes, days until FLOOR would fall below 3,300 MHz, and the leakage table in milliamperes, 8 temperatures by 8 voltages. -/
structure ClusterPlan where
  cluster : Fin 128
  volts : Nat
  floor : Nat
  lmax : Nat
  limit : Nat
  marginDays : Nat
  leakage : Vector Nat 64
  deriving DecidableEq, Repr

/-- The Saddler's plan of the module's power: its clusters, and the I/O dies' draw in milliwatts (R396, R407). -/
structure PowerPlan where
  clusters : List ClusterPlan
  ioDraw : Nat
  deriving DecidableEq, Repr

/-- A sensor reading of a microsecond (R397, R398): current in milliamperes, temperature in degrees Celsius, supply in millivolts. -/
structure SensorReading where
  milliamps : Nat
  celsius : Nat
  millivolts : Nat
  deriving DecidableEq, Repr

/-- What bring-up finds (R410): the links and ports that train, the module number and the domain's members, the plan of its power (R396), the drives that answer, and the places the Saddler reports (R317, R330). -/
structure BringUp where
  links : BitVec 96
  ports : BitVec 36
  modId : Fin 144
  members : List (Fin 144)
  power : PowerPlan
  drives : BitVec 128
  asidTable : Nat
  fwBase : Nat
  fwSize : Nat
  deriving DecidableEq, Repr

/-- A unit that can be fenced (R349, R350, R392). -/
inductive FenceUnit where
  | core (i : Fin 1024)
  | cluster (i : Fin 128)
  | tug (i : Fin 128)
  | walker (i : Fin 32)
  | memLink (i : Fin 96)
  | balfin (i : Fin 36)
  deriving DecidableEq, Repr

/-- Format A with sd, sa and sb (R124). -/
structure A3 where
  sd : Fin 32
  sa : Fin 32
  sb : Fin 32
  hint : Fin 8
  deriving DecidableEq, Repr

/-- Format A with sd and sa; sb is unused and zero (R131). -/
structure A2 where
  sd : Fin 32
  sa : Fin 32
  hint : Fin 8
  deriving DecidableEq, Repr

/-- Format A with sa alone. -/
structure A1 where
  sa : Fin 32
  hint : Fin 8
  deriving DecidableEq, Repr

/-- Format A with sd alone. -/
structure AD where
  sd : Fin 32
  hint : Fin 8
  deriving DecidableEq, Repr

/-- Format A with no operand but the hint. -/
structure A0 where
  hint : Fin 8
  deriving DecidableEq, Repr

/-- Format A with sa and sb. -/
structure AB where
  sa : Fin 32
  sb : Fin 32
  hint : Fin 8
  deriving DecidableEq, Repr

/-- Format A with sd and sb. -/
structure ADB where
  sd : Fin 32
  sb : Fin 32
  hint : Fin 8
  deriving DecidableEq, Repr

/-- Format I (R125). -/
structure IForm where
  sd : Fin 32
  sa : Fin 32
  imm : BitVec 16
  deriving DecidableEq, Repr

/-- Format I without sa: LUI (R125). -/
structure LuiForm where
  sd : Fin 32
  imm : BitVec 16
  deriving DecidableEq, Repr

/-- Format SH (R125). -/
structure ShForm where
  sd : Fin 32
  sa : Fin 32
  shamt : Fin 64
  deriving DecidableEq, Repr

/-- Format L (R125): `r` is sd of LD and ss of ST. -/
structure LForm where
  r : Fin 32
  sa : Fin 32
  width : Width
  order : LOrder
  off : BitVec 11
  deriving DecidableEq, Repr

/-- Format B (R125). -/
structure BForm where
  sa : Fin 32
  sb : Fin 32
  cond : Cond
  off : BitVec 13
  deriving DecidableEq, Repr

/-- Format J of JAL: signed words (R125). -/
structure JForm where
  off : BitVec 26
  deriving DecidableEq, Repr

/-- Format J of EMUCALL: unsigned routine index (R125). -/
structure EForm where
  n : BitVec 26
  deriving DecidableEq, Repr

/-- Format P of STRIP (R125). -/
structure PForm where
  sn : Fin 32
  pg : Fin 8
  pmask : BitVec 4
  off : BitVec 14
  deriving DecidableEq, Repr

/-- Format C with sa: CSRW, CSRS, CSRC (R125). -/
structure CForm where
  sd : Fin 32
  sa : Fin 32
  csr : BitVec 12
  deriving DecidableEq, Repr

/-- Format C without sa: CSRR (R125). -/
structure CRForm where
  sd : Fin 32
  csr : BitVec 12
  deriving DecidableEq, Repr

/-- Format X of the scalar atomics (R125). -/
structure XForm where
  sd : Fin 32
  sa : Fin 32
  sb : Fin 32
  scope : Scope
  order : XOrder
  hint : Fin 8
  deriving DecidableEq, Repr

/-- FENCE: the qualifier of R134 and the hint. -/
structure QualForm where
  scope : Scope
  v : Bool
  e : Bool
  hint : Fin 8
  deriving DecidableEq, Repr

/-- ACQ and REL: the object register and the qualifier of R134. -/
structure QualA where
  sa : Fin 32
  scope : Scope
  v : Bool
  e : Bool
  hint : Fin 8
  deriving DecidableEq, Repr

/-- DRINIT (R243): ring, header offset register, size register. -/
structure DrInitForm where
  ring : Fin 8
  sa : Fin 32
  sb : Fin 32
  hint : Fin 8
  deriving DecidableEq, Repr

/-- DRAWAIT (R245). -/
structure DrWaitForm where
  sd : Fin 32
  ring : Fin 8
  hint : Fin 8
  deriving DecidableEq, Repr

/-- DRREL (R245). -/
structure DrRelForm where
  ring : Fin 8
  hint : Fin 8
  deriving DecidableEq, Repr

/-- BARW (R251). -/
structure BarwForm where
  sa : Fin 32
  bar : Fin 16
  hint : Fin 8
  deriving DecidableEq, Repr

/-- BARA (R251). -/
structure BaraForm where
  sd : Fin 32
  sa : Fin 32
  bar : Fin 16
  hint : Fin 8
  deriving DecidableEq, Repr

/-- Format T of the Tug commands (R130). -/
structure TForm where
  sd : Fin 32
  sa : Fin 32
  sb : Fin 32
  tag : Fin 64
  deriving DecidableEq, Repr

/-- Format V with a vector or scalar second source and the x modifier (R127). -/
structure VB where
  vd : Fin 32
  va : Fin 32
  b : VSrc
  x : Bool
  feA : Bool
  hint : Fin 8
  deriving DecidableEq, Repr

/-- Format V with a mask destination: comparisons and VBAND (R174, R176). -/
structure VCmpForm where
  md : Fin 8
  va : Fin 32
  b : VSrc
  feA : Bool
  hint : Fin 8
  deriving DecidableEq, Repr

/-- VZSUB (R171): the destination entry in vb. -/
structure VZForm where
  vd : Fin 32
  va : Fin 32
  ent : Fin 16
  x : Bool
  feA : Bool
  hint : Fin 8
  deriving DecidableEq, Repr

/-- Format V with one vector source and the x modifier: unary VFP (R172). -/
structure VUX where
  vd : Fin 32
  va : Fin 32
  x : Bool
  feA : Bool
  hint : Fin 8
  deriving DecidableEq, Repr

/-- Format V with one vector source, no x modifier. -/
structure VU where
  vd : Fin 32
  va : Fin 32
  feA : Bool
  hint : Fin 8
  deriving DecidableEq, Repr

/-- Format V with a vector source and a scalar (s = 1), no x modifier; vd may name a scalar (R162). -/
structure VS where
  vd : Fin 32
  va : Fin 32
  sb : Fin 32
  feA : Bool
  hint : Fin 8
  deriving DecidableEq, Repr

/-- Format V with two vector sources, no x modifier. -/
structure VV where
  vd : Fin 32
  va : Fin 32
  vb : Fin 32
  feA : Bool
  feB : Bool
  hint : Fin 8
  deriving DecidableEq, Repr

/-- Mask logic with two mask sources (R175). -/
structure M3 where
  md : Fin 8
  ma : Fin 8
  mb : Fin 8
  feA : Bool
  feB : Bool
  hint : Fin 8
  deriving DecidableEq, Repr

/-- MNOT (R175). -/
structure M2 where
  md : Fin 8
  ma : Fin 8
  feA : Bool
  hint : Fin 8
  deriving DecidableEq, Repr

/-- MPOP and MFIRST (R175). -/
structure MS where
  sd : Fin 32
  ma : Fin 8
  feA : Bool
  hint : Fin 8
  deriving DecidableEq, Repr

/-- VBRD (R176). -/
structure VBrdForm where
  vd : Fin 32
  sb : Fin 32
  hint : Fin 8
  deriving DecidableEq, Repr

/-- VIOTA (R176). -/
structure VD where
  vd : Fin 32
  hint : Fin 8
  deriving DecidableEq, Repr

/-- VIDX (R128): the function index, the register that names va, and vb as the function reads it. -/
structure VIdxForm where
  vd : Fin 32
  si : Fin 32
  vb : Fin 32
  fn : Fin 32
  x : Bool
  feA : Bool
  feB : Bool
  hint : Fin 8
  deriving DecidableEq, Repr

/-- VCVT (R129): the destination entry in vb, SAT in [10]. -/
structure VCvtForm where
  vd : Fin 32
  va : Fin 32
  ent : Fin 16
  sat : Bool
  x : Bool
  feA : Bool
  hint : Fin 8
  deriving DecidableEq, Repr

/-- VQNT (R226). -/
structure VQForm where
  vd : Fin 32
  va : Fin 32
  vb : Fin 32
  sat : Bool
  x : Bool
  feA : Bool
  feB : Bool
  hint : Fin 8
  deriving DecidableEq, Repr

/-- VDQNT (R226). -/
structure VDQForm where
  vd : Fin 32
  va : Fin 32
  vb : Fin 32
  x : Bool
  feA : Bool
  feB : Bool
  hint : Fin 8
  deriving DecidableEq, Repr

/-- VAMAX (R227). -/
structure VA1 where
  va : Fin 32
  feA : Bool
  hint : Fin 8
  deriving DecidableEq, Repr

/-- VSCL (R227). -/
structure VSclForm where
  sd : Fin 32
  n : Fin 16
  ent : Fin 16
  hint : Fin 8
  deriving DecidableEq, Repr

/-- VPACK and VUNPK (R228). -/
structure VPkForm where
  vd : Fin 32
  va : Fin 32
  ent : Fin 16
  feA : Bool
  hint : Fin 8
  deriving DecidableEq, Repr

/-- VLD, VLDE and VFIL (R193). -/
structure VLdForm where
  vd : Fin 32
  q : Fin 16
  hint : Fin 8
  deriving DecidableEq, Repr

/-- VLDB (R193). -/
structure VLdbForm where
  vd : Fin 32
  q : Fin 16
  off : Fin 8
  hint : Fin 8
  deriving DecidableEq, Repr

/-- VLDSEG (R193): nf is one less than the field count. -/
structure VSegForm where
  vd : Fin 32
  q : Fin 16
  nf : Fin 8
  fw : Fin 4
  sx : Bool
  hint : Fin 8
  deriving DecidableEq, Repr

/-- VST, VSTE and VSPL (R196). -/
structure VStForm where
  vs : Fin 32
  q : Fin 16
  fe : Bool
  hint : Fin 8
  deriving DecidableEq, Repr

/-- VSTSEG (R196). -/
structure VStSegForm where
  vs : Fin 32
  q : Fin 16
  nf : Fin 8
  fw : Fin 4
  sx : Bool
  fe : Bool
  hint : Fin 8
  deriving DecidableEq, Repr

/-- QBIND and QSEEK (R186). -/
structure QAForm where
  q : Fin 16
  sa : Fin 32
  hint : Fin 8
  deriving DecidableEq, Repr

/-- QFREE (R186). -/
structure QForm where
  q : Fin 16
  hint : Fin 8
  deriving DecidableEq, Repr

/-- QSTAT (R186). -/
structure QDForm where
  sd : Fin 32
  q : Fin 16
  hint : Fin 8
  deriving DecidableEq, Repr

/-- MCLAIM (R209): w is true for a double. -/
structure MClaimForm where
  slot : Fin 32
  w : Bool
  hint : Fin 8
  deriving DecidableEq, Repr

/-- MREL (R209). -/
structure MRelForm where
  slot : Fin 32
  hint : Fin 8
  deriving DecidableEq, Repr

/-- MMA, MMAS and MSLIDE (R213): p selects the partial plane. -/
structure MmaForm where
  acc : Fin 16
  slotA : Fin 32
  slotB : Fin 32
  p : Bool
  hint : Fin 8
  deriving DecidableEq, Repr

/-- MPROM (R217). -/
structure MPromForm where
  acc : Fin 16
  slotA : Fin 32
  slotB : Fin 32
  hint : Fin 8
  deriving DecidableEq, Repr

/-- MZERO (R212). -/
structure MZeroForm where
  acc : Fin 16
  hint : Fin 8
  deriving DecidableEq, Repr

/-- MACCRD (R218). -/
structure MAccRdForm where
  acc : Fin 16
  vd : Fin 32
  blk : Fin 32
  sat : Bool
  hint : Fin 8
  deriving DecidableEq, Repr

/-- MACCWR (R219). -/
structure MAccWrForm where
  acc : Fin 16
  vs : Fin 32
  blk : Fin 32
  hint : Fin 8
  deriving DecidableEq, Repr

/-- MLD (R210). -/
structure MLdForm where
  slot : Fin 32
  q : Fin 16
  l0 : Fin 64
  hint : Fin 8
  deriving DecidableEq, Repr

/-- MLDS (R211). -/
structure MLdsForm where
  slot : Fin 32
  q : Fin 16
  hint : Fin 8
  deriving DecidableEq, Repr

/-- FTWR (R224). -/
structure FtwrForm where
  n : Fin 16
  sa : Fin 32
  hint : Fin 8
  deriving DecidableEq, Repr

/-- FTRD (R224). -/
structure FtrdForm where
  sd : Fin 32
  n : Fin 16
  hint : Fin 8
  deriving DecidableEq, Repr

/-- The instructions and steps of the opcode table: the encoded ones in its order, then the steps. -/
inductive Instr where
  /-- ADD (R141). -/
  | add (f : A3)
  /-- SUB (R141). -/
  | sub (f : A3)
  /-- AND (R141). -/
  | and (f : A3)
  /-- OR (R141). -/
  | or (f : A3)
  /-- XOR (R141). -/
  | xor (f : A3)
  /-- SLL (R141). -/
  | sll (f : A3)
  /-- SRL (R141). -/
  | srl (f : A3)
  /-- SRA (R141). -/
  | sra (f : A3)
  /-- MUL (R141). -/
  | mul (f : A3)
  /-- MULH (R141). -/
  | mulh (f : A3)
  /-- DIV (R142). -/
  | div (f : A3)
  /-- DIVU (R142). -/
  | divu (f : A3)
  /-- REM (R142). -/
  | rem (f : A3)
  /-- REMU (R142). -/
  | remu (f : A3)
  /-- MIN (R141). -/
  | min (f : A3)
  /-- MAX (R141). -/
  | max (f : A3)
  /-- SLT (R141). -/
  | slt (f : A3)
  /-- SLTU (R141). -/
  | sltu (f : A3)
  /-- SEQ (R141). -/
  | seq (f : A3)
  /-- CLZ (R141). -/
  | clz (f : A2)
  /-- CTZ (R141). -/
  | ctz (f : A2)
  /-- POPC (R141). -/
  | popc (f : A2)
  /-- BEXT (R141). -/
  | bext (f : A3)
  /-- BINS (R141). -/
  | bins (f : A3)
  /-- SEL (R141). -/
  | sel (f : A3)
  /-- ADDI (R143). -/
  | addi (f : IForm)
  /-- ANDI (R143). -/
  | andi (f : IForm)
  /-- ORI (R143). -/
  | ori (f : IForm)
  /-- XORI (R143). -/
  | xori (f : IForm)
  /-- SLTI (R143). -/
  | slti (f : IForm)
  /-- LUI (R143). -/
  | lui (f : LuiForm)
  /-- SLLI (R143). -/
  | slli (f : ShForm)
  /-- SRLI (R143). -/
  | srli (f : ShForm)
  /-- SRAI (R143). -/
  | srai (f : ShForm)
  /-- LD (R144). -/
  | ld (f : LForm)
  /-- ST (R144). -/
  | st (f : LForm)
  /-- BR (R149). -/
  | br (f : BForm)
  /-- JAL (R151). -/
  | jal (f : JForm)
  /-- JALR (R151). -/
  | jalr (f : IForm)
  /-- STRIP (R152). -/
  | strip (f : PForm)
  /-- CSRR (R155). -/
  | csrr (f : CRForm)
  /-- CSRW (R155). -/
  | csrw (f : CForm)
  /-- CSRS (R155). -/
  | csrs (f : CForm)
  /-- CSRC (R155). -/
  | csrc (f : CForm)
  /-- AMOADD (R157). -/
  | amoadd (f : XForm)
  /-- AMOSWP (R157). -/
  | amoswp (f : XForm)
  /-- AMOCAS (R157). -/
  | amocas (f : XForm)
  /-- AMOMIN (R157). -/
  | amomin (f : XForm)
  /-- AMOMAX (R157). -/
  | amomax (f : XForm)
  /-- AMOAND (R157). -/
  | amoand (f : XForm)
  /-- AMOOR (R157). -/
  | amoor (f : XForm)
  /-- AMOXOR (R157). -/
  | amoxor (f : XForm)
  /-- TRAP (R256). -/
  | trap (f : A1)
  /-- ERET (R336). -/
  | eret (f : A0)
  /-- FENCE (R250). -/
  | fence (f : QualForm)
  /-- HALT (R256). -/
  | halt (f : A0)
  /-- YIELD (R256). -/
  | yield (f : A0)
  /-- SPAWN (R315). -/
  | spawn (f : A2)
  /-- NDONE (R257). -/
  | ndone (f : A0)
  /-- LEASE (R258). -/
  | lease (f : A2)
  /-- UNLEASE (R256). -/
  | unlease (f : A0)
  /-- BRKPT (R256). -/
  | brkpt (f : A1)
  /-- RDTIME (R256). -/
  | rdtime (f : AD)
  /-- NOP (R256). -/
  | nop (f : A0)
  /-- ACQ (R249). -/
  | acq (f : QualA)
  /-- REL (R249). -/
  | rel (f : QualA)
  /-- BIND (R248). -/
  | bind (f : A3)
  /-- UNBIND (R248). -/
  | unbind (f : A1)
  /-- TLWAIT (R247). -/
  | tlwait (f : AB)
  /-- TLSIG (R247). -/
  | tlsig (f : A2)
  /-- TLRD (R247). -/
  | tlrd (f : A2)
  /-- DRINIT (R243). -/
  | drinit (f : DrInitForm)
  /-- DRAWAIT (R245). -/
  | drawait (f : DrWaitForm)
  /-- DRREL (R245). -/
  | drrel (f : DrRelForm)
  /-- BARW (R251). -/
  | barw (f : BarwForm)
  /-- BARA (R251). -/
  | bara (f : BaraForm)
  /-- TAGWANY (R246). -/
  | tagwany (f : A2)
  /-- TAGWALL (R246). -/
  | tagwall (f : A2)
  /-- TAGFF (R246). -/
  | tagff (f : A2)
  /-- TCOPY (R236). -/
  | tcopy (f : TForm)
  /-- TCOPYM (R237). -/
  | tcopym (f : TForm)
  /-- TQNT (R236). -/
  | tqnt (f : TForm)
  /-- TENC (R236). -/
  | tenc (f : TForm)
  /-- TDEC (R236). -/
  | tdec (f : TForm)
  /-- TQSC (R236). -/
  | tqsc (f : TForm)
  /-- TSTAT (R239). -/
  | tstat (f : TForm)
  /-- TBLK (R238). -/
  | tblk (f : TForm)
  /-- WBIND (R253). -/
  | wbind (f : A3)
  /-- WQRY (R111). -/
  | wqry (f : A3)
  /-- WAPP (R115). -/
  | wapp (f : A3)
  /-- WREFIT (R117). -/
  | wrefit (f : ADB)
  /-- WDRAIN (R253). -/
  | wdrain (f : ADB)
  /-- EMUCALL (R380). -/
  | emucall (f : EForm)
  /-- VSETL (R168). -/
  | vsetl (f : A2)
  /-- VSHAPE (R168). -/
  | vshape (f : A3)
  /-- VTYPE (R168). -/
  | vtype (f : A2)
  /-- VSETM (R168). -/
  | vsetm (f : A2)
  /-- VSETS (R168). -/
  | vsets (f : A2)
  /-- VDECL (R168). -/
  | vdecl (f : A2)
  /-- VLIVE (R168). -/
  | vlive (f : A2)
  /-- VADD (R170). -/
  | vadd (f : VB)
  /-- VSUB (R170). -/
  | vsub (f : VB)
  /-- VMUL (R170). -/
  | vmul (f : VB)
  /-- VMULH (R170). -/
  | vmulh (f : VB)
  /-- VMACC (R170). -/
  | vmacc (f : VB)
  /-- VAND (R170). -/
  | vand (f : VB)
  /-- VOR (R170). -/
  | vor (f : VB)
  /-- VXOR (R170). -/
  | vxor (f : VB)
  /-- VSLL (R170). -/
  | vsll (f : VB)
  /-- VSRL (R170). -/
  | vsrl (f : VB)
  /-- VSRA (R170). -/
  | vsra (f : VB)
  /-- VMIN (R170). -/
  | vmin (f : VB)
  /-- VMAX (R170). -/
  | vmax (f : VB)
  /-- VSADD (R170). -/
  | vsadd (f : VB)
  /-- VSSUB (R170). -/
  | vssub (f : VB)
  /-- VZSUB (R171). -/
  | vzsub (f : VZForm)
  /-- VFADD (R172). -/
  | vfadd (f : VB)
  /-- VFSUB (R172). -/
  | vfsub (f : VB)
  /-- VFMUL (R172). -/
  | vfmul (f : VB)
  /-- VFMA (R172). -/
  | vfma (f : VB)
  /-- VFNMS (R172). -/
  | vfnms (f : VB)
  /-- VFDIV (R172). -/
  | vfdiv (f : VB)
  /-- VFSQRT (R173). -/
  | vfsqrt (f : VUX)
  /-- VFMIN (R172). -/
  | vfmin (f : VB)
  /-- VFMAX (R172). -/
  | vfmax (f : VB)
  /-- VFABS (R173). -/
  | vfabs (f : VUX)
  /-- VFNEG (R173). -/
  | vfneg (f : VUX)
  /-- VFREC (R173). -/
  | vfrec (f : VUX)
  /-- VFRSQ (R173). -/
  | vfrsq (f : VUX)
  /-- VFEXP2 (R173). -/
  | vfexp2 (f : VUX)
  /-- VCEQ (R174). -/
  | vceq (f : VCmpForm)
  /-- VCNE (R174). -/
  | vcne (f : VCmpForm)
  /-- VCLT (R174). -/
  | vclt (f : VCmpForm)
  /-- VCLE (R174). -/
  | vcle (f : VCmpForm)
  /-- VCLTU (R174). -/
  | vcltu (f : VCmpForm)
  /-- VFCEQ (R174). -/
  | vfceq (f : VCmpForm)
  /-- VFCLT (R174). -/
  | vfclt (f : VCmpForm)
  /-- VFCLE (R174). -/
  | vfcle (f : VCmpForm)
  /-- VFCUN (R174). -/
  | vfcun (f : VCmpForm)
  /-- MAND (R175). -/
  | mand (f : M3)
  /-- MOR (R175). -/
  | mor (f : M3)
  /-- MXOR (R175). -/
  | mxor (f : M3)
  /-- MNOT (R175). -/
  | mnot (f : M2)
  /-- MPOP (R175). -/
  | mpop (f : MS)
  /-- MFIRST (R175). -/
  | mfirst (f : MS)
  /-- VSLUP (R176). -/
  | vslup (f : VS)
  /-- VSLDN (R176). -/
  | vsldn (f : VS)
  /-- VCOMP (R176). -/
  | vcomp (f : VU)
  /-- VEXPD (R176). -/
  | vexpd (f : VU)
  /-- VREDS (R100). -/
  | vreds (f : VS)
  /-- VREDMX (R177). -/
  | vredmx (f : VS)
  /-- VREDMN (R177). -/
  | vredmn (f : VS)
  /-- VFREDS (R101). -/
  | vfreds (f : VS)
  /-- VMVS (R176). -/
  | vmvs (f : VS)
  /-- VBRD (R176). -/
  | vbrd (f : VBrdForm)
  /-- VIOTA (R178). -/
  | viota (f : VD)
  /-- VBAND (R176). -/
  | vband (f : VCmpForm)
  /-- VBPFX (R176). -/
  | vbpfx (f : VU)
  /-- VENCR (R179). -/
  | vencr (f : VU)
  /-- VENCD (R179). -/
  | vencd (f : VU)
  /-- VENCT (R179). -/
  | venct (f : VU)
  /-- VDEC (R179). -/
  | vdec (f : VU)
  /-- VRENC (R179). -/
  | vrenc (f : VU)
  /-- VENCQ (R180). -/
  | vencq (f : VV)
  /-- VDICT_EXTRACT (R181). -/
  | vdictExtract (f : VU)
  /-- VDICT_REPLACE (R181). -/
  | vdictReplace (f : VV)
  /-- VIDX (R182). -/
  | vidx (f : VIdxForm)
  /-- VCVT (R225). -/
  | vcvt (f : VCvtForm)
  /-- VQNT (R226). -/
  | vqnt (f : VQForm)
  /-- VDQNT (R226). -/
  | vdqnt (f : VDQForm)
  /-- VAMAX (R79). -/
  | vamax (f : VA1)
  /-- VSCL (R80). -/
  | vscl (f : VSclForm)
  /-- VPACK (R228). -/
  | vpack (f : VPkForm)
  /-- VUNPK (R228). -/
  | vunpk (f : VPkForm)
  /-- VLD (R192). -/
  | vld (f : VLdForm)
  /-- VLDB (R193). -/
  | vldb (f : VLdbForm)
  /-- VLDSEG (R193). -/
  | vldseg (f : VSegForm)
  /-- VLDE (R195). -/
  | vlde (f : VLdForm)
  /-- VFIL (R198). -/
  | vfil (f : VLdForm)
  /-- VST (R196). -/
  | vst (f : VStForm)
  /-- VSTSEG (R196). -/
  | vstseg (f : VStSegForm)
  /-- VSTE (R197). -/
  | vste (f : VStForm)
  /-- VSPL (R198). -/
  | vspl (f : VStForm)
  /-- VGATH (R199). -/
  | vgath (f : VS)
  /-- VSCAT (R199). -/
  | vscat (f : VS)
  /-- VGATHP (R200). -/
  | vgathp (f : VS)
  /-- VLTLD (R201). -/
  | vltld (f : VU)
  /-- VLTST (R201). -/
  | vltst (f : VU)
  /-- VLTADD (R201). -/
  | vltadd (f : VU)
  /-- QBIND (R186). -/
  | qbind (f : QAForm)
  /-- QFREE (R186). -/
  | qfree (f : QForm)
  /-- QSEEK (R186). -/
  | qseek (f : QAForm)
  /-- QSTAT (R186). -/
  | qstat (f : QDForm)
  /-- VAMOADD (R202). -/
  | vamoadd (f : VS)
  /-- VAMOMAX (R202). -/
  | vamomax (f : VS)
  /-- VAMOCAS (R202). -/
  | vamocas (f : VS)
  /-- MCLAIM (R209). -/
  | mclaim (f : MClaimForm)
  /-- MREL (R209). -/
  | mrel (f : MRelForm)
  /-- MMA (R214). -/
  | mma (f : MmaForm)
  /-- MMAS (R215). -/
  | mmas (f : MmaForm)
  /-- MSLIDE (R216). -/
  | mslide (f : MmaForm)
  /-- MPROM (R217). -/
  | mprom (f : MPromForm)
  /-- MZERO (R212). -/
  | mzero (f : MZeroForm)
  /-- MACCRD (R218). -/
  | maccrd (f : MAccRdForm)
  /-- MACCWR (R219). -/
  | maccwr (f : MAccWrForm)
  /-- MLD (R210). -/
  | mld (f : MLdForm)
  /-- MLDS (R211). -/
  | mlds (f : MLdsForm)
  /-- FTWR (R224). -/
  | ftwr (f : FtwrForm)
  /-- FTRD (R224). -/
  | ftrd (f : FtrdForm)
  /-- FTFENCE (R82). -/
  | ftfence (f : A0)
  /-- DECODE_CAUSE (R121). -/
  | decodeCause (c : DecodeCause) (w : BitVec 32)
  /-- FETCH_CAUSE (R328). -/
  | fetchCause (c : FetchCause) (addr : BitVec 64)
  /-- PARK (R340). -/
  | park (pa : Nat)
  /-- MOVEOUT (R340). -/
  | moveout (pa : Nat)
  /-- RESUME (R340). -/
  | resume (pa : Nat)
  /-- KILL (R340). -/
  | kill (pa : Nat)
  /-- INVALIDATION_REQUEST (R325). -/
  | invalidationRequest (pa : Nat)
  /-- COMMAND_FETCH (R385). -/
  | commandFetch (q : Fin 64)
  /-- FETCH_RETRY (R385). -/
  | fetchRetry (q : Fin 64)
  /-- COMPLETION_RECORD_WRITE (R388). -/
  | completionRecordWrite (q : Fin 64)
  /-- HOST_CMD_NOP (R384). -/
  | hostCmdNop (h : CmdHead)
  /-- SUBMIT (R384). -/
  | submit (h : CmdHead) (asid : BitVec 16) (va : BitVec 64)
  /-- REGION_INSTALL (R384). -/
  | regionInstall (h : CmdHead) (asid : BitVec 16) (va : BitVec 64)
  /-- REGION_REMOVE (R384). -/
  | regionRemove (h : CmdHead) (asid : BitVec 16) (va : BitVec 64)
  /-- FDTAB_SET (R384). -/
  | fdtabSet (h : CmdHead) (pa : BitVec 64)
  /-- NVME_QPAIR (R384). -/
  | nvmeQpair (h : CmdHead) (p : QPair) (answer : Option (BitVec 32))
  /-- FABRIC_ACKNOWLEDGEMENT (R393). -/
  | fabricAcknowledgement (dst : Nat) (seq : Nat)
  /-- VECTOR_LANE_ADMIT (R33). -/
  | vectorLaneAdmit (c : CtxId)
  /-- VALUE_LANDS (R26). -/
  | valueLands (c : CtxId) (i : Nat)
  /-- PEER_GATHER_RETURN (R200). -/
  | peerGatherReturn (c : CtxId) (m : Nat)
  /-- TUG_COMMAND_START (R240). -/
  | tugCommandStart (t : TugId) (n : Nat)
  /-- TUG_BEAT_LANDS (R240). -/
  | tugBeatLands (t : TugId) (n : Nat)
  /-- TUG_COMMAND_COMPLETE (R240). -/
  | tugCommandComplete (t : TugId) (n : Nat)
  /-- FOLLOW_ON_ISSUE (R237). -/
  | followOnIssue (t : TugId) (n : Nat)
  /-- ARRAY_ACCEPT (R221). -/
  | arrayAccept (core : Fin 1024)
  /-- ARRAY_OP_COMPLETE (R221). -/
  | arrayOpComplete (core : Fin 1024)
  /-- SLOT_FILL_LANDS (R207). -/
  | slotFillLands (core : Fin 1024) (slot : Fin 32)
  /-- AWL_OPERATION_START (R253). -/
  | awlOperationStart (w : WalkId)
  /-- AWL_LOCK_GRANT (R115). -/
  | awlLockGrant (w : WalkId)
  /-- AWL_SLOT_TAKE (R244). -/
  | awlSlotTake (w : WalkId)
  /-- AWL_OPERATION_COMPLETE (R111). -/
  | awlOperationComplete (w : WalkId)
  /-- WAIT_RELEASE (R313). -/
  | waitRelease (c : CtxId)
  /-- NODE_DISPATCH (R302). -/
  | nodeDispatch (die : Fin 8)
  /-- ADMISSION (R307). -/
  | admission (g : Nat)
  /-- BOUND_OVERRUN (R310). -/
  | boundOverrun (g : Nat) (node : Nat)
  /-- STREAM_WALK_AHEAD (R190). -/
  | streamWalkAhead (c : CtxId) (q : Fin 16)
  /-- CODE_FILL (R329). -/
  | codeFill (die : Fin 8) (asid : BitVec 16) (va : BitVec 64)
  /-- POOL_CLEAR (R42). -/
  | poolClear (core : Fin 1024)
  /-- PRIORITY_AGE (R302). -/
  | priorityAge (die : Fin 8)
  /-- PRIORITY_HOLD (R302). -/
  | priorityHold (die : Fin 8)
  /-- LANE_GROUP_RETENTION (R402). -/
  | laneGroupRetention (c : CtxId) (g : Fin 4)
  /-- LANE_GROUP_WAKE (R403). -/
  | laneGroupWake (c : CtxId) (g : Fin 4) (lost : BitVec 128)
  /-- SLAB_FILL (R33). -/
  | slabFill (c : CtxId) (v : Fin 40) (slab : Fin 32)
  /-- DEADLINE_WATCH (R310). -/
  | deadlineWatch (g : Nat)
  /-- SQTAIL (R386). -/
  | sqtail (q : Fin 64) (v : BitVec 32)
  /-- CQHEAD (R388). -/
  | cqhead (q : Fin 64) (v : BitVec 32)
  /-- SQCFG (R382). -/
  | sqcfg (q : Fin 64) (v : BitVec 64)
  /-- CQCFG (R382). -/
  | cqcfg (q : Fin 64) (v : BitVec 64)
  /-- REGISTER_WRITE (R381). -/
  | registerWrite (r : HostReg) (v : BitVec 64)
  /-- HOST_MEM_ACCESS (R389). -/
  | hostMemAccess (off : Nat) (a : HostAccess)
  /-- DLGO (R408). -/
  | dlgo (link : Fin 2)
  /-- FIRMWARE_VERIFY (R409). -/
  | firmwareVerify (readError : Bool) (plan : BringUp)
  /-- POWER_UP (R410). -/
  | powerUp
  /-- POWER_LOSS (R410). -/
  | powerLoss
  /-- DRIVE_DMA_WRITE (R391). -/
  | driveDmaWrite (drive : Fin 128) (pa : Nat) (data : List (BitVec 8))
  /-- MEM_LINK_CRC_RETRY (R349). -/
  | memLinkCrcRetry (l : Fin 96)
  /-- MEM_LINK_RETRAIN (R349). -/
  | memLinkRetrain (l : Fin 96) (ok : Bool)
  /-- BALFIN_FLIT_REPLAY (R392). -/
  | balfinFlitReplay (p : Fin 36) (seq : Nat)
  /-- BALFIN_RETRAIN (R392). -/
  | balfinRetrain (p : Fin 36) (ok : Bool)
  /-- FABRIC_RESEND (R393). -/
  | fabricResend (dst : Nat) (seq : Nat) (plane : Fin 36)
  /-- FABRIC_DELIVERY (R291). -/
  | fabricDelivery (src : Nat) (seq : Nat) (a : FabricAccess)
  /-- HOME_MODULE_LOST (R349). -/
  | homeModuleLost (m : Nat)
  /-- UNIT_FENCE (R350). -/
  | unitFence (u : FenceUnit)
  /-- SRAM_SCRUB (R347). -/
  | sramScrub (core : Fin 1024) (off : Nat)
  /-- CINCH_TICK (R399). -/
  | cinchTick (cl : Fin 128) (reading : SensorReading)
  /-- SENSOR_CROSS_CHECK (R398). -/
  | sensorCrossCheck (cl : Fin 128) (reading : SensorReading)
  /-- FLOOR_LOWER (R400). -/
  | floorLower (cl : Fin 128)
  /-- AGEING_READ (R407). -/
  | ageingRead (plans : PowerPlan)
  /-- LEASE_EXPIRE (R405). -/
  | leaseExpire (c : CtxId)
  /-- FLIT_ACKNOWLEDGEMENT (R392). -/
  | flitAcknowledgement (p : Fin 36) (upto : Nat)
  /-- RESIZABLE_BAR_WRITE (R381). -/
  | resizableBarWrite (log2 : Nat)
  deriving DecidableEq, Repr

end Sys2Proof
end

