-- ==== Sys2Proof/WellFormed.lean ====
section
/-! DEFINITION. Which instructions a word can hold: the checks of R121 steps 4 and 5 that the types of Syntax leave open. -/

namespace Sys2Proof

/-- STRIP (R125, R152): sn is not s0, the group is 1 to 7, and sn is none of the pointers selected. -/
def stripOk (f : PForm) : Bool :=
  f.sn.val != 0 && f.pg.val != 0 &&
    !(f.sn.val / 4 == f.pg.val && f.pmask.toNat / 2 ^ (f.sn.val % 4) % 2 == 1)

/-- MCLAIM (R209): a double starts at an even slot. -/
def mclaimOk (f : MClaimForm) : Bool := !f.w || f.slot.val % 2 == 0

/-- VAMOCAS (R202): vd is even. -/
def vamocasOk (f : VS) : Bool := f.vd.val % 2 == 0

/-- ST (R125): no width that only a load has. -/
def stOk (f : LForm) : Bool :=
  match f.width with
  | .bu | .hu | .wu => false
  | .b | .h | .w | .d => true

/-- BR (R149, R131): FULL and EMPTY read no sb. -/
def brOk (f : BForm) : Bool :=
  match f.cond with
  | .full | .empty => f.sb.val == 0
  | .eq | .ne | .lt | .ge | .ltu | .geu => true

/-- Whether a VIDX function index is a unary VFP function (R172, R182). -/
def vidxUnary (fn : Nat) : Bool := fn == 22 || (25 ≤ fn && fn ≤ 29)

/-- VIDX (R128, R182): an assigned index; VZSUB's entry in vb[14:11] with [15] zero; a unary function's vb zero; no fe[3] where vb names no vector. -/
def vidxOk (f : VIdxForm) : Bool :=
  f.fn.val < 30 &&
    (if f.fn.val == 15 then f.vb.val < 16 && !f.feB
     else if vidxUnary f.fn.val then f.vb.val == 0 && !f.feB
     else true)

/-- The hint a form may carry (R135): 0 to 3. -/
def hintWf (h : Fin 8) : Bool := h.val < 4

/-- The hint a VLD-major form may carry (R135): 0 to 4. -/
def hintWfVld (h : Fin 8) : Bool := h.val < 5

/-- A well-formed instruction. A step of the hardware has no encoding and nothing to check here. -/
def wf : Instr → Bool
  | .add f => hintWf f.hint
  | .sub f => hintWf f.hint
  | .and f => hintWf f.hint
  | .or f => hintWf f.hint
  | .xor f => hintWf f.hint
  | .sll f => hintWf f.hint
  | .srl f => hintWf f.hint
  | .sra f => hintWf f.hint
  | .mul f => hintWf f.hint
  | .mulh f => hintWf f.hint
  | .div f => hintWf f.hint
  | .divu f => hintWf f.hint
  | .rem f => hintWf f.hint
  | .remu f => hintWf f.hint
  | .min f => hintWf f.hint
  | .max f => hintWf f.hint
  | .slt f => hintWf f.hint
  | .sltu f => hintWf f.hint
  | .seq f => hintWf f.hint
  | .clz f => hintWf f.hint
  | .ctz f => hintWf f.hint
  | .popc f => hintWf f.hint
  | .bext f => hintWf f.hint
  | .bins f => hintWf f.hint
  | .sel f => hintWf f.hint
  | .addi _ => true
  | .andi _ => true
  | .ori _ => true
  | .xori _ => true
  | .slti _ => true
  | .lui _ => true
  | .slli _ => true
  | .srli _ => true
  | .srai _ => true
  | .ld _ => true
  | .st f => stOk f
  | .br f => brOk f
  | .jal _ => true
  | .jalr _ => true
  | .strip f => stripOk f
  | .csrr _ => true
  | .csrw _ => true
  | .csrs _ => true
  | .csrc _ => true
  | .amoadd f => hintWf f.hint
  | .amoswp f => hintWf f.hint
  | .amocas f => hintWf f.hint
  | .amomin f => hintWf f.hint
  | .amomax f => hintWf f.hint
  | .amoand f => hintWf f.hint
  | .amoor f => hintWf f.hint
  | .amoxor f => hintWf f.hint
  | .trap f => hintWf f.hint
  | .eret f => hintWf f.hint
  | .fence f => hintWf f.hint
  | .halt f => hintWf f.hint
  | .yield f => hintWf f.hint
  | .spawn f => hintWf f.hint
  | .ndone f => hintWf f.hint
  | .lease f => hintWf f.hint
  | .unlease f => hintWf f.hint
  | .brkpt f => hintWf f.hint
  | .rdtime f => hintWf f.hint
  | .nop f => hintWf f.hint
  | .acq f => hintWf f.hint
  | .rel f => hintWf f.hint
  | .bind f => hintWf f.hint
  | .unbind f => hintWf f.hint
  | .tlwait f => hintWf f.hint
  | .tlsig f => hintWf f.hint
  | .tlrd f => hintWf f.hint
  | .drinit f => hintWf f.hint
  | .drawait f => hintWf f.hint
  | .drrel f => hintWf f.hint
  | .barw f => hintWf f.hint
  | .bara f => hintWf f.hint
  | .tagwany f => hintWf f.hint
  | .tagwall f => hintWf f.hint
  | .tagff f => hintWf f.hint
  | .tcopy _ => true
  | .tcopym _ => true
  | .tqnt _ => true
  | .tenc _ => true
  | .tdec _ => true
  | .tqsc _ => true
  | .tstat _ => true
  | .tblk _ => true
  | .wbind f => hintWf f.hint
  | .wqry f => hintWf f.hint
  | .wapp f => hintWf f.hint
  | .wrefit f => hintWf f.hint
  | .wdrain f => hintWf f.hint
  | .emucall _ => true
  | .vsetl f => hintWf f.hint
  | .vshape f => hintWf f.hint
  | .vtype f => hintWf f.hint
  | .vsetm f => hintWf f.hint
  | .vsets f => hintWf f.hint
  | .vdecl f => hintWf f.hint
  | .vlive f => hintWf f.hint
  | .vadd f => hintWf f.hint
  | .vsub f => hintWf f.hint
  | .vmul f => hintWf f.hint
  | .vmulh f => hintWf f.hint
  | .vmacc f => hintWf f.hint
  | .vand f => hintWf f.hint
  | .vor f => hintWf f.hint
  | .vxor f => hintWf f.hint
  | .vsll f => hintWf f.hint
  | .vsrl f => hintWf f.hint
  | .vsra f => hintWf f.hint
  | .vmin f => hintWf f.hint
  | .vmax f => hintWf f.hint
  | .vsadd f => hintWf f.hint
  | .vssub f => hintWf f.hint
  | .vzsub f => hintWf f.hint
  | .vfadd f => hintWf f.hint
  | .vfsub f => hintWf f.hint
  | .vfmul f => hintWf f.hint
  | .vfma f => hintWf f.hint
  | .vfnms f => hintWf f.hint
  | .vfdiv f => hintWf f.hint
  | .vfsqrt f => hintWf f.hint
  | .vfmin f => hintWf f.hint
  | .vfmax f => hintWf f.hint
  | .vfabs f => hintWf f.hint
  | .vfneg f => hintWf f.hint
  | .vfrec f => hintWf f.hint
  | .vfrsq f => hintWf f.hint
  | .vfexp2 f => hintWf f.hint
  | .vceq f => hintWf f.hint
  | .vcne f => hintWf f.hint
  | .vclt f => hintWf f.hint
  | .vcle f => hintWf f.hint
  | .vcltu f => hintWf f.hint
  | .vfceq f => hintWf f.hint
  | .vfclt f => hintWf f.hint
  | .vfcle f => hintWf f.hint
  | .vfcun f => hintWf f.hint
  | .mand f => hintWf f.hint
  | .mor f => hintWf f.hint
  | .mxor f => hintWf f.hint
  | .mnot f => hintWf f.hint
  | .mpop f => hintWf f.hint
  | .mfirst f => hintWf f.hint
  | .vslup f => hintWf f.hint
  | .vsldn f => hintWf f.hint
  | .vcomp f => hintWf f.hint
  | .vexpd f => hintWf f.hint
  | .vreds f => hintWf f.hint
  | .vredmx f => hintWf f.hint
  | .vredmn f => hintWf f.hint
  | .vfreds f => hintWf f.hint
  | .vmvs f => hintWf f.hint
  | .vbrd f => hintWf f.hint
  | .viota f => hintWf f.hint
  | .vband f => hintWf f.hint
  | .vbpfx f => hintWf f.hint
  | .vencr f => hintWf f.hint
  | .vencd f => hintWf f.hint
  | .venct f => hintWf f.hint
  | .vdec f => hintWf f.hint
  | .vrenc f => hintWf f.hint
  | .vencq f => hintWf f.hint
  | .vdictExtract f => hintWf f.hint
  | .vdictReplace f => hintWf f.hint
  | .vidx f => vidxOk f && hintWf f.hint
  | .vcvt f => hintWf f.hint
  | .vqnt f => hintWf f.hint
  | .vdqnt f => hintWf f.hint
  | .vamax f => hintWf f.hint
  | .vscl f => hintWf f.hint
  | .vpack f => hintWf f.hint
  | .vunpk f => hintWf f.hint
  | .vld f => hintWfVld f.hint
  | .vldb f => hintWfVld f.hint
  | .vldseg f => hintWfVld f.hint
  | .vlde f => hintWfVld f.hint
  | .vfil f => hintWfVld f.hint
  | .vst f => hintWf f.hint
  | .vstseg f => hintWf f.hint
  | .vste f => hintWf f.hint
  | .vspl f => hintWf f.hint
  | .vgath f => hintWf f.hint
  | .vscat f => hintWf f.hint
  | .vgathp f => hintWf f.hint
  | .vltld f => hintWf f.hint
  | .vltst f => hintWf f.hint
  | .vltadd f => hintWf f.hint
  | .qbind f => hintWf f.hint
  | .qfree f => hintWf f.hint
  | .qseek f => hintWf f.hint
  | .qstat f => hintWf f.hint
  | .vamoadd f => hintWf f.hint
  | .vamomax f => hintWf f.hint
  | .vamocas f => vamocasOk f && hintWf f.hint
  | .mclaim f => mclaimOk f && hintWf f.hint
  | .mrel f => hintWf f.hint
  | .mma f => hintWf f.hint
  | .mmas f => hintWf f.hint
  | .mslide f => hintWf f.hint
  | .mprom f => hintWf f.hint
  | .mzero f => hintWf f.hint
  | .maccrd f => hintWf f.hint
  | .maccwr f => hintWf f.hint
  | .mld f => hintWf f.hint
  | .mlds f => hintWf f.hint
  | .ftwr f => hintWf f.hint
  | .ftrd f => hintWf f.hint
  | .ftfence f => hintWf f.hint
  | .vectorLaneAdmit _ => true
  | .slabFill _ _ _ => true
  | .laneGroupRetention _ _ => true
  | .laneGroupWake _ _ _ => true
  | .valueLands _ _ => true
  | .streamWalkAhead _ _ => true
  | .peerGatherReturn _ _ => true
  | .tugCommandStart _ _ => true
  | .tugBeatLands _ _ => true
  | .tugCommandComplete _ _ => true
  | .followOnIssue _ _ => true
  | .arrayAccept _ => true
  | .arrayOpComplete _ => true
  | .slotFillLands _ _ => true
  | .awlOperationStart _ => true
  | .awlLockGrant _ => true
  | .awlSlotTake _ => true
  | .awlOperationComplete _ => true
  | .waitRelease _ => true
  | .codeFill _ _ _ => true
  | .poolClear _ => true
  | .nodeDispatch _ => true
  | .priorityAge _ => true
  | .priorityHold _ => true
  | .admission _ => true
  | .boundOverrun _ _ => true
  | .deadlineWatch _ => true
  | .completionRecordWrite _ => true
  | .commandFetch _ => true
  | .fetchRetry _ => true
  | .sqtail _ _ => true
  | .cqhead _ _ => true
  | .sqcfg _ _ => true
  | .cqcfg _ _ => true
  | .registerWrite _ _ => true
  | .hostCmdNop _ => true
  | .submit _ _ _ => true
  | .regionInstall _ _ _ => true
  | .regionRemove _ _ _ => true
  | .fdtabSet _ _ => true
  | .nvmeQpair _ _ _ => true
  | .hostMemAccess _ _ => true
  | .park _ => true
  | .moveout _ => true
  | .resume _ => true
  | .kill _ => true
  | .invalidationRequest _ => true
  | .dlgo _ => true
  | .firmwareVerify _ _ => true
  | .powerUp => true
  | .powerLoss => true
  | .driveDmaWrite _ _ _ => true
  | .memLinkCrcRetry _ => true
  | .memLinkRetrain _ _ => true
  | .balfinFlitReplay _ _ => true
  | .balfinRetrain _ _ => true
  | .fabricResend _ _ _ => true
  | .fabricDelivery _ _ _ => true
  | .homeModuleLost _ => true
  | .unitFence _ => true
  | .sramScrub _ _ => true
  | .cinchTick _ _ => true
  | .sensorCrossCheck _ _ => true
  | .floorLower _ => true
  | .ageingRead _ => true
  | .leaseExpire _ => true
  | .decodeCause _ _ => true
  | .fetchCause _ _ => true
  | .fabricAcknowledgement _ _ => true
  | .flitAcknowledgement _ _ => true
  | .resizableBarWrite _ => true

end Sys2Proof
end

