-- ==== Sys2Proof/Decode.lean ====
section
/-! DEFINITION. Decoding an instruction word under R121 steps 1 to 5, with the formats of R124 to R131, the majors of R132, the functions of R133 and the hints of R135; then the encoder, from the same tables. Steps 6 and 7 of R121 depend on the context and stand first in each meaning. -/

namespace Sys2Proof

/-- Bit `i` of a word. -/
def bitAt (w i : Nat) : Bool := w / 2 ^ i % 2 == 1

def condOf : Nat → Cond
  | 0 => .eq | 1 => .ne | 2 => .lt | 3 => .ge | 4 => .ltu | 5 => .geu | 6 => .full | _ => .empty

def condCode : Cond → Nat
  | .eq => 0 | .ne => 1 | .lt => 2 | .ge => 3 | .ltu => 4 | .geu => 5 | .full => 6 | .empty => 7

def scopeOf : Nat → Option Scope
  | 0 => some .core | 1 => some .clu | 2 => some .die | 3 => some .mod | 4 => some .dom | _ => none

def scopeCode : Scope → Nat
  | .core => 0 | .clu => 1 | .die => 2 | .mod => 3 | .dom => 4

def xorderOf : Nat → Option XOrder
  | 0 => some .relaxed | 1 => some .acquire | 2 => some .release | _ => none

def xorderCode : XOrder → Nat
  | .relaxed => 0 | .acquire => 1 | .release => 2

def lorderOf : Nat → Option LOrder
  | 0 => some .plain | 1 => some .relaxed | 2 => some .sync | _ => none

def lorderCode : LOrder → Nat
  | .plain => 0 | .relaxed => 1 | .sync => 2

def widthOf : Nat → Option Width
  | 0 => some .b | 1 => some .bu | 2 => some .h | 3 => some .hu | 4 => some .w | 5 => some .wu | 6 => some .d | _ => none

def widthCode : Width → Nat
  | .b => 0 | .bu => 1 | .h => 2 | .hu => 3 | .w => 4 | .wu => 5 | .d => 6

/-- The second source of a V-format word (R127): fe[3] over a scalar is refused. -/
def vsrcOf (w : Nat) : Option VSrc :=
  if bitAt w 10 then
    if bitAt w 3 then none else some (.sca (Fin.ofNat 32 (w / 2 ^ 11)))
  else some (.vec (Fin.ofNat 32 (w / 2 ^ 11)) (bitAt w 3))

def vsrcCode : VSrc → Nat
  | .vec r fe => r.val * 2 ^ 11 + fe.toNat * 2 ^ 3
  | .sca r => r.val * 2 ^ 11 + 2 ^ 10

/-- A hint that every hinted format accepts (R135). -/
def hintOk (w : Nat) : Bool := w % 8 < 4

/-- A hint that the VLD major accepts (R135). -/
def hintOkVld (w : Nat) : Bool := w % 8 < 5

/-- Steps 4 and 5 of R121: the fixed fields, the field values, what the form refuses at decode, the hint. -/
def accept {α : Type} (zero hint : Bool) (f : Option α) (ok : α → Bool) (mk : α → Instr) : Except DecodeCause Instr :=
  if zero then
    match f with
    | none => .error .illField
    | some x => if ok x then (if hint then .ok (mk x) else .error .illHint) else .error .illField
  else .error .illField

def readA3 (w : Nat) : A3 :=
  ⟨Fin.ofNat 32 (w / 2 ^ 21), Fin.ofNat 32 (w / 2 ^ 16), Fin.ofNat 32 (w / 2 ^ 11), Fin.ofNat 8 (w)⟩

def readA2 (w : Nat) : A2 :=
  ⟨Fin.ofNat 32 (w / 2 ^ 21), Fin.ofNat 32 (w / 2 ^ 16), Fin.ofNat 8 (w)⟩

def readA1 (w : Nat) : A1 :=
  ⟨Fin.ofNat 32 (w / 2 ^ 16), Fin.ofNat 8 (w)⟩

def readAD (w : Nat) : AD :=
  ⟨Fin.ofNat 32 (w / 2 ^ 21), Fin.ofNat 8 (w)⟩

def readA0 (w : Nat) : A0 :=
  ⟨Fin.ofNat 8 (w)⟩

def readAB (w : Nat) : AB :=
  ⟨Fin.ofNat 32 (w / 2 ^ 16), Fin.ofNat 32 (w / 2 ^ 11), Fin.ofNat 8 (w)⟩

def readADB (w : Nat) : ADB :=
  ⟨Fin.ofNat 32 (w / 2 ^ 21), Fin.ofNat 32 (w / 2 ^ 11), Fin.ofNat 8 (w)⟩

def readIForm (w : Nat) : IForm :=
  ⟨Fin.ofNat 32 (w / 2 ^ 21), Fin.ofNat 32 (w / 2 ^ 16), BitVec.ofNat 16 (w)⟩

def readLuiForm (w : Nat) : LuiForm :=
  ⟨Fin.ofNat 32 (w / 2 ^ 21), BitVec.ofNat 16 (w)⟩

def readShForm (w : Nat) : ShForm :=
  ⟨Fin.ofNat 32 (w / 2 ^ 21), Fin.ofNat 32 (w / 2 ^ 16), Fin.ofNat 64 (w / 2 ^ 8)⟩

def readLForm (w : Nat) : Option LForm :=
  (widthOf (w / 2 ^ 13 % 8)).bind fun width =>
  (lorderOf (w / 2 ^ 11 % 4)).bind fun order =>
  some ⟨Fin.ofNat 32 (w / 2 ^ 21), Fin.ofNat 32 (w / 2 ^ 16), width, order, BitVec.ofNat 11 (w)⟩

def readBForm (w : Nat) : BForm :=
  ⟨Fin.ofNat 32 (w / 2 ^ 21), Fin.ofNat 32 (w / 2 ^ 16), condOf (w / 2 ^ 13 % 8), BitVec.ofNat 13 (w)⟩

def readJForm (w : Nat) : JForm :=
  ⟨BitVec.ofNat 26 (w)⟩

def readEForm (w : Nat) : EForm :=
  ⟨BitVec.ofNat 26 (w)⟩

def readPForm (w : Nat) : PForm :=
  ⟨Fin.ofNat 32 (w / 2 ^ 21), Fin.ofNat 8 (w / 2 ^ 18), BitVec.ofNat 4 (w / 2 ^ 14), BitVec.ofNat 14 (w)⟩

def readCForm (w : Nat) : CForm :=
  ⟨Fin.ofNat 32 (w / 2 ^ 21), Fin.ofNat 32 (w / 2 ^ 16), BitVec.ofNat 12 (w)⟩

def readCRForm (w : Nat) : CRForm :=
  ⟨Fin.ofNat 32 (w / 2 ^ 21), BitVec.ofNat 12 (w)⟩

def readXForm (w : Nat) : Option XForm :=
  (scopeOf (w / 2 ^ 5 % 8)).bind fun scope =>
  (xorderOf (w / 2 ^ 3 % 4)).bind fun order =>
  some ⟨Fin.ofNat 32 (w / 2 ^ 21), Fin.ofNat 32 (w / 2 ^ 16), Fin.ofNat 32 (w / 2 ^ 11), scope, order, Fin.ofNat 8 (w)⟩

def readQualForm (w : Nat) : Option QualForm :=
  (scopeOf (w / 2 ^ 13 % 8)).bind fun scope =>
  some ⟨scope, bitAt w 12, bitAt w 11, Fin.ofNat 8 (w)⟩

def readQualA (w : Nat) : Option QualA :=
  (scopeOf (w / 2 ^ 13 % 8)).bind fun scope =>
  some ⟨Fin.ofNat 32 (w / 2 ^ 16), scope, bitAt w 12, bitAt w 11, Fin.ofNat 8 (w)⟩

def readDrInitForm (w : Nat) : DrInitForm :=
  ⟨Fin.ofNat 8 (w / 2 ^ 21), Fin.ofNat 32 (w / 2 ^ 16), Fin.ofNat 32 (w / 2 ^ 11), Fin.ofNat 8 (w)⟩

def readDrWaitForm (w : Nat) : DrWaitForm :=
  ⟨Fin.ofNat 32 (w / 2 ^ 21), Fin.ofNat 8 (w / 2 ^ 16), Fin.ofNat 8 (w)⟩

def readDrRelForm (w : Nat) : DrRelForm :=
  ⟨Fin.ofNat 8 (w / 2 ^ 16), Fin.ofNat 8 (w)⟩

def readBarwForm (w : Nat) : BarwForm :=
  ⟨Fin.ofNat 32 (w / 2 ^ 16), Fin.ofNat 16 (w / 2 ^ 11), Fin.ofNat 8 (w)⟩

def readBaraForm (w : Nat) : BaraForm :=
  ⟨Fin.ofNat 32 (w / 2 ^ 21), Fin.ofNat 32 (w / 2 ^ 16), Fin.ofNat 16 (w / 2 ^ 11), Fin.ofNat 8 (w)⟩

def readTForm (w : Nat) : TForm :=
  ⟨Fin.ofNat 32 (w / 2 ^ 21), Fin.ofNat 32 (w / 2 ^ 16), Fin.ofNat 32 (w / 2 ^ 11), Fin.ofNat 64 (w)⟩

def readVB (w : Nat) : Option VB :=
  (vsrcOf w).bind fun b =>
  some ⟨Fin.ofNat 32 (w / 2 ^ 21), Fin.ofNat 32 (w / 2 ^ 16), b, bitAt w 5, bitAt w 4, Fin.ofNat 8 (w)⟩

def readVCmpForm (w : Nat) : Option VCmpForm :=
  (vsrcOf w).bind fun b =>
  some ⟨Fin.ofNat 8 (w / 2 ^ 21), Fin.ofNat 32 (w / 2 ^ 16), b, bitAt w 4, Fin.ofNat 8 (w)⟩

def readVZForm (w : Nat) : VZForm :=
  ⟨Fin.ofNat 32 (w / 2 ^ 21), Fin.ofNat 32 (w / 2 ^ 16), Fin.ofNat 16 (w / 2 ^ 11), bitAt w 5, bitAt w 4, Fin.ofNat 8 (w)⟩

def readVUX (w : Nat) : VUX :=
  ⟨Fin.ofNat 32 (w / 2 ^ 21), Fin.ofNat 32 (w / 2 ^ 16), bitAt w 5, bitAt w 4, Fin.ofNat 8 (w)⟩

def readVU (w : Nat) : VU :=
  ⟨Fin.ofNat 32 (w / 2 ^ 21), Fin.ofNat 32 (w / 2 ^ 16), bitAt w 4, Fin.ofNat 8 (w)⟩

def readVS (w : Nat) : VS :=
  ⟨Fin.ofNat 32 (w / 2 ^ 21), Fin.ofNat 32 (w / 2 ^ 16), Fin.ofNat 32 (w / 2 ^ 11), bitAt w 4, Fin.ofNat 8 (w)⟩

def readVV (w : Nat) : VV :=
  ⟨Fin.ofNat 32 (w / 2 ^ 21), Fin.ofNat 32 (w / 2 ^ 16), Fin.ofNat 32 (w / 2 ^ 11), bitAt w 4, bitAt w 3, Fin.ofNat 8 (w)⟩

def readM3 (w : Nat) : M3 :=
  ⟨Fin.ofNat 8 (w / 2 ^ 21), Fin.ofNat 8 (w / 2 ^ 16), Fin.ofNat 8 (w / 2 ^ 11), bitAt w 4, bitAt w 3, Fin.ofNat 8 (w)⟩

def readM2 (w : Nat) : M2 :=
  ⟨Fin.ofNat 8 (w / 2 ^ 21), Fin.ofNat 8 (w / 2 ^ 16), bitAt w 4, Fin.ofNat 8 (w)⟩

def readMS (w : Nat) : MS :=
  ⟨Fin.ofNat 32 (w / 2 ^ 21), Fin.ofNat 8 (w / 2 ^ 16), bitAt w 4, Fin.ofNat 8 (w)⟩

def readVBrdForm (w : Nat) : VBrdForm :=
  ⟨Fin.ofNat 32 (w / 2 ^ 21), Fin.ofNat 32 (w / 2 ^ 11), Fin.ofNat 8 (w)⟩

def readVD (w : Nat) : VD :=
  ⟨Fin.ofNat 32 (w / 2 ^ 21), Fin.ofNat 8 (w)⟩

def readVIdxForm (w : Nat) : VIdxForm :=
  ⟨Fin.ofNat 32 (w / 2 ^ 21), Fin.ofNat 32 (w / 2 ^ 16), Fin.ofNat 32 (w / 2 ^ 11), Fin.ofNat 32 (w / 2 ^ 6), bitAt w 5, bitAt w 4, bitAt w 3, Fin.ofNat 8 (w)⟩

def readVCvtForm (w : Nat) : VCvtForm :=
  ⟨Fin.ofNat 32 (w / 2 ^ 21), Fin.ofNat 32 (w / 2 ^ 16), Fin.ofNat 16 (w / 2 ^ 11), bitAt w 10, bitAt w 5, bitAt w 4, Fin.ofNat 8 (w)⟩

def readVQForm (w : Nat) : VQForm :=
  ⟨Fin.ofNat 32 (w / 2 ^ 21), Fin.ofNat 32 (w / 2 ^ 16), Fin.ofNat 32 (w / 2 ^ 11), bitAt w 10, bitAt w 5, bitAt w 4, bitAt w 3, Fin.ofNat 8 (w)⟩

def readVDQForm (w : Nat) : VDQForm :=
  ⟨Fin.ofNat 32 (w / 2 ^ 21), Fin.ofNat 32 (w / 2 ^ 16), Fin.ofNat 32 (w / 2 ^ 11), bitAt w 5, bitAt w 4, bitAt w 3, Fin.ofNat 8 (w)⟩

def readVA1 (w : Nat) : VA1 :=
  ⟨Fin.ofNat 32 (w / 2 ^ 16), bitAt w 4, Fin.ofNat 8 (w)⟩

def readVSclForm (w : Nat) : VSclForm :=
  ⟨Fin.ofNat 32 (w / 2 ^ 21), Fin.ofNat 16 (w / 2 ^ 16), Fin.ofNat 16 (w / 2 ^ 11), Fin.ofNat 8 (w)⟩

def readVPkForm (w : Nat) : VPkForm :=
  ⟨Fin.ofNat 32 (w / 2 ^ 21), Fin.ofNat 32 (w / 2 ^ 16), Fin.ofNat 16 (w / 2 ^ 11), bitAt w 4, Fin.ofNat 8 (w)⟩

def readVLdForm (w : Nat) : VLdForm :=
  ⟨Fin.ofNat 32 (w / 2 ^ 21), Fin.ofNat 16 (w / 2 ^ 17), Fin.ofNat 8 (w)⟩

def readVLdbForm (w : Nat) : VLdbForm :=
  ⟨Fin.ofNat 32 (w / 2 ^ 21), Fin.ofNat 16 (w / 2 ^ 17), Fin.ofNat 8 (w / 2 ^ 5), Fin.ofNat 8 (w)⟩

def readVSegForm (w : Nat) : VSegForm :=
  ⟨Fin.ofNat 32 (w / 2 ^ 21), Fin.ofNat 16 (w / 2 ^ 17), Fin.ofNat 8 (w / 2 ^ 5), Fin.ofNat 4 (w / 2 ^ 8), bitAt w 10, Fin.ofNat 8 (w)⟩

def readVStForm (w : Nat) : VStForm :=
  ⟨Fin.ofNat 32 (w / 2 ^ 21), Fin.ofNat 16 (w / 2 ^ 17), bitAt w 4, Fin.ofNat 8 (w)⟩

def readVStSegForm (w : Nat) : VStSegForm :=
  ⟨Fin.ofNat 32 (w / 2 ^ 21), Fin.ofNat 16 (w / 2 ^ 17), Fin.ofNat 8 (w / 2 ^ 5), Fin.ofNat 4 (w / 2 ^ 8), bitAt w 10, bitAt w 4, Fin.ofNat 8 (w)⟩

def readQAForm (w : Nat) : QAForm :=
  ⟨Fin.ofNat 16 (w / 2 ^ 21), Fin.ofNat 32 (w / 2 ^ 16), Fin.ofNat 8 (w)⟩

def readQForm (w : Nat) : QForm :=
  ⟨Fin.ofNat 16 (w / 2 ^ 21), Fin.ofNat 8 (w)⟩

def readQDForm (w : Nat) : QDForm :=
  ⟨Fin.ofNat 32 (w / 2 ^ 21), Fin.ofNat 16 (w / 2 ^ 16), Fin.ofNat 8 (w)⟩

def readMClaimForm (w : Nat) : MClaimForm :=
  ⟨Fin.ofNat 32 (w / 2 ^ 17), bitAt w 12, Fin.ofNat 8 (w)⟩

def readMRelForm (w : Nat) : MRelForm :=
  ⟨Fin.ofNat 32 (w / 2 ^ 17), Fin.ofNat 8 (w)⟩

def readMmaForm (w : Nat) : MmaForm :=
  ⟨Fin.ofNat 16 (w / 2 ^ 22), Fin.ofNat 32 (w / 2 ^ 17), Fin.ofNat 32 (w / 2 ^ 12), bitAt w 7, Fin.ofNat 8 (w)⟩

def readMPromForm (w : Nat) : MPromForm :=
  ⟨Fin.ofNat 16 (w / 2 ^ 22), Fin.ofNat 32 (w / 2 ^ 17), Fin.ofNat 32 (w / 2 ^ 12), Fin.ofNat 8 (w)⟩

def readMZeroForm (w : Nat) : MZeroForm :=
  ⟨Fin.ofNat 16 (w / 2 ^ 22), Fin.ofNat 8 (w)⟩

def readMAccRdForm (w : Nat) : MAccRdForm :=
  ⟨Fin.ofNat 16 (w / 2 ^ 22), Fin.ofNat 32 (w / 2 ^ 17), Fin.ofNat 32 (w / 2 ^ 12), bitAt w 6, Fin.ofNat 8 (w)⟩

def readMAccWrForm (w : Nat) : MAccWrForm :=
  ⟨Fin.ofNat 16 (w / 2 ^ 22), Fin.ofNat 32 (w / 2 ^ 17), Fin.ofNat 32 (w / 2 ^ 12), Fin.ofNat 8 (w)⟩

def readMLdForm (w : Nat) : MLdForm :=
  ⟨Fin.ofNat 32 (w / 2 ^ 21), Fin.ofNat 16 (w / 2 ^ 17), Fin.ofNat 64 (w / 2 ^ 5), Fin.ofNat 8 (w)⟩

def readMLdsForm (w : Nat) : MLdsForm :=
  ⟨Fin.ofNat 32 (w / 2 ^ 21), Fin.ofNat 16 (w / 2 ^ 17), Fin.ofNat 8 (w)⟩

def readFtwrForm (w : Nat) : FtwrForm :=
  ⟨Fin.ofNat 16 (w / 2 ^ 21), Fin.ofNat 32 (w / 2 ^ 16), Fin.ofNat 8 (w)⟩

def readFtrdForm (w : Nat) : FtrdForm :=
  ⟨Fin.ofNat 32 (w / 2 ^ 21), Fin.ofNat 16 (w / 2 ^ 16), Fin.ofNat 8 (w)⟩

/-- The functions of major 0x01 (R133). -/
def decodeSalu (w : Nat) : Except DecodeCause Instr :=
  match w / 2 ^ 3 % 256 with
  | 0 => accept (true) (hintOk w) (some (readA3 w)) (fun _ => true) .add
  | 1 => accept (true) (hintOk w) (some (readA3 w)) (fun _ => true) .sub
  | 2 => accept (true) (hintOk w) (some (readA3 w)) (fun _ => true) .and
  | 3 => accept (true) (hintOk w) (some (readA3 w)) (fun _ => true) .or
  | 4 => accept (true) (hintOk w) (some (readA3 w)) (fun _ => true) .xor
  | 5 => accept (true) (hintOk w) (some (readA3 w)) (fun _ => true) .sll
  | 6 => accept (true) (hintOk w) (some (readA3 w)) (fun _ => true) .srl
  | 7 => accept (true) (hintOk w) (some (readA3 w)) (fun _ => true) .sra
  | 8 => accept (true) (hintOk w) (some (readA3 w)) (fun _ => true) .mul
  | 9 => accept (true) (hintOk w) (some (readA3 w)) (fun _ => true) .mulh
  | 10 => accept (true) (hintOk w) (some (readA3 w)) (fun _ => true) .div
  | 11 => accept (true) (hintOk w) (some (readA3 w)) (fun _ => true) .divu
  | 12 => accept (true) (hintOk w) (some (readA3 w)) (fun _ => true) .rem
  | 13 => accept (true) (hintOk w) (some (readA3 w)) (fun _ => true) .remu
  | 14 => accept (true) (hintOk w) (some (readA3 w)) (fun _ => true) .min
  | 15 => accept (true) (hintOk w) (some (readA3 w)) (fun _ => true) .max
  | 16 => accept (true) (hintOk w) (some (readA3 w)) (fun _ => true) .slt
  | 17 => accept (true) (hintOk w) (some (readA3 w)) (fun _ => true) .sltu
  | 18 => accept (true) (hintOk w) (some (readA3 w)) (fun _ => true) .seq
  | 19 => accept (w / 2 ^ 11 % 32 == 0) (hintOk w) (some (readA2 w)) (fun _ => true) .clz
  | 20 => accept (w / 2 ^ 11 % 32 == 0) (hintOk w) (some (readA2 w)) (fun _ => true) .ctz
  | 21 => accept (w / 2 ^ 11 % 32 == 0) (hintOk w) (some (readA2 w)) (fun _ => true) .popc
  | 22 => accept (true) (hintOk w) (some (readA3 w)) (fun _ => true) .bext
  | 23 => accept (true) (hintOk w) (some (readA3 w)) (fun _ => true) .bins
  | 24 => accept (true) (hintOk w) (some (readA3 w)) (fun _ => true) .sel
  | _ => .error .illFn

/-- The functions of major 0x0A (R133). -/
def decodeShi (w : Nat) : Except DecodeCause Instr :=
  match w / 2 ^ 14 % 4 with
  | 0 => accept (w % 256 == 0) true (some (readShForm w)) (fun _ => true) .slli
  | 1 => accept (w % 256 == 0) true (some (readShForm w)) (fun _ => true) .srli
  | 2 => accept (w % 256 == 0) true (some (readShForm w)) (fun _ => true) .srai
  | _ => .error .illField

/-- The functions of major 0x11 (R133). -/
def decodeCsr (w : Nat) : Except DecodeCause Instr :=
  match w / 2 ^ 14 % 4 with
  | 0 => accept (w / 2 ^ 12 % 4 == 0 && w / 2 ^ 16 % 32 == 0) true (some (readCRForm w)) (fun _ => true) .csrr
  | 1 => accept (w / 2 ^ 12 % 4 == 0) true (some (readCForm w)) (fun _ => true) .csrw
  | 2 => accept (w / 2 ^ 12 % 4 == 0) true (some (readCForm w)) (fun _ => true) .csrs
  | 3 => accept (w / 2 ^ 12 % 4 == 0) true (some (readCForm w)) (fun _ => true) .csrc
  | _ => .error .illFn

/-- The functions of major 0x12 (R133). -/
def decodeAmo (w : Nat) : Except DecodeCause Instr :=
  match w / 2 ^ 8 % 8 with
  | 0 => accept (true) (hintOk w) (readXForm w) (fun _ => true) .amoadd
  | 1 => accept (true) (hintOk w) (readXForm w) (fun _ => true) .amoswp
  | 2 => accept (true) (hintOk w) (readXForm w) (fun _ => true) .amocas
  | 3 => accept (true) (hintOk w) (readXForm w) (fun _ => true) .amomin
  | 4 => accept (true) (hintOk w) (readXForm w) (fun _ => true) .amomax
  | 5 => accept (true) (hintOk w) (readXForm w) (fun _ => true) .amoand
  | 6 => accept (true) (hintOk w) (readXForm w) (fun _ => true) .amoor
  | 7 => accept (true) (hintOk w) (readXForm w) (fun _ => true) .amoxor
  | _ => .error .illFn

/-- The functions of major 0x13 (R133). -/
def decodeSys (w : Nat) : Except DecodeCause Instr :=
  match w / 2 ^ 3 % 256 with
  | 0 => accept (w / 2 ^ 11 % 32 == 0 && w / 2 ^ 21 % 32 == 0) (hintOk w) (some (readA1 w)) (fun _ => true) .trap
  | 1 => accept (w / 2 ^ 11 % 32768 == 0) (hintOk w) (some (readA0 w)) (fun _ => true) .eret
  | 2 => accept (w / 2 ^ 16 % 1024 == 0) (hintOk w) (readQualForm w) (fun _ => true) .fence
  | 3 => accept (w / 2 ^ 11 % 32768 == 0) (hintOk w) (some (readA0 w)) (fun _ => true) .halt
  | 4 => accept (w / 2 ^ 11 % 32768 == 0) (hintOk w) (some (readA0 w)) (fun _ => true) .yield
  | 5 => accept (w / 2 ^ 11 % 32 == 0) (hintOk w) (some (readA2 w)) (fun _ => true) .spawn
  | 6 => accept (w / 2 ^ 11 % 32768 == 0) (hintOk w) (some (readA0 w)) (fun _ => true) .ndone
  | 7 => accept (w / 2 ^ 11 % 32 == 0) (hintOk w) (some (readA2 w)) (fun _ => true) .lease
  | 8 => accept (w / 2 ^ 11 % 32768 == 0) (hintOk w) (some (readA0 w)) (fun _ => true) .unlease
  | 9 => accept (w / 2 ^ 11 % 32 == 0 && w / 2 ^ 21 % 32 == 0) (hintOk w) (some (readA1 w)) (fun _ => true) .brkpt
  | 10 => accept (w / 2 ^ 11 % 1024 == 0) (hintOk w) (some (readAD w)) (fun _ => true) .rdtime
  | 11 => accept (w / 2 ^ 11 % 32768 == 0) (hintOk w) (some (readA0 w)) (fun _ => true) .nop
  | _ => .error .illFn

/-- The functions of major 0x14 (R133). -/
def decodeSync (w : Nat) : Except DecodeCause Instr :=
  match w / 2 ^ 3 % 256 with
  | 0 => accept (w / 2 ^ 21 % 32 == 0) (hintOk w) (readQualA w) (fun _ => true) .acq
  | 1 => accept (w / 2 ^ 21 % 32 == 0) (hintOk w) (readQualA w) (fun _ => true) .rel
  | 2 => accept (true) (hintOk w) (some (readA3 w)) (fun _ => true) .bind
  | 3 => accept (w / 2 ^ 11 % 32 == 0 && w / 2 ^ 21 % 32 == 0) (hintOk w) (some (readA1 w)) (fun _ => true) .unbind
  | 4 => accept (w / 2 ^ 21 % 32 == 0) (hintOk w) (some (readAB w)) (fun _ => true) .tlwait
  | 5 => accept (w / 2 ^ 11 % 32 == 0) (hintOk w) (some (readA2 w)) (fun _ => true) .tlsig
  | 6 => accept (w / 2 ^ 11 % 32 == 0) (hintOk w) (some (readA2 w)) (fun _ => true) .tlrd
  | 7 => accept (w / 2 ^ 24 % 4 == 0) (hintOk w) (some (readDrInitForm w)) (fun _ => true) .drinit
  | 8 => accept (w / 2 ^ 11 % 32 == 0 && w / 2 ^ 19 % 4 == 0) (hintOk w) (some (readDrWaitForm w)) (fun _ => true) .drawait
  | 9 => accept (w / 2 ^ 11 % 32 == 0 && w / 2 ^ 19 % 128 == 0) (hintOk w) (some (readDrRelForm w)) (fun _ => true) .drrel
  | 10 => accept (w / 2 ^ 15 % 2 == 0 && w / 2 ^ 21 % 32 == 0) (hintOk w) (some (readBarwForm w)) (fun _ => true) .barw
  | 11 => accept (w / 2 ^ 15 % 2 == 0) (hintOk w) (some (readBaraForm w)) (fun _ => true) .bara
  | 12 => accept (w / 2 ^ 11 % 32 == 0) (hintOk w) (some (readA2 w)) (fun _ => true) .tagwany
  | 13 => accept (w / 2 ^ 11 % 32 == 0) (hintOk w) (some (readA2 w)) (fun _ => true) .tagwall
  | 14 => accept (w / 2 ^ 11 % 32 == 0) (hintOk w) (some (readA2 w)) (fun _ => true) .tagff
  | _ => .error .illFn

/-- The functions of major 0x15 (R133). -/
def decodeTug (w : Nat) : Except DecodeCause Instr :=
  match w / 2 ^ 6 % 32 with
  | 0 => accept (true) true (some (readTForm w)) (fun _ => true) .tcopy
  | 1 => accept (true) true (some (readTForm w)) (fun _ => true) .tcopym
  | 2 => accept (true) true (some (readTForm w)) (fun _ => true) .tqnt
  | 3 => accept (true) true (some (readTForm w)) (fun _ => true) .tenc
  | 4 => accept (true) true (some (readTForm w)) (fun _ => true) .tdec
  | 5 => accept (true) true (some (readTForm w)) (fun _ => true) .tqsc
  | 6 => accept (true) true (some (readTForm w)) (fun _ => true) .tstat
  | 7 => accept (true) true (some (readTForm w)) (fun _ => true) .tblk
  | _ => .error .illFn

/-- The functions of major 0x16 (R133). -/
def decodeAwl (w : Nat) : Except DecodeCause Instr :=
  match w / 2 ^ 3 % 256 with
  | 0 => accept (true) (hintOk w) (some (readA3 w)) (fun _ => true) .wbind
  | 1 => accept (true) (hintOk w) (some (readA3 w)) (fun _ => true) .wqry
  | 2 => accept (true) (hintOk w) (some (readA3 w)) (fun _ => true) .wapp
  | 3 => accept (w / 2 ^ 16 % 32 == 0) (hintOk w) (some (readADB w)) (fun _ => true) .wrefit
  | 4 => accept (w / 2 ^ 16 % 32 == 0) (hintOk w) (some (readADB w)) (fun _ => true) .wdrain
  | _ => .error .illFn

/-- The functions of major 0x18 (R133). -/
def decodeVset (w : Nat) : Except DecodeCause Instr :=
  match w / 2 ^ 3 % 256 with
  | 0 => accept (w / 2 ^ 11 % 32 == 0) (hintOk w) (some (readA2 w)) (fun _ => true) .vsetl
  | 1 => accept (true) (hintOk w) (some (readA3 w)) (fun _ => true) .vshape
  | 2 => accept (w / 2 ^ 11 % 32 == 0) (hintOk w) (some (readA2 w)) (fun _ => true) .vtype
  | 3 => accept (w / 2 ^ 11 % 32 == 0) (hintOk w) (some (readA2 w)) (fun _ => true) .vsetm
  | 4 => accept (w / 2 ^ 11 % 32 == 0) (hintOk w) (some (readA2 w)) (fun _ => true) .vsets
  | 5 => accept (w / 2 ^ 11 % 32 == 0) (hintOk w) (some (readA2 w)) (fun _ => true) .vdecl
  | 6 => accept (w / 2 ^ 11 % 32 == 0) (hintOk w) (some (readA2 w)) (fun _ => true) .vlive
  | _ => .error .illFn

/-- The functions of major 0x19 (R133). -/
def decodeVari (w : Nat) : Except DecodeCause Instr :=
  match w / 2 ^ 6 % 16 with
  | 0 => accept (true) (hintOk w) (readVB w) (fun _ => true) .vadd
  | 1 => accept (true) (hintOk w) (readVB w) (fun _ => true) .vsub
  | 2 => accept (true) (hintOk w) (readVB w) (fun _ => true) .vmul
  | 3 => accept (true) (hintOk w) (readVB w) (fun _ => true) .vmulh
  | 4 => accept (true) (hintOk w) (readVB w) (fun _ => true) .vmacc
  | 5 => accept (true) (hintOk w) (readVB w) (fun _ => true) .vand
  | 6 => accept (true) (hintOk w) (readVB w) (fun _ => true) .vor
  | 7 => accept (true) (hintOk w) (readVB w) (fun _ => true) .vxor
  | 8 => accept (true) (hintOk w) (readVB w) (fun _ => true) .vsll
  | 9 => accept (true) (hintOk w) (readVB w) (fun _ => true) .vsrl
  | 10 => accept (true) (hintOk w) (readVB w) (fun _ => true) .vsra
  | 11 => accept (true) (hintOk w) (readVB w) (fun _ => true) .vmin
  | 12 => accept (true) (hintOk w) (readVB w) (fun _ => true) .vmax
  | 13 => accept (true) (hintOk w) (readVB w) (fun _ => true) .vsadd
  | 14 => accept (true) (hintOk w) (readVB w) (fun _ => true) .vssub
  | 15 => accept (w / 2 ^ 3 % 2 == 0 && w / 2 ^ 10 % 2 == 0 && w / 2 ^ 15 % 2 == 0) (hintOk w) (some (readVZForm w)) (fun _ => true) .vzsub
  | _ => .error .illFn

/-- The functions of major 0x1A (R133). -/
def decodeVfp (w : Nat) : Except DecodeCause Instr :=
  match w / 2 ^ 6 % 16 with
  | 0 => accept (true) (hintOk w) (readVB w) (fun _ => true) .vfadd
  | 1 => accept (true) (hintOk w) (readVB w) (fun _ => true) .vfsub
  | 2 => accept (true) (hintOk w) (readVB w) (fun _ => true) .vfmul
  | 3 => accept (true) (hintOk w) (readVB w) (fun _ => true) .vfma
  | 4 => accept (true) (hintOk w) (readVB w) (fun _ => true) .vfnms
  | 5 => accept (true) (hintOk w) (readVB w) (fun _ => true) .vfdiv
  | 6 => accept (w / 2 ^ 3 % 2 == 0 && w / 2 ^ 10 % 64 == 0) (hintOk w) (some (readVUX w)) (fun _ => true) .vfsqrt
  | 7 => accept (true) (hintOk w) (readVB w) (fun _ => true) .vfmin
  | 8 => accept (true) (hintOk w) (readVB w) (fun _ => true) .vfmax
  | 9 => accept (w / 2 ^ 3 % 2 == 0 && w / 2 ^ 10 % 64 == 0) (hintOk w) (some (readVUX w)) (fun _ => true) .vfabs
  | 10 => accept (w / 2 ^ 3 % 2 == 0 && w / 2 ^ 10 % 64 == 0) (hintOk w) (some (readVUX w)) (fun _ => true) .vfneg
  | 11 => accept (w / 2 ^ 3 % 2 == 0 && w / 2 ^ 10 % 64 == 0) (hintOk w) (some (readVUX w)) (fun _ => true) .vfrec
  | 12 => accept (w / 2 ^ 3 % 2 == 0 && w / 2 ^ 10 % 64 == 0) (hintOk w) (some (readVUX w)) (fun _ => true) .vfrsq
  | 13 => accept (w / 2 ^ 3 % 2 == 0 && w / 2 ^ 10 % 64 == 0) (hintOk w) (some (readVUX w)) (fun _ => true) .vfexp2
  | _ => .error .illFn

/-- The functions of major 0x1B (R133). -/
def decodeVcmp (w : Nat) : Except DecodeCause Instr :=
  match w / 2 ^ 6 % 16 with
  | 0 => accept (w / 2 ^ 5 % 2 == 0 && w / 2 ^ 24 % 4 == 0) (hintOk w) (readVCmpForm w) (fun _ => true) .vceq
  | 1 => accept (w / 2 ^ 5 % 2 == 0 && w / 2 ^ 24 % 4 == 0) (hintOk w) (readVCmpForm w) (fun _ => true) .vcne
  | 2 => accept (w / 2 ^ 5 % 2 == 0 && w / 2 ^ 24 % 4 == 0) (hintOk w) (readVCmpForm w) (fun _ => true) .vclt
  | 3 => accept (w / 2 ^ 5 % 2 == 0 && w / 2 ^ 24 % 4 == 0) (hintOk w) (readVCmpForm w) (fun _ => true) .vcle
  | 4 => accept (w / 2 ^ 5 % 2 == 0 && w / 2 ^ 24 % 4 == 0) (hintOk w) (readVCmpForm w) (fun _ => true) .vcltu
  | 5 => accept (w / 2 ^ 5 % 2 == 0 && w / 2 ^ 24 % 4 == 0) (hintOk w) (readVCmpForm w) (fun _ => true) .vfceq
  | 6 => accept (w / 2 ^ 5 % 2 == 0 && w / 2 ^ 24 % 4 == 0) (hintOk w) (readVCmpForm w) (fun _ => true) .vfclt
  | 7 => accept (w / 2 ^ 5 % 2 == 0 && w / 2 ^ 24 % 4 == 0) (hintOk w) (readVCmpForm w) (fun _ => true) .vfcle
  | 8 => accept (w / 2 ^ 5 % 2 == 0 && w / 2 ^ 24 % 4 == 0) (hintOk w) (readVCmpForm w) (fun _ => true) .vfcun
  | 9 => accept (w / 2 ^ 5 % 2 == 0 && w / 2 ^ 10 % 2 == 0 && w / 2 ^ 14 % 4 == 0 && w / 2 ^ 19 % 4 == 0 && w / 2 ^ 24 % 4 == 0) (hintOk w) (some (readM3 w)) (fun _ => true) .mand
  | 10 => accept (w / 2 ^ 5 % 2 == 0 && w / 2 ^ 10 % 2 == 0 && w / 2 ^ 14 % 4 == 0 && w / 2 ^ 19 % 4 == 0 && w / 2 ^ 24 % 4 == 0) (hintOk w) (some (readM3 w)) (fun _ => true) .mor
  | 11 => accept (w / 2 ^ 5 % 2 == 0 && w / 2 ^ 10 % 2 == 0 && w / 2 ^ 14 % 4 == 0 && w / 2 ^ 19 % 4 == 0 && w / 2 ^ 24 % 4 == 0) (hintOk w) (some (readM3 w)) (fun _ => true) .mxor
  | 12 => accept (w / 2 ^ 3 % 2 == 0 && w / 2 ^ 5 % 2 == 0 && w / 2 ^ 10 % 64 == 0 && w / 2 ^ 19 % 4 == 0 && w / 2 ^ 24 % 4 == 0) (hintOk w) (some (readM2 w)) (fun _ => true) .mnot
  | 13 => accept (w / 2 ^ 3 % 2 == 0 && w / 2 ^ 5 % 2 == 0 && w / 2 ^ 10 % 64 == 0 && w / 2 ^ 19 % 4 == 0) (hintOk w) (some (readMS w)) (fun _ => true) .mpop
  | 14 => accept (w / 2 ^ 3 % 2 == 0 && w / 2 ^ 5 % 2 == 0 && w / 2 ^ 10 % 64 == 0 && w / 2 ^ 19 % 4 == 0) (hintOk w) (some (readMS w)) (fun _ => true) .mfirst
  | _ => .error .illFn

/-- The functions of major 0x1C (R133). -/
def decodeVperm (w : Nat) : Except DecodeCause Instr :=
  match w / 2 ^ 6 % 16 with
  | 0 => accept (w / 2 ^ 3 % 2 == 0 && w / 2 ^ 5 % 2 == 0 && w / 2 ^ 10 % 2 == 1) (hintOk w) (some (readVS w)) (fun _ => true) .vslup
  | 1 => accept (w / 2 ^ 3 % 2 == 0 && w / 2 ^ 5 % 2 == 0 && w / 2 ^ 10 % 2 == 1) (hintOk w) (some (readVS w)) (fun _ => true) .vsldn
  | 2 => accept (w / 2 ^ 3 % 2 == 0 && w / 2 ^ 5 % 2 == 0 && w / 2 ^ 10 % 64 == 0) (hintOk w) (some (readVU w)) (fun _ => true) .vcomp
  | 3 => accept (w / 2 ^ 3 % 2 == 0 && w / 2 ^ 5 % 2 == 0 && w / 2 ^ 10 % 64 == 0) (hintOk w) (some (readVU w)) (fun _ => true) .vexpd
  | 4 => accept (w / 2 ^ 3 % 2 == 0 && w / 2 ^ 5 % 2 == 0 && w / 2 ^ 10 % 2 == 1) (hintOk w) (some (readVS w)) (fun _ => true) .vreds
  | 5 => accept (w / 2 ^ 3 % 2 == 0 && w / 2 ^ 5 % 2 == 0 && w / 2 ^ 10 % 2 == 1) (hintOk w) (some (readVS w)) (fun _ => true) .vredmx
  | 6 => accept (w / 2 ^ 3 % 2 == 0 && w / 2 ^ 5 % 2 == 0 && w / 2 ^ 10 % 2 == 1) (hintOk w) (some (readVS w)) (fun _ => true) .vredmn
  | 7 => accept (w / 2 ^ 3 % 2 == 0 && w / 2 ^ 5 % 2 == 0 && w / 2 ^ 10 % 2 == 1) (hintOk w) (some (readVS w)) (fun _ => true) .vfreds
  | 8 => accept (w / 2 ^ 3 % 2 == 0 && w / 2 ^ 5 % 2 == 0 && w / 2 ^ 10 % 2 == 1) (hintOk w) (some (readVS w)) (fun _ => true) .vmvs
  | 9 => accept (w / 2 ^ 3 % 8 == 0 && w / 2 ^ 10 % 2 == 1 && w / 2 ^ 16 % 32 == 0) (hintOk w) (some (readVBrdForm w)) (fun _ => true) .vbrd
  | 10 => accept (w / 2 ^ 3 % 8 == 0 && w / 2 ^ 10 % 2048 == 0) (hintOk w) (some (readVD w)) (fun _ => true) .viota
  | 11 => accept (w / 2 ^ 5 % 2 == 0 && w / 2 ^ 24 % 4 == 0) (hintOk w) (readVCmpForm w) (fun _ => true) .vband
  | 12 => accept (w / 2 ^ 3 % 2 == 0 && w / 2 ^ 5 % 2 == 0 && w / 2 ^ 10 % 64 == 0) (hintOk w) (some (readVU w)) (fun _ => true) .vbpfx
  | _ => .error .illFn

/-- The functions of major 0x1D (R133). -/
def decodeVenc (w : Nat) : Except DecodeCause Instr :=
  match w / 2 ^ 6 % 16 with
  | 0 => accept (w / 2 ^ 3 % 2 == 0 && w / 2 ^ 5 % 2 == 0 && w / 2 ^ 10 % 64 == 0) (hintOk w) (some (readVU w)) (fun _ => true) .vencr
  | 1 => accept (w / 2 ^ 3 % 2 == 0 && w / 2 ^ 5 % 2 == 0 && w / 2 ^ 10 % 64 == 0) (hintOk w) (some (readVU w)) (fun _ => true) .vencd
  | 2 => accept (w / 2 ^ 3 % 2 == 0 && w / 2 ^ 5 % 2 == 0 && w / 2 ^ 10 % 64 == 0) (hintOk w) (some (readVU w)) (fun _ => true) .venct
  | 3 => accept (w / 2 ^ 3 % 2 == 0 && w / 2 ^ 5 % 2 == 0 && w / 2 ^ 10 % 64 == 0) (hintOk w) (some (readVU w)) (fun _ => true) .vdec
  | 4 => accept (w / 2 ^ 3 % 2 == 0 && w / 2 ^ 5 % 2 == 0 && w / 2 ^ 10 % 64 == 0) (hintOk w) (some (readVU w)) (fun _ => true) .vrenc
  | 5 => accept (w / 2 ^ 5 % 2 == 0 && w / 2 ^ 10 % 2 == 0) (hintOk w) (some (readVV w)) (fun _ => true) .vencq
  | 6 =>
    if bitAt w 10 then accept (w / 2 ^ 3 % 2 == 0 && w / 2 ^ 5 % 2 == 0 && w / 2 ^ 10 % 64 == 1) (hintOk w) (some (readVU w)) (fun _ => true) .vdictExtract
    else accept (w / 2 ^ 5 % 2 == 0 && w / 2 ^ 10 % 2 == 0) (hintOk w) (some (readVV w)) (fun _ => true) .vdictReplace
  | _ => .error .illFn

/-- The functions of major 0x1F (R133). -/
def decodeVcvt (w : Nat) : Except DecodeCause Instr :=
  match w / 2 ^ 6 % 16 with
  | 0 => accept (w / 2 ^ 3 % 2 == 0 && w / 2 ^ 15 % 2 == 0) (hintOk w) (some (readVCvtForm w)) (fun _ => true) .vcvt
  | 1 => accept (true) (hintOk w) (some (readVQForm w)) (fun _ => true) .vqnt
  | 2 => accept (w / 2 ^ 10 % 2 == 0) (hintOk w) (some (readVDQForm w)) (fun _ => true) .vdqnt
  | 3 => accept (w / 2 ^ 3 % 2 == 0 && w / 2 ^ 5 % 2 == 0 && w / 2 ^ 10 % 64 == 0 && w / 2 ^ 21 % 32 == 0) (hintOk w) (some (readVA1 w)) (fun _ => true) .vamax
  | 4 => accept (w / 2 ^ 3 % 8 == 0 && w / 2 ^ 10 % 2 == 0 && w / 2 ^ 15 % 2 == 0 && w / 2 ^ 20 % 2 == 0) (hintOk w) (some (readVSclForm w)) (fun _ => true) .vscl
  | 5 => accept (w / 2 ^ 3 % 2 == 0 && w / 2 ^ 5 % 2 == 0 && w / 2 ^ 10 % 2 == 0 && w / 2 ^ 15 % 2 == 0) (hintOk w) (some (readVPkForm w)) (fun _ => true) .vpack
  | 6 => accept (w / 2 ^ 3 % 2 == 0 && w / 2 ^ 5 % 2 == 0 && w / 2 ^ 10 % 2 == 0 && w / 2 ^ 15 % 2 == 0) (hintOk w) (some (readVPkForm w)) (fun _ => true) .vunpk
  | _ => .error .illFn

/-- The functions of major 0x20 (R133). -/
def decodeVld (w : Nat) : Except DecodeCause Instr :=
  match w / 2 ^ 11 % 64 with
  | 0 => accept (w / 2 ^ 3 % 256 == 0) (hintOkVld w) (some (readVLdForm w)) (fun _ => true) .vld
  | 1 => accept (w / 2 ^ 3 % 4 == 0 && w / 2 ^ 8 % 8 == 0) (hintOkVld w) (some (readVLdbForm w)) (fun _ => true) .vldb
  | 2 => accept (w / 2 ^ 3 % 4 == 0) (hintOkVld w) (some (readVSegForm w)) (fun _ => true) .vldseg
  | 3 => accept (w / 2 ^ 3 % 256 == 0) (hintOkVld w) (some (readVLdForm w)) (fun _ => true) .vlde
  | 4 => accept (w / 2 ^ 3 % 256 == 0) (hintOkVld w) (some (readVLdForm w)) (fun _ => true) .vfil
  | _ => .error .illFn

/-- The functions of major 0x21 (R133). -/
def decodeVst (w : Nat) : Except DecodeCause Instr :=
  match w / 2 ^ 11 % 64 with
  | 0 => accept (w / 2 ^ 3 % 2 == 0 && w / 2 ^ 5 % 64 == 0) (hintOk w) (some (readVStForm w)) (fun _ => true) .vst
  | 1 => accept (w / 2 ^ 3 % 2 == 0) (hintOk w) (some (readVStSegForm w)) (fun _ => true) .vstseg
  | 2 => accept (w / 2 ^ 3 % 2 == 0 && w / 2 ^ 5 % 64 == 0) (hintOk w) (some (readVStForm w)) (fun _ => true) .vste
  | 3 => accept (w / 2 ^ 3 % 2 == 0 && w / 2 ^ 5 % 64 == 0) (hintOk w) (some (readVStForm w)) (fun _ => true) .vspl
  | _ => .error .illFn

/-- The functions of major 0x22 (R133). -/
def decodeVgs (w : Nat) : Except DecodeCause Instr :=
  match w / 2 ^ 6 % 16 with
  | 0 => accept (w / 2 ^ 3 % 2 == 0 && w / 2 ^ 5 % 2 == 0 && w / 2 ^ 10 % 2 == 1) (hintOk w) (some (readVS w)) (fun _ => true) .vgath
  | 1 => accept (w / 2 ^ 3 % 2 == 0 && w / 2 ^ 5 % 2 == 0 && w / 2 ^ 10 % 2 == 1) (hintOk w) (some (readVS w)) (fun _ => true) .vscat
  | 2 => accept (w / 2 ^ 3 % 2 == 0 && w / 2 ^ 5 % 2 == 0 && w / 2 ^ 10 % 2 == 1) (hintOk w) (some (readVS w)) (fun _ => true) .vgathp
  | _ => .error .illFn

/-- The functions of major 0x23 (R133). -/
def decodeVlt (w : Nat) : Except DecodeCause Instr :=
  match w / 2 ^ 6 % 16 with
  | 0 => accept (w / 2 ^ 3 % 2 == 0 && w / 2 ^ 5 % 2 == 0 && w / 2 ^ 10 % 64 == 0) (hintOk w) (some (readVU w)) (fun _ => true) .vltld
  | 1 => accept (w / 2 ^ 3 % 2 == 0 && w / 2 ^ 5 % 2 == 0 && w / 2 ^ 10 % 64 == 0) (hintOk w) (some (readVU w)) (fun _ => true) .vltst
  | 2 => accept (w / 2 ^ 3 % 2 == 0 && w / 2 ^ 5 % 2 == 0 && w / 2 ^ 10 % 64 == 0) (hintOk w) (some (readVU w)) (fun _ => true) .vltadd
  | _ => .error .illFn

/-- The functions of major 0x24 (R133). -/
def decodeQctl (w : Nat) : Except DecodeCause Instr :=
  match w / 2 ^ 3 % 256 with
  | 0 => accept (w / 2 ^ 11 % 32 == 0 && w / 2 ^ 25 % 2 == 0) (hintOk w) (some (readQAForm w)) (fun _ => true) .qbind
  | 1 => accept (w / 2 ^ 11 % 1024 == 0 && w / 2 ^ 25 % 2 == 0) (hintOk w) (some (readQForm w)) (fun _ => true) .qfree
  | 2 => accept (w / 2 ^ 11 % 32 == 0 && w / 2 ^ 25 % 2 == 0) (hintOk w) (some (readQAForm w)) (fun _ => true) .qseek
  | 3 => accept (w / 2 ^ 11 % 32 == 0 && w / 2 ^ 20 % 2 == 0) (hintOk w) (some (readQDForm w)) (fun _ => true) .qstat
  | _ => .error .illFn

/-- The functions of major 0x25 (R133). -/
def decodeVamo (w : Nat) : Except DecodeCause Instr :=
  match w / 2 ^ 6 % 16 with
  | 0 => accept (w / 2 ^ 3 % 2 == 0 && w / 2 ^ 5 % 2 == 0 && w / 2 ^ 10 % 2 == 1) (hintOk w) (some (readVS w)) (fun _ => true) .vamoadd
  | 1 => accept (w / 2 ^ 3 % 2 == 0 && w / 2 ^ 5 % 2 == 0 && w / 2 ^ 10 % 2 == 1) (hintOk w) (some (readVS w)) (fun _ => true) .vamomax
  | 2 => accept (w / 2 ^ 3 % 2 == 0 && w / 2 ^ 5 % 2 == 0 && w / 2 ^ 10 % 2 == 1) (hintOk w) (some (readVS w)) vamocasOk .vamocas
  | _ => .error .illFn

/-- The functions of major 0x26 (R133). -/
def decodeMop (w : Nat) : Except DecodeCause Instr :=
  match w / 2 ^ 8 % 16 with
  | 0 => accept (w / 2 ^ 3 % 32 == 0 && w / 2 ^ 13 % 16 == 0 && w / 2 ^ 22 % 16 == 0) (hintOk w) (some (readMClaimForm w)) mclaimOk .mclaim
  | 1 => accept (w / 2 ^ 3 % 32 == 0 && w / 2 ^ 12 % 32 == 0 && w / 2 ^ 22 % 16 == 0) (hintOk w) (some (readMRelForm w)) (fun _ => true) .mrel
  | 2 => accept (w / 2 ^ 3 % 16 == 0) (hintOk w) (some (readMmaForm w)) (fun _ => true) .mma
  | 3 => accept (w / 2 ^ 3 % 16 == 1) (hintOk w) (some (readMmaForm w)) (fun _ => true) .mmas
  | 4 => accept (w / 2 ^ 3 % 16 == 0) (hintOk w) (some (readMmaForm w)) (fun _ => true) .mslide
  | 5 => accept (w / 2 ^ 3 % 32 == 0) (hintOk w) (some (readMPromForm w)) (fun _ => true) .mprom
  | 6 => accept (w / 2 ^ 3 % 32 == 0 && w / 2 ^ 12 % 1024 == 0) (hintOk w) (some (readMZeroForm w)) (fun _ => true) .mzero
  | 7 => accept (w / 2 ^ 3 % 8 == 0 && w / 2 ^ 7 % 2 == 0) (hintOk w) (some (readMAccRdForm w)) (fun _ => true) .maccrd
  | 8 => accept (w / 2 ^ 3 % 32 == 0) (hintOk w) (some (readMAccWrForm w)) (fun _ => true) .maccwr
  | _ => .error .illFn

/-- The functions of major 0x27 (R133). -/
def decodeMld (w : Nat) : Except DecodeCause Instr :=
  match w / 2 ^ 11 % 64 with
  | 0 => accept (w / 2 ^ 3 % 4 == 0) (hintOk w) (some (readMLdForm w)) (fun _ => true) .mld
  | 1 => accept (w / 2 ^ 3 % 256 == 0) (hintOk w) (some (readMLdsForm w)) (fun _ => true) .mlds
  | _ => .error .illFn

/-- The functions of major 0x28 (R133). -/
def decodeFmt (w : Nat) : Except DecodeCause Instr :=
  match w / 2 ^ 3 % 256 with
  | 0 => accept (w / 2 ^ 11 % 32 == 0 && w / 2 ^ 25 % 2 == 0) (hintOk w) (some (readFtwrForm w)) (fun _ => true) .ftwr
  | 1 => accept (w / 2 ^ 11 % 32 == 0 && w / 2 ^ 20 % 2 == 0) (hintOk w) (some (readFtrdForm w)) (fun _ => true) .ftrd
  | 2 => accept (w / 2 ^ 11 % 32768 == 0) (hintOk w) (some (readA0 w)) (fun _ => true) .ftfence
  | _ => .error .illFn

/-- Steps 2 to 5 of R121 by the major of R132. -/
def decodeMajor (w : Nat) : Except DecodeCause Instr :=
  match w / 2 ^ 26 with
  | 0x01 => decodeSalu w
  | 0x02 => accept (true) true (some (readIForm w)) (fun _ => true) .addi
  | 0x03 => accept (true) true (some (readIForm w)) (fun _ => true) .andi
  | 0x04 => accept (true) true (some (readIForm w)) (fun _ => true) .ori
  | 0x05 => accept (true) true (some (readIForm w)) (fun _ => true) .xori
  | 0x06 => accept (true) true (some (readIForm w)) (fun _ => true) .slti
  | 0x07 => accept (w / 2 ^ 16 % 32 == 0) true (some (readLuiForm w)) (fun _ => true) .lui
  | 0x08 => accept (true) true (readLForm w) (fun _ => true) .ld
  | 0x09 => accept (true) true (readLForm w) stOk .st
  | 0x0A => decodeShi w
  | 0x0D => accept (true) true (some (readBForm w)) brOk .br
  | 0x0E => accept (true) true (some (readJForm w)) (fun _ => true) .jal
  | 0x0F => accept (true) true (some (readIForm w)) (fun _ => true) .jalr
  | 0x10 => accept (true) true (some (readPForm w)) stripOk .strip
  | 0x11 => decodeCsr w
  | 0x12 => decodeAmo w
  | 0x13 => decodeSys w
  | 0x14 => decodeSync w
  | 0x15 => decodeTug w
  | 0x16 => decodeAwl w
  | 0x17 => accept (true) true (some (readEForm w)) (fun _ => true) .emucall
  | 0x18 => decodeVset w
  | 0x19 => decodeVari w
  | 0x1A => decodeVfp w
  | 0x1B => decodeVcmp w
  | 0x1C => decodeVperm w
  | 0x1D => decodeVenc w
  | 0x1E => if w / 2 ^ 6 % 32 < 30 then accept (true) (hintOk w) (some (readVIdxForm w)) vidxOk .vidx else .error .illFn
  | 0x1F => decodeVcvt w
  | 0x20 => decodeVld w
  | 0x21 => decodeVst w
  | 0x22 => decodeVgs w
  | 0x23 => decodeVlt w
  | 0x24 => decodeQctl w
  | 0x25 => decodeVamo w
  | 0x26 => decodeMop w
  | 0x27 => decodeMld w
  | 0x28 => decodeFmt w
  | _ => .error .illOpc

/-- R121 steps 1 to 5: the instruction a word is, or the cause of the first check that fails. -/
def decode (w : Nat) : Except DecodeCause Instr :=
  if w = 0 then .error .illZero else decodeMajor w

/-- The word that four bytes hold, the first at the lowest address (R1, R120). -/
def wordOfBytes : List Byte → Nat
  | [] => 0
  | b :: bs => b.toNat + 256 * wordOfBytes bs

/-- The `n` bytes of a number, least significant first. -/
def bytesOfNat : Nat → Nat → List Byte
  | 0, _ => []
  | n + 1, w => BitVec.ofNat 8 w :: bytesOfNat n (w / 256)

/-- The decoder on bytes: the first four are the word. -/
def decodeBytes (bs : List Byte) : Except DecodeCause Instr :=
  decode (wordOfBytes (bs.take 4))

/-- The instruction the decoder reads from a word whose bits the opcode table numbers; an instruction is one 32-bit word (R120), so the bits above `nbits` are zero. -/
def decodeTableWord (nbits w : Nat) : Option Instr :=
  match decodeBytes (bytesOfNat 4 (w % 2 ^ nbits)) with
  | .ok i => some i
  | .error _ => none

def writeA3 (f : A3) : Nat :=
  f.sd.val * 2 ^ 21 + f.sa.val * 2 ^ 16 + f.sb.val * 2 ^ 11 + f.hint.val

def writeA2 (f : A2) : Nat :=
  f.sd.val * 2 ^ 21 + f.sa.val * 2 ^ 16 + f.hint.val

def writeA1 (f : A1) : Nat :=
  f.sa.val * 2 ^ 16 + f.hint.val

def writeAD (f : AD) : Nat :=
  f.sd.val * 2 ^ 21 + f.hint.val

def writeA0 (f : A0) : Nat :=
  f.hint.val

def writeAB (f : AB) : Nat :=
  f.sa.val * 2 ^ 16 + f.sb.val * 2 ^ 11 + f.hint.val

def writeADB (f : ADB) : Nat :=
  f.sd.val * 2 ^ 21 + f.sb.val * 2 ^ 11 + f.hint.val

def writeIForm (f : IForm) : Nat :=
  f.sd.val * 2 ^ 21 + f.sa.val * 2 ^ 16 + f.imm.toNat

def writeLuiForm (f : LuiForm) : Nat :=
  f.sd.val * 2 ^ 21 + f.imm.toNat

def writeShForm (f : ShForm) : Nat :=
  f.sd.val * 2 ^ 21 + f.sa.val * 2 ^ 16 + f.shamt.val * 2 ^ 8

def writeLForm (f : LForm) : Nat :=
  f.r.val * 2 ^ 21 + f.sa.val * 2 ^ 16 + widthCode f.width * 2 ^ 13 + lorderCode f.order * 2 ^ 11 + f.off.toNat

def writeBForm (f : BForm) : Nat :=
  f.sa.val * 2 ^ 21 + f.sb.val * 2 ^ 16 + condCode f.cond * 2 ^ 13 + f.off.toNat

def writeJForm (f : JForm) : Nat :=
  f.off.toNat

def writeEForm (f : EForm) : Nat :=
  f.n.toNat

def writePForm (f : PForm) : Nat :=
  f.sn.val * 2 ^ 21 + f.pg.val * 2 ^ 18 + f.pmask.toNat * 2 ^ 14 + f.off.toNat

def writeCForm (f : CForm) : Nat :=
  f.sd.val * 2 ^ 21 + f.sa.val * 2 ^ 16 + f.csr.toNat

def writeCRForm (f : CRForm) : Nat :=
  f.sd.val * 2 ^ 21 + f.csr.toNat

def writeXForm (f : XForm) : Nat :=
  f.sd.val * 2 ^ 21 + f.sa.val * 2 ^ 16 + f.sb.val * 2 ^ 11 + scopeCode f.scope * 2 ^ 5 + xorderCode f.order * 2 ^ 3 + f.hint.val

def writeQualForm (f : QualForm) : Nat :=
  scopeCode f.scope * 2 ^ 13 + f.v.toNat * 2 ^ 12 + f.e.toNat * 2 ^ 11 + f.hint.val

def writeQualA (f : QualA) : Nat :=
  f.sa.val * 2 ^ 16 + scopeCode f.scope * 2 ^ 13 + f.v.toNat * 2 ^ 12 + f.e.toNat * 2 ^ 11 + f.hint.val

def writeDrInitForm (f : DrInitForm) : Nat :=
  f.ring.val * 2 ^ 21 + f.sa.val * 2 ^ 16 + f.sb.val * 2 ^ 11 + f.hint.val

def writeDrWaitForm (f : DrWaitForm) : Nat :=
  f.sd.val * 2 ^ 21 + f.ring.val * 2 ^ 16 + f.hint.val

def writeDrRelForm (f : DrRelForm) : Nat :=
  f.ring.val * 2 ^ 16 + f.hint.val

def writeBarwForm (f : BarwForm) : Nat :=
  f.sa.val * 2 ^ 16 + f.bar.val * 2 ^ 11 + f.hint.val

def writeBaraForm (f : BaraForm) : Nat :=
  f.sd.val * 2 ^ 21 + f.sa.val * 2 ^ 16 + f.bar.val * 2 ^ 11 + f.hint.val

def writeTForm (f : TForm) : Nat :=
  f.sd.val * 2 ^ 21 + f.sa.val * 2 ^ 16 + f.sb.val * 2 ^ 11 + f.tag.val

def writeVB (f : VB) : Nat :=
  f.vd.val * 2 ^ 21 + f.va.val * 2 ^ 16 + vsrcCode f.b + f.x.toNat * 2 ^ 5 + f.feA.toNat * 2 ^ 4 + f.hint.val

def writeVCmpForm (f : VCmpForm) : Nat :=
  f.md.val * 2 ^ 21 + f.va.val * 2 ^ 16 + vsrcCode f.b + f.feA.toNat * 2 ^ 4 + f.hint.val

def writeVZForm (f : VZForm) : Nat :=
  f.vd.val * 2 ^ 21 + f.va.val * 2 ^ 16 + f.ent.val * 2 ^ 11 + f.x.toNat * 2 ^ 5 + f.feA.toNat * 2 ^ 4 + f.hint.val

def writeVUX (f : VUX) : Nat :=
  f.vd.val * 2 ^ 21 + f.va.val * 2 ^ 16 + f.x.toNat * 2 ^ 5 + f.feA.toNat * 2 ^ 4 + f.hint.val

def writeVU (f : VU) : Nat :=
  f.vd.val * 2 ^ 21 + f.va.val * 2 ^ 16 + f.feA.toNat * 2 ^ 4 + f.hint.val

def writeVS (f : VS) : Nat :=
  f.vd.val * 2 ^ 21 + f.va.val * 2 ^ 16 + f.sb.val * 2 ^ 11 + f.feA.toNat * 2 ^ 4 + f.hint.val

def writeVV (f : VV) : Nat :=
  f.vd.val * 2 ^ 21 + f.va.val * 2 ^ 16 + f.vb.val * 2 ^ 11 + f.feA.toNat * 2 ^ 4 + f.feB.toNat * 2 ^ 3 + f.hint.val

def writeM3 (f : M3) : Nat :=
  f.md.val * 2 ^ 21 + f.ma.val * 2 ^ 16 + f.mb.val * 2 ^ 11 + f.feA.toNat * 2 ^ 4 + f.feB.toNat * 2 ^ 3 + f.hint.val

def writeM2 (f : M2) : Nat :=
  f.md.val * 2 ^ 21 + f.ma.val * 2 ^ 16 + f.feA.toNat * 2 ^ 4 + f.hint.val

def writeMS (f : MS) : Nat :=
  f.sd.val * 2 ^ 21 + f.ma.val * 2 ^ 16 + f.feA.toNat * 2 ^ 4 + f.hint.val

def writeVBrdForm (f : VBrdForm) : Nat :=
  f.vd.val * 2 ^ 21 + f.sb.val * 2 ^ 11 + f.hint.val

def writeVD (f : VD) : Nat :=
  f.vd.val * 2 ^ 21 + f.hint.val

def writeVIdxForm (f : VIdxForm) : Nat :=
  f.vd.val * 2 ^ 21 + f.si.val * 2 ^ 16 + f.vb.val * 2 ^ 11 + f.fn.val * 2 ^ 6 + f.x.toNat * 2 ^ 5 + f.feA.toNat * 2 ^ 4 + f.feB.toNat * 2 ^ 3 + f.hint.val

def writeVCvtForm (f : VCvtForm) : Nat :=
  f.vd.val * 2 ^ 21 + f.va.val * 2 ^ 16 + f.ent.val * 2 ^ 11 + f.sat.toNat * 2 ^ 10 + f.x.toNat * 2 ^ 5 + f.feA.toNat * 2 ^ 4 + f.hint.val

def writeVQForm (f : VQForm) : Nat :=
  f.vd.val * 2 ^ 21 + f.va.val * 2 ^ 16 + f.vb.val * 2 ^ 11 + f.sat.toNat * 2 ^ 10 + f.x.toNat * 2 ^ 5 + f.feA.toNat * 2 ^ 4 + f.feB.toNat * 2 ^ 3 + f.hint.val

def writeVDQForm (f : VDQForm) : Nat :=
  f.vd.val * 2 ^ 21 + f.va.val * 2 ^ 16 + f.vb.val * 2 ^ 11 + f.x.toNat * 2 ^ 5 + f.feA.toNat * 2 ^ 4 + f.feB.toNat * 2 ^ 3 + f.hint.val

def writeVA1 (f : VA1) : Nat :=
  f.va.val * 2 ^ 16 + f.feA.toNat * 2 ^ 4 + f.hint.val

def writeVSclForm (f : VSclForm) : Nat :=
  f.sd.val * 2 ^ 21 + f.n.val * 2 ^ 16 + f.ent.val * 2 ^ 11 + f.hint.val

def writeVPkForm (f : VPkForm) : Nat :=
  f.vd.val * 2 ^ 21 + f.va.val * 2 ^ 16 + f.ent.val * 2 ^ 11 + f.feA.toNat * 2 ^ 4 + f.hint.val

def writeVLdForm (f : VLdForm) : Nat :=
  f.vd.val * 2 ^ 21 + f.q.val * 2 ^ 17 + f.hint.val

def writeVLdbForm (f : VLdbForm) : Nat :=
  f.vd.val * 2 ^ 21 + f.q.val * 2 ^ 17 + f.off.val * 2 ^ 5 + f.hint.val

def writeVSegForm (f : VSegForm) : Nat :=
  f.vd.val * 2 ^ 21 + f.q.val * 2 ^ 17 + f.nf.val * 2 ^ 5 + f.fw.val * 2 ^ 8 + f.sx.toNat * 2 ^ 10 + f.hint.val

def writeVStForm (f : VStForm) : Nat :=
  f.vs.val * 2 ^ 21 + f.q.val * 2 ^ 17 + f.fe.toNat * 2 ^ 4 + f.hint.val

def writeVStSegForm (f : VStSegForm) : Nat :=
  f.vs.val * 2 ^ 21 + f.q.val * 2 ^ 17 + f.nf.val * 2 ^ 5 + f.fw.val * 2 ^ 8 + f.sx.toNat * 2 ^ 10 + f.fe.toNat * 2 ^ 4 + f.hint.val

def writeQAForm (f : QAForm) : Nat :=
  f.q.val * 2 ^ 21 + f.sa.val * 2 ^ 16 + f.hint.val

def writeQForm (f : QForm) : Nat :=
  f.q.val * 2 ^ 21 + f.hint.val

def writeQDForm (f : QDForm) : Nat :=
  f.sd.val * 2 ^ 21 + f.q.val * 2 ^ 16 + f.hint.val

def writeMClaimForm (f : MClaimForm) : Nat :=
  f.slot.val * 2 ^ 17 + f.w.toNat * 2 ^ 12 + f.hint.val

def writeMRelForm (f : MRelForm) : Nat :=
  f.slot.val * 2 ^ 17 + f.hint.val

def writeMmaForm (f : MmaForm) : Nat :=
  f.acc.val * 2 ^ 22 + f.slotA.val * 2 ^ 17 + f.slotB.val * 2 ^ 12 + f.p.toNat * 2 ^ 7 + f.hint.val

def writeMPromForm (f : MPromForm) : Nat :=
  f.acc.val * 2 ^ 22 + f.slotA.val * 2 ^ 17 + f.slotB.val * 2 ^ 12 + f.hint.val

def writeMZeroForm (f : MZeroForm) : Nat :=
  f.acc.val * 2 ^ 22 + f.hint.val

def writeMAccRdForm (f : MAccRdForm) : Nat :=
  f.acc.val * 2 ^ 22 + f.vd.val * 2 ^ 17 + f.blk.val * 2 ^ 12 + f.sat.toNat * 2 ^ 6 + f.hint.val

def writeMAccWrForm (f : MAccWrForm) : Nat :=
  f.acc.val * 2 ^ 22 + f.vs.val * 2 ^ 17 + f.blk.val * 2 ^ 12 + f.hint.val

def writeMLdForm (f : MLdForm) : Nat :=
  f.slot.val * 2 ^ 21 + f.q.val * 2 ^ 17 + f.l0.val * 2 ^ 5 + f.hint.val

def writeMLdsForm (f : MLdsForm) : Nat :=
  f.slot.val * 2 ^ 21 + f.q.val * 2 ^ 17 + f.hint.val

def writeFtwrForm (f : FtwrForm) : Nat :=
  f.n.val * 2 ^ 21 + f.sa.val * 2 ^ 16 + f.hint.val

def writeFtrdForm (f : FtrdForm) : Nat :=
  f.sd.val * 2 ^ 21 + f.n.val * 2 ^ 16 + f.hint.val

/-- The word of an encoded instruction, from its row's fixed bits and its fields; none for a step of the hardware, which no word encodes. -/
def encode : Instr → Option Nat
  | .add f => some (0x04000000 + writeA3 f)
  | .sub f => some (0x04000008 + writeA3 f)
  | .and f => some (0x04000010 + writeA3 f)
  | .or f => some (0x04000018 + writeA3 f)
  | .xor f => some (0x04000020 + writeA3 f)
  | .sll f => some (0x04000028 + writeA3 f)
  | .srl f => some (0x04000030 + writeA3 f)
  | .sra f => some (0x04000038 + writeA3 f)
  | .mul f => some (0x04000040 + writeA3 f)
  | .mulh f => some (0x04000048 + writeA3 f)
  | .div f => some (0x04000050 + writeA3 f)
  | .divu f => some (0x04000058 + writeA3 f)
  | .rem f => some (0x04000060 + writeA3 f)
  | .remu f => some (0x04000068 + writeA3 f)
  | .min f => some (0x04000070 + writeA3 f)
  | .max f => some (0x04000078 + writeA3 f)
  | .slt f => some (0x04000080 + writeA3 f)
  | .sltu f => some (0x04000088 + writeA3 f)
  | .seq f => some (0x04000090 + writeA3 f)
  | .clz f => some (0x04000098 + writeA2 f)
  | .ctz f => some (0x040000A0 + writeA2 f)
  | .popc f => some (0x040000A8 + writeA2 f)
  | .bext f => some (0x040000B0 + writeA3 f)
  | .bins f => some (0x040000B8 + writeA3 f)
  | .sel f => some (0x040000C0 + writeA3 f)
  | .addi f => some (0x08000000 + writeIForm f)
  | .andi f => some (0x0C000000 + writeIForm f)
  | .ori f => some (0x10000000 + writeIForm f)
  | .xori f => some (0x14000000 + writeIForm f)
  | .slti f => some (0x18000000 + writeIForm f)
  | .lui f => some (0x1C000000 + writeLuiForm f)
  | .slli f => some (0x28000000 + writeShForm f)
  | .srli f => some (0x28004000 + writeShForm f)
  | .srai f => some (0x28008000 + writeShForm f)
  | .ld f => some (0x20000000 + writeLForm f)
  | .st f => some (0x24000000 + writeLForm f)
  | .br f => some (0x34000000 + writeBForm f)
  | .jal f => some (0x38000000 + writeJForm f)
  | .jalr f => some (0x3C000000 + writeIForm f)
  | .strip f => some (0x40000000 + writePForm f)
  | .csrr f => some (0x44000000 + writeCRForm f)
  | .csrw f => some (0x44004000 + writeCForm f)
  | .csrs f => some (0x44008000 + writeCForm f)
  | .csrc f => some (0x4400C000 + writeCForm f)
  | .amoadd f => some (0x48000000 + writeXForm f)
  | .amoswp f => some (0x48000100 + writeXForm f)
  | .amocas f => some (0x48000200 + writeXForm f)
  | .amomin f => some (0x48000300 + writeXForm f)
  | .amomax f => some (0x48000400 + writeXForm f)
  | .amoand f => some (0x48000500 + writeXForm f)
  | .amoor f => some (0x48000600 + writeXForm f)
  | .amoxor f => some (0x48000700 + writeXForm f)
  | .trap f => some (0x4C000000 + writeA1 f)
  | .eret f => some (0x4C000008 + writeA0 f)
  | .fence f => some (0x4C000010 + writeQualForm f)
  | .halt f => some (0x4C000018 + writeA0 f)
  | .yield f => some (0x4C000020 + writeA0 f)
  | .spawn f => some (0x4C000028 + writeA2 f)
  | .ndone f => some (0x4C000030 + writeA0 f)
  | .lease f => some (0x4C000038 + writeA2 f)
  | .unlease f => some (0x4C000040 + writeA0 f)
  | .brkpt f => some (0x4C000048 + writeA1 f)
  | .rdtime f => some (0x4C000050 + writeAD f)
  | .nop f => some (0x4C000058 + writeA0 f)
  | .acq f => some (0x50000000 + writeQualA f)
  | .rel f => some (0x50000008 + writeQualA f)
  | .bind f => some (0x50000010 + writeA3 f)
  | .unbind f => some (0x50000018 + writeA1 f)
  | .tlwait f => some (0x50000020 + writeAB f)
  | .tlsig f => some (0x50000028 + writeA2 f)
  | .tlrd f => some (0x50000030 + writeA2 f)
  | .drinit f => some (0x50000038 + writeDrInitForm f)
  | .drawait f => some (0x50000040 + writeDrWaitForm f)
  | .drrel f => some (0x50000048 + writeDrRelForm f)
  | .barw f => some (0x50000050 + writeBarwForm f)
  | .bara f => some (0x50000058 + writeBaraForm f)
  | .tagwany f => some (0x50000060 + writeA2 f)
  | .tagwall f => some (0x50000068 + writeA2 f)
  | .tagff f => some (0x50000070 + writeA2 f)
  | .tcopy f => some (0x54000000 + writeTForm f)
  | .tcopym f => some (0x54000040 + writeTForm f)
  | .tqnt f => some (0x54000080 + writeTForm f)
  | .tenc f => some (0x540000C0 + writeTForm f)
  | .tdec f => some (0x54000100 + writeTForm f)
  | .tqsc f => some (0x54000140 + writeTForm f)
  | .tstat f => some (0x54000180 + writeTForm f)
  | .tblk f => some (0x540001C0 + writeTForm f)
  | .wbind f => some (0x58000000 + writeA3 f)
  | .wqry f => some (0x58000008 + writeA3 f)
  | .wapp f => some (0x58000010 + writeA3 f)
  | .wrefit f => some (0x58000018 + writeADB f)
  | .wdrain f => some (0x58000020 + writeADB f)
  | .emucall f => some (0x5C000000 + writeEForm f)
  | .vsetl f => some (0x60000000 + writeA2 f)
  | .vshape f => some (0x60000008 + writeA3 f)
  | .vtype f => some (0x60000010 + writeA2 f)
  | .vsetm f => some (0x60000018 + writeA2 f)
  | .vsets f => some (0x60000020 + writeA2 f)
  | .vdecl f => some (0x60000028 + writeA2 f)
  | .vlive f => some (0x60000030 + writeA2 f)
  | .vadd f => some (0x64000000 + writeVB f)
  | .vsub f => some (0x64000040 + writeVB f)
  | .vmul f => some (0x64000080 + writeVB f)
  | .vmulh f => some (0x640000C0 + writeVB f)
  | .vmacc f => some (0x64000100 + writeVB f)
  | .vand f => some (0x64000140 + writeVB f)
  | .vor f => some (0x64000180 + writeVB f)
  | .vxor f => some (0x640001C0 + writeVB f)
  | .vsll f => some (0x64000200 + writeVB f)
  | .vsrl f => some (0x64000240 + writeVB f)
  | .vsra f => some (0x64000280 + writeVB f)
  | .vmin f => some (0x640002C0 + writeVB f)
  | .vmax f => some (0x64000300 + writeVB f)
  | .vsadd f => some (0x64000340 + writeVB f)
  | .vssub f => some (0x64000380 + writeVB f)
  | .vzsub f => some (0x640003C0 + writeVZForm f)
  | .vfadd f => some (0x68000000 + writeVB f)
  | .vfsub f => some (0x68000040 + writeVB f)
  | .vfmul f => some (0x68000080 + writeVB f)
  | .vfma f => some (0x680000C0 + writeVB f)
  | .vfnms f => some (0x68000100 + writeVB f)
  | .vfdiv f => some (0x68000140 + writeVB f)
  | .vfsqrt f => some (0x68000180 + writeVUX f)
  | .vfmin f => some (0x680001C0 + writeVB f)
  | .vfmax f => some (0x68000200 + writeVB f)
  | .vfabs f => some (0x68000240 + writeVUX f)
  | .vfneg f => some (0x68000280 + writeVUX f)
  | .vfrec f => some (0x680002C0 + writeVUX f)
  | .vfrsq f => some (0x68000300 + writeVUX f)
  | .vfexp2 f => some (0x68000340 + writeVUX f)
  | .vceq f => some (0x6C000000 + writeVCmpForm f)
  | .vcne f => some (0x6C000040 + writeVCmpForm f)
  | .vclt f => some (0x6C000080 + writeVCmpForm f)
  | .vcle f => some (0x6C0000C0 + writeVCmpForm f)
  | .vcltu f => some (0x6C000100 + writeVCmpForm f)
  | .vfceq f => some (0x6C000140 + writeVCmpForm f)
  | .vfclt f => some (0x6C000180 + writeVCmpForm f)
  | .vfcle f => some (0x6C0001C0 + writeVCmpForm f)
  | .vfcun f => some (0x6C000200 + writeVCmpForm f)
  | .mand f => some (0x6C000240 + writeM3 f)
  | .mor f => some (0x6C000280 + writeM3 f)
  | .mxor f => some (0x6C0002C0 + writeM3 f)
  | .mnot f => some (0x6C000300 + writeM2 f)
  | .mpop f => some (0x6C000340 + writeMS f)
  | .mfirst f => some (0x6C000380 + writeMS f)
  | .vslup f => some (0x70000400 + writeVS f)
  | .vsldn f => some (0x70000440 + writeVS f)
  | .vcomp f => some (0x70000080 + writeVU f)
  | .vexpd f => some (0x700000C0 + writeVU f)
  | .vreds f => some (0x70000500 + writeVS f)
  | .vredmx f => some (0x70000540 + writeVS f)
  | .vredmn f => some (0x70000580 + writeVS f)
  | .vfreds f => some (0x700005C0 + writeVS f)
  | .vmvs f => some (0x70000600 + writeVS f)
  | .vbrd f => some (0x70000640 + writeVBrdForm f)
  | .viota f => some (0x70000280 + writeVD f)
  | .vband f => some (0x700002C0 + writeVCmpForm f)
  | .vbpfx f => some (0x70000300 + writeVU f)
  | .vencr f => some (0x74000000 + writeVU f)
  | .vencd f => some (0x74000040 + writeVU f)
  | .venct f => some (0x74000080 + writeVU f)
  | .vdec f => some (0x740000C0 + writeVU f)
  | .vrenc f => some (0x74000100 + writeVU f)
  | .vencq f => some (0x74000140 + writeVV f)
  | .vdictExtract f => some (0x74000580 + writeVU f)
  | .vdictReplace f => some (0x74000180 + writeVV f)
  | .vidx f => some (0x78000000 + writeVIdxForm f)
  | .vcvt f => some (0x7C000000 + writeVCvtForm f)
  | .vqnt f => some (0x7C000040 + writeVQForm f)
  | .vdqnt f => some (0x7C000080 + writeVDQForm f)
  | .vamax f => some (0x7C0000C0 + writeVA1 f)
  | .vscl f => some (0x7C000100 + writeVSclForm f)
  | .vpack f => some (0x7C000140 + writeVPkForm f)
  | .vunpk f => some (0x7C000180 + writeVPkForm f)
  | .vld f => some (0x80000000 + writeVLdForm f)
  | .vldb f => some (0x80000800 + writeVLdbForm f)
  | .vldseg f => some (0x80001000 + writeVSegForm f)
  | .vlde f => some (0x80001800 + writeVLdForm f)
  | .vfil f => some (0x80002000 + writeVLdForm f)
  | .vst f => some (0x84000000 + writeVStForm f)
  | .vstseg f => some (0x84000800 + writeVStSegForm f)
  | .vste f => some (0x84001000 + writeVStForm f)
  | .vspl f => some (0x84001800 + writeVStForm f)
  | .vgath f => some (0x88000400 + writeVS f)
  | .vscat f => some (0x88000440 + writeVS f)
  | .vgathp f => some (0x88000480 + writeVS f)
  | .vltld f => some (0x8C000000 + writeVU f)
  | .vltst f => some (0x8C000040 + writeVU f)
  | .vltadd f => some (0x8C000080 + writeVU f)
  | .qbind f => some (0x90000000 + writeQAForm f)
  | .qfree f => some (0x90000008 + writeQForm f)
  | .qseek f => some (0x90000010 + writeQAForm f)
  | .qstat f => some (0x90000018 + writeQDForm f)
  | .vamoadd f => some (0x94000400 + writeVS f)
  | .vamomax f => some (0x94000440 + writeVS f)
  | .vamocas f => some (0x94000480 + writeVS f)
  | .mclaim f => some (0x98000000 + writeMClaimForm f)
  | .mrel f => some (0x98000100 + writeMRelForm f)
  | .mma f => some (0x98000200 + writeMmaForm f)
  | .mmas f => some (0x98000308 + writeMmaForm f)
  | .mslide f => some (0x98000400 + writeMmaForm f)
  | .mprom f => some (0x98000500 + writeMPromForm f)
  | .mzero f => some (0x98000600 + writeMZeroForm f)
  | .maccrd f => some (0x98000700 + writeMAccRdForm f)
  | .maccwr f => some (0x98000800 + writeMAccWrForm f)
  | .mld f => some (0x9C000000 + writeMLdForm f)
  | .mlds f => some (0x9C000800 + writeMLdsForm f)
  | .ftwr f => some (0xA0000000 + writeFtwrForm f)
  | .ftrd f => some (0xA0000008 + writeFtrdForm f)
  | .ftfence f => some (0xA0000010 + writeA0 f)
  | .vectorLaneAdmit _ => none
  | .slabFill _ _ _ => none
  | .laneGroupRetention _ _ => none
  | .laneGroupWake _ _ _ => none
  | .valueLands _ _ => none
  | .streamWalkAhead _ _ => none
  | .peerGatherReturn _ _ => none
  | .tugCommandStart _ _ => none
  | .tugBeatLands _ _ => none
  | .tugCommandComplete _ _ => none
  | .followOnIssue _ _ => none
  | .arrayAccept _ => none
  | .arrayOpComplete _ => none
  | .slotFillLands _ _ => none
  | .awlOperationStart _ => none
  | .awlLockGrant _ => none
  | .awlSlotTake _ => none
  | .awlOperationComplete _ => none
  | .waitRelease _ => none
  | .codeFill _ _ _ => none
  | .poolClear _ => none
  | .nodeDispatch _ => none
  | .priorityAge _ => none
  | .priorityHold _ => none
  | .admission _ => none
  | .boundOverrun _ _ => none
  | .deadlineWatch _ => none
  | .completionRecordWrite _ => none
  | .commandFetch _ => none
  | .fetchRetry _ => none
  | .sqtail _ _ => none
  | .cqhead _ _ => none
  | .sqcfg _ _ => none
  | .cqcfg _ _ => none
  | .registerWrite _ _ => none
  | .hostCmdNop _ => none
  | .submit _ _ _ => none
  | .regionInstall _ _ _ => none
  | .regionRemove _ _ _ => none
  | .fdtabSet _ _ => none
  | .nvmeQpair _ _ _ => none
  | .hostMemAccess _ _ => none
  | .park _ => none
  | .moveout _ => none
  | .resume _ => none
  | .kill _ => none
  | .invalidationRequest _ => none
  | .dlgo _ => none
  | .firmwareVerify _ _ => none
  | .powerUp => none
  | .powerLoss => none
  | .driveDmaWrite _ _ _ => none
  | .memLinkCrcRetry _ => none
  | .memLinkRetrain _ _ => none
  | .balfinFlitReplay _ _ => none
  | .balfinRetrain _ _ => none
  | .fabricResend _ _ _ => none
  | .fabricDelivery _ _ _ => none
  | .homeModuleLost _ => none
  | .unitFence _ => none
  | .sramScrub _ _ => none
  | .cinchTick _ _ => none
  | .sensorCrossCheck _ _ => none
  | .floorLower _ => none
  | .ageingRead _ => none
  | .leaseExpire _ => none
  | .decodeCause _ _ => none
  | .fetchCause _ _ => none
  | .fabricAcknowledgement _ _ => none
  | .flitAcknowledgement _ _ => none
  | .resizableBarWrite _ => none

end Sys2Proof
end

