-- ==== Sys2Proof/Config.lean ====
section
/-! DEFINITION. What the manual leaves open: free values, one opaque constant each, applied to the step counter or to operands. None has a body, so no proof can rest on a number. -/

namespace Sys2Proof.Config

/-- Nanoseconds that pass in a step (log 6): TIME's advance per instruction is not stated. -/
opaque elapsed : Nat → Nat

/-- TVAL of a cause for which the manual names no TVAL (log 7). -/
opaque tval : Nat → Word

/-- Which of the 16 entries of a contiguous group a translation uses (R318; log 9). -/
opaque contPick : Nat → Nat

/-- What a read of a drive's BAR returns, by step, drive and offset (R390; log 8). -/
opaque barByte : Nat → Nat → Nat → Byte

/-- Whether the ECDSA P-384 signature of a header verifies under the ROM's key (R409; log 10): header bytes and signature bytes. -/
opaque ecdsaOk : List Byte → List Byte → Bool

/-- Whether the ML-DSA-87 signature of a header verifies under the ROM's key (R409; log 10). -/
opaque mldsaOk : List Byte → List Byte → Bool

/-- The memory link a 4 KiB page of module memory lies behind (R271): the interleave is the Saddler's (log 13). -/
opaque linkOf : Nat → Nat

/-- Where the pool of a core begins among the module-local physical addresses (R20; log 27): the manual gives it no place. -/
opaque poolBase : Nat → Nat

/-- The line that a full scalar data cache evicts, by step (R269, R270; log 2). -/
opaque evicted : Nat → Nat

/-- Whether another module refuses an element of a peer gather under its own checks, by step and address (R200; log 27). -/
opaque peerRefuses : Nat → Nat → Bool

/-- Slabs that the youngest entry in the lanes completes before a pre-emption point, by step (R341; log 37): 0 when no entry is in the lanes. -/
opaque laneSlabs : Nat → Nat

/-- Whether a load stopped at a pre-emption point has fixed its granted length, by step (R342; log 37). -/
opaque grantFixed : Nat → Bool

/-- Registers whose content a lane group is found to have lost when it wakes without a step of its own, by step: 32 bits for each loop context of the core (R36, R403; log 33). -/
opaque wakeLost : Nat → BitVec 128

/-- A value the manual does not state, by step (log 7). -/
opaque free : Nat → Nat

end Sys2Proof.Config
end

