-- ==== Sys2Proof/Machine/State.lean ====
section
/-! DEFINITION. The state of the module: every piece of state the chapters give it, as plain data, and the state right after power-up (R410).
The fields that are the model's own, not the manual's, say so. -/

namespace Sys2Proof.Machine

/-- Bytes by address: addresses strictly rise and no entry holds zero, which an unlisted address reads as (log 3). -/
abbrev Memory := List Host.Cell

/-- A table by number: an unlisted number holds the default of its table. -/
abbrev Table (α : Type) := List (Nat × α)

/-- The causes of R333. -/
inductive Cause where
  | illZero | illOpc | illFn | illField | illHint | illVreg | privInsn | illCsr | privCsr | pcAlign
  | vlRange | mxRange | swTrap | breakpoint | emuRange | doubleTrap
  | vaNoncanon | misaligned | trNotmapped | trPerm | pteIllegal | asidInvalid | encPage | encWindow
  | lpPart | lpRange | peerWrite | peerUnreach | streamDesc | streamUnbound | streamDir | streamEnd
  | ltRange | tugPort | btExhausted | execLost | replayLost
  | feEmpty | slotState | slotOwner | tugCtx | tugDesc | tlHandle | drState | drFault | barCount
  | lockOwner | bindFull | awlCtx | awlUnbound | awlDesc | awlRing | awlArena | tugQuiesced | awlTree
  | entryIllegal | entryInvalid | entryKind | metaIllegal | eruleIllegal | encKind | encBlock | streamFmt
  | spillFrame | mxFmt | scaleSkew
  | trPriv | codeHash | partIllegal
  | retentionLoss | sramUe | memUe | linkLost | unitFenced | moduleLost
  | deadlineBreach | boundOverrun | spawnDesc | leaseLost | lazyRestore
  deriving DecidableEq, Repr

/-- What a step can end in besides a next state: nothing. The manual gives every step of this hardware an effect, a trap or a wait, so no fault has a constructor. -/
inductive Fault where
  deriving DecidableEq, Repr

/-- Why an instruction is refused. -/
inductive Refusal where
  /-- The instruction has no meaning yet. Raised by Dispatch only; safe. -/
  | notModelled (mnemonic : String)
  deriving DecidableEq, Repr

/-- KIND of a vector register (R31). -/
inductive VKind where
  | plain | runLength | dictionary | delta
  deriving DecidableEq, Repr

/-- A vector register: its metadata (R31) and its image (R27, R28); the low VLMAX bits of the image are in use. -/
structure VReg where
  full : Bool
  dirty : Bool
  pois : Bool
  kind : VKind
  tag : BitVec 8
  dw : BitVec 2
  cw : BitVec 4
  esew : BitVec 6
  k : BitVec 17
  img : BitVec 65536
  deriving DecidableEq, Repr

/-- A translation held (R321): the leaf found for an address space, or for every one when global. -/
structure Trans where
  asid : BitVec 16
  glob : Bool
  /-- base of the page or contiguous group, in virtual addresses -/
  va : Nat
  /-- log2 of its size -/
  log2 : Nat
  /-- the leaf entry -/
  leaf : Word
  /-- where the leaf entry lies, in domain physical addresses -/
  leafPa : Nat
  /-- the 4 KiB chunk it serves where a Tug command context holds it (R321) -/
  chunk : Option Nat
  deriving DecidableEq, Repr

/-- A bound stream's descriptor (R183). -/
structure Desc where
  base : Word
  ctl : Word
  count : Vector (BitVec 32) 4
  stride : Vector Word 4
  deriving DecidableEq, Repr

/-- A stream register (R37, R185, R427). -/
structure QReg where
  bound : Bool
  desc : Desc
  pos : BitVec 48
  /-- the address whose walk-ahead fault is held (R190) -/
  held : Option Word
  /-- prepared translations (R190) -/
  prep : List Trans
  /-- early-read values (R136): byte addresses and bytes -/
  early : List (Nat × Byte)
  /-- address of the block at the index; none after a QSEEK until it is found (R427) -/
  block : Option Word
  deriving DecidableEq, Repr

/-- Kind of a tile or plane (R212). -/
inductive TileKind where
  | none | fp32 | int32
  deriving DecidableEq, Repr

/-- The vector control registers (R45). -/
structure VCsr where
  vl : Word
  vshape : Word
  vtype : Word
  vm : Word
  vs : Word
  vstart : Word
  xmr : Word
  erule : Word
  vdirty : BitVec 32
  vuse : BitVec 32
  vlive : BitVec 32
  /-- VDECL.CNT and VDECL.EFF (R51) -/
  cnt : BitVec 2
  eff : BitVec 2
  /-- whether a declaration waits for the next VSETL or VSHAPE (R29, R169) -/
  pend : Bool
  deriving DecidableEq, Repr

/-- The number-format control registers (R45, R69, R75, R79), and MROWS. -/
structure FCsr where
  seed : BitVec 32
  xsel : BitVec 5
  rmo : BitVec 3
  flags : BitVec 5
  satcnt : Word
  amax : Vector (BitVec 32) 16
  mrows : Word
  deriving DecidableEq, Repr

/-- The trap registers (R334). -/
structure TrapRegs where
  cause : Word
  epc : Word
  vepc : Word
  tval : Word
  tvec : Word
  status : Word
  scratch : Word
  deriving DecidableEq, Repr

/-- What a queue entry copies when it enters (R47, R70, R81): the registers and the format entries 8 to 15. -/
structure Cap where
  vl : Word
  vshape : Word
  vtype : Word
  vm : Word
  vs : Word
  xmr : Word
  erule : Word
  rmo : BitVec 3
  xsel : BitVec 5
  ents : Vector Word 8
  deriving DecidableEq, Repr

/-- An entry of the vector instruction queue (R276). -/
structure QEntry where
  instr : Instr
  pc : Word
  cap : Cap
  /-- the scalar operand's value (R161) -/
  scalar : Word
  /-- privilege of the issuing instruction -/
  priv : BitVec 2
  /-- a trimming load whose granted length is fixed (R342) -/
  noTrim : Bool
  /-- its number among the vector instructions of its context (the model's own, for R209, R220 and R247) -/
  num : Nat
  /-- it uses an entry that an FTWR has replaced since (R82) -/
  stale : Bool
  deriving DecidableEq, Repr

/-- A trap still to be delivered at resumption (R346). -/
structure PendTrap where
  cause : Cause
  tval : Word
  deriving DecidableEq, Repr

/-- A place an access reaches. -/
inductive Loc where
  | pool (core off : Nat)
  | peer (core off : Nat)
  | mem (pa typ : Nat)
  deriving DecidableEq, Repr

/-- A scalar store not yet performed (R281): its place, bytes and value, and whether it is a release, which the stores before it precede (R147). -/
structure PStore where
  loc : Loc
  bytes : Nat
  value : Nat
  rel : Bool
  deriving DecidableEq, Repr

/-- A scalar value in flight (R148): its destination, and the physical address when it is poisoned (R348). -/
structure Landing where
  dst : Fin 32
  value : Word
  poison : Option Nat
  /-- the physical address a main-memory value comes from (R349) -/
  src : Option Nat
  deriving DecidableEq, Repr

/-- A load in flight that a poisoned element trims (R348): the element, or for an MLD the line; the register as it lands then; and the stream's position, as the load left it and as the trim leaves it. -/
structure LandTrim where
  elem : Nat
  reg : Option VReg
  pos : Option (Fin 16 × BitVec 48 × BitVec 48)
  deriving DecidableEq, Repr

/-- A load in flight (R348, R349): its destination, a vector register or from 32 on an operand slot; the physical pages it read, with the element or line that first read each; the physical address when a link was fenced meanwhile, and the trim this makes; its entry, first element, first Written element and granted length, the register's old value, and its stream with the positions before and after. -/
structure VLanding where
  dst : Nat
  pages : List (Nat × Option Nat)
  poison : Option Nat
  trim : Option LandTrim
  entry : QEntry
  start : Nat
  first : Nat
  granted : Nat
  old : VReg
  pos : Option (Fin 16 × BitVec 48 × BitVec 48)
  deriving DecidableEq, Repr

/-- A VGATHP in flight (R200, R342): its destination and the register's old value, its entry with the granted length, the element it began from, and the elements still to return with their modules. -/
structure PeerGather where
  dst : Nat
  old : VReg
  entry : QEntry
  start : Nat
  homes : List (Nat × Nat)
  deriving DecidableEq, Repr

/-- A binding (R248): its index, the object, and the sb word that gives the region. -/
structure Binding where
  idx : Nat
  obj : Word
  span : Word
  deriving DecidableEq, Repr

/-- What a TLSIG signal waits for (R247): commands and walk operations by timeline instance and number, the matrix operations up to a number, and the vector instructions up to a count. -/
structure SigWait where
  ctx : CtxId
  tugs : List (Nat × Nat)
  walks : List (Nat × Nat)
  arr : Nat
  vec : Nat
  deriving DecidableEq, Repr

/-- A lease (R258, R405): remaining microseconds and its clock in MHz. -/
structure Lease where
  micros : Nat
  clock : Nat
  deriving DecidableEq, Repr

/-- What a node that runs on a unit is. -/
structure NodeRef where
  /-- number of the graph in the module's table -/
  graph : Nat
  node : Nat
  deriving DecidableEq, Repr

/-- What a loop context does. -/
inductive CtxStatus where
  | free | running | halted | stopped | parked
  deriving DecidableEq, Repr

/-- Values kept between the nodes of one fault domain on one loop context (R334). -/
structure Kept where
  fdom : Nat
  tvec : Word
  status : Word
  scratch : Word
  deriving DecidableEq, Repr

/-- A loop context (R24, R45). -/
structure Ctx where
  st : CtxStatus
  /-- the last turn of the context ended in a wait -/
  waiting : Bool
  /-- the head of its vector queue waited in its last turn, so the scalar side has the next one (the model's own, log 1) -/
  laneHeld : Bool
  pc : Word
  s : Vector Word 32
  /-- full/empty bits, bit i for si (R26) -/
  full : BitVec 32
  /-- scalar values in flight, oldest first (R148) -/
  land : List Landing
  /-- scalar stores not yet performed, oldest first (R281) -/
  stores : List PStore
  /-- vector loads in flight (R349), and the pages the running vector instruction has read (the model's own) -/
  vland : List VLanding
  readPages : List (Nat × Option Nat)
  v : Vector VReg 32
  m : Vector (BitVec 16384) 8
  q : Vector QReg 16
  /-- kinds of tiles and of planes (R212) -/
  tk : Vector TileKind 16
  pk : Vector TileKind 16
  /-- format entries 8 to 15 (R61) -/
  ents : Vector Word 8
  vc : VCsr
  fc : FCsr
  tr : TrapRegs
  tags : Word
  lpenc : Vector Word 8
  lease : Option Lease
  slip : Word
  asid : BitVec 16
  rcb : Word
  /-- vector instruction queue, oldest first -/
  queue : List QEntry
  /-- MRELs that wait for earlier uses of their slots, oldest first; later instructions do not wait for them (R209) -/
  rels : List QEntry
  /-- entries set aside by a trap or a pre-emption (R341, R431) -/
  kept : List QEntry
  /-- the kept entries came with a context image and re-enter once the traps of R346 have been taken -/
  rejoin : Bool
  /-- traps to be delivered at resumption, and the resumption PC (R346) -/
  pendTraps : List PendTrap
  resumeAt : Word
  /-- bindings, at most 16 (R248) -/
  binds : List Binding
  /-- objects acquired and not released (R249, R290) -/
  held : List Word
  /-- vector instructions that have entered the queue, and Tug commands issued (the model's own, for R209, R220 and R247) -/
  vIn : Nat
  cmdSeq : Nat
  /-- barrier and phase a BARW has already arrived in (R252) -/
  arrived : Option (Nat × Nat)
  /-- re-faults counted, with the last faulting instruction and TVAL (R327) -/
  refaults : Nat
  lastFault : Option (Word × Word)
  /-- pages of code whose decoded operations an invalidation discarded (R328) -/
  lost : List Nat
  /-- registers whose tail slabs are free and read zero, with the first of them (R35, R94) -/
  deadTails : List (Nat × Nat)
  /-- lane groups that the last VL write sends into retention, once the vector instructions queued by then have completed (R402) -/
  retDue : BitVec 4
  retAt : Nat
  /-- peer gathers whose packed vectors have not all returned, oldest first (R200) -/
  gather : List PeerGather
  node : Option NodeRef
  fdom : Nat
  kept0 : List Kept
  deriving DecidableEq, Repr

/-- State of an operand slot (R207). -/
inductive SlotState where
  | free | claimed | filling | full
  deriving DecidableEq, Repr

/-- An operand slot (R206). -/
structure Slot where
  st : SlotState
  owner : Fin 8
  rows : Nat
  ent : Fin 16
  dbl : Bool
  sw32 : Bool
  svalid : Bool
  dtag : BitVec 8
  stag : BitVec 8
  data : BitVec 65536
  side : BitVec 2048
  /-- an MLD's last line has not landed (the model's own) -/
  mld : Bool
  deriving DecidableEq, Repr

/-- A D-ring (R242): what the header shows, and which loop context initialised it. -/
structure Ring where
  init : Bool
  owner : Fin 8
  hdr : Nat
  slotsz : Nat
  nslot : Nat
  widx : Nat
  ridx : Nat
  fill : BitVec 64
  taken : BitVec 64
  flt : BitVec 64
  exps : List Nat
  lands : List Nat
  deriving DecidableEq, Repr

/-- An operation the array has accepted and not completed (R221): its number, the issuing loop context, the captured entry, and whether it is a signal. -/
structure ArrOp where
  num : Nat
  lc : Fin 8
  entry : Option QEntry
  sig : Option SigWait
  /-- it has trapped, which completes it (R221) -/
  fin : Bool
  deriving DecidableEq, Repr

/-- The matrix array's numbering (R221); `pend` holds the follow-ons handed to it and not accepted (R237), by Tug timeline instance and command number. -/
structure MArray where
  issued : Nat
  done : Nat
  ops : List ArrOp
  pend : List (Nat × Nat)
  deriving DecidableEq, Repr

/-- A line of the scalar data cache in a bound region (R269, R270): its addresses, its 64 bytes, its dirty bytes. -/
structure DLine where
  va : Nat
  pa : Nat
  bytes : Memory
  dirty : BitVec 64
  deriving DecidableEq, Repr

/-- A cracked operation in a core's decoded-operation cache (R314), with its tags: address space, declaration in effect, address. GIS has one version (R52). -/
structure DecOp where
  asid : BitVec 16
  eff : BitVec 2
  va : Nat
  word : BitVec 32
  deriving DecidableEq, Repr

/-- Whether a unit is in service (R14, R350). -/
inductive Service where
  | inService | fenced
  deriving DecidableEq, Repr

/-- A core (R13, R24). -/
structure Core where
  pool : Memory
  /-- lane tables: lane × 4096 + offset (R201) -/
  lanes : Memory
  part : Word
  slots : Vector Slot 32
  rings : Vector Ring 8
  arr : MArray
  /-- region of the last occupant (R42) -/
  last : Option Word
  dcache : List DLine
  tlb : List Trans
  /-- poisoned 8-byte words (R347): of the pool and of the lane tables by offset / 8, of slot `n`'s data and side area by 1056 × n + offset / 8 -/
  poison : List Nat
  lanePoison : List Nat
  slotPoison : List Nat
  /-- decoded operations (R314) -/
  ops : List DecOp
  /-- a V node handed over before a loop context is free (R304) -/
  next : Option NodeRef
  /-- resident slabs, least recently used first: loop context, register (32 to 39 for masks), slab (R33, R34) -/
  slabs : List (Nat × Nat × Nat)
  /-- lane groups in retention: each keeps its quarter of every slab (R402) -/
  retained : BitVec 4
  service : Service
  deriving DecidableEq, Repr

/-- A cluster barrier (R251). -/
structure Barrier where
  phase : Nat
  n : Nat
  count : Nat
  deriving DecidableEq, Repr

/-- The Cinch and its inputs (R396 to R401). -/
structure Cinch where
  limit : Nat
  floor : Nat
  lmax : Nat
  cap : Nat
  gap : Nat
  wd : BitVec 8
  /-- currents of the last 8 microseconds, newest first, and microseconds since a step (R399) -/
  recent : List Nat
  quiet : Nat
  /-- currents of the last millisecond, newest first (R404) -/
  milli : List Nat
  /-- microseconds over the limit with every step taken (R400) -/
  overs : Nat
  /-- dynamic current of the last microsecond, in 1/500 of a milliampere (R397) -/
  dynamic : Int
  /-- supply voltage, and the TIME at which FLOOR would fall below 3,300 MHz (R407) -/
  volts : Nat
  wearDate : Nat
  /-- leakage table, 8 temperatures by 8 voltages (R397) -/
  leakage : Vector Nat 64
  drift : Nat
  drifting : Bool
  deriving DecidableEq, Repr

/-- A cluster (R13). -/
structure Cluster where
  bars : Vector Barrier 16
  cinch : Cinch
  spareUsed : Bool
  service : Service
  tugService : Service
  deriving DecidableEq, Repr

/-- A fault that ends a Tug command or a walk operation: its cause, TVAL, the faulting address and AUX (R239, R338). -/
structure TugFault where
  cause : Cause
  tval : Word
  addr : Word
  aux : Word
  deriving DecidableEq, Repr

/-- A beat of a destination: runs of bytes by address or offset, later ones over earlier ones (R240). -/
abbrev Beat := List (Nat × List Byte)

/-- A Tug command (R230, R240). -/
structure TugCmd where
  num : Nat
  /-- fn5; 8 for a TLSIG signal -/
  fn : Nat
  /-- the captured block, byte 0 in the low bits; for TSTAT its DST holds the record's address -/
  block : BitVec 1024
  /-- issuing loop context; none in a C node -/
  issuer : Option CtxId
  node : Option NodeRef
  tag : Fin 64
  ents : Vector Word 8
  asid : BitVec 16
  priv : BitVec 2
  /-- vector instructions the issuer had queued before it, and its number among the issuer's commands (the model's own, for R209 and R220) -/
  after : Nat
  seq : Nat
  /-- when it was issued, by the steps taken (R240) -/
  age : Nat
  /-- it uses an entry that an FTWR has replaced since (R82) -/
  stale : Bool
  /-- physical pages its source was read from (R349) -/
  pages : List Nat
  started : Bool
  /-- beats still to land, and the fault that then ends the command (the model's own: the source is read at the start, log 14) -/
  out : List Beat
  ends : Option TugFault
  /-- saturations counted (R75) -/
  sats : Nat
  /-- scales used, for SFILL (R236) -/
  side : List Byte
  /-- every byte has landed, or the command ended by fault -/
  finished : Bool
  fault : Option TugFault
  /-- D-ring slot taken -/
  slot : Option Nat
  /-- bytes landed -/
  landed : Nat
  /-- state of the operand slot before the fill (R344) -/
  before : Option SlotState
  /-- the follow-on has been accepted, or there is none to come (R237) -/
  followed : Bool
  sig : Option SigWait
  deriving DecidableEq, Repr

/-- A Tug command context (R15, R240). -/
structure Tug where
  queue : List TugCmd
  /-- physical pages read for the command that is starting (the model's own, for R349) -/
  reading : List Nat
  issued : Nat
  /-- numbers completed above the timeline (R274) -/
  completed : List Nat
  timeline : Nat
  sats : Nat
  cause : Nat
  causeNum : Nat
  causeAddr : Word
  tlb : List Trans
  /-- region the context is granted to (R239) -/
  region : Option Word
  deriving DecidableEq, Repr

/-- The captured fields of a tree descriptor (R105). -/
structure Tree where
  desc : Word
  nodeBase : Word
  nodeCap : Nat
  leafBase : Word
  leafCap : Nat
  theta : BitVec 32
  kdim : Nat
  vdim : Nat
  kent : Nat
  sent : Nat
  vent : Nat
  fan : Nat
  lcap : Nat
  mode : Nat
  deriving DecidableEq, Repr

/-- What a walk operation does (R253); `signal` is a TLSIG. -/
inductive WalkKind where
  | bind (desc : Word)
  | query (qbase : Word) (nq qstride qidx0 : Nat) (core : Fin 1024) (ring : Fin 8)
  | append (rec : Word)
  | refit
  | drain
  | signal
  deriving DecidableEq, Repr

/-- A queued walk operation (R253), with the entries it captured (R81). -/
structure WalkOp where
  num : Nat
  kind : WalkKind
  issuer : Option CtxId
  node : Option NodeRef
  asid : BitVec 16
  priv : BitVec 2
  ents : Vector Word 8
  /-- it uses an entry that an FTWR has replaced since (R82) -/
  stale : Bool
  /-- fault domain and GTAG of its causes -/
  fdom : Nat
  gtag : Word
  started : Bool
  /-- it waits for LOCK (R115), and the physical address of the LOCK it holds -/
  locking : Bool
  lock : Option Nat
  /-- identifier, key and value an append has read (R255) -/
  data : List Byte
  /-- records not yet emitted, each RL bytes (R113), and the D-ring slot taken for the next of them (R244) -/
  records : List (List Byte)
  slot : Option Nat
  finished : Bool
  fault : Option TugFault
  sig : Option SigWait
  deriving DecidableEq, Repr

/-- A walk context (R105, R253). -/
structure Walk where
  tree : Option Tree
  /-- a WDRAIN has been accepted and no WBIND since, or none was ever bound -/
  closed : Bool
  queue : List WalkOp
  issued : Nat
  timeline : Nat
  tlb : List Trans
  deriving DecidableEq, Repr

/-- A region installed (R294, R295): its captured block, byte 0 in the low bits, the ASID recorded for it, and the last die of an enqueue (R302). -/
structure Region where
  va : Word
  asid : BitVec 16
  block : BitVec 2048
  lastDie : Nat
  /-- spawned nodes not yet retired (R315) -/
  spawned : Nat
  deriving DecidableEq, Repr

/-- Progress of a node of a graph. -/
inductive NodeState where
  | waiting | ready | running | retired | failed
  deriving DecidableEq, Repr

/-- A unit a graph has reserved (R307). -/
inductive RUnit where
  | ctx (c : CtxId)
  | tug (t : TugId)
  | walk (w : WalkId)
  deriving DecidableEq, Repr

/-- A node of a submitted graph (R298): its descriptor, the predecessors not yet retired, its successors. -/
structure GNode where
  desc : BitVec 1024
  preds : Nat
  succs : List Nat
  st : NodeState
  /-- die of its ready pool and TIME of its enqueue (R302) -/
  die : Nat
  since : Nat
  enqSeq : Nat
  /-- the scheduler holds units for it (R302) -/
  hold : Bool
  /-- priority by waiting (R302) -/
  prio : Nat
  /-- cores into whose pool its predecessors wrote: core, pool offset, bytes (R303) -/
  placed : List (Nat × Nat × Nat)
  /-- unit it runs on, and when it started -/
  ran : Option RUnit
  start : Nat
  /-- commands or orders not yet taken (C and W nodes) -/
  left : Nat
  /-- bytes a C node's blocks move through memory-link ports, and whether a block names one; none when a block names a fabric port (R306) -/
  traffic : Option (Nat × Bool)
  overrun : Bool
  deriving DecidableEq, Repr

/-- Where a graph stands (R301, R307, R311). -/
inductive GraphState where
  | admitting | active | cancelling | failing | ended
  deriving DecidableEq, Repr

/-- A submitted graph, or the graph of one spawned node (R297, R315). -/
structure Graph where
  rcb : Word
  asid : BitVec 16
  header : BitVec 512
  nodes : List GNode
  st : GraphState
  spawned : Bool
  /-- handle of a spawned node (R315) -/
  handle : Word
  cq : Fin 64
  sq : Fin 64
  seq : BitVec 32
  reserved : List RUnit
  breached : Bool
  deriving DecidableEq, Repr

/-- Best-effort work that a reserved context had run and that an admitted graph's node displaced (R308): parked in place, its context at place n + 4 of the core and its tiles kept under the core's partition word, or moved out into an image; `ctx` is as it left. -/
structure Lent where
  home : CtxId
  inPlace : Bool
  ctx : Ctx
  /-- its status before it was parked -/
  was : CtxStatus
  part : Word
  tiles : Memory
  image : Memory
  deriving DecidableEq, Repr

/-- A completion record waiting for room (R387, R388). -/
structure CRec where
  status : Nat
  sq : Nat
  check : Nat
  tag : Word
  time : Nat
  seq : BitVec 32
  deriving DecidableEq, Repr

/-- A host queue page (R382). -/
structure HQueue where
  sqbase : Word
  sqcfg : Word
  sqtail : BitVec 32
  sqhead : BitVec 32
  cqbase : Word
  cqcfg : Word
  cqhead : BitVec 32
  cqtail : BitVec 32
  waiting : List CRec
  tries : Nat
  /-- MSI-X raised -/
  raised : Nat
  deriving DecidableEq, Repr

/-- A memory link (R12, R349). -/
structure MemLink where
  fitted : Bool
  fenced : Bool
  retries : Nat
  /-- times of failed retrainings -/
  failures : List Nat
  deriving DecidableEq, Repr

/-- A Balfin port (R392): live, numbers of flits held for replay, the flit that fails and its failed replays, the next flit's number. -/
structure Port where
  live : Bool
  fenced : Bool
  replay : List Nat
  bad : Option Nat
  failed : Nat
  next : Nat
  deriving DecidableEq, Repr

/-- A transfer not acknowledged (R393): its plane, none while no live plane has taken it. -/
structure Transfer where
  dst : Nat
  seq : Nat
  plane : Option Nat
  sent : Nat
  deriving DecidableEq, Repr

/-- An NVMe queue pair of a drive (R384, R390). -/
structure DriveQueue where
  id : Nat
  depth : Nat
  sq : Word
  cq : Word
  deriving DecidableEq, Repr

/-- A drive (R390): whether it answers, its queue pairs, and the writes its BAR has taken, newest first. -/
structure Drive where
  present : Bool
  pairs : List DriveQueue
  bar : List (Nat × Byte)
  deriving DecidableEq, Repr

/-- A page of code in the die commons (R314, R329): its die, address space, virtual page and bytes by page offset. -/
structure CodePage where
  die : Nat
  asid : BitVec 16
  page : Nat
  bytes : Memory
  deriving DecidableEq, Repr

/-- An atomic operation on memory (R157). -/
inductive AmoOp where
  | add | swp | cas | min | max | and | or | xor
  deriving DecidableEq, Repr

/-- The download registers (R408). -/
structure Download where
  addr : Word
  len : Word
  st : Nat
  reason : Nat
  link : Nat
  deriving DecidableEq, Repr

/-- A protected memory (R347, R348), and the word of it that an error strikes. -/
inductive ErrorUnit where
  | pool (core : Fin 1024) (word : Nat)
  | lanes (core : Fin 1024) (word : Nat)
  | slots (core : Fin 1024) (word : Nat)
  | ops (core : Fin 1024) (va : Nat)
  | commons (die : Fin 8) (page : Nat)
  | mem (unit : Nat)
  deriving DecidableEq, Repr

/-- Whose turn a step is (the model's own, log 1). -/
inductive Turn where
  /-- the next instruction of a loop context; `late` holds its long-latency values back -/
  | ctx (c : CtxId) (late : Bool)
  /-- a step of the hardware with its operands -/
  | event (i : Instr)
  /-- a line of a core's scalar data cache is evicted (R270) -/
  | evictLine (core : Fin 1024) (pa : Nat)
  /-- a core drops a translation it holds (R321) -/
  | dropTrans (core : Fin 1024) (va : Nat)
  /-- a die's commons drop a translation they hold (R321) -/
  | dropShared (die : Fin 8) (va : Nat)
  /-- a context's pending store is performed (R281), by its place in the list -/
  | storeLands (c : CtxId) (i : Nat)
  /-- a page leaves the die commons (R314) -/
  | dropCode (die : Fin 8) (page : Nat)
  /-- a decoded operation leaves a core's cache (R314) -/
  | dropOp (core : Fin 1024) (va : Nat)
  /-- an access finds an error: one that the code corrects, or a larger one (R347, R348) -/
  | error (u : ErrorUnit) (large : Bool)
  deriving DecidableEq, Repr

/-- The module. -/
structure State where
  ctxs : Table Ctx
  cores : Table Core
  clusters : Table Cluster
  tugs : Table Tug
  walks : Table Walk
  /-- walkers fenced (R350) -/
  walkerFenced : List Nat
  /-- main memory of the domain by domain physical address (R271, R317) -/
  mem : Memory
  /-- bytes of main memory of this module (R12) -/
  memSize : Nat
  /-- poisoned 64-byte units of main memory (R348) -/
  poison : List Nat
  /-- TIME (R45, R410) -/
  time : Nat
  modId : Fin 144
  members : List (Fin 144)
  /-- modules that no plane has reached (R349, R394) -/
  unreachable : List (Fin 144)
  /-- module-local addresses the Saddler reports (R317, R330) -/
  asidTable : Nat
  fwBase : Nat
  fwSize : Nat
  /-- domain physical address of the fault-domain table (R337) -/
  fdTable : Option Nat
  regions : List Region
  graphs : Table Graph
  nextGraph : Nat
  /-- order of enqueues (R302) -/
  nextEnq : Nat
  /-- displaced work, oldest first (R308) -/
  lent : List Lent
  /-- early-read values that a save image could not hold, by the number it has of them (R136; the model's own, log 15) -/
  spilled : List (List (Nat × Nat × Byte))
  /-- spawn counts of the dies (R315) -/
  spawns : Vector Nat 8
  queues : Vector HQueue 64
  /-- host memory over link 0 and link 1 (R382) -/
  host0 : Memory
  host1 : Memory
  memOff : Word
  /-- log2 of the MEM window (R381) -/
  memWin : Nat
  dl : Download
  /-- lowest firmware version the fuses accept (R409) -/
  fuse : Nat
  links : Table MemLink
  ports : Table Port
  transfers : List Transfer
  /-- sequence numbers applied, per source (R291) -/
  applied : List (Nat × Nat)
  /-- next sequence number per destination (R291) -/
  nextSeq : Table Nat
  drives : Table Drive
  /-- invalidation and context-control requests queued (R325, R340) -/
  invals : List Nat
  ctrls : List Nat
  /-- requests for service raised (R352) -/
  service : Nat
  /-- corrected errors logged: unit number and TIME (R347, R352) -/
  corrected : List (Nat × Nat)
  /-- sensors logged as drifting: cluster and TIME (R398) -/
  driftLog : List (Nat × Nat)
  /-- the I/O dies' planned draw in milliwatts (R396) -/
  ioDraw : Nat
  code : List CodePage
  /-- translations the commons of a die hold (R321) -/
  commons : Table (List Trans)
  /-- waiters for objects, oldest first (R249) -/
  acqs : List (CtxId × Nat)
  /-- waiters for LOCK words, oldest first (R115) -/
  locks : List (WalkId × Nat)
  /-- turns to come (the model's own, log 1) -/
  agenda : List Turn
  /-- loop context whose instruction runs (the model's own, log 1) -/
  cur : CtxId
  /-- whether long-latency values are held back (the model's own, log 1) -/
  late : Bool
  /-- steps taken, which free values are applied to (the model's own, log 1) -/
  tick : Nat
  deriving DecidableEq, Repr

/-! The values after power-up: what the manual gives, and for the rest what log 4 names. -/

def VReg.reset : VReg :=
  { full := true, dirty := false, pois := false, kind := .plain, tag := 0, dw := 0, cw := 0, esew := 0, k := 0, img := 0 }

def Desc.reset : Desc :=
  { base := 0, ctl := 0, count := Vector.replicate 4 0, stride := Vector.replicate 4 0 }

def QReg.reset : QReg :=
  { bound := false, desc := Desc.reset, pos := 0, held := none, prep := [], early := [], block := none }

def VCsr.reset : VCsr :=
  { vl := 0, vshape := 0, vtype := 0, vm := 8, vs := 0, vstart := 0, xmr := 0, erule := 0, vdirty := 0, vuse := 0, vlive := 0,
    cnt := 0, eff := 0, pend := false }

def FCsr.reset : FCsr :=
  { seed := 0, xsel := 0, rmo := 0, flags := 0, satcnt := 0, amax := Vector.replicate 16 0, mrows := 0 }

def TrapRegs.reset : TrapRegs :=
  { cause := 0, epc := 0, vepc := 0, tval := 0, tvec := 0, status := 0, scratch := 0 }

/-- A loop context that holds no node. -/
def Ctx.reset : Ctx :=
  { st := .free, waiting := false, laneHeld := false, pc := 0, s := Vector.replicate 32 0, full := BitVec.allOnes 32, land := [], stores := [], vland := [], readPages := [],
    v := Vector.replicate 32 VReg.reset, m := Vector.replicate 8 0, q := Vector.replicate 16 QReg.reset,
    tk := Vector.replicate 16 .none, pk := Vector.replicate 16 .none, ents := Vector.replicate 8 0,
    vc := VCsr.reset, fc := FCsr.reset, tr := TrapRegs.reset, tags := 0, lpenc := Vector.replicate 8 0, lease := none,
    slip := 0, asid := 0, rcb := 0, queue := [], rels := [], kept := [], rejoin := false, pendTraps := [], resumeAt := 0, binds := [], held := [], arrived := none,
    refaults := 0, lastFault := none, lost := [], deadTails := [], retDue := 0, retAt := 0, gather := [], node := none, fdom := 0, kept0 := [], vIn := 0, cmdSeq := 0 }

def Slot.reset : Slot :=
  { st := .free, owner := 0, rows := 0, ent := 0, dbl := false, sw32 := false, svalid := false, dtag := 0, stag := 0, data := 0, side := 0, mld := false }

def Ring.reset : Ring :=
  { init := false, owner := 0, hdr := 0, slotsz := 0, nslot := 0, widx := 0, ridx := 0, fill := 0, taken := 0, flt := 0, exps := [], lands := [] }

/-- A core at READY: the partition word of R40's reset column, everything else cleared (R410). -/
def Core.reset : Core :=
  { pool := [], lanes := [], part := 0x80078, slots := Vector.replicate 32 Slot.reset, rings := Vector.replicate 8 Ring.reset,
    arr := { issued := 0, done := 0, ops := [], pend := [] }, last := none, dcache := [], tlb := [], poison := [], lanePoison := [], slotPoison := [], ops := [], next := none, slabs := [], retained := 0, service := .inService }

def Cinch.reset : Cinch :=
  { limit := 0, floor := 3300, lmax := 3800, cap := 3800, gap := 0, wd := 0, recent := [], quiet := 0, milli := [], overs := 0,
    dynamic := 0, volts := 0, wearDate := 0, leakage := Vector.replicate 64 0, drift := 0, drifting := false }

def Cluster.reset : Cluster :=
  { bars := Vector.replicate 16 { phase := 0, n := 0, count := 0 }, cinch := Cinch.reset, spareUsed := false,
    service := .inService, tugService := .inService }

def Tug.reset : Tug :=
  { queue := [], reading := [], issued := 0, completed := [], timeline := 0, sats := 0, cause := 0, causeNum := 0, causeAddr := 0, tlb := [], region := none }

def Walk.reset : Walk :=
  { tree := none, closed := true, queue := [], issued := 0, timeline := 0, tlb := [] }

def HQueue.reset : HQueue :=
  { sqbase := 0, sqcfg := 0, sqtail := 0, sqhead := 0, cqbase := 0, cqcfg := 0, cqhead := 0, cqtail := 0, waiting := [], tries := 0, raised := 0 }

def MemLink.reset : MemLink := { fitted := true, fenced := false, retries := 0, failures := [] }

def Port.reset : Port := { live := true, fenced := false, replay := [], bad := none, failed := 0, next := 0 }

def Drive.reset : Drive := { present := false, pairs := [], bar := [] }

/-- The module right after power-up (R410): STATE 0, nothing resident, nothing queued. -/
def State.reset : State :=
  { ctxs := [], cores := [], clusters := [], tugs := [], walks := [], walkerFenced := [], mem := [], memSize := 96 * 2 ^ 38, poison := [],
    time := 0, modId := 0, members := [0], unreachable := [], asidTable := 0, fwBase := 0, fwSize := 0, fdTable := none,
    regions := [], graphs := [], nextGraph := 0, nextEnq := 0, lent := [], spilled := [], spawns := Vector.replicate 8 0, queues := Vector.replicate 64 HQueue.reset,
    host0 := [], host1 := [], memOff := 0, memWin := 36,
    dl := { addr := 0, len := 0, st := 0, reason := 0, link := 0 }, fuse := 0, links := [], ports := [], transfers := [], applied := [],
    nextSeq := [], drives := [], invals := [], ctrls := [], service := 0, corrected := [], driftLog := [], ioDraw := 0, code := [], commons := [], acqs := [], locks := [],
    agenda := [], cur := { core := 0, lc := 0 }, late := false, tick := 0 }

end Sys2Proof.Machine
end

