-- ==== Sys2Proof/Machine/Base.lean ====
section
/-! DEFINITION. Tables, byte memory, the accessors of State, and the computation type of the meanings: a state in, a value or an exception and a state out. -/

namespace Sys2Proof.Machine

/-! Tables by number. -/

/-- The entry of a number, or the default. -/
def tabGet {α : Type} (d : α) : Table α → Nat → α
  | [], _ => d
  | (k, v) :: t, n => if k = n then v else tabGet d t n

/-- Stores an entry, keeping the numbers in rising order. -/
def tabSet {α : Type} : Table α → Nat → α → Table α
  | [], n, v => [(n, v)]
  | (k, w) :: t, n, v => if k = n then (n, v) :: t else if n < k then (n, v) :: (k, w) :: t else (k, w) :: tabSet t n v

/-! Byte memory. An unlisted address reads 0 (log 3). -/

/-- The byte at an address. -/
def memGet : Memory → Nat → Byte
  | [], _ => 0
  | (k, b) :: m, a => if k = a then b else memGet m a

/-- Places a byte in address order. -/
def memIns : Memory → Nat → Byte → Memory
  | [], a, b => [(a, b)]
  | (k, c) :: m, a, b => if k = a then (a, b) :: m else if a < k then (a, b) :: (k, c) :: m else (k, c) :: memIns m a b

/-- Writes a byte: a zero is what an unlisted address reads as, so it removes the entry. -/
def memSet (m : Memory) (a : Nat) (b : Byte) : Memory :=
  if b = 0 then m.filter (fun c => c.1 != a) else memIns m a b

/-- Canonical form: addresses strictly rise and no entry is zero. -/
def memWf : Memory → Bool
  | [] => true
  | [(_, b)] => b != 0
  | (a, b) :: (a', b') :: m => b != 0 && a < a' && memWf ((a', b') :: m)

/-- `n` bytes from an address as a number, little-endian (R1). -/
def memRead (m : Memory) (a : Nat) : Nat → Nat
  | 0 => 0
  | n + 1 => (memGet m a).toNat + 256 * memRead m (a + 1) n

/-- Writes the low `n` bytes of a number, little-endian. -/
def memWrite (m : Memory) (a : Nat) : Nat → Nat → Memory
  | 0, _ => m
  | n + 1, v => memWrite (memSet m a (BitVec.ofNat 8 v)) (a + 1) n (v / 256)

/-- The bytes at an address. -/
def memBytes (m : Memory) (a n : Nat) : List Byte := (List.range n).map fun i => memGet m (a + i)

/-- Writes bytes in rising address. -/
def memPut (m : Memory) (a : Nat) : List Byte → Memory
  | [] => m
  | b :: bs => memPut (memSet m a b) (a + 1) bs

/-- The bytes listed in a range, moved to begin at `b`. -/
def memSlice (m : Memory) (a n b : Nat) : Memory :=
  (m.filter fun c => a ≤ c.1 && c.1 < a + n).map fun c => (c.1 - a + b, c.2)

/-- Clears a range. -/
def memClear (m : Memory) (a n : Nat) : Memory := m.filter fun c => c.1 < a || a + n ≤ c.1

/-- Writes every listed byte of one memory into another. -/
def memOver (m : Memory) (p : Memory) : Memory := p.foldl (fun m c => memSet m c.1 c.2) m

/-- Replaces a range by bytes `p` that lie in it, in rising address and none of them zero. -/
def memReplace (m : Memory) (a n : Nat) (p : Memory) : Memory :=
  m.filter (fun c => c.1 < a) ++ p ++ m.filter (fun c => a + n ≤ c.1)

/-! Bits of numbers and words. -/

/-- Bits `lo` to `lo + n - 1` of a number. -/
def nbits (v lo n : Nat) : Nat := v / 2 ^ lo % 2 ^ n

/-- Bit `i` of a number. -/
def nbit (v i : Nat) : Bool := v / 2 ^ i % 2 == 1

/-- Bits `lo` to `lo + n - 1` of a word, as a number. -/
def wbits {w : Nat} (v : BitVec w) (lo n : Nat) : Nat := nbits v.toNat lo n

/-- The word with bits `lo` to `lo + n - 1` replaced. -/
def setBits (v : Word) (lo n x : Nat) : Word :=
  BitVec.ofNat 64 (v.toNat - wbits v lo n * 2 ^ lo + x % 2 ^ n * 2 ^ lo)

/-- A number rounded up to a multiple. -/
def roundUp (n m : Nat) : Nat := (n + m - 1) / m * m

/-- Pad64 (R106). -/
def pad64 (n : Nat) : Nat := roundUp n 64

/-- Two's complement reading of the low `n` bits. -/
def sextNat (n v : Nat) : Int :=
  if 2 ^ (n - 1) ≤ v % 2 ^ n then (v % 2 ^ n : Int) - 2 ^ n else (v % 2 ^ n : Int)

/-- An integer modulo 2^n. -/
def intMod (n : Nat) (i : Int) : Nat := (i % (2 ^ n : Int)).toNat

/-! State accessors. -/

/-- Number of a loop context in the table: core × 4 + lc. -/
def CtxId.key (c : CtxId) : Nat := c.core.val * 8 + c.lc.val

def State.ctx (s : State) (c : CtxId) : Ctx := tabGet Ctx.reset s.ctxs (CtxId.key c)

def State.setCtx (s : State) (c : CtxId) (x : Ctx) : State := { s with ctxs := tabSet s.ctxs (CtxId.key c) x }

def State.modCtx (s : State) (c : CtxId) (f : Ctx → Ctx) : State := s.setCtx c (f (s.ctx c))

def State.core (s : State) (i : Nat) : Core := tabGet Core.reset s.cores i

def State.setCore (s : State) (i : Nat) (x : Core) : State := { s with cores := tabSet s.cores i x }

def State.modCore (s : State) (i : Nat) (f : Core → Core) : State := s.setCore i (f (s.core i))

def State.cluster (s : State) (i : Nat) : Cluster := tabGet Cluster.reset s.clusters i

def State.setCluster (s : State) (i : Nat) (x : Cluster) : State := { s with clusters := tabSet s.clusters i x }

def State.modCluster (s : State) (i : Nat) (f : Cluster → Cluster) : State := s.setCluster i (f (s.cluster i))

/-- Number of a Tug command context: its timeline instance (R15). -/
def TugId.key (t : TugId) : Nat := t.cluster.val * 16 + t.t.val

def State.tug (s : State) (t : TugId) : Tug := tabGet Tug.reset s.tugs (TugId.key t)

def State.setTug (s : State) (t : TugId) (x : Tug) : State := { s with tugs := tabSet s.tugs (TugId.key t) x }

def State.modTug (s : State) (t : TugId) (f : Tug → Tug) : State := s.setTug t (f (s.tug t))

/-- Number of a walk context: its timeline instance (R15). -/
def WalkId.key (w : WalkId) : Nat := w.walker.val * 8 + w.k.val

def State.walk (s : State) (w : WalkId) : Walk := tabGet Walk.reset s.walks (WalkId.key w)

def State.setWalk (s : State) (w : WalkId) (x : Walk) : State := { s with walks := tabSet s.walks (WalkId.key w) x }

def State.modWalk (s : State) (w : WalkId) (f : Walk → Walk) : State := s.setWalk w (f (s.walk w))

/-- The context whose instruction runs. -/
def State.me (s : State) : Ctx := s.ctx s.cur

def State.modMe (s : State) (f : Ctx → Ctx) : State := s.modCtx s.cur f

/-- The core whose instruction runs. -/
def State.myCore (s : State) : Core := s.core s.cur.core.val

def State.modMyCore (s : State) (f : Core → Core) : State := s.modCore s.cur.core.val f

/-- The loop contexts of a core. -/
def coreCtxs (core : Fin 1024) : List CtxId := [⟨core, 0⟩, ⟨core, 1⟩, ⟨core, 2⟩, ⟨core, 3⟩]

/-- A loop context is resident while it holds a node (R41). -/
def Ctx.resident (c : Ctx) : Bool := c.st != .free

/-- The cluster of a core and its cluster core index (R13). -/
def clusterOf (core : Nat) : Nat := core / 8

def clusterCore (core : Nat) : Nat := core % 8

/-- The die of a core (R13). -/
def dieOf (core : Nat) : Nat := core / 128

/-- Current privilege: 0 N, 1 S, 2 F (R334). -/
def Ctx.priv (c : Ctx) : BitVec 2 := c.tr.status.extractLsb' 0 2

/-- STATUS.PPRIV. -/
def Ctx.ppriv (c : Ctx) : BitVec 2 := c.tr.status.extractLsb' 2 2

/-- STATUS.INH. -/
def Ctx.inh (c : Ctx) : Bool := c.tr.status.getLsbD 4

/-! The computation type of the meanings. -/

/-- How an instruction ends other than normally. -/
inductive Exc where
  /-- a cause, with its TVAL where the manual names one -/
  | cause (c : Cause) (tval : Option Word)
  /-- a Stop with a physical address for AUX (R347, R348) -/
  | stopAt (c : Cause) (pa : Nat)
  /-- the instruction waits and executes again (R252) -/
  | wait
  /-- a divisible instruction stops at an element for a pre-emption point (R341) -/
  | split
  deriving DecidableEq, Repr

abbrev M := EStateM Exc State

/-- Raises a cause with a TVAL. -/
def trapV {α : Type} (c : Cause) (v : Word) : M α := throw (.cause c (some v))

/-- Raises a cause with a number for TVAL. -/
def trapN {α : Type} (c : Cause) (n : Nat) : M α := throw (.cause c (some (BitVec.ofNat 64 n)))

/-- Raises a cause whose TVAL the manual does not name. -/
def trapU {α : Type} (c : Cause) : M α := throw (.cause c none)

/-- Waits. -/
def waitM {α : Type} : M α := throw .wait

/-- The instruction waits unless the condition holds. -/
def waitUnless (b : Bool) : M Unit := if b then pure () else waitM

/-- Raises a cause unless the condition holds. -/
def need (b : Bool) (c : Cause) (v : Word) : M Unit := if b then pure () else trapV c v

def needN (b : Bool) (c : Cause) (n : Nat) : M Unit := if b then pure () else trapN c n

def needU (b : Bool) (c : Cause) : M Unit := if b then pure () else trapU c

/-- The running context. -/
def getMe : M Ctx := do return (← get).me

/-- Changes the running context. -/
def modMe (f : Ctx → Ctx) : M Unit := modify fun s => s.modMe f

def getCore : M Core := do return (← get).myCore

def modCore (f : Core → Core) : M Unit := modify fun s => s.modMyCore f

/-- Runs a computation and hands on its end as a value; its state stays. -/
def attempt {α : Type} (x : M α) : M (Except Exc α) := fun s =>
  match x s with
  | .ok a t => .ok (.ok a) t
  | .error e t => .ok (.error e) t

/-- Runs a computation for every element of a list, in order. -/
def forM' {α : Type} : List α → (α → M Unit) → M Unit
  | [], _ => pure ()
  | a :: as, f => do f a; forM' as f

/-- Maps a computation over a list, in order. -/
def mapM' {α β : Type} : List α → (α → M β) → M (List β)
  | [], _ => pure []
  | a :: as, f => do
    let b ← f a
    let bs ← mapM' as f
    return b :: bs

/-- Folds a computation over a list, in order. -/
def foldM' {α β : Type} (f : β → α → M β) : β → List α → M β
  | b, [] => pure b
  | b, a :: as => do
    let b' ← f b a
    foldM' f b' as

end Sys2Proof.Machine
end

