-- ==== Sys2Proof/Machine/Mem.lean ====
section
/-! DEFINITION. Physical memory, translation through page tables and block tables (R316 to R324, R330), the pool windows (R43, R53 to R55), encoded windows (R266, R267) and the scalar data cache (R269, R270). -/

namespace Sys2Proof.Machine

/-! Physical addresses (R271, R319, R325, R340, R390, R394). -/

/-- What a domain physical address reaches. -/
inductive PaKind where
  | memory
  | inval
  | control
  | drive (d off : Nat)
  /-- a byte of a core's pool (R20) -/
  | pool (core off : Nat)
  | lost
  | absent
  deriving DecidableEq, Repr

/-- The home module of a domain physical address (R319). -/
def paHome (pa : Nat) : Nat := pa / 2 ^ 52 % 256

/-- The module-local part. -/
def paLocal (pa : Nat) : Nat := pa % 2 ^ 52

/-- The domain physical address of a module-local one. -/
def State.local (s : State) (a : Nat) : Nat := s.modId.val * 2 ^ 52 + a

/-- Most main memory a module holds: 96 links of 256 GiB (R12, R17). -/
def maxMem : Nat := 96 * 2 ^ 38

def invalPort : Nat := 0x000FFFFFFFFF0000

def controlPort : Nat := 0x000FFFFFFFFE0000

def aperture : Nat := 0x000E000000000000

/-- Whether a module-local page lies behind a memory link fenced after READY (R271, R349). -/
def linkGone (s : State) (l : Nat) : Bool :=
  let k := tabGet MemLink.reset s.links (Config.linkOf (l / 4096) % 96)
  k.fitted && k.fenced

def poolSize : Nat := 0x800000

/-- The pool byte at a module-local physical address (R20). A pool stays addressable there whatever the service of its core and cluster (DESIGN CHOICE, log 27). -/
def poolAt (l : Nat) : PaKind :=
  match (List.range 1024).find? fun c => Config.poolBase c ≤ l && l < Config.poolBase c + poolSize with
  | some c => .pool c (l - Config.poolBase c)
  | none => .absent

/-- What a domain physical address reaches. What lies behind no fitted and unfenced memory link is absent: not mapped (R12). Another module's memory and pools are bytes held by their domain addresses (R20). -/
def physKind (s : State) (pa : Nat) : PaKind :=
  let l := paLocal pa
  if paHome pa = s.modId.val then
    if l < s.memSize then (if linkGone s l then .absent else .memory)
    else if invalPort ≤ l && l < invalPort + 4096 then .inval
    else if controlPort ≤ l && l < controlPort + 4096 then .control
    else if aperture ≤ l && l < aperture + 2 ^ 42 then
      let d := (l - aperture) / 2 ^ 40 * 32 + (l - aperture) % 2 ^ 40 / 2 ^ 35
      if (l - aperture) % 2 ^ 40 / 2 ^ 35 < 32 && (tabGet Drive.reset s.drives d).present then .drive d (l % 2 ^ 35) else .absent
    else poolAt l
  else if s.members.any (fun m => m.val == paHome pa) && !s.unreachable.any (fun m => m.val == paHome pa) then
    if l < maxMem || poolAt l != .absent then .memory else .absent
  else .lost

/-- Bytes a drive's BAR returns (R390): free values. -/
def barRead (tick d off : Nat) : Nat → Nat
  | 0 => 0
  | n + 1 => (Config.barByte tick d off).toNat + 256 * barRead tick d (off + 1) n

/-- The poison a write leaves: a 64-byte unit it covers whole is no longer poisoned (R348). -/
def unpoison (p : List Nat) (pa n : Nat) : List Nat :=
  p.filter fun u => !(pa ≤ u * 64 && u * 64 + 64 ≤ pa + n)

/-- Numbers a list holds as bytes. -/
def numBytes : Nat → Nat → List Byte
  | 0, _ => []
  | n + 1, v => BitVec.ofNat 8 v :: numBytes n (v / 256)

/-- The plane a transfer takes: the first that is live (R393). -/
def livePlane (s : State) : Option Nat := (List.range 36).find? fun p => (tabGet Port.reset s.ports p).live

/-- A flit leaves a port; the last 512 are kept for replay (R392). -/
def putFlit (s : State) (p : Nat) : State :=
  let k := tabGet Port.reset s.ports p
  { s with ports := tabSet s.ports p { k with replay := (k.replay ++ [k.next]).drop (k.replay.length - 511), next := k.next + 1 } }

/-- An access of a byte homed on another module is a transfer, numbered per destination and unacknowledged until FABRIC_ACKNOWLEDGEMENT (R291, R393). -/
def noteTransfer (s : State) (pa : Nat) (plane : Option Nat) : State :=
  let n := tabGet 0 s.nextSeq (paHome pa)
  { s with
    nextSeq := tabSet s.nextSeq (paHome pa) (n + 1)
    transfers := s.transfers ++ [{ dst := paHome pa, seq := n, plane, sent := s.time }] }

/-- A transfer on a live plane. -/
def sendOn (s : State) (pa p : Nat) : State := putFlit (noteTransfer s pa (some p)) p

/-- The transfer of a write that does not wait: a line written back, a store performed. With no live plane no flit leaves, and the transfer stays unacknowledged until FABRIC_RESEND finds a plane (log 43). -/
def sendTo (s : State) (pa : Nat) : State :=
  if paHome pa = s.modId.val || physKind s pa == .lost then s
  else match livePlane s with
    | some p => sendOn s pa p
    | none => noteTransfer s pa none

/-- The transfer of an access to another module. It fails at once where the domain has no such member, or has lost it (R349, R394), or nothing lies there; else it waits for a live plane (R393). -/
def transfer (pa : Nat) : M Unit := do
  let s ← get
  if paHome pa = s.modId.val then pure ()
  else match physKind s pa with
    | .lost => trapU .moduleLost
    | .absent => trapN .trNotmapped pa
    | .memory | .inval | .control | .drive _ _ | .pool _ _ =>
      match livePlane s with
      | some p => set (sendOn s pa p)
      | none => waitM

/-- The physical address of a pool byte (R338); the manual gives pools no place (log 27). -/
def poolPa (s : State) (core off : Nat) : Nat := s.local (Config.poolBase core + off)

/-- Whether an access touches a poisoned pool word (R347). -/
def poolPoisoned (c : Core) (off n : Nat) : Bool := c.poison.any fun u => u * 8 < off + n && off < u * 8 + 8

/-- Reads a pool. A poisoned word stops the context (R347). -/
def poolRead (c off n : Nat) : M Nat := do
  let s ← get
  if poolPoisoned (s.core c) off n then throw (.stopAt .sramUe (poolPa s c off)) else return memRead (s.core c).pool off n

/-- Writes a pool. A write that covers a poisoned word whole heals it (R347). -/
def poolWrite (c off n v : Nat) : M Unit := do
  let s ← get
  let rest := (s.core c).poison.filter fun u => !(off ≤ u * 8 && u * 8 + 8 ≤ off + n)
  if poolPoisoned { s.core c with poison := rest } off n then throw (.stopAt .sramUe (poolPa s c off))
  else set (s.modCore c fun k => { k with pool := memWrite k.pool off n v, poison := rest })

/-- Reads `n` bytes at a domain physical address, without the transfer. An address that is not mapped raises TR_NOTMAPPED; where a translation led to it, the translation has done so with the virtual address (log 27). -/
def physGet (pa n : Nat) : M Nat := do
  let s ← get
  match physKind s pa with
  | .memory => return memRead s.mem pa n
  | .inval => return 0
  | .control => return 0
  | .drive d off => return barRead s.tick d off n
  | .pool c off => poolRead c off n
  | .lost => trapU .moduleLost
  | .absent => trapN .trNotmapped pa

/-- Writes the low `n` bytes of a number at a domain physical address, without the transfer. -/
def physPut (pa n v : Nat) : M Unit := do
  let s ← get
  match physKind s pa with
  | .memory => set { s with mem := memWrite s.mem pa n v, poison := unpoison s.poison pa n }
  | .inval => if n = 8 && pa % 4096 = 0 then set { s with invals := s.invals ++ [v] }
  | .control => if n = 8 && pa % 4096 = 0 then set { s with ctrls := s.ctrls ++ [v] }
  | .drive d off =>
    let dr := tabGet Drive.reset s.drives d
    let w := (numBytes n v).zipIdx.map fun b => (off + b.2, b.1)
    set { s with drives := tabSet s.drives d { dr with bar := w.reverse ++ dr.bar } }
  | .pool c off => poolWrite c off n v
  | .lost => trapU .moduleLost
  | .absent => trapN .trNotmapped pa

/-- Reads `n` bytes at a domain physical address. -/
def physRead (pa n : Nat) : M Nat := do
  transfer pa
  physGet pa n

/-- Writes the low `n` bytes of a number at a domain physical address. -/
def physWrite (pa n v : Nat) : M Unit := do
  transfer pa
  physPut pa n v

/-- Reads table memory on behalf of an access to `va`: TR_NOTMAPPED where the table is not mapped (R12, R316). -/
def tableRead (va pa n : Nat) : M Nat := do
  let s ← get
  needN (physKind s pa != .absent) .trNotmapped va
  physRead pa n

/-- Whether any byte of a physical range is poisoned (R348). -/
def poisoned (s : State) (pa n : Nat) : Bool := s.poison.any fun u => u * 64 < pa + n && pa < u * 64 + 64

/-! Translation (R317 to R320). -/

/-- Where translations are held (R321). -/
inductive Holder where
  /-- no one: the Saddler and the die schedulers hold none -/
  | nobody
  | core (i : Nat)
  | tug (t : TugId)
  | walk (w : WalkId)
  deriving DecidableEq, Repr

/-- On whose behalf an access is made: address space, privilege (R330), and the holder of its translations. -/
structure Who where
  asid : BitVec 16
  priv : BitVec 2
  holder : Holder
  deriving DecidableEq, Repr

/-- The translations a holder may use: a core those of its own buffers, then those of its die's commons (R321). -/
def holdTlb (s : State) : Holder → List Trans
  | .nobody => []
  | .core i => (s.core i).tlb ++ tabGet [] s.commons (dieOf i)
  | .tug t => (s.tug t).tlb
  | .walk w => (s.walk w).tlb

/-- Changes every list of translations that a holder uses. -/
def mapTlb (s : State) (h : Holder) (f : List Trans → List Trans) : State :=
  match h with
  | .nobody => s
  | .core i => { s.modCore i fun c => { c with tlb := f c.tlb } with commons := tabSet s.commons (dieOf i) (f (tabGet [] s.commons (dieOf i))) }
  | .tug t => s.modTug t fun c => { c with tlb := f c.tlb }
  | .walk w => s.modWalk w fun c => { c with tlb := f c.tlb }

/-- A translation as a holder keeps it: a Tug command context per 4 KiB chunk (R321). -/
def keepAs (h : Holder) (va : Nat) (t : Trans) : Trans :=
  match h with
  | .tug _ => { t with chunk := some (va / 4096) }
  | .nobody | .core _ | .walk _ => t

inductive Acc where
  | read | write | fetch
  deriving DecidableEq, Repr

/-- An entry of the ASID table (R317). -/
structure AsidEntry where
  root : Nat
  codeBase : Nat
  codePages : Nat
  cflags : Nat
  hashBase : Nat
  deriving DecidableEq, Repr

/-- Whether an ASID entry is valid and keeps its layout (R317). -/
def asidOk (e : AsidEntry) : Bool :=
  nbit e.root 63 && nbits e.root 60 3 == 0 && nbits e.root 0 20 == 0 && e.codeBase % 4096 == 0 && e.codeBase < 2 ^ 56 &&
    e.codePages ≤ 2 ^ 24 && e.cflags < 2 && e.hashBase % 32 == 0

/-- Reads an ASID's entry; ASID_INVALID when it is not valid (R317). -/
def asidEntry (asid : BitVec 16) (va : Nat) : M AsidEntry := do
  let s ← get
  let a := s.local (s.asidTable + 32 * asid.toNat)
  needN (physKind s a != .absent) .asidInvalid va
  let root ← physRead a 8
  let codeBase ← physRead (a + 8) 8
  let codePages ← physRead (a + 16) 4
  let cflags ← physRead (a + 20) 4
  let hashBase ← physRead (a + 24) 8
  let e : AsidEntry := { root, codeBase, codePages, cflags, hashBase }
  needN (asidOk e) .asidInvalid va
  return e

/-- ADDR of an entry (R319). -/
def pteAddr (e : Nat) : Nat := nbits e 12 48 * 4096

def pteType (e : Nat) : Nat := nbits e 60 3

/-- log2 of what a leaf of a level maps (R318). -/
def levelLog2 (lvl : Nat) : Nat := 12 + 9 * lvl

/-- What makes a valid entry of a level illegal (R318, R319). -/
def pteIllegal (lvl e : Nat) : Bool :=
  let t := pteType e
  let x := nbit e 11
  let w := nbit e 10
  let r := nbit e 9
  let cont := nbit e 4
  t ≥ 4 || nbits e 0 4 != 0 || (t == 0 && (lvl == 0 || nbits e 4 8 != 0)) || (t != 0 && lvl == 3) ||
    (t != 0 && (pteAddr e % 2 ^ levelLog2 lvl != 0 || (w && !r) || (x && t != 1) ||
      (t == 3 && ((lvl != 1 && lvl != 2) || cont)) || (cont && lvl == 2)))

/-- Index of an address at a level (R318). -/
def vaIndex (lvl va : Nat) : Nat := if lvl = 3 then nbits va 39 17 else nbits va (levelLog2 lvl) 9

/-- A leaf found: its level, where it lies, the entry. -/
structure Leaf where
  lvl : Nat
  pa : Nat
  e : Nat
  deriving DecidableEq, Repr

/-- Walks from the table of a level down (R318, R320). -/
def walkFrom (va : Nat) : Nat → Nat → M Leaf
  | 0, table => do
    let a := table + 8 * vaIndex 0 va
    let e ← tableRead va a 8
    needN (nbit e 63) .trNotmapped va
    needN (!pteIllegal 0 e) .pteIllegal va
    return { lvl := 0, pa := a, e }
  | lvl + 1, table => do
    let a := table + 8 * vaIndex (lvl + 1) va
    let e ← tableRead va a 8
    needN (nbit e 63) .trNotmapped va
    needN (!pteIllegal (lvl + 1) e) .pteIllegal va
    if pteType e = 0 then walkFrom va lvl (pteAddr e)
    else return { lvl := lvl + 1, pa := a, e }

/-- The entry a contiguous group's translation uses: any of the 16 (R318). -/
def contEntry (va : Nat) (l : Leaf) : M Leaf := do
  if nbit l.e 4 then
    let s ← get
    let j := Config.contPick s.tick % 16
    let a := l.pa - 8 * (vaIndex l.lvl va % 16) + 8 * j
    let e ← tableRead va a 8
    needN (nbit e 63) .trNotmapped va
    needN (!pteIllegal l.lvl e) .pteIllegal va
    return { l with pa := a, e }
  else return l

/-- A translation from a leaf. -/
def transOf (asid : BitVec 16) (va : Nat) (l : Leaf) : Trans :=
  let n := levelLog2 l.lvl + (if nbit l.e 4 then 4 else 0)
  { asid, glob := nbit l.e 7, va := va / 2 ^ n * 2 ^ n, log2 := n, leaf := BitVec.ofNat 64 l.e, leafPa := l.pa, chunk := none }

/-- The physical address a leaf gives: the offset kept within the page or group. -/
def transPa (t : Trans) (va : Nat) : Nat := pteAddr t.leaf.toNat / 2 ^ t.log2 * 2 ^ t.log2 + va % 2 ^ t.log2

/-- Whether a held translation serves an address. -/
def transHit (w : Who) (va : Nat) (t : Trans) : Bool :=
  (t.glob || t.asid == w.asid) && t.va ≤ va && va < t.va + 2 ^ t.log2 &&
    match t.chunk with
    | none => true
    | some c => va / 4096 == c

/-- Firmware space (R330). -/
def fwSpace (s : State) (pa : Nat) : Bool := paHome pa == s.modId.val && s.fwBase ≤ paLocal pa && paLocal pa < s.fwBase + s.fwSize

/-- The invalidation or context-control page of a module (R325, R340). -/
def portPage (pa : Nat) : Bool :=
  (invalPort ≤ paLocal pa && paLocal pa < invalPort + 4096) || (controlPort ≤ paLocal pa && paLocal pa < controlPort + 4096)

/-- The cause an access of a physical address raises whatever the leaf allows: TR_PRIV on firmware space and the ports (R316, R330), TR_NOTMAPPED on what is not mapped (R12, R271). -/
def reachCause (s : State) (w : Who) (pa : Nat) : Option Cause :=
  if (fwSpace s pa && w.priv != 2) || (portPage pa && (w.priv == 0 || paHome pa != s.modId.val)) then some .trPriv
  else if physKind s pa == .absent then some .trNotmapped
  else none

/-- The cause a leaf gives an access, if any: privilege (R330), then what it reaches, then permission (R316). What lies behind a block-table page is findBlock's. -/
def leafCause (s : State) (w : Who) (va : Nat) (acc : Acc) (t : Trans) : Option Cause :=
  let e := t.leaf.toNat
  if (nbit e 8 && w.priv == 0) || (fwSpace s (pteAddr e) && w.priv != 2) then some .trPriv
  else
    match if pteType e = 3 then none else reachCause s w (transPa t va) with
    | some c => some c
    | none =>
      match acc with
      | .read => if nbit e 9 then none else some .trPerm
      | .write => if nbit e 10 then none else some .trPerm
      | .fetch =>
        match physKind s (transPa t va) with
        | .drive _ _ => some .trPerm
        | .memory | .inval | .control | .pool _ _ | .lost | .absent => if nbit e 11 then none else some .trPerm

/-- Walks the tables of an address space (R317, R318). -/
def walkVa (w : Who) (va : Nat) : M Trans := do
  let a ← asidEntry w.asid va
  let l ← walkFrom va 3 (pteAddr a.root)
  let l ← contEntry va l
  return transOf w.asid va l

/-- Sets A, and D on a write, in the leaf, by an AMOOR (R320). -/
def markLeaf (h : Holder) (acc : Acc) (t : Trans) : M Unit := do
  let bits := if acc = .write then 0x60 else 0x40
  if t.leaf.toNat &&& bits = bits then pure ()
  else
    transfer t.leafPa
    let e ← physGet t.leafPa 8
    physPut t.leafPa 8 (e ||| bits)
    modify fun s => mapTlb s h fun l => l.map fun u => if u == t then { t with leaf := t.leaf ||| BitVec.ofNat 64 bits } else u

/-- Finds the leaf for an access: a held translation that allows it, else a walk (R320, R321). -/
def findLeaf (w : Who) (va : Nat) (acc : Acc) : M Trans := do
  let s ← get
  match (holdTlb s w.holder).find? fun t => transHit w va t && (leafCause s w va acc t).isNone with
  | some t => return t
  | none =>
    modify fun s => mapTlb s w.holder fun l => l.filter fun t => !transHit w va t
    let t ← walkVa w va
    let s ← get
    match leafCause s w va acc t with
    | some c => trapN c va
    | none =>
      let t := keepAs w.holder va t
      modify fun s => mapTlb s w.holder fun l => t :: l
      return t

/-! Block tables (R323, R324). -/

/-- A block pool's header (R323). -/
structure BlockPool where
  pa : Nat
  base : Nat
  nblk : Nat
  freeCnt : Nat
  freeHead : Nat
  counts : Nat
  deriving DecidableEq, Repr

def readPool (va pa : Nat) : M BlockPool := do
  let base ← tableRead va pa 8
  let nblk ← tableRead va (pa + 8) 4
  let freeCnt ← tableRead va (pa + 12) 4
  let freeHead ← tableRead va (pa + 16) 4
  let counts ← tableRead va (pa + 24) 8
  return { pa, base, nblk, freeCnt, freeHead, counts }

/-- A 64-byte unit of memory is poisoned (R348). -/
def addPoison (l : List Nat) (w : Nat) : List Nat := if l.contains w then l else l ++ [w]

/-- The bytes at a physical address lose their check: 64 bytes of memory (R348), 8 words of a pool (R347). -/
def spoil (s : State) (pa : Nat) : State :=
  match physKind s pa with
  | .memory => { s with poison := addPoison s.poison (pa / 64) }
  | .pool c off => s.modCore c fun k => { k with poison := (List.range 8).foldl (fun l i => addPoison l (off / 8 + i)) k.poison }
  | .inval | .control | .drive _ _ | .lost | .absent => s

/-- Copies 64 bytes, poisoned ones as poisoned ones (DESIGN CHOICE, log 27). -/
def copyUnit (src dst : Nat) : M Unit := do
  let bad := poisoned (← get) src 64
  let v ← physRead src 64
  physWrite dst 64 v
  if bad then modify fun s => spoil s dst else pure ()

/-- Copies a page, 64 bytes at a time, a transfer each where a module other than this holds them (R393). -/
def copyPage (src dst : Nat) : M Unit := do
  let s ← get
  if [src, src + 4095, dst, dst + 4095].all fun a => physKind s a == .memory then
    forM' (List.range 64) fun i => do
      transfer (src + 64 * i)
      transfer (dst + 64 * i)
    modify fun s =>
      let bad := (s.poison.filter fun u => src ≤ u * 64 && u * 64 < src + 4096).map fun u => u + dst / 64 - src / 64
      { s with mem := memReplace s.mem dst 4096 (memSlice s.mem src 4096 dst), poison := unpoison s.poison dst 4096 ++ bad }
  else forM' (List.range 64) fun i => copyUnit (src + 64 * i) (dst + 64 * i)

/-- What an access of a block-table page uses (R324): the table and entry, the pool, the block the entry names, its count word, and, when a write copies it, the count word of the first free block. -/
structure BlockUse where
  table : Nat
  i : Nat
  pool : BlockPool
  old : Nat
  count : Nat
  next : Option Nat
  deriving DecidableEq, Repr

/-- An access reaches a physical address: TR_PRIV, TR_NOTMAPPED with the virtual address, MODULE_LOST, or a wait for a live plane (R316, R330, R349, R393). -/
def reach (w : Who) (va pa : Nat) : M Unit := do
  let s ← get
  match reachCause s w pa with
  | some c => trapN c va
  | none =>
    needU (physKind s pa != .lost) .moduleLost
    waitUnless (paHome pa == s.modId.val || (livePlane s).isSome)

/-- Whether an append or a refit is under way, which holds its translations until it completes (R321, R325). -/
def Walk.busy (w : Walk) : Bool :=
  match w.queue with
  | o :: _ => o.started && (match o.kind with | .append _ | .refit => true | .bind _ | .query .. | .drain | .signal => false)
  | [] => false

/-- Whether accesses through a block-table entry are under way: stores of the address space not yet performed in its block, or an append or a refit of another holder that keeps a translation of the 64 KiB at `va` (R324, R325). -/
def entryUsed (s : State) (asid : BitVec 16) (h : Holder) (va blk : Nat) : Bool :=
  (s.ctxs.any fun e => e.2.asid == asid && e.2.stores.any fun p =>
    match p.loc with
    | .mem pa _ => blk ≤ pa && pa < blk + 65536
    | .pool _ _ | .peer _ _ => false) ||
  s.walks.any fun e => e.2.busy && (match h with | .walk k => WalkId.key k != e.1 | .nobody | .core _ | .tug _ => true) &&
    e.2.tlb.any fun t => (t.glob || t.asid == asid) && t.va < va / 65536 * 65536 + 65536 && va / 65536 * 65536 < t.va + 2 ^ t.log2

/-- The table, the entry and the pool of an access of a block-table page, with the block the entry names (R324). -/
def blockEntry (t : Trans) (va : Nat) : M (Nat × Nat × BlockPool × Nat) := do
  let table := pteAddr t.leaf.toNat
  let i := va % 2 ^ t.log2 / 65536
  let ent ← tableRead va (table + 64 + 4 * i) 4
  needN (nbit ent 31) .trNotmapped va
  let pa ← tableRead va table 8
  let pool ← readPool va pa
  return (table, i, pool, nbits ent 0 24)

/-- The domain physical address the tables give an address, that of the block for a block-table page. -/
def pageAddr (w : Who) (va : Nat) : M Nat := do
  let t ← walkVa w va
  if pteType t.leaf.toNat = 3 then
    let (_, _, pool, old) ← blockEntry t va
    return pool.base + old * 65536 + va % 65536
  else return transPa t va

/-- Whether accesses through an entry of a table are under way, whatever address space reaches it: stores not yet performed in its block, or an append or a refit that keeps a translation of the table's pages (R324, R325). -/
def tableUsed (s : State) (table blk : Nat) : Bool :=
  (s.ctxs.any fun e => e.2.stores.any fun p =>
    match p.loc with
    | .mem pa _ => blk ≤ pa && pa < blk + 65536
    | .pool _ _ | .peer _ _ => false) ||
  s.walks.any fun e => e.2.busy && e.2.tlb.any fun t => pteType t.leaf.toNat == 3 && pteAddr t.leaf.toNat == table

/-- Finds what an access of a block-table page uses, and raises what it must before anything changes: of a write that copies the block, for every page of both blocks. A copy waits for what is under way through the entry (R325). -/
def findBlock (w : Who) (t : Trans) (va : Nat) (acc : Acc) : M BlockUse := do
  let (table, i, pool, old) ← blockEntry t va
  let blk := pool.base + old * 65536
  reach w va (blk + va % 65536)
  if acc = .write then
    let count ← tableRead va (pool.counts + 8 * old) 8
    if 1 < nbits count 0 32 then
      needN (pool.freeHead != 0xFFFFFFFF) .btExhausted va
      let fw ← tableRead va (pool.counts + 8 * pool.freeHead) 8
      forM' (List.range 16) fun k => do
        reach w va (blk + 4096 * k)
        reach w va (pool.base + pool.freeHead * 65536 + 4096 * k)
      let s ← get
      waitUnless (!entryUsed s w.asid w.holder va blk)
      return { table, i, pool, old, count, next := some fw }
    else return { table, i, pool, old, count, next := none }
  else return { table, i, pool, old, count := 0, next := none }

/-- The copy of CopyOnWrite (R324), into the first free block. -/
def copyBlock (b : BlockUse) : M Unit := do
  if b.next.isSome then
    forM' (List.range 16) fun k => copyPage (b.pool.base + b.old * 65536 + 4096 * k) (b.pool.base + b.pool.freeHead * 65536 + 4096 * k)
  else pure ()

/-- CopyOnWrite (R324) where the access needs it, the block copied; the block the access reaches. -/
def useBlock (b : BlockUse) : M Nat := do
  match b.next with
  | some fw =>
    let p := b.pool
    let new := p.freeHead
    physWrite (p.pa + 16) 4 (nbits fw 32 32)
    physWrite (p.pa + 12) 4 (p.freeCnt - 1)
    physWrite (p.counts + 8 * new) 8 1
    physWrite (p.counts + 8 * b.old) 8 (b.count - 1)
    physWrite (b.table + 64 + 4 * b.i) 4 (2 ^ 31 + new)
    return new
  | none => return b.old

/-- A translated address and its page type. -/
structure Phys where
  pa : Nat
  typ : Nat
  deriving DecidableEq, Repr

/-- Translates an address for an access (R316 to R324): every check is made before A, D or a block changes. `enc` allows encoded pages. -/
def translate (w : Who) (va : Nat) (acc : Acc) (enc : Bool) : M Phys := do
  let t ← findLeaf w va acc
  let typ := pteType t.leaf.toNat
  needN (enc || typ != 2) .encPage va
  if typ = 3 then
    let b ← findBlock w t va acc
    copyBlock b
    markLeaf w.holder acc t
    let k ← useBlock b
    return { pa := b.pool.base + k * 65536 + va % 65536, typ }
  else
    markLeaf w.holder acc t
    return { pa := transPa t va, typ }

/-! The pool windows (R43, R53 to R55). -/

def ownBase : Nat := 0x00F0000000000000

def peerBase : Nat := 0x00F1000000000000

/-- Slices of the three uses (R40). -/
def partScr (p : Word) : Nat := wbits p 0 8

def partAcc (p : Word) : Nat := wbits p 8 8

def partRbk (p : Word) : Nat := wbits p 16 8

/-- What a pool offset is used for under a partition word (R40). -/
inductive PoolUse where
  | scratch | acc | backing | unassigned
  deriving DecidableEq, Repr

def poolUse (p : Word) (off : Nat) : PoolUse :=
  let k := off / 65536
  if k < partScr p then .scratch
  else if k < partScr p + partAcc p then .acc
  else if k < partScr p + partAcc p + partRbk p then .backing
  else .unassigned

/-- Pool offset of a loop context's area (R41). -/
def areaBase (p : Word) (lc : Nat) : Nat := (partScr p + partAcc p + 2 * lc) * 65536

/-- Whether a pool offset lies in the area of a resident context (R43). -/
def inResidentArea (s : State) (core : Fin 1024) (off : Nat) : Bool :=
  (coreCtxs core).any fun c =>
    (s.ctx c).resident && areaBase (s.core core.val).part c.lc.val ≤ off && off < areaBase (s.core core.val).part c.lc.val + 131072

/-- Who reaches a pool, for R43. -/
inductive PoolWay where
  | node | supervisor | peer
  deriving DecidableEq, Repr

/-- R43 on one pool byte. Its table names no cause for a supervisor's Tug command in a resident context's area: LP_PART, as for a load or store (DESIGN CHOICE, log 27). -/
def poolCause (s : State) (core : Fin 1024) (way : PoolWay) (off : Nat) : Option Cause :=
  match poolUse (s.core core.val).part off with
  | .unassigned => some .lpRange
  | .scratch => none
  | .acc => if way = .supervisor then none else some .lpPart
  | .backing => if way = .supervisor && !inResidentArea s core off then none else some .lpPart

/-- R43 on the first and the last byte of an access. -/
def poolCheck (s : State) (core : Fin 1024) (way : PoolWay) (off n : Nat) : Option Cause :=
  match poolCause s core way off with
  | some c => some c
  | none => poolCause s core way (off + n - 1)

/-- Start and end of an encoded window, in pool offsets (R266). -/
def windowSpan (w : Word) : Nat × Nat := (64 * wbits w 0 18, 64 * min (wbits w 32 18) 0x20000)

/-- Whether an access touches an encoded window of a resident context (R267). -/
def inWindow (s : State) (core : Fin 1024) (off n : Nat) : Bool :=
  (coreCtxs core).any fun c =>
    (s.ctx c).resident && (s.ctx c).lpenc.toList.any fun w =>
      nbit w.toNat 63 && (windowSpan w).1 < off + n && off < (windowSpan w).2

/-- The pool window an address lies in and what R43, R54 and R267 say; none for main memory. `enc` allows encoded bytes. Where R43 and the encoded windows both refuse, R43's cause is raised (DESIGN CHOICE, log 27). -/
def windowLoc (s : State) (core : Fin 1024) (priv : BitVec 2) (va n : Nat) (acc : Acc) (enc : Bool) : Option (Except Cause Loc) :=
  if va < ownBase then none
  else if acc = .fetch then some (.error .trPerm)
  else if va < ownBase + poolSize then
    let off := va - ownBase
    match poolCheck s core (if priv = 0 then .node else .supervisor) off n with
    | some c => some (.error c)
    | none => if !enc && inWindow s core off n then some (.error .encWindow) else some (.ok (.pool core.val off))
  else if va < peerBase then some (.error .lpRange)
  else if va < peerBase + 8 * poolSize then
    if acc = .write then some (.error .peerWrite)
    else
      let off := (va - peerBase) % poolSize
      let p := Fin.ofNat 1024 (clusterOf core.val * 8 + (va - peerBase) / poolSize)
      match poolCheck s p .peer off n with
      | some c => some (.error c)
      | none => if !enc && inWindow s p off n then some (.error .encWindow) else some (.ok (.peer p.val off))
  else some (.error .lpRange)

/-- The place an access of a core reaches: R53, alignment when `align` is not 0, the windows, the page, and whether its home module can be reached (R144, R145, R191, R322, R349). R43's partition check and R267's window check are of the window paths: a pool byte reached by a page that maps its domain physical address undergoes neither (DESIGN CHOICE, log 27). -/
def coreLoc (core : Fin 1024) (w : Who) (va n align : Nat) (acc : Acc) (enc : Bool) : M Loc := do
  needN (va < 2 ^ 56) .vaNoncanon va
  needN (align = 0 || va % align == 0) .misaligned va
  let s ← get
  match windowLoc s core w.priv va n acc enc with
  | some (.error c) => trapN c va
  | some (.ok l) => return l
  | none =>
    let p ← translate w va acc enc
    let s ← get
    needU (physKind s p.pa != .lost) .moduleLost
    return .mem p.pa p.typ

/-- Reads at a place. -/
def locRead (l : Loc) (n : Nat) : M Nat :=
  match l with
  | .pool c off | .peer c off => poolRead c off n
  | .mem pa _ => physRead pa n

/-- Writes at a place. -/
def locWrite (l : Loc) (n v : Nat) : M Unit :=
  match l with
  | .pool c off | .peer c off => poolWrite c off n v
  | .mem pa _ => physWrite pa n v

/-! The scalar data cache in bound regions (R269, R270). -/

/-- Base and size of a bound region (R248). -/
def bindSpan (b : Word) : Nat × Nat :=
  let n := wbits b 0 6
  (b.toNat / 2 ^ n * 2 ^ n, 2 ^ n)

/-- Whether a resident context of the core has bound the address. -/
def isBound (s : State) (core : Fin 1024) (va : Nat) : Bool :=
  (coreCtxs core).any fun c =>
    (s.ctx c).resident && (s.ctx c).binds.any fun b => (bindSpan b.span).1 ≤ va && va < (bindSpan b.span).1 + (bindSpan b.span).2

/-- Writes a line's dirty bytes back; to another module that is a transfer (R393). -/
def flushLine (s : State) (l : DLine) : State :=
  if l.dirty = 0 then s
  else
    sendTo { s with
      mem := (List.range 64).foldl (fun m i => if l.dirty.getLsbD i then memSet m (l.pa + i) (memGet l.bytes i) else m) s.mem
      poison := if l.dirty = BitVec.allOnes 64 then unpoison s.poison l.pa 64 else s.poison } l.pa

/-- Writes back, and drops when `drop`, the lines of a core that `p` selects. -/
def flushLines (s : State) (core : Nat) (p : DLine → Bool) (drop : Bool) : State :=
  let ls := (s.core core).dcache
  let s' := (ls.filter p).foldl flushLine s
  s'.modCore core fun c =>
    { c with dcache := if drop then ls.filter (fun l => !p l) else ls.map fun l => if p l then { l with dirty := 0 } else l }

/-- Lines of a scalar data cache: 64 KiB (R269). -/
def dcacheMax : Nat := 1024

/-- Makes room for a line: a full cache evicts one, any one (R269, R270; log 2). -/
def evictFor (s : State) (core : Nat) : State :=
  let ls := (s.core core).dcache
  if ls.length < dcacheMax then s
  else
    match ls[Config.evicted s.tick % dcacheMax]? with
    | some l => flushLines s core (fun k => k.pa == l.pa) true
    | none => s

/-- The line of a core's cache that holds a physical address. -/
def findLine (s : State) (core pa : Nat) : Option DLine := (s.core core).dcache.find? fun l => l.pa == pa / 64 * 64

/-- Fills a line. -/
def fillLine (core va pa : Nat) : M DLine := do
  modify fun s => evictFor s core
  let s ← get
  let l : DLine := { va := va / 64 * 64, pa := pa / 64 * 64, bytes := memSlice s.mem (pa / 64 * 64) 64 0, dirty := 0 }
  set (s.modCore core fun c => { c with dcache := l :: c.dcache })
  return l

/-- The line that holds a physical address, filled when absent. -/
def lineOf (core va pa : Nat) : M DLine := do
  let s ← get
  match findLine s core pa with
  | some l => return l
  | none =>
    transfer pa
    fillLine core va pa

/-- Whether a context holds an object to which it binds the address (R290). -/
def holdsFor (c : Ctx) (va : Nat) : Bool :=
  c.binds.any fun b => c.held.contains b.obj && (bindSpan b.span).1 ≤ va && va < (bindSpan b.span).1 + (bindSpan b.span).2

/-- A line whose bytes the core has not written are those of memory. -/
def freshLine (s : State) (l : DLine) : DLine :=
  { l with bytes := (List.range 64).foldl (fun m i => if l.dirty.getLsbD i then m else memSet m i (memGet s.mem (l.pa + i))) l.bytes }

/-- Puts a line back in a core's cache. -/
def putLine (s : State) (core : Nat) (l : DLine) : State := s.modCore core fun c => { c with dcache := c.dcache.map fun x => if x.pa == l.pa then l else x }

/-- Writes back and drops the line a core's cache holds of a place. -/
def dropLine (s : State) (core : Nat) (l : Loc) : State :=
  match l with
  | .mem pa _ => if (findLine s core pa).isSome then flushLines s core (fun d => d.pa == pa / 64 * 64) true else s
  | .pool _ _ | .peer _ _ => s

/-- A strong access bypasses the cache; the core's own dirty bytes of the line reach memory first. -/
def strongPrep (core : Nat) (l : Loc) : M Unit := modify fun s => dropLine s core l

/-- A plain load through the scalar data cache (R269): stale at most where the context holds no object that binds the address (R290). At an unbound address the line is coherent (R270): one that a bound address of the same byte left is written back first. -/
def cachedRead (core : Fin 1024) (va : Nat) (l : Loc) (n : Nat) : M Nat := do
  let s ← get
  match l with
  | .mem pa t =>
    if isBound s core va && physKind s pa == .memory then
      let d ← lineOf core.val va pa
      if holdsFor s.me va then
        let d := freshLine (← get) d
        modify fun s => putLine s core.val d
        return memRead d.bytes (pa % 64) n
      else return memRead d.bytes (pa % 64) n
    else
      strongPrep core.val l
      locRead (.mem pa t) n
  | .pool _ _ | .peer _ _ => locRead l n

/-- A plain store through the scalar data cache (R269); at an unbound address, as cachedRead. -/
def cachedWrite (core : Fin 1024) (va : Nat) (l : Loc) (n v : Nat) : M Unit := do
  let s ← get
  match l with
  | .mem pa t =>
    if isBound s core va && physKind s pa == .memory then
      let d ← lineOf core.val va pa
      let mask := BitVec.ofNat 64 ((2 ^ n - 1) * 2 ^ (pa % 64))
      modify fun s => putLine s core.val { d with bytes := memWrite d.bytes (pa % 64) n v, dirty := d.dirty ||| mask }
    else
      strongPrep core.val l
      locWrite (.mem pa t) n v
  | .pool _ _ | .peer _ _ => locWrite l n v

/-- Reads at a place for a check alone, without the transfer. -/
def locGet (l : Loc) (n : Nat) : M Nat :=
  match l with
  | .pool c off | .peer c off => poolRead c off n
  | .mem pa _ => physGet pa n

/-- Whether a place is homed on this module. -/
def homeHere (s : State) (l : Loc) : Bool :=
  match l with
  | .mem pa _ => paHome pa == s.modId.val
  | .pool _ _ | .peer _ _ => true

/-- The write of an atomic, whose transfer its read has made (R393). -/
def locPut (l : Loc) (n v : Nat) : M Unit :=
  match l with
  | .pool c off | .peer c off => poolWrite c off n v
  | .mem pa _ => physPut pa n v

/-- The read of an atomic of core scope on bound memory, which the cache serves (R159, R269): the line's bytes that the core has not written are those of memory. -/
def cachedAmoRead (core va pa n : Nat) : M Nat := do
  transfer pa
  let s ← get
  let d ← match findLine s core pa with
    | some d => pure d
    | none => fillLine core va pa
  let d := freshLine (← get) d
  modify fun s => putLine s core d
  return memRead d.bytes (pa % 64) n

/-- The write of such an atomic: the line takes it, and memory with it, since R290 holds back plain stores alone (DEDUCED, log 2). -/
def cachedAmoWrite (core va pa n v : Nat) : M Unit := do
  let s ← get
  let d ← match findLine s core pa with
    | some d => pure d
    | none => fillLine core va pa
  let mask := BitVec.ofNat 64 ((2 ^ n - 1) * 2 ^ (pa % 64))
  modify fun s => putLine s core { d with bytes := memWrite d.bytes (pa % 64) n v, dirty := d.dirty &&& ~~~mask }
  physPut pa n v

/-- A write that a release orders is not sent to another module while an earlier access awaits its acknowledgement (R291). -/
def awaitAcks (l : Loc) : M Unit := do
  let s ← get
  waitUnless (homeHere s l || s.transfers.isEmpty)

/-- The running context as the party that accesses memory. -/
def meWho : M Who := do
  let s ← get
  return { asid := s.me.asid, priv := s.me.priv, holder := .core s.cur.core.val }

end Sys2Proof.Machine
end

