-- ==== Sys2Proof/Machine/Graphs.lean ====
section
/-! DEFINITION. Regions (R294 to R296), graphs and nodes (R275, R297 to R303), completion records (R387, R388), reports (R337 to R339), and the end of a node, a graph and a fault domain (R332, R343, R423). -/

namespace Sys2Proof.Machine

/-- Bytes `off` to `off + n - 1` of a block whose byte 0 lies in its low bits. -/
def blkField {w : Nat} (b : BitVec w) (off n : Nat) : Nat := nbits b.toNat (8 * off) (8 * n)

/-- An entry that may be absent. -/
def tabFind {α : Type} : Table α → Nat → Option α
  | [], _ => none
  | (k, v) :: t, n => if k = n then some v else tabFind t n

def tabDel {α : Type} (t : Table α) (n : Nat) : Table α := t.filter fun e => e.1 != n

/-! Regions. -/

def State.region (s : State) (rcb : Word) : Option Region := s.regions.find? fun r => r.va == rcb

/-- Effective value of a field: the nearest block up the tree that overrides it (R296). -/
def effField (s : State) (bit off n : Nat) : Nat → Word → Nat
  | 0, _ => 0
  | d + 1, rcb =>
    match s.region rcb with
    | none => 0
    | some r =>
      if nbit (blkField r.block 0x0C 2) bit then blkField r.block off n
      else effField s bit off n d (BitVec.ofNat 64 (blkField r.block 0 8))

def effClmask (s : State) (rcb : Word) : Nat := effField s 0 0x18 16 8 rcb

def effPoolsl (s : State) (rcb : Word) : Nat := effField s 1 0x30 1 8 rcb

def effRsvctx (s : State) (rcb : Word) : Nat := effField s 2 0x28 2 8 rcb

def effRsvtug (s : State) (rcb : Word) : Nat := effField s 3 0x2A 2 8 rcb

def effTugctx (s : State) (rcb : Word) : Nat := effField s 3 0x2C 2 8 rcb

def effMlbw (s : State) (rcb : Word) : Nat := effField s 4 0x31 1 8 rcb

def effRsvawl (s : State) (rcb : Word) : Nat := effField s 5 0x2F 1 8 rcb

def effAwlctx (s : State) (rcb : Word) : Nat := effField s 5 0x2E 1 8 rcb

def effPrio (s : State) (rcb : Word) : Nat := effField s 6 0x09 1 8 rcb

def effDlpol (s : State) (rcb : Word) : Nat := effField s 7 0x0A 1 8 rcb

def effFdom (s : State) (rcb : Word) : Nat := effField s 8 0x10 4 8 rcb

/-- The region and its ancestors, nearest first. -/
def ancestors (s : State) : Nat → Word → List Region
  | 0, _ => []
  | d + 1, rcb =>
    match s.region rcb with
    | none => []
    | some r => r :: ancestors s d (BitVec.ofNat 64 (blkField r.block 0 8))

/-! Completion records (R387, R388). -/

def State.queue (s : State) (q : Fin 64) : HQueue := s.queues[q]

def State.modQueue (s : State) (q : Fin 64) (f : HQueue → HQueue) : State := { s with queues := s.queues.set q (f s.queues[q]) }

/-- Forms a record; COMPLETION_RECORD_WRITE writes it. -/
def pushRecord (s : State) (cq : Fin 64) (r : CRec) : State := s.modQueue cq fun q => { q with waiting := q.waiting ++ [r] }

/-! Writes the module makes on its own at a domain physical address. -/

/-- Writes a pool; a poisoned word it covers whole heals (R347). -/
def poolPut (s : State) (c off n v : Nat) : State :=
  s.modCore c fun k => { k with pool := memWrite k.pool off n v, poison := k.poison.filter fun u => !(off ≤ u * 8 && u * 8 + 8 ≤ off + n) }

/-- Writes memory that is there, another module's by a transfer (R393); nothing happens elsewhere. -/
def ownWrite (s : State) (pa n v : Nat) : State :=
  match physKind s pa with
  | .memory => sendTo { s with mem := memWrite s.mem pa n v, poison := unpoison s.poison pa n } pa
  | .pool c off => poolPut s c off n v
  | .inval | .control | .drive _ _ | .lost | .absent => s

def ownRead (s : State) (pa n : Nat) : Nat :=
  match physKind s pa with
  | .memory => memRead s.mem pa n
  | .pool c off => memRead (s.core c).pool off n
  | .inval | .control | .drive _ _ | .lost | .absent => 0

/-! Scalar stores not yet performed (R281). -/

/-- Performs a pending store of a core. -/
def landStore (core : Nat) (s : State) (p : PStore) : State :=
  match p.loc with
  | .pool c off | .peer c off => poolPut s c off p.bytes p.value
  | .mem pa _ => ownWrite (dropLine s core p.loc) pa p.bytes p.value

/-- Performs the oldest `k` pending stores of a context, in order. -/
def landStores (s : State) (c : CtxId) (k : Nat) : State :=
  (((s.ctx c).stores.take k).foldl (landStore c.core.val) s).modCtx c fun x => { x with stores := x.stores.drop k }

/-- Performs every pending store of a context. -/
def performStores (s : State) (c : CtxId) : State :=
  if (s.ctx c).stores.isEmpty then s else landStores s c (s.ctx c).stores.length

/-! Reports (R337 to R339). -/

/-- DISP of a report (R338). -/
inductive Disp where
  | report | stop | kill | endDomain
  deriving DecidableEq, Repr

def Disp.code : Disp → Nat
  | .report => 0 | .stop => 1 | .kill => 2 | .endDomain => 3

/-- What a report record holds (R338). -/
structure Report where
  code : Nat
  disp : Disp
  origin : Nat
  who : Word
  place : Word
  tval : Word
  gtag : Word
  aux : Word
  deriving DecidableEq, Repr

/-- The notice a report sends to a completion queue (R339). The manual gives the notice no layout: its fields are free (log 7). -/
def notice (s : State) (cq : Nat) : State :=
  pushRecord s (Fin.ofNat 64 cq)
    { status := Config.free s.tick % 256, sq := Config.free (s.tick + 1) % 256, check := Config.free (s.tick + 2),
      tag := BitVec.ofNat 64 (Config.free (s.tick + 3)), time := s.time, seq := BitVec.ofNat 32 (Config.free (s.tick + 4)) }

/-- Writes a report in a fault domain's ring, or counts it lost (R339). -/
def report (s : State) (fdom : Nat) (r : Report) : State :=
  match s.fdTable with
  | none => s
  | some tab =>
    let e := tab + 64 * (fdom % 4096)
    let ring := ownRead s e 8
    let nslot := ownRead s (e + 8) 4
    let widx := ownRead s (e + 0x0C) 4
    let ridx := ownRead s (e + 0x10) 4
    let cq := ownRead s (e + 0x14) 1
    let s1 :=
      if (widx + 2 ^ 32 - ridx) % 2 ^ 32 < nslot then
        let a := ring + 64 * (widx % nslot)
        let s := ownWrite s a 2 r.code
        let s := ownWrite s (a + 2) 1 r.disp.code
        let s := ownWrite s (a + 3) 1 r.origin
        let s := ownWrite s (a + 4) 4 0
        let s := ownWrite s (a + 8) 8 s.time
        let s := ownWrite s (a + 0x10) 8 r.who.toNat
        let s := ownWrite s (a + 0x18) 8 r.place.toNat
        let s := ownWrite s (a + 0x20) 8 r.tval.toNat
        let s := ownWrite s (a + 0x28) 8 r.gtag.toNat
        let s := ownWrite s (a + 0x30) 8 r.aux.toNat
        let s := ownWrite s (a + 0x38) 8 0
        ownWrite s (e + 0x0C) 4 (widx + 1)
      else ownWrite s (e + 0x28) 8 (ownRead s (e + 0x28) 8 + 1)
    if nbit cq 7 then notice s1 (cq % 64) else s1

/-! Graphs. -/

def State.modGraph (s : State) (g : Nat) (f : Graph → Graph) : State :=
  match tabFind s.graphs g with
  | some x => { s with graphs := tabSet s.graphs g (f x) }
  | none => s

def State.modNode (s : State) (r : NodeRef) (f : GNode → GNode) : State :=
  s.modGraph r.graph fun g => { g with nodes := g.nodes.modify r.node f }

def State.gnode (s : State) (r : NodeRef) : Option GNode :=
  match tabFind s.graphs r.graph with
  | some g => g.nodes[r.node]?
  | none => none

def Graph.gtag (g : Graph) : Word := if g.spawned then 0 else BitVec.ofNat 64 (blkField g.header 0x28 8)

/-- GTAG of a node's graph (R338). -/
def gtagOf (s : State) (r : Option NodeRef) : Word :=
  match r with
  | some r => match tabFind s.graphs r.graph with
    | some g => g.gtag
    | none => 0
  | none => 0

/-- A deadline graph (R297). -/
def Graph.dl (g : Graph) : Bool := nbit (blkField g.header 0x15 1) 0

def Graph.excl (g : Graph) : Bool := nbit (blkField g.header 0x15 1) 1

def Graph.deadline (g : Graph) : Nat := blkField g.header 0x18 8

/-- The units of memory-link share a graph holds: the effective MLBW (R307). -/
def graphMlbw (s : State) (g : Graph) : Nat := if g.reserved.isEmpty then 0 else effMlbw s g.rcb

/-- HELD of a region: what admitted graphs of it and of its descendants hold (R295): contexts, Tug contexts, walk contexts, MLBW. -/
def heldOf (s : State) (rcb : Word) : Nat × Nat × Nat × Nat :=
  s.graphs.foldl (fun h e =>
    if (ancestors s 8 e.2.rcb).any (fun r => r.va == rcb) then
      let cnt (p : RUnit → Bool) := (e.2.reserved.filter p).length
      (h.1 + cnt (fun u => match u with | .ctx _ => true | .tug _ | .walk _ => false),
       h.2.1 + cnt (fun u => match u with | .tug _ => true | .ctx _ | .walk _ => false),
       h.2.2.1 + cnt (fun u => match u with | .walk _ => true | .ctx _ | .tug _ => false),
       h.2.2.2 + graphMlbw s e.2)
    else h) (0, 0, 0, 0)

/-- Runs a computation of the Saddler, which keeps going when an access of it fails. -/
def quietly (x : M Unit) (s : State) : State :=
  match x s with
  | .ok _ t => t
  | .error _ t => t

/-- Writes HELD of a region into its block (R295), through the region's tables. -/
def writeHeld (s : State) (r : Region) : State :=
  let h := heldOf s r.va
  let w : Who := { asid := r.asid, priv := 2, holder := .nobody }
  let put (i v : Nat) : M Unit := do
    let p ← translate w (r.va.toNat + 0x40 + 8 * i) .write true
    physWrite p.pa 8 v
  quietly (do put 0 h.1; put 1 h.2.1; put 2 h.2.2.1; put 3 h.2.2.2) s

/-- Writes HELD of a region and of every ancestor. -/
def writeHelds (s : State) (rcb : Word) : State := (ancestors s 8 rcb).foldl writeHeld s

/-- Ends a graph with a final record (R301); a spawned node's graph writes none (R315). -/
def endGraph (s : State) (g status check : Nat) : State :=
  match tabFind s.graphs g with
  | none => s
  | some x =>
    let s1 := if x.spawned then s else
      pushRecord s x.cq { status, sq := x.sq.val, check, tag := x.gtag, time := s.time, seq := x.seq }
    let had := !x.reserved.isEmpty
    let s2 := { s1 with graphs := tabDel s1.graphs g }
    let s3 := if x.spawned then
      { s2 with regions := s2.regions.map fun r => if r.va == x.rcb then { r with spawned := r.spawned - 1 } else r } else s2
    if had then writeHelds s3 x.rcb else s3

def NodeState.live : NodeState → Bool
  | .running => true
  | .waiting | .ready | .retired | .failed => false

/-- The final record, once nothing of the graph runs and its state asks for it (R301, R311, R332). -/
def settleGraph (s : State) (g : Nat) : State :=
  match tabFind s.graphs g with
  | none => s
  | some x =>
    if x.nodes.any (fun n => n.st.live) then s
    else
      match x.st with
      | .failing => endGraph s g 5 0
      | .cancelling => endGraph s g 4 0
      | .active => if x.nodes.all (fun n => n.st == .retired) then endGraph s g 0 0 else s
      | .admitting | .ended => s

/-! Scores and ready pools (R302, R303). -/

/-- Inserts an interval by its start. -/
def insertSpan (i : Nat × Nat) : List (Nat × Nat) → List (Nat × Nat)
  | [] => [i]
  | j :: l => if i.1 ≤ j.1 then i :: j :: l else j :: insertSpan i l

/-- Length of the union of intervals given by start and length, counted once per byte within a span. -/
def coverCount (span : Nat × Nat) (l : List (Nat × Nat)) : Nat :=
  let cut := l.filterMap fun i =>
    let lo := max i.1 span.1
    let hi := min (i.1 + i.2) (span.1 + span.2)
    if lo < hi then some (lo, hi) else none
  let sorted := cut.foldr insertSpan []
  (sorted.foldl (fun (acc : Nat × Nat) i =>
    let lo := max acc.2 i.1
    if lo < i.2 then (acc.1 + (i.2 - lo), i.2) else acc) (0, 0)).1

/-- Width of the hard-wired entries 0 to 7 (R61); an entry written at run time counts 8 bits (R303). -/
def opndWidth (ent : Nat) : Nat :=
  match ent with
  | 0 => 32 | 1 => 16 | 2 => 16 | 3 => 8 | 4 => 8 | 5 => 4 | 6 => 8 | 7 => 4
  | _ => 8

/-- Operands of a node of an access, as intervals of pool offsets (R298, R303): 1 read, 2 write. -/
def nodeOperands (d : BitVec 1024) (bit : Nat) : List (Nat × Nat) :=
  (List.range 8).filterMap fun i =>
    let meta' := blkField d 0x38 8
    let acc := nbits meta' (32 + 2 * i) 2
    let op := blkField d (0x40 + 8 * i) 8
    let va := nbits op 0 56
    if nbit acc bit && ownBase ≤ va && va < ownBase + poolSize then
      some (va - ownBase, 2 ^ (nbits op 60 4 + nbits op 56 4) * opndWidth (nbits meta' (4 * i) 4) / 8)
    else none

/-- Score of a core for a V node (R303). -/
def coreScore (n : GNode) (core : Nat) : Nat :=
  let wrote := n.placed.filterMap fun p => if p.1 = core then some (p.2.1, p.2.2) else none
  ((nodeOperands n.desc 0).map fun o => coverCount o wrote).foldl (· + ·) 0

/-- The core that scores highest above zero, the lowest index on a tie. -/
def bestCore (n : GNode) : Option Nat :=
  let cores := if blkField n.desc 0 1 = 0 then (n.placed.map fun p => p.1).eraseDups else []
  cores.foldl (fun b c =>
    let sc := coreScore n c
    match b with
    | none => if 0 < sc then some c else none
    | some o => if coreScore n o < sc || (coreScore n o = sc && c < o) then some c else some o) none

/-- Whether a die meets a cluster mask (R295). -/
def dieMeets (mask die : Nat) : Bool := nbits mask (16 * die) 16 != 0

/-- The next die meeting CLMASK after a die, in rising order (R302). -/
def nextDie (mask last : Nat) : Nat :=
  match ((List.range 8).map fun i => (last + 1 + i) % 8).find? (dieMeets mask) with
  | some d => d
  | none => last % 8

/-- NODE_ENQUEUE (R302): a node whose count is zero enters a die's ready pool. -/
def enqueueNode (s : State) (r : NodeRef) : State :=
  match tabFind s.graphs r.graph, s.gnode r with
  | some g, some n =>
    let region := s.region g.rcb
    let die := match bestCore n with
      | some c => dieOf c
      | none => nextDie (effClmask s g.rcb) (match region with | some x => x.lastDie | none => 7)
    let s1 := s.modNode r fun n => { n with st := .ready, die, since := s.time, enqSeq := s.nextEnq, prio := effPrio s g.rcb, hold := false }
    { s1 with nextEnq := s.nextEnq + 1, regions := s1.regions.map fun x => if x.va == g.rcb then { x with lastDie := die } else x }
  | _, _ => s

/-- What a retiring node wrote into pools, for its successors' scores (R303): a V node its declared write operands, a C node what its commands landed. -/
def nodeWrote (n : GNode) : List (Nat × Nat × Nat) :=
  match n.ran with
  | some (.ctx c) => (nodeOperands n.desc 1).map fun o => (c.core.val, o.1, o.2)
  | some (.tug _) | some (.walk _) | none => n.placed

/-- NODE_RETIRE (R275): the node retires, its successors' counts fall, and a count of zero enqueues. -/
def retireNode (s : State) (r : NodeRef) : State :=
  match tabFind s.graphs r.graph, s.gnode r with
  | some g, some n =>
    let wrote := nodeWrote n
    let s1 := s.modNode r fun n => { n with st := .retired }
    let s2 := n.succs.foldl (fun s i => s.modNode ⟨r.graph, i⟩ fun m => { m with preds := m.preds - 1, placed := if blkField m.desc 0 1 = 0 then m.placed ++ wrote else m.placed }) s1
    let s3 := if g.st == .active then
      n.succs.eraseDups.foldl (fun s i =>
        match s.gnode ⟨r.graph, i⟩ with
        | some m => if m.preds = 0 && m.st == .waiting then enqueueNode s ⟨r.graph, i⟩ else s
        | none => s) s2
      else s2
    settleGraph s3 r.graph
  | _, _ => s

/-- A W node that ends by a fault leaves its walk context unbound, free for later nodes (R299, R312). -/
def freeNodeWalk (s : State) (r : NodeRef) : State :=
  match (s.gnode r).bind (·.ran) with
  | some (.walk w) => s.modWalk w fun x => { x with tree := none, closed := true }
  | some (.ctx _) | some (.tug _) | none => s

/-- The node of a Kill ends, and its graph ends FAULTED once its other running nodes have retired (R332). -/
def failNode (s : State) (r : NodeRef) : State :=
  settleGraph (((freeNodeWalk s r).modNode r fun n => { n with st := .failed }).modGraph r.graph fun g => { g with st := .failing }) r.graph

/-! Timelines (R247, R274). -/

/-- The highest number up to which every operation has completed. -/
def runTimeline : Nat → Nat → List Nat → Nat
  | 0, t, _ => t
  | n + 1, t, l => if l.contains (t + 1) then runTimeline n (t + 1) l else t

def settleTimeline (x : Tug) : Tug :=
  let t := runTimeline x.completed.length x.timeline x.completed
  { x with timeline := t, completed := x.completed.filter fun n => t < n }

/-! D-rings in the pool (R242). -/

/-- Pool offset of a ring's slot 0 (R242). -/
def Ring.base (r : Ring) : Nat := r.hdr + 64 + pad64 (8 * r.nslot)

/-- Writes a ring's header and side array into the pool (R242). -/
def ringImage (r : Ring) (pool : Memory) (hdr : Nat) : Memory :=
  let m := memWrite pool hdr 8 r.base
  let m := memWrite m (hdr + 8) 4 r.slotsz
  let m := memWrite m (hdr + 0x0C) 1 r.nslot
  let m := memWrite m (hdr + 0x0D) 1 r.widx
  let m := memWrite m (hdr + 0x0E) 1 r.ridx
  let m := memWrite m (hdr + 0x0F) 1 0
  let m := memWrite m (hdr + 0x10) 8 r.fill.toNat
  let m := memWrite m (hdr + 0x18) 8 r.taken.toNat
  let m := memWrite m (hdr + 0x20) 8 r.flt.toNat
  let m := memWrite m (hdr + 0x28) 24 0
  (List.range r.nslot).foldl (fun m i => memWrite (memWrite m (hdr + 0x40 + 8 * i) 4 (r.exps.getD i 0)) (hdr + 0x44 + 8 * i) 4 (r.lands.getD i 0)) m

/-- Changes a ring, and its header and side array with it. -/
def State.modRing (s : State) (core : Nat) (d : Fin 8) (f : Ring → Ring) : State :=
  s.modCore core fun c =>
    let r := f c.rings[d]
    { c with rings := c.rings.set d r, pool := if r.init then ringImage r c.pool r.hdr else c.pool }

/-- EXP of an orphaned slot (R343). -/
def orphanExp : Nat := 0xFFFFFFFF

/-- Leaves a slot orphaned (R343). -/
def orphanSlot (r : Ring) (i : Nat) : Ring :=
  { r with taken := r.taken ||| BitVec.ofNat 64 (2 ^ i), fill := r.fill &&& ~~~ (BitVec.ofNat 64 (2 ^ i)), exps := r.exps.set i orphanExp, lands := r.lands.set i 0 }

/-! Quiescing (R343, R423). -/

/-- DKIND and DR of a command block (R232). -/
def cmdDkind (b : BitVec 1024) : Nat := nbits b.toNat 34 2

def cmdDr (b : BitVec 1024) : Nat := nbits b.toNat 36 3

/-- DST of a command block (R231). -/
def cmdDst (b : BitVec 1024) : Nat := blkField b 0x10 8

/-- Stops the commands of a Tug context that `p` selects at a beat, with no completion step; their numbers count as completed for the timeline only (R423). -/
def quiesceTug (s : State) (t : TugId) (p : TugCmd → Bool) : State :=
  let x := s.tug t
  let gone := x.queue.filter p
  let s1 := gone.foldl (fun s c =>
    match c.issuer with
    | none => s
    | some i =>
      let s := match c.slot with
        | some k => s.modRing i.core.val (Fin.ofNat 8 (cmdDr c.block)) fun r => orphanSlot r k
        | none => s
      let s := s.modCore i.core.val fun k => { k with arr := { k.arr with pend := k.arr.pend.filter fun e => e != (TugId.key t, c.num) } }
      match c.before with
      | some b => s.modCore i.core.val fun k =>
          let n := Fin.ofNat 32 (cmdDst c.block)
          if b = .filling || c.finished then k else { k with slots := k.slots.set n { k.slots[n] with st := b } }
      | none => s) s
  s1.modTug t fun y => settleTimeline { y with queue := y.queue.filter (fun c => !p c), completed := y.completed ++ gone.map (·.num) }

/-- The Tug command contexts of a cluster. -/
def clusterTugs (cl : Nat) : List TugId := (List.finRange 16).map fun t => { cluster := Fin.ofNat 128 cl, t }

/-- Quiesces every command of a loop context. -/
def quiesceCtx (s : State) (c : CtxId) : State :=
  (clusterTugs (clusterOf c.core.val)).foldl (fun s t => quiesceTug s t fun k => k.issuer == some c) s

/-! A context leaves its core. -/

/-- Frees the slots a loop context owns (R257). -/
def freeSlots (c : Core) (lc : Fin 8) : Core :=
  { c with slots := c.slots.map fun k => if k.st != .free && k.owner == lc then { k with st := .free, dbl := false, mld := false } else k }

/-- Leaves the rings a loop context owns uninitialised (R421). -/
def dropRings (c : Core) (lc : Fin 8) : Core :=
  { c with rings := c.rings.map fun r => if r.init && r.owner == lc then Ring.reset else r }

/-- Lines in the regions a context binds are written back and discarded (R270). -/
def dropBinds (s : State) (c : CtxId) : State :=
  let bs := (s.ctx c).binds
  if bs.isEmpty then s else (flushLines s c.core.val (fun _ => true) true).modCtx c fun x => { x with binds := [], held := [] }

/-- What the next node of the same fault domain finds (R334). -/
def keepRegs (x : Ctx) : List Kept :=
  { fdom := x.fdom, tvec := x.tr.tvec, status := x.tr.status, scratch := x.tr.scratch } :: x.kept0.filter fun k => k.fdom != x.fdom

/-- A context whose node has ended: streams freed, bindings and lease given up, nothing in flight (R257). Its other state stands until a dispatch gives launch values (R24, R425). -/
def Ctx.left (x : Ctx) : Ctx :=
  { x with
    st := .free, waiting := false, laneHeld := false, land := [], stores := [], vland := [], readPages := [], gather := []
    q := Vector.replicate 16 QReg.reset, lease := none, queue := [], rels := [], kept := [], rejoin := false, pendTraps := [], binds := [], held := []
    arrived := none, lost := [], retDue := 0, node := none, kept0 := keepRegs x }

/-- The context holds no node any more. -/
def vacate (s : State) (c : CtxId) : State :=
  let s1 := dropBinds (performStores s c) c
  let s2 := s1.modCore c.core.val fun k =>
    { freeSlots k c.lc with last := some (s.ctx c).rcb, slabs := k.slabs.filter fun b => b.1 != c.lc.val }
  let s3 := { s2 with acqs := s2.acqs.filter fun a => a.1 != c }
  s3.modCtx c Ctx.left

/-- A Kill of the node on a loop context: commands quiesced, rings left uninitialised, kept entries discarded, the node failed (R332, R343, R421, R431). -/
def killCtx (s : State) (c : CtxId) : State :=
  let n := (s.ctx c).node
  let s1 := quiesceCtx s c
  let s2 := s1.modCore c.core.val fun k =>
    { dropRings k c.lc with arr := { k.arr with ops := k.arr.ops.filter (fun o => o.lc != c.lc), done := (if k.arr.ops.all (fun o => o.lc == c.lc) then k.arr.issued else k.arr.done) } }
  let s3 := vacate s2 c
  match n with
  | some r => failNode s3 r
  | none => s3

/-- Every loop context of the module's table. -/
def allCtxs (s : State) : List CtxId :=
  s.ctxs.map fun e => { core := Fin.ofNat 1024 (e.1 / 8), lc := Fin.ofNat 8 e.1 }

def allTugs (s : State) : List TugId :=
  s.tugs.map fun e => { cluster := Fin.ofNat 128 (e.1 / 16), t := Fin.ofNat 16 e.1 }

def allWalks (s : State) : List WalkId :=
  s.walks.map fun e => { walker := Fin.ofNat 32 (e.1 / 8), k := Fin.ofNat 8 e.1 }

/-- Drops the walk operations that `p` selects, a LOCK held freed; the timeline passes them. -/
def cancelWalk (s : State) (w : WalkId) (p : WalkOp → Bool) : State :=
  let x := s.walk w
  let gone := (x.queue.filter p).map (·.num)
  let s0 := (x.queue.filter p).foldl (fun s o => match o.lock with | some pa => ownWrite s pa 8 0 | none => s) s
  let s1 := { s0 with locks := s0.locks.filter fun l => !(l.1 == w && (x.queue.filter p).any (fun o => o.locking)) }
  s1.modWalk w fun y =>
    let q := y.queue.filter fun o => !p o
    { y with queue := q, timeline := match q with
      | [] => gone.foldl max y.timeline
      | o :: _ => o.num - 1 }

/-- End of a fault domain: every node and graph of its regions ends FAULTED, its engine work is cancelled at a beat (R332). -/
def endDomain (s : State) (fdom : Nat) : State :=
  let gs := (s.graphs.filter fun e => effFdom s e.2.rcb == fdom).map (·.1)
  let mine (r : Option NodeRef) : Bool := match r with | some r => gs.contains r.graph | none => false
  let cs := (allCtxs s).filter fun c => (s.ctx c).resident && (s.ctx c).fdom == fdom
  let issued (i : Option CtxId) : Bool := match i with | some c => cs.contains c | none => false
  let s1 := gs.foldl (fun s g => s.modGraph g fun x =>
    { x with st := .failing, nodes := x.nodes.map fun n => if n.st.live then n else if n.st == .retired then n else { n with st := .failed } }) s
  let s2 := (allTugs s1).foldl (fun s t => quiesceTug s t fun c => mine c.node || issued c.issuer) s1
  let s3 := (allWalks s2).foldl (fun s w =>
    let t := cancelWalk s w fun o => mine o.node || issued o.issuer
    ((s.walk w).queue.filterMap fun o => if mine o.node then o.node else none).foldl freeNodeWalk t) s2
  let s4 := cs.foldl killCtx { s3 with lent := s3.lent.filter fun l => l.ctx.fdom != fdom }
  gs.foldl (fun s g => settleGraph (s.modGraph g fun x => { x with nodes := x.nodes.map fun n => if n.st.live then { n with st := .failed } else n }) g) s4

end Sys2Proof.Machine
end

