-- ==== Sys2Proof/Machine/Ops.lean ====
section
/-! DEFINITION. The shared operations: scalar registers (R25, R26), the causes and their deliveries (R331 to R333), taking an exception (R335, R431, R327), returning from one (R336), and how an instruction's end becomes a step. -/

namespace Sys2Proof.Machine

abbrev Out := Host.Outcome State Fault Refusal

/-! Classes of instructions. -/

/-- The operations the array numbers (R221). -/
def arrayOp : Instr → Bool
  | .mma _ | .mmas _ | .mslide _ | .mprom _ | .mzero _ | .maccwr _ => true
  | _ => false

/-- The matrix instructions, whose work is engine work (R220, R283). -/
def matrixOp : Instr → Bool
  | .mclaim _ | .mrel _ | .mld _ | .mlds _ | .maccrd _ => true
  | i => arrayOp i

/-- No vector or matrix instruction of the context is still to run. -/
def Ctx.lanesIdle (x : Ctx) : Bool := x.queue.isEmpty && x.rels.isEmpty

/-! Scalar registers. -/

/-- Whether si is full; s0 always is (R25, R26). -/
def Ctx.isFull (c : Ctx) (r : Fin 32) : Bool := r == 0 || c.full.getLsbD r.val

/-- The value of si; s0 reads zero (R25). -/
def Ctx.sget (c : Ctx) (r : Fin 32) : Word := if r = 0 then 0 else c.s[r]

/-- Writes si, which is full afterwards; a write to s0 is discarded (R25). -/
def Ctx.sset (c : Ctx) (r : Fin 32) (v : Word) : Ctx :=
  if r = 0 then c else { c with s := c.s.set r v, full := c.full ||| BitVec.ofNat 32 (2 ^ r.val) }

/-- Clears the full/empty bit of si; s0 stays full (R25, R26). -/
def Ctx.sclear (c : Ctx) (r : Fin 32) : Ctx :=
  if r = 0 then c else { c with full := c.full &&& ~~~ (BitVec.ofNat 32 (2 ^ r.val)) }

/-- Reads a scalar source: waits while it is empty (R26, R139). -/
def readS (r : Fin 32) : M Word := do
  let c ← getMe
  if c.isFull r then return c.sget r else waitM

/-- Writes a scalar destination: waits while a value is pending (R26). -/
def writeS (r : Fin 32) (v : Word) : M Unit := do
  let c ← getMe
  if c.isFull r then modMe fun c => c.sset r v else waitM

/-- Waits until a destination holds no pending value (R26). -/
def awaitS (r : Fin 32) : M Unit := do
  let c ← getMe
  waitUnless (c.isFull r)

/-- Writes the value of a long-latency producer: at once, or, when it is held back, when VALUE_LANDS brings it (R26, R148). `src` is where a main-memory value comes from. -/
def landAt (r : Fin 32) (v : Word) (src : Option Nat) : M Unit := do
  let s ← get
  if !s.late then modMe fun c => c.sset r v
  else if r = 0 then pure ()
  else modMe fun c => { c.sclear r with land := c.land ++ [{ dst := r, value := v, poison := none, src }] }

/-- The value of a producer that reads no main memory. -/
def landS (r : Fin 32) (v : Word) : M Unit := landAt r v none

/-- A value that lands poisoned leaves its destination empty (R348). -/
def landPoison (r : Fin 32) (pa : Nat) : M Unit :=
  modMe fun c => { c.sclear r with land := c.land ++ [{ dst := r, value := 0, poison := some pa, src := some pa }] }

/-! Causes. -/

/-- Code of a cause (R333). -/
def Cause.code : Cause → Nat
  | .illZero => 0x001 | .illOpc => 0x002 | .illFn => 0x003 | .illField => 0x004 | .illHint => 0x005 | .illVreg => 0x006
  | .privInsn => 0x007 | .illCsr => 0x008 | .privCsr => 0x009 | .pcAlign => 0x00A | .vlRange => 0x00B | .mxRange => 0x00C
  | .swTrap => 0x00D | .breakpoint => 0x00E | .emuRange => 0x00F | .doubleTrap => 0x010
  | .vaNoncanon => 0x101 | .misaligned => 0x102 | .trNotmapped => 0x103 | .trPerm => 0x104 | .pteIllegal => 0x105
  | .asidInvalid => 0x106 | .encPage => 0x107 | .encWindow => 0x108 | .lpPart => 0x109 | .lpRange => 0x10A | .peerWrite => 0x10B
  | .peerUnreach => 0x10C | .streamDesc => 0x10D | .streamUnbound => 0x10E | .streamDir => 0x10F | .streamEnd => 0x110
  | .ltRange => 0x111 | .tugPort => 0x112 | .btExhausted => 0x113 | .execLost => 0x114 | .replayLost => 0x115
  | .feEmpty => 0x181 | .slotState => 0x182 | .slotOwner => 0x183 | .tugCtx => 0x184 | .tugDesc => 0x185 | .tlHandle => 0x186
  | .drState => 0x187 | .drFault => 0x188 | .barCount => 0x189 | .lockOwner => 0x18A | .bindFull => 0x18B | .awlCtx => 0x18C
  | .awlUnbound => 0x18D | .awlDesc => 0x18E | .awlRing => 0x18F | .awlArena => 0x190 | .tugQuiesced => 0x191 | .awlTree => 0x192
  | .entryIllegal => 0x201 | .entryInvalid => 0x202 | .entryKind => 0x203 | .metaIllegal => 0x204 | .eruleIllegal => 0x205
  | .encKind => 0x206 | .encBlock => 0x207 | .streamFmt => 0x208 | .spillFrame => 0x209 | .mxFmt => 0x20A | .scaleSkew => 0x20B
  | .trPriv => 0x281 | .codeHash => 0x282 | .partIllegal => 0x283
  | .retentionLoss => 0x301 | .sramUe => 0x302 | .memUe => 0x303 | .linkLost => 0x304 | .unitFenced => 0x305 | .moduleLost => 0x306
  | .deadlineBreach => 0x381 | .boundOverrun => 0x382 | .spawnDesc => 0x383 | .leaseLost => 0x384 | .lazyRestore => 0x385

/-- Class of a cause: bits [9:7] of its code (R331). -/
def Cause.cls (c : Cause) : Nat := c.code / 128

/-- How a cause is delivered when a loop context raises it (R332, R333). -/
inductive Delivery where
  | trap | report | stop | kill | endDomain
  deriving DecidableEq, Repr

def Cause.delivery : Cause → Delivery
  | .doubleTrap | .replayLost | .retentionLoss | .sramUe | .memUe | .moduleLost => .stop
  | .tugPort | .awlArena | .awlTree | .linkLost | .deadlineBreach | .boundOverrun => .report
  | .partIllegal | .unitFenced => .kill
  | .codeHash => .endDomain
  | _ => .trap

/-- CTXID of a loop context (R52). -/
def ctxId (asid : BitVec 16) (c : CtxId) : Word :=
  BitVec.ofNat 64 (asid.toNat * 2 ^ 32 + c.core.val * 4 + c.lc.val % 4)

/-- A report of a loop context (R338). -/
def ctxReport (s : State) (c : CtxId) (code : Nat) (disp : Disp) (epc tval aux : Word) : State :=
  let x := s.ctx c
  report s x.fdom { code, disp, origin := 0, who := ctxId x.asid c, place := epc, tval, gtag := gtagOf s x.node, aux }

/-- A handler that stops its context discards the traps of a resumption still to come (R346). -/
def Ctx.endTraps (x : Ctx) : Ctx := if x.inh then { x with pendTraps := [] } else x

/-- A context stops with its state kept (R332). -/
def stopCtx (s : State) (c : CtxId) : State := s.modCtx c fun x => { x.endTraps with st := .stopped, waiting := false }

/-- STATUS after a trap entry: PPRIV takes PRIV, PRIV becomes S unless it is F, INH is set (R335). -/
def trapStatus (st : Word) : Word :=
  let p := wbits st 0 2
  setBits (setBits (setBits st 2 2 p) 0 2 (if p = 2 then 2 else 1)) 4 1 1

/-- Where a trap of a class goes (R335). -/
def trapTarget (tvec : Word) (cls : Nat) : Word :=
  let b := setBits tvec 0 6 0
  if wbits tvec 0 2 = 1 then b + BitVec.ofNat 64 (64 * cls) else b

/-- TAKING A TRAP: Deliver of R335. The trap registers take the cause, STATUS and the mode change, the PC goes to the handler; a double trap or a redirected class stops the context with a report. -/
def deliver (s : State) (c : CtxId) (cause : Cause) (epc tval : Word) (vec : Bool) : State :=
  let x := s.ctx c
  if x.inh then stopCtx (ctxReport s c Cause.doubleTrap.code .stop epc (BitVec.ofNat 64 cause.code) 0) c
  else if nbit x.tr.status.toNat (8 + cause.cls) then stopCtx (ctxReport s c cause.code .stop epc tval 0) c
  else
    s.modCtx c fun x =>
      { x with
        waiting := false
        pc := trapTarget x.tr.tvec cause.cls
        tr := { x.tr with
          cause := BitVec.ofNat 64 ((if vec then 1024 else 0) + cause.code)
          epc, tval
          status := trapStatus x.tr.status } }

/-- Causes that count as re-faults (R327). -/
def Cause.refault : Cause → Bool
  | .trNotmapped | .trPerm | .pteIllegal => true
  | _ => false

/-- Counts a re-fault of the instruction at `at'` and says whether the count would reach 4 (R327). -/
def countRefault (x : Ctx) (cause : Cause) (at' tval : Word) : Ctx × Bool :=
  if x.inh || !cause.refault then (x, false)
  else if x.lastFault = some (at', tval) then
    if x.refaults + 1 ≥ 4 then (x, true) else ({ x with refaults := x.refaults + 1 }, false)
  else ({ x with lastFault := some (at', tval) }, false)

/-- A context that a cause reaches no longer waits for an object: it has lost its place (R252, R313). -/
def leaveWait (s : State) (c : CtxId) : State := { s with acqs := s.acqs.filter fun a => a.1 != c }

/-- Delivers a cause that a loop context raises, by its delivery (R332, R333). `at'` is the faulting instruction, `epc` what EPC takes, `aux` AUX of a Stop. -/
def raise (s : State) (c : CtxId) (cause : Cause) (at' epc tval aux : Word) (vec : Bool) : State :=
  let s := leaveWait s c
  match cause.delivery with
  | .trap =>
    let r := countRefault (s.ctx c) cause at' tval
    if r.2 then stopCtx (ctxReport s c Cause.replayLost.code .stop epc tval 0) c
    else deliver (s.setCtx c r.1) c cause epc tval vec
  | .report => ctxReport s c cause.code .report epc tval aux
  | .stop => stopCtx (ctxReport s c cause.code .stop epc tval aux) c
  | .kill => killCtx (ctxReport s c cause.code .kill epc tval aux) c
  | .endDomain => endDomain (ctxReport s c cause.code .endDomain epc tval aux) (s.ctx c).fdom

/-- TVAL as the cause sets it, else a free value (log 7). -/
def tvalOf (s : State) (v : Option Word) : Word :=
  match v with
  | some w => w
  | none => Config.tval s.tick

/-- An instruction of the running context retires: outside a handler it resets the re-fault count (R327). -/
def retire (s : State) : State :=
  s.modMe fun x => if x.inh then { x with waiting := false } else { x with waiting := false, refaults := 0, lastFault := none }

/-- The oldest value that has landed poisoned stops the context at an instruction boundary: MEM_UE, EPC the first instruction not executed, AUX the physical address (R348). -/
def poisonStop (s : State) (c : CtxId) : State :=
  match (s.ctx c).land.find? (fun l => l.poison.isSome) with
  | none => s
  | some l =>
    let s := s.modCtx c fun x => { x with land := x.land.filter fun k => k != l }
    raise s c .memUe (s.ctx c).pc (s.ctx c).pc (Config.tval s.tick) (BitVec.ofNat 64 (l.poison.getD 0)) false

/-- The boundary after an instruction that retired: a poisoned value lands at once unless values are held back. -/
def boundary (s : State) : State := if s.late then s else poisonStop s s.cur

/-- An instruction of the running context waits and will execute again (R252). -/
def hold (s : State) : State := s.modMe fun x => { x with waiting := true }

/-- The end of a scalar instruction that raised an exception: a cause is delivered once every earlier queue entry has completed (R122, R431), a wait leaves the PC. A load that has passed its checks counts as complete: its value may still be in flight (DESIGN CHOICE, log 52). -/
def scalarExc (e : Exc) (s : State) : Out :=
  match e with
  | .wait | .split => .next (hold s)
  | .cause c v =>
    if s.me.lanesIdle then .next (raise s s.cur c s.me.pc s.me.pc (tvalOf s v) 0 false) else .next (hold s)
  | .stopAt c pa =>
    if s.me.lanesIdle then .next (raise s s.cur c s.me.pc s.me.pc (Config.tval s.tick) (BitVec.ofNat 64 pa) false) else .next (hold s)

/-- A scalar instruction completes at a PC, whether it belonged to a handler or not. -/
def complete (inh : Bool) (pc : Word) (s : State) : Out :=
  let t := s.modMe fun c => { c with pc }
  .next (boundary (if inh then t.modMe (fun c => { c with waiting := false }) else retire t))

/-- A scalar instruction that falls through: its effect, then PC + 4 (R139). -/
def scalar (x : M Unit) (s : State) : Out :=
  match x s with
  | .ok _ t => .next (boundary (retire (t.modMe fun c => { c with pc := c.pc + 4 })))
  | .error e t => scalarExc e t

/-- A scalar instruction that says where the PC goes. -/
def scalarTo (x : M Word) (s : State) : Out :=
  match x s with
  | .ok pc t => .next (boundary (retire (t.modMe fun c => { c with pc })))
  | .error e t => scalarExc e t

/-- A step of the hardware: what it does to the state; one that must wait has done nothing, any other exception leaves the state it reached. -/
def event (x : M Unit) (s : State) : Out :=
  match x s with
  | .ok _ t => .next t
  | .error .wait _ => .next s
  | .error _ t => .next t

/-- The privilege a privileged instruction needs (R121 step 7): PRIV_INSN, with TVAL the word (R122). -/
def needPriv (lvl : Nat) (i : Instr) : M Unit := do
  let c ← getMe
  needN (lvl ≤ c.priv.toNat) .privInsn ((encode i).getD 0)

/-- The kept entries at the return from a trap: with CAUSE.VEC they go back to the queue ahead of everything else (R431), once no trap of a resumption is still to come (R346); otherwise those of a resumption stay until then, and any others are discarded (log 16). -/
def returnKept (x : Ctx) : Ctx :=
  if nbit x.tr.cause.toNat 10 then
    if x.pendTraps.isEmpty then { x with queue := x.kept ++ x.queue, kept := [], rejoin := false } else { x with rejoin := true }
  else if x.rejoin then x
  else { x with kept := [] }

/-- RETURNING FROM A TRAP (R336): PC takes EPC, PRIV takes PPRIV, PPRIV and INH clear, and the kept entries are returned. -/
def eretCtx (x : Ctx) : Ctx :=
  let st := setBits (setBits (setBits x.tr.status 0 2 x.ppriv.toNat) 2 2 0) 4 1 0
  returnKept { x with pc := x.tr.epc, tr := { x.tr with status := st } }

/-- The trap still to be delivered at resumption, once the handler has returned to the resumption PC with INH = 0 (R346): it is taken before any instruction there. -/
def pendingTrap (s : State) (c : CtxId) : Option State :=
  let x := s.ctx c
  match x.pendTraps with
  | [] => none
  | t :: rest =>
    if x.inh || x.pc != x.resumeAt then none
    else some (deliver (s.modCtx c fun x => { x with pendTraps := rest }) c t.cause x.pc t.tval false)

end Sys2Proof.Machine
end

