-- ==== Sys2Proof/Machine/Formats.lean ====
section
/-! DEFINITION. The format table and number formats (R56 to R65), rounding (R66 to R68), overflow (R72 to R75) and conversion. -/

namespace Sys2Proof.Machine

/-! Format entries (R56, R57, R61). -/

/-- A format entry's fields. -/
structure Fmt where
  valid : Bool
  kind : Nat
  sgn : Bool
  ew : Nat
  fw : Nat
  bias : Nat
  spec : Nat
  rnd : Nat
  ovf : Nat
  bsk : Nat
  blog : Nat
  zp : Nat
  wid : Nat
  deriving DecidableEq, Repr

/-- The fields of an entry word (R56). -/
def fmtOf (w : Word) : Fmt :=
  { valid := nbit w.toNat 63, kind := wbits w 60 3, sgn := nbit w.toNat 59, ew := wbits w 55 4, fw := wbits w 49 6, bias := wbits w 39 10,
    spec := wbits w 36 3, rnd := wbits w 34 2, ovf := wbits w 32 2, bsk := wbits w 28 4, blog := wbits w 24 4, zp := wbits w 16 8, wid := wbits w 8 8 }

/-- The preset entries (R61). -/
def preset : Nat → Word
  | 0 => 0x8C2E3F8100002000
  | 1 => 0x8C0E3F8100001000
  | 2 => 0x8A94078100001000
  | 3 => 0x8A06039000000800
  | 4 => 0x8A84078100000800
  | 5 => 0x890200A015000400
  | 6 => 0x980E002000000800
  | _ => 0x9806002000000400

/-- The word of an entry: a preset, or one of the captured entries 8 to 15. -/
def entWord (ents : Vector Word 8) (n : Nat) : Word :=
  if n < 8 then preset n else (ents.toList).getD (n - 8) 0

def Fmt.isInt (f : Fmt) : Bool := f.kind != 0

/-- ZP as the value it is: two's complement for signed integers (R56). -/
def Fmt.zpVal (f : Fmt) : Int := if f.kind = 1 then sextNat 8 f.zp else (f.zp : Int)

/-- Least and greatest code of an integer entry (R60). -/
def Fmt.minCode (f : Fmt) : Int := if f.kind = 1 then -(2 ^ (f.wid - 1) : Int) else 0

def Fmt.maxCode (f : Fmt) : Int := if f.kind = 1 then (2 ^ (f.wid - 1) : Int) - 1 else (2 ^ f.wid : Int) - 1

/-- First failing check of R57 on a word for entry `n`; 0 when it passes. -/
def entryCheck (n : Nat) (w : Word) : Nat :=
  let f := fmtOf w
  if n < 8 then 1
  else if !f.valid then 0
  else if f.kind > 2 then 2
  else if !(if f.kind = 0 then 2 ≤ f.ew && f.ew ≤ 8 && 1 ≤ f.fw && f.fw ≤ 23 && f.bias < 2 ^ f.ew
            else f.ew = 0 && f.bias = 0 && 3 ≤ f.fw && f.fw ≤ 31) then 3
  else if (f.kind = 1 && !f.sgn) || (f.kind = 2 && f.sgn) then 4
  else if f.wid != f.sgn.toNat + f.ew + f.fw || !(List.contains [4, 6, 8, 16, 32] f.wid) then 5
  else if f.spec > 3 || (f.kind != 0 && f.spec != 2) || (f.spec = 3 && !f.sgn) then 6
  else if f.ovf > 1 then 7
  else if f.bsk > 3 || (f.bsk = 0 && f.blog != 0) || (f.bsk != 0 && !(3 ≤ f.blog && f.blog ≤ 7)) then 8
  else if !(if f.kind = 0 then f.zp = 0 else f.minCode ≤ f.zpVal && f.zpVal ≤ f.maxCode) then 9
  else if wbits w 0 8 != 0 then 10
  else 0

/-! Exact numbers. -/

inductive Cls where
  | zero | finite | inf | nan
  deriving DecidableEq, Repr

/-- A number on its way into the wide form (R63): magnitude `mag * 2 ^ exp`, and a sticky mark for bits of the exact value below it. -/
structure Num where
  cls : Cls
  neg : Bool
  mag : Nat
  exp : Int
  sticky : Bool
  deriving DecidableEq, Repr

def Num.zero (neg : Bool) : Num := { cls := .zero, neg, mag := 0, exp := 0, sticky := false }

def Num.inf (neg : Bool) : Num := { cls := .inf, neg, mag := 0, exp := 0, sticky := false }

def Num.nan : Num := { cls := .nan, neg := false, mag := 0, exp := 0, sticky := false }

/-- A dyadic magnitude with a sign; zero when the magnitude is. -/
def Num.ofMag (neg : Bool) (mag : Nat) (exp : Int) (sticky : Bool := false) : Num :=
  if mag = 0 && !sticky then Num.zero neg else { cls := .finite, neg, mag, exp, sticky }

def Num.ofInt (i : Int) (exp : Int := 0) : Num := Num.ofMag (i < 0) i.natAbs exp

/-- The wide form: a 26-bit significand, guard and round, and sticky (R63). -/
def Num.narrow (x : Num) : Num :=
  if x.cls = .finite then
    let n := if x.mag = 0 then 1 else x.mag.log2 + 1
    if n > 28 then { x with mag := x.mag / 2 ^ (n - 28), exp := x.exp + (n - 28 : Nat), sticky := x.sticky || x.mag % 2 ^ (n - 28) != 0 } else x
  else x

/-- floor(log2) of a finite magnitude. -/
def Num.lg (x : Num) : Int := x.exp + (x.mag.log2 : Int)

/-! Codes to values (R59, R60). -/

def Fmt.isNanCode (f : Fmt) (s e m : Nat) : Bool :=
  match f.spec with
  | 0 => e == 2 ^ f.ew - 1 && m != 0
  | 1 => e == 2 ^ f.ew - 1 && m == 2 ^ f.fw - 1
  | 3 => s == 1 && e == 0 && m == 0
  | _ => false

def Fmt.isInfCode (f : Fmt) (e m : Nat) : Bool := f.spec == 0 && e == 2 ^ f.ew - 1 && m == 0

/-- IntValue: the code read by its kind, less ZP (R60). -/
def Fmt.codeInt (f : Fmt) (c : Nat) : Int := if f.kind = 1 then sextNat f.wid c else ((c % 2 ^ f.wid : Nat) : Int)

def Fmt.intValue (f : Fmt) (c : Nat) : Int := f.codeInt c - f.zpVal

/-- ToWide (R64). -/
def toWide (f : Fmt) (c : Nat) : Num :=
  if f.isInt then Num.ofInt (f.intValue c)
  else
    let s := if f.sgn then nbits c (f.ew + f.fw) 1 else 0
    let e := nbits c f.fw f.ew
    let m := nbits c 0 f.fw
    let neg := s == 1
    if f.isNanCode s e m then { Num.nan with neg }
    else if f.isInfCode e m then Num.inf neg
    else if e = 0 then Num.ofMag neg m (1 - (f.bias : Int) - f.fw)
    else Num.ofMag neg (2 ^ f.fw + m) ((e : Int) - f.bias - f.fw)

/-! Values to codes. -/

inductive RMode where
  | rne | rtz | rdn | rup | sr
  deriving DecidableEq, Repr

/-- The mode of an entry's RND (R56). -/
def rndMode : Nat → RMode
  | 0 => .rne | 1 => .rtz | 2 => .rdn | _ => .rup

/-- RoundingMode of an instruction that fixes none: FCSR.RMO, else the destination's RND (R66). -/
def roundingMode (rmo : BitVec 3) (f : Fmt) : RMode :=
  match rmo.toNat with
  | 1 => .rne | 2 => .rtz | 3 => .rdn | 4 => .rup | 5 => .sr
  | _ => rndMode f.rnd

/-- The next state of the stochastic generator (R68). -/
def drawSeed (s : BitVec 32) : BitVec 32 :=
  let s := if s = 0 then 0x9E3779B9 else s
  let s := s ^^^ (s <<< 13)
  let s := s ^^^ (s >>> 17)
  s ^^^ (s <<< 5)

/-- A rounding: multiples of ulp in magnitude, whether it was inexact, the generator after it. -/
structure Rounded where
  k : Nat
  inexact : Bool
  seed : BitVec 32
  deriving DecidableEq, Repr

/-- RoundGrid (R67) on a magnitude with its sign; ulp is `2 ^ u`. In SR, D comes from the bits the wide form holds, its sticky bit the last (DEDUCED, log 17); where every held bit lies on the grid, D is 0. -/
def roundGrid (x : Num) (u : Int) (mode : RMode) (seed : BitVec 32) : Rounded :=
  let sh := (u - x.exp).toNat
  let k := if u ≤ x.exp then x.mag * 2 ^ (x.exp - u).toNat else x.mag / 2 ^ sh
  let frac := if u ≤ x.exp then 0 else x.mag % 2 ^ sh
  if frac = 0 && !x.sticky then { k, inexact := false, seed }
  else
    let up (b : Bool) (seed : BitVec 32) : Rounded := { k := if b then k + 1 else k, inexact := true, seed }
    match mode with
    | .rne =>
      let tie := 2 * frac == 2 ^ sh && !x.sticky
      let gt := 2 * frac > 2 ^ sh || (2 * frac == 2 ^ sh && x.sticky && sh != 0)
      up (gt || (tie && k % 2 == 1)) seed
    | .rtz => up false seed
    | .rdn => up x.neg seed
    | .rup => up (!x.neg) seed
    | .sr =>
      let num := 2 * frac + x.sticky.toNat
      let d := if sh = 0 then 0 else if x.neg then 2 ^ (sh + 1) - num else num
      if d = 0 then up false seed
      else
        let s := drawSeed seed
        let hit := d * 2 ^ 16 / 2 ^ (sh + 1) + nbits s.toNat 16 16 ≥ 2 ^ 16
        up (if x.neg then !hit else hit) s

/-- Flag bits of FCSR (R69). -/
def fNV : Nat := 1
def fDZ : Nat := 2
def fNX : Nat := 4
def fUF : Nat := 8
def fOF : Nat := 16

/-- A code entered in an entry: what flags it raised, whether it saturated (CountSat), the generator after it. -/
structure Coded where
  code : Nat
  flags : Nat
  sat : Bool
  seed : BitVec 32
  deriving DecidableEq, Repr

def signBit (f : Fmt) (neg : Bool) : Nat := if neg && f.sgn then 2 ^ (f.ew + f.fw) else 0

/-- Canonical NaN (R59). -/
def canonNan (f : Fmt) : Nat :=
  match f.spec with
  | 0 => (2 ^ f.ew - 1) * 2 ^ f.fw + 2 ^ (f.fw - 1)
  | 1 => 2 ^ (f.ew + f.fw) - 1
  | 3 => 2 ^ (f.ew + f.fw)
  | _ => 0

def Fmt.hasNan (f : Fmt) : Bool := !f.isInt && f.spec != 2

def Fmt.hasInf (f : Fmt) : Bool := !f.isInt && f.spec == 0

/-- ZeroCode (R64). -/
def zeroCode (f : Fmt) (neg : Bool) : Nat :=
  if f.isInt then intMod f.wid f.zpVal
  else if neg && f.sgn && f.spec != 3 then 2 ^ (f.ew + f.fw) else 0

def infCode (f : Fmt) (neg : Bool) : Nat := signBit f neg + (2 ^ f.ew - 1) * 2 ^ f.fw

/-- Code of the largest finite magnitude, without sign (R59). -/
def largestCode (f : Fmt) : Nat :=
  match f.spec with
  | 0 => (2 ^ f.ew - 2) * 2 ^ f.fw + (2 ^ f.fw - 1)
  | 1 => 2 ^ (f.ew + f.fw) - 2
  | _ => 2 ^ (f.ew + f.fw) - 1

/-- The largest finite magnitude as a number. Of an integer entry it is MaxCode less ZP, which with ZP at MaxCode is 0 (DESIGN CHOICE, log 52). -/
def largest (f : Fmt) : Num :=
  if f.isInt then Num.ofInt (f.maxCode - f.zpVal)
  else toWide { f with sgn := false, spec := 2 } (largestCode f)

/-- Exponent of UlpTop (R64). -/
def ulpTop (f : Fmt) : Int := (largest f).lg - f.fw

/-- Compares magnitudes a * 2^e and b * 2^d. -/
def magLe (a : Nat) (e : Int) (b : Nat) (d : Int) : Bool :=
  let m := min e d
  a * 2 ^ (e - m).toNat ≤ b * 2 ^ (d - m).toNat

def magLt (a : Nat) (e : Int) (b : Nat) (d : Int) : Bool := !magLe b d a e

/-- SatInt's clamp to a code (R64). -/
def satInt (f : Fmt) (q : Int) : Nat := intMod f.wid (max f.minCode (min f.maxCode q))

/-- OverflowResult (R74): the code and whether CountSat counts it. `sat` applies the OVF = 0b00 row. -/
def overflowResult (f : Fmt) (neg : Bool) (mode : RMode) (sat : Bool) : Nat × Bool :=
  let l := if f.isInt then intMod f.wid (if neg then f.minCode else f.maxCode) else signBit f neg + largestCode f
  if sat || f.ovf = 0 || f.spec = 2 then (l, true)
  else if f.spec = 0 then
    if mode = .rtz || (mode = .rdn && !neg) || (mode = .rup && neg) then (l, true) else (infCode f neg, false)
  else (canonNan f, false)

/-- FromWide (R64, R73): one rounding into an entry. -/
def fromWide (x : Num) (f : Fmt) (mode : RMode) (seed : BitVec 32) (sat : Bool := false) : Coded :=
  let x := x.narrow
  match x.cls with
  | .nan => if f.hasNan then { code := canonNan f, flags := 0, sat := false, seed } else { code := zeroCode f false, flags := fNV, sat := false, seed }
  | .zero => { code := zeroCode f x.neg, flags := 0, sat := false, seed }
  | .inf =>
    if !f.isInt && !f.sgn && x.neg then { code := zeroCode f false, flags := fNV, sat := true, seed }
    else if f.hasInf && !sat then { code := infCode f x.neg, flags := 0, sat := false, seed }
    else if f.hasInf then { code := infCode f x.neg, flags := 0, sat := false, seed }
    else
      let o := overflowResult f x.neg mode sat
      { code := o.1, flags := 0, sat := o.2, seed }
  | .finite =>
    if !f.isInt && !f.sgn && x.neg then { code := zeroCode f false, flags := fNV, sat := true, seed }
    else if f.isInt then
      let r := roundGrid x 0 mode seed
      let q : Int := (if x.neg then -(r.k : Int) else (r.k : Int)) + f.zpVal
      if f.maxCode < q || q < f.minCode then { code := satInt f q, flags := fNV, sat := true, seed := r.seed }
      else { code := intMod f.wid q, flags := if r.inexact then fNX else 0, sat := false, seed := r.seed }
    else
      let emin : Int := 1 - f.bias
      let u := max x.lg emin - f.fw
      let r := roundGrid x u mode seed
      let l := largest f
      let large := magLt l.mag l.exp r.k u ||
        (mode == .rne && magLe (2 * l.mag * 2 ^ (l.exp - min l.exp (ulpTop f)).toNat + 2 ^ (ulpTop f - min l.exp (ulpTop f)).toNat) (min l.exp (ulpTop f) - 1) x.mag x.exp)
      if large then
        let o := overflowResult f x.neg mode sat
        { code := o.1, flags := fOF + fNX, sat := o.2, seed := r.seed }
      else
        let tiny := magLt x.mag x.exp 1 emin
        let flags := if r.inexact then (if tiny then fNX + fUF else fNX) else 0
        let code :=
          if r.k = 0 then zeroCode f x.neg
          else if r.k < 2 ^ f.fw then signBit f x.neg + r.k
          else
            let k := if r.k ≥ 2 ^ (f.fw + 1) then r.k / 2 else r.k
            let e := if r.k ≥ 2 ^ (f.fw + 1) then u + 1 else u
            signBit f x.neg + (e + f.fw + f.bias).toNat * 2 ^ f.fw + (k - 2 ^ f.fw)
        { code, flags, sat := false, seed := r.seed }

/-- Convert (R64). -/
def convert (c : Nat) (fs fd : Fmt) (mode : RMode) (seed : BitVec 32) (sat : Bool := false) : Coded :=
  if fs.isInt && fd.isInt then
    let q := fs.intValue c + fd.zpVal
    let out := fd.maxCode < q || q < fd.minCode
    { code := satInt fd q, flags := if out then fNV else 0, sat := out, seed }
  else fromWide (toWide fs c) fd mode seed sat

/-- FP32 (entry 0). -/
def fp32 : Fmt := fmtOf (preset 0)

/-- A number rounded to FP32 by a mode, as a code. -/
def toF32 (x : Num) (mode : RMode) : Nat := (fromWide x fp32 mode 0).code

/-- An FP32 code as a number. -/
def ofF32 (c : Nat) : Num := toWide fp32 c

/-! Exact arithmetic. -/

/-- The negative. -/
def Num.negate (x : Num) : Num := { x with neg := !x.neg }

/-- Exact product; an infinity times zero is NaN. -/
def Num.mul (x y : Num) : Num :=
  let neg := x.neg != y.neg
  match x.cls, y.cls with
  | .nan, _ => Num.nan
  | _, .nan => Num.nan
  | .inf, .zero => Num.nan
  | .zero, .inf => Num.nan
  | .inf, _ => Num.inf neg
  | _, .inf => Num.inf neg
  | .zero, _ => Num.zero neg
  | _, .zero => Num.zero neg
  | .finite, .finite => { cls := .finite, neg, mag := x.mag * y.mag, exp := x.exp + y.exp, sticky := x.sticky || y.sticky }

/-- Signed mantissa at an exponent not above the number's. -/
def Num.at (x : Num) (e : Int) : Int :=
  let m : Int := (x.mag * 2 ^ (x.exp - e).toNat : Nat)
  if x.neg then -m else m

/-- Exact sum of dyadic numbers; the sign of an exact zero is minus only under RDN, or when both are minus zero (R72's companion rule is the chapter's own, see Vfp). -/
def Num.add (x y : Num) (rdn : Bool := false) : Num :=
  match x.cls, y.cls with
  | .nan, _ => Num.nan
  | _, .nan => Num.nan
  | .inf, .inf => if x.neg == y.neg then x else Num.nan
  | .inf, _ => x
  | _, .inf => y
  | .zero, .zero => Num.zero (if x.neg == y.neg then x.neg else rdn)
  | .zero, .finite => y
  | .finite, .zero => x
  | .finite, .finite =>
    let e := min x.exp y.exp
    let i := x.at e + y.at e
    if i = 0 then Num.zero rdn else Num.ofInt i e

/-- Exact quotient, with 64 bits and a sticky mark for the rest. -/
def Num.quo (x y : Num) : Num :=
  let neg := x.neg != y.neg
  match x.cls, y.cls with
  | .nan, _ => Num.nan
  | _, .nan => Num.nan
  | .inf, .inf => Num.nan
  | .inf, _ => Num.inf neg
  | _, .inf => Num.zero neg
  | .zero, .zero => Num.nan
  | .zero, _ => Num.zero neg
  | .finite, .zero => Num.inf neg
  | .finite, .finite =>
    let sh := 64 + (if y.mag.log2 ≥ x.mag.log2 then y.mag.log2 - x.mag.log2 else 0)
    let q := x.mag * 2 ^ sh / y.mag
    { cls := .finite, neg, mag := q, exp := x.exp - y.exp - sh, sticky := x.mag * 2 ^ sh % y.mag != 0 }

/-- Bits of the integer square root, from bit `n` down. -/
def isqrtGo (v : Nat) : Nat → Nat → Nat
  | 0, r => r
  | n + 1, r => if (r + 2 ^ n) * (r + 2 ^ n) ≤ v then isqrtGo v n (r + 2 ^ n) else isqrtGo v n r

/-- floor(sqrt v). -/
def isqrt (v : Nat) : Nat := isqrtGo v (v.log2 / 2 + 1) 0

/-- Exact square root of a non-negative number, with bits beyond the wide form and a sticky mark. -/
def Num.sqrt (x : Num) : Num :=
  match x.cls with
  | .nan => Num.nan
  | .zero => x
  | .inf => if x.neg then Num.nan else x
  | .finite =>
    if x.neg then Num.nan
    else
      let sh := 80 + (x.exp % 2).toNat
      let m := x.mag * 2 ^ sh
      let r := isqrt m
      { cls := .finite, neg := false, mag := r, exp := (x.exp - sh) / 2, sticky := r * r != m || x.sticky }

end Sys2Proof.Machine
end

