-- ==== Sys2Proof/Machine/Operands.lean ====
section
/-! DEFINITION. Vector operands: declarations (R27 to R30), the encodings of a register (R84 to R88, R426), reading one at a width, the element classes (R90), the dispatcher's forms (R91, R92) and the encoding of results (R93). -/

namespace Sys2Proof.Machine

/-! The declaration in effect (R27). -/

/-- VLMAX in bits. -/
def vlmaxOf (eff : BitVec 2) : Nat := 16384 * 2 ^ eff.toNat

/-- Vector registers declared. -/
def countOf (eff : BitVec 2) : Nat := 32 / 2 ^ eff.toNat

/-- Slabs per register. -/
def slabsOf (eff : BitVec 2) : Nat := 8 * 2 ^ eff.toNat

def Ctx.vlmax (c : Ctx) : Nat := vlmaxOf c.vc.eff

def Ctx.count (c : Ctx) : Nat := countOf c.vc.eff

def Ctx.slabs (c : Ctx) : Nat := slabsOf c.vc.eff

/-- VLENB (R45). -/
def Ctx.vlenb (c : Ctx) : Nat := c.vlmax / 8

/-- The entry that VTYPE names, as the context's table now holds it. -/
def Ctx.vtFmt (c : Ctx) : Fmt := fmtOf (entWord c.ents (wbits c.vc.vtype 0 4))

/-- Lim of VSETL and STRIP (R152, R168), for a valid entry. -/
def Ctx.lim (c : Ctx) : Nat := c.vlmax / c.vtFmt.wid

/-! Packed elements. -/

/-- `n` fields of `w` bits, lowest first. -/
def unpack (w : Nat) : Nat → Nat → List Nat
  | 0, _ => []
  | n + 1, x => x % 2 ^ w :: unpack w n (x / 2 ^ w)

/-- Fields of `w` bits packed, lowest first. -/
def pack (w : Nat) : List Nat → Nat
  | [] => 0
  | x :: xs => x % 2 ^ w + 2 ^ w * pack w xs

/-- Value slabs of a run-length register (R85). -/
def runSv (sew slabs : Nat) : Nat :=
  (match sew with | 32 => 5 | 16 => 4 | 8 => 3 | _ => 2) * slabs / 8

/-- Capacity in runs (R85). -/
def runCap (sew slabs : Nat) : Nat := min (runSv sew slabs * 2048 / sew) ((slabs - runSv sew slabs) * 128)

/-- Value slabs of a dictionary register (R86). -/
def dictSv (sew : Nat) : Nat := match sew with | 32 => 4 | 16 => 2 | _ => 1

/-- Capacity in dictionary entries (R86). -/
def dictCap (sew : Nat) : Nat := match sew with | 32 => 256 | 16 => 256 | 8 => 128 | 6 => 32 | _ => 8

/-- Code width of a dictionary of K entries (R86). -/
def codeBits (k : Nat) : Nat := if k ≤ 2 then 1 else (k - 1).log2 + 1

/-- Bits of DW (R31). -/
def dwBits (dw : BitVec 2) : Nat := match dw.toNat with | 0 => 4 | 1 => 8 | _ => 16

/-- Elements from run ends and values. -/
def expandRuns : Nat → List (Nat × Nat) → List Nat
  | _, [] => []
  | prev, (e, v) :: rs => List.replicate (e - prev) v ++ expandRuns (max prev e) rs

/-- Elements from a base and deltas (R87). -/
def expandDeltas (sew dw : Nat) : Nat → List Nat → List Nat
  | c, [] => [c]
  | c, d :: ds => c :: expandDeltas sew dw (intMod sew ((c : Int) + sextNat dw d)) ds

/-- Places above 0 where neighbouring elements differ. -/
def changesFrom : Nat → List Nat → List Nat
  | e, a :: b :: l => if a = b then changesFrom (e + 1) (b :: l) else (e + 1) :: changesFrom (e + 1) (b :: l)
  | _, _ => []

/-- What an instruction of width `sew` reads from a register (R426): its kind there, its `n` elements, and the parts of its encoding. -/
structure View where
  kind : VKind
  elems : Array Nat
  /-- run ends, or the places where the code changes, and n (R92) -/
  ends : List Nat
  /-- run values or dictionary entries -/
  vals : List Nat
  codes : List Nat
  tag : Nat
  deltas : List Nat
  dw : BitVec 2
  /-- the image, whose value area R92's mismatch case reads -/
  img : Nat
  deriving DecidableEq, Repr

def View.plain (l : List Nat) : View :=
  { kind := .plain, elems := l.toArray, ends := [], vals := [], codes := [], tag := 0, deltas := [], dw := 0, img := 0 }

def View.at (v : View) (e : Nat) : Nat := v.elems.getD e 0

/-- The run ends and values of a run-length register (R85). -/
def regRuns (r : VReg) (slabs : Nat) : List (Nat × Nat) :=
  let sew := r.esew.toNat
  let k := r.k.toNat
  (unpack 16 k (r.img.toNat / 2 ^ (runSv sew slabs * 2048))).zip (unpack sew k r.img.toNat)

/-- The codes of a dictionary register (R86). -/
def regCodes (r : VReg) (vlmax : Nat) : List Nat :=
  unpack (codeBits r.k.toNat) (vlmax / r.esew.toNat) (r.img.toNat / 2 ^ (dictSv r.esew.toNat * 2048))

def regEntries (r : VReg) : List Nat := unpack r.esew.toNat r.k.toNat r.img.toNat

/-- The deltas of a delta register (R87). -/
def regDeltas (r : VReg) (vlmax : Nat) : List Nat :=
  unpack (dwBits r.dw) (vlmax / r.esew.toNat - 1) (r.img.toNat / 2 ^ 2048)

/-- The elements an encoded register holds, at its own width. -/
def regElems (r : VReg) (vlmax : Nat) : List Nat :=
  let sew := r.esew.toNat
  match r.kind with
  | .plain => []
  | .runLength => expandRuns 0 (regRuns r (vlmax / 2048))
  | .dictionary =>
    let es := (regEntries r).toArray
    (regCodes r vlmax).map fun c => es.getD c 0
  | .delta => expandDeltas sew (dwBits r.dw) (r.img.toNat % 2 ^ sew) (regDeltas r vlmax)

/-- The plain image of a register: an encoded one expanded at its own width (R426). -/
def plainImage (r : VReg) (vlmax : Nat) : Nat :=
  match r.kind with
  | .plain => r.img.toNat % 2 ^ vlmax
  | .runLength | .dictionary | .delta => pack r.esew.toNat (regElems r vlmax)

/-- A register read at a width (R426). -/
def viewOf (r : VReg) (vlmax sew : Nat) : View :=
  let n := vlmax / sew
  if r.kind = .plain || r.esew.toNat != sew then View.plain (unpack sew n (plainImage r vlmax))
  else
    let es := regElems r vlmax
    match r.kind with
    | .plain => View.plain es
    | .runLength =>
      let rs := regRuns r (vlmax / 2048)
      { kind := .runLength, elems := es.toArray, ends := rs.map (·.1), vals := rs.map (·.2), codes := [], tag := 0, deltas := [], dw := 0, img := r.img.toNat }
    | .dictionary =>
      let cs := regCodes r vlmax
      { kind := .dictionary, elems := es.toArray, ends := changesFrom 0 cs ++ [n], vals := regEntries r, codes := cs, tag := r.tag.toNat, deltas := [], dw := 0, img := r.img.toNat }
    | .delta =>
      { kind := .delta, elems := es.toArray, ends := changesFrom 0 es ++ [n], vals := [], codes := [], tag := 0, deltas := regDeltas r vlmax, dw := r.dw, img := r.img.toNat }

/-- One run of zeros over all elements: what a dead destination enters as (R90). -/
def View.zeroRun (n : Nat) : View :=
  { kind := .runLength, elems := (List.replicate n 0).toArray, ends := [n], vals := [0], codes := [], tag := 0, deltas := [], dw := 0, img := 0 }

/-! Registers made. -/

/-- A dead register: plain, full and clean, every element zero (R35). -/
def VReg.dead : VReg := VReg.reset

def mkPlain (sew : Nat) (elems : List Nat) : VReg := { VReg.reset with img := BitVec.ofNat 65536 (pack sew elems) }

/-- A plain register from image bits. -/
def mkImage (img : Nat) : VReg := { VReg.reset with img := BitVec.ofNat 65536 img }

/-- A run-length register of ends and values (R85). -/
def mkRuns (sew slabs : Nat) (rs : List (Nat × Nat)) : VReg :=
  { VReg.reset with
    kind := .runLength, esew := BitVec.ofNat 6 sew, k := BitVec.ofNat 17 rs.length
    img := BitVec.ofNat 65536 (pack sew (rs.map (·.2)) + 2 ^ (runSv sew slabs * 2048) * pack 16 (rs.map (·.1))) }

/-- A dictionary register of entries, codes and tag (R86). As in every encoded result, the bits of the two areas beyond those in use are zero (DESIGN CHOICE, log 52). -/
def mkDict (sew : Nat) (entries codes : List Nat) (tag : Nat) : VReg :=
  { VReg.reset with
    kind := .dictionary, esew := BitVec.ofNat 6 sew, k := BitVec.ofNat 17 entries.length, tag := BitVec.ofNat 8 tag
    cw := BitVec.ofNat 4 (codeBits entries.length)
    img := BitVec.ofNat 65536 (pack sew entries + 2 ^ (dictSv sew * 2048) * pack (codeBits entries.length) codes) }

/-- A delta register of base and deltas (R87). -/
def mkDelta (sew base : Nat) (deltas : List Nat) (dw : BitVec 2) : VReg :=
  { VReg.reset with
    kind := .delta, esew := BitVec.ofNat 6 sew, k := 1, dw
    img := BitVec.ofNat 65536 (base % 2 ^ sew + 2 ^ 2048 * pack (dwBits dw) deltas) }

/-- The metadata word of R31. -/
def VReg.meta (r : VReg) : Nat :=
  r.full.toNat * 2 ^ 63 + r.dirty.toNat * 2 ^ 62 + r.pois.toNat * 2 ^ 61 +
    (match r.kind with | .plain => 0 | .runLength => 1 | .dictionary => 2 | .delta => 3) * 2 ^ 56 +
    r.tag.toNat * 2 ^ 48 + r.dw.toNat * 2 ^ 46 + r.cw.toNat * 2 ^ 42 + r.esew.toNat * 2 ^ 36 + r.k.toNat

def kindOf (w : Nat) : VKind := match nbits w 56 2 with | 0 => .plain | 1 => .runLength | 2 => .dictionary | _ => .delta

/-- Whether ends rise strictly from `prev` to `n` (R85). -/
def endsOk (n : Nat) : Nat → List Nat → Bool
  | prev, [] => prev == n
  | prev, e :: es => prev < e && endsOk n e es

/-- R89 on a metadata word and an image; `int` says whether the entry is of integer kind, `b` the width read in place of ESEW for a block. -/
def metaOk (w img vlmax esew : Nat) (int : Bool) : Bool :=
  let kind := kindOf w
  let k := nbits w 0 17
  let n := vlmax / esew
  let r : VReg := { VReg.reset with kind, esew := BitVec.ofNat 6 esew, k := BitVec.ofNat 17 k, dw := BitVec.ofNat 2 (nbits w 46 2), img := BitVec.ofNat 65536 img }
  nbits w 58 3 == 0 && nbits w 17 19 == 0 && nbits w 46 2 != 3 &&
    match kind with
    | .plain => k == 0 && nbits w 42 4 == 0
    | .runLength => 1 ≤ k && k ≤ runCap esew (vlmax / 2048) && endsOk n 0 ((regRuns r (vlmax / 2048)).map (·.1)) && nbits w 42 4 == 0
    | .dictionary => 1 ≤ k && k ≤ dictCap esew && nbits w 42 4 == codeBits k && (regCodes r vlmax).all (fun c => c < k)
    | .delta => int && k == 1 && dwBits (BitVec.ofNat 2 (nbits w 46 2)) < esew && nbits w 42 4 == 0

/-! What runs in the lanes. -/

/-- A queue entry with what its context fixes: the copies (R47, R70, R81) and the declaration. -/
structure Lane where
  cap : Cap
  pc : Word
  scalar : Word
  priv : BitVec 2
  noTrim : Bool
  eff : BitVec 2
  vstart : Nat
  /-- the element before which a pre-emption point stops it (R341) -/
  stop : Option Nat := none
  deriving DecidableEq, Repr

/-- The same instruction with VL cut where it is stopped, and ERULE.TD = 0: what it has done by then (R97, R341). -/
def Lane.cut (l : Lane) : Lane :=
  match l.stop with
  | some k => { l with cap := { l.cap with vl := BitVec.ofNat 64 k, erule := l.cap.erule &&& ~~~0x10 } }
  | none => l

def Lane.vlmax (l : Lane) : Nat := vlmaxOf l.eff

def Lane.slabs (l : Lane) : Nat := slabsOf l.eff

def Lane.count (l : Lane) : Nat := countOf l.eff

def Lane.vl (l : Lane) : Nat := l.cap.vl.toNat

/-- The word of a captured entry. -/
def Lane.ent (l : Lane) (n : Nat) : Word := entWord l.cap.ents n

def Lane.entNo (l : Lane) : Nat := wbits l.cap.vtype 0 4

def Lane.fmt (l : Lane) : Fmt := fmtOf (l.ent l.entNo)

def Lane.sew (l : Lane) : Nat := l.fmt.wid

/-- Elements of a register at a width (R28). -/
def Lane.nAt (l : Lane) (sew : Nat) : Nat := l.vlmax / sew

def Lane.n (l : Lane) : Nat := l.nAt l.sew

/-- ERULE fields (R94). -/
def Lane.mode (l : Lane) : Nat := wbits l.cap.erule 0 2

def Lane.mrg (l : Lane) : Bool := nbit l.cap.erule.toNat 3

def Lane.td (l : Lane) : Bool := nbit l.cap.erule.toNat 4

def Lane.eruleDw (l : Lane) : BitVec 2 := l.cap.erule.extractLsb' 6 2

/-- VM (R49). -/
def Lane.unmasked (l : Lane) : Bool := nbit l.cap.vm.toNat 3

def Lane.mreg (l : Lane) : Fin 8 := Fin.ofNat 8 (wbits l.cap.vm 0 3)

/-- Whether an element is Written (R90), given the mask register's bits. -/
def Lane.written (l : Lane) (mask : Nat) (e : Nat) : Bool := l.vstart ≤ e && e < l.vl && (l.unmasked || nbit mask e)

/-- Whether every one of `n` elements is Written (R90). -/
def Lane.whole (l : Lane) (mask n : Nat) : Bool :=
  l.vstart = 0 && n ≤ l.vl && (l.unmasked || mask % 2 ^ n == 2 ^ n - 1)

/-- Reads a mask register as a number. -/
def readMask (m : Fin 8) : M Nat := do
  let c ← getMe
  return c.m[m].toNat

/-- The active mask of an instruction. -/
def activeMask (l : Lane) : M Nat := readMask l.mreg

/-- The first read of a register awaiting lazy restore traps (R346). -/
def lazyCheck (r : Fin 32) : M Unit := do
  let c ← getMe
  if c.vc.vuse.getLsbD r.val then
    modMe fun c => { c with vc := { c.vc with vuse := c.vc.vuse &&& ~~~ (BitVec.ofNat 32 (2 ^ r.val)) } }
    trapN .lazyRestore r.val

/-- DecodeOperands on one source (R91, R32): lazy restore, the full/empty bit under fe, poison. -/
def decodeSource (r : Fin 32) (fe : Bool) : M Unit := do
  lazyCheck r
  let c ← getMe
  if !c.v[r].full then
    if fe then trapU .feEmpty else waitM
  if c.v[r].pois then trapU .retentionLoss

/-- DecodeOperands on a destination that is not written whole. -/
def decodeDest (r : Fin 32) (whole : Bool) : M Unit := do
  if whole then
    let c ← getMe
    if !c.v[r].full then waitM
  else
    lazyCheck r
    let c ← getMe
    if !c.v[r].full then waitM
    if c.v[r].pois then trapU .retentionLoss

/-- A register's view at a width, after DecodeOperands; a dead register reads zero (R35). -/
def sourceView (c : Ctx) (r : Fin 32) (sew : Nat) : View :=
  if c.vc.vlive.getLsbD r.val then viewOf c.v[r] c.vlmax sew else View.plain (List.replicate (c.vlmax / sew) 0)

/-- A destination's old value: one run of zeros when it is dead (R90). -/
def oldView (c : Ctx) (r : Fin 32) (sew : Nat) : View :=
  if c.vc.vlive.getLsbD r.val then viewOf c.v[r] c.vlmax sew else View.zeroRun (c.vlmax / sew)

/-- Writes a vector register: full, dirty, live, not poisoned, no longer awaiting restore (R31, R35, R36, R346). -/
def putV (c : Ctx) (r : Fin 32) (x : VReg) (full : Bool := true) : Ctx :=
  let bit := BitVec.ofNat 32 (2 ^ r.val)
  { c with
    v := c.v.set r { x with full, dirty := true, pois := false }
    deadTails := c.deadTails.filter fun d => d.1 != r.val
    vc := { c.vc with vlive := c.vc.vlive ||| bit, vdirty := c.vc.vdirty ||| bit, vuse := c.vc.vuse &&& ~~~ bit } }

/-- The first slab of a result that holds no element below a VL: its tail slabs begin there. -/
def tailSlab (vl sew : Nat) : Nat := (vl * sew + 2047) / 2048

/-- Where the tail slabs of a result begin under ERULE.TD (R94). -/
def Lane.tail (l : Lane) (sew : Nat) : Option Nat := if l.td then some (tailSlab l.vl sew) else none

/-- Writes a result. Under TD the tail slabs of a plain one are dead from `tail` on (R35, R94). -/
def putRes (c : Ctx) (r : Fin 32) (x : VReg) (tail : Option Nat) (full : Bool := true) : Ctx :=
  let c := putV c r x full
  match tail with
  | some k => if x.kind == .plain then { c with deadTails := (r.val, k) :: c.deadTails } else c
  | none => c

/-- Writes mask bits. -/
def putMask (c : Ctx) (m : Fin 8) (x : Nat) : Ctx := { c with m := c.m.set m (BitVec.ofNat 16384 x) }

/-! Segments and the dispatcher (R91, R92). -/

/-- The form a result is computed in (R92). -/
inductive Form where
  | plain | base | entrywise | segmented
  deriving DecidableEq, Repr

/-- A source of an element-wise operation: a vector or a constant. -/
inductive Src where
  | vec (r : Nat) (v : View)
  | const (c : Nat)
  deriving DecidableEq, Repr

def Src.at (s : Src) (e : Nat) : Nat := match s with | .vec _ v => v.at e | .const c => c

/-- What a source supplies for dictionary entry `d`: the bits its value area holds there (R92). -/
def Src.entry (sew d : Nat) (s : Src) : Nat := match s with | .vec _ v => nbits v.img (d * sew) sew | .const c => c

/-- What a source supplies for a delta base (R92). -/
def Src.base (s : Src) : Nat := s.at 0

/-- The vector sources. -/
def srcViews (l : List Src) : List View := l.filterMap fun s => match s with | .vec _ v => some v | .const _ => none

/-- The lowest-numbered vector source, whose codes an entrywise result takes (R88, R92). -/
def lowestSrc : List Src → Option (Nat × View)
  | [] => none
  | .const _ :: l => lowestSrc l
  | .vec r v :: l =>
    match lowestSrc l with
    | none => some (r, v)
    | some (q, w) => if q < r then some (q, w) else some (r, v)

/-- Inserts a cut in rising order, once. -/
def insertCut (a : Nat) : List Nat → List Nat
  | [] => [a]
  | b :: l => if a < b then a :: b :: l else if a = b then b :: l else b :: insertCut a l

/-- Merges rising lists of cuts. -/
def mergeCuts : Nat → List Nat → List Nat → List Nat
  | 0, _, l => l
  | _, [], l => l
  | _, l, [] => l
  | f + 1, a :: as, b :: bs => if a < b then a :: mergeCuts f as (b :: bs) else if b < a then b :: mergeCuts f (a :: as) bs else a :: mergeCuts f as bs

/-- Where a mask changes below `n` (R92). -/
def maskChanges (mask n : Nat) : List Nat := changesFrom 0 (unpack 1 n mask)

/-- The intervals between consecutive cuts. -/
def intervals : List Nat → List (Nat × Nat)
  | a :: b :: l => (a, b) :: intervals (b :: l)
  | _ => []

/-- The form of SegmentMerge (R92). -/
def mergeForm (whole baseOnly : Bool) (vdLivePlain : Bool) (vs : List View) : Form :=
  if vs.any (fun v => v.kind == .plain) then .plain
  else if vs.any (fun v => v.kind == .delta) then (if baseOnly && whole then .base else .plain)
  else if whole && vs.all (fun v => v.kind == .dictionary) && (vs.map (·.tag)).eraseDups.length == 1 then .entrywise
  else if !whole && vdLivePlain then .plain
  else .segmented

/-- The segments of the SEGMENTED form over `n` elements (R92); under ERULE.TD the tail is one segment (R94). -/
def mergeSegs (l : Lane) (whole : Bool) (mask n : Nat) (vs : List View) (old : View) : List (Nat × Nat) :=
  let c0 := insertCut 0 (insertCut (min l.vstart n) (insertCut (min l.vl n) (insertCut n [])))
  let m (a b : List Nat) : List Nat := mergeCuts (a.length + b.length) a b
  let c1 := vs.foldl (fun c v => m c (v.ends.filter (· ≤ n))) c0
  let c2 := if l.unmasked then c1 else m c1 (maskChanges mask n)
  let c3 := if whole then c2 else m c2 (old.ends.filter (· ≤ n))
  intervals (if l.td then c3.filter (fun e => e ≤ min l.vl n || e == n) else c3)

/-! Encoding results (R93). -/

/-- Maximal runs of equal elements: ends and values. -/
def runsOf : Nat → List Nat → List (Nat × Nat)
  | _, [] => []
  | e, a :: l =>
    match runsOf (e + 1) l with
    | [] => [(e + 1, a)]
    | (x, b) :: rs => if a = b then (x, b) :: rs else (e + 1, a) :: (x, b) :: rs

/-- Joins neighbouring runs with equal values (ERULE.MRG). -/
def joinRuns : List (Nat × Nat) → List (Nat × Nat)
  | [] => []
  | (e, a) :: l =>
    match joinRuns l with
    | [] => [(e, a)]
    | (x, b) :: rs => if a = b then (x, b) :: rs else (e, a) :: (x, b) :: rs

/-- A plain result, or a compact one under MODE = 2 (R93). -/
def encodeElems (l : Lane) (sew : Nat) (elems : List Nat) : VReg :=
  if l.mode = 2 then
    let rs := runsOf 0 elems
    if rs.length ≤ runCap sew l.slabs / 2 then mkRuns sew l.slabs rs else mkPlain sew elems
  else mkPlain sew elems

/-- A SEGMENTED result (R93): run ends and values. -/
def encodeSegs (l : Lane) (sew : Nat) (rs : List (Nat × Nat)) : VReg :=
  let elems := expandRuns 0 rs
  if l.mode = 1 then mkPlain sew elems
  else
    let rs := if l.mrg then joinRuns rs else rs
    if rs.length ≤ runCap sew l.slabs then mkRuns sew l.slabs rs else encodeElems l sew elems

/-- An ENTRYWISE result (R93): new entries under the source's codes and tag. -/
def encodeEntries (l : Lane) (sew : Nat) (vals codes : List Nat) (tag : Nat) : VReg :=
  let elems := codes.map fun c => vals.getD c 0
  if l.mode = 1 then mkPlain sew elems
  else if vals.length ≤ dictCap sew then mkDict sew vals codes tag
  else encodeElems l sew elems

/-- A BASE result (R93): new base, same deltas. -/
def encodeBase (l : Lane) (sew base : Nat) (deltas : List Nat) (dw : BitVec 2) : VReg :=
  if l.mode = 1 then mkPlain sew (expandDeltas sew (dwBits dw) base deltas) else mkDelta sew base deltas dw

/-- The lowest tag from 1 to 255 that no vector register of the context carries (R88). -/
def newTag (c : Ctx) : Nat :=
  let used := (c.v.toList.filter fun r => r.kind == .dictionary).map fun r => r.tag.toNat
  match (List.range 255).find? fun i => !used.contains (i + 1) with
  | some i => i + 1
  | none => 255

end Sys2Proof.Machine
end

