-- ==== Sys2Proof/Machine/Branch.lean ====
section
/-! DEFINITION. Branches, jumps and STRIP (R149 to R154). -/

namespace Sys2Proof.Machine

/-- A target `n` words from an address. -/
def wordTarget (pc : Word) {w : Nat} (off : BitVec w) : Word := pc + off.signExtend 64 * 4

/-- Whether BR's condition holds (R149). FULL and EMPTY sample the bit and read no value. -/
def branchHolds (f : BForm) : M Bool := do
  let c ← getMe
  match f.cond with
  | .full => return c.isFull f.sa
  | .empty => return !c.isFull f.sa
  | k =>
    let a ← readS f.sa
    let b ← readS f.sb
    match k with
    | .eq => return a == b
    | .ne => return a != b
    | .lt => return a.slt b
    | .ge => return !a.slt b
    | .ltu => return a.ult b
    | _ => return !a.ult b

/-- BR (R149, R150). -/
def execBr (f : BForm) (s : State) : Out :=
  scalarTo (do
    let b ← branchHolds f
    let c ← getMe
    return if b then wordTarget c.pc f.off else c.pc + 4) s

/-- JAL (R151): the link goes to s31. -/
def execJal (f : JForm) (s : State) : Out :=
  scalarTo (do
    let c ← getMe
    writeS 31 (c.pc + 4)
    return wordTarget c.pc f.off) s

/-- JALR (R151): PC_ALIGN writes no link. -/
def execJalr (f : IForm) (s : State) : Out :=
  scalarTo (do
    let a ← readS f.sa
    let t := a + f.imm.signExtend 64
    need (wbits t 0 2 == 0) .pcAlign t
    let c ← getMe
    writeS f.sd (c.pc + 4)
    return t) s

/-- The loads that can trim VL (R154). -/
def trims : Instr → Bool
  | .vld _ | .vldb _ | .vldseg _ | .vlde _ | .vgath _ | .vgathp _ => true
  | _ => false

/-- Waits until every earlier trimming load has fixed its granted length (R154). -/
def awaitTrim : M Unit := do
  let c ← getMe
  waitUnless (!c.queue.any fun e => trims e.instr && !e.noTrim)

/-- The pointers STRIP selects, which it moves by the granted length times VS (R152). -/
def stripPointers (f : PForm) : List (Fin 32) :=
  (List.range 4).filterMap fun i => if f.pmask.getLsbD i then some (Fin.ofNat 32 (4 * f.pg.val + i)) else none

/-- Lim of the VTYPE entry; ENTRY_INVALID when it is invalid (R58, R152, R168). -/
def needLim : M Nat := do
  let c ← getMe
  needN c.vtFmt.valid .entryInvalid (wbits c.vc.vtype 0 4)
  return c.lim

/-- Lane groups that lie wholly at or above a VL (R402). -/
def idleGroups (vl : Nat) : BitVec 4 := BitVec.ofNat 4 (15 / 2 ^ ((vl + 15) / 16) * 2 ^ ((vl + 15) / 16))

/-- VL and VSHAPE as STRIP, VSETL and VSHAPE write them; the lane groups left idle are due for retention (R402). -/
def Ctx.putVl (c : Ctx) (vl shape : Word) : Ctx :=
  { c with vc := { c.vc with vl, vshape := shape }, retDue := idleGroups vl.toNat, retAt := c.vIn }

/-- STRIP (R152, R153). -/
def execStrip (f : PForm) (s : State) : Out :=
  scalarTo (do
    awaitTrim
    let lim ← needLim
    let n ← readS f.sn
    forM' (stripPointers f) awaitS
    let c ← getMe
    let gv := c.vc.vl
    forM' (stripPointers f) fun p => do
      let v ← readS p
      writeS p (v + gv * c.vc.vs)
    let rem := if n.ult gv then 0 else n - gv
    writeS f.sn rem
    modMe fun c => c.putVl (BitVec.ofNat 64 (min rem.toNat lim)) 0
    return if rem = 0 then c.pc + 4 else wordTarget c.pc f.off) s

end Sys2Proof.Machine
end

