-- ==== Sys2Proof/Machine/Flags.lean ====
section
/-! DEFINITION. What computing elements leaves besides their values: FCSR flags (R69 to R71), saturation counts (R75), the stochastic generator (R68), the x modifier's mask (R99); and ElementWise (R91), which gathers them. -/

namespace Sys2Proof.Machine

/-- What the segments computed so far have raised. -/
structure Raised where
  flags : Nat
  sats : Nat
  seed : BitVec 32
  /-- bits of Written elements whose segment raised a selected class -/
  xset : Nat
  deriving DecidableEq, Repr

def Raised.start (seed : BitVec 32) : Raised := { flags := 0, sats := 0, seed, xset := 0 }

/-- Bits `a` to `b - 1`. -/
def span (a b : Nat) : Nat := 2 ^ b - 2 ^ a

/-- Adds what a segment raised: `count` active elements, the elements' bits, the classes XSEL selects (R71, R75, R99). -/
def Raised.add (r : Raised) (c : Coded) (count bits xsel : Nat) : Raised :=
  { flags := r.flags ||| c.flags, sats := r.sats + (if c.sat then count else 0), seed := c.seed
    xset := if c.flags &&& xsel != 0 then r.xset ||| bits else r.xset }

/-- Adds to SATCNT, which holds at its maximum (R45, R75). -/
def addSat (c : Word) (n : Nat) : Word := BitVec.ofNat 64 (min (c.toNat + n) (2 ^ 64 - 1))

/-- FLAGS, SATCNT and SEED after an instruction (R68, R71, R75). -/
def applyRaised (c : Ctx) (r : Raised) : Ctx :=
  { c with fc := { c.fc with flags := c.fc.flags ||| BitVec.ofNat 5 r.flags, satcnt := addSat c.fc.satcnt r.sats, seed := r.seed } }

/-- The bits of the Written elements (R90). -/
def writtenBits (l : Lane) (mask n : Nat) : Nat :=
  let v := min l.vl n
  if l.vstart < v then span l.vstart v &&& (if l.unmasked then 2 ^ n - 1 else mask) else 0

/-- The x modifier: a bit for every Written element of the register XMR names (R99). -/
def applyX (c : Ctx) (l : Lane) (mask n : Nat) (r : Raised) : Ctx :=
  let m := Fin.ofNat 8 (wbits l.cap.xmr 0 3)
  let w := writtenBits l mask n
  putMask c m ((c.m[m].toNat ||| w) ^^^ w ||| (r.xset &&& w))

/-- A per-element function: the source codes and the generator give a code with its flags. -/
abbrev ElemFn := List Nat → BitVec 32 → Coded

/-- A code that raises nothing. -/
def pureCode (c : Nat) (seed : BitVec 32) : Coded := { code := c, flags := 0, sat := false, seed }

/-- Everything an element-wise operation works on. `old` is the destination's old value where it is not written whole. -/
structure Ew where
  l : Lane
  /-- width of the sources -/
  ssew : Nat
  /-- width and element count of the destination -/
  sew : Nat
  n : Nat
  mask : Nat
  whole : Bool
  srcs : List Src
  old : View
  baseOnly : Bool
  f : ElemFn
  xsel : Nat

/-- One segment's value and what it adds (R91). -/
def ewSeg (e : Ew) (acc : Raised) (seg : Nat × Nat) : Nat × Raised :=
  if e.l.written e.mask seg.1 then
    let c := e.f (e.srcs.map (·.at seg.1)) acc.seed
    (c.code, acc.add c (seg.2 - seg.1) (span seg.1 seg.2) e.xsel)
  else if e.l.vl ≤ seg.1 && e.l.td then (0, acc)
  else (e.old.at seg.1, acc)

/-- The segments' values in ascending order. -/
def ewSegs (e : Ew) : Raised → List (Nat × Nat) → List Nat × Raised
  | acc, [] => ([], acc)
  | acc, s :: ss =>
    let r := ewSeg e acc s
    let rest := ewSegs e r.2 ss
    (r.1 :: rest.1, rest.2)

/-- Dictionary entries in the order of draws: by first element, then the unused ones (R99). -/
def entryOrder (codes : List Nat) (k : Nat) : List Nat :=
  let used := codes.eraseDups
  used ++ (List.range k).filter fun d => !used.contains d

/-- Entry values in the given order. -/
def ewEntries (e : Ew) (codes : List Nat) : Raised → List Nat → List (Nat × Nat) × Raised
  | acc, [] => ([], acc)
  | acc, d :: ds =>
    let c := e.f (e.srcs.map (Src.entry e.ssew d)) acc.seed
    let bits := if c.flags &&& e.xsel != 0 then pack 1 (codes.map fun k => if k = d then 1 else 0) else 0
    let r := acc.add c (codes.count d) bits e.xsel
    let rest := ewEntries e codes r ds
    ((d, c.code) :: rest.1, rest.2)

/-- The values of a form's segments (R91, R92), before they are encoded. -/
inductive EwVals where
  | plain (elems : List Nat)
  | base (c : Nat) (deltas : List Nat) (dw : BitVec 2)
  | entries (vals codes : List Nat) (tag : Nat)
  | segs (rs : List (Nat × Nat))
  deriving DecidableEq, Repr

/-- SegmentMerge and the values of its segments, with what they raised (R91, R92). -/
def ewVals (e : Ew) (seed : BitVec 32) : EwVals × Raised :=
  let vs := srcViews e.srcs
  match mergeForm e.whole e.baseOnly (e.old.kind == .plain) vs with
  | .plain =>
    let r := ewSegs e (Raised.start seed) ((List.range e.n).map fun i => (i, i + 1))
    (.plain r.1, r.2)
  | .base =>
    let c := e.f (e.srcs.map Src.base) seed
    let v := vs.headD (View.plain [])
    (.base c.code v.deltas v.dw, (Raised.start seed).add c e.n (span 0 e.n) e.xsel)
  | .entrywise =>
    let v := (lowestSrc e.srcs).map (·.2) |>.getD (View.plain [])
    let codes := v.codes.take e.n
    let k := v.vals.length
    let r := ewEntries e codes (Raised.start seed) (entryOrder codes k)
    (.entries ((List.range k).map fun d => match r.1.find? (fun p => p.1 == d) with | some p => p.2 | none => 0) codes v.tag, r.2)
  | .segmented =>
    let segs := mergeSegs e.l e.whole e.mask e.n vs e.old
    let r := ewSegs e (Raised.start seed) segs
    (.segs ((segs.map (·.2)).zip r.1), r.2)

/-- EncodeResult (R93). -/
def ewEncode (l : Lane) (sew : Nat) : EwVals → VReg
  | .plain xs => encodeElems l sew xs
  | .base c ds dw => encodeBase l sew c ds dw
  | .entries vals codes tag => encodeEntries l sew vals codes tag
  | .segs rs => encodeSegs l sew rs

/-- The elements the values stand for, as a mask result expands them (R95). -/
def EwVals.elems (sew : Nat) : EwVals → List Nat
  | .plain xs => xs
  | .base c ds dw => expandDeltas sew (dwBits dw) c ds
  | .entries vals codes _ => codes.map fun c => vals.getD c 0
  | .segs rs => expandRuns 0 rs

/-- The new destination and what was raised (R91 to R93). -/
def ewRun (e : Ew) (seed : BitVec 32) : VReg × Raised :=
  let r := ewVals e seed
  (ewEncode e.l e.sew r.1, r.2)

/-- VSTART := 0 (R91). -/
def clearVstart : M Unit := modMe fun c => { c with vc := { c.vc with vstart := 0 } }

def setVstart (e : Nat) : M Unit := modMe fun c => { c with vc := { c.vc with vstart := BitVec.ofNat 64 e } }

/-- An instruction stopped for a pre-emption point resumes at the next element (R341). -/
def splitEnd (l : Lane) : M Unit :=
  match l.stop with
  | none => pure ()
  | some k => do
    setVstart k
    throw .split

/-- ElementWise (R91). `ssew` is the sources' width, `sew` the destination's, `x` the x modifier; `prep` forms the sources once DecodeOperands has passed. -/
def elementWise (l : Lane) (vd : Fin 32) (ssew sew : Nat) (x baseOnly : Bool) (sources : List (Fin 32 × Bool)) (prep : Ctx → List Src) (f : ElemFn) : M Unit := do
  let l := l.cut
  let mask ← activeMask l
  let n := l.nAt sew
  let whole := l.whole mask n
  forM' sources fun s => decodeSource s.1 s.2
  decodeDest vd whole
  if l.vstart ≥ l.vl then clearVstart
  else
    let c ← getMe
    let e : Ew := { l, ssew, sew, n, mask, whole, srcs := prep c, old := if whole then View.plain [] else oldView c vd sew, baseOnly, f, xsel := l.cap.xsel.toNat }
    let r := ewRun e c.fc.seed
    modMe fun c =>
      let c := applyRaised (putRes c vd r.1 (l.tail sew)) r.2
      let c := if x then applyX c l mask n r.2 else c
      { c with vc := { c.vc with vstart := 0 } }
    splitEnd l

/-- A mask of `n` bits over an old one, whose bits from `n` up stay (R30). -/
def overMask (old n : Nat) (bits : List Nat) : Nat := old / 2 ^ n * 2 ^ n + pack 1 bits

/-- ElementWise with a mask for its destination (R174): the values of R92's segments expanded into the bitmap (R95), whose old bits enter as a plain value (R30). `f` gives 0 or 1. -/
def maskWise (l : Lane) (md : Fin 8) (ssew : Nat) (sources : List (Fin 32 × Bool)) (prep : Ctx → List Src) (f : ElemFn) : M Unit := do
  let l := l.cut
  let mask ← activeMask l
  let n := l.nAt ssew
  forM' sources fun s => decodeSource s.1 s.2
  if l.vstart ≥ l.vl then clearVstart
  else
    let c ← getMe
    let old := c.m[md].toNat
    let e : Ew := { l, ssew, sew := 1, n, mask, whole := l.whole mask n, srcs := prep c, old := View.plain (unpack 1 n old), baseOnly := false, f, xsel := 0 }
    let r := ewVals e c.fc.seed
    modMe fun c =>
      let c := applyRaised (putMask c md (overMask old n (r.1.elems 1))) r.2
      { c with vc := { c.vc with vstart := 0 } }
    splitEnd l

end Sys2Proof.Machine
end

