-- ==== Sys2Proof/Machine/Flight.lean ====
section
/-! DEFINITION. What a context has in flight, and its landing: scalar values (R26, R148, R348), vector loads (R349), fills of operand slots (R207, R210), operations of the array and signals (R221, R247). -/

namespace Sys2Proof.Machine

/-! Scalar and vector values. -/

/-- The oldest value in flight to a scalar register lands; a poisoned one leaves it empty and stops the context. -/
def landScalar (c : CtxId) (r : Fin 32) (s : State) : State :=
  let x := s.ctx c
  match x.land.find? fun l => l.dst == r with
  | none => s
  | some l =>
    let s1 := s.modCtx c fun x => { x with land := x.land.filter fun k => k != l }
    match l.poison with
    | none => s1.modCtx c fun x => x.sset r l.value
    | some pa => raise s1 c .memUe x.pc x.pc (Config.tval s.tick) (BitVec.ofNat 64 pa) false

/-- The trim that a poisoned landing makes: an element above the first Written one, of a load whose granted length still stands in VL (R348; log 55). -/
def landTrim (x : Ctx) (k : VLanding) : Option LandTrim :=
  match k.trim with
  | some t => if x.retAt < k.entry.num && (x.vc.vl.toNat == k.granted || x.vc.vl.toNat == t.elem) then some t else none
  | none => none

/-- The stream of a trimmed load stands where the trim leaves it, unless it has moved since. -/
def LandTrim.seek (t : LandTrim) (x : Ctx) : Ctx :=
  match t.pos with
  | some (q, left, now) => if (x.q[q]).pos == left then { x with q := x.q.set q { x.q[q] with pos := now } } else x
  | none => x

/-- A value in flight to a vector register lands. One that a fenced link has poisoned trims its load at the first poisoned element, or leaves the register empty and stops the context (R348, R349). -/
def landVector (c : CtxId) (r : Fin 32) (s : State) : State :=
  let x := s.ctx c
  let s1 := s.modCtx c fun x => { x with vland := x.vland.filter fun l => l.dst != r.val, laneHeld := false }
  match x.vland.find? fun l => l.dst == r.val with
  | none => s1.modCtx c fun x => { x with v := x.v.set r { x.v[r] with full := true } }
  | some k =>
    match k.poison, landTrim x k with
    | none, _ => s1.modCtx c fun x => { x with v := x.v.set r { x.v[r] with full := true } }
    | some _, some t => s1.modCtx c fun x =>
        t.seek { x with v := x.v.set r { t.reg.getD x.v[r] with full := true }, vc := { x.vc with vl := BitVec.ofNat 64 t.elem } }
    | some pa, none => raise s1 c .memUe x.pc x.pc (Config.tval s.tick) (BitVec.ofNat 64 pa) false

/-! Uses of operand slots. -/

/-- The next slot, the odd member of a double. -/
def slotNext (s : Fin 32) : Fin 32 := Fin.ofNat 32 (s.val + 1)

/-- The slots MCLAIM and MREL act on. -/
def claimSet (n : Fin 32) (dbl : Bool) : List (Fin 32) := if dbl then [n, slotNext n] else [n]

/-- The slots an operation of the array reads. -/
def slotsRead : Instr → List (Fin 32)
  | .mma f | .mslide f => [f.slotA, f.slotB]
  | .mmas f => [f.slotA, slotNext f.slotA, f.slotB, slotNext f.slotB]
  | .mprom f => [f.slotA, f.slotB]
  | _ => []

/-- The follow-on word of a TCOPYM (R231). -/
def followWord (c : TugCmd) : Nat := blkField c.block 0x58 4

/-- Slots a follow-on reads: its two operands, and for MMAS their index members. -/
def followSlots (c : TugCmd) : List (Fin 32) :=
  if c.fn = 1 then
    match decode (followWord c) with
    | .ok i => slotsRead i
    | .error _ => []
  else []

/-- Slots a Tug command fills, or reads by a follow-on still to be accepted (R230, R237). -/
def tugSlots (c : TugCmd) : List (Fin 32) :=
  (if (cmdDkind c.block = 1 && c.fn < 6) || c.fn = 5 then [Fin.ofNat 32 (cmdDst c.block)] else []) ++ (if c.followed then [] else followSlots c)

/-- A place in a context's program order: a vector instruction, or the Tug command of a follow-on. -/
inductive Place where
  | entry (num : Nat)
  | cmd (after seq : Nat)
  deriving DecidableEq, Repr

/-- Whether a Tug command comes before a place. -/
def TugCmd.before' (k : TugCmd) (p : Place) : Bool :=
  match p with
  | .entry n => k.after < n
  | .cmd _ q => k.seq < q

/-! Fills of operand slots. -/

/-- The operand slot whose data a Tug command fills (R231, R236). -/
def dataFill (c : TugCmd) : Option (Fin 32) := if cmdDkind c.block = 1 && c.fn != 5 && c.fn < 6 then some (Fin.ofNat 32 (cmdDst c.block)) else none

/-- Tug commands of a context that are not complete. -/
def ctxCmds (s : State) (c : CtxId) : List TugCmd := s.tugs.flatMap fun t => t.2.queue.filter fun k => k.issuer == some c && k.sig.isNone

/-- Fills of a slot's data that have not landed whole. -/
def openFills (s : State) (c : CtxId) (n : Fin 32) : List TugCmd := (ctxCmds s c).filter fun k => dataFill k == some n && !k.finished

/-- The operand slot whose side area a TQSC fills (R236). -/
def sideFill (c : TugCmd) : Option (Fin 32) := if c.fn = 5 then some (Fin.ofNat 32 (cmdDst c.block)) else none

/-- Scale fills of a slot by Tug commands that have not landed whole. -/
def openScales (s : State) (c : CtxId) (n : Fin 32) : List TugCmd := (ctxCmds s c).filter fun k => sideFill k == some n && !k.finished

/-- A command whose slot has become full before it. -/
def TugCmd.settled (k : TugCmd) : TugCmd := { k with before := some .full }

/-- A slot's data has landed: fills still to come find it full (R207). -/
def settleFills (s : State) (c : CtxId) (n : Fin 32) : State :=
  let hit (k : TugCmd) : Bool := (k.issuer == some c) && (dataFill k == some n) && !k.finished
  if (openFills s c n).isEmpty then s
  else { s with tugs := s.tugs.map fun t => (t.1, { t.2 with queue := t.2.queue.map fun k => if hit k then k.settled else k }) }

/-- Whether anything earlier of a context in flight uses a slot: a fill, an operation of the array, a Tug command (R209). -/
def slotBusy (s : State) (c : CtxId) (n : Fin 32) (p : Place) : Bool :=
  let k := s.core c.core.val
  k.slots[n].mld ||
    k.arr.ops.any (fun o => o.lc == c.lc && (match o.entry with | some e => (slotsRead e.instr).contains n | none => false)) ||
    (ctxCmds s c).any fun q => q.before' p && (tugSlots q).contains n

/-- Frees slots (R207). -/
def freeThese (ns : List (Fin 32)) (c : Core) : Core :=
  { c with slots := ns.foldl (fun (l : Vector Slot 32) (n : Fin 32) => l.set n { l[n] with st := .free, dbl := false }) c.slots }

/-- The slots a waiting MREL frees. -/
def relSlots (k : Core) (e : QEntry) : List (Fin 32) :=
  match e.instr with
  | .mrel f => claimSet f.slot (k.slots[f.slot]).dbl
  | _ => []

/-- Whether a slot awaits its release by an MREL (R209). -/
def awaitsRelease (s : State) (c : CtxId) (n : Fin 32) : Bool := (s.ctx c).rels.any fun e => (relSlots (s.core c.core.val) e).contains n

/-- The MRELs of a context whose slots nothing earlier uses any more take effect (R209). -/
def settleRels (s : State) (c : CtxId) : State :=
  (s.ctx c).rels.foldl (fun s e =>
    let ns := relSlots (s.core c.core.val) e
    if ns.any fun n => slotBusy s c n (.entry e.num) then s
    else (s.modCore c.core.val (freeThese ns)).modCtx c fun x => { x with rels := x.rels.filter fun r => r.num != e.num }) s

/-- The last line of an MLD lands in a slot. Lines that a fenced link has poisoned end the load at the first of them, as a fault there does (R210, R348); poisoned in its first line, it leaves the slot claimed and stops the context (log 55). -/
def landSlot (core : Fin 1024) (n : Fin 32) (s : State) : State :=
  let k := (s.core core.val).slots[n]
  if k.mld then
    let c : CtxId := { core, lc := k.owner }
    let x := s.ctx c
    let still := !(openFills s c n).isEmpty
    let put (s : State) (k : Slot) (st : SlotState) : State :=
      settleFills (s.modCore core.val fun z => { z with slots := z.slots.set n { k with mld := false, st := if still then k.st else st } }) c n
    match x.vland.find? fun l => l.dst == 32 + n.val with
    | none => put s k .full
    | some g =>
      let s := s.modCtx c fun x => { x with vland := x.vland.filter fun l => l != g }
      match g.poison, g.trim with
      | none, _ => put s k .full
      | some _, some t =>
        let s := s.modCtx c fun x => t.seek { x with fc := { x.fc with mrows := if x.fc.mrows.toNat = k.rows then BitVec.ofNat 64 t.elem else x.fc.mrows } }
        put s { k with rows := t.elem, data := BitVec.ofNat 65536 (k.data.toNat % 2 ^ (1024 * t.elem)) } .full
      | some pa, none => raise (put s { k with rows := 0 } .claimed) c .memUe x.pc x.pc (Config.tval s.tick) (BitVec.ofNat 64 pa) false
  else s

/-! Signals and the array. -/

/-- Vector and matrix instructions of a context that have not completed and not been handed to the array. -/
def Ctx.unrun (x : Ctx) : List QEntry := x.rels ++ x.kept ++ x.queue

/-- Whether a signal's earlier accesses and engine commands have been performed (R247). -/
def sigReady (s : State) (w : SigWait) : Bool :=
  w.tugs.all (fun e => !(tabGet Tug.reset s.tugs e.1).queue.any fun k => k.num == e.2) &&
  w.walks.all (fun e => !(tabGet Walk.reset s.walks e.1).queue.any fun k => k.num == e.2) &&
  w.arr ≤ (s.core w.ctx.core.val).arr.done && (s.ctx w.ctx).unrun.all fun e => w.vec < e.num

/-- Operations that have completed before their turn: those that trapped (R221). -/
def MArray.pass (a : MArray) : MArray :=
  match a.ops with
  | o :: rest => if o.fin then { a with ops := rest.dropWhile (·.fin), done := (rest.takeWhile (·.fin)).foldl (fun _ p => p.num) o.num } else a
  | [] => a

/-- The oldest operation of an array completes when it can. -/
def arrayNext (core : Fin 1024) (s : State) : State :=
  let a := (s.core core.val).arr
  match a.ops with
  | [] => s
  | o :: rest =>
    let ready := match o.sig with | some g => sigReady s g | none => true
    if ready then s.modCore core.val fun k => { k with arr := MArray.pass { a with ops := rest, done := o.num } } else s

/-- Completes the operations the array has accepted of a context, and those before them. -/
def drainArray (c : CtxId) : Nat → State → State
  | 0, s => s
  | n + 1, s => if (s.core c.core.val).arr.ops.any (fun o => o.lc == c.lc) then drainArray c n (arrayNext c.core s) else s

/-- What is in flight to a context lands, and the operations the array has accepted of it complete (R341 steps 1 to 3). -/
def landCtx (s : State) (c : CtxId) : State :=
  let s := (s.ctx c).land.foldl (fun s l => landScalar c l.dst s) s
  let s := (List.finRange 32).foldl (fun s r => if (s.ctx c).v[r].full then s else landVector c r s) s
  let s := s.modCtx c fun x => { x with gather := [], readPages := [] }
  let s := (List.finRange 32).foldl (fun s n => if ((s.core c.core.val).slots[n]).mld && ((s.core c.core.val).slots[n]).owner == c.lc then landSlot c.core n s else s) s
  drainArray c (s.core c.core.val).arr.ops.length s

end Sys2Proof.Machine
end

