-- ==== Sys2Proof/Machine/Slabs.lean ====
section
/-! DEFINITION. What a queued vector or matrix instruction needs of the core: the registers it names (R121 step 6), its slabs in the vector register file and their eviction (R30, R33 to R35, R309), and its lane groups (R36, R402, R403). -/

namespace Sys2Proof.Machine

/-- The copies an entry takes as it enters (R47, R70, R81). -/
def capture (c : Ctx) : Cap :=
  { vl := c.vc.vl, vshape := c.vc.vshape, vtype := c.vc.vtype, vm := c.vc.vm, vs := c.vc.vs, xmr := c.vc.xmr, erule := c.vc.erule
    rmo := c.fc.rmo, xsel := c.fc.xsel, ents := c.ents }

/-- What an instruction asks of its issue: the vector registers it names, the scalar register it reads, the scalar register it writes. -/
structure Issue where
  regs : List Nat
  reads : Option (Fin 32)
  writes : Option (Fin 32)

/-- The vector registers a second source names. -/
def vsrcNums : VSrc → List Nat
  | .vec r _ => [r.val]
  | .sca _ => []

/-- The scalar register a second source reads. -/
def vsrcScalar : VSrc → Option (Fin 32)
  | .vec _ _ => none
  | .sca r => some r

/-- How mask logic issues. -/
def noRegs : Issue := { regs := [], reads := none, writes := none }

/-- How a VB form issues. -/
def vbIssue (f : VB) : Issue := { regs := [f.vd.val, f.va.val] ++ vsrcNums f.b, reads := vsrcScalar f.b, writes := none }

/-- How a VUX form issues. -/
def vuxIssue (f : VUX) : Issue := { regs := [f.vd.val, f.va.val], reads := none, writes := none }

/-- How a comparison issues. -/
def cmpIssue (f : VCmpForm) : Issue := { regs := [f.va.val] ++ vsrcNums f.b, reads := vsrcScalar f.b, writes := none }

/-- How a VU form issues. -/
def vuIssue (f : VU) : Issue := { regs := [f.vd.val, f.va.val], reads := none, writes := none }

/-- How a reduction issues. -/
def reduceIssue (f : VS) : Issue := { regs := [f.va.val], reads := some f.sb, writes := some f.vd }

/-- How a form with a scalar base issues. -/
def baseIssue (regs : List Nat) (f : VS) : Issue := { regs := f.va.val :: regs, reads := some f.sb, writes := none }

/-- Registers of a segment instruction. -/
def segRegs (v nf : Nat) : List Nat := (List.range (nf + 1)).map fun i => v + i

/-- The register an indirect source names. -/
def vidxReg (si : Word) : Fin 32 := Fin.ofNat 32 (wbits si 0 5)

/-- The vector registers VIDX names: vd, vb where it names one, and, once si is full, the indirect one. -/
def vidxRegs (c : Ctx) (f : VIdxForm) : List Nat :=
  [f.vd.val] ++ (if f.fn.val == 15 || vidxUnary f.fn.val then [] else [f.vb.val]) ++
    (if c.isFull f.si then [(vidxReg (c.sget f.si)).val] else [])

/-- m of R228: how many wide codes a group holds per narrow register; none when it is not 2, 4 or 8 or an entry is block-scaled. -/
def packRatio (wide narrow : Fmt) : Option Nat :=
  let m := wide.wid / narrow.wid
  if m * narrow.wid = wide.wid && (m == 2 || m == 4 || m == 8) && wide.bsk == 0 && narrow.bsk == 0 then some m else none

/-- Registers a pack names, with its group when the entries allow one (R228). -/
def packRegs (c : Ctx) (ent : Fin 16) (group single : Fin 32) : List Nat :=
  match packRatio c.vtFmt (fmtOf (entWord c.ents ent.val)) with
  | some m => single.val :: (List.range m).map fun i => group.val + i
  | none => [single.val, group.val]

/-- What an instruction of the queue asks of its issue. -/
def laneIssue (c : Ctx) : Instr → Issue
  | .vadd f => vbIssue f
  | .vsub f => vbIssue f
  | .vmul f => vbIssue f
  | .vmulh f => vbIssue f
  | .vmacc f => vbIssue f
  | .vand f => vbIssue f
  | .vor f => vbIssue f
  | .vxor f => vbIssue f
  | .vsll f => vbIssue f
  | .vsrl f => vbIssue f
  | .vsra f => vbIssue f
  | .vmin f => vbIssue f
  | .vmax f => vbIssue f
  | .vsadd f => vbIssue f
  | .vssub f => vbIssue f
  | .vzsub f => { regs := [f.vd.val, f.va.val], reads := none, writes := none }
  | .vfadd f => vbIssue f
  | .vfsub f => vbIssue f
  | .vfmul f => vbIssue f
  | .vfma f => vbIssue f
  | .vfnms f => vbIssue f
  | .vfdiv f => vbIssue f
  | .vfsqrt f => vuxIssue f
  | .vfmin f => vbIssue f
  | .vfmax f => vbIssue f
  | .vfabs f => vuxIssue f
  | .vfneg f => vuxIssue f
  | .vfrec f => vuxIssue f
  | .vfrsq f => vuxIssue f
  | .vfexp2 f => vuxIssue f
  | .vidx f => { regs := vidxRegs c f, reads := some f.si, writes := none }
  | .vceq f => cmpIssue f
  | .vcne f => cmpIssue f
  | .vclt f => cmpIssue f
  | .vcle f => cmpIssue f
  | .vcltu f => cmpIssue f
  | .vfceq f => cmpIssue f
  | .vfclt f => cmpIssue f
  | .vfcle f => cmpIssue f
  | .vfcun f => cmpIssue f
  | .vband f => cmpIssue f
  | .mand _ => noRegs
  | .mor _ => noRegs
  | .mxor _ => noRegs
  | .mnot _ => noRegs
  | .mpop f => { noRegs with writes := some f.sd }
  | .mfirst f => { noRegs with writes := some f.sd }
  | .vcvt f => { regs := [f.vd.val, f.va.val], reads := none, writes := none }
  | .vqnt f => { regs := [f.vd.val, f.va.val, f.vb.val], reads := none, writes := none }
  | .vdqnt f => { regs := [f.vd.val, f.va.val, f.vb.val], reads := none, writes := none }
  | .vamax f => { regs := [f.va.val], reads := none, writes := none }
  | .vscl f => { noRegs with writes := some f.sd }
  | .vunpk f => { regs := packRegs c f.ent f.vd f.va, reads := none, writes := none }
  | .vpack f => { regs := packRegs c f.ent f.va f.vd, reads := none, writes := none }
  | .vencr f => vuIssue f
  | .vencd f => vuIssue f
  | .venct f => vuIssue f
  | .vdec f => vuIssue f
  | .vrenc f => vuIssue f
  | .vencq f => { regs := [f.vd.val, f.va.val, f.vb.val], reads := none, writes := none }
  | .vdictExtract f => vuIssue f
  | .vdictReplace f => { regs := [f.vd.val, f.va.val, f.vb.val], reads := none, writes := none }
  | .vslup f => { regs := [f.vd.val, f.va.val], reads := some f.sb, writes := none }
  | .vsldn f => { regs := [f.vd.val, f.va.val], reads := some f.sb, writes := none }
  | .vcomp f => vuIssue f
  | .vexpd f => vuIssue f
  | .vbpfx f => vuIssue f
  | .vbrd f => { regs := [f.vd.val], reads := some f.sb, writes := none }
  | .viota f => { regs := [f.vd.val], reads := none, writes := none }
  | .vreds f => reduceIssue f
  | .vredmx f => reduceIssue f
  | .vredmn f => reduceIssue f
  | .vfreds f => reduceIssue f
  | .vmvs f => reduceIssue f
  | .vgath f => (baseIssue [f.vd.val] f)
  | .vgathp f => (baseIssue [f.vd.val] f)
  | .vscat f => (baseIssue [f.vd.val] f)
  | .vltld f => { regs := [f.vd.val, f.va.val], reads := none, writes := none }
  | .vltst f => { regs := [f.vd.val, f.va.val], reads := none, writes := none }
  | .vltadd f => { regs := [f.vd.val, f.va.val], reads := none, writes := none }
  | .vamoadd f => (baseIssue [f.vd.val] f)
  | .vamomax f => (baseIssue [f.vd.val] f)
  | .vamocas f => (baseIssue [f.vd.val, f.vd.val + 1] f)
  | .vld f => { regs := [f.vd.val], reads := none, writes := none }
  | .vldb f => { regs := [f.vd.val], reads := none, writes := none }
  | .vldseg f => { regs := segRegs f.vd.val f.nf.val, reads := none, writes := none }
  | .vst f => { regs := [f.vs.val], reads := none, writes := none }
  | .vstseg f => { regs := segRegs f.vs.val f.nf.val, reads := none, writes := none }
  | .vlde f => { regs := [f.vd.val], reads := none, writes := none }
  | .vste f => { regs := [f.vs.val], reads := none, writes := none }
  | .vspl f => { regs := [f.vs.val], reads := none, writes := none }
  | .vfil f => { regs := [f.vd.val], reads := none, writes := none }
  | .mclaim _ => { regs := [], reads := none, writes := none }
  | .mrel _ => { regs := [], reads := none, writes := none }
  | .mld _ => { regs := [], reads := none, writes := none }
  | .mlds _ => { regs := [], reads := none, writes := none }
  | .mzero _ => { regs := [], reads := none, writes := none }
  | .mma _ => { regs := [], reads := none, writes := none }
  | .mmas _ => { regs := [], reads := none, writes := none }
  | .mslide _ => { regs := [], reads := none, writes := none }
  | .mprom _ => { regs := [], reads := none, writes := none }
  | .maccrd f => { regs := [f.vd.val], reads := none, writes := none }
  | .maccwr f => { regs := [f.vs.val], reads := none, writes := none }
  | _ => noRegs

/-- The stream register an instruction of the vector queue or the array names. -/
def namesQ : Instr → Option (Fin 16)
  | .vld f | .vlde f | .vfil f => some f.q
  | .vldb f => some f.q
  | .vldseg f => some f.q
  | .vst f | .vste f | .vspl f => some f.q
  | .vstseg f => some f.q
  | .mld f => some f.q
  | .mlds f => some f.q
  | _ => none

/-! Slabs (R30, R33, R34, R35). -/

/-- Physical slabs of a core. -/
def slabMax : Nat := 768

/-- Instructions that a pre-emption point may stop after a whole slab (R341): they handle the elements below VL one by one. -/
def divisible : Instr → Bool
  | .vadd _ | .vsub _ | .vmul _ | .vmulh _ | .vmacc _ | .vand _ | .vor _ | .vxor _ | .vsll _ | .vsrl _ | .vsra _ | .vmin _ | .vmax _ | .vsadd _ | .vssub _
  | .vzsub _ | .vfadd _ | .vfsub _ | .vfmul _ | .vfma _ | .vfnms _ | .vfdiv _ | .vfsqrt _ | .vfmin _ | .vfmax _ | .vfabs _ | .vfneg _ | .vfrec _ | .vfrsq _
  | .vfexp2 _ | .vidx _ | .vceq _ | .vcne _ | .vclt _ | .vcle _ | .vcltu _ | .vfceq _ | .vfclt _ | .vfcle _ | .vfcun _ | .vband _ | .vbrd _
  | .vcvt _ | .vqnt _ | .vdqnt _ | .vld _ | .vldb _ | .vldseg _ | .vst _ | .vstseg _ | .vgath _ | .vgathp _ | .vscat _
  | .vltld _ | .vltst _ | .vltadd _ | .vamoadd _ | .vamomax _ | .vamocas _ => true
  | _ => false

/-- Width at which an entry handles the elements of a register: that of the VTYPE entry, but for conversions. -/
def regWidth (e : QEntry) (r : Nat) : Nat :=
  let wid (n : Nat) : Nat := (fmtOf (entWord e.cap.ents n)).wid
  let w := wid (wbits e.cap.vtype 0 4)
  let conv (d : Nat) (vd va : Fin 32) : Nat := max (if r = vd.val then d else 0) (if r = va.val then w else 0)
  match e.instr with
  | .vcvt f => conv (wid f.ent.val) f.vd f.va
  | .vzsub f => conv (wid f.ent.val) f.vd f.va
  | .vqnt _ | .vdqnt _ => 32
  | _ => w

/-- Slabs of a vector register an entry needs: those that hold its elements below VL, all of an encoded register's (R28), and all where the instruction reaches beyond VL. -/
def needSlabsOf (c : Ctx) (e : QEntry) (r : Nat) : List (Nat × Nat) :=
  let k := fmtOf (entWord e.cap.ents (wbits e.cap.vtype 0 4))
  let part := k.valid && divisible e.instr && (c.v[Fin.ofNat 32 r]).kind == .plain
  (List.range (if part then min c.slabs ((e.cap.vl.toNat * regWidth e r + 2047) / 2048) else c.slabs)).map fun i => (r, i)

/-- Mask registers an instruction names. -/
def maskNames : Instr → List (Fin 8)
  | .vceq f | .vcne f | .vclt f | .vcle f | .vcltu f | .vfceq f | .vfclt f | .vfcle f | .vfcun f | .vband f => [f.md]
  | .mand f | .mor f | .mxor f => [f.md, f.ma, f.mb]
  | .mnot f => [f.md, f.ma]
  | .mpop f | .mfirst f => [f.ma]
  | _ => []

/-- Whether an instruction's elements are governed by VM (R30). -/
def usesVm : Instr → Bool
  | .vlde _ | .vste _ | .vspl _ | .vfil _ | .mand _ | .mor _ | .mxor _ | .mnot _ => false
  | i => !arrayOp i && (match i with | .mclaim _ | .mrel _ | .mld _ | .mlds _ => false | _ => true)

/-- Slabs of mask registers an entry needs: a mask has a quarter of a vector register's slabs, and is numbered 32 and up (R30). -/
def maskSlabs (c : Ctx) (e : QEntry) : List (Nat × Nat) :=
  let gov : List (Fin 8) := if usesVm e.instr && !nbit e.cap.vm.toNat 3 then [Fin.ofNat 8 (wbits e.cap.vm 0 3)] else []
  (maskNames e.instr ++ gov).flatMap fun m =>
    (List.range (if divisible e.instr then min (c.slabs / 4) ((e.cap.vl.toNat + 2047) / 2048) else c.slabs / 4)).map fun i => (32 + m.val, i)

/-- Every slab the head of a queue needs. -/
def headSlabs (c : Ctx) : List (Nat × Nat) :=
  match c.queue with
  | e :: _ => (laneIssue c e.instr).regs.flatMap (needSlabsOf c e) ++ maskSlabs c e
  | [] => []

/-- Class of a slab for eviction (R34): 0 dead, 1 clean, 2 dirty. Masks have neither a live nor a dirty bit: their slabs count as dirty (DESIGN CHOICE, log 33). -/
def evictClass (s : State) (core : Fin 1024) (b : Nat × Nat × Nat) : Nat :=
  let c := s.ctx { core, lc := Fin.ofNat 8 b.1 }
  let r := Fin.ofNat 32 b.2.1
  if 32 ≤ b.2.1 then 2 else if !c.vc.vlive.getLsbD r.val then 0 else if (c.v[r]).dirty then 2 else 1

/-- Slabs that a reserved context keeps resident against the other contexts of its core (R309). -/
def keptSlabs : Nat := 192

/-- Whether loop context `lc` may take a slab of another: a reserved context keeps up to 192 (R309). -/
def takeable (s : State) (core : Fin 1024) (lc : Fin 8) (l : List (Nat × Nat × Nat)) (b : Nat × Nat × Nat) : Bool :=
  b.1 == lc.val || keptSlabs < (l.filter fun x => x.1 == b.1).length ||
    !s.graphs.any fun g => g.2.reserved.contains (.ctx { core, lc := Fin.ofNat 8 b.1 })

/-- SLAB_EVICT: the slab to evict for loop context `lc`, the least recently used of the lowest class. -/
def victim (s : State) (core : Fin 1024) (lc : Fin 8) (all : List (Nat × Nat × Nat)) : Option (Nat × Nat × Nat) :=
  let l := all.filter (takeable s core lc all)
  match l.find? fun b => evictClass s core b == 0 with
  | some b => some b
  | none =>
    match l.find? fun b => evictClass s core b == 1 with
    | some b => some b
    | none => l.head?

/-- Where a slab's backing begins in the context area, and the slab's bytes (R28, R41). -/
def slabBacking (x : Ctx) (b : Nat × Nat × Nat) : Nat × Nat :=
  if 32 ≤ b.2.1 then (0x10000 + 2048 * (b.2.1 - 32) + 256 * b.2.2, nbits (x.m[Fin.ofNat 8 (b.2.1 - 32)]).toNat (2048 * b.2.2) 2048)
  else (b.2.1 * (x.vlmax / 8) + 256 * b.2.2, nbits (x.v[Fin.ofNat 32 b.2.1]).img.toNat (2048 * b.2.2) 2048)

/-! Lane groups (R36, R402, R403). -/

/-- A register after a wake that found its content lost: poisoned when it was dirty, refetched otherwise (R36). -/
def wakeReg (lost : Bool) (r : VReg) : VReg := if lost && r.dirty then { r with pois := true } else r

/-- The registers of loop context `lc` after a wake; bit 32 lc + i of `lost` says that the content of vi did not survive. -/
def wakeCtx (lost : BitVec 128) (lc : Fin 8) (x : Ctx) : Ctx :=
  { x with v := Vector.ofFn fun i : Fin 32 => wakeReg (lost.getLsbD (32 * lc.val + i.val) && x.vc.vlive.getLsbD i.val) x.v[i] }

/-- Lane groups of a core wake before a use of them goes on, and parity is checked (R403). -/
def wakeGroups (core : Fin 1024) (gs : BitVec 4) (lost : BitVec 128) (s : State) : State :=
  if (s.core core.val).retained &&& gs = 0 then s
  else
    (coreCtxs core).foldl (fun t c => t.modCtx c (wakeCtx lost c.lc)) (s.modCore core.val fun k => { k with retained := k.retained &&& ~~~gs })

/-- Instructions that reach the whole of a vector register, whatever VL is. -/
def wholeUse : Instr → Bool
  | .vspl _ | .vfil _ | .vmvs _ | .vsldn _ | .vpack _ | .vunpk _ | .vencr _ | .vencd _ | .venct _ | .vrenc _ | .vdec _ | .vencq _ | .vdictExtract _
  | .vdictReplace _ | .vlde _ | .vste _ | .maccrd _ | .maccwr _ => true
  | _ => false

/-- The lane groups the head of the queue uses: those that hold an element below its VL, all where it reaches a whole register or an encoded one (R403). -/
def headGroups (c : Ctx) : BitVec 4 :=
  match c.queue with
  | e :: _ =>
    let regs := (laneIssue c e.instr).regs
    if regs.isEmpty then if usesVm e.instr || !(maskNames e.instr).isEmpty then ~~~idleGroups e.cap.vl.toNat else 0
    else if wholeUse e.instr || regs.any fun r => (c.v[Fin.ofNat 32 r]).kind != .plain then 15
    else ~~~idleGroups e.cap.vl.toNat
  | [] => 0

/-- Every lane group of a core is awake, for a use of whole slabs: a write-back, a save (R403). What a wake finds lost is a free value (log 33). -/
def wakeAll (s : State) (core : Fin 1024) : State := wakeGroups core 15 (Config.wakeLost s.tick) s

/-! Eviction (R34). -/

/-- Evicts a slab: a dirty one is written back to its backing, the lane groups awake for it (R34, R403). -/
def evictSlab (core : Fin 1024) (s : State) (b : Nat × Nat × Nat) : State :=
  if evictClass s core b == 2 then
    let s := wakeAll s core
    let lc := Fin.ofNat 8 b.1
    let w := slabBacking (s.ctx { core, lc }) b
    s.modCore core.val fun k => { k with pool := memWrite k.pool (areaBase k.part lc.val + w.1) 256 w.2 }
  else s

/-- A slab becomes the most recently used one of the running context's core, another evicted when none is free. -/
def useSlab (core : Fin 1024) (s : State) (b : Nat × Nat × Nat) : State :=
  let l := (s.core core.val).slabs.filter fun x => x != b
  if l.length < slabMax then s.modCore core.val fun c => { c with slabs := l ++ [b] }
  else
    match victim s core (Fin.ofNat 8 b.1) l with
    | some v => (evictSlab core s v).modCore core.val fun c => { c with slabs := l.filter (fun x => x != v) ++ [b] }
    | none => s.modCore core.val fun c => { c with slabs := l ++ [b] }

/-- The slabs of the dead tails of the running context's registers are free (R35, R94). -/
def freeTails (s : State) : State :=
  if s.me.deadTails.isEmpty then s
  else
    s.modMyCore fun k => { k with slabs := k.slabs.filter fun b => !(b.1 == s.cur.lc.val && s.me.deadTails.any fun d => d.1 == b.2.1 && d.2 ≤ b.2.2) }

end Sys2Proof.Machine
end

