-- ==== Sys2Proof/Machine/Issue.lean ====
section
/-! DEFINITION. How a vector or matrix instruction enters the vector instruction queue and runs in the lanes (R47, R70, R81, R121 step 6, R154, R161, R162, R276, R431), and the checks its entries undergo (R58, R164). -/

namespace Sys2Proof.Machine

/-- An entry as it runs, with what its context fixes. -/
def laneOf (c : Ctx) (e : QEntry) : Lane :=
  { cap := e.cap, pc := e.pc, scalar := e.scalar, priv := e.priv, noTrim := e.noTrim, eff := c.vc.eff, vstart := c.vc.vstart.toNat }

/-- Step 6 of R121: every vector register lies below the declared count. -/
def needRegs (regs : List Nat) (i : Instr) : M Unit := do
  let c ← getMe
  needN (regs.all fun r => r < c.count) .illVreg ((encode i).getD 0)

/-- Most entries of the queue (R276). -/
def queueMax : Nat := 64

/-- An instruction enters the queue (R161, R162); its scalar operand is read, the bit of its scalar destination cleared, and the scalar side goes on. -/
def enqueue (i : Instr) (u : Issue) : M Unit := do
  needRegs u.regs i
  awaitTrim
  let sc ← match u.reads with
    | some r => readS r
    | none => pure 0
  match u.writes with
  | some r => awaitS r
  | none => pure ()
  let c ← getMe
  waitUnless (c.queue.length < queueMax)
  let e : QEntry := { instr := i, pc := c.pc, cap := capture c, scalar := sc, priv := c.priv, noTrim := false, num := c.vIn + 1, stale := false }
  modMe fun c =>
    let c := match u.writes with
      | some r => c.sclear r
      | none => c
    { c with queue := c.queue ++ [e], vIn := c.vIn + 1, pc := c.pc + 4, waiting := false }

/-- The head of the queue has completed; the slabs of the tails it left dead are free (R94). -/
def laneRetire (s : State) : State := retire (freeTails (s.modMe fun c => { c with queue := c.queue.tail, laneHeld := false }))

/-- The head of the queue waits; the scalar side has the next turn. -/
def laneHold (s : State) : State := s.modMe fun c => { c with laneHeld := true, readPages := [] }

/-- The entries of the queue are set aside for a handler (R431). -/
def keepQueue (x : Ctx) (vepc : Word) : Ctx :=
  { x with kept := x.queue, rejoin := false, queue := [], laneHeld := false, tr := { x.tr with vepc } }

/-- A cause raised by the head of the queue (R431). What is in flight lands first; a poisoned value stops the context there (R348), and the head traps again when it resumes. A trap sets the head and the later entries aside, EPC taking the first instruction the scalar unit has not executed; any other delivery, one inside a handler and one that stops the context instead (R327, R335), leaves the queue as it is. -/
def laneTrap (s : State) (c : Cause) (tval aux : Word) : State :=
  match s.me.queue with
  | [] => s
  | e :: _ =>
    let s := landCtx s s.cur
    if s.me.st != .running then s
    else
      let t := raise (s.modMe fun x => keepQueue x e.pc) s.cur c e.pc s.me.pc tval aux true
      if c.delivery == .trap && !s.me.inh && t.me.st == .running then t
      else raise s s.cur c e.pc s.me.pc tval aux true

/-- The destinations a load has left waiting for values held back, with the old values: registers, or from 32 on the slot of an MLD. -/
def loadDests (s t : State) (i : Instr) : List (Nat × VReg) :=
  match i with
  | .mld f => if (t.myCore.slots[f.slot]).mld then [(32 + f.slot.val, VReg.dead)] else []
  | _ => (List.finRange 32).filterMap fun r => if (s.me.v[r]).full && !(t.me.v[r]).full then some (r.val, s.me.v[r]) else none

/-- The first Written element of an entry as it runs. -/
def firstWritten (s : State) (l : Lane) : Nat :=
  match activeMask l s with
  | .ok mask _ => ((List.range l.vl).find? (l.written mask)).getD l.vl
  | .error _ _ => l.vl

/-- A load whose values are held back is in flight to its destinations, with the pages it read (R349). -/
def noteLoads (s t : State) : State :=
  if !t.late || t.me.readPages.isEmpty then t
  else
    match s.me.queue with
    | [] => t
    | e :: _ =>
      let l := laneOf s.me e
      let first := match e.instr with | .mld _ => 0 | _ => firstWritten s l
      t.modMe fun x =>
        { x with
          readPages := []
          vland := x.vland ++ (loadDests s t e.instr).map fun d =>
            { dst := d.1, pages := x.readPages, poison := none, trim := none, entry := e, start := l.vstart, first, granted := x.vc.vl.toNat, old := d.2
              pos := (namesQ e.instr).map fun q => (q, (s.me.q[q]).pos, (x.q[q]).pos) } }

/-- Instructions whose faults are faults of elements, VSTART then naming the element (R97). -/
def elementwise (i : Instr) : Bool :=
  divisible i || (match i with | .vlde _ | .vste _ => true | _ => false)

/-- TVAL of a cause the head raises: as the cause sets it; else, for MODULE_LOST and MEM_UE, for which no rule names an address, the element (R97). -/
def laneTval (s t : State) (c : Cause) (v : Option Word) : Word :=
  match v, s.me.queue with
  | none, e :: _ => if elementwise e.instr && (c == .moduleLost || c == .memUe) then t.me.vc.vstart else tvalOf t none
  | v, _ => tvalOf t v

/-- Runs the head of the queue, the lane groups it uses awake (R403). One that waits has done nothing yet; one that meets a poisoned pool word has changed nothing, but that an operation of the array has taken its number (R347). -/
def runHead (body : M Unit) (s : State) : Out :=
  let s := wakeGroups s.cur.core (headGroups s.me) (Config.wakeLost s.tick) s
  match body s with
  | .ok _ t => .next (laneRetire (noteLoads s t))
  | .error .wait _ | .error .split _ => .next (laneHold s)
  | .error (.cause c v) t => .next (laneTrap t c (laneTval s t c v) 0)
  | .error (.stopAt .sramUe off) t =>
    let s := if (s.me.queue.head?.map fun e => arrayOp e.instr) == some true then t else s
    .next (laneTrap s .sramUe (Config.tval s.tick) (BitVec.ofNat 64 off))
  | .error (.stopAt c pa) t => .next (laneTrap t c (laneTval s t c none) (BitVec.ofNat 64 pa))

/-- A body run with the lane of the queue's head. -/
def onHead (body : Lane → M Unit) : M Unit := do
  let c ← getMe
  match c.queue with
  | e :: _ => body (laneOf c e)
  | [] => pure ()

/-- A VECTOR OR MATRIX INSTRUCTION: it enters the queue, and, when nothing is ahead of it and values are not held back, runs at once. -/
def vector (i : Instr) (u : Issue) (body : Lane → M Unit) (s : State) : Out :=
  match enqueue i u s with
  | .error e t => scalarExc e t
  | .ok _ t => if t.late || s.me.queue.length != 0 then .next t else runHead (onHead body) t

/-! Checks on entries (R58, R164). -/

/-- A valid entry, or ENTRY_INVALID. -/
def needEntry (l : Lane) (n : Nat) : M Fmt := do
  let f := fmtOf (l.ent n)
  needN f.valid .entryInvalid n
  return f

/-- A valid VTYPE entry. -/
def needVtypeEntry (l : Lane) : M Fmt := needEntry l l.entNo

/-- An entry of the kind a function requires (R164). -/
def needKind (ok : Bool) : M Unit := needU ok .entryKind

/-- Sign- or zero-extension of a code to a scalar (R162). -/
def extCode (f : Fmt) (c : Nat) : Word :=
  if f.kind = 1 then BitVec.ofInt 64 (sextNat f.wid c) else BitVec.ofNat 64 (c % 2 ^ f.wid)

/-- The second source of a V-format instruction as a register to decode. -/
def vsrcRegs : VSrc → List (Fin 32 × Bool)
  | .vec r fe => [(r, fe)]
  | .sca _ => []

/-- The second source: a register's view, or the scalar's low bits (R161). -/
def vsrcOperand (c : Ctx) (l : Lane) (sew : Nat) (b : VSrc) : Src :=
  match b with
  | .vec r _ => .vec r.val (sourceView c r sew)
  | .sca _ => .const (l.scalar.toNat % 2 ^ sew)

end Sys2Proof.Machine
end

