-- ==== Sys2Proof/Machine/Vari.lean ====
section
/-! DEFINITION. VARI: integer and bitwise operations (R163, R170, R171). -/

namespace Sys2Proof.Machine

/-- The VARI functions but VZSUB (R170). -/
inductive VariOp where
  | add | sub | mul | mulh | macc | and | or | xor | sll | srl | sra | min | max | sadd | ssub
  deriving DecidableEq, Repr

/-- Val (R163): a code as the integer it is. -/
def Fmt.val (f : Fmt) (c : Nat) : Int := if f.kind = 2 then ((c % 2 ^ f.wid : Nat) : Int) else sextNat f.wid c

/-- Range of Val. -/
def Fmt.valMin (f : Fmt) : Int := if f.kind = 2 then 0 else -(2 ^ (f.wid - 1) : Int)

def Fmt.valMax (f : Fmt) : Int := if f.kind = 2 then (2 ^ f.wid : Int) - 1 else (2 ^ (f.wid - 1) : Int) - 1

/-- Wrap (R163) of an integer, raising nothing. -/
def wrapCode (f : Fmt) (x : Int) (seed : BitVec 32) : Coded := pureCode (intMod f.wid x) seed

/-- Sat (R163): clamping raises NV and counts a saturation. -/
def satCode (f : Fmt) (x : Int) (seed : BitVec 32) : Coded :=
  let y := max f.valMin (min f.valMax x)
  { code := intMod f.wid y, flags := if y = x then 0 else fNV, sat := y != x, seed }

/-- op.f of a VARI function (R170). `shift` is the whole scalar where it counts a shift. -/
def variElem (op : VariOp) (f : Fmt) (shift : Option Nat) : ElemFn := fun srcs seed =>
  let a := srcs.getD 0 0
  let b := srcs.getD 1 0
  let d := srcs.getD 2 0
  let t := shift.getD b
  match op with
  | .add => wrapCode f (f.val a + f.val b) seed
  | .sub => wrapCode f (f.val a - f.val b) seed
  | .mul => wrapCode f (f.val a * f.val b) seed
  | .mulh => wrapCode f (f.val a * f.val b / 2 ^ f.wid) seed
  | .macc => wrapCode f (f.val d + f.val a * f.val b) seed
  | .and => pureCode (a &&& b) seed
  | .or => pureCode (a ||| b) seed
  | .xor => pureCode (a ^^^ b) seed
  | .sll => pureCode (if f.wid ≤ t then 0 else a * 2 ^ t % 2 ^ f.wid) seed
  | .srl => pureCode (if f.wid ≤ t then 0 else a / 2 ^ t) seed
  | .sra => wrapCode f (sextNat f.wid a / 2 ^ min t f.wid) seed
  | .min => pureCode (if f.val b < f.val a then b else a) seed
  | .max => pureCode (if f.val a < f.val b then b else a) seed
  | .sadd => satCode f (f.val a + f.val b) seed
  | .ssub => satCode f (f.val a - f.val b) seed

/-- Whether a VARI function is base-only: VADD and VSUB with a scalar (R91, R170). -/
def variBase (op : VariOp) (b : VSrc) : Bool :=
  match op, b with
  | .add, .sca _ => true
  | .sub, .sca _ => true
  | _, _ => false

/-- A VARI function in the lanes (R170). -/
def variRun (op : VariOp) (vd va : Fin 32) (feA : Bool) (b : VSrc) (x : Bool) (l : Lane) : M Unit := do
  let f ← needVtypeEntry l
  let sew := f.wid
  let shift := match b with
    | .sca _ => some l.scalar.toNat
    | .vec _ _ => none
  let third := op == .macc
  elementWise l vd sew sew x (variBase op b) ([(va, feA)] ++ vsrcRegs b ++ (if third then [(vd, false)] else []))
    (fun c => [.vec va.val (sourceView c va sew), vsrcOperand c l sew b] ++ (if third then [.vec vd.val (oldView c vd sew)] else []))
    (variElem op f shift)

/-- op.f of VZSUB (R171). -/
def vzElem (src dst : Fmt) : ElemFn := fun srcs seed =>
  let q := src.intValue (srcs.getD 0 0) + dst.zpVal
  let out := dst.maxCode < q || q < dst.minCode
  { code := satInt dst q, flags := if out then fNV else 0, sat := out, seed }

/-- VZSUB in the lanes (R164, R171). -/
def vzRun (vd va : Fin 32) (feA : Bool) (ent : Nat) (x : Bool) (l : Lane) : M Unit := do
  let f ← needVtypeEntry l
  let d ← needEntry l ent
  needKind (f.isInt && d.isInt)
  needU (l.vl ≤ l.nAt d.wid) .vlRange
  elementWise l vd f.wid d.wid x false [(va, feA)] (fun c => [.vec va.val (sourceView c va f.wid)]) (vzElem f d)

/-- What VADD does in the lanes (R170). -/
def laneVadd (f : VB) : Lane → M Unit := variRun .add f.vd f.va f.feA f.b f.x

/-- VADD (R170). -/
def execVadd (f : VB) (s : State) : Out := vector (.vadd f) (vbIssue f) (laneVadd f) s

/-- What VSUB does in the lanes (R170). -/
def laneVsub (f : VB) : Lane → M Unit := variRun .sub f.vd f.va f.feA f.b f.x

/-- VSUB (R170). -/
def execVsub (f : VB) (s : State) : Out := vector (.vsub f) (vbIssue f) (laneVsub f) s

/-- What VMUL does in the lanes (R170). -/
def laneVmul (f : VB) : Lane → M Unit := variRun .mul f.vd f.va f.feA f.b f.x

/-- VMUL (R170). -/
def execVmul (f : VB) (s : State) : Out := vector (.vmul f) (vbIssue f) (laneVmul f) s

/-- What VMULH does in the lanes (R170). -/
def laneVmulh (f : VB) : Lane → M Unit := variRun .mulh f.vd f.va f.feA f.b f.x

/-- VMULH (R170). -/
def execVmulh (f : VB) (s : State) : Out := vector (.vmulh f) (vbIssue f) (laneVmulh f) s

/-- What VMACC does in the lanes (R170). -/
def laneVmacc (f : VB) : Lane → M Unit := variRun .macc f.vd f.va f.feA f.b f.x

/-- VMACC (R170). -/
def execVmacc (f : VB) (s : State) : Out := vector (.vmacc f) (vbIssue f) (laneVmacc f) s

/-- What VAND does in the lanes (R170). -/
def laneVand (f : VB) : Lane → M Unit := variRun .and f.vd f.va f.feA f.b f.x

/-- VAND (R170). -/
def execVand (f : VB) (s : State) : Out := vector (.vand f) (vbIssue f) (laneVand f) s

/-- What VOR does in the lanes (R170). -/
def laneVor (f : VB) : Lane → M Unit := variRun .or f.vd f.va f.feA f.b f.x

/-- VOR (R170). -/
def execVor (f : VB) (s : State) : Out := vector (.vor f) (vbIssue f) (laneVor f) s

/-- What VXOR does in the lanes (R170). -/
def laneVxor (f : VB) : Lane → M Unit := variRun .xor f.vd f.va f.feA f.b f.x

/-- VXOR (R170). -/
def execVxor (f : VB) (s : State) : Out := vector (.vxor f) (vbIssue f) (laneVxor f) s

/-- What VSLL does in the lanes (R170). -/
def laneVsll (f : VB) : Lane → M Unit := variRun .sll f.vd f.va f.feA f.b f.x

/-- VSLL (R170). -/
def execVsll (f : VB) (s : State) : Out := vector (.vsll f) (vbIssue f) (laneVsll f) s

/-- What VSRL does in the lanes (R170). -/
def laneVsrl (f : VB) : Lane → M Unit := variRun .srl f.vd f.va f.feA f.b f.x

/-- VSRL (R170). -/
def execVsrl (f : VB) (s : State) : Out := vector (.vsrl f) (vbIssue f) (laneVsrl f) s

/-- What VSRA does in the lanes (R170). -/
def laneVsra (f : VB) : Lane → M Unit := variRun .sra f.vd f.va f.feA f.b f.x

/-- VSRA (R170). -/
def execVsra (f : VB) (s : State) : Out := vector (.vsra f) (vbIssue f) (laneVsra f) s

/-- What VMIN does in the lanes (R170). -/
def laneVmin (f : VB) : Lane → M Unit := variRun .min f.vd f.va f.feA f.b f.x

/-- VMIN (R170). -/
def execVmin (f : VB) (s : State) : Out := vector (.vmin f) (vbIssue f) (laneVmin f) s

/-- What VMAX does in the lanes (R170). -/
def laneVmax (f : VB) : Lane → M Unit := variRun .max f.vd f.va f.feA f.b f.x

/-- VMAX (R170). -/
def execVmax (f : VB) (s : State) : Out := vector (.vmax f) (vbIssue f) (laneVmax f) s

/-- What VSADD does in the lanes (R170). -/
def laneVsadd (f : VB) : Lane → M Unit := variRun .sadd f.vd f.va f.feA f.b f.x

/-- VSADD (R170). -/
def execVsadd (f : VB) (s : State) : Out := vector (.vsadd f) (vbIssue f) (laneVsadd f) s

/-- What VSSUB does in the lanes (R170). -/
def laneVssub (f : VB) : Lane → M Unit := variRun .ssub f.vd f.va f.feA f.b f.x

/-- VSSUB (R170). -/
def execVssub (f : VB) (s : State) : Out := vector (.vssub f) (vbIssue f) (laneVssub f) s

/-- What VZSUB does in the lanes (R171). -/
def laneVzsub (f : VZForm) : Lane → M Unit := vzRun f.vd f.va f.feA f.ent.val f.x

/-- VZSUB (R171). -/
def execVzsub (f : VZForm) (s : State) : Out :=
  vector (.vzsub f) { regs := [f.vd.val, f.va.val], reads := none, writes := none } (laneVzsub f) s

end Sys2Proof.Machine
end

