-- ==== Sys2Proof/Machine/Vfp.lean ====
section
/-! DEFINITION. VFP: floating-point arithmetic (R172, R173), and VIDX (R182). -/

namespace Sys2Proof.Machine

/-- The VFP functions (R172). -/
inductive VfpOp where
  | add | sub | mul | fma | nms | div | sqrt | min | max | abs | neg | recip | rsq | exp2
  deriving DecidableEq, Repr

/-- An exact result and the flags raised before the rounding. -/
structure Exact where
  num : Num
  flags : Nat
  deriving DecidableEq, Repr

/-- A result that is NaN although no operand is raises NV (R172). -/
def exactOf (ops : List Num) (x : Num) : Exact :=
  { num := x, flags := if x.cls == .nan && ops.all (fun o => o.cls != .nan) then fNV else 0 }

/-- Comparison of numbers that are not NaN, with −0 below +0 when `signed`: whether x lies below y. -/
def Num.lt (x y : Num) (signed : Bool) : Bool :=
  let zx := x.cls == .zero
  let zy := y.cls == .zero
  if zx && zy then signed && x.neg && !y.neg
  else if zx then !y.neg
  else if zy then x.neg
  else if x.neg != y.neg then x.neg
  else
    let below (a b : Num) : Bool :=
      match a.cls, b.cls with
      | .inf, _ => false
      | _, .inf => true
      | _, _ => magLt a.mag a.exp b.mag b.exp
    if x.neg then below y x else below x y

/-- The smaller or larger of two numbers; one NaN gives the other, two give NaN (R172). -/
def pickNum (larger : Bool) (x y : Num) : Num :=
  if x.cls == .nan then y
  else if y.cls == .nan then x
  else if (if larger then x.lt y true else y.lt x true) then y else x

/-- Division with its DZ (R172). -/
def divExact (x y : Num) : Exact :=
  { exactOf [x, y] (x.quo y) with
    flags := (exactOf [x, y] (x.quo y)).flags ||| (if x.cls == .finite && y.cls == .zero then fDZ else 0) }

/-- 1 / √x, exact with a sticky mark. -/
def rsqrt (x : Num) : Num :=
  match x.cls with
  | .nan => Num.nan
  | .zero => Num.inf x.neg
  | .inf => if x.neg then Num.nan else Num.zero false
  | .finite =>
    if x.neg then Num.nan
    else
      let m := x.mag * 2 ^ (x.exp % 2).toNat
      let k := 64 + m.log2
      let r := isqrt (2 ^ (2 * k) / m)
      { cls := .finite, neg := false, mag := r, exp := -((x.exp - x.exp % 2) / 2) - k, sticky := r * r * m != 2 ^ (2 * k) }

/-- ln 2 × 2^256, rounded down. -/
def ln2Fix : Nat := 0xb17217f7d1cf79abc9e3b39803f2f6af40f343267298b62d8a0d175b8baafa2b

/-- The terms of exp y × 2^256 from the `i`-th, for y × 2^256 = `y`. -/
def expTerms (y : Nat) : Nat → Nat → Nat → Nat
  | 0, _, _ => 0
  | n + 1, i, t => t + expTerms y n (i + 1) (t * y / 2 ^ 256 / (i + 1))

/-- 2^x, exact for integers and else to 250 bits with a sticky mark; exponents beyond ±4096 lie outside every format. -/
def pow2 (x : Num) : Num :=
  match x.cls with
  | .nan => Num.nan
  | .zero => Num.ofMag false 1 0
  | .inf => if x.neg then Num.zero false else Num.inf false
  | .finite =>
    if x.lg ≥ 12 then { cls := .finite, neg := false, mag := 1, exp := if x.neg then -4096 else 4096, sticky := true }
    else
      let v := (Num.at x (min x.exp 0))
      let p := (-(min x.exp 0)).toNat
      let i := v / 2 ^ p
      let fr := (v % 2 ^ p).toNat
      if fr = 0 then { cls := .finite, neg := false, mag := 1, exp := i, sticky := false }
      else
        let y := fr * ln2Fix / 2 ^ p
        { cls := .finite, neg := false, mag := expTerms y 70 0 (2 ^ 256), exp := i - 256, sticky := true }

/-- The exact result of a VFP function (R172, R173). -/
def vfpExact (op : VfpOp) (rdn : Bool) (a b d : Num) : Exact :=
  match op with
  | .add => exactOf [a, b] (a.add b rdn)
  | .sub => exactOf [a, b] (a.add b.negate rdn)
  | .mul => exactOf [a, b] (a.mul b)
  | .fma => fused a b d
  | .nms => fused a.negate b d
  | .div => divExact a b
  | .sqrt => exactOf [a] a.sqrt
  | .min => { num := pickNum false a b, flags := 0 }
  | .max => { num := pickNum true a b, flags := 0 }
  | .abs => { num := { a with neg := false }, flags := 0 }
  | .neg => { num := a.negate, flags := 0 }
  | .recip => divExact (Num.ofMag false 1 0) a
  | .rsq => { exactOf [a] (rsqrt a) with flags := (exactOf [a] (rsqrt a)).flags ||| (if a.cls == .zero then fDZ else 0) }
  | .exp2 => { num := pow2 a, flags := 0 }
where
  /-- a × b + d, in which 0 × ∞ raises NV even beside a NaN d only when no operand is NaN. -/
  fused (a b d : Num) : Exact := exactOf [a, b, d] ((a.mul b).add d rdn)

/-- op.f of a VFP function: one rounding into the VTYPE entry (R64, R172). -/
def vfpElem (op : VfpOp) (f : Fmt) (mode : RMode) : ElemFn := fun srcs seed =>
  let e := vfpExact op (mode == .rdn) (toWide f (srcs.getD 0 0)) (toWide f (srcs.getD 1 0)) (toWide f (srcs.getD 2 0))
  let c := fromWide e.num f mode seed
  { c with flags := c.flags ||| e.flags }

/-- Whether a VFP function reads vd (R172). -/
def vfpThird (op : VfpOp) : Bool :=
  match op with
  | .fma | .nms => true
  | .add | .sub | .mul | .div | .sqrt | .min | .max | .abs | .neg | .recip | .rsq | .exp2 => false

/-- A VFP function in the lanes (R172). `b` is absent for a unary one. -/
def vfpRun (op : VfpOp) (vd va : Fin 32) (feA : Bool) (b : Option VSrc) (x : Bool) (l : Lane) : M Unit := do
  let f ← needVtypeEntry l
  needKind (!f.isInt)
  let sew := f.wid
  let bs := b.toList
  elementWise l vd sew sew x false ([(va, feA)] ++ bs.flatMap vsrcRegs ++ (if vfpThird op then [(vd, false)] else []))
    (fun c => [.vec va.val (sourceView c va sew)] ++ bs.map (vsrcOperand c l sew) ++
      (if vfpThird op then [.vec vd.val (oldView c vd sew)] else []))
    (vfpElem op f (roundingMode l.cap.rmo f))

/-- What VFADD does in the lanes (R172). -/
def laneVfadd (f : VB) : Lane → M Unit := vfpRun .add f.vd f.va f.feA (some f.b) f.x

/-- VFADD (R172). -/
def execVfadd (f : VB) (s : State) : Out := vector (.vfadd f) (vbIssue f) (laneVfadd f) s

/-- What VFSUB does in the lanes (R172). -/
def laneVfsub (f : VB) : Lane → M Unit := vfpRun .sub f.vd f.va f.feA (some f.b) f.x

/-- VFSUB (R172). -/
def execVfsub (f : VB) (s : State) : Out := vector (.vfsub f) (vbIssue f) (laneVfsub f) s

/-- What VFMUL does in the lanes (R172). -/
def laneVfmul (f : VB) : Lane → M Unit := vfpRun .mul f.vd f.va f.feA (some f.b) f.x

/-- VFMUL (R172). -/
def execVfmul (f : VB) (s : State) : Out := vector (.vfmul f) (vbIssue f) (laneVfmul f) s

/-- What VFMA does in the lanes (R172). -/
def laneVfma (f : VB) : Lane → M Unit := vfpRun .fma f.vd f.va f.feA (some f.b) f.x

/-- VFMA (R172). -/
def execVfma (f : VB) (s : State) : Out := vector (.vfma f) (vbIssue f) (laneVfma f) s

/-- What VFNMS does in the lanes (R172). -/
def laneVfnms (f : VB) : Lane → M Unit := vfpRun .nms f.vd f.va f.feA (some f.b) f.x

/-- VFNMS (R172). -/
def execVfnms (f : VB) (s : State) : Out := vector (.vfnms f) (vbIssue f) (laneVfnms f) s

/-- What VFDIV does in the lanes (R172). -/
def laneVfdiv (f : VB) : Lane → M Unit := vfpRun .div f.vd f.va f.feA (some f.b) f.x

/-- VFDIV (R172). -/
def execVfdiv (f : VB) (s : State) : Out := vector (.vfdiv f) (vbIssue f) (laneVfdiv f) s

/-- What VFSQRT does in the lanes (R173). -/
def laneVfsqrt (f : VUX) : Lane → M Unit := vfpRun .sqrt f.vd f.va f.feA none f.x

/-- VFSQRT (R172, R173). -/
def execVfsqrt (f : VUX) (s : State) : Out := vector (.vfsqrt f) (vuxIssue f) (laneVfsqrt f) s

/-- What VFMIN does in the lanes (R172). -/
def laneVfmin (f : VB) : Lane → M Unit := vfpRun .min f.vd f.va f.feA (some f.b) f.x

/-- VFMIN (R172). -/
def execVfmin (f : VB) (s : State) : Out := vector (.vfmin f) (vbIssue f) (laneVfmin f) s

/-- What VFMAX does in the lanes (R172). -/
def laneVfmax (f : VB) : Lane → M Unit := vfpRun .max f.vd f.va f.feA (some f.b) f.x

/-- VFMAX (R172). -/
def execVfmax (f : VB) (s : State) : Out := vector (.vfmax f) (vbIssue f) (laneVfmax f) s

/-- What VFABS does in the lanes (R173). -/
def laneVfabs (f : VUX) : Lane → M Unit := vfpRun .abs f.vd f.va f.feA none f.x

/-- VFABS (R172, R173). -/
def execVfabs (f : VUX) (s : State) : Out := vector (.vfabs f) (vuxIssue f) (laneVfabs f) s

/-- What VFNEG does in the lanes (R173). -/
def laneVfneg (f : VUX) : Lane → M Unit := vfpRun .neg f.vd f.va f.feA none f.x

/-- VFNEG (R172, R173). -/
def execVfneg (f : VUX) (s : State) : Out := vector (.vfneg f) (vuxIssue f) (laneVfneg f) s

/-- What VFREC does in the lanes (R173). -/
def laneVfrec (f : VUX) : Lane → M Unit := vfpRun .recip f.vd f.va f.feA none f.x

/-- VFREC (R172, R173). -/
def execVfrec (f : VUX) (s : State) : Out := vector (.vfrec f) (vuxIssue f) (laneVfrec f) s

/-- What VFRSQ does in the lanes (R173). -/
def laneVfrsq (f : VUX) : Lane → M Unit := vfpRun .rsq f.vd f.va f.feA none f.x

/-- VFRSQ (R172, R173). -/
def execVfrsq (f : VUX) (s : State) : Out := vector (.vfrsq f) (vuxIssue f) (laneVfrsq f) s

/-- What VFEXP2 does in the lanes (R173). -/
def laneVfexp2 (f : VUX) : Lane → M Unit := vfpRun .exp2 f.vd f.va f.feA none f.x

/-- VFEXP2 (R172, R173). -/
def execVfexp2 (f : VUX) (s : State) : Out := vector (.vfexp2 f) (vuxIssue f) (laneVfexp2 f) s

/-! VIDX (R128, R182). -/

/-- What VIDX does in the lanes: the VARI function of index 0 to 15, or the VFP function of index 16 to 29, on the indirect register. -/
def laneVidx (f : VIdxForm) (l : Lane) : M Unit := do
  let va := vidxReg l.scalar
  let b := VSrc.vec f.vb f.feB
  match f.fn.val with
  | 0 => variRun .add f.vd va f.feA b f.x l
  | 1 => variRun .sub f.vd va f.feA b f.x l
  | 2 => variRun .mul f.vd va f.feA b f.x l
  | 3 => variRun .mulh f.vd va f.feA b f.x l
  | 4 => variRun .macc f.vd va f.feA b f.x l
  | 5 => variRun .and f.vd va f.feA b f.x l
  | 6 => variRun .or f.vd va f.feA b f.x l
  | 7 => variRun .xor f.vd va f.feA b f.x l
  | 8 => variRun .sll f.vd va f.feA b f.x l
  | 9 => variRun .srl f.vd va f.feA b f.x l
  | 10 => variRun .sra f.vd va f.feA b f.x l
  | 11 => variRun .min f.vd va f.feA b f.x l
  | 12 => variRun .max f.vd va f.feA b f.x l
  | 13 => variRun .sadd f.vd va f.feA b f.x l
  | 14 => variRun .ssub f.vd va f.feA b f.x l
  | 15 => vzRun f.vd va f.feA (f.vb.val % 16) f.x l
  | 16 => vfpRun .add f.vd va f.feA (some b) f.x l
  | 17 => vfpRun .sub f.vd va f.feA (some b) f.x l
  | 18 => vfpRun .mul f.vd va f.feA (some b) f.x l
  | 19 => vfpRun .fma f.vd va f.feA (some b) f.x l
  | 20 => vfpRun .nms f.vd va f.feA (some b) f.x l
  | 21 => vfpRun .div f.vd va f.feA (some b) f.x l
  | 22 => vfpRun .sqrt f.vd va f.feA none f.x l
  | 23 => vfpRun .min f.vd va f.feA (some b) f.x l
  | 24 => vfpRun .max f.vd va f.feA (some b) f.x l
  | 25 => vfpRun .abs f.vd va f.feA none f.x l
  | 26 => vfpRun .neg f.vd va f.feA none f.x l
  | 27 => vfpRun .recip f.vd va f.feA none f.x l
  | 28 => vfpRun .rsq f.vd va f.feA none f.x l
  | 29 => vfpRun .exp2 f.vd va f.feA none f.x l
  | _ => pure ()

/-- VIDX (R128, R182). -/
def execVidx (f : VIdxForm) (s : State) : Out :=
  vector (.vidx f) { regs := vidxRegs s.me f, reads := some f.si, writes := none } (laneVidx f) s

end Sys2Proof.Machine
end

