-- ==== Sys2Proof/Machine/Vcmp.lean ====
section
/-! DEFINITION. VCMP: comparisons and mask logic (R95, R174, R175), and VBAND (R176). -/

namespace Sys2Proof.Machine

/-- A relation of two codes: whether it holds, and the flags it raises. -/
abbrev Relation := Fmt → Nat → Nat → Bool × Nat

/-- A relation on codes, which raises nothing. -/
def codeRel (p : Fmt → Nat → Nat → Bool) : Relation := fun f a b => (p f a b, 0)

/-- Whether numbers are equal as values: −0 = +0. -/
def Num.eqv (x y : Num) : Bool := !x.lt y false && !y.lt x false

/-- A relation on values; `nan` is what a NaN operand gives (R174). -/
def valueRel (nan : Bool × Nat) (p : Num → Num → Bool) : Relation := fun f a b =>
  let x := toWide f a
  let y := toWide f b
  if x.cls == .nan || y.cls == .nan then nan else (p x y, 0)



/-- Adds flags to FCSR (R71). -/
def addFlags (c : Ctx) (fl : Nat) : Ctx := { c with fc := { c.fc with flags := c.fc.flags ||| BitVec.ofNat 5 fl } }

/-- A relation as the function of an element: 1 where it holds. -/
def relElem (rel : Relation) (k : Fmt) : ElemFn := fun xs seed =>
  let r := rel k (xs.getD 0 0) (xs.getD 1 0)
  { code := r.1.toNat, flags := r.2, sat := false, seed }

/-- A comparison in the lanes (R174). -/
def cmpRun (f : VCmpForm) (float : Bool) (rel : Relation) (l : Lane) : M Unit := do
  let k ← needVtypeEntry l
  needKind (!float || !k.isInt)
  maskWise l f.md k.wid ([(f.va, f.feA)] ++ vsrcRegs f.b) (fun c => [.vec f.va.val (sourceView c f.va k.wid), vsrcOperand c l k.wid f.b]) (relElem rel k)

/-- What VCEQ does in the lanes: equal as codes (R174). -/
def laneVceq (f : VCmpForm) : Lane → M Unit := cmpRun f false (codeRel fun _ a b => a == b)

/-- VCEQ (R174). -/
def execVceq (f : VCmpForm) (s : State) : Out := vector (.vceq f) (cmpIssue f) (laneVceq f) s

/-- What VCNE does in the lanes: not equal as codes (R174). -/
def laneVcne (f : VCmpForm) : Lane → M Unit := cmpRun f false (codeRel fun _ a b => a != b)

/-- VCNE (R174). -/
def execVcne (f : VCmpForm) (s : State) : Out := vector (.vcne f) (cmpIssue f) (laneVcne f) s

/-- What VCLT does in the lanes: less in two's complement (R174). -/
def laneVclt (f : VCmpForm) : Lane → M Unit := cmpRun f false (codeRel fun f a b => sextNat f.wid a < sextNat f.wid b)

/-- VCLT (R174). -/
def execVclt (f : VCmpForm) (s : State) : Out := vector (.vclt f) (cmpIssue f) (laneVclt f) s

/-- What VCLE does in the lanes: less or equal in two's complement (R174). -/
def laneVcle (f : VCmpForm) : Lane → M Unit := cmpRun f false (codeRel fun f a b => sextNat f.wid a ≤ sextNat f.wid b)

/-- VCLE (R174). -/
def execVcle (f : VCmpForm) (s : State) : Out := vector (.vcle f) (cmpIssue f) (laneVcle f) s

/-- What VCLTU does in the lanes: less, unsigned (R174). -/
def laneVcltu (f : VCmpForm) : Lane → M Unit := cmpRun f false (codeRel fun _ a b => a < b)

/-- VCLTU (R174). -/
def execVcltu (f : VCmpForm) (s : State) : Out := vector (.vcltu f) (cmpIssue f) (laneVcltu f) s

/-- What VFCEQ does in the lanes: equal as values; false if either is NaN (R174). -/
def laneVfceq (f : VCmpForm) : Lane → M Unit := cmpRun f true (valueRel (false, 0) fun x y => x.eqv y)

/-- VFCEQ (R174). -/
def execVfceq (f : VCmpForm) (s : State) : Out := vector (.vfceq f) (cmpIssue f) (laneVfceq f) s

/-- What VFCLT does in the lanes: less as values; false with NV if either is NaN (R174). -/
def laneVfclt (f : VCmpForm) : Lane → M Unit := cmpRun f true (valueRel (false, fNV) fun x y => x.lt y false)

/-- VFCLT (R174). -/
def execVfclt (f : VCmpForm) (s : State) : Out := vector (.vfclt f) (cmpIssue f) (laneVfclt f) s

/-- What VFCLE does in the lanes: less or equal as values; false with NV if either is NaN (R174). -/
def laneVfcle (f : VCmpForm) : Lane → M Unit := cmpRun f true (valueRel (false, fNV) fun x y => !y.lt x false)

/-- VFCLE (R174). -/
def execVfcle (f : VCmpForm) (s : State) : Out := vector (.vfcle f) (cmpIssue f) (laneVfcle f) s

/-- What VFCUN does in the lanes: either operand is NaN (R174). -/
def laneVfcun (f : VCmpForm) : Lane → M Unit := cmpRun f true (valueRel (true, 0) fun _ _ => false)

/-- VFCUN (R174). -/
def execVfcun (f : VCmpForm) (s : State) : Out := vector (.vfcun f) (cmpIssue f) (laneVfcun f) s

/-- What VBAND does in the lanes: the bitmap words intersect (R176). -/
def laneVband (f : VCmpForm) : Lane → M Unit := cmpRun f false (codeRel fun _ a b => a &&& b != 0)

/-- VBAND (R176). -/
def execVband (f : VCmpForm) (s : State) : Out := vector (.vband f) (cmpIssue f) (laneVband f) s

/-! Mask functions (R175). They ignore VSTART and leave it 0 (R166). -/

/-- A mask function of the bits of [0, VL); the rest is Tail, and bits from Lim up stay (R175). -/
def maskLogic (md : Fin 8) (new : Ctx → Nat) (l : Lane) : M Unit := do
  let k ← needVtypeEntry l
  let n := l.nAt k.wid
  modMe fun c =>
    let old := c.m[md].toNat
    let low := 2 ^ min l.vl n
    let tail := if l.td then old / 2 ^ n * 2 ^ n else old / low * low
    let c := putMask c md (tail + new c % low)
    { c with vc := { c.vc with vstart := 0 } }

/-- What MAND does in the lanes (R175). -/
def laneMand (f : M3) : Lane → M Unit := maskLogic f.md fun c => (c.m[f.ma] &&& c.m[f.mb]).toNat

/-- MAND (R175). -/
def execMand (f : M3) (s : State) : Out := vector (.mand f) noRegs (laneMand f) s

/-- What MOR does in the lanes (R175). -/
def laneMor (f : M3) : Lane → M Unit := maskLogic f.md fun c => (c.m[f.ma] ||| c.m[f.mb]).toNat

/-- MOR (R175). -/
def execMor (f : M3) (s : State) : Out := vector (.mor f) noRegs (laneMor f) s

/-- What MXOR does in the lanes (R175). -/
def laneMxor (f : M3) : Lane → M Unit := maskLogic f.md fun c => (c.m[f.ma] ^^^ c.m[f.mb]).toNat

/-- MXOR (R175). -/
def execMxor (f : M3) (s : State) : Out := vector (.mxor f) noRegs (laneMxor f) s

/-- What MNOT does in the lanes (R175). -/
def laneMnot (f : M2) : Lane → M Unit := maskLogic f.md fun c => (~~~c.m[f.ma]).toNat

/-- MNOT (R175). -/
def execMnot (f : M2) (s : State) : Out := vector (.mnot f) noRegs (laneMnot f) s

/-- The elements of [0, VL) with their mask bit set that VM leaves active, as a number's bits (R175). -/
def activeBits (l : Lane) (mask m : Nat) : Nat := m % 2 ^ min l.vl 16384 &&& (if l.unmasked then m else mask)

/-- 1 bits of a number of at most 16,384 bits. -/
def countBits (v : Nat) : Nat := (unpack 1 16384 v).foldl (· + ·) 0

/-- Index of the lowest 1 bit among the low `n`. -/
def firstBit : Nat → Nat → Option Nat
  | 0, _ => none
  | n + 1, v => if v % 2 = 1 then some 0 else (firstBit n (v / 2)).map (· + 1)

/-- A scalar computed from a mask (R162, R175). -/
def maskScalar (f : MS) (g : Nat → Word) (l : Lane) : M Unit := do
  let mask ← activeMask l
  let m ← readMask f.ma
  clearVstart
  landS f.sd (g (activeBits l mask m))

/-- What MPOP does in the lanes (R175). -/
def laneMpop (f : MS) : Lane → M Unit := maskScalar f fun v => BitVec.ofNat 64 (countBits v)

/-- MPOP (R175). -/
def execMpop (f : MS) (s : State) : Out := vector (.mpop f) { noRegs with writes := some f.sd } (laneMpop f) s

/-- What MFIRST does in the lanes (R175). -/
def laneMfirst (f : MS) : Lane → M Unit := maskScalar f fun v =>
  match firstBit 16384 v with
  | some i => BitVec.ofNat 64 i
  | none => -1

/-- MFIRST (R175). -/
def execMfirst (f : MS) (s : State) : Out := vector (.mfirst f) { noRegs with writes := some f.sd } (laneMfirst f) s

end Sys2Proof.Machine
end

