-- ==== Sys2Proof/Machine/LoadStore.lean ====
section
/-! DEFINITION. LD, ST and the scalar atomics (R144 to R148, R157 to R160). -/

namespace Sys2Proof.Machine

/-- Bytes of a width. -/
def widthBytes : Width → Nat
  | .b | .bu => 1 | .h | .hu => 2 | .w | .wu => 4 | .d => 8

/-- What LD writes for a width (R146). -/
def widthExtend (k : Width) (v : Nat) : Word :=
  match k with
  | .b => (BitVec.ofNat 8 v).signExtend 64
  | .h => (BitVec.ofNat 16 v).signExtend 64
  | .w => (BitVec.ofNat 32 v).signExtend 64
  | .bu | .hu | .wu | .d => BitVec.ofNat 64 v

/-- Effective address (R144). -/
def lAddress (base : Word) (off : BitVec 11) : Nat := (base + off.signExtend 64).toNat

/-- The place a scalar access of the running context reaches (R144, R145). -/
def scalarLoc (a n : Nat) (acc : Acc) : M Loc := do
  let s ← get
  let w ← meWho
  coreLoc s.cur.core w a n n acc false

/-- The physical address of a poisoned unit a main-memory access reads (R348). -/
def poisonAt (l : Loc) (n : Nat) : M (Option Nat) := do
  let s ← get
  match l with
  | .mem pa _ => return if poisoned s pa n then some pa else none
  | .pool _ _ | .peer _ _ => return none

/-- A value read from a place goes to sd: a pool value at once, another when it lands (R148). -/
def landFrom (l : Loc) (r : Fin 32) (v : Word) : M Unit := do
  match l with
  | .pool _ _ => writeS r v
  | .mem pa _ => landAt r v (some pa)
  | .peer _ _ => landS r v

/-- Reads at a place for a scalar access: plain ones through the cache, strong ones past it (R147, R269). -/
def scalarRead (a : Nat) (l : Loc) (n : Nat) (plain : Bool) : M Nat := do
  let s ← get
  if plain then cachedRead s.cur.core a l n
  else
    strongPrep s.cur.core.val l
    locRead l n

/-- Writes at a place for a scalar access. -/
def scalarWrite (a : Nat) (l : Loc) (n v : Nat) (plain : Bool) : M Unit := do
  let s ← get
  if plain then cachedWrite s.cur.core a l n v
  else
    strongPrep s.cur.core.val l
    locWrite l n v

/-! Stores not yet performed (R280, R281): while values are held back, a scalar store may wait behind the context's vector accesses and engine commands; its own scalar accesses of a common byte, and whatever R280 orders after it, come after it. -/

/-- Whether a pending store touches a byte of an access. -/
def PStore.touches (p : PStore) (l : Loc) (n : Nat) : Bool :=
  match p.loc, l with
  | .pool c a, .pool d b | .pool c a, .peer d b | .peer c a, .pool d b | .peer c a, .peer d b => c == d && a < b + n && b < a + p.bytes
  | .mem a _, .mem b _ => a < b + n && b < a + p.bytes
  | _, _ => false

/-- Performs the pending stores up to the last that touches an access. -/
def drainFor (l : Loc) (n : Nat) : M Unit := modify fun s =>
  if s.me.stores.isEmpty then s
  else landStores s s.cur (s.me.stores.zipIdx.foldl (fun k p => if p.1.touches l n then p.2 + 1 else k) 0)

/-- Performs every pending store (R280). -/
def drainAll : M Unit := modify fun s => performStores s s.cur

/-- Whether a store to a place may be performed later: one to healthy memory or pool bytes. -/
def mayPend (s : State) (a : Nat) (l : Loc) (n : Nat) (plain : Bool) : Bool :=
  s.late &&
    match l with
    | .pool c off | .peer c off => !poolPoisoned (s.core c) off n
    | .mem pa _ => physKind s pa == .memory && (plain || homeHere s l) && !(plain && isBound s s.cur.core a)

/-- LD (R144 to R148). -/
def execLd (f : LForm) (s : State) : Out :=
  scalar (do
    let b ← readS f.sa
    awaitS f.r
    let a := lAddress b f.off
    let n := widthBytes f.width
    let l ← scalarLoc a n .read
    drainFor l n
    let bad ← poisonAt l n
    match bad with
    | some pa => landPoison f.r pa
    | none =>
      let v ← scalarRead a l n (f.order == .plain)
      landFrom l f.r (widthExtend f.width v)) s

/-- ST (R144 to R147). -/
def execSt (f : LForm) (s : State) : Out :=
  scalar (do
    let b ← readS f.sa
    let v ← readS f.r
    let a := lAddress b f.off
    let n := widthBytes f.width
    let l ← scalarLoc a n .write
    let s ← get
    if f.order == .sync && !mayPend s a l n false then
      drainAll
      awaitAcks l
    let s ← get
    if mayPend s a l n (f.order == .plain) then
      modMe fun c => { c with stores := c.stores ++ [{ loc := l, bytes := n, value := v.toNat, rel := f.order == .sync }] }
    else
      drainFor l n
      scalarWrite a l n v.toNat (f.order == .plain)) s

/-- What an atomic writes (R157): none when it writes nothing. -/
def AmoOp.apply (op : AmoOp) (old b cmp : Word) : Option Word :=
  match op with
  | .add => some (old + b)
  | .swp => some b
  | .cas => if old = cmp then some b else none
  | .min => some (if old.slt b then old else b)
  | .max => some (if old.slt b then b else old)
  | .and => some (old &&& b)
  | .or => some (old ||| b)
  | .xor => some (old ^^^ b)

/-- The physical address of an atomic that the scalar data cache serves: one of core scope on bound memory (R159, R269). At an unbound address the coherent line and memory are one. -/
def amoCached (s : State) (sc : Scope) (a : Nat) (l : Loc) : Option Nat :=
  match l with
  | .mem pa _ => if sc == .core && isBound s s.cur.core a && physKind s pa == .memory then some pa else none
  | .pool _ _ | .peer _ _ => none

/-- A scalar atomic (R157 to R160): at its point of coherence, or, of core scope, in the scalar data cache (R159, R269). -/
def amo (f : XForm) (op : AmoOp) : M Unit := do
  let a ← readS f.sa
  let b ← readS f.sb
  let cmp ← readS f.sd
  let l ← scalarLoc a.toNat 8 .write
  if f.order == .release then
    drainAll
    awaitAcks l
  drainFor l 8
  let bad ← poisonAt l 8
  match bad with
  | some pa => landPoison f.sd pa
  | none =>
    let s ← get
    let k := amoCached s f.scope a.toNat l
    let core := s.cur.core.val
    let old ← match k with
      | some pa => cachedAmoRead core a.toNat pa 8
      | none => scalarRead a.toNat l 8 false
    match op.apply (BitVec.ofNat 64 old) b cmp, k with
    | some v, some pa => cachedAmoWrite core a.toNat pa 8 v.toNat
    | some v, none => locPut l 8 v.toNat
    | none, _ => pure ()
    landFrom l f.sd (BitVec.ofNat 64 old)

/-- AMOADD (R157). -/
def execAmoadd (f : XForm) (s : State) : Out := scalar (amo f .add) s

/-- AMOSWP (R157). -/
def execAmoswp (f : XForm) (s : State) : Out := scalar (amo f .swp) s

/-- AMOCAS (R157): sd holds the compare value. -/
def execAmocas (f : XForm) (s : State) : Out := scalar (amo f .cas) s

/-- AMOMIN (R157). -/
def execAmomin (f : XForm) (s : State) : Out := scalar (amo f .min) s

/-- AMOMAX (R157). -/
def execAmomax (f : XForm) (s : State) : Out := scalar (amo f .max) s

/-- AMOAND (R157). -/
def execAmoand (f : XForm) (s : State) : Out := scalar (amo f .and) s

/-- AMOOR (R157). -/
def execAmoor (f : XForm) (s : State) : Out := scalar (amo f .or) s

/-- AMOXOR (R157). -/
def execAmoxor (f : XForm) (s : State) : Out := scalar (amo f .xor) s

end Sys2Proof.Machine
end

