-- ==== Sys2Proof/Machine/Stream.lean ====
section
/-! DEFINITION. Streams: descriptors and their checks (R183, R184), QCTL (R185 to R187), element addresses and the walk (R188, R189), the checks of an element access (R191), and reading ahead (R136, R190). -/

namespace Sys2Proof.Machine

/-! Descriptors (R183). -/

def Desc.ent (d : Desc) : Nat := wbits d.ctl 0 4

def Desc.writes (d : Desc) : Bool := nbit d.ctl.toNat 4

def Desc.lay (d : Desc) : Bool := nbit d.ctl.toNat 5

/-- Dimensions used. -/
def Desc.ndim (d : Desc) : Nat := wbits d.ctl 6 2 + 1

def Desc.port (d : Desc) : Nat := wbits d.ctl 9 2

/-- Counts and strides of the dimensions. -/
def Desc.dims (d : Desc) : List (Nat × Word) := (d.count.toList.map (·.toNat)).zip d.stride.toList

/-- Counts and strides of the used dimensions. -/
def Desc.used (d : Desc) : List (Nat × Word) := d.dims.take d.ndim

/-- T (R184): elements, blocks or frames. -/
def Desc.total (d : Desc) : Nat := (d.used.map (·.1)).foldl (· * ·) 1

/-- COUNT0. -/
def Desc.row (d : Desc) : Nat := (d.count[0]).toNat

/-- Checks 2 to 8 of R184 with W; the first that fails, 0 when all pass. -/
def descCheck (d : Desc) (w : Nat) : Nat :=
  let strides := d.stride.toList.map (·.toNat)
  if !(wbits d.ctl 11 53 == 0 && !nbit d.ctl.toNat 8 && d.port != 3) then 2
  else if !(d.used.all (fun x => 1 ≤ x.1) && (d.dims.drop d.ndim).all (fun x => x.1 == 0 && x.2 == 0)) then 3
  else if !(d.total < 2 ^ 48 && (!d.lay || d.total < 2 ^ 31)) then 4
  else if !(d.lay || w < 8 || (d.base.toNat % (w / 8) == 0 && strides.all (fun x => x % (w / 8) == 0))) then 5
  else if !(d.lay || (w != 4 && w != 6) || d.stride[0] == 0) then 6
  else if !(!d.lay || (d.ndim == 1 && d.stride[0] == 0 && d.base.toNat % 64 == 0)) then 7
  else if wbits d.base 56 8 != 0 then 8
  else 0

/-- The descriptor in 64 bytes, byte 0 in the low bits. -/
def descOf (v : Nat) : Desc :=
  { base := BitVec.ofNat 64 v, ctl := BitVec.ofNat 64 (v / 2 ^ 64)
    count := #v[BitVec.ofNat 32 (nbits v 128 32), BitVec.ofNat 32 (nbits v 160 32), BitVec.ofNat 32 (nbits v 192 32), BitVec.ofNat 32 (nbits v 224 32)]
    stride := #v[BitVec.ofNat 64 (nbits v 256 64), BitVec.ofNat 64 (nbits v 320 64), BitVec.ofNat 64 (nbits v 384 64), BitVec.ofNat 64 (nbits v 448 64)] }

/-! Stream registers (R185 to R187). -/

/-- Waits for every earlier vector memory instruction that names the stream register (R187). -/
def awaitQ (q : Fin 16) : M Unit := do
  let s ← get
  waitUnless (!(s.me.queue.any (fun e => namesQ e.instr == some q)) &&
    !(s.myCore.arr.ops.any fun o => o.lc == s.cur.lc && (match o.entry with | some e => namesQ e.instr == some q | none => false)))

def putQ (q : Fin 16) (r : QReg) : M Unit := modMe fun c => { c with q := c.q.set q r }

def getQ (q : Fin 16) : M QReg := do
  let c ← getMe
  return c.q[q]

/-- Reads bytes in aligned words of 8, little-endian: a descriptor, with a load's checks. -/
def readWords (a : Nat) : Nat → M Nat
  | 0 => pure 0
  | n + 1 => do
    let l ← scalarLoc a 8 .read
    drainFor l 8
    match ← poisonAt l 8 with
    | some pa => throw (.stopAt .memUe pa)
    | none =>
      let v ← scalarRead a l 8 true
      let r ← readWords (a + 8) n
      return v + 2 ^ 64 * r

/-- A register just bound (R186, R427). -/
def QReg.bind (d : Desc) : QReg := { QReg.reset with bound := true, desc := d, block := some d.base }

/-- The causes that make a descriptor unreadable; a translation cause is raised in its own name instead (R184, R316). -/
def Cause.unreadable : Cause → Bool
  | .vaNoncanon | .misaligned | .lpPart | .lpRange | .encPage | .encWindow => true
  | _ => false

/-- Reads a descriptor's 64 bytes: check 1 of R184. -/
def readDesc (a : Nat) : M Nat := do
  needN (a % 64 == 0) .streamDesc 1
  match ← attempt (readWords a 8) with
  | .ok v => return v
  | .error (.cause c v) => if c.unreadable then trapN .streamDesc 1 else throw (.cause c v)
  | .error x => throw x

/-- QBIND (R184, R186). -/
def execQbind (f : QAForm) (s : State) : Out :=
  scalar (do
    awaitQ f.q
    let a ← readS f.sa
    let v ← readDesc a.toNat
    let d := descOf v
    let c ← getMe
    let k := fmtOf (entWord c.ents d.ent)
    let n := descCheck d (if k.valid then k.wid else 0)
    needN (n == 0) .streamDesc n
    putQ f.q (QReg.bind d)) s

/-- QFREE (R186). -/
def execQfree (f : QForm) (s : State) : Out :=
  scalar (do
    awaitQ f.q
    putQ f.q QReg.reset) s

/-- QSEEK (R186, R427). An unbound register is refused before a word that R186 does not take (DESIGN CHOICE, log 54). -/
def execQseek (f : QAForm) (s : State) : Out :=
  scalar (do
    awaitQ f.q
    let a ← readS f.sa
    let r ← getQ f.q
    needU r.bound .streamUnbound
    needN (wbits a 48 16 == 0 && (!r.desc.lay || wbits a 0 17 == 0)) .streamDesc 0
    putQ f.q { r with pos := a.extractLsb' 0 48, held := none, prep := [], early := [], block := none }) s

/-- Whether the walk has reached the stream's end (R185). -/
def QReg.atEnd (r : QReg) : Bool :=
  if r.desc.lay then r.desc.total ≤ r.pos.toNat / 2 ^ 17 else r.desc.total ≤ r.pos.toNat

/-- The word of R185. -/
def QReg.word (r : QReg) : Word :=
  if r.bound then
    BitVec.ofNat 64 (r.desc.writes.toNat * 2 ^ 51 + r.atEnd.toNat * 2 ^ 50 + r.held.isSome.toNat * 2 ^ 49 + 2 ^ 48 + r.pos.toNat)
  else r.pos.setWidth 64

/-- QSTAT (R185, R186). -/
def execQstat (f : QDForm) (s : State) : Out :=
  scalar (do
    awaitQ f.q
    let r ← getQ f.q
    writeS f.sd r.word) s

/-- Items 1 to 3 of R192: bound, the direction, the layout. -/
def needStream (q : Fin 16) (writes lay : Bool) : M QReg := do
  let r ← getQ q
  needU r.bound .streamUnbound
  needU (r.desc.writes == writes) .streamDir
  needU (r.desc.lay == lay) .streamFmt
  return r

/-! Element addresses and the walk (R188, R189). -/

/-- Indices of a position; the outermost takes what is left. -/
def walkIdx : List Nat → Nat → List Nat
  | [], _ => []
  | [_], p => [p]
  | c :: cs, p => p % c :: walkIdx cs (p / c)

/-- Where an element begins: a byte address and a bit offset in it. -/
structure Spot where
  va : Nat
  bit : Nat
  deriving DecidableEq, Repr

/-- Sum of index times stride, VS in place of a zero stride. -/
def strideSum (vs : Word) (l : List (Nat × Word)) : Word :=
  l.foldl (fun a x => a + BitVec.ofNat 64 x.1 * (if x.2 = 0 then vs else x.2)) 0

/-- Place of the element at a position (R188); `packed` is its width in bits on a packed stream. -/
def elemSpot (d : Desc) (packed : Option Nat) (vs : Word) (p off : Nat) : Spot :=
  let ix := (walkIdx (d.used.map (·.1)) p).zip (d.used.map (·.2))
  match packed, ix with
  | some w, i :: rest =>
    let b := d.base + strideSum vs rest
    let n := i.1 * w + off
    { va := (b + BitVec.ofNat 64 (n / 8)).toNat, bit := n % 8 }
  | _, _ => { va := (d.base + strideSum vs ix).toNat, bit := 0 }

/-- VSHAPE's fields (R48). -/
def Lane.rows (l : Lane) : Nat := wbits l.cap.vshape 16 16

def Lane.rowLen (l : Lane) : Nat := wbits l.cap.vshape 0 16

/-- Whether VSHAPE holds. -/
def Lane.shaped (l : Lane) : Bool := l.cap.vshape != 0

/-- The position of an element from a stream position (R189). -/
def elemPos (l : Lane) (d : Desc) (pos e : Nat) : Nat :=
  if l.shaped then pos + e / l.rowLen * d.row + e % l.rowLen else pos + e

/-- Whether an element is an edge element (R189). -/
def isEdge (l : Lane) (d : Desc) (pos e : Nat) : Bool :=
  l.shaped && (d.row ≤ pos % d.row + e % l.rowLen || d.total ≤ elemPos l d pos e)

/-- The stream position after an instruction that granted `g` elements (R189). -/
def advancePos (l : Lane) (d : Desc) (pos g : Nat) : Nat :=
  if l.shaped then
    let m := pos % d.row
    if m + l.rowLen < d.row then pos + l.rowLen else pos - m + l.rows * d.row
  else pos + g

/-! Element accesses (R191). -/

/-- Whose access an instruction in the lanes makes. -/
def laneWho (l : Lane) : M Who := do
  let s ← get
  return { asid := s.me.asid, priv := l.priv, holder := .core s.cur.core.val }

/-- Whether an address lies on the path PORT asks for: by the virtual address alone, whatever its page maps (DESIGN CHOICE, log 27). -/
def portOk (port va : Nat) : Bool := port = 0 || (if port = 1 then ownBase ≤ va else va < ownBase)

/-- The checks of R191 on an element's address and position: `align` is the element's size in memory, 0 for none, `ended` says that its position lies at or above T. -/
def elemCheck (port va align : Nat) (ended : Bool) : M Unit := do
  needN (va < 2 ^ 56) .vaNoncanon va
  needN (align = 0 || va % align == 0) .misaligned va
  needN (!ended) .streamEnd va
  needN (portOk port va) .streamFmt va

/-- The place of an element access after the checks of R191; `enc` says that encoded pages and windows are allowed. -/
def elemLoc (l : Lane) (port va n align : Nat) (ended : Bool) (acc : Acc) (enc : Bool) : M Loc := do
  elemCheck port va align ended
  let s ← get
  let w ← laneWho l
  coreLoc s.cur.core w va n 1 acc enc

/-- Notes the page of a main-memory read whose value is held back (R349). -/
def notePage (p : Loc) : M Unit := modify fun s =>
  match p with
  | .mem pa _ => if s.late && !s.me.readPages.any (fun p => p.1 == pa / 4096) then s.modMe fun c => { c with readPages := (pa / 4096, none) :: c.readPages } else s
  | .pool _ _ | .peer _ _ => s

/-- The pages noted since are those of an element, or of a line. -/
def stampPages (e : Nat) : M Unit := modify fun s =>
  if s.late then s.modMe fun c => { c with readPages := c.readPages.map fun p => (p.1, some (p.2.getD e)) } else s

/-- Reads at a place for the lanes; poison is a fault of the element (R348). -/
def laneRead (p : Loc) (n : Nat) : M Nat := do
  match ← poisonAt p n with
  | some pa => throw (.stopAt .memUe pa)
  | none => do
    notePage p
    locRead p n

/-! Values read early (R136) are kept by their place in the stream: position times 128 plus the byte of the element, or, on a stream of blocks or frames, index times 2^20 plus the byte of the block. -/

/-- Key of a byte of the element at a position. -/
def elemKey (p b : Nat) : Nat := p * 128 + b

/-- Key of a byte of the block or frame at the stream's index. -/
def blockKey (r : QReg) (b : Nat) : Nat := r.pos.toNat / 2 ^ 17 * 2 ^ 20 + b

/-- Bytes when every one of them has been read early (R136). -/
def earlyBytes (r : QReg) (key n : Nat) : Option Nat :=
  if r.early.isEmpty then none
  else if (List.range n).all (fun i => r.early.any fun b => b.1 == key + i) then
    some (memRead r.early key n)
  else none

/-- Reads bytes one at a time, those read early from the stream register. -/
def streamBytes (l : Lane) (r : QReg) (key va : Nat) (enc : Bool) : List Nat → M Nat
  | [] => pure 0
  | i :: is => do
    let b ← match earlyBytes r (key + i) 1 with
      | some v => pure v
      | none => do
        let p ← elemLoc l r.desc.port (va + i) 1 0 false .read enc
        laneRead p 1
    let rest ← streamBytes l r key va enc is
    return b + 256 * rest

/-- Whether some of the bytes of an access have been read early. -/
def QReg.hasEarly (r : QReg) (key n : Nat) : Bool := r.early.any fun b => key ≤ b.1 && b.1 < key + n

/-- Reads an element of a stream: its checks, then what was read early and what was not. -/
def streamRead (l : Lane) (r : QReg) (key va n align : Nat) (ended enc : Bool) : M Nat := do
  if r.hasEarly key n then
    elemCheck r.desc.port va align ended
    streamBytes l r key va enc (List.range n)
  else
    let p ← elemLoc l r.desc.port va n align ended .read enc
    laneRead p n

/-- Runs an element's access and hands its fault on; a wait and a poisoned pool word end the instruction. -/
def elemTry {α : Type} (x : M α) : M (Except Exc α) := do
  match ← attempt x with
  | .ok v => return .ok v
  | .error .wait => throw .wait
  | .error (.stopAt .sramUe a) => throw (.stopAt .sramUe a)
  | .error e => return .error e

/-- What a run over elements gives: the values of the elements reached, and the fault that ended it. -/
structure ElemRun (α : Type) where
  vals : List (Nat × α)
  fault : Option (Nat × Exc)

/-- Runs elements in order up to the first fault (R97). -/
def tryElems {α : Type} (f : Nat → M α) : List Nat → M (ElemRun α)
  | [] => pure { vals := [], fault := none }
  | e :: es => do
    match ← elemTry (f e) with
    | .error x => return { vals := [], fault := some (e, x) }
    | .ok v =>
      stampPages e
      let r ← tryElems f es
      return { r with vals := (e, v) :: r.vals }

/-- Puts the translations the stream engine has prepared at the core's disposal (R190). -/
def usePrepared (r : QReg) : M Unit :=
  if r.prep.isEmpty then pure () else modCore fun c => { c with tlb := r.prep.filter (fun t => !c.tlb.contains t) ++ c.tlb }

/-- Reads a range of the block at an address in parts, in ascending address, up to the first fault: the bytes as a number, how many, and the fault. -/
def readParts (l : Lane) (r : QReg) (enc : Bool) (blk : Nat) : List (Nat × Nat) → M (Nat × Nat × Option Exc)
  | [] => pure (0, 0, none)
  | (va, n) :: rest => do
    match ← elemTry (streamRead l r (blockKey r (va - blk)) va n 0 false enc) with
    | .error x => return (0, 0, some x)
    | .ok v =>
      let t ← readParts l r enc blk rest
      return (v + 2 ^ (8 * n) * t.1, n + t.2.1, t.2.2)

/-- The words a range is accessed in. -/
def spanWords (va n : Nat) : List (Nat × Nat) :=
  (List.range ((n + 7) / 8)).map fun i => (va + 8 * i, min 8 (n - 8 * i))

/-- Reads a range of the block at `blk` in words of at most 8 bytes, one byte at a time where some bytes of a word were read early. -/
def readSpan (l : Lane) (r : QReg) (enc : Bool) (blk va n : Nat) : M (Nat × Nat × Option Exc) :=
  readParts l r enc blk ((spanWords va n).flatMap fun w =>
    if r.hasEarly (blockKey r (w.1 - blk)) w.2 then (List.range w.2).map fun i => (w.1 + i, 1) else [w])

/-- Writes a number's bytes over a range in words of at most 8 bytes, in ascending address, up to the first fault: how many bytes were written, and the fault. -/
def writeSpan (l : Lane) (port : Nat) (enc : Bool) : List (Nat × Nat) → Nat → M (Nat × Option Exc)
  | [], _ => pure (0, none)
  | (va, n) :: rest, v => do
    let x : M Unit := do
      let p ← elemLoc l port va n 0 false .write enc
      locWrite p n (v % 2 ^ (8 * n))
    match ← elemTry x with
    | .error e => return (0, some e)
    | .ok _ =>
      let t ← writeSpan l port enc rest (v / 2 ^ (8 * n))
      return (n + t.1, t.2)

/-- The fault of an early or prepared access is held (R136, R190). -/
def QReg.hold (r : QReg) (va : Nat) : QReg := { r with held := match r.held with | some h => some h | none => some (BitVec.ofNat 64 va) }

/-- An access to be made early: key, address, bytes, alignment. -/
abbrev Early := Nat × Nat × Nat × Nat

/-- Reads bytes early into a stream register, those it does not hold yet; a fault is held there, and a wait is the instruction's (R136). -/
def readEarly (l : Lane) (enc : Bool) : List Early → QReg → M QReg
  | [], r => pure r
  | (key, va, n, align) :: rest, r => do
    if (earlyBytes r key n).isSome then readEarly l enc rest r
    else
      let x : M Nat := do
        let p ← elemLoc l r.desc.port va n align false .read enc
        laneRead p n
      match ← attempt x with
      | .error .wait => throw .wait
      | .error _ => readEarly l enc rest (r.hold va)
      | .ok v => readEarly l enc rest { r with early := r.early.filter (fun b => b.1 < key || key + n ≤ b.1) ++ (numBytes n v).zipIdx.map fun b => (key + b.2, b.1) }

end Sys2Proof.Machine
end

