-- ==== Sys2Proof/Machine/Vmem.lean ====
section
/-! DEFINITION. Vector loads and stores of plain streams: VLD, VLDB, VLDSEG, VST, VSTSEG (R192, R193, R196), and the run over elements that gathers, lane tables and atomics share. -/

namespace Sys2Proof.Machine

/-- Item 4 of R192: the entries used are valid. -/
def streamFmt (l : Lane) (d : Desc) : M Fmt := needEntry l d.ent

/-- Converts a code between entries (R64, R196), with flags and saturation counts. -/
def convCode (l : Lane) (src dst : Nat) (c : Nat) : M Nat := do
  let fd := fmtOf (l.ent dst)
  let x ← getMe
  let r := convert c (fmtOf (l.ent src)) fd (roundingMode l.cap.rmo fd) x.fc.seed
  modMe fun x => applyRaised x ((Raised.start x.fc.seed).add r 1 0 0)
  return r.code

/-- Fill of a load (R193): the code unchanged when the captured words are equal, else converted. -/
def moveCode (l : Lane) (src dst : Nat) (c : Nat) : M Nat := if l.ent src == l.ent dst then return c else convCode l src dst c

/-- Written elements of an instruction, in order. -/
def writtenElems (l : Lane) (mask : Nat) : List Nat := (List.range l.vl).filter (l.written mask)

/-- Elements a load makes from what it read: `vl` bounds the elements before the tail, `td` clears it (R90, R97). -/
def loadImage (n vl : Nat) (td : Bool) (old : View) (vals : List (Nat × Nat)) : List Nat :=
  let a := vals.foldl (fun a p => a.setIfInBounds p.1 (some p.2)) (Array.replicate n (none : Option Nat))
  (List.range n).map fun e =>
    match a.getD e none with
    | some v => v
    | none => if vl ≤ e && td then 0 else old.at e

/-- Writes a load's destinations. Held-back values leave them empty until VALUE_LANDS (R26). -/
def loadWrite (l : Lane) (sew vl : Nat) (td : Bool) (regs : List (Fin 32)) (vals : List (Nat × List Nat)) : M Unit := do
  let s ← get
  forM' regs.zipIdx fun r => modMe fun c =>
    let img := loadImage (l.nAt sew) vl td (oldView c r.1 sew) (vals.map fun p => (p.1, p.2.getD r.2 0))
    putRes c r.1 (encodeElems l sew img) (if td then some (tailSlab vl sew) else none) (!s.late)



/-- Fixes the granted length (R154). -/
def trimVl (e : Nat) : M Unit := modMe fun c => { c with vc := { c.vc with vl := BitVec.ofNat 64 e } }

/-- The access of an element that a pre-emption point does not stop before (R341). -/
def unlessStopped {α : Type} (l : Lane) (f : Nat → M α) (e : Nat) : M α :=
  match l.stop with
  | none => f e
  | some k => if k ≤ e then throw .split else f e

/-- StreamLoad's loop and its end (R192): `fetch` gives an element's values, one for each destination; `trims` says that a fault above the first Written element trims; `advance` moves the stream by a granted length. -/
def loadRun (l : Lane) (sew : Nat) (regs : List (Fin 32)) (elems : List Nat) (trims : Bool) (fetch : Nat → M (List Nat)) (advance : Nat → M Unit) : M Unit := do
  let r ← tryElems (unlessStopped l fetch) elems
  match r.fault with
  | none =>
    loadWrite l sew l.vl l.td regs r.vals
    advance l.vl
    clearVstart
  | some (e, x) =>
    if trims && !l.noTrim && x != .split && elems.head? != some e then
      loadWrite l sew e l.td regs r.vals
      trimVl e
      advance e
      clearVstart
    else
      if l.vstart < e then loadWrite l sew e false regs r.vals
      setVstart e
      throw x

/-- StreamStore's loop and its end (R196). -/
def storeRun (l : Lane) (elems : List Nat) (put : Nat → M Unit) (advance : M Unit) : M Unit := do
  let r ← tryElems (unlessStopped l put) elems
  match r.fault with
  | none =>
    advance
    clearVstart
  | some (e, x) =>
    setVstart e
    throw x

/-- Moves a stream to a position; the values read early for the positions consumed are gone (R276). -/
def movePos (q : Fin 16) (pos : Nat) (used : List Nat) : M Unit := do
  let r ← getQ q
  putQ q { r with pos := BitVec.ofNat 48 pos, early := if r.early.isEmpty then [] else r.early.filter fun b => !used.contains (b.1 / 128) }

/-- Where a load's element is in memory: accesses of address, bytes and alignment. -/
abbrev Access := Nat × Nat × Nat

/-- Byte of an element, from its first one, at which an access begins. -/
def accessByte (d : Desc) (vs : Word) (packed : Option Nat) (p : Nat) (a : Access) : Nat := a.1 - (elemSpot d packed vs p 0).va

/-- The next strip's accesses (R136): `g` elements from the stream's new position, none beyond its end. -/
def nextStrip (l : Lane) (r : QReg) (packed : Option Nat) (g : Nat) (accesses : Nat → List Access) : List Early :=
  (List.range g).flatMap fun e =>
    let p := elemPos l r.desc r.pos.toNat e
    if isEdge l r.desc r.pos.toNat e || r.desc.total ≤ p then []
    else (accesses p).map fun a => (elemKey p (accessByte r.desc l.cap.vs packed p a), a.1, a.2.1, a.2.2)

/-- The advance of a load, with hint 0b100's early read (R136, R189). -/
def loadAdvance (l : Lane) (q : Fin 16) (hint : Fin 8) (packed : Option Nat) (accesses : Nat → List Access) (g : Nat) : M Unit := do
  let r ← getQ q
  movePos q (advancePos l r.desc r.pos.toNat g) (if r.early.isEmpty then [] else (List.range g).map (elemPos l r.desc r.pos.toNat))
  if hint = 4 then
    let r ← getQ q
    let r ← readEarly l false (nextStrip l r packed g accesses) r
    putQ q r

/-- Elements of a stream instruction that are Written and no edge elements. -/
def streamElems (l : Lane) (r : QReg) (mask : Nat) : List Nat :=
  (writtenElems l mask).filter fun e => !isEdge l r.desc r.pos.toNat e

/-- A load of plain stream elements: `accesses` gives an element's accesses at a position, `fill` makes its values of the position and what was read. -/
def streamLoad (l : Lane) (q : Fin 16) (hint : Fin 8) (sew : Nat) (packed : Option Nat) (regs : List (Fin 32)) (accesses : Nat → List Access) (fill : Nat → List Nat → M (List Nat)) : M Unit := do
  let r ← getQ q
  let mask ← activeMask l
  let whole := l.whole mask (l.nAt sew) && !(List.range (l.nAt sew)).any (isEdge l r.desc r.pos.toNat)
  forM' regs fun v => decodeDest v whole
  if l.vstart ≥ l.vl then clearVstart
  else
    usePrepared r
    let pos := r.pos.toNat
    loadRun l sew regs (streamElems l r mask) (!l.shaped) (fun e => do
      let p := elemPos l r.desc pos e
      let vs ← mapM' (accesses p) fun a => streamRead l r (elemKey p (accessByte r.desc l.cap.vs packed p a)) a.1 a.2.1 a.2.2 (r.desc.total ≤ p) false
      fill p vs) (loadAdvance l q hint packed accesses)

/-- What VLD does in the lanes (R193). -/
def laneVld (f : VLdForm) (l : Lane) : M Unit := do
  let r ← needStream f.q false false
  let mv ← needVtypeEntry l
  let ms ← streamFmt l r.desc
  needU (8 ≤ ms.wid) .streamFmt
  let n := ms.wid / 8
  streamLoad l f.q f.hint mv.wid none [f.vd] (fun p => [((elemSpot r.desc none l.cap.vs p 0).va, n, n)]) fun _ vs => do
    let c ← moveCode l r.desc.ent l.entNo (vs.getD 0 0)
    return [c]

/-- VLD (R192, R193). -/
def execVld (f : VLdForm) (s : State) : Out := vector (.vld f) { regs := [f.vd.val], reads := none, writes := none } (laneVld f) s

/-- Bytes a packed element touches, one access each. -/
def packedAccesses (d : Desc) (w : Nat) (vs : Word) (off p : Nat) : List Access :=
  let t := elemSpot d (some w) vs p off
  (List.range ((t.bit + w + 7) / 8)).map fun i => (t.va + i, 1, 0)

/-- What VLDB does in the lanes (R193). -/
def laneVldb (f : VLdbForm) (l : Lane) : M Unit := do
  let r ← needStream f.q false false
  let mv ← needVtypeEntry l
  let ms ← streamFmt l r.desc
  needU (ms.wid == 4 || ms.wid == 6) .streamFmt
  streamLoad l f.q f.hint mv.wid (some ms.wid) [f.vd] (packedAccesses r.desc ms.wid l.cap.vs f.off.val) fun p vs => do
    let bit := (elemSpot r.desc (some ms.wid) l.cap.vs p f.off.val).bit
    let c ← moveCode l r.desc.ent l.entNo (nbits (pack 8 vs) bit ms.wid)
    return [c]

/-- VLDB (R193). -/
def execVldb (f : VLdbForm) (s : State) : Out := vector (.vldb f) { regs := [f.vd.val], reads := none, writes := none } (laneVldb f) s

/-- Bytes of a field of a segment instruction. -/
def fieldBytes (fw : Fin 4) : Nat := 2 ^ fw.val

/-- A field widened or cut to a width (R193, R196). -/
def extField (sx : Bool) (n w v : Nat) : Nat := if sx && n < w then intMod w (sextNat n v) else v % 2 ^ w

/-- Accesses of a record: the fields, the first of them checked for the record's alignment (R193). -/
def recordAccesses (d : Desc) (vs : Word) (nf : Nat) (fw : Fin 4) (p : Nat) : List Access :=
  (List.range (nf + 1)).map fun i => ((elemSpot d none vs p 0).va + i * fieldBytes fw, fieldBytes fw, fieldBytes fw)

/-- What VLDSEG does in the lanes (R193). -/
def laneVldseg (f : VSegForm) (l : Lane) : M Unit := do
  let r ← needStream f.q false false
  let mv ← needVtypeEntry l
  needU (mv.wid == 8 || mv.wid == 16 || mv.wid == 32) .streamFmt
  streamLoad l f.q f.hint mv.wid none ((segRegs f.vd.val f.nf.val).map (Fin.ofNat 32)) (recordAccesses r.desc l.cap.vs f.nf.val f.fw) fun _ vs =>
    return vs.map (extField f.sx (8 * fieldBytes f.fw) mv.wid)

/-- VLDSEG (R193). -/
def execVldseg (f : VSegForm) (s : State) : Out :=
  vector (.vldseg f) { regs := segRegs f.vd.val f.nf.val, reads := none, writes := none } (laneVldseg f) s

/-- A store of plain stream elements; `put` stores an element at a position. -/
def streamStore (l : Lane) (q : Fin 16) (put : Nat → Nat → M Unit) : M Unit := do
  let r ← getQ q
  let mask ← activeMask l
  if l.vstart ≥ l.vl then clearVstart
  else
    usePrepared r
    let pos := r.pos.toNat
    storeRun l (streamElems l r mask) (fun e => put e (elemPos l r.desc pos e)) (movePos q (advancePos l r.desc pos l.vl) [])

/-- Stores a code's `w` bits from bit `bit` of the first of some bytes on, keeping the bytes' other bits, which have been read (R196). -/
def putPacked (ps : List (Loc × Nat)) (bit w c : Nat) : M Unit := do
  let v := c % 2 ^ w * 2 ^ bit
  let m := (2 ^ w - 1) * 2 ^ bit
  forM' ps.zipIdx fun p => do
    let k := nbits m (8 * p.2) 8
    locWrite p.1.1 1 ((p.1.2 ||| k) ^^^ k ||| nbits v (8 * p.2) 8)

/-- What VST does in the lanes (R196): every check and read of an element comes before its conversion, so that a fault at it leaves no flag, count or draw of it (R97). Equal captured words are converted too, as R196 says; 17_larino.md speaks of codes moved unchanged for an integer entry, where the two are one (log 54). -/
def laneVst (f : VStForm) (l : Lane) : M Unit := do
  let r ← needStream f.q true false
  let mv ← needVtypeEntry l
  let ms ← streamFmt l r.desc
  decodeSource f.vs f.fe
  let c ← getMe
  let a := sourceView c f.vs mv.wid
  streamStore l f.q fun e p => do
    let ended := r.desc.total ≤ p
    if ms.wid = 4 || ms.wid = 6 then
      let ps ← mapM' (packedAccesses r.desc ms.wid l.cap.vs 0 p) fun x => do
        let loc ← elemLoc l r.desc.port x.1 1 0 ended .write false
        let old ← laneRead loc 1
        return (loc, old)
      let c ← convCode l l.entNo r.desc.ent (a.at e)
      putPacked ps (elemSpot r.desc (some ms.wid) l.cap.vs p 0).bit ms.wid c
    else
      let n := ms.wid / 8
      let va := (elemSpot r.desc none l.cap.vs p 0).va
      let loc ← elemLoc l r.desc.port va n n ended .write false
      let c ← convCode l l.entNo r.desc.ent (a.at e)
      locWrite loc n c

/-- VST (R196). -/
def execVst (f : VStForm) (s : State) : Out := vector (.vst f) { regs := [f.vs.val], reads := none, writes := none } (laneVst f) s

/-- What VSTSEG does in the lanes (R196). -/
def laneVstseg (f : VStSegForm) (l : Lane) : M Unit := do
  let r ← needStream f.q true false
  let mv ← needVtypeEntry l
  needU (mv.wid == 8 || mv.wid == 16 || mv.wid == 32) .streamFmt
  let regs := (segRegs f.vs.val f.nf.val).map (Fin.ofNat 32)
  forM' regs fun v => decodeSource v f.fe
  let c ← getMe
  let views := regs.map fun v => sourceView c v mv.wid
  let n := fieldBytes f.fw
  streamStore l f.q fun e p => do
    let locs ← mapM' (recordAccesses r.desc l.cap.vs f.nf.val f.fw p) fun a => elemLoc l r.desc.port a.1 a.2.1 a.2.2 (r.desc.total ≤ p) .write false
    forM' (locs.zip views) fun x => locWrite x.1 n (extField f.sx mv.wid (8 * n) (x.2.at e))

/-- VSTSEG (R196). -/
def execVstseg (f : VStSegForm) (s : State) : Out :=
  vector (.vstseg f) { regs := segRegs f.vs.val f.nf.val, reads := none, writes := none } (laneVstseg f) s

end Sys2Proof.Machine
end

