-- ==== Sys2Proof/Machine/Matrix.lean ====
section
/-! DEFINITION. The matrix array: operand slots (R206 to R211), tiles and planes (R38, R212), products (R102, R213 to R216), promotion (R103, R217), moves to and from vector registers (R218, R219), and the array's numbering (R221). -/

namespace Sys2Proof.Machine

/-! Slots. -/

def modSlot (core : Nat) (n : Fin 32) (f : Slot → Slot) : M Unit :=
  modify fun s => s.modCore core fun c => { c with slots := c.slots.set n (f c.slots[n]) }

/-- Poisoned words of a slot that a write covers whole are healed (R347); the side area lies at 8192. -/
def healSlot (core : Nat) (n : Fin 32) (off len : Nat) : M Unit :=
  modify fun s =>
    if (s.core core).slotPoison.isEmpty then s
    else s.modCore core fun c =>
      { c with slotPoison := c.slotPoison.filter fun u => !(u / 1056 == n.val && off ≤ u % 1056 * 8 && u % 1056 * 8 + 8 ≤ off + len) }

/-- K of a width (R208). -/
def lineLen (w : Nat) : Nat := match w with | 16 => 64 | 4 => 256 | _ => 128

/-- G of the wider operand's width (R102). -/
def dotGroup (w : Nat) : Nat := match w with | 16 => 2 | 4 => 8 | _ => 4

/-- Whether a slot belongs to a loop context. -/
def Slot.ownedBy (k : Slot) (lc : Fin 8) : Bool := k.st != .free && k.owner == lc

/-- The even member of a double. -/
def Slot.isDouble (k : Slot) (n : Fin 32) : Bool := k.dbl && n.val % 2 == 0

/-- Bytes of the side area an instruction naming the slot sees (R208). -/
def sideBytes (c : Core) (n : Fin 32) : Nat := if c.slots[n].isDouble n then 512 else 256

/-- The side area, byte 0 in the low bits. -/
def sideArea (c : Core) (n : Fin 32) : Nat :=
  c.slots[n].side.toNat + (if c.slots[n].isDouble n then 2 ^ 2048 * (c.slots[slotNext n]).side.toNat else 0)

/-- The codes of line `l` (R208). -/
def lineCodes (k : Slot) (w n l : Nat) : List Nat :=
  if k.rows ≤ l then List.replicate n 0 else unpack w n (k.data.toNat / 2 ^ (1024 * l) % 2 ^ 1024)

/-- A slot freshly claimed (R207, R209). -/
def Slot.claim (k : Slot) (lc : Fin 8) (dbl : Bool) : Slot :=
  { k with st := .claimed, owner := lc, dbl, rows := 0, svalid := false, dtag := 0, stag := 0, mld := false }

/-- What MCLAIM does in the lanes (R209). An earlier MREL of the slot goes first (R220). -/
def laneMclaim (f : MClaimForm) (_ : Lane) : M Unit := do
  let s ← get
  waitUnless (!(claimSet f.slot f.w).any (awaitsRelease s s.cur))
  needU ((claimSet f.slot f.w).all fun n => s.myCore.slots[n].st == .free) .slotState
  forM' (claimSet f.slot f.w) fun n => modSlot s.cur.core.val n fun k => k.claim s.cur.lc f.w

/-- MCLAIM (R209). -/
def execMclaim (f : MClaimForm) (s : State) : Out := vector (.mclaim f) { regs := [], reads := none, writes := none } (laneMclaim f) s

/-- The earliest of commands. -/
def firstCmd : List TugCmd → Option TugCmd
  | [] => none
  | k :: ks => match firstCmd ks with
    | none => some k
    | some j => some (if j.seq < k.seq then j else k)

/-- The state of a slot as an instruction at a place finds it: only earlier fills count (R220). -/
def slotView (s : State) (c : CtxId) (n : Fin 32) (p : Place) : SlotState :=
  let k := (s.core c.core.val).slots[n]
  let fills := openFills s c n
  if k.st = .free then .free
  else if k.mld || fills.any (·.before' p) then .filling
  else
    match firstCmd fills with
    | some f => if f.before == some .claimed then .claimed else .full
    | none => k.st

/-- The place of the head of the running context's queue. -/
def headPlace : M Place := do
  let c ← getMe
  return .entry (match c.queue with | e :: _ => e.num | [] => c.vIn + 1)

/-- What MREL does in the lanes (R209): it frees the slot, or steps aside until nothing earlier uses it. -/
def laneMrel (f : MRelForm) (_ : Lane) : M Unit := do
  let s ← get
  let k := s.myCore.slots[f.slot]
  needU (k.ownedBy s.cur.lc && !(k.dbl && f.slot.val % 2 == 1)) .slotOwner
  waitUnless (!awaitsRelease s s.cur f.slot)
  let p ← headPlace
  if (claimSet f.slot k.dbl).any fun n => slotBusy s s.cur n p then modMe fun c => { c with rels := c.rels ++ c.queue.take 1 }
  else modCore (freeThese (claimSet f.slot k.dbl))

/-- MREL (R209). -/
def execMrel (f : MRelForm) (s : State) : Out := vector (.mrel f) { regs := [], reads := none, writes := none } (laneMrel f) s

/-! Fills (R210, R211). -/

/-- Check 1 of R210. The queue's own earlier fill of the slot lands first, and an earlier follow-on reads it first (R220); a slot that a Tug command fills is neither claimed nor full (log 22). -/
def needFillable (n : Fin 32) : M Slot := do
  let s ← get
  let k := s.myCore.slots[n]
  waitUnless (!awaitsRelease s s.cur n)
  needU (k.ownedBy s.cur.lc) .slotOwner
  let p ← headPlace
  waitUnless (!k.mld && !((openScales s s.cur n).any fun q => q.before' p) && !(ctxCmds s s.cur).any fun q => q.before' p && !q.followed && (followSlots q).contains n)
  needU (slotView s s.cur n p != .filling) .slotState
  return k

/-- Items 1 and 2 of R192. -/
def needReadStream (q : Fin 16) : M QReg := do
  let r ← getQ q
  needU r.bound .streamUnbound
  needU (!r.desc.writes) .streamDir
  return r

/-- Reads the code at a stream position for a fill, which encoded pages and windows serve (R267, R322). -/
def fillCode1 (l : Lane) (r : QReg) (w p : Nat) : M Nat := do
  let ended := r.desc.total ≤ p
  if w = 4 || w = 6 then
    let vs ← mapM' (packedAccesses r.desc w l.cap.vs 0 p) fun a => do
      let x ← elemLoc l r.desc.port a.1 1 0 ended .read true
      laneRead x 1
    return nbits (pack 8 vs) (elemSpot r.desc (some w) l.cap.vs p 0).bit w
  else
    let x ← elemLoc l r.desc.port (elemSpot r.desc none l.cap.vs p 0).va (w / 8) (w / 8) ended .read true
    laneRead x (w / 8)

/-- Reads `n` codes from a position on. -/
def fillCodes (l : Lane) (r : QReg) (w p n : Nat) : M (List Nat) := mapM' (List.range n) fun i => fillCode1 l r w (p + i)

/-- MROWS := `n`. -/
def setMrows (n : Nat) : M Unit := modMe fun c => { c with fc := { c.fc with mrows := BitVec.ofNat 64 n } }

/-- Lines put together, the first at line `l0`. -/
def packLines (w l0 : Nat) (lines : List (Nat × List Nat)) : Nat :=
  lines.foldl (fun d p => d + 2 ^ (1024 * (l0 + p.1)) * pack w p.2) 0

/-- What MLD does in the lanes (R210). -/
def laneMld (f : MLdForm) (l : Lane) : M Unit := do
  let k ← needFillable f.slot
  let r ← needReadStream f.q
  let ms ← needEntry l r.desc.ent
  let odd := k.dbl && f.slot.val % 2 == 1
  needU (!r.desc.lay && (if odd then ms.wid == 8 else [4, 6, 8, 16].contains ms.wid)) .streamFmt
  let l0 := f.l0.val
  needU (l0 = 0 || odd || k.ent.val == r.desc.ent) .streamFmt
  usePrepared r
  let n := lineLen ms.wid
  let pos := r.pos.toNat
  let t ← tryElems (fun i => fillCodes l r ms.wid (pos + i * n) n) (List.range (64 - l0))
  match t.fault with
  | some (0, x) => throw x
  | _ =>
    let got := match t.fault with
      | some (i, _) => i
      | none => 64 - l0
    let stop := l0 + got
    let s ← get
    modSlot s.cur.core.val f.slot fun k =>
      { k with
        st := if s.late then .filling else if k.st == .filling then .filling else .full
        mld := s.late
        data := BitVec.ofNat 65536 (k.data.toNat % 2 ^ (1024 * l0) + packLines ms.wid l0 t.vals)
        rows := stop
        ent := if odd then k.ent else Fin.ofNat 16 r.desc.ent
        dtag := if odd || l0 != 0 then k.dtag else BitVec.ofNat 8 (pos / (64 * n)) }
    healSlot s.cur.core.val f.slot (128 * l0) (8192 - 128 * l0)
    if !s.late then modify fun s => settleFills s s.cur f.slot
    setMrows stop
    putQ f.q { r with pos := BitVec.ofNat 48 (pos + got * n) }

/-- MLD (R210). -/
def execMld (f : MLdForm) (s : State) : Out := vector (.mld f) { regs := [], reads := none, writes := none } (laneMld f) s

/-- What MLDS does in the lanes (R211). -/
def laneMlds (f : MLdsForm) (l : Lane) : M Unit := do
  let k ← needFillable f.slot
  let r ← needReadStream f.q
  let ms ← needEntry l r.desc.ent
  needU (!r.desc.lay && (ms.wid == 8 || ms.wid == 32)) .streamFmt
  usePrepared r
  let c ← getCore
  let n := sideBytes c f.slot * 8 / ms.wid
  let pos := r.pos.toNat
  let codes ← fillCodes l r ms.wid pos n
  let side := pack ms.wid codes
  let s ← get
  modSlot s.cur.core.val f.slot fun k =>
    { k with side := BitVec.ofNat 2048 side, svalid := true, sw32 := ms.wid == 32, stag := BitVec.ofNat 8 (pos / n) }
  healSlot s.cur.core.val f.slot 8192 256
  if k.isDouble f.slot then
    modSlot s.cur.core.val (slotNext f.slot) fun k => { k with side := BitVec.ofNat 2048 (side / 2 ^ 2048) }
    healSlot s.cur.core.val (slotNext f.slot) 8192 256
  setMrows 64
  putQ f.q { r with pos := BitVec.ofNat 48 (pos + n) }

/-- MLDS (R211). -/
def execMlds (f : MLdsForm) (s : State) : Out := vector (.mlds f) { regs := [], reads := none, writes := none } (laneMlds f) s

/-! Tiles and planes (R38, R212). -/

/-- Pool offset at which a tile begins; LP_PART when it lies partly beyond the accumulator partition (R38). -/
def tileBase (c : CtxId) (acc : Fin 16) : M Nat := do
  let s ← get
  let p := (s.core c.core.val).part
  let t := 16 * (c.lc.val % 4) + acc.val
  let off := partScr p * 65536 + t * 32768
  needN ((t + 1) * 32768 ≤ partAcc p * 65536) .lpPart off
  return off

/-- The 4096 words at a pool offset, by one pass over the bytes listed. -/
def tileWords (m : Memory) (off : Nat) : Array Nat :=
  (memSlice m off 16384 0).foldl (fun a c => a.modify (c.1 / 4) fun w => w + c.2.toNat * 2 ^ (8 * (c.1 % 4))) (Array.replicate 4096 0)

/-- The listed bytes of words from an offset on. -/
def wordBytes : Nat → List Nat → Memory
  | _, [] => []
  | off, w :: ws =>
    ((numBytes 4 w).zipIdx.filterMap fun b => if b.1 = 0 then none else some (off + b.2, b.1)) ++ wordBytes (off + 4) ws

/-- Reads a tile or plane; a poisoned word is SRAM_UE (R347). -/
def tileRead (core off : Nat) : M (Array Nat) := do
  let s ← get
  if poolPoisoned (s.core core) off 16384 then throw (.stopAt .sramUe (poolPa s core off)) else return tileWords (s.core core).pool off

/-- Writes a tile or plane whole. -/
def tileWrite (core off : Nat) (ws : List Nat) : M Unit :=
  modify fun s => s.modCore core fun c =>
    { c with
      pool := memReplace c.pool off 16384 (wordBytes off ws)
      poison := c.poison.filter fun u => !(off ≤ u * 8 && u * 8 + 8 ≤ off + 16384) }

def zeroTile : List Nat := List.replicate 4096 0

/-- The kind of a tile, or of its plane. -/
def tileKind (s : State) (c : CtxId) (acc : Fin 16) (plane : Bool) : TileKind :=
  if plane then (s.ctx c).pk[acc] else (s.ctx c).tk[acc]

def setKind (c : CtxId) (acc : Fin 16) (plane : Bool) (k : TileKind) : M Unit :=
  modify fun s => s.modCtx c fun x => if plane then { x with pk := x.pk.set acc k } else { x with tk := x.tk.set acc k }

/-- A tile as an operation reads it: zeros when its kind is none (R212). -/
def kindRead (c : CtxId) (acc : Fin 16) (plane : Bool) (off : Nat) : M (Array Nat) := do
  let s ← get
  if tileKind s c acc plane == .none then return Array.replicate 4096 0
  else tileRead c.core.val (if plane then off + 16384 else off)

/-- The array numbers an operation (R221); it is complete at once unless earlier ones are not, or values are held back. -/
def arrayTake (c : CtxId) (e : Option QEntry) (late : Bool) : M Unit :=
  modify fun s => s.modCore c.core.val fun k =>
    let n := k.arr.issued + 1
    if late || !k.arr.ops.isEmpty then { k with arr := { k.arr with issued := n, ops := k.arr.ops ++ [{ num := n, lc := c.lc, entry := e, sig := none, fin := false }] } }
    else { k with arr := { k.arr with issued := n, done := n } }

/-- An operation that traps takes the next number and completes at its trap (R221). -/
def arrayTrap (c : CtxId) : M Unit :=
  modify fun s => s.modCore c.core.val fun k =>
    let n := k.arr.issued + 1
    if k.arr.ops.isEmpty then { k with arr := { k.arr with issued := n, done := n } }
    else { k with arr := { k.arr with issued := n, ops := k.arr.ops ++ [{ num := n, lc := c.lc, entry := none, sig := none, fin := true }] } }

/-- An operation of the array by one of its loop contexts: the checks, the effect, the number; one that traps, or reads a poisoned word (R347), takes its number and has no effect (R221). -/
def arrayRun {α : Type} (check : M α) (effect : α → M Unit) : M Unit := do
  let s ← get
  let e := s.me.queue.head?
  match ← attempt (do let a ← check; effect a) with
  | .ok _ => arrayTake s.cur e s.late
  | .error .wait => throw .wait
  | .error x =>
    arrayTrap s.cur
    throw x

/-- MZERO's effect. -/
def zeroEffect (c : CtxId) (acc : Fin 16) (off : Nat) : M Unit := do
  tileWrite c.core.val off zeroTile
  tileWrite c.core.val (off + 16384) zeroTile
  setKind c acc false .none
  setKind c acc true .none

/-- What MZERO does in the array (R212). -/
def laneMzero (f : MZeroForm) (_ : Lane) : M Unit := do
  let s ← get
  arrayRun (tileBase s.cur f.acc) (zeroEffect s.cur f.acc)

/-- MZERO (R212). -/
def execMzero (f : MZeroForm) (s : State) : Out := vector (.mzero f) { regs := [], reads := none, writes := none } (laneMzero f) s

/-! Products (R102, R213 to R216). -/

/-- Checks 1 and 2 of R213: owned, and full; a filling slot is waited for. -/
def needSlots (c : CtxId) (p : Place) (a b : Fin 32) : M Unit := do
  let s ← get
  let k := s.core c.core.val
  forM' [a, b] fun n => needN (k.slots[n].ownedBy c.lc) .slotOwner n.val
  forM' [a, b] fun n => needN (slotView s c n p != .claimed) .slotState n.val
  waitUnless ([a, b].all fun n => slotView s c n p == .full && !(openScales s c n).any fun q => q.before' p)

/-- Whether an operation reads a poisoned word of a slot (R347): of its data lines, of its own 256 bytes of side area. -/
def slotBad (k : Core) (n : Fin 32) (data side : Bool) : Bool :=
  k.slotPoison.any fun u => u / 1056 == n.val && (if u % 1056 < 1024 then data && u % 1056 < 16 * (k.slots[n]).rows else side)

/-- A poisoned word of a slot stops the context; slots have no physical address for AUX (log 27). -/
def needSound (c : CtxId) (ns : List (Fin 32)) (data side : Bool) : M Unit := do
  let s ← get
  if ns.any fun n => slotBad (s.core c.core.val) n data side then throw (.stopAt .sramUe (Config.free s.tick))

/-- The head of the queue waits for the earlier MRELs of its slots (R220). -/
def awaitRels (ns : List (Fin 32)) : M Unit := do
  let s ← get
  waitUnless (!ns.any (awaitsRelease s s.cur))

/-- Which product. -/
inductive MxFn where
  | mma | mmas | mslide
  deriving DecidableEq, Repr

/-- A checked product. -/
structure MxPlan where
  off : Nat
  fa : Fmt
  fb : Fmt
  /-- line length used, and logical K -/
  k : Nat
  kl : Nat
  g : Nat
  int : Bool
  deriving DecidableEq, Repr

/-- The survivors of each group of a line of an index member (R215). -/
def survivors (ix : Slot) (kl l : Nat) : List (Nat × Nat) :=
  (unpack 4 (kl / 4) (ix.data.toNat / 2 ^ (1024 * l) % 2 ^ 1024)).map fun x => (x % 4, x / 4)

/-- Whether an operand's index member keeps i0 < i1 in every group below its ROWS (R215). -/
def indexOk (ix : Slot) (kl : Nat) : Bool := (List.range ix.rows).all fun l => (survivors ix kl l).all fun p => p.1 < p.2

/-- Whether the scales of an operand's lines below ROWS reach into the side area of its second member (R208, R214). -/
def readsNext (k : Core) (n : Fin 32) (kl blog : Nat) : Bool := 256 < (k.slots[n]).rows * ((kl + 2 ^ blog - 1) / 2 ^ blog)

/-- The checks of R213, with those of R215 and R216; TVAL is the failing slot, of an invalid entry too, where R58 names the entry (DESIGN CHOICE, log 22). `ents` are the captured entries. -/
def productPlan (fn : MxFn) (c : CtxId) (pl : Place) (ents : Vector Word 8) (acc : Fin 16) (a b : Fin 32) (plane : Bool) : M MxPlan := do
  let off ← tileBase c acc
  needSlots c pl a b
  let s ← get
  let k := s.core c.core.val
  let fmt (n : Fin 32) : Fmt := fmtOf (entWord ents (k.slots[n]).ent.val)
  forM' [a, b] fun n => needN (fmt n).valid .entryInvalid n.val
  forM' [a, b] fun n => needN ([4, 6, 8, 16].contains (fmt n).wid && !((fmt n).isInt && (fmt n).bsk == 1)) .mxFmt n.val
  let fa := fmt a
  let fb := fmt b
  needN (fa.isInt == fb.isInt) .mxFmt b.val
  let ka := lineLen fa.wid
  let kb := lineLen fb.wid
  if fn = .mslide then needN (fa.wid == 8 || fa.wid == 16) .mxFmt a.val
  if fn = .mmas then
    waitUnless (!([a, b].any fun n => (k.slots[n]).isDouble n && slotView s c (slotNext n) pl == .filling))
    forM' [a, b] fun n => needN ((k.slots[n]).isDouble n && slotView s c (slotNext n) pl == .full) .mxFmt n.val
    needN (ka == kb) .mxFmt b.val
  let kk := if fn = .mslide then ka else min ka kb
  let kl := if fn = .mmas then 2 * kk else kk
  let want : TileKind := if fa.isInt then .int32 else .fp32
  needU (tileKind s c acc plane == .none || tileKind s c acc plane == want) .mxFmt
  forM' [a, b] fun n =>
    if (fmt n).bsk = 1 then do
      needN ((k.slots[n]).svalid && !(k.slots[n]).sw32) .slotState n.val
      needN ((k.slots[n]).stag == (k.slots[n]).dtag) .scaleSkew n.val
      needN (64 * ((kl + 2 ^ (fmt n).blog - 1) / 2 ^ (fmt n).blog) ≤ sideBytes k n) .mxFmt n.val
    else pure ()
  if fn = .mmas then forM' [a, b] fun n => needN (indexOk (k.slots[slotNext n]) kl) .mxFmt n.val
  needSound c [a] true (fa.bsk == 1)
  needSound c [b] true (fb.bsk == 1)
  let pairs := [(a, fa), (b, fb)].filter fun p => (k.slots[p.1]).isDouble p.1
  forM' pairs fun p => needSound c [slotNext p.1] (fn == .mmas) (p.2.bsk == 1 && readsNext k p.1 kl p.2.blog)
  return { off, fa, fb, k := kk, kl, g := dotGroup (max fa.wid fb.wid), int := fa.isInt }

/-- An exact +0. -/
def plusZero : Num := Num.zero false

/-- What an operand supplies at a logical position: a value, an exact +0 in place of one, or the zero of a pruned position (R102, R214 to R216). -/
inductive OpVal where
  | val (x : Num)
  | zero
  | pruned
  deriving DecidableEq, Repr

def OpVal.num : OpVal → Num
  | .val x => x
  | .zero | .pruned => plusZero

/-- A product (R102): a pruned position counts as an exact zero product; beside an infinity or a NaN it has that operand's sign (DESIGN CHOICE, log 52). -/
def OpVal.mul (a b : OpVal) : Num :=
  match a, b with
  | .pruned, _ => Num.zero b.num.neg
  | _, .pruned => Num.zero a.num.neg
  | _, _ => a.num.mul b.num

/-- A value times an E8M0 scale (R62). -/
def scaleE8 (c : Nat) (v : OpVal) : OpVal :=
  match v with
  | .val x =>
    if c = 255 then .val Num.nan
    else match x.cls with
      | .finite => .val { x with exp := x.exp + (c : Int) - 127 }
      | .zero | .inf | .nan => .val x
  | .zero => .zero
  | .pruned => .pruned

/-- A line's values under its block scales (R214). -/
def scaleLine (f : Fmt) (side kl l : Nat) (vals : List OpVal) : List OpVal :=
  if f.bsk = 1 && !f.isInt then
    let nb := (kl + 2 ^ f.blog - 1) / 2 ^ f.blog
    vals.zipIdx.map fun v => scaleE8 (nbits side (8 * (l * nb + v.2 / 2 ^ f.blog)) 8) v.1
  else vals

/-- A line spread over its survivors' positions (R215). -/
def spreadLine : List (Nat × Nat) → List OpVal → List OpVal
  | [], _ => []
  | p :: ps, vals =>
    let a := vals.headD .zero
    let b := vals.tail.headD .zero
    ((List.range 4).map fun i => if i = p.1 then a else if i = p.2 then b else .pruned) ++ spreadLine ps vals.tail.tail

/-- Operand of MMA at every logical position of line `l` (R214). -/
def opLine (k : Slot) (f : Fmt) (n l : Nat) : List OpVal :=
  if k.rows ≤ l then List.replicate n .zero else (lineCodes k f.wid n l).map fun c => .val (toWide f c)

/-- Operand of MMAS (R215). -/
def opSparse (k ix : Slot) (f : Fmt) (n kl l : Nat) : List OpVal :=
  if ix.rows ≤ l then List.replicate kl .zero else spreadLine (survivors ix kl l) (opLine k f n l)

/-- Operand B of MSLIDE: x(j + t) (R216). -/
def opSlide (k : Slot) (f : Fmt) (t j : Nat) : List OpVal :=
  let n := lineLen f.wid
  let xs := (List.range (128 / n + 2)).flatMap fun l => opLine k f n l
  (xs.drop j).take t

/-- The lines of an operand. -/
def operandLines (fn : MxFn) (second : Bool) (c : Core) (n : Fin 32) (f : Fmt) (p : MxPlan) : Array (List OpVal) :=
  let k := c.slots[n]
  ((List.range 64).map fun l =>
    let vals := match fn, second with
      | .mmas, _ => opSparse k (c.slots[slotNext n]) f p.k p.kl l
      | .mslide, true => opSlide k f p.kl l
      | _, _ => opLine k f p.k l
    scaleLine f (sideArea c n) p.kl l vals).toArray

/-- The exact sum of products (R102). -/
def dotNum : List OpVal → List OpVal → Num
  | a :: as, b :: bs =>
    match as, bs with
    | [], _ => a.mul b
    | _, [] => a.mul b
    | _, _ => (a.mul b).add (dotNum as bs)
  | _, _ => plusZero

/-- RoundF32 under RNE: a code. -/
def rneF32 (x : Num) : Nat := toF32 x .rne

/-- Groups of `g` in ascending order, each added with one rounding (R102). -/
def dotFloat (g : Nat) : Nat → Nat → List OpVal → List OpVal → Nat
  | 0, c, _, _ => c
  | n + 1, c, as, bs => dotFloat g n (rneF32 ((ofF32 c).add (dotNum (as.take g) (bs.take g)))) (as.drop g) (bs.drop g)

/-- An exact integer dot product. -/
def dotInt : List OpVal → List OpVal → Int
  | a :: as, b :: bs => a.num.at 0 * b.num.at 0 + dotInt as bs
  | _, _ => 0

/-- One element of MatrixProduct (R214). -/
def productElem (p : MxPlan) (c : Nat) (a b : List OpVal) : Nat :=
  if p.int then intMod 32 ((c : Int) + dotInt a b) else dotFloat p.g (p.kl / p.g) c a b

/-- MatrixProduct (R214). -/
def productEffect (fn : MxFn) (c : CtxId) (acc : Fin 16) (a b : Fin 32) (plane : Bool) (p : MxPlan) : M Unit := do
  let tgt ← kindRead c acc plane p.off
  let s ← get
  let k := s.core c.core.val
  let la := operandLines fn false k a p.fa p
  let lb := operandLines fn true k b p.fb p
  let ws := (List.range 4096).map fun x => productElem p (tgt.getD x 0) (la.getD (x / 64) []) (lb.getD (x % 64) [])
  tileWrite c.core.val (if plane then p.off + 16384 else p.off) ws
  setKind c acc plane (if p.int then .int32 else .fp32)

/-- A product by a loop context. -/
def productRun (fn : MxFn) (f : MmaForm) (l : Lane) : M Unit := do
  let s ← get
  let pl ← headPlace
  arrayRun (do awaitRels [f.slotA, f.slotB]; productPlan fn s.cur pl l.cap.ents f.acc f.slotA f.slotB f.p) (productEffect fn s.cur f.acc f.slotA f.slotB f.p)

/-- What MMA does in the array. -/
def laneMma (f : MmaForm) : Lane → M Unit := productRun .mma f

/-- MMA (R213, R214). -/
def execMma (f : MmaForm) (s : State) : Out := vector (.mma f) { regs := [], reads := none, writes := none } (laneMma f) s

/-- What MMAS does in the array. -/
def laneMmas (f : MmaForm) : Lane → M Unit := productRun .mmas f

/-- MMAS (R213, R215). -/
def execMmas (f : MmaForm) (s : State) : Out := vector (.mmas f) { regs := [], reads := none, writes := none } (laneMmas f) s

/-- What MSLIDE does in the array. -/
def laneMslide (f : MmaForm) : Lane → M Unit := productRun .mslide f

/-- MSLIDE (R213, R216). -/
def execMslide (f : MmaForm) (s : State) : Out := vector (.mslide f) { regs := [], reads := none, writes := none } (laneMslide f) s

/-! Promotion (R103, R217). -/

/-- The checks of R217. -/
def promoteCheck (c : CtxId) (pl : Place) (acc : Fin 16) (a b : Fin 32) : M Nat := do
  let off ← tileBase c acc
  needSlots c pl a b
  let s ← get
  let k := s.core c.core.val
  forM' [a, b] fun n => needN ((k.slots[n]).svalid && (k.slots[n]).sw32) .slotState n.val
  forM' [a, b] fun n => needN ((k.slots[n]).stag == (k.slots[n]).dtag) .scaleSkew n.val
  needU (tileKind s c acc false != .int32) .mxFmt
  needSound c [a, b] false true
  return off

/-- A plane's element as a number (R217). -/
def planeNum (k : TileKind) (w : Nat) : Num :=
  match k with
  | .none => plusZero
  | .fp32 => ofF32 w
  | .int32 => Num.ofInt (sextNat 32 w)

/-- One promoted element (R103). -/
def promoteElem (acc p sa sb : Num) : Nat := rneF32 (acc.add (p.mul (ofF32 (rneF32 (sa.mul sb)))))

/-- MPROM's effect (R217). -/
def promoteEffect (c : CtxId) (acc : Fin 16) (a b : Fin 32) (off : Nat) : M Unit := do
  let tile ← kindRead c acc false off
  let plane ← kindRead c acc true off
  let s ← get
  let pk := tileKind s c acc true
  let k := s.core c.core.val
  let scales (n : Fin 32) : Array Num := ((unpack 32 64 (k.slots[n]).side.toNat).map ofF32).toArray
  let sa := scales a
  let sb := scales b
  let ws := (List.range 4096).map fun x =>
    promoteElem (ofF32 (tile.getD x 0)) (planeNum pk (plane.getD x 0)) (sa.getD (x / 64) plusZero) (sb.getD (x % 64) plusZero)
  tileWrite c.core.val off ws
  tileWrite c.core.val (off + 16384) zeroTile
  setKind c acc false .fp32
  setKind c acc true .none

/-- What MPROM does in the array. -/
def laneMprom (f : MPromForm) (_ : Lane) : M Unit := do
  let s ← get
  let pl ← headPlace
  arrayRun (do awaitRels [f.slotA, f.slotB]; promoteCheck s.cur pl f.acc f.slotA f.slotB) (promoteEffect s.cur f.acc f.slotA f.slotB)

/-- MPROM (R217). -/
def execMprom (f : MPromForm) (s : State) : Out := vector (.mprom f) { regs := [], reads := none, writes := none } (laneMprom f) s

/-! Moves (R218, R219). -/

/-- A signed 32-bit integer without zero point. -/
def int32Fmt : Fmt :=
  { valid := true, kind := 1, sgn := true, ew := 0, fw := 31, bias := 0, spec := 2, rnd := 0, ovf := 0, bsk := 0, blog := 0, zp := 0, wid := 32 }

/-- The entry's and the block's checks of R218; NR. -/
def needBlock (l : Lane) (blk : Fin 32) : M (Fmt × Nat) := do
  let mv ← needVtypeEntry l
  let nr := min 64 (l.nAt mv.wid / 64)
  needU (blk.val * nr < 64) .mxRange
  needKind (mv.bsk == 0)
  return (mv, nr)

/-- The full/empty bit of vi: MACCRD clears it as it enters the queue (R218), and the value's landing sets it. -/
def Ctx.vfull (x : Ctx) (i : Fin 32) : Bool :=
  (x.v[i]).full && !(x.kept ++ x.queue).any fun e => match e.instr with | .maccrd f => f.vd == i | _ => false

/-- What MACCRD does in the lanes (R218). -/
def laneMaccrd (f : MAccRdForm) (l : Lane) : M Unit := do
  let b ← needBlock l f.blk
  let s ← get
  let off ← tileBase s.cur f.acc
  decodeDest f.vd true
  let tile ← kindRead s.cur f.acc false off
  let src := if tileKind s s.cur f.acc false == .int32 then int32Fmt else fp32
  let first := f.blk.val * b.2
  let n := (min 64 (first + b.2) - first) * 64
  let mode := roundingMode l.cap.rmo b.1
  let r := (List.range n).foldl (fun (acc : List Nat × Raised) e =>
    let c := convert (tile.getD (first * 64 + e) 0) src b.1 mode acc.2.seed f.sat
    (c.code :: acc.1, acc.2.add c 1 0 0)) ([], Raised.start s.me.fc.seed)
  let img := r.1.reverse ++ List.replicate (l.nAt b.1.wid - n) 0
  modMe fun c => applyRaised (putV c f.vd (encodeElems l b.1.wid img) (!s.late)) r.2

/-- MACCRD (R218). -/
def execMaccrd (f : MAccRdForm) (s : State) : Out := vector (.maccrd f) { regs := [f.vd.val], reads := none, writes := none } (laneMaccrd f) s

/-- What MACCWR does in the array (R219). -/
def laneMaccwr (f : MAccWrForm) (l : Lane) : M Unit := do
  let s ← get
  arrayRun (do
    let b ← needBlock l f.blk
    let off ← tileBase s.cur f.acc
    decodeSource f.vs false
    let s ← get
    let k := tileKind s s.cur f.acc false
    needU (k == .none || k == (if b.1.isInt then .int32 else .fp32)) .mxFmt
    let tile ← kindRead s.cur f.acc false off
    return (b, off, tile)) fun p => do
    let mv := p.1.1
    let first := p.1.2 * f.blk.val
    let last := min 64 (first + p.1.2)
    let c ← getMe
    let v := sourceView c f.vs mv.wid
    let val (e : Nat) : Coded :=
      if mv.isInt then pureCode (intMod 32 (mv.intValue (v.at e))) 0 else fromWide (toWide mv (v.at e)) fp32 .rne 0
    let ws := (List.range 4096).map fun x =>
      if first * 64 ≤ x && x < last * 64 then (val (x - first * 64)).code else p.2.2.getD x 0
    let flags := (List.range ((last - first) * 64)).foldl (fun a e => a ||| (val e).flags) 0
    tileWrite s.cur.core.val p.2.1 ws
    setKind s.cur f.acc false (if mv.isInt then .int32 else .fp32)
    modMe fun c => addFlags c flags

/-- MACCWR (R219). -/
def execMaccwr (f : MAccWrForm) (s : State) : Out := vector (.maccwr f) { regs := [f.vs.val], reads := none, writes := none } (laneMaccwr f) s

end Sys2Proof.Machine
end

