-- ==== Sys2Proof/Machine/Vset.lean ====
section
/-! DEFINITION. The VSET functions (R27, R29, R35, R168, R169). -/

namespace Sys2Proof.Machine

/-- Whether every vector and matrix instruction of a context that has issued has completed (R47): its queue is empty, no MREL waits, no register and no slot awaits a value, and the array holds no operation of it. -/
def lanesDone (s : State) (c : CtxId) : Bool :=
  let x := s.ctx c
  let k := s.core c.core.val
  x.lanesIdle && x.v.toList.all (fun r => r.full) && !k.slots.toList.any (fun l => l.mld && l.owner == c.lc) && !k.arr.ops.any fun o => o.lc == c.lc

/-- Waits for every earlier vector and matrix instruction (R47, R169). -/
def awaitLanes : M Unit := do
  let s ← get
  waitUnless (lanesDone s s.cur)

/-- The resident slabs of registers that `p` selects leave the core's slab pool without a write-back (R35). -/
def dropSlabs (lc : Nat) (p : Nat → Bool) (c : Core) : Core :=
  { c with slabs := c.slabs.filter fun b => !(b.1 == lc && p b.2.1) }

/-- Every vector and mask register becomes dead and the declaration takes effect (R29). -/
def declare (c : Ctx) (eff : BitVec 2) : Ctx :=
  { c with
    v := Vector.replicate 32 VReg.dead, m := Vector.replicate 8 0, deadTails := []
    vc := { c.vc with eff, pend := false, vlive := 0, vdirty := 0, vuse := 0 } }

/-- Applies a pending declaration (R169). -/
def applyDecl : M Unit := do
  let c ← getMe
  if c.vc.pend then
    awaitLanes
    modMe fun c => declare c c.vc.cnt
    modify fun s => s.modMyCore (dropSlabs s.cur.lc.val fun _ => true)

/-- The VTYPE entry is valid; VSETL and VSHAPE trap otherwise (R168). -/
def needVtype : M Unit := do
  let c ← getMe
  needN c.vtFmt.valid .entryInvalid (wbits c.vc.vtype 0 4)

/-- Width at which VLIVE makes a register one run of zeros: that of the VTYPE entry, 32 when it is invalid (log 12). -/
def Ctx.liveSew (c : Ctx) : Nat := if c.vtFmt.valid then c.vtFmt.wid else 32

/-- A register as VLIVE leaves it when its bit goes from `old` to `new` (R35, R168). -/
def liveReg (c : Ctx) (old new : Bool) (r : VReg) : VReg :=
  match old, new with
  | true, false => VReg.dead
  | false, true => mkRuns c.liveSew c.slabs [(c.vlmax / c.liveSew, 0)]
  | _, _ => r

/-- VLIVE := `v` below the declared count (R168). -/
def setLive (v : Word) : M Unit := do
  awaitLanes
  let c ← getMe
  let new := BitVec.ofNat 32 (v.toNat % 2 ^ c.count)
  let gone := c.vc.vlive &&& ~~~new
  modMe fun c =>
    { c with
      v := Vector.ofFn fun i => liveReg c (c.vc.vlive.getLsbD i.val) (new.getLsbD i.val) c.v[i]
      deadTails := c.deadTails.filter fun d => new.getLsbD d.1
      vc := { c.vc with vlive := new, vdirty := c.vc.vdirty &&& ~~~gone } }
  modify fun s => s.modMyCore (dropSlabs s.cur.lc.val fun r => gone.getLsbD r)

/-- VTYPE.ENT := `v`[3:0], with VL and VSHAPE under the new entry (R168). -/
def setVtype (v : Word) : M Unit := do
  awaitTrim
  modMe fun c =>
    let c := { c with vc := { c.vc with vtype := BitVec.ofNat 64 (wbits v 0 4) } }
    if c.vtFmt.valid && c.lim < c.vc.vl.toNat then { c with vc := { c.vc with vl := BitVec.ofNat 64 c.lim, vshape := 0 } } else c

/-- VDECL's value (R51). -/
def VCsr.vdecl (c : VCsr) : Word := BitVec.ofNat 64 (c.eff.toNat * 16 + c.cnt.toNat)

/-- A write of VDECL: 0b11 is ignored (R27, R168). -/
def setVdecl (v : Word) : M Unit :=
  if wbits v 0 2 = 3 then pure ()
  else modMe fun c => { c with vc := { c.vc with cnt := v.extractLsb' 0 2, pend := true } }

/-- VSETL (R168). -/
def execVsetl (f : A2) (s : State) : Out :=
  scalar (do
    awaitTrim
    let a ← readS f.sa
    awaitS f.sd
    needVtype
    applyDecl
    let c ← getMe
    let vl := BitVec.ofNat 64 (min a.toNat c.lim)
    modMe fun c => c.putVl vl 0
    writeS f.sd vl) s

/-- VSHAPE (R168). -/
def execVshape (f : A3) (s : State) : Out :=
  scalar (do
    awaitTrim
    let a ← readS f.sa
    let b ← readS f.sb
    awaitS f.sd
    needVtype
    applyDecl
    let c ← getMe
    let len := min b.toNat c.lim
    let rows := if len = 0 then 0 else min a.toNat (c.lim / len)
    let vl := BitVec.ofNat 64 (rows * len)
    modMe fun c => c.putVl vl (BitVec.ofNat 64 (rows * 2 ^ 16 + len))
    writeS f.sd vl) s

/-- VTYPE (R168). -/
def execVtype (f : A2) (s : State) : Out :=
  scalar (do
    let a ← readS f.sa
    awaitS f.sd
    let c ← getMe
    setVtype a
    writeS f.sd c.vc.vtype) s

/-- VSETM (R168). -/
def execVsetm (f : A2) (s : State) : Out :=
  scalar (do
    let a ← readS f.sa
    awaitS f.sd
    let c ← getMe
    modMe fun c => { c with vc := { c.vc with vm := a &&& 0xF } }
    writeS f.sd c.vc.vm) s

/-- VSETS (R168). -/
def execVsets (f : A2) (s : State) : Out :=
  scalar (do
    let a ← readS f.sa
    awaitS f.sd
    let c ← getMe
    modMe fun c => { c with vc := { c.vc with vs := a } }
    writeS f.sd c.vc.vs) s

/-- VDECL (R168). -/
def execVdecl (f : A2) (s : State) : Out :=
  scalar (do
    let a ← readS f.sa
    awaitS f.sd
    let c ← getMe
    setVdecl a
    writeS f.sd c.vc.vdecl) s

/-- VLIVE (R168, R169). -/
def execVlive (f : A2) (s : State) : Out :=
  scalar (do
    let a ← readS f.sa
    awaitS f.sd
    awaitLanes
    let c ← getMe
    setLive a
    writeS f.sd (c.vc.vlive.setWidth 64)) s

end Sys2Proof.Machine
end

