-- ==== Sys2Proof/Machine/Csr.lean ====
section
/-! DEFINITION. The control registers and the CSR instructions (R45 to R52, R69, R94, R155, R156, R266, R334, R401). -/

namespace Sys2Proof.Machine

inductive CsrAccess where
  | rw | ro | w1c
  deriving DecidableEq, Repr

/-- A row of R45: how it is accessed, the least levels that may read and write it, and whether a read waits (R47). -/
structure CsrRow where
  access : CsrAccess
  read : Nat
  write : Nat
  waits : Bool
  deriving DecidableEq, Repr

/-- The map of R45; none for a number not listed. -/
def csrRow (n : Nat) : Option CsrRow :=
  if n = 0x000 then some ⟨.ro, 0, 0, true⟩
  else if n = 0x001 || n = 0x008 then some ⟨.ro, 0, 0, false⟩
  else if n = 0x002 || n = 0x003 || n = 0x004 || n = 0x006 || n = 0x007 || n = 0x00C then some ⟨.rw, 0, 0, false⟩
  else if n = 0x005 || n = 0x00B || n = 0x010 || n = 0x011 || (0x020 ≤ n && n ≤ 0x02F) then some ⟨.rw, 0, 0, true⟩
  else if n = 0x009 then some ⟨.w1c, 0, 1, true⟩
  else if n = 0x00A then some ⟨.rw, 0, 1, false⟩
  else if n = 0x030 then some ⟨.ro, 0, 0, true⟩
  else if n = 0x040 then some ⟨.w1c, 0, 0, false⟩
  else if 0x048 ≤ n && n ≤ 0x04F then some ⟨.rw, 0, 0, false⟩
  else if n = 0x050 || n = 0x051 then some ⟨.ro, 0, 0, false⟩
  else if (0x100 ≤ n && n ≤ 0x105) || n = 0x107 then some ⟨.rw, 1, 1, false⟩
  else if n = 0x106 || n = 0x120 || n = 0x130 then some ⟨.ro, 0, 0, false⟩
  else if n = 0x110 then some ⟨.rw, 0, 1, false⟩
  else none

/-- FCSR's value (R69). -/
def FCsr.word (f : FCsr) : Word :=
  BitVec.ofNat 64 (f.seed.toNat * 2 ^ 32 + f.xsel.toNat * 2 ^ 11 + f.rmo.toNat * 2 ^ 8 + f.flags.toNat)

/-- A write of FCSR; a reserved RMO leaves RMO unchanged (R69). -/
def FCsr.put (f : FCsr) (v : Word) : FCsr :=
  { f with
    seed := v.extractLsb' 32 32, xsel := v.extractLsb' 11 5, flags := v.extractLsb' 0 5
    rmo := if wbits v 8 3 ≥ 6 then f.rmo else v.extractLsb' 8 3 }

/-- CINCH's value (R401). -/
def Cinch.word (c : Cinch) : Word :=
  BitVec.ofNat 64 (c.lmax % 4096 * 2 ^ 48 + c.floor % 4096 * 2 ^ 36 + c.cap % 4096 * 2 ^ 20 + c.gap % 4 * 2 ^ 8 + c.wd.toNat)

/-- The limit the Cinch holds a cluster to, in tenths of a milliampere: 0.9 × L while its sensor drifts (R398). -/
def limit10 (k : Cinch) : Nat := if k.drifting then 9 * k.limit else 10 * k.limit

/-- The value of a control register (R45). -/
def csrValue (s : State) (n : Nat) : Word :=
  let c := s.me
  if n = 0x000 then c.vc.vl
  else if n = 0x001 then c.vc.vshape
  else if n = 0x002 then c.vc.vtype
  else if n = 0x003 then c.vc.vm
  else if n = 0x004 then c.vc.vs
  else if n = 0x005 then c.vc.vstart
  else if n = 0x006 then c.vc.xmr
  else if n = 0x007 then c.vc.erule
  else if n = 0x008 then BitVec.ofNat 64 c.vlenb
  else if n = 0x009 then c.vc.vdirty.setWidth 64
  else if n = 0x00A then c.vc.vuse.setWidth 64
  else if n = 0x00B then c.vc.vlive.setWidth 64
  else if n = 0x00C then c.vc.vdecl
  else if n = 0x010 then c.fc.word
  else if n = 0x011 then c.fc.satcnt
  else if n < 0x030 then (c.fc.amax[Fin.ofNat 16 (n - 0x020)]).setWidth 64
  else if n = 0x030 then c.fc.mrows
  else if n = 0x040 then c.tags
  else if n < 0x050 then c.lpenc[Fin.ofNat 8 (n - 0x048)]
  else if n = 0x050 then (s.cluster (clusterOf s.cur.core.val)).cinch.word
  else if n = 0x051 then (match c.lease with | some l => BitVec.ofNat 64 l.micros | none => 0)
  else if n = 0x100 then c.tr.cause
  else if n = 0x101 then c.tr.epc
  else if n = 0x102 then c.tr.tval
  else if n = 0x103 then c.tr.tvec
  else if n = 0x104 then c.tr.status
  else if n = 0x105 then c.tr.scratch
  else if n = 0x106 then c.rcb
  else if n = 0x107 then c.tr.vepc
  else if n = 0x110 then c.slip
  else if n = 0x120 then BitVec.ofNat 64 s.time
  else ctxId c.asid s.cur

/-- TVEC after a write (R334). -/
def tvecPut (old v : Word) : Word :=
  setBits (v &&& 0xFFFFFFFFFFFFFFC0) 0 2 (if wbits v 0 2 ≥ 2 then wbits old 0 2 else wbits v 0 2)

/-- STATUS after a write: RDIR, INH and PPRIV but for 0b11; PRIV is read-only (R334). -/
def statusPut (old v : Word) : Word :=
  let p := if wbits v 2 2 = 3 then wbits old 2 2 else wbits v 2 2
  setBits (setBits (setBits (BitVec.ofNat 64 (wbits old 0 2)) 2 2 p) 4 1 (wbits v 4 1)) 8 8 (wbits v 8 8)

/-- Writes a control register that can be written (R45 to R51, R69, R94, R266, R334). -/
def csrPut (n : Nat) (v : Word) : M Unit := do
  let vc (f : VCsr → VCsr) : M Unit := modMe fun c => { c with vc := f c.vc }
  let fc (f : FCsr → FCsr) : M Unit := modMe fun c => { c with fc := f c.fc }
  let tr (f : TrapRegs → TrapRegs) : M Unit := modMe fun c => { c with tr := f c.tr }
  if n = 0x002 then setVtype v
  else if n = 0x003 then vc fun x => { x with vm := v &&& 0xF }
  else if n = 0x004 then vc fun x => { x with vs := v }
  else if n = 0x005 then vc fun x => { x with vstart := v }
  else if n = 0x006 then vc fun x => { x with xmr := v &&& 7 }
  else if n = 0x007 then
    needU (wbits v 0 2 != 3 && wbits v 6 2 != 3) .eruleIllegal
    vc fun x => { x with erule := v &&& 0xDB }
  else if n = 0x00A then
    awaitLanes
    vc fun x => { x with vuse := v.setWidth 32 }
  else if n = 0x00B then setLive v
  else if n = 0x00C then setVdecl v
  else if n = 0x010 then fc fun x => x.put v
  else if n = 0x011 then fc fun x => { x with satcnt := v }
  else if n < 0x030 then fc fun x => { x with amax := x.amax.set (Fin.ofNat 16 (n - 0x020)) (v.setWidth 32) }
  else if n < 0x050 then
    awaitLanes
    modMe fun c => { c with lpenc := c.lpenc.set (Fin.ofNat 8 (n - 0x048)) (v &&& 0x8003FFFF0003FFFF) }
  else if n = 0x100 then tr fun x => { x with cause := v &&& 0x7FF }
  else if n = 0x101 then tr fun x => { x with epc := v }
  else if n = 0x102 then tr fun x => { x with tval := v }
  else if n = 0x103 then tr fun x => { x with tvec := tvecPut x.tvec v }
  else if n = 0x104 then tr fun x => { x with status := statusPut x.status v }
  else if n = 0x105 then tr fun x => { x with scratch := v }
  else if n = 0x107 then tr fun x => { x with vepc := v }
  else modMe fun c => { c with slip := v }

/-- Clears bits of a W1C register (R46, R156); DIRTY of a register mirrors its bit of VDIRTY (R31). -/
def csrClear (n : Nat) (v : Word) : M Unit :=
  if n = 0x009 then
    modMe fun c =>
      { c with
        v := Vector.ofFn fun i => if v.getLsbD i.val then { c.v[i] with dirty := false } else c.v[i]
        vc := { c.vc with vdirty := c.vc.vdirty &&& ~~~ (v.setWidth 32) } }
  else modMe fun c => { c with tags := c.tags &&& ~~~v }

/-- The number and privilege checks of R45; TVAL is the instruction word. -/
def csrCheck (n : Nat) (write : Bool) (i : Instr) : M CsrRow := do
  let c ← getMe
  let w := (encode i).getD 0
  match csrRow n with
  | none => trapN .illCsr w
  | some r =>
    needN (r.read ≤ c.priv.toNat && (!write || r.access == .ro || r.write ≤ c.priv.toNat)) .privCsr w
    return r

/-- What the write of a CSR instruction does, given the old value (R46, R155). -/
inductive CsrOp where
  | write | set | clear
  deriving DecidableEq, Repr

/-- CSRW, CSRS and CSRC (R155). -/
def csrOp (f : CForm) (op : CsrOp) (i : Instr) : M Unit := do
  let n := f.csr.toNat
  let r ← csrCheck n true i
  let a ← readS f.sa
  awaitS f.sd
  if r.waits then awaitLanes
  let s ← get
  let old := csrValue s n
  match r.access, op with
  | .ro, _ => pure ()
  | .w1c, .clear => pure ()
  | .w1c, _ => csrClear n a
  | .rw, .write => csrPut n a
  | .rw, .set => csrPut n (old ||| a)
  | .rw, .clear => csrPut n (old &&& ~~~a)
  writeS f.sd old

/-- CSRR (R155). -/
def execCsrr (f : CRForm) (s : State) : Out :=
  scalar (do
    let n := f.csr.toNat
    let r ← csrCheck n false (.csrr f)
    awaitS f.sd
    if r.waits then awaitLanes
    let s ← get
    writeS f.sd (csrValue s n)) s

/-- CSRW (R155). -/
def execCsrw (f : CForm) (s : State) : Out := scalar (csrOp f .write (.csrw f)) s

/-- CSRS (R155). -/
def execCsrs (f : CForm) (s : State) : Out := scalar (csrOp f .set (.csrs f)) s

/-- CSRC (R155). -/
def execCsrc (f : CForm) (s : State) : Out := scalar (csrOp f .clear (.csrc f)) s

end Sys2Proof.Machine
end

