-- ==== Sys2Proof/Machine/Sync.lean ====
section
/-! DEFINITION. Timelines, tags, D-rings, objects, fences and barriers (R15, R134, R242 to R252, R270). -/

namespace Sys2Proof.Machine

/-! What a context has in flight. -/

/-- Tug commands a context issued that are not complete: timeline instance and number. -/
def issuedTugs (s : State) (c : CtxId) : List (Nat × Nat) :=
  s.tugs.flatMap fun e => (e.2.queue.filter fun k => k.issuer == some c).map fun k => (e.1, k.num)

/-- Walk operations a context issued that are not complete. -/
def issuedWalks (s : State) (c : CtxId) : List (Nat × Nat) :=
  s.walks.flatMap fun e => (e.2.queue.filter fun k => k.issuer == some c).map fun k => (e.1, k.num)

/-- Whether every engine command of a context has completed: Tug commands, follow-ons, walk operations, signals and matrix instructions (R250, R257, R283). -/
def enginesDone (s : State) (c : CtxId) : Bool :=
  (issuedTugs s c).isEmpty && (issuedWalks s c).isEmpty && !(s.core c.core.val).arr.ops.any (fun o => o.lc == c.lc) &&
    !((s.ctx c).rels ++ (s.ctx c).queue).any fun e => matrixOp e.instr

/-- What a signal issued now waits for (R247). -/
def sigNow (s : State) (c : CtxId) : SigWait :=
  { ctx := c, tugs := issuedTugs s c, walks := issuedWalks s c
    arr := ((s.core c.core.val).arr.ops.filter fun o => o.lc == c.lc).foldl (fun m o => max m o.num) 0
    vec := (s.ctx c).vIn }

/-- The core's dirty lines of bound regions reach memory (R270). -/
def flushAll (s : State) : State := flushLines s s.cur.core.val (fun _ => true) false

/-- The scalar stores, and the unit accesses and engine commands an operation with V and E covers, have been performed (R134, R250, R280); the core's dirty lines of bound regions have then reached memory, so that later vector accesses and commands see them (R270). -/
def awaitQual (v e : Bool) : M Unit := do
  drainAll
  if v then awaitLanes
  let s ← get
  waitUnless (!e || enginesDone s s.cur)
  if v || e then modify flushAll

/-- What REL.DOM.V.E makes visible reaches memory without a wait (R247). -/
def release : M Unit := do
  drainAll
  modify flushAll

/-! Timelines (R15, R247). -/

inductive Engine where
  | tug (t : TugId)
  | array
  | walk (w : WalkId)
  deriving DecidableEq, Repr

/-- Whether a Tug command context lies in a region's share (R230). -/
def tugShare (s : State) (rcb : Word) (t : TugId) : Bool :=
  nbit (effClmask s rcb) t.cluster.val && nbit (effTugctx s rcb) t.t.val

/-- Whether a walk context lies in a region's share (R247). -/
def walkShare (s : State) (rcb : Word) (w : WalkId) : Bool :=
  dieMeets (effClmask s rcb) (w.walker.val / 4) && nbit (effAwlctx s rcb) w.k.val

/-- The engine context a handle names, when it is valid for the running context (R15, R247). -/
def handleOf (s : State) (h : Word) : Option Engine :=
  let i := wbits h 0 12
  match wbits h 12 4 with
  | 0 =>
    let t : TugId := { cluster := Fin.ofNat 128 (i / 16), t := Fin.ofNat 16 i }
    if i < 2048 && tugShare s s.me.rcb t then some (.tug t) else none
  | 1 => if i = s.cur.core.val then some .array else none
  | 2 =>
    let w : WalkId := { walker := Fin.ofNat 32 (i / 8), k := Fin.ofNat 8 i }
    if i < 256 && walkShare s s.me.rcb w then some (.walk w) else none
  | _ => none

/-- The engine context of a handle, or TL_HANDLE. -/
def needHandle (h : Word) : M Engine := do
  match handleOf (← get) h with
  | some e => return e
  | none => trapU .tlHandle

/-- A timeline's value. -/
def timelineOf (s : State) (e : Engine) : Nat :=
  match e with
  | .tug t => (s.tug t).timeline
  | .array => s.myCore.arr.done
  | .walk w => (s.walk w).timeline

/-- TLWAIT (R247). -/
def execTlwait (f : AB) (s : State) : Out :=
  scalar (do
    let a ← readS f.sa
    let b ← readS f.sb
    let e ← needHandle a
    let s ← get
    waitUnless (b.toNat ≤ timelineOf s e)) s

/-- TLRD (R247). -/
def execTlrd (f : A2) (s : State) : Out :=
  scalar (do
    let a ← readS f.sa
    awaitS f.sd
    let e ← needHandle a
    let s ← get
    writeS f.sd (BitVec.ofNat 64 (timelineOf s e))) s

/-- A Tug command with nothing done yet. -/
def newCmd (num fn : Nat) (block : BitVec 1024) (issuer : Option CtxId) (node : Option NodeRef) (asid : BitVec 16) (priv : BitVec 2) : TugCmd :=
  { num, fn, block, issuer, node, tag := 0, ents := Vector.replicate 8 0, asid, priv, after := 0, seq := 0, age := 0, stale := false, pages := [], started := false, out := [],
    ends := none, sats := 0, side := [], finished := false, fault := none, slot := none, landed := 0, before := none, followed := true, sig := none }

/-- A Tug command that is only a signal. -/
def tugSignal (num : Nat) (c : CtxId) (w : SigWait) : TugCmd :=
  { newCmd num 8 0 (some c) none 0 0 with started := true, finished := true, sig := some w }

/-- A walk operation of a loop context with nothing done yet. -/
def newWalkOp (s : State) (num : Nat) (kind : WalkKind) (c : CtxId) : WalkOp :=
  let x := s.ctx c
  { num, kind, issuer := some c, node := none, asid := x.asid, priv := x.priv, ents := x.ents, stale := false, fdom := x.fdom, gtag := gtagOf s x.node, started := false
    locking := false, lock := none, data := [], records := [], slot := none, finished := false, fault := none, sig := none }

/-- TLSIG (R247): the signal takes the next number; a full queue is waited for (R230, R253), and a kind-1 signal for the context's earlier operations of the array to take theirs (R221). -/
def execTlsig (f : A2) (s : State) : Out :=
  scalar (do
    let a ← readS f.sa
    awaitS f.sd
    let e ← needHandle a
    let s ← get
    waitUnless (e != .array || !s.me.queue.any fun q => arrayOp q.instr)
    release
    let s ← get
    let w := sigNow s s.cur
    match e with
    | .tug t =>
      let x := s.tug t
      waitUnless (x.queue.length < 16)
      let num := x.issued + 1
      set (s.setTug t { x with queue := x.queue ++ [tugSignal num s.cur w], issued := num })
      writeS f.sd (BitVec.ofNat 64 num)
    | .array =>
      let x := s.myCore.arr
      let num := x.issued + 1
      set (s.modMyCore fun c => { c with arr := { x with issued := num, ops := x.ops ++ [{ num := num, lc := s.cur.lc, entry := none, sig := some w, fin := false }] } })
      writeS f.sd (BitVec.ofNat 64 num)
    | .walk k =>
      let x := s.walk k
      waitUnless (x.queue.length < 8)
      let num := x.issued + 1
      let op := { newWalkOp s num .signal s.cur with started := true, finished := true, sig := some w }
      set (s.setWalk k { x with queue := x.queue ++ [op], issued := num })
      writeS f.sd (BitVec.ofNat 64 num)) s

/-! Tags (R246). -/

/-- TAGWANY. -/
def execTagwany (f : A2) (s : State) : Out :=
  scalar (do
    let a ← readS f.sa
    awaitS f.sd
    let c ← getMe
    waitUnless (c.tags &&& a != 0)
    modMe fun c => { c with tags := c.tags &&& ~~~a }
    writeS f.sd (c.tags &&& a)) s

/-- TAGWALL. -/
def execTagwall (f : A2) (s : State) : Out :=
  scalar (do
    let a ← readS f.sa
    awaitS f.sd
    let c ← getMe
    waitUnless (c.tags &&& a == a)
    modMe fun c => { c with tags := c.tags &&& ~~~a }
    writeS f.sd a) s

/-- The lowest 1 bit, 64 when there is none. -/
def lowestBit (v : Word) : Nat := ((List.range 64).find? fun i => v.getLsbD i).getD 64

/-- TAGFF. -/
def execTagff (f : A2) (s : State) : Out :=
  scalar (do
    let a ← readS f.sa
    awaitS f.sd
    let c ← getMe
    let i := lowestBit (c.tags &&& a)
    modMe fun c => { c with tags := c.tags &&& ~~~ (BitVec.ofNat 64 (2 ^ i)) }
    writeS f.sd (BitVec.ofNat 64 i)) s

/-! D-rings (R242 to R245). -/

/-- Whether DRINIT's values make a ring that lies wholly in scratchpad (R242, R243). -/
def ringOk (part hdr size : Word) : Bool :=
  let slotsz := wbits size 0 32
  let n := wbits size 32 8
  hdr.toNat % 64 == 0 && wbits size 40 24 == 0 && slotsz % 64 == 0 && 64 ≤ slotsz && slotsz ≤ 2 ^ 20 && 1 ≤ n && n ≤ 64 &&
    hdr.toNat + 64 + pad64 (8 * n) + n * slotsz ≤ partScr part * 65536

/-- A ring of a core. -/
def getRing (d : Fin 8) : M Ring := do
  let c ← getCore
  return c.rings[d]

def modRingM (d : Fin 8) (f : Ring → Ring) : M Unit := modify fun s => s.modRing s.cur.core.val d f

/-- DRINIT (R243). -/
def execDrinit (f : DrInitForm) (s : State) : Out :=
  scalar (do
    let a ← readS f.sa
    let b ← readS f.sb
    let c ← getCore
    let r ← getRing f.ring
    needN (ringOk c.part a b && (!r.init || r.taken &&& ~~~r.fill == 0)) .drState f.ring.val
    let n := wbits b 32 8
    let s ← get
    modRingM f.ring fun _ =>
      { init := true, owner := s.cur.lc, hdr := a.toNat, slotsz := wbits b 0 32, nslot := n, widx := 0, ridx := 0, fill := 0, taken := 0, flt := 0
        exps := List.replicate n 0, lands := List.replicate n 0 }) s

/-- DRAWAIT (R245). -/
def execDrawait (f : DrWaitForm) (s : State) : Out :=
  scalar (do
    awaitS f.sd
    let r ← getRing f.ring
    needN r.init .drState f.ring.val
    waitUnless (r.fill.getLsbD r.ridx)
    needN (!r.flt.getLsbD r.ridx) .drFault r.ridx
    writeS f.sd (BitVec.ofNat 64 (ownBase + r.base + r.ridx * r.slotsz))) s

/-- The slot at RIDX released (R245). -/
def Ring.release (r : Ring) : Ring :=
  let m := ~~~ (BitVec.ofNat 64 (2 ^ r.ridx))
  { r with fill := r.fill &&& m, taken := r.taken &&& m, flt := r.flt &&& m, exps := r.exps.set r.ridx 0, lands := r.lands.set r.ridx 0
           ridx := (r.ridx + 1) % r.nslot }

/-- DRREL (R245). -/
def execDrrel (f : DrRelForm) (s : State) : Out :=
  scalar (do
    let r ← getRing f.ring
    needN (r.init && r.fill.getLsbD r.ridx) .drState f.ring.val
    modRingM f.ring Ring.release) s

/-! Entry consistency (R248, R249, R270). -/

/-- The lowest binding index not in use. -/
def freeBinding (l : List Binding) : Nat := ((List.range 16).find? fun i => !l.any fun b => b.idx == i).getD 16

/-- BIND (R248). -/
def execBind (f : A3) (s : State) : Out :=
  scalar (do
    let a ← readS f.sa
    let b ← readS f.sb
    awaitS f.sd
    need (a.toNat % 8 == 0) .misaligned a
    need (12 ≤ wbits b 0 6 && wbits b 0 6 ≤ 40 && wbits b 6 6 == 0) .misaligned b
    let c ← getMe
    needU (c.binds.length < 16) .bindFull
    let i := freeBinding c.binds
    modMe fun c => { c with binds := c.binds ++ [{ idx := i, obj := a, span := b }] }
    writeS f.sd (BitVec.ofNat 64 i)) s

/-- Whether a line lies in one of the regions, by the address it was filled for (R270). -/
def lineIn (bs : List Binding) (l : DLine) : Bool :=
  bs.any fun b => (bindSpan b.span).1 ≤ l.va && l.va < (bindSpan b.span).1 + (bindSpan b.span).2

/-- UNBIND (R248): the lines of the bindings removed are written back and discarded (R270). -/
def execUnbind (f : A1) (s : State) : Out :=
  scalar (do
    let a ← readS f.sa
    let s ← get
    let gone := s.me.binds.filter fun b => b.obj == a
    set (flushLines s s.cur.core.val (lineIn gone) true)
    modMe fun c => { c with binds := c.binds.filter fun b => b.obj != a }) s

/-- The value an object word holds while the running context holds it (R249). -/
def ownerWord (s : State) : Word :=
  BitVec.ofNat 64 (2 ^ 63 + s.modId.val * 2 ^ 12 + s.cur.core.val * 4 + s.cur.lc.val)

/-- Key of an object word among the waiters. -/
def locKey (l : Loc) : Nat :=
  match l with
  | .mem pa _ => pa
  | .pool c off | .peer c off => 2 ^ 70 + c * 2 ^ 23 + off

/-- Lines of the core in the regions the running context binds to an object. -/
def objectLine (s : State) (obj : Word) : DLine → Bool := lineIn (s.me.binds.filter fun b => b.obj == obj)

/-- ACQ (R249): waiters on a word are granted in the order they began waiting. The lines of the object's regions are discarded (R270), the core's own bytes of them written back first, as an eviction may (R290). -/
def execAcq (f : QualA) (s : State) : Out :=
  scalar (do
    let a ← readS f.sa
    let l ← scalarLoc a.toNat 8 .write
    let key := locKey l
    drainFor l 8
    let v ← scalarRead a.toNat l 8 false
    let s ← get
    if !s.acqs.any (fun w => w == (s.cur, key)) then set { s with acqs := s.acqs ++ [(s.cur, key)] }
    let s ← get
    let first := match s.acqs.find? (fun w => w.2 == key) with
      | some w => w.1 == s.cur
      | none => true
    waitUnless (first && v == 0)
    locPut l 8 (ownerWord s).toNat
    modify fun s => { s with acqs := s.acqs.filter fun w => w != (s.cur, key) }
    modify fun s => flushLines s s.cur.core.val (objectLine s a) true
    if f.v || f.e then modify flushAll
    modMe fun c => { c with held := a :: c.held.filter fun o => o != a }) s

/-- REL (R249): its write is sent once what it orders has been acknowledged (R291). -/
def execRel (f : QualA) (s : State) : Out :=
  scalar (do
    let a ← readS f.sa
    let l ← scalarLoc a.toNat 8 .write
    drainFor l 8
    strongPrep s.cur.core.val l
    let v ← locGet l 8
    let s ← get
    need (v == (ownerWord s).toNat) .lockOwner a
    awaitQual f.v f.e
    modify fun s => flushLines s s.cur.core.val (objectLine s a) false
    awaitAcks l
    locWrite l 8 0
    modMe fun c => { c with held := c.held.filter fun o => o != a }) s

/-- FENCE (R250). -/
def execFence (f : QualForm) (s : State) : Out := scalar (awaitQual f.v f.e) s

/-! Cluster barriers (R251, R252). -/

def modBarrier (b : Fin 16) (f : Barrier → Barrier) : M Unit :=
  modify fun s => s.modCluster (clusterOf s.cur.core.val) fun c => { c with bars := c.bars.set b (f c.bars[b]) }

def getBarrier (b : Fin 16) : M Barrier := do
  let s ← get
  return (s.cluster (clusterOf s.cur.core.val)).bars[b]

/-- BARRIER_PHASE_COMPLETE: a barrier after an arrival with `n` participants; the last one opens the next phase. -/
def Barrier.arrive (b : Barrier) (n : Nat) : Barrier :=
  if b.count + 1 ≥ n then { phase := b.phase + 1, n := 0, count := 0 } else { b with n, count := b.count + 1 }

/-- An arrival (R251), which releases the context's scalar accesses; the phase it arrived in. -/
def arriveAt (bar : Fin 16) (n : Word) : M Nat := do
  let b ← getBarrier bar
  needU (1 ≤ n.toNat && n.toNat ≤ 32 && (b.count == 0 || b.n == n.toNat)) .barCount
  release
  modBarrier bar fun b => b.arrive n.toNat
  return b.phase

/-- BARA (R251). -/
def execBara (f : BaraForm) (s : State) : Out :=
  scalar (do
    let a ← readS f.sa
    awaitS f.sd
    awaitLanes
    let p ← arriveAt f.bar a
    writeS f.sd (BitVec.ofNat 64 p)) s

/-- BARW (R251): it arrives once, then waits for its recorded phase (R252). -/
def execBarw (f : BarwForm) (s : State) : Out :=
  scalar (do
    let c ← getMe
    let p ← match c.arrived with
      | some (_, p) => pure p
      | none => do
        let a ← readS f.sa
        awaitLanes
        let p ← arriveAt f.bar a
        modMe fun c => { c with arrived := some (f.bar.val, p) }
        pure p
    let b ← getBarrier f.bar
    waitUnless (p < b.phase)
    modMe fun c => { c with arrived := none }) s

end Sys2Proof.Machine
end

