-- ==== Sys2Proof/Machine/Vperm.lean ====
section
/-! DEFINITION. VPERM: movement, reductions and bitmaps (R100, R101, R166, R176 to R178). -/

namespace Sys2Proof.Machine

/-- Elements of a destination under the classes of R90: `f` for a Written one. -/
def classImage (l : Lane) (mask n : Nat) (old : View) (f : Nat → Nat) : List Nat :=
  (List.range n).map fun e =>
    if l.written mask e then f e else if l.vl ≤ e && l.td then 0 else old.at e

/-- An indivisible instruction ignores VSTART (R166). -/
def Lane.indivisible (l : Lane) : Lane := { l with vstart := 0, stop := none }

/-- A plain image formed from one source and handed to EncodeResult (R95, R176). `image` has the mask, the source, and the old destination; `keeps`: it keeps elements of the destination that R90 has written. -/
def permKeep (keeps : Bool) (vd : Fin 32) (src : Option (Fin 32 × Bool)) (image : Lane → Nat → Nat → View → View → List Nat) (l : Lane) : M Unit := do
  let k ← needVtypeEntry l
  let mask ← activeMask l
  let n := l.nAt k.wid
  forM' src.toList fun r => decodeSource r.1 r.2
  decodeDest vd (l.whole mask n && !keeps)
  let c ← getMe
  let a := match src with
    | some r => sourceView c r.1 k.wid
    | none => View.plain []
  let r := encodeElems l k.wid (image l mask n a (oldView c vd k.wid))
  modMe fun c =>
    let c := putRes c vd r (l.tail k.wid)
    { c with vc := { c.vc with vstart := 0 } }

/-- Such an image that keeps what R90 keeps and no more. -/
def permRun : Fin 32 → Option (Fin 32 × Bool) → (Lane → Nat → Nat → View → View → List Nat) → Lane → M Unit := permKeep false

/-- What VSLUP does in the lanes (R176). With t above 0 it keeps elements of vd, and so reads vd however much it writes (DESIGN CHOICE, log 54). -/
def laneVslup (f : VS) (l : Lane) : M Unit :=
  permKeep (l.scalar != 0) f.vd (some (f.va, f.feA)) (fun l mask n a old =>
    let t := l.scalar.toNat
    classImage l mask n old fun e => if t ≤ e then a.at (e - t) else old.at e) l

/-- VSLUP (R176). -/
def execVslup (f : VS) (s : State) : Out :=
  vector (.vslup f) { regs := [f.vd.val, f.va.val], reads := some f.sb, writes := none } (laneVslup f) s

/-- What VSLDN does in the lanes (R176). -/
def laneVsldn (f : VS) (l : Lane) : M Unit :=
  permRun f.vd (some (f.va, f.feA)) (fun l mask n a old =>
    let t := l.scalar.toNat
    classImage l mask n old fun e => if e + t < l.vl then a.at (e + t) else 0) l

/-- VSLDN (R176). -/
def execVsldn (f : VS) (s : State) : Out :=
  vector (.vsldn f) { regs := [f.vd.val, f.va.val], reads := some f.sb, writes := none } (laneVsldn f) s

/-- Elements that VM leaves active in [0, VL), in order. -/
def activeElems (l : Lane) (mask : Nat) : List Nat := (List.range l.vl).filter fun e => l.unmasked || nbit mask e

/-- An old image with its tail under R90. -/
def tailImage (l : Lane) (n : Nat) (old : View) : Array Nat :=
  ((List.range n).map fun e => if l.vl ≤ e && l.td then 0 else old.at e).toArray

/-- What VCOMP does in the lanes: active elements move down to 0 upward (R176). -/
def laneVcomp (f : VU) (l : Lane) : M Unit :=
  permRun f.vd (some (f.va, f.feA)) (fun l mask n a old =>
    (((activeElems l mask).zipIdx).foldl (fun img p => img.setIfInBounds p.2 (a.at p.1)) (tailImage l n old)).toList) l.indivisible

/-- VCOMP (R176). -/
def execVcomp (f : VU) (s : State) : Out := vector (.vcomp f) (vuIssue f) (laneVcomp f) s

/-- What VEXPD does in the lanes: elements 0 upward go to the active places (R176). -/
def laneVexpd (f : VU) (l : Lane) : M Unit :=
  permRun f.vd (some (f.va, f.feA)) (fun l mask n a old =>
    (((activeElems l mask).zipIdx).foldl (fun img p => img.setIfInBounds p.1 (a.at p.2)) (tailImage l n old)).toList) l.indivisible

/-- VEXPD (R176). -/
def execVexpd (f : VU) (s : State) : Out := vector (.vexpd f) (vuIssue f) (laneVexpd f) s

/-- Prefix counts of bits over the active elements, modulo 2^sew (R176). -/
def prefixCounts (sew : Nat) (a : View) : Nat → List Nat → Array Nat → Array Nat
  | _, [], img => img
  | c, e :: es, img => prefixCounts sew a ((c + countBits (a.at e)) % 2 ^ sew) es (img.setIfInBounds e c)

/-- What VBPFX does in the lanes (R176). -/
def laneVbpfx (f : VU) (l : Lane) : M Unit :=
  permRun f.vd (some (f.va, f.feA)) (fun l mask n a old =>
    (prefixCounts l.sew a 0 (activeElems l mask) (tailImage l n old)).toList) l.indivisible

/-- VBPFX (R176). -/
def execVbpfx (f : VU) (s : State) : Out := vector (.vbpfx f) (vuIssue f) (laneVbpfx f) s

/-- What VBRD does in the lanes: the scalar's code in every Written element (R176). -/
def laneVbrd (f : VBrdForm) (l : Lane) : M Unit := do
  let k ← needVtypeEntry l
  elementWise l f.vd k.wid k.wid false false [] (fun _ => [.const (l.scalar.toNat % 2 ^ k.wid)]) fun srcs seed => pureCode (srcs.getD 0 0) seed

/-- VBRD (R176). -/
def execVbrd (f : VBrdForm) (s : State) : Out :=
  vector (.vbrd f) { regs := [f.vd.val], reads := some f.sb, writes := none } (laneVbrd f) s

/-- What VIOTA does in the lanes: a delta result when whole, of integer kind, at 8 bits or more and not forced plain; else a plain image (R178). -/
def laneViota (f : VD) (l : Lane) : M Unit := do
  let k ← needVtypeEntry l
  let mask ← activeMask l
  let n := l.nAt k.wid
  if l.whole mask n && k.isInt && 8 ≤ k.wid && l.mode != 1 then
    decodeDest f.vd true
    modMe fun c =>
      let c := putV c f.vd (mkDelta k.wid 0 (List.replicate (n - 1) 1) 0)
      { c with vc := { c.vc with vstart := 0 } }
  else permRun f.vd none (fun l mask n _ old => classImage l mask n old fun e => e % 2 ^ k.wid) l

/-- VIOTA (R176, R178). -/
def execViota (f : VD) (s : State) : Out :=
  vector (.viota f) { regs := [f.vd.val], reads := none, writes := none } (laneViota f) s

/-! Reductions. -/

/-- A source's values with the number of Written elements of each: per run, per entry, or per element (R100, R101). -/
def weighted (l : Lane) (mask : Nat) (v : View) : List (Nat × Nat) :=
  let act := activeElems l mask
  let runs : List (Nat × Nat) := (v.ends.zip (0 :: v.ends)).map fun p => (p.2, p.1)
  match v.kind with
  | .runLength => (runs.zip v.vals).map fun r => (r.2, (act.filter fun e => r.1.1 ≤ e && e < r.1.2).length)
  | .dictionary =>
    let cs := v.codes.toArray
    v.vals.zipIdx.map fun p => (p.1, (act.filter fun e => cs.getD e 0 == p.2).length)
  | .plain | .delta => act.map fun e => (v.at e, 1)

/-- A reduction: `g` gives its result, flags and saturation of the entry, the source's view and the mask; a result that saturates counts once in SATCNT (R75; DESIGN CHOICE, log 52); VSTART is left 0 (R166). -/
def reduceRun (f : VS) (float : Bool) (g : Fmt → Nat → View → Word × Nat × Bool) (l : Lane) : M Unit := do
  let k ← needVtypeEntry l
  needKind (!float || !k.isInt)
  let mask ← activeMask l
  decodeSource f.va f.feA
  let c ← getMe
  let r := g k mask (sourceView c f.va k.wid)
  modMe fun c =>
    let c := addFlags c r.2.1
    { c with
      fc := { c.fc with satcnt := addSat c.fc.satcnt r.2.2.toNat }
      vc := { c.vc with vstart := 0 } }
  landS f.vd r.1

/-- What VREDS does in the lanes: init plus the exact sum (R100, R176). -/
def laneVreds (f : VS) (l : Lane) : M Unit :=
  reduceRun f false (fun k mask v =>
    let sum := (weighted l.indivisible mask v).foldl (fun t p => t + k.val p.1 * (p.2 : Int)) (k.val (l.scalar.toNat % 2 ^ k.wid))
    (extCode k (intMod k.wid sum), 0, false)) l

/-- VREDS (R100, R176). -/
def execVreds (f : VS) (s : State) : Out := vector (.vreds f) (reduceIssue f) (laneVreds f) s

/-- The larger or smaller of codes by Val or by value; NaN is absent and raises NV (R177), the init's as an element's (DESIGN CHOICE, log 54). -/
def extreme (k : Fmt) (larger : Bool) (cs : List Nat) : Nat × Nat :=
  if k.isInt then
    match cs with
    | [] => (0, 0)
    | c :: cs => (cs.foldl (fun b x => if (if larger then k.val b < k.val x else k.val x < k.val b) then x else b) c, 0)
  else
    let ok := cs.filter fun c => (toWide k c).cls != .nan
    let fl := if ok.length == cs.length then 0 else fNV
    match ok with
    | [] => (canonNan k, fl)
    | c :: cs =>
      (cs.foldl (fun b x => if (if larger then (toWide k b).lt (toWide k x) true else (toWide k x).lt (toWide k b) true) then x else b) c, fl)

/-- VREDMX and VREDMN in the lanes (R177). -/
def extremeRun (f : VS) (larger : Bool) (l : Lane) : M Unit :=
  reduceRun f false (fun k mask v =>
    let cs := ((weighted l.indivisible mask v).filter fun p => p.2 != 0).map (·.1)
    let r := extreme k larger (l.scalar.toNat % 2 ^ k.wid :: cs)
    (extCode k r.1, r.2, false)) l

/-- What VREDMX does in the lanes. -/
def laneVredmx (f : VS) : Lane → M Unit := extremeRun f true

/-- VREDMX (R177). -/
def execVredmx (f : VS) (s : State) : Out := vector (.vredmx f) (reduceIssue f) (laneVredmx f) s

/-- What VREDMN does in the lanes. -/
def laneVredmn (f : VS) : Lane → M Unit := extremeRun f false

/-- VREDMN (R177). -/
def execVredmn (f : VS) (s : State) : Out := vector (.vredmn f) (reduceIssue f) (laneVredmn f) s

/-- A value rounded RNE to FP32, with the flags (R101). -/
def roundF32 (x : Num) : Num × Nat :=
  let c := fromWide x fp32 .rne 0
  (ofF32 c.code, c.flags)

/-- Add of R101: FP32, an empty value skipped; the flags gathered. -/
def addF32 (x y : Option Num × Nat) : Option Num × Nat :=
  match x.1, y.1 with
  | none, _ => (y.1, x.2 ||| y.2)
  | _, none => (x.1, x.2 ||| y.2)
  | some a, some b =>
    let e := exactOf [a, b] (a.add b)
    let r := roundF32 e.num
    (some r.1, x.2 ||| y.2 ||| e.flags ||| r.2)

/-- The 64 lanes' partial sums of a plain source (R101). -/
def laneSums (k : Fmt) (v : View) (act : List Nat) : Array (Option Num × Nat) :=
  act.foldl (fun p e => p.modify (e % 64) fun x => addF32 x (some (toWide k (v.at e)), 0)) (Array.replicate 64 (none, 0))

/-- Halves the lanes `n` times (R101). -/
def foldLanes : Nat → List (Option Num × Nat) → List (Option Num × Nat)
  | 0, l => l
  | n + 1, l => foldLanes n (List.zipWith addF32 (l.take (l.length / 2)) (l.drop (l.length / 2)))

/-- VFREDS's sum (R101), before the final conversion. -/
def sumF32 (k : Fmt) (l : Lane) (mask : Nat) (v : View) (init : Num) : Num × Nat :=
  match v.kind with
  | .plain | .delta =>
    match foldLanes 6 (laneSums k v (activeElems l mask)).toList with
    | p :: _ =>
      let r := addF32 (some init, 0) p
      (r.1.getD init, r.2)
    | [] => (init, 0)
  | .runLength | .dictionary =>
    (weighted l mask v).foldl (fun (acc : Num × Nat) p =>
      if p.2 = 0 then acc
      else
        let a := toWide k p.1
        let e := exactOf [acc.1, a] (acc.1.add (a.mul (Num.ofInt p.2)))
        let r := roundF32 e.num
        (r.1, acc.2 ||| e.flags ||| r.2)) (init, 0)

/-- What VFREDS does in the lanes (R101, R176): init is the scalar's low 32 bits as FP32. -/
def laneVfreds (f : VS) (l : Lane) : M Unit :=
  reduceRun f true (fun k mask v =>
    let t := sumF32 k l.indivisible mask v (ofF32 (l.scalar.toNat % 2 ^ 32))
    let c := fromWide t.1 k .rne 0
    (BitVec.ofNat 64 c.code, t.2 ||| c.flags, c.sat)) l

/-- VFREDS (R101). -/
def execVfreds (f : VS) (s : State) : Out := vector (.vfreds f) (reduceIssue f) (laneVfreds f) s

/-- What VMVS does in the lanes: one element, whatever VL and VM (R176). -/
def laneVmvs (f : VS) (l : Lane) : M Unit :=
  reduceRun f false (fun k _ v =>
    let t := l.scalar.toNat
    (if t < l.nAt k.wid then extCode k (v.at t) else 0, 0, false)) l

/-- VMVS (R176). -/
def execVmvs (f : VS) (s : State) : Out := vector (.vmvs f) (reduceIssue f) (laneVmvs f) s

end Sys2Proof.Machine
end

