-- ==== Sys2Proof/Machine/Venc.lean ====
section
/-! DEFINITION. VENC: making and changing encodings (R179 to R181). -/

namespace Sys2Proof.Machine

/-- Distinct values in order of first appearance; none when they number more than `cap`. -/
def distinctUpTo (cap : Nat) : List Nat → List Nat → Option (List Nat)
  | acc, [] => some acc.reverse
  | acc, x :: xs =>
    if acc.contains x then distinctUpTo cap acc xs
    else if acc.length < cap then distinctUpTo cap (x :: acc) xs
    else none

/-- Run-length with at most `cap` maximal runs (R179). -/
def encodeRuns (sew slabs cap : Nat) (img : List Nat) : Option VReg :=
  let rs := runsOf 0 img
  if rs.length ≤ cap then some (mkRuns sew slabs rs) else none

/-- Dictionary of the distinct values with a new tag (R179). -/
def encodeDict (sew tag : Nat) (img : List Nat) : Option VReg :=
  (distinctUpTo (dictCap sew) [] img).map fun es =>
    mkDict sew es (img.map fun v => (es.findIdx? (· == v)).getD 0) tag

/-- Differences of neighbours as signed codes. -/
def deltasOf (sew : Nat) : List Nat → List Int
  | a :: b :: l => sextNat sew (intMod sew ((b : Int) - a)) :: deltasOf sew (b :: l)
  | _ => []

/-- Delta with a width, when every difference fits it (R179). -/
def encodeDelta (sew : Nat) (dw : BitVec 2) (img : List Nat) : Option VReg :=
  let w := dwBits dw
  let ds := deltasOf sew img
  if w < sew && ds.all (fun d => -(2 ^ (w - 1) : Int) ≤ d && d < (2 ^ (w - 1) : Int)) then
    some (mkDelta sew (img.headD 0) (ds.map fun d => intMod w d) dw)
  else none

/-- An encoding function: the image formed as a copy, then encoded whole (R179). -/
def encRun (f : VU) (int : Bool) (enc : Ctx → Lane → Fmt → List Nat → VReg) (l : Lane) : M Unit := do
  let l := l.indivisible
  let k ← needVtypeEntry l
  needKind (!int || k.isInt)
  let mask ← activeMask l
  let n := l.nAt k.wid
  decodeSource f.va f.feA
  decodeDest f.vd (l.whole mask n)
  let c ← getMe
  let a := sourceView c f.va k.wid
  let img := classImage l mask n (oldView c f.vd k.wid) a.at
  modMe fun c =>
    let c := putRes c f.vd (enc c l k img) (l.tail k.wid)
    { c with vc := { c.vc with vstart := 0 } }

/-- What VENCR does in the lanes. -/
def laneVencr (f : VU) : Lane → M Unit :=
  encRun f false fun _ l k img => (encodeRuns k.wid l.slabs (runCap k.wid l.slabs) img).getD (mkPlain k.wid img)

/-- VENCR (R179). -/
def execVencr (f : VU) (s : State) : Out := vector (.vencr f) (vuIssue f) (laneVencr f) s

/-- What VENCD does in the lanes. -/
def laneVencd (f : VU) : Lane → M Unit :=
  encRun f false fun c _ k img => (encodeDict k.wid (newTag c) img).getD (mkPlain k.wid img)

/-- VENCD (R179). -/
def execVencd (f : VU) (s : State) : Out := vector (.vencd f) (vuIssue f) (laneVencd f) s

/-- What VENCT does in the lanes. -/
def laneVenct (f : VU) : Lane → M Unit :=
  encRun f true fun _ l k img => (encodeDelta k.wid l.eruleDw img).getD (mkPlain k.wid img)

/-- VENCT (R179). -/
def execVenct (f : VU) (s : State) : Out := vector (.venct f) (vuIssue f) (laneVenct f) s

/-- What VDEC does in the lanes. -/
def laneVdec (f : VU) : Lane → M Unit := encRun f false fun _ _ k img => mkPlain k.wid img

/-- VDEC (R179). -/
def execVdec (f : VU) (s : State) : Out := vector (.vdec f) (vuIssue f) (laneVdec f) s

/-- VRENC's choice: the first form that fits (R179). -/
def reencode (c : Ctx) (l : Lane) (k : Fmt) (img : List Nat) : VReg :=
  let cap := runCap k.wid l.slabs
  match encodeRuns k.wid l.slabs (cap / 2) img with
  | some r => r
  | none =>
    match encodeDict k.wid (newTag c) img with
    | some r => r
    | none =>
      match (if k.isInt then encodeDelta k.wid l.eruleDw img else none) with
      | some r => r
      | none => (encodeRuns k.wid l.slabs cap img).getD (mkPlain k.wid img)

/-- What VRENC does in the lanes. -/
def laneVrenc (f : VU) : Lane → M Unit := encRun f false reencode

/-- VRENC (R179). -/
def execVrenc (f : VU) (s : State) : Out := vector (.vrenc f) (vuIssue f) (laneVrenc f) s

/-! VENCQ (R180). -/

/-- Distance of two numbers that are not NaN, over the extended reals. -/
def distance (a b : Num) : Num :=
  match a.cls, b.cls with
  | .inf, .inf => if a.neg == b.neg then Num.zero false else Num.inf false
  | .inf, _ => Num.inf false
  | _, .inf => Num.inf false
  | _, _ => { a.add b.negate with neg := false }

/-- The nearest of numbered entries, the lowest on a tie, with its distance. -/
def nearest (a : Num) : Option (Nat × Num) → List (Num × Nat) → Option (Nat × Num)
  | best, [] => best
  | best, (x, d) :: l =>
    if x.cls == .nan then nearest a best l
    else
      let t := distance a x
      match best with
      | none => nearest a (some (d, t)) l
      | some (b, u) => nearest a (if t.lt u false then some (d, t) else some (b, u)) l

/-- The code of an element under a codebook, and its flags (R180). -/
def quantCode (k : Fmt) (entries : List (Num × Nat)) (c : Nat) : Nat × Nat :=
  let a := toWide k c
  if a.cls == .nan then
    match entries.find? (fun e => e.1.cls == .nan) with
    | some e => (e.2, 0)
    | none => (0, fNV ||| fNX)
  else
    match nearest a none entries with
    | some (d, t) => (d, if t.cls == .zero then 0 else fNX)
    | none => (0, fNV ||| fNX)

/-- What VENCQ does in the lanes: vd takes vb's dictionary (R180). -/
def laneVencq (f : VV) (l : Lane) : M Unit := do
  let l := l.indivisible
  let k ← needVtypeEntry l
  decodeSource f.va f.feA
  decodeSource f.vb f.feB
  decodeDest f.vd true
  let c ← getMe
  let a := sourceView c f.va k.wid
  let b := sourceView c f.vb k.wid
  needU (b.kind == .dictionary) .encKind
  let entries := (b.vals.map (toWide k)).zipIdx
  let rs := (List.range (l.nAt k.wid)).map fun e => if e < l.vl then quantCode k entries (a.at e) else (0, 0)
  modMe fun c =>
    let c := addFlags (putV c f.vd (mkDict k.wid b.vals (rs.map (·.1)) b.tag)) (rs.foldl (fun fl r => fl ||| r.2) 0)
    { c with vc := { c.vc with vstart := 0 } }

/-- VENCQ (R180). -/
def execVencq (f : VV) (s : State) : Out :=
  vector (.vencq f) { regs := [f.vd.val, f.va.val, f.vb.val], reads := none, writes := none } (laneVencq f) s

/-! VDICT (R181). -/

/-- What the extracting VDICT does in the lanes. -/
def laneVdictExtract (f : VU) (l : Lane) : M Unit := do
  let k ← needVtypeEntry l
  decodeSource f.va f.feA
  decodeDest f.vd true
  let c ← getMe
  let a := sourceView c f.va k.wid
  needU (a.kind == .dictionary) .encKind
  modMe fun c =>
    let c := putV c f.vd (mkPlain k.wid a.vals)
    { c with vc := { c.vc with vstart := 0 } }

/-- VDICT vd, va (R181). -/
def execVdictExtract (f : VU) (s : State) : Out := vector (.vdictExtract f) (vuIssue f) (laneVdictExtract f) s

/-- What the replacing VDICT does in the lanes. -/
def laneVdictReplace (f : VV) (l : Lane) : M Unit := do
  let k ← needVtypeEntry l
  decodeSource f.va f.feA
  decodeSource f.vb f.feB
  decodeDest f.vd true
  let c ← getMe
  let a := sourceView c f.va k.wid
  let b := sourceView c f.vb k.wid
  needU (a.kind == .dictionary) .encKind
  let es := (List.range a.vals.length).map b.at
  modMe fun c =>
    let c := putV c f.vd (mkDict k.wid es a.codes a.tag)
    { c with vc := { c.vc with vstart := 0 } }

/-- VDICT vd, va, vb (R181). -/
def execVdictReplace (f : VV) (s : State) : Out :=
  vector (.vdictReplace f) { regs := [f.vd.val, f.va.val, f.vb.val], reads := none, writes := none } (laneVdictReplace f) s

end Sys2Proof.Machine
end

