-- ==== Sys2Proof/Machine/Vblock.lean ====
section
/-! DEFINITION. Encoded blocks and spill frames: VLDE, VSTE, VSPL and VFIL (R194 to R198, R427). -/

namespace Sys2Proof.Machine

/-! Blocks (R194). -/

/-- A block's header. -/
structure Blk where
  kind : VKind
  k : Nat
  tag : Nat
  dw : BitVec 2
  n : Nat
  sew : Nat
  bytes : Nat
  deriving DecidableEq, Repr

/-- Bits of the value area in use. -/
def Blk.valBits (b : Blk) : Nat :=
  match b.kind with
  | .plain => b.n * b.sew
  | .runLength | .dictionary => b.k * b.sew
  | .delta => b.sew

/-- Bits of the index area in use. -/
def Blk.idxBits (b : Blk) : Nat :=
  match b.kind with
  | .plain => 0
  | .runLength => 16 * b.k
  | .dictionary => b.n * codeBits b.k
  | .delta => (b.n - 1) * dwBits b.dw

def bitBytes (n : Nat) : Nat := (n + 7) / 8

/-- Bytes of the areas. -/
def Blk.vb (b : Blk) : Nat := pad64 (bitBytes b.valBits)

def Blk.ib (b : Blk) : Nat := pad64 (bitBytes b.idxBits)

/-- Smallest size that holds the block. -/
def Blk.size (b : Blk) : Nat := 64 + b.vb + b.ib

/-- CW of a kind. -/
def Blk.cw (b : Blk) : Nat := match b.kind with | .dictionary => codeBits b.k | .plain | .runLength | .delta => 0

/-- The header of a block, byte 0 in the low bits. -/
def blkOf (h : Nat) : Blk :=
  { kind := kindOf h, k := nbits h 0 17, tag := nbits h 48 8, dw := BitVec.ofNat 2 (nbits h 46 2), n := nbits h 64 32, sew := nbits h 96 8, bytes := nbits h 128 32 }

def Blk.header (b : Blk) : Nat :=
  (match b.kind with | .plain => 0 | .runLength => 1 | .dictionary => 2 | .delta => 3) * 2 ^ 56 + b.tag * 2 ^ 48 + b.dw.toNat * 2 ^ 46 + b.cw * 2 ^ 42 + b.k +
    2 ^ 64 * b.n + 2 ^ 96 * b.sew + 2 ^ 128 * b.bytes

/-- Whether a header keeps R194, and its kind R89 as far as the index area does not matter. DW counts in a delta block alone (DESIGN CHOICE, log 54). -/
def Blk.ok (b : Blk) (h : Nat) (slabs : Nat) (int : Bool) : Bool :=
  nbits h 58 6 == 0 && nbits h 17 25 == 0 && nbits h 104 24 == 0 && nbits h 160 352 == 0 && nbits h 42 4 == b.cw &&
    1 ≤ b.n && b.n ≤ 65536 && [4, 6, 8, 16, 32].contains b.sew && b.bytes % 64 == 0 && b.size ≤ b.bytes &&
    match b.kind with
    | .plain => b.k == 0
    | .runLength => 1 ≤ b.k && b.k ≤ runCap b.sew slabs
    | .dictionary => 1 ≤ b.k && b.k ≤ dictCap b.sew
    | .delta => int && b.k == 1 && b.dw != 3 && dwBits b.dw < b.sew

/-- Index entries that the first `bits` bits of the index area hold. -/
def Blk.idx (b : Blk) (bits v : Nat) : List Nat :=
  match b.kind with
  | .plain => []
  | .runLength => unpack 16 (min b.k (bits / 16)) v
  | .dictionary => unpack (codeBits b.k) (min b.n (bits / codeBits b.k)) v
  | .delta => unpack (dwBits b.dw) (min (b.n - 1) (bits / dwBits b.dw)) v

/-- Elements that index entries determine, from element 0 up. -/
def Blk.known (b : Blk) (ix : List Nat) : Nat :=
  match b.kind with
  | .plain => b.n
  | .runLength => ix.getLastD 0
  | .dictionary => ix.length
  | .delta => ix.length + 1

/-- Whether ends rise strictly and stay within `n`. -/
def rising (n : Nat) : Nat → List Nat → Bool
  | _, [] => true
  | prev, e :: es => prev < e && e ≤ n && rising n e es

/-- Whether the index entries keep R89. -/
def Blk.idxOk (b : Blk) (ix : List Nat) : Bool :=
  match b.kind with
  | .plain | .delta => true
  | .runLength => rising b.n 0 ix && (ix.length < b.k || ix.getLastD 0 == b.n)
  | .dictionary => ix.all (· < b.k)

/-- Runs from element `p` for `g` elements, the last one extended to `n`. -/
def sliceRuns (p g n : Nat) : List (Nat × Nat) → List (Nat × Nat)
  | [] => []
  | (e, v) :: rs => if e ≤ p then sliceRuns p g n rs else if p + g ≤ e then [(n, v)] else (e - p, v) :: sliceRuns p g n rs

/-- A list continued by its last element to a length. -/
def stretch (n : Nat) (l : List Nat) : List Nat := l ++ List.replicate (n - l.length) (l.getLastD 0)

/-- The register VLDE makes of elements `p` to `p + g - 1` (R195). -/
def Blk.slice (b : Blk) (slabs n tag p g v : Nat) (ix : List Nat) : VReg :=
  match b.kind with
  | .plain => mkPlain b.sew (stretch n ((unpack b.sew b.n v).drop p |>.take g))
  | .runLength => mkRuns b.sew slabs (sliceRuns p g n (ix.zip (unpack b.sew b.k v)))
  | .dictionary => mkDict b.sew (unpack b.sew b.k v) (stretch n (ix.drop p |>.take g)) tag
  | .delta =>
    let base := (ix.take p).foldl (fun c d => intMod b.sew ((c : Int) + sextNat (dwBits b.dw) d)) (v % 2 ^ b.sew)
    let ds := ix.drop p |>.take (g - 1)
    mkDelta b.sew base (ds ++ List.replicate (n - 1 - ds.length) 0) b.dw

/-- An exception with an address for its TVAL. -/
def excAt (x : Exc) (va : Nat) : Exc := match x with | .cause c _ => .cause c (some (BitVec.ofNat 64 va)) | x => x

/-- A precise fault of a block or frame access: VSTART is 0. -/
def preciseExc {α : Type} (x : Exc) : M α := do
  clearVstart
  throw x

/-- Reads a whole range, or traps precisely. -/
def readWhole (l : Lane) (r : QReg) (enc : Bool) (blk va n : Nat) : M Nat := do
  let t ← readSpan l r enc blk va n
  match t.2.2 with
  | some x => preciseExc x
  | none => return t.1

/-- Walks `j` blocks from an address by their BYTES fields (R427). -/
def walkBlocks (l : Lane) (r : QReg) : Nat → Nat → M Nat
  | 0, va => pure va
  | j + 1, va => do
    let t ← readSpan l { r with early := [] } true va va 64
    match t.2.2 with
    | some x => preciseExc (excAt x va)
    | none =>
      let b := blkOf t.1
      needU (b.bytes != 0 && b.bytes % 64 == 0) .encBlock
      walkBlocks l r j (va + b.bytes)

/-- Address of the block at a stream's index (R427). -/
def blockVa (l : Lane) (r : QReg) : M Nat :=
  match r.block with
  | some a => pure a.toNat
  | none => walkBlocks l r (r.pos.toNat / 2 ^ 17) r.desc.base.toNat

/-- STREAM_END of an index at or above T (R427). -/
def needIndex (r : QReg) : M Unit := if r.atEnd then preciseExc (.cause .streamEnd (some 0)) else pure ()

/-- Accesses of a range of the next block, which begins at `blk`, with hint 0b100. -/
def earlySpan (r : QReg) (blk va n : Nat) : List Early := (spanWords va n).map fun w => (blockKey r (w.1 - blk), w.1, w.2, 0)

/-- Runs that hold the elements below `need`. -/
def runsNeeded (need : Nat) : List Nat → Nat
  | [] => 0
  | e :: es => if need ≤ e then 1 else 1 + runsNeeded need es

/-- Reads the next block early: its header and what determines `g` elements from the stream's offset (R136). -/
def blockEarly (l : Lane) (q : Fin 16) (g : Nat) : M Unit := do
  let r ← getQ q
  match r.atEnd, r.block with
  | false, some a =>
    let va := a.toNat
    let r1 ← readEarly l true (earlySpan r va va 64) r
    match earlyBytes r1 (blockKey r 0) 64 with
    | none => putQ q r1
    | some h =>
      let b := blkOf h
      let need := min b.n (r.pos.toNat % 2 ^ 17 + g)
      let vals := match b.kind with
        | .plain => bitBytes (need * b.sew)
        | .runLength | .dictionary | .delta => b.vb
      let r2 ← readEarly l true (earlySpan r va (va + 64) vals) r1
      let bits := match b.kind with
        | .plain => 0
        | .runLength => 16 * b.k
        | .dictionary => need * codeBits b.k
        | .delta => (need - 1) * dwBits b.dw
      let r3 ← readEarly l true (earlySpan r va (va + 64 + b.vb) (bitBytes bits)) r2
      let runs := runsNeeded need (match earlyBytes r3 (blockKey r (64 + b.vb)) (2 * b.k) with
        | some e => unpack 16 b.k e
        | none => [])
      let keep (a : Nat) : Bool := a < 64 + bitBytes (runs * b.sew) || (64 + b.vb ≤ a && a < 64 + b.vb + 2 * runs)
      putQ q (if b.kind == .runLength then { r3 with early := r3.early.filter fun x => keep (x.1 - blockKey r 0) } else r3)
  | _, _ => pure ()

/-- What VLDE does in the lanes (R195). -/
def laneVlde (f : VLdForm) (l : Lane) : M Unit := do
  let r ← needStream f.q false true
  let mv ← needVtypeEntry l
  needIndex r
  decodeDest f.vd true
  usePrepared r
  let p := r.pos.toNat % 2 ^ 17
  let n := l.nAt mv.wid
  let va ← blockVa l r
  let h ← readWhole l r true va va 64
  let b := blkOf h
  needU (b.ok h l.slabs mv.isInt && b.sew == mv.wid && b.n ≤ n && p < b.n) .encBlock
  let v ← readWhole l r true va (va + 64) b.vb
  let t ← readSpan l r true va (va + 64 + b.vb) b.ib
  let ix := b.idx (8 * t.2.1) t.1
  needU (b.idxOk ix) .encBlock
  let g := if t.2.2.isNone then b.n - p else b.known ix - p
  match t.2.2, g with
  | some x, 0 => preciseExc x
  | _, _ =>
    let s ← get
    modMe fun c => putV c f.vd (b.slice l.slabs n (newTag c) p g v ix) (!s.late)
    trimVl g
    clearVstart
    let next := p + g = b.n
    putQ f.q { r with
      pos := BitVec.ofNat 48 (if next then (r.pos.toNat / 2 ^ 17 + 1) * 2 ^ 17 else r.pos.toNat + g)
      block := some (BitVec.ofNat 64 (if next then va + b.bytes else va))
      early := [] }
    if f.hint = 4 then blockEarly l f.q g

/-- VLDE (R195). -/
def execVlde (f : VLdForm) (s : State) : Out := vector (.vlde f) { regs := [f.vd.val], reads := none, writes := none } (laneVlde f) s

/-- Runs that cover `[0, vl)`, the last cut there (R197). -/
def cutRuns (vl : Nat) : List (Nat × Nat) → List (Nat × Nat)
  | [] => []
  | (e, v) :: rs => if vl ≤ e then [(vl, v)] else (e, v) :: cutRuns vl rs

/-- A register's first `vl` elements as a block: header, values, index entries (R197). -/
def blockOf (a : View) (sew vl : Nat) : Blk × Nat × Nat :=
  let mk (k : Nat) (tag : Nat) : Blk :=
    let b : Blk := { kind := a.kind, k, tag, dw := a.dw, n := vl, sew, bytes := 0 }
    { b with bytes := b.size }
  match a.kind with
  | .plain => (mk 0 0, pack sew (a.elems.toList.take vl), 0)
  | .runLength =>
    let rs := cutRuns vl (a.ends.zip a.vals)
    (mk rs.length 0, pack sew (rs.map (·.2)), pack 16 (rs.map (·.1)))
  | .dictionary => (mk a.vals.length a.tag, pack sew a.vals, pack (codeBits a.vals.length) (a.codes.take vl))
  | .delta => (mk 1 0, a.at 0, pack (dwBits a.dw) (a.deltas.take (vl - 1)))

/-- The first element whose bytes a partial write of a block leaves out (R197): 0 before the value area ends, else the first that the index entries written do not give; none of them once every entry is written, and VL stands for a fault in the padding (DESIGN CHOICE, log 54). -/
def blockCut (b : Blk) (idx written : Nat) : Nat :=
  if written < 64 + b.vb then 0 else b.known (b.idx (8 * (written - 64 - b.vb)) idx)

/-- What VSTE does in the lanes (R197). -/
def laneVste (f : VStForm) (l : Lane) : M Unit := do
  let r ← needStream f.q true true
  let mv ← needVtypeEntry l
  needIndex r
  needU (r.pos.toNat % 2 ^ 17 == 0) .streamFmt
  decodeSource f.vs f.fe
  if l.vl = 0 then clearVstart
  else
    usePrepared r
    let c ← getMe
    let b := blockOf (sourceView c f.vs mv.wid) mv.wid (min l.vl (l.nAt mv.wid))
    let va ← blockVa l r
    let t ← writeSpan l r.desc.port true (spanWords va b.1.bytes) (b.1.header + 2 ^ 512 * b.2.1 + 2 ^ (8 * (64 + b.1.vb)) * b.2.2)
    match t.2 with
    | some x =>
      setVstart (blockCut b.1 b.2.2 t.1)
      throw x
    | none =>
      putQ f.q { r with
        pos := BitVec.ofNat 48 ((r.pos.toNat / 2 ^ 17 + 1) * 2 ^ 17)
        block := some (BitVec.ofNat 64 (va + b.1.bytes)) }
      clearVstart

/-- VSTE (R197). -/
def execVste (f : VStForm) (s : State) : Out := vector (.vste f) { regs := [f.vs.val], reads := none, writes := none } (laneVste f) s

/-! Spill frames (R198). -/

/-- VLENB of an entry's declaration. -/
def Lane.vlenb (l : Lane) : Nat := l.vlmax / 8

/-- Address of the frame at a stream's index, which must have no offset (R427). -/
def frameVa (l : Lane) (r : QReg) : M Nat := do
  needIndex r
  needU (r.pos.toNat % 2 ^ 17 == 0) .streamFmt
  return (r.desc.base.toNat + r.pos.toNat / 2 ^ 17 * (64 + l.vlenb)) % 2 ^ 64

/-- The stream moves one frame (R198); a block's address is to be found again. -/
def nextFrame (q : Fin 16) (r : QReg) : M Unit := putQ q { r with pos := r.pos + BitVec.ofNat 48 (2 ^ 17), block := none, early := [] }

/-- Bytes of a frame's body: the elements below VL of a plain register, the image of an encoded one. -/
def frameBody (l : Lane) (plain : Bool) (vl wid : Nat) : Nat := if plain then min l.vlenb (bitBytes (vl * wid)) else l.vlenb

/-- What VSPL does in the lanes (R198). -/
def laneVspl (f : VStForm) (l : Lane) : M Unit := do
  let r ← needStream f.q true true
  let mv ← needVtypeEntry l
  let va ← frameVa l r
  decodeSource f.vs f.fe
  usePrepared r
  let c ← getMe
  let x := if c.vc.vlive.getLsbD f.vs.val then c.v[f.vs] else VReg.dead
  let body := frameBody l (x.kind == .plain) l.vl mv.wid
  let img := if x.kind == .plain then x.img.toNat % 2 ^ (min l.vl (l.nAt mv.wid) * mv.wid) else x.img.toNat % 2 ^ l.vlmax
  let header := l.vl + 2 ^ 64 * ({ x with full := false, dirty := false, pois := false } : VReg).meta + 2 ^ 128 * mv.wid + 2 ^ 136 * l.eff.toNat
  let t ← writeSpan l r.desc.port false (spanWords va (64 + body)) (header + 2 ^ 512 * img)
  match t.2 with
  | some x => preciseExc x
  | none =>
    nextFrame f.q r
    clearVstart

/-- VSPL (R198). -/
def execVspl (f : VStForm) (s : State) : Out := vector (.vspl f) { regs := [f.vs.val], reads := none, writes := none } (laneVspl f) s

/-- The register a metadata word and an image give. -/
def regOf (w img : Nat) : VReg :=
  { VReg.reset with
    kind := kindOf w, tag := BitVec.ofNat 8 (nbits w 48 8), dw := BitVec.ofNat 2 (nbits w 46 2), cw := BitVec.ofNat 4 (nbits w 42 4)
    esew := BitVec.ofNat 6 (nbits w 36 6), k := BitVec.ofNat 17 (nbits w 0 17), img := BitVec.ofNat 65536 img }

/-- R89 with ESEW as the word has it: a plain register has none, an encoded one a legal width. -/
def savedOk (w img vlmax : Nat) (int : Bool) : Bool :=
  let e := nbits w 36 6
  if kindOf w = .plain then e == 0 && metaOk w img vlmax 8 int else [4, 6, 8, 16, 32].contains e && metaOk w img vlmax e int

/-- Reads the next frame early (R136). -/
def frameEarly (l : Lane) (q : Fin 16) (wid : Nat) : M Unit := do
  let r ← getQ q
  if !r.atEnd then
    let va := (r.desc.base.toNat + r.pos.toNat / 2 ^ 17 * (64 + l.vlenb)) % 2 ^ 64
    let r1 ← readEarly l false (earlySpan r va va 64) r
    match earlyBytes r1 (blockKey r 0) 64 with
    | none => putQ q r1
    | some h =>
      let r2 ← readEarly l false (earlySpan r va (va + 64) (frameBody l (kindOf (nbits h 64 64) == .plain) (min l.vl (nbits h 0 64)) wid)) r1
      putQ q r2

/-- What VFIL does in the lanes (R198). -/
def laneVfil (f : VLdForm) (l : Lane) : M Unit := do
  let r ← needStream f.q false true
  let mv ← needVtypeEntry l
  let va ← frameVa l r
  decodeDest f.vd true
  usePrepared r
  let h ← readWhole l r false va va 64
  let w := nbits h 64 64
  needU (nbits h 128 8 == mv.wid && nbits h 136 8 == l.eff.toNat) .spillFrame
  let plain := kindOf w == .plain
  let img ← readWhole l r false va (va + 64) (frameBody l plain (nbits h 0 64) mv.wid)
  let img := if plain then img % 2 ^ (min (nbits h 0 64) (l.nAt mv.wid) * mv.wid) else img
  needU (savedOk w img l.vlmax mv.isInt) .spillFrame
  let s ← get
  modMe fun c => putV c f.vd (regOf w img) (!s.late)
  nextFrame f.q r
  clearVstart
  if f.hint = 4 then frameEarly l f.q mv.wid

/-- VFIL (R198). -/
def execVfil (f : VLdForm) (s : State) : Out := vector (.vfil f) { regs := [f.vd.val], reads := none, writes := none } (laneVfil f) s

end Sys2Proof.Machine
end

