-- ==== Sys2Proof/Machine/Vcvt.lean ====
section
/-! DEFINITION. The conversions (R78 to R80, R225 to R228). -/

namespace Sys2Proof.Machine

/-! VCVT (R225). -/

/-- What VCVT does in the lanes. -/
def laneVcvt (f : VCvtForm) (l : Lane) : M Unit := do
  let k ← needVtypeEntry l
  let d ← needEntry l f.ent.val
  needKind (k.bsk == 0 && d.bsk == 0)
  needU (l.vl ≤ l.nAt d.wid) .vlRange
  elementWise l f.vd k.wid d.wid f.x false [(f.va, f.feA)] (fun c => [.vec f.va.val (sourceView c f.va k.wid)])
    fun srcs seed => convert (srcs.getD 0 0) k d (roundingMode l.cap.rmo d) seed f.sat

/-- VCVT (R225). -/
def execVcvt (f : VCvtForm) (s : State) : Out :=
  vector (.vcvt f) { regs := [f.vd.val, f.va.val], reads := none, writes := none } (laneVcvt f) s

/-! Scales (R78, R226). -/

/-- Whether a scale is valid under an entry (R78, R226). -/
def scaleOk (k : Fmt) (s : Num) : Bool :=
  s.cls == .finite && !s.neg && (k.bsk != 1 || (s.mag == 2 ^ s.mag.log2 && -127 ≤ s.lg && s.lg ≤ 127))

/-- What an invalid scale gives: the destination's canonical NaN, or zero, with NV (R78). -/
def badScale (d : Fmt) (seed : BitVec 32) : Coded :=
  { code := if d.hasNan then canonNan d else zeroCode d false, flags := fNV, sat := false, seed }

/-- Elements a scale governs (R226). -/
def scaleSpan (k : Fmt) (n : Nat) : Nat := if k.bsk = 0 then max n 1 else 2 ^ k.blog

/-- A vector of scales as each element's scale. -/
def scaleView (k : Fmt) (n : Nat) (v : View) : View := View.plain ((List.range n).map fun e => v.at (e / scaleSpan k n))

/-- What VQNT does in the lanes (R226). -/
def laneVqnt (f : VQForm) (l : Lane) : M Unit := do
  let k ← needVtypeEntry l
  needKind (k.bsk != 3)
  needU (l.vl ≤ l.nAt 32) .vlRange
  let n := l.nAt k.wid
  elementWise l f.vd 32 k.wid f.x false [(f.va, f.feA), (f.vb, f.feB)]
    (fun c => [.vec f.va.val (sourceView c f.va 32), .vec f.vb.val (scaleView k n (sourceView c f.vb 32))])
    fun srcs seed =>
      let s := ofF32 (srcs.getD 1 0)
      if scaleOk k s then fromWide ((ofF32 (srcs.getD 0 0)).quo s) k (roundingMode l.cap.rmo k) seed f.sat else badScale k seed

/-- VQNT (R226). -/
def execVqnt (f : VQForm) (s : State) : Out :=
  vector (.vqnt f) { regs := [f.vd.val, f.va.val, f.vb.val], reads := none, writes := none } (laneVqnt f) s

/-- What VDQNT does in the lanes (R226). -/
def laneVdqnt (f : VDQForm) (l : Lane) : M Unit := do
  let k ← needVtypeEntry l
  needKind (k.bsk != 3)
  needU (l.vl ≤ l.nAt 32) .vlRange
  let n := l.nAt 32
  elementWise l f.vd k.wid 32 f.x false [(f.va, f.feA), (f.vb, f.feB)]
    (fun c => [.vec f.va.val (sourceView c f.va k.wid), .vec f.vb.val (scaleView k n (sourceView c f.vb 32))])
    fun srcs seed =>
      let s := ofF32 (srcs.getD 1 0)
      if scaleOk k s then fromWide ((toWide k (srcs.getD 0 0)).mul s) fp32 (roundingMode l.cap.rmo fp32) seed else badScale fp32 seed

/-- VDQNT (R226). -/
def execVdqnt (f : VDQForm) (s : State) : Out :=
  vector (.vdqnt f) { regs := [f.vd.val, f.va.val, f.vb.val], reads := none, writes := none } (laneVdqnt f) s

/-! Amax history (R79, R80, R227). -/

/-- The larger of two magnitudes. -/
def maxNum (x y : Num) : Num := if x.lt y false then y else x

/-- AMAXH after a new maximum enters (R79). -/
def pushAmax (a : Vector (BitVec 32) 16) (m : BitVec 32) : Vector (BitVec 32) 16 :=
  Vector.ofFn fun i => if i.val = 0 then m else a[i.val - 1]

/-- What VAMAX does in the lanes (R79). The rounding to FP32 raises nothing: R79 names NV alone (DESIGN CHOICE, log 52). -/
def laneVamax (f : VA1) (l : Lane) : M Unit := do
  let l := l.indivisible
  let k ← needVtypeEntry l
  let mask ← activeMask l
  decodeSource f.va f.feA
  let c ← getMe
  let v := sourceView c f.va k.wid
  let xs := (activeElems l mask).map fun e => toWide k (v.at e)
  let ok := xs.filter fun x => x.cls != .nan
  let m := ok.foldl (fun m x => maxNum m { x with neg := false }) (Num.zero false)
  modMe fun c =>
    let c := addFlags c (if ok.length == xs.length then 0 else fNV)
    { c with
      fc := { c.fc with amax := pushAmax c.fc.amax (BitVec.ofNat 32 (toF32 m .rup)) }
      vc := { c.vc with vstart := 0 } }

/-- VAMAX (R79, R227). -/
def execVamax (f : VA1) (s : State) : Out := vector (.vamax f) { regs := [f.va.val], reads := none, writes := none } (laneVamax f) s

/-- The power of two that lifts L to m, clamped (R80). -/
def scalePower (m l : Num) : Num :=
  let c := ((List.range 255).find? fun (i : Nat) => magLe m.mag m.exp l.mag (l.exp + ((i : Int) - 127))).getD 254
  { cls := .finite, neg := false, mag := 1, exp := (c : Int) - 127, sticky := false }

/-- DelayedScale (R80) of the newest maxima. Its rounding raises nothing (DESIGN CHOICE, log 52). A NaN among them, or a negative largest where a logarithm is taken, has no stated scale: a free value (log 7). -/
def delayedScale (tick : Nat) (ms : List Num) (k : Fmt) : Nat :=
  let m := match ms with
    | [] => Num.zero false
    | x :: xs => xs.foldl maxNum x
  let l := largest k
  if ms.any (fun x => x.cls == .nan) || (m.neg && m.cls != .zero && k.bsk == 1) then Config.free tick % 2 ^ 32
  else if m.cls == .zero || (m.cls == .inf && !m.neg) then 0x3F800000
  else if k.bsk = 1 then toF32 (scalePower m l) .rne
  else toF32 (m.quo l) .rup

/-- What VSCL does in the lanes (R80, R227). -/
def laneVscl (f : VSclForm) (l : Lane) : M Unit := do
  let k ← needEntry l f.ent.val
  let n := if f.n.val = 0 then 16 else f.n.val
  let s ← get
  let ms := (s.me.fc.amax.toList.take n).map fun a => ofF32 a.toNat
  clearVstart
  landS f.sd (BitVec.ofNat 64 (delayedScale s.tick ms k))

/-- VSCL (R80, R227). -/
def execVscl (f : VSclForm) (s : State) : Out := vector (.vscl f) { noRegs with writes := some f.sd } (laneVscl f) s

/-! VPACK and VUNPK (R228). -/

/-- m or ENTRY_KIND. -/
def needRatio (wide narrow : Fmt) : M Nat := do
  match packRatio wide narrow with
  | some m => return m
  | none => trapU .entryKind

/-- The registers of a group. -/
def groupRegs (base : Fin 32) (m : Nat) : List (Fin 32) := (List.range m).map fun i => Fin.ofNat 32 (base.val + i)

/-- Converted elements of one destination under the classes of R90, in ascending order: `base` is the logical number of its element 0. -/
def packElems (l : Lane) (mask base : Nat) (old : View) (src : Nat → Nat) (conv : Nat → BitVec 32 → Coded) : Raised → List Nat → List Nat × Raised
  | acc, [] => ([], acc)
  | acc, e :: es =>
    let r : Nat × Raised :=
      if l.written mask (base + e) then
        let c := conv (src (base + e)) acc.seed
        (c.code, acc.add c 1 0 0)
      else (if l.vl ≤ base + e && l.td then 0 else old.at e, acc)
    let rest := packElems l mask base old src conv r.2 es
    (r.1 :: rest.1, rest.2)

/-- Whether every element from `base` on is Written. -/
def wholeFrom (l : Lane) (mask base n : Nat) : Bool := (List.range n).all fun e => l.written mask (base + e)

/-- Writes the registers of a destination group in turn. -/
def packInto (l : Lane) (mask sew n : Nat) (src : Nat → Nat) (conv : Nat → BitVec 32 → Coded) : List (Fin 32 × Nat) → M Unit
  | [] => pure ()
  | (r, i) :: rest => do
    let c ← getMe
    let old := if wholeFrom l mask (i * n) n then View.plain [] else oldView c r sew
    let x := packElems l mask (i * n) old src conv (Raised.start c.fc.seed) (List.range n)
    modMe fun c => applyRaised (putRes c r (encodeElems l sew x.1) (if l.td then some (tailSlab (l.vl - i * n) sew) else none)) x.2
    packInto l mask sew n src conv rest

/-- What VUNPK does in the lanes. -/
def laneVunpk (f : VPkForm) (l : Lane) : M Unit := do
  let l := l.indivisible
  let w ← needVtypeEntry l
  let k ← needEntry l f.ent.val
  let m ← needRatio w k
  let mask ← activeMask l
  let nw := l.nAt w.wid
  decodeSource f.va f.feA
  let dst := (groupRegs f.vd m).zipIdx
  forM' dst fun d => decodeDest d.1 (wholeFrom l mask (d.2 * nw) nw)
  let c ← getMe
  let v := sourceView c f.va k.wid
  packInto l mask w.wid nw v.at (fun c seed => convert c k w (roundingMode l.cap.rmo w) seed) dst
  clearVstart

/-- VUNPK (R228). -/
def execVunpk (f : VPkForm) (s : State) : Out :=
  vector (.vunpk f) { regs := packRegs s.me f.ent f.vd f.va, reads := none, writes := none } (laneVunpk f) s

/-- What VPACK does in the lanes. -/
def laneVpack (f : VPkForm) (l : Lane) : M Unit := do
  let l := l.indivisible
  let w ← needVtypeEntry l
  let k ← needEntry l f.ent.val
  let m ← needRatio w k
  let mask ← activeMask l
  let nw := l.nAt w.wid
  let n := l.nAt k.wid
  forM' (groupRegs f.va m) fun r => decodeSource r f.feA
  decodeDest f.vd (l.whole mask n)
  let c ← getMe
  let vs := ((groupRegs f.va m).map fun r => sourceView c r w.wid).toArray
  packInto l mask k.wid n (fun e => match vs[e / nw]? with | some v => v.at (e % nw) | none => 0)
    (fun c seed => convert c w k (roundingMode l.cap.rmo k) seed) [(f.vd, 0)]
  clearVstart

/-- VPACK (R228). -/
def execVpack (f : VPkForm) (s : State) : Out :=
  vector (.vpack f) { regs := packRegs s.me f.ent f.va f.vd, reads := none, writes := none } (laneVpack f) s

end Sys2Proof.Machine
end

