-- ==== Sys2Proof/Machine/Tug.lean ====
section
/-! DEFINITION. The Tug: command blocks and their checks (R230 to R233), paths (R234), patterns (R235), the functions (R236 to R239, R428), and the start, beats and completion of a command (R240, R244, R268, R429), for loop contexts and C nodes (R299). -/

namespace Sys2Proof.Machine

/-! Command blocks (R231, R232). -/

/-- A command block's fields. -/
structure TBlk where
  seq : Nat
  sent : Nat
  dent : Nat
  enck : Nat
  dw : Nat
  sfill : Bool
  win : Nat
  winen : Bool
  dr : Nat
  dkind : Nat
  /-- bytes of a TCOPY element -/
  esz : Nat
  /-- dimensions used -/
  ndim : Nat
  fn : Nat
  dport : Nat
  sport : Nat
  src : Word
  dst : Word
  counts : List Nat
  sstr : List Word
  dstr : List Word
  aux : Nat
  deriving DecidableEq, Repr

def tblkOf (b : BitVec 1024) : TBlk :=
  let c (lo n : Nat) : Nat := nbits b.toNat lo n
  let w (off : Nat) : Word := BitVec.ofNat 64 (blkField b off 8)
  { seq := c 56 8, sent := c 52 4, dent := c 48 4, enck := c 46 2, dw := c 44 2, sfill := nbit b.toNat 43, win := c 40 3, winen := nbit b.toNat 39
    dr := c 36 3, dkind := c 34 2, esz := 2 ^ c 32 2, ndim := c 30 2 + 1, fn := c 10 5, dport := c 5 5, sport := c 0 5, src := w 8, dst := w 0x10
    counts := [blkField b 0x18 4, blkField b 0x1C 4, blkField b 0x20 4, blkField b 0x24 4]
    sstr := [w 0x28, w 0x30, w 0x38], dstr := [w 0x40, w 0x48, w 0x50], aux := blkField b 0x58 8 }

/-- Elements of the pattern. -/
def TBlk.total (b : TBlk) : Nat := (b.counts.take b.ndim).foldl (· * ·) 1

/-- COUNT0. -/
def TBlk.row (b : TBlk) : Nat := b.counts.headD 0

/-- Entries a command has captured. -/
def TugCmd.blk (k : TugCmd) : TBlk := tblkOf k.block

def TugCmd.fs (k : TugCmd) : Fmt := fmtOf (entWord k.ents k.blk.sent)

def TugCmd.fd (k : TugCmd) : Fmt := fmtOf (entWord k.ents k.blk.dent)

/-- Width of a source element; 0 where it is not a pattern of elements. -/
def srcBits (fn : Nat) (b : TBlk) (fs : Fmt) : Nat := if fn ≤ 1 then 8 * b.esz else if fn = 4 then 0 else fs.wid

/-- Width of a destination element. -/
def dstBits (fn : Nat) (b : TBlk) (fs fd : Fmt) : Nat := if fn ≤ 1 then 8 * b.esz else if fn = 3 then 0 else if fn = 5 then fs.wid else fd.wid

/-- Bytes of the destination; for TENC its largest possible output (check 6 of R233). -/
def dstBytes (fn : Nat) (b : TBlk) (fs fd : Fmt) : Nat :=
  if fn = 3 then (if b.aux = 0 then 0 else (b.total + b.aux - 1) / b.aux * (64 + max (pad64 (bitBytes (b.aux * fd.wid))) 2048))
  else bitBytes (b.total * dstBits fn b fs fd)

/-- Checks 2 to 4 of R233; 0 when they pass. -/
def shapeCheck (fn : Nat) (core : Option (Fin 1024)) (raw : BitVec 1024) (b : TBlk) (fs fd : Fmt) : Nat :=
  let aux := if fn = 1 then b.aux / 2 ^ 32 else if fn = 2 || fn = 3 then 0 else b.aux
  let fnOk := match core with
    | some _ => b.fn == 0
    | none => [0, 2, 3, 4].contains fn && !b.winen
  let kindOk := match core with
    | some c => b.dport == clusterCore c.val
    | none => false
  let unused := b.ndim - 1
  if !(nbits raw.toNat 15 15 == 0 && blkField raw 0x60 32 == 0 && b.dkind != 3 && b.dw != 3 && aux == 0 && fnOk) then 2
  else if !(8 ≤ b.sport && (b.dport < 8 || 16 ≤ b.dport) && (b.dkind == 0 || kindOk)) then 3
  else if !((b.counts.take b.ndim).all (1 ≤ ·) && (b.counts.drop b.ndim).all (· == 0) && (b.sstr.drop unused).all (· == 0) &&
      (b.dstr.drop unused).all (· == 0) && b.total * max (srcBits fn b fs) (dstBits fn b fs fd) < 2 ^ 43) then 4
  else 0

/-- Which entries a function uses: SENT, DENT (check 5 of R233). -/
def usesEnts (fn : Nat) (b : TBlk) : Bool × Bool :=
  match fn with
  | 2 => (true, true) | 3 => (true, true) | 4 => (true, true)
  | 5 => (true, false)
  | _ => (false, b.dkind == 1)

/-- Check 5 of R233. -/
def entriesOk (fn : Nat) (b : TBlk) (fs fd : Fmt) : Bool :=
  let kinds := match fn with
    | 2 => fs.kind == 0 && fs.bsk == 0 && (!b.sfill || b.dkind == 1)
    | 3 => fs.bsk == 0 && fd.bsk == 0 && (b.enck != 3 || (fd.isInt && dwBits (BitVec.ofNat 2 b.dw) < fd.wid))
    | 4 => fs.bsk == 0 && fd.bsk == 0
    | 5 => fs.wid == 8 || fs.wid == 32
    | _ => true
  kinds && (fn ≤ 1 || (b.row * srcBits fn b fs % 8 == 0 && b.row * dstBits fn b fs fd % 8 == 0))

/-- Check 6 of R233. -/
def destOk (fn : Nat) (core : Option Core) (b : TBlk) (fs fd : Fmt) : Bool :=
  let n := dstBytes fn b fs fd
  match core with
  | none => true
  | some c =>
    let slot := Fin.ofNat 32 b.dst.toNat
    let ring := c.rings[Fin.ofNat 8 b.dr]
    (if fn = 5 then n ≤ sideBytes c slot else b.dkind != 1 || n ≤ 8192) && (b.dkind != 2 || (ring.init && b.dst.toNat + n ≤ ring.slotsz))

/-- Check 7 of R233. -/
def auxOk (fn : Nat) (b : TBlk) (fd : Fmt) : Bool :=
  match fn with
  | 3 => 1 ≤ b.aux && b.aux ≤ 16384
  | 2 => b.aux != 0 && (fd.bsk == 1 || b.aux % 4 == 0)
  | _ => true

/-- Check 8 of R233. -/
def followOk (fn : Nat) (b : TBlk) : Bool :=
  fn != 1 || (match decode b.aux with
    | .ok (.mma _) | .ok (.mmas _) | .ok (.mslide _) | .ok (.mprom _) => true
    | _ => false)

/-- The checks of R233 in their order, but for check 1; `core` is the issuing core, none in a C node. -/
def tugCheck (fn : Nat) (core : Option (Fin 1024)) (raw : BitVec 1024) (ents : Vector Word 8) : M Unit := do
  let s ← get
  let b := tblkOf raw
  let fs := fmtOf (entWord ents b.sent)
  let fd := fmtOf (entWord ents b.dent)
  let n := shapeCheck fn core raw b fs fd
  needN (n == 0) .tugDesc n
  needN (!(usesEnts fn b).1 || fs.valid) .entryInvalid b.sent
  needN (!(usesEnts fn b).2 || fd.valid) .entryInvalid b.dent
  needN (entriesOk fn b fs fd) .tugDesc 5
  needN (destOk fn (core.map fun c => s.core c.val) b fs fd) .tugDesc 6
  needN (auxOk fn b fd) .tugDesc 7
  needN (followOk fn b) .tugDesc 8

/-- The checks of a TBLK block (R238). -/
def tblkCheck (raw : BitVec 1024) : M Unit := do
  needN (blkField raw 0 8 ≤ 1 && blkField raw 0x24 92 == 0) .tugDesc 2
  needU (1 ≤ blkField raw 0x20 4 && blkField raw 0x20 4 ≤ 65536) .tugDesc

/-! Issue (R230). -/

/-- Whether a queued instruction claims or releases a slot. -/
def claims (n : Fin 32) (e : QEntry) : Bool :=
  match e.instr with
  | .mclaim f => (claimSet f.slot f.w).contains n
  | .mrel f => f.slot == n || slotNext f.slot == n
  | _ => false

/-- The slot a command names, owned by the running context; an MCLAIM or MREL of it still queued is waited for. -/
def needTugSlot (n : Fin 32) : M Unit := do
  let s ← get
  waitUnless (!s.me.unrun.any (claims n))
  needN (s.myCore.slots[n].ownedBy s.cur.lc) .slotOwner n.val

/-- The slot a data fill names goes to filling (R207). -/
def beginFill (core : Nat) (k : TugCmd) : M TugCmd := do
  match dataFill k with
  | none => return k
  | some n =>
    let s ← get
    let st := (s.core core).slots[n].st
    modSlot core n fun x => { x with st := .filling }
    return { k with before := some st }

/-- The command context that sb names, or TUG_CTX (R230). -/
def needTugCtx (b : Word) : M TugId := do
  let s ← get
  let t : TugId := { cluster := Fin.ofNat 128 (clusterOf s.cur.core.val), t := Fin.ofNat 16 b.toNat }
  needU (b.toNat < 16 && tugShare s s.me.rcb t) .tugCtx
  return t

/-- The command block at an address, checked; for TSTAT the address alone (R230, R239). -/
def readBlock (fn : Nat) (a : Word) : M (BitVec 1024) := do
  needN (a.toNat % 64 == 0) .tugDesc 1
  if fn = 6 then return BitVec.ofNat 1024 (a.toNat * 2 ^ 128)
  else
    let raw := BitVec.ofNat 1024 (← readWords a.toNat 16)
    let s ← get
    if fn = 7 then tblkCheck raw else tugCheck fn (some s.cur.core) raw s.me.ents
    return raw

/-- A command context taken over by a region: SATS counts from there (R239). -/
def Tug.grant (x : Tug) (rcb : Word) : Tug := if x.region == some rcb then x else { x with region := some rcb, sats := 0 }

/-- A TUG instruction of function `fn` (R230). -/
def tugIssue (fn : Nat) (f : TForm) : M Unit := do
  let a ← readS f.sa
  let b ← readS f.sb
  awaitS f.sd
  let t ← needTugCtx b
  let raw ← readBlock fn a
  if fn = 5 || (fn < 6 && cmdDkind raw = 1) then needTugSlot (Fin.ofNat 32 (cmdDst raw))
  let s ← get
  let x := s.tug t
  waitUnless (x.queue.length < 16)
  let c := s.me
  let num := x.issued + 1
  let k ← beginFill s.cur.core.val
    { newCmd num fn raw (some s.cur) none c.asid c.priv with tag := f.tag, ents := c.ents, after := c.vIn, seq := c.cmdSeq, age := s.tick, followed := fn != 1 }
  modify fun s => s.modTug t fun x => { x.grant c.rcb with queue := x.queue ++ [k], issued := num }
  modMe fun c => { c with cmdSeq := c.cmdSeq + 1 }
  writeS f.sd (BitVec.ofNat 64 num)

/-- TCOPY (R230, R236). -/
def execTcopy (f : TForm) (s : State) : Out := scalar (tugIssue 0 f) s

/-- TCOPYM (R230, R236, R237). -/
def execTcopym (f : TForm) (s : State) : Out := scalar (tugIssue 1 f) s

/-- TQNT (R230, R236). -/
def execTqnt (f : TForm) (s : State) : Out := scalar (tugIssue 2 f) s

/-- TENC (R230, R236). -/
def execTenc (f : TForm) (s : State) : Out := scalar (tugIssue 3 f) s

/-- TDEC (R230, R236). -/
def execTdec (f : TForm) (s : State) : Out := scalar (tugIssue 4 f) s

/-- TQSC (R230, R236). -/
def execTqsc (f : TForm) (s : State) : Out := scalar (tugIssue 5 f) s

/-- TSTAT (R230, R239). -/
def execTstat (f : TForm) (s : State) : Out := scalar (tugIssue 6 f) s

/-- TBLK (R230, R238). -/
def execTblk (f : TForm) (s : State) : Out := scalar (tugIssue 7 f) s

/-! Reports (R21, R239, R240, R299, R338). -/

/-- Where a command's causes are reported. -/
def cmdFdom (s : State) (k : TugCmd) : Nat :=
  match k.issuer, k.node with
  | some c, _ => (s.ctx c).fdom
  | none, some r => (match tabFind s.graphs r.graph with | some g => effFdom s g.rcb | none => 0)
  | none, none => 0

def cmdGtag (s : State) (k : TugCmd) : Word :=
  match k.issuer with
  | some c => gtagOf s (s.ctx c).node
  | none => gtagOf s k.node

/-- A cause of a command enters the status record and goes to the fault domain. -/
def tugReport (s : State) (t : TugId) (k : TugCmd) (origin who place : Nat) (x : TugFault) : State :=
  let s1 := s.modTug t fun y => { y with cause := x.cause.code, causeNum := k.num, causeAddr := x.addr }
  let disp : Disp := if k.node.isSome then .kill else .report
  report s1 (cmdFdom s k) { code := x.cause.code, disp, origin, who := BitVec.ofNat 64 who, place := BitVec.ofNat 64 place, tval := x.tval, gtag := cmdGtag s k, aux := x.aux }

/-- The fault an exception stands for; `addr` where it arose. -/
def tugFaultOf (s : State) (addr : Nat) (e : Exc) : Option TugFault :=
  match e with
  | .cause c v => some { cause := c, tval := tvalOf s v, addr := v.getD (BitVec.ofNat 64 addr), aux := 0 }
  | .stopAt c pa => some { cause := c, tval := Config.tval s.tick, addr := BitVec.ofNat 64 addr, aux := BitVec.ofNat 64 pa }
  | .wait | .split => none

/-- Runs an access of a command and hands its fault on. -/
def tugTry {α : Type} (addr : Nat) (x : M α) : M (Except TugFault α) := do
  match ← attempt x with
  | .ok v => return .ok v
  | .error e =>
    match tugFaultOf (← get) addr e with
    | some f => return .error f
    | none => throw e

/-! Paths (R234). -/

inductive TugPath where
  | pool (core : Fin 1024)
  | mem
  | fabric
  /-- a virtual address as the issuing core sees it: scales, the record of TSTAT, tables; none for a C node -/
  | own (core : Option (Fin 1024))
  deriving DecidableEq, Repr

/-- The path of a port of a cluster's Tug. -/
def portPath (cl : Fin 128) (port : Nat) : TugPath :=
  if port < 16 then .pool (Fin.ofNat 1024 (cl.val * 8 + port % 8)) else if port < 24 then .mem else .fabric

/-- Whose access a command makes. -/
def TugCmd.who (k : TugCmd) (t : TugId) : Who := { asid := k.asid, priv := k.priv, holder := .tug t }

/-- The place of an access of a command; encoded pages and windows are not checked (R267, R322). -/
def tugLoc (w : Who) (p : TugPath) (a n : Nat) (acc : Acc) : M Loc := do
  let s ← get
  match p with
  | .pool c =>
    needN (a + n ≤ poolSize) .lpRange a
    match poolCheck s c (if w.priv = 0 then .node else .supervisor) a n with
    | some x => trapN x a
    | none => return .pool c.val a
  | .mem | .fabric =>
    needN (a < 2 ^ 56) .vaNoncanon a
    needN (a < ownBase) .tugPort a
    let x ← translate w a acc true
    needN ((paHome x.pa == s.modId.val) == (p == .mem)) .tugPort a
    return .mem x.pa x.typ
  | .own core =>
    needN (a < 2 ^ 56) .vaNoncanon a
    match core with
    | some c =>
      match windowLoc s c w.priv a n acc true with
      | some (.error x) => trapN x a
      | some (.ok l) => return l
      | none =>
        let x ← translate w a acc true
        return .mem x.pa x.typ
    | none =>
      needN (a < ownBase) .lpRange a
      let x ← translate w a acc true
      return .mem x.pa x.typ

/-- A number's bytes put together. -/
def ofBytes (l : List Byte) : Nat := l.foldr (fun b v => b.toNat + 256 * v) 0

/-- Notes a page read for the command that is starting (R349). -/
def noteRead (w : Who) (pa : Nat) : M Unit := modify fun s =>
  match w.holder with
  | .tug t => s.modTug t fun x => { x with reading := if x.reading.contains (pa / 4096) then x.reading else (pa / 4096) :: x.reading }
  | .nobody | .core _ | .walk _ => s

/-- Reads at a place for a command; poison ends it (R347, R348). -/
def tugRead (w : Who) (p : TugPath) (a n : Nat) : M Nat := do
  let l ← tugLoc w p a n .read
  let s ← get
  match l with
  | .pool c off | .peer c off => poolRead c off n
  | .mem pa _ =>
    if poisoned s pa n then throw (.stopAt .memUe pa)
    else do
      noteRead w pa
      physRead pa n

/-- Writes a piece of a beat at a place; a pool word it covers whole is no longer poisoned (R347). -/
def tugWrite (l : Loc) (b : List Byte) : M Unit := do
  match l with
  | .pool c off | .peer c off =>
    modify fun s => s.modCore c fun k =>
      { k with pool := memPut k.pool off b, poison := k.poison.filter fun u => !(off ≤ u * 8 && u * 8 + 8 ≤ off + b.length) }
  | .mem pa _ => physPut pa b.length (ofBytes b)

/-- A beat to another module is one transfer (R393). -/
def beatTransfer (ls : List (Loc × List Byte)) : M Unit := do
  match ls with
  | (.mem pa _, _) :: _ => transfer pa
  | _ => pure ()

/-- A range cut at 64-byte boundaries; `fuel` bounds the pieces. -/
def cut64 : Nat → Nat → Nat → List (Nat × Nat)
  | 0, _, _ => []
  | f + 1, a, n => if n = 0 then [] else (a, min n (64 - a % 64)) :: cut64 f (a + min n (64 - a % 64)) (n - min n (64 - a % 64))

def pieces64 (a n : Nat) : List (Nat × Nat) := cut64 (n / 64 + 2) a n

/-- Reads pieces in ascending address up to the first fault. -/
def readPieces (w : Who) (p : TugPath) : List (Nat × Nat) → M (List Byte × Option TugFault)
  | [] => pure ([], none)
  | (a, n) :: rest => do
    match ← tugTry a (tugRead w p a n) with
    | .error f => return ([], some f)
    | .ok v =>
      let r ← readPieces w p rest
      return (numBytes n v ++ r.1, r.2)

/-! Patterns (R235). -/

/-- Indices of dimensions 1 and up in linear order, the first varying fastest. -/
def indexList : List Nat → List (List Nat)
  | [] => [[]]
  | c :: cs => (indexList cs).flatMap fun t => (List.range c).map fun i => i :: t

/-- The rows of a pattern: their indices above dimension 0. -/
def TBlk.rows (b : TBlk) : List (List Nat) := indexList ((b.counts.take b.ndim).drop 1)

/-- Where a row begins. -/
def rowAddr (base : Word) (strs : List Word) (ix : List Nat) : Nat :=
  ((ix.zip strs).foldl (fun a x => a + BitVec.ofNat 64 x.1 * x.2) base).toNat

/-- Where the rows of the destination begin: linear from `start` with DKIND 0b01 or 0b10, and in a side area (R235). -/
def destRows (linear : Bool) (start rowBytes : Nat) (b : TBlk) : List Nat :=
  if linear then (List.range b.rows.length).map fun r => start + r * rowBytes else b.rows.map (rowAddr b.dst b.dstr)

/-! Conversions (R236, R428). -/

/-- What the processing of a source keeps: scales read, by number, and saturations. -/
structure TugAcc where
  scales : List (Nat × Nat)
  sats : Nat
  deriving DecidableEq, Repr

/-- What a source gives: bytes for the destination by row, the fault that ended it, and what was kept. -/
structure TugRun where
  rows : List (List Byte)
  fault : Option TugFault
  acc : TugAcc

/-- Number of the scale of an element (R428). -/
def scaleNo (fd : Fmt) (row r i0 : Nat) : Nat :=
  let nb := (row + 2 ^ fd.blog - 1) / 2 ^ fd.blog
  match fd.bsk with
  | 0 => 0
  | 3 => r / 2 ^ fd.blog * nb + i0 / 2 ^ fd.blog
  | _ => r * nb + i0 / 2 ^ fd.blog

/-- Bytes of a scale. -/
def scaleBytes (fd : Fmt) : Nat := if fd.bsk = 1 then 1 else 4

/-- A scale's value: E8M0 for BSK 1, else FP32 (R62, R77). -/
def scaleNum (fd : Fmt) (c : Nat) : Num :=
  if fd.bsk = 1 then (if c = 255 then Num.nan else { cls := .finite, neg := false, mag := 1, exp := (c : Int) - 127, sticky := false }) else ofF32 c

/-- Quantisation of an element (R78) under DENT.RND. -/
def quantise (fs fd : Fmt) (scale c : Nat) : Coded :=
  let sg := scaleNum fd scale
  if scaleOk fd sg then fromWide ((toWide fs c).quo sg) fd (rndMode fd.rnd) 0 else badScale fd 0

/-- A scale, read once. -/
def scaleAt (w : Who) (p : TugPath) (fd : Fmt) (aux j : Nat) (a : TugAcc) : M (Except TugFault (Nat × TugAcc)) := do
  match a.scales.find? (fun e => e.1 == j) with
  | some e => return .ok (e.2, a)
  | none =>
    let va := aux + j * scaleBytes fd
    match ← tugTry va (tugRead w p va (scaleBytes fd)) with
    | .error f => return .error f
    | .ok v => return .ok (v, { a with scales := a.scales ++ [(j, v)] })

/-- The codes of a row quantised, up to a fault of a scale. -/
def quantRow (w : Who) (p : TugPath) (fs fd : Fmt) (b : TBlk) (r : Nat) : List (Nat × Nat) → TugAcc → M (List Nat × Option TugFault × TugAcc)
  | [], a => pure ([], none, a)
  | (c, i0) :: l, a => do
    match ← scaleAt w p fd b.aux (scaleNo fd b.row r i0) a with
    | .error f => return ([], some f, a)
    | .ok (v, a) =>
      let x := quantise fs fd v c
      let t ← quantRow w p fs fd b r l { a with sats := a.sats + x.sat.toNat }
      return (x.code :: t.1, t.2)

/-- Conversion between entries under DENT.RND (R236). -/
def tugConvert (fs fd : Fmt) (c : Nat) : Coded := convert c fs fd (rndMode fd.rnd) 0

/-- Bytes of codes that fill whole bytes. -/
def codeBytes (w : Nat) (l : List Nat) : List Byte := numBytes (l.length * w / 8) (pack w l)

/-- Source rows of an element-wise function: read, converted, up to the first fault. -/
def elemRows (w : Who) (src scales : TugPath) (k : TugCmd) : Nat → List (List Nat) → TugAcc → M TugRun
  | _, [], a => pure { rows := [], fault := none, acc := a }
  | r, ix :: rest, a => do
    let b := k.blk
    let sw := srcBits k.fn b k.fs
    let t ← readPieces w src (pieces64 (rowAddr b.src b.sstr ix) (b.row * sw / 8))
    let n := t.1.length * 8 / sw
    let q ← if k.fn = 2 then
        quantRow w scales k.fs k.fd b r ((unpack sw n (ofBytes t.1)).zipIdx) a
      else pure ([], none, a)
    let row := if k.fn = 2 then codeBytes k.fd.wid q.1 else t.1.take (n * sw / 8)
    match q.2.1, t.2 with
    | some f, _ => return { rows := [row], fault := some f, acc := q.2.2 }
    | none, some f => return { rows := [row], fault := some f, acc := q.2.2 }
    | none, none =>
      let m ← elemRows w src scales k (r + 1) rest q.2.2
      return { m with rows := row :: m.rows }

/-- Source codes of TENC, up to the first fault. -/
def codeRows (w : Who) (src : TugPath) (k : TugCmd) : List (List Nat) → M (List Nat × Option TugFault)
  | [] => pure ([], none)
  | ix :: rest => do
    let b := k.blk
    let t ← readPieces w src (pieces64 (rowAddr b.src b.sstr ix) (b.row * k.fs.wid / 8))
    let codes := unpack k.fs.wid (t.1.length * 8 / k.fs.wid) (ofBytes t.1)
    match t.2 with
    | some f => return (codes, some f)
    | none =>
      let m ← codeRows w src k rest
      return (codes ++ m.1, m.2)

/-- Lists of at most `n` of a list. -/
def chunksOf (n : Nat) : Nat → List Nat → List (List Nat)
  | 0, _ => []
  | f + 1, l => if l.isEmpty then [] else l.take n :: chunksOf n f (l.drop n)

/-- A plain block's view. -/
def plainView (l : List Nat) : View := View.plain l

/-- A run-length view with at most `cap` runs (R179). -/
def runView (cap : Nat) (l : List Nat) : Option View :=
  let rs := runsOf 0 l
  if rs.length ≤ cap then some { View.plain l with kind := .runLength, ends := rs.map (·.1), vals := rs.map (·.2) } else none

/-- A dictionary view of at most `cap` entries; TAG is 0 (R236). -/
def dictView (cap : Nat) (l : List Nat) : Option View :=
  (distinctUpTo cap [] l).map fun es =>
    { View.plain l with kind := .dictionary, vals := es, codes := l.map fun v => (es.findIdx? (· == v)).getD 0 }

/-- A delta view of a width, when every difference fits. -/
def deltaView (sew : Nat) (dw : BitVec 2) (l : List Nat) : Option View :=
  let w := dwBits dw
  let ds := deltasOf sew l
  if w < sew && ds.all (fun d => -(2 ^ (w - 1) : Int) ≤ d && d < (2 ^ (w - 1) : Int)) then
    some { View.plain l with kind := .delta, deltas := ds.map (intMod w), dw }
  else none

/-- The first of choices that fits, else plain. -/
def firstView (l : List Nat) : List (Option View) → View
  | [] => plainView l
  | some v :: _ => v
  | none :: rest => firstView l rest

/-- A TENC block's view: kind ENCK, or the first that fits (R179, R236). -/
def encView (fd : Fmt) (b : TBlk) (l : List Nat) : View :=
  let cap := runCap fd.wid 8
  let dw := BitVec.ofNat 2 b.dw
  let delta := if fd.isInt then deltaView fd.wid dw l else none
  match b.enck with
  | 1 => firstView l [runView cap l]
  | 2 => firstView l [dictView (dictCap fd.wid) l]
  | 3 => firstView l [delta]
  | _ => firstView l [runView (cap / 2) l, dictView (dictCap fd.wid) l, delta, runView cap l]

/-- A block's bytes (R194). -/
def blockBytes (fd : Fmt) (b : TBlk) (l : List Nat) : List Byte :=
  let x := blockOf (encView fd b l) fd.wid l.length
  numBytes x.1.bytes (x.1.header + 2 ^ 512 * x.2.1 + 2 ^ (8 * (64 + x.1.vb)) * x.2.2)

/-- The elements of a block. -/
def Blk.elems (b : Blk) (v ix : Nat) : List Nat :=
  let idx := b.idx (8 * b.ib) ix
  match b.kind with
  | .plain => unpack b.sew b.n v
  | .runLength => expandRuns 0 (idx.zip (unpack b.sew b.k v))
  | .dictionary =>
    let es := (unpack b.sew b.k v).toArray
    idx.map fun c => es.getD c 0
  | .delta => expandDeltas b.sew (dwBits b.dw) (v % 2 ^ b.sew) idx

/-- Reads one encoded block for TDEC: its elements and its size (R236). -/
def readEncoded (w : Who) (p : TugPath) (fs : Fmt) (a : Nat) : M (Except TugFault (List Nat × Nat)) := do
  let bad : TugFault := { cause := .encBlock, tval := Config.tval (← get).tick, addr := BitVec.ofNat 64 a, aux := 0 }
  match ← readPieces w p (pieces64 a 64) with
  | (_, some f) => return .error f
  | (h, none) =>
    let b := blkOf (ofBytes h)
    if !(b.ok (ofBytes h) 32 fs.isInt && b.sew == fs.wid) then return .error bad
    else
      match ← readPieces w p (pieces64 (a + 64) (b.vb + b.ib)) with
      | (_, some f) => return .error f
      | (d, none) =>
        let v := ofBytes (d.take b.vb)
        let ix := ofBytes (d.drop b.vb)
        if b.idxOk (b.idx (8 * b.ib) ix) then return .ok (b.elems v ix, b.bytes) else return .error bad

/-- Blocks taken in turn until `n` codes are there. -/
def decodeRun (w : Who) (p : TugPath) (fs : Fmt) : Nat → Nat → Nat → M (List Nat × Option TugFault)
  | 0, _, _ => pure ([], none)
  | f + 1, a, n => do
    if n = 0 then return ([], none)
    else
      match ← readEncoded w p fs a with
      | .error x => return ([], some x)
      | .ok (l, m) =>
        let r ← decodeRun w p fs f (a + m) (n - l.length)
        return (l.take n ++ r.1, r.2)

/-! Plans: what lands where. -/

/-- Puts bytes for a destination into beats, by number of the 64-byte unit. -/
def addPiece (t : Table Beat) (p : Nat × List Byte) : Table Beat :=
  (pieces64 p.1 p.2.length).foldl (fun t q => tabSet t (q.1 / 64) (tabGet [] t (q.1 / 64) ++ [(q.1, (p.2.drop (q.1 - p.1)).take q.2)])) t

/-- The beats of rows; those that hold a byte not produced do not land (R240). -/
def beatsOf (starts : List Nat) (rowBytes : Nat) (rows : List (List Byte)) : List Beat :=
  let t := (starts.zip rows).foldl addPiece []
  let missing := (starts.zipIdx).flatMap fun s =>
    let got := ((rows[s.2]?).getD []).length
    (pieces64 (s.1 + got) (rowBytes - got)).map fun q => q.1 / 64
  (t.filter fun e => !missing.contains e.1).map (·.2)

/-- What a command lands. -/
structure TugPlan where
  out : List Beat
  ends : Option TugFault
  sats : Nat
  side : List Byte

/-- The command's issuing core. -/
def TugCmd.core (k : TugCmd) : Option (Fin 1024) := k.issuer.map fun c => c.core

/-- The ring a D-ring producer uses. -/
def TugCmd.ring (k : TugCmd) : Fin 8 := Fin.ofNat 8 (cmdDr k.block)

/-- Whether a command's destination is a D-ring slot. -/
def TugCmd.toRing (k : TugCmd) : Bool := k.fn < 6 && cmdDkind k.block = 2

/-- First address or offset of a linear destination. -/
def linearStart (s : State) (k : TugCmd) : Nat :=
  match k.core, k.slot with
  | some c, some i =>
    let r := (s.core c.val).rings[k.ring]
    r.base + i * r.slotsz + k.blk.dst.toNat
  | _, _ => 0

/-- Where a destination begins. -/
def destStart (s : State) (k : TugCmd) : Nat :=
  if k.fn = 5 || k.blk.dkind = 1 then 0 else if k.blk.dkind = 2 then linearStart s k else k.blk.dst.toNat

/-- Scales in the order of their numbers. -/
def scaleImage (fd : Fmt) (l : List (Nat × Nat)) : List Byte :=
  let t : Table Nat := l.foldl (fun t e => tabSet t e.1 e.2) []
  t.flatMap fun e => numBytes (scaleBytes fd) e.2

/-- The plan of TCOPY, TCOPYM, TQNT and TQSC. -/
def elemPlan (t : TugId) (k : TugCmd) : M TugPlan := do
  let b := k.blk
  let m ← elemRows (k.who t) (portPath t.cluster b.sport) (.own k.core) k 0 b.rows { scales := [], sats := 0 }
  let s ← get
  let rowBytes := b.row * dstBits k.fn b k.fs k.fd / 8
  let starts := destRows (b.dkind != 0 || k.fn = 5) (destStart s k) rowBytes b
  let side := match k.core with
    | some c => sideBytes (s.core c.val) (Fin.ofNat 32 b.dst.toNat)
    | none => 0
  let total := starts.length * rowBytes
  let out := if k.fn = 5 && m.fault.isNone then beatsOf (starts ++ [total]) rowBytes (m.rows ++ [List.replicate (side - total) 0])
    else beatsOf starts rowBytes m.rows
  return { out, ends := m.fault, sats := m.acc.sats, side := scaleImage k.fd m.acc.scales }

/-- The plan of TENC: every whole run of AUX elements read before a fault is encoded (R429). -/
def encPlan (t : TugId) (k : TugCmd) : M TugPlan := do
  let b := k.blk
  let m ← codeRows (k.who t) (portPath t.cluster b.sport) k b.rows
  let s ← get
  let xs := m.1.map (tugConvert k.fs k.fd)
  let codes := xs.map (·.code)
  let n := if m.2.isSome then codes.length / b.aux * b.aux else codes.length
  let bytes := (chunksOf b.aux (n + 1) (codes.take n)).flatMap (blockBytes k.fd b)
  return { out := (addPiece [] (destStart s k, bytes)).map (·.2), ends := m.2, sats := ((xs.take n).filter (·.sat)).length, side := [] }

/-- The plan of TDEC. -/
def decPlan (t : TugId) (k : TugCmd) : M TugPlan := do
  let b := k.blk
  let m ← decodeRun (k.who t) (portPath t.cluster b.sport) k.fs (b.total + 1) b.src.toNat b.total
  let s ← get
  let xs := m.1.map (tugConvert k.fs k.fd)
  let rows := (chunksOf b.row (b.total + 1) (xs.map (·.code))).map (codeBytes k.fd.wid)
  let rowBytes := b.row * k.fd.wid / 8
  return { out := beatsOf (destRows (b.dkind != 0) (destStart s k) rowBytes b) rowBytes rows, ends := m.2, sats := (xs.filter (·.sat)).length, side := [] }

/-! TSTAT (R239). -/

/-- The 64-byte record. -/
def statRecord (x : Tug) : List Byte :=
  numBytes 8 x.timeline ++ numBytes 8 x.issued ++ numBytes 8 x.sats ++ numBytes 8 x.cause ++ numBytes 8 x.causeNum ++ numBytes 8 x.causeAddr.toNat ++ List.replicate 16 0

/-! TBLK (R238, R324). -/

/-- An access of a word of a block table through the issuing context's tables. -/
def tableWord (w : Who) (p : TugPath) (a n : Nat) (acc : Acc) : M Nat := do
  let l ← tugLoc w p a n acc
  match l with
  | .mem pa _ => return pa
  | .pool _ _ | .peer _ _ => trapN .tugPort a

/-- A table's header: where the table lies, its pool and its number of entries (R323). -/
def tableHead (w : Who) (p : TugPath) (a : Nat) : M (Nat × BlockPool × Nat) := do
  let h ← tableWord w p a 64 .read
  let pool ← tableRead a h 8
  let nent ← tableRead a (h + 8) 4
  let b ← readPool a pool
  return (h, b, nent)

/-- The places of `n` entries of a table from an index on, checked for writing. -/
def tableEntries (w : Who) (p : TugPath) (tab i n nent : Nat) : M (List Nat) :=
  mapM' (List.range n) fun j => do
    let a := tab + 64 + 4 * (i + j)
    needN (i + j < nent) .trNotmapped a
    tableWord w p a 4 .write

/-- A pool as it stands and the count word of a block, for a table at `va`. -/
def refOf (va pool blk : Nat) : M (BlockPool × Nat) := do
  let p ← readPool va pool
  let cw ← tableRead va (p.counts + 8 * blk) 8
  return (p, cw)

/-- Lowers a block's count; at 0 the block goes to the free list. -/
def lowerRef (p : BlockPool) (blk cw : Nat) : M Unit := do
  if nbits cw 0 32 ≤ 1 then do
    physWrite (p.counts + 8 * blk) 8 (p.freeHead * 2 ^ 32)
    physWrite (p.pa + 16) 4 blk
    physWrite (p.pa + 12) 4 (p.freeCnt + 1)
  else physWrite (p.counts + 8 * blk) 8 (cw - 1)

/-- An entry changes once what is under way through it has ended: the invalidation of R325 (R324). -/
def awaitEntry (table : Nat) (p : BlockPool) (blk : Nat) : M Unit := do
  let s ← get
  waitUnless (!tableUsed s table (p.base + blk * 65536))

/-- Drop: an entry cleared, its block's count lowered; whatever fails does so before either. -/
def dropEntry (va table pool a : Nat) : M Unit := do
  let e ← tableRead va a 4
  if nbit e 31 then do
    let (p, cw) ← refOf va pool (nbits e 0 24)
    awaitEntry table p (nbits e 0 24)
    physWrite a 4 0
    lowerRef p (nbits e 0 24) cw

/-- Share: an entry made to name a block, whose count rises; a valid entry it replaces is dropped, as REF counts valid entries (R323). -/
def shareEntry (va table pool dpool : Nat) (blk a : Nat) : M Unit := do
  let (p, cw) ← refOf va pool blk
  let old ← tableRead va a 4
  if nbit old 31 then do
    let (q, _) ← refOf va dpool (nbits old 0 24)
    awaitEntry table q (nbits old 0 24)
  physWrite (p.counts + 8 * blk) 8 (cw + 1)
  physWrite a 4 (2 ^ 31 + blk)
  if nbit old 31 then do
    let (q, c) ← refOf va dpool (nbits old 0 24)
    lowerRef q (nbits old 0 24) c

/-- Whether adding the references would take a count past its end (R324). -/
def refRoom (va : Nat) (p : BlockPool) (blks : List Nat) : M Bool := do
  let l ← mapM' blks.eraseDups fun b => do
    let cw ← tableRead va (p.counts + 8 * b) 8
    return decide (nbits cw 0 32 + blks.count b < 2 ^ 32)
  return l.all id

/-- What TBLK does, whole at its start. -/
def blockTable (t : TugId) (k : TugCmd) : M Unit := do
  let w := k.who t
  let p : TugPath := .own k.core
  let src := blkField k.block 8 8
  let dst := blkField k.block 0x10 8
  let sidx := blkField k.block 0x18 4
  let didx := blkField k.block 0x1C 4
  let n := blkField k.block 0x20 4
  let h ← tableHead w p src
  if blkField k.block 0 8 = 1 then
    let es ← tableEntries w p src sidx n h.2.2
    forM' es fun a => dropEntry src h.1 h.2.1.pa a
  else
    let g ← tableHead w p dst
    let ds ← tableEntries w p dst didx n g.2.2
    let blks ← mapM' (List.range n) fun j => do
      let a := src + 64 + 4 * (sidx + j)
      needN (sidx + j < h.2.2) .trNotmapped a
      let pa ← tableWord w p a 4 .read
      let e ← tableRead a pa 4
      needN (nbit e 31) .trNotmapped a
      return nbits e 0 24
    let room ← refRoom src h.2.1 blks
    needN room .btExhausted dst
    forM' (blks.zip ds) fun e => shareEntry dst g.1 h.2.1.pa g.2.1.pa e.1 e.2

/-- The plan of a command. -/
def tugPlan (t : TugId) (k : TugCmd) : M TugPlan := do
  match k.fn with
  | 3 => encPlan t k
  | 4 => decPlan t k
  | 6 =>
    let s ← get
    return { out := [[(cmdDst k.block, statRecord (s.tug t))]], ends := none, sats := 0, side := [] }
  | 7 =>
    match ← tugTry (blkField k.block 8 8) (blockTable t k) with
    | .ok _ => return { out := [], ends := none, sats := 0, side := [] }
    | .error f => return { out := [], ends := some f, sats := 0, side := [] }
  | _ => elemPlan t k

/-! The end of a command's data (R207, R236, R240, R429). -/

/-- A range of a number's bits replaced. -/
def putRange (x lo n v : Nat) : Nat := x - nbits x lo n * 2 ^ lo + v % 2 ^ n * 2 ^ lo

/-- Bytes put into a side area, which a double shares with the next slot. -/
def putSide (core : Nat) (n : Fin 32) (off : Nat) (b : List Byte) : M Unit := do
  let m := if off < 256 then n else slotNext n
  modSlot core m fun k => { k with side := BitVec.ofNat 2048 (putRange k.side.toNat (8 * (off % 256)) (8 * b.length) (ofBytes b)) }
  healSlot core m (8192 + off % 256) b.length

/-- Scales written, the rest of the side area zero (R415). -/
def fillSide (core : Nat) (n : Fin 32) (b : List Byte) : M Unit := do
  let s ← get
  let v := ofBytes b
  modSlot core n fun k => { k with side := BitVec.ofNat 2048 v }
  healSlot core n 8192 256
  if (s.core core).slots[n].isDouble n then
    modSlot core (slotNext n) fun k => { k with side := BitVec.ofNat 2048 (v / 2 ^ 2048) }
    healSlot core (slotNext n) 8192 256

/-- A slot's metadata once a command's data has landed, or its fault has ended it. -/
def endFill (k : TugCmd) (fault : Bool) : M Unit := do
  match k.issuer with
  | none => pure ()
  | some c =>
    let b := k.blk
    let n := Fin.ofNat 32 b.dst.toNat
    let core := c.core.val
    if (dataFill k).isSome then do
      let s ← get
      let more := (openFills s c n).any fun q => q.seq != k.seq
      modSlot core n fun x =>
        { x with
          st := if x.st == .filling && !more then .full else x.st
          rows := if fault then k.landed / 128 else (k.landed + 127) / 128
          ent := Fin.ofNat 16 b.dent, dtag := BitVec.ofNat 8 b.seq }
    if !fault && k.fn = 2 && b.sfill then do
      fillSide core n k.side
      modSlot core n fun x => { x with svalid := true, sw32 := k.fd.bsk != 1, stag := BitVec.ofNat 8 b.seq }
    if !fault && k.fn = 5 then
      modSlot core n fun x => { x with svalid := true, sw32 := k.fs.wid == 32, stag := BitVec.ofNat 8 b.seq }

/-- Changes a command of a context. -/
def modCmd (t : TugId) (n : Nat) (f : TugCmd → TugCmd) : M Unit :=
  modify fun s => s.modTug t fun x => { x with queue := x.queue.map fun k => if k.num = n then f k else k }

/-- A command's data has landed whole, or a fault ends it; the scales of a TQNT with SFILL have then landed too. -/
def finishCmd (t : TugId) (k : TugCmd) (fault : Option TugFault) : M Unit := do
  endFill k fault.isSome
  modCmd t k.num fun k => { k with finished := true, out := [], fault, followed := k.followed || fault.isSome }
  match k.issuer, dataFill k with
  | some c, some n => modify fun s => settleFills s c n
  | _, _ => pure ()
  match fault with
  | some x => modify fun s => tugReport s t k 1 (TugId.key t) k.num x
  | none => pure ()

/-! Start (R240, R244, R268). -/

/-- A stretch of bytes a command reads or writes: a space, and bounds. -/
structure Span where
  space : Nat
  lo : Int
  hi : Int
  deriving DecidableEq, Repr

def Span.meets (a b : Span) : Bool := a.space == b.space && a.lo < b.hi && b.lo < a.hi

/-- Bytes at a domain physical address, a pool's as the pool's own. -/
def physSpan (s : State) (pa n : Nat) : Span :=
  match physKind s pa with
  | .pool c off => { space := c, lo := off, hi := off + n }
  | .memory | .inval | .control | .drive _ _ | .lost | .absent => { space := 1024, lo := pa, hi := pa + n }

/-- A range of virtual addresses cut at pages; `fuel` bounds the pieces. -/
def cutPages : Nat → Nat → Nat → List (Nat × Nat)
  | 0, _, _ => []
  | f + 1, a, n => if n = 0 then [] else (a, min n (4096 - a % 4096)) :: cutPages f (a + min n (4096 - a % 4096)) (n - min n (4096 - a % 4096))

/-- The bytes of main memory behind virtual addresses: two addresses of one byte name one byte (R240). An address the tables do not map reaches none. -/
def vaBytes (s : State) (w : Who) (a n : Nat) : List Span :=
  (cutPages (n / 4096 + 2) a n).filterMap fun q =>
    match pageAddr w q.1 s with
    | .ok pa _ => some (physSpan s pa q.2)
    | .error _ _ => none

/-- Bytes of virtual addresses as the issuing core sees them: its own pool, its cluster's, memory. -/
def vaSpans (s : State) (w : Who) (core : Option (Fin 1024)) (a n : Nat) : List Span :=
  match core with
  | some c =>
    if peerBase ≤ a then
      let off := (a - peerBase) % poolSize
      [{ space := clusterOf c.val * 8 + (a - peerBase) / poolSize, lo := off, hi := off + n }]
    else if ownBase ≤ a then [{ space := c.val, lo := a - ownBase, hi := a - ownBase + n }]
    else vaBytes s w a n
  | none => vaBytes s w a n

/-- Bytes on a path. -/
def pathSpans (s : State) (w : Who) (p : TugPath) (a n : Nat) : List Span :=
  match p with
  | .pool c => [{ space := c.val, lo := a, hi := a + n }]
  | .mem | .fabric => vaBytes s w a n
  | .own core => vaSpans s w core a n

/-- The bytes of a pattern, row by row (R235). -/
def patternSpans (s : State) (w : Who) (p : TugPath) (base : Word) (b : TBlk) (strs : List Word) (rowBytes : Nat) : List Span :=
  b.rows.flatMap fun ix => pathSpans s w p (rowAddr base strs ix) rowBytes

/-- Bytes of a beat. -/
def beatBytes (b : Beat) : Nat := (b.map fun r => r.2.length).foldl (· + ·) 0

/-- Bytes a TENC writes, from the start of its destination: those it has landed and those to come, or those it would land from its source as that stands. -/
def encBytes (s : State) (t : TugId) (k : TugCmd) : Nat :=
  if k.started then k.landed + (k.out.map beatBytes).foldl (· + ·) 0
  else match encPlan t k s with
    | .ok p _ => (p.out.map beatBytes).foldl (· + ·) 0
    | .error _ _ => 0

/-- The end of the encoded blocks a TDEC reads from an address for `n` codes, as they stand. -/
def decodeEnd (w : Who) (p : TugPath) (fs : Fmt) : Nat → Nat → Nat → M Nat
  | 0, a, _ => pure a
  | f + 1, a, n => do
    if n = 0 then return a
    else
      let h ← readPieces w p (pieces64 a 64)
      let b := blkOf (ofBytes h.1)
      let size := if h.2.isNone && b.ok (ofBytes h.1) 32 fs.isInt && b.sew == fs.wid then b.bytes else 64
      match ← readEncoded w p fs a with
      | .error _ => return a + size
      | .ok (l, m) => decodeEnd w p fs f (a + m) (n - l.length)

/-- Bytes of the source of a TDEC. -/
def decodeSpans (s : State) (t : TugId) (k : TugCmd) : List Span :=
  let b := k.blk
  let p := portPath t.cluster b.sport
  match decodeEnd (k.who t) p k.fs (b.total + 1) b.src.toNat b.total s with
  | .ok e _ => pathSpans s (k.who t) p b.src.toNat (e - b.src.toNat)
  | .error _ _ => pathSpans s (k.who t) p b.src.toNat 64

/-- The slot a producer takes: the first orphaned one from RIDX, else the one at WIDX when it is free (R244, R343). -/
def ringNext (r : Ring) : Option Nat :=
  let orphan := ((List.range r.nslot).map fun i => (r.ridx + i) % r.nslot).find? fun i =>
    r.taken.getLsbD i && !r.fill.getLsbD i && r.exps.getD i 0 == orphanExp
  match orphan with
  | some i => some i
  | none => if r.taken.getLsbD r.widx || r.fill.getLsbD r.widx then none else some r.widx

/-- `n` pool bytes of the D-ring slot a command has taken, or would take (R242). -/
def ringSpans (s : State) (k : TugCmd) (n : Nat) : List Span :=
  match k.core with
  | none => []
  | some c =>
    let r := (s.core c.val).rings[k.ring]
    match k.slot.or (ringNext r) with
    | none => []
    | some i =>
      let lo := r.base + i * r.slotsz + k.blk.dst.toNat
      [{ space := c.val, lo, hi := lo + n }]

/-- Side areas a fill of a slot covers: a double's is shared with the next slot. -/
def sideSpans (s : State) (k : TugCmd) : List Span :=
  let n := Fin.ofNat 32 k.blk.dst.toNat
  let whole (n : Fin 32) : Span := { space := 1100 + n.val, lo := 0, hi := 2 ^ 64 }
  match k.core with
  | some c => whole n :: (if (s.core c.val).slots[n].isDouble n then [whole (slotNext n)] else [])
  | none => [whole n]

/-- The bytes a TBLK uses of a table: its header, `n` entries from an index, and the header and the counts of its pool. -/
def tableSpans (s : State) (t : TugId) (k : TugCmd) (tab i : Nat) : List Span × List Span × List Span :=
  let w := k.who t
  let head := vaSpans s w k.core tab 64
  let ents := vaSpans s w k.core (tab + 64 + 4 * i) (4 * blkField k.block 0x20 4)
  match tableHead w (.own k.core) tab s with
  | .ok (_, p, _) _ =>
    let blks := ents.flatMap fun e => (List.range ((e.hi - e.lo).toNat / 4)).map fun j => nbits (memRead s.mem (e.lo.toNat + 4 * j) 4) 0 24
    (head, ents, physSpan s p.pa 32 :: blks.eraseDups.map fun b => physSpan s (p.counts + 8 * b) 8)
  | .error _ _ => (head, ents, [])

/-- What a command reads and what it writes. -/
def cmdSpans (s : State) (t : TugId) (k : TugCmd) : List Span × List Span :=
  let b := k.blk
  let w := k.who t
  match k.fn with
  | 6 => ([], vaSpans s w k.core (cmdDst k.block) 64)
  | 7 =>
    let x := tableSpans s t k (blkField k.block 8 8) (blkField k.block 0x18 4)
    if blkField k.block 0 8 = 1 then (x.1, x.2.1 ++ x.2.2)
    else
      let y := tableSpans s t k (blkField k.block 0x10 8) (blkField k.block 0x1C 4)
      (x.1 ++ x.2.1 ++ y.1, y.2.1 ++ x.2.2 ++ y.2.2)
  | 8 => ([], [])
  | fn =>
    let src := if fn = 4 then decodeSpans s t k else patternSpans s w (portPath t.cluster b.sport) b.src b b.sstr (b.row * srcBits fn b k.fs / 8)
    let rows := b.total / max 1 b.row
    let scales := if fn = 2 then vaSpans s w k.core b.aux (scaleBytes k.fd * (scaleNo k.fd b.row (rows - 1) (b.row - 1) + 1)) else []
    let dst : List Span :=
      if fn = 5 then sideSpans s k
      else if b.dkind = 1 then { space := 1056 + b.dst.toNat % 32, lo := 0, hi := 2 ^ 64 } :: (if b.sfill then sideSpans s k else [])
      else if b.dkind = 2 then ringSpans s k (if fn = 3 then encBytes s t k else dstBytes fn b k.fs k.fd)
      else if fn = 3 then pathSpans s w (portPath t.cluster b.dport) b.dst.toNat (encBytes s t k)
      else patternSpans s w (portPath t.cluster b.dport) b.dst b b.dstr (b.row * dstBits fn b k.fs k.fd / 8)
    (src ++ scales, dst)

/-- Whether an earlier command stands in the way of a later one (R240). -/
def conflicts (s : State) (t : TugId) (e k : TugCmd) : Bool :=
  let a := cmdSpans s t e
  let b := cmdSpans s t k
  a.2.any (fun x => (b.1 ++ b.2).any x.meets) || a.1.any (fun x => b.2.any x.meets)

/-- Ports a command holds (R272). -/
def cmdPorts (k : TugCmd) : List Nat := if k.fn < 6 then [k.blk.sport, k.blk.dport] else []

/-- A slot taken with its expected count. -/
def ringTake (r : Ring) (i exp : Nat) : Ring :=
  let was := r.taken.getLsbD i
  { r with taken := r.taken ||| BitVec.ofNat 64 (2 ^ i), exps := r.exps.set i exp, lands := r.lands.set i 0, widx := if was then r.widx else (r.widx + 1) % r.nslot }

/-- What of the array's slots a fill writes: data by slot, side areas after them (a double's two are one). -/
def fillParts (s : State) (k : TugCmd) : List Nat :=
  let n := Fin.ofNat 32 (cmdDst k.block)
  let double := match k.core with | some c => (s.core c.val).slots[n].isDouble n | none => false
  (dataFill k).toList.map (·.val) ++
    (if k.fn = 5 || k.fn = 2 && k.blk.sfill && (dataFill k).isSome then [32 + n.val] ++ (if double then [32 + (slotNext n).val] else []) else [])

/-- Whether everything of the issuer before a fill that uses its slot has used it: an instruction or a follow-on that reads the slot, a fill of an MLD, a fill of any of its Tug contexts (R209, R220). -/
def slotReady (s : State) (k : TugCmd) : Bool :=
  match k.issuer with
  | none => true
  | some c =>
    let x := s.ctx c
    let n := Fin.ofNat 32 (cmdDst k.block)
    !(dataFill k).isSome && k.fn != 5 ||
      (!((x.kept ++ x.queue).any fun e => e.num ≤ k.after &&
          (match e.instr with
            | .mld f => f.slot == n
            | .mlds f => f.slot == n
            | i => (slotsRead i).contains n)) &&
        !(s.core c.core.val).slots[n].mld &&
        !(ctxCmds s c).any fun q => q.seq < k.seq &&
          ((!q.followed && (followSlots q).contains n) || (!q.finished && (fillParts s q).any (fillParts s k).contains)))

/-- Whether two commands need a port in common (R272). -/
def sharePort (e k : TugCmd) : Bool := (cmdPorts e).any fun p => (cmdPorts k).contains p

/-- Whether a queued command waits for the dispatcher alone (R240). -/
def startable (s : State) (t : TugId) (k : TugCmd) : Bool :=
  let q := (s.tug t).queue
  let earlier := q.takeWhile fun e => e.num != k.num
  let others := (clusterTugs t.cluster.val).flatMap fun u => (s.tug u).queue.filter fun e => e.started && e.sig.isNone
  !k.started && earlier.all (·.started) && (k.fn != 6 || earlier.isEmpty) &&
    !(others.any fun e => sharePort e k) && !(earlier.any fun e => conflicts s t e k) && slotReady s k &&
    (match k.core with
      | some c => !k.toRing || !(s.core c.val).rings[k.ring].init || (ringNext (s.core c.val).rings[k.ring]).isSome
      | none => true)

/-- Whether a graph has reserved a command context (R307). -/
def tugReserved (s : State) (t : TugId) : Bool := s.graphs.any fun g => g.2.reserved.contains (.tug t)

/-- Whether the dispatcher serves a command of a context ahead of another: reserved contexts first, then by issue age (R240, R308). -/
def servedFirst (s : State) (u : TugId) (e : TugCmd) (t : TugId) (k : TugCmd) : Bool :=
  let a := tugReserved s u
  let b := tugReserved s t
  (a && !b) || (a == b && e.age < k.age)

/-- Whether a queued command starts next on its ports (R240, R272). -/
def canStart (s : State) (t : TugId) (k : TugCmd) : Bool :=
  startable s t k &&
    !((clusterTugs t.cluster.val).any fun u => u != t && (s.tug u).queue.any fun e => sharePort e k && servedFirst s u e t k && startable s u e)

/-- Whether a TENC marks an encoded window (R268). -/
def TugCmd.windowed (k : TugCmd) : Bool := k.fn = 3 && k.blk.winen && k.issuer.isSome

/-- LPENC(WIN) of the issuer covers 64-byte units from the destination's start to `stop`; both fields take the low bits of what R268 puts in them. -/
def setWindow (k : TugCmd) (stop : Nat) : M Unit := do
  if k.windowed then
    let s ← get
    let start := destStart s k / 64
    match k.issuer with
    | some c => modify fun s => s.modCtx c fun x =>
        { x with lpenc := x.lpenc.set (Fin.ofNat 8 k.blk.win) (BitVec.ofNat 64 (2 ^ 63 + stop % 2 ^ 18 * 2 ^ 32 + start % 2 ^ 18)) }
    | none => pure ()

/-- A producer takes its ring slot. -/
def takeSlot (k : TugCmd) : M TugCmd := do
  match k.core with
  | some c =>
    if k.toRing then
      let s ← get
      match ringNext (s.core c.val).rings[k.ring] with
      | some i =>
        set (s.modRing c.val k.ring fun r => if r.init then ringTake r i (dstBytes k.fn k.blk k.fs k.fd) else r)
        return { k with slot := if (s.core c.val).rings[k.ring].init then some i else none }
      | none => return k
    else return k
  | none => return k

/-- TUG_COMMAND_START (R240, R244, R268): nothing happens to a command that cannot start yet. -/
def execTugCommandStart (t : TugId) (n : Nat) (s : State) : Out :=
  event (do
    match (s.tug t).queue.find? (fun k => k.num == n) with
    | none => pure ()
    | some k =>
      if canStart s t k then
        let k ← takeSlot k
        let k := { k with started := true }
        modCmd t n fun _ => k
        setWindow k (destStart (← get) k / 64)
        modify fun s => s.modTug t fun x => { x with reading := [] }
        let p ← tugPlan t k
        let s ← get
        let k := { k with out := p.out, ends := p.ends, sats := p.sats, side := p.side, pages := (s.tug t).reading }
        modify fun s => s.modTug t fun x => { x with reading := [] }
        modCmd t n fun _ => k
        if k.out.isEmpty then finishCmd t k k.ends) s

/-! Beats (R240). -/

/-- A beat written, whole or not at all. -/
def landBeat (t : TugId) (k : TugCmd) (beat : Beat) : M Unit := do
  let b := k.blk
  let core := match k.core with | some c => c.val | none => 0
  let n := Fin.ofNat 32 b.dst.toNat
  if k.fn = 5 then forM' beat fun r => putSide core n r.1 r.2
  else if (dataFill k).isSome then
    forM' beat fun r => do
      modSlot core n fun x => { x with data := BitVec.ofNat 65536 (putRange x.data.toNat (8 * r.1) (8 * r.2.length) (ofBytes r.2)) }
      healSlot core n r.1 r.2.length
  else
    let path : TugPath := if k.fn = 6 then .own k.core else portPath t.cluster b.dport
    let ls ← mapM' beat fun r => do
      let l ← tugLoc (k.who t) path r.1 r.2.length .write
      return (l, r.2)
    beatTransfer ls
    forM' ls fun x => tugWrite x.1 x.2

/-- End of a beat. -/
def beatEnd (b : Beat) : Nat := (b.map fun r => r.1 + r.2.length).foldl max 0

/-- LAND rises by a beat's bytes (R244). -/
def landRing (k : TugCmd) (n : Nat) : M Unit := do
  match k.core, k.slot with
  | some c, some i => modify fun s => s.modRing c.val k.ring fun r => { r with lands := r.lands.set i (r.lands.getD i 0 + n) }
  | _, _ => pure ()

/-- What a C node's beat wrote into a pool through its write port, for its successors' scores (R303). -/
def notePlaced (t : TugId) (k : TugCmd) (beat : Beat) : M Unit := do
  match k.node with
  | some r =>
    if k.blk.dport < 8 && (dataFill k).isNone then
      modify fun s => s.modNode r fun n => { n with placed := n.placed ++ beat.map fun x => (t.cluster.val * 8 + k.blk.dport, x.1, x.2.length) }
  | none => pure ()

/-- The next beat of a started command lands; after the last one, or at a fault, its data has ended. -/
def nextBeat (t : TugId) (k : TugCmd) : M Unit := do
  match k.out with
  | [] => pure ()
  | beat :: rest =>
    match ← tugTry ((beat.head?.map (·.1)).getD 0) (landBeat t k beat) with
    | .error f => finishCmd t k (some f)
    | .ok _ =>
      let k := { k with out := rest, landed := k.landed + beatBytes beat }
      modCmd t k.num fun _ => k
      landRing k (beatBytes beat)
      notePlaced t k beat
      setWindow k ((beatEnd beat + 63) / 64)
      if rest.isEmpty then finishCmd t k k.ends

/-- TUG_BEAT_LANDS (R240). -/
def execTugBeatLands (t : TugId) (n : Nat) (s : State) : Out :=
  event (do
    match (s.tug t).queue.find? (fun k => k.num == n) with
    | some k => if k.started && !k.finished then nextBeat t k else pure ()
    | none => pure ()) s

/-! C nodes (R299). -/

/-- The Tug takes a node's next block: its checks, its number; without a block left the node retires. A cause of it is a Kill of the node. -/
def takeBlock (t : TugId) (r : NodeRef) : M Unit := do
  let s ← get
  match tabFind s.graphs r.graph, s.gnode r with
  | some g, some n =>
    if n.left = 0 then set (retireNode s r)
    else
      let asid := match s.region g.rcb with | some x => x.asid | none => g.asid
      let a := (blkField n.desc 8 8 + 128 * (blkField n.desc 6 2 - n.left)) % 2 ^ 64
      let w : Who := { asid, priv := 0, holder := .tug t }
      let read : M (BitVec 1024) := do
        needN (a % 64 == 0) .tugDesc 1
        let lo ← tugRead w (.own none) a 64
        let hi ← tugRead w (.own none) (a + 64) 64
        let raw := BitVec.ofNat 1024 (lo + 2 ^ 512 * hi)
        tugCheck (tblkOf raw).fn none raw (Vector.replicate 8 0)
        return raw
      let num := (s.tug t).issued + 1
      let res ← tugTry a read
      modify fun s => s.modNode r fun n => { n with left := n.left - 1 }
      match res with
      | .ok raw =>
        let k := { newCmd num (tblkOf raw).fn raw none (some r) asid 0 with age := s.tick }
        modify fun s => s.modTug t fun x => { x.grant g.rcb with queue := x.queue ++ [k], issued := num }
      | .error f =>
        let k := newCmd 0 0 0 none (some r) asid 0
        modify fun s => failNode (tugReport s t k 1 (TugId.key t) (Config.free s.tick) f) r
  | _, _ => pure ()

/-! Completion (R240, R244, R274). -/

/-- A D-ring slot filled. -/
def fillRing (r : Ring) (i : Nat) (cut flt : Bool) : Ring :=
  let bit := BitVec.ofNat 64 (2 ^ i)
  { r with fill := r.fill ||| bit, flt := if flt then r.flt ||| bit else r.flt, exps := if cut then r.exps.set i (r.lands.getD i 0) else r.exps }

/-- The completion step: the ring slot, the tag, the timeline. -/
def completeCmd (s : State) (t : TugId) (k : TugCmd) : State :=
  let s := match k.core, k.slot with
    | some c, some i => s.modRing c.val k.ring fun r => fillRing r i (k.fn = 3 || k.fault.isSome) k.fault.isSome
    | _, _ => s
  let s := match k.issuer, k.sig with
    | some c, none => s.modCtx c fun x => { x with tags := x.tags ||| BitVec.ofNat 64 (2 ^ k.tag.val) }
    | _, _ => s
  s.modTug t fun x =>
    settleTimeline { x with queue := x.queue.filter (fun e => e.num != k.num), completed := x.completed ++ [k.num], sats := min (x.sats + k.sats) (2 ^ 64 - 1) }

/-- Whether a command can complete: its data has ended, its follow-on been accepted; a signal waits for everything before it (R237, R247). -/
def canComplete (s : State) (t : TugId) (k : TugCmd) : Bool :=
  match k.sig with
  | some w => ((s.tug t).queue.head?.map (·.num)) == some k.num && sigReady s w
  | none => k.finished && k.followed

/-- TUG_COMMAND_COMPLETE (R240, R299). -/
def execTugCommandComplete (t : TugId) (n : Nat) (s : State) : Out :=
  event (do
    match (s.tug t).queue.find? (fun k => k.num == n) with
    | none => pure ()
    | some k =>
      if canComplete s t k then
        modify fun s => completeCmd s t k
        match k.node with
        | none => pure ()
        | some r => if k.fault.isSome then modify fun s => failNode s r else takeBlock t r) s

/-! Follow-ons (R237). -/

/-- FOLLOW_ON_ISSUE (R237): once the copy's last byte has landed, the follow-on goes to the array of the issuing core. -/
def execFollowOnIssue (t : TugId) (n : Nat) (s : State) : Out :=
  event (do
    match (s.tug t).queue.find? (fun k => k.num == n) with
    | none => pure ()
    | some k =>
      match k.issuer with
      | none => pure ()
      | some c =>
        let e := (TugId.key t, n)
        if k.finished && !k.followed && !(s.core c.core.val).arr.pend.contains e then
          modify fun s => s.modCore c.core.val fun x => { x with arr := { x.arr with pend := x.arr.pend ++ [e] } }) s

end Sys2Proof.Machine
end

