-- ==== Sys2Proof/Machine/Awl.lean ====
section
/-! DEFINITION. The Awl: WBIND, WQRY, WAPP, WREFIT and WDRAIN (R253 to R255), tree descriptors, node records and leaf blocks (R105 to R108), opening tests (R109), the walk and its records (R111 to R114), appends, splits and refits (R115 to R117), refusals (R430), and W nodes (R299). -/

namespace Sys2Proof.Machine

/-! Layout (R106 to R108). -/

/-- Formats and sizes of a tree under captured entries. -/
structure Lay where
  t : Tree
  fk : Fmt
  fs : Fmt
  fv : Fmt
  deriving DecidableEq, Repr

def layOf (t : Tree) (ents : Vector Word 8) : Lay := { t, fk := fmtOf (entWord ents t.kent), fs := fmtOf (entWord ents t.sent), fv := fmtOf (entWord ents t.vent) }

/-- Bytes of a centroid and of a value sum in a node record. -/
def Lay.cb (l : Lay) : Nat := pad64 (bitBytes (l.t.kdim * l.fs.wid))

def Lay.vb (l : Lay) : Nat := pad64 (bitBytes (l.t.vdim * l.fs.wid))

/-- NRS. -/
def Lay.nrs (l : Lay) : Nat := 64 + l.cb + l.vb

/-- Bytes of a key and of a value, and of their slots. -/
def Lay.keyBytes (l : Lay) : Nat := bitBytes (l.t.kdim * l.fk.wid)

def Lay.valBytes (l : Lay) : Nat := bitBytes (l.t.vdim * l.fv.wid)

/-- Offsets of the keys and of the values in a leaf block. -/
def Lay.keyOff (l : Lay) : Nat := 64 + pad64 (8 * l.t.lcap)

def Lay.valOff (l : Lay) : Nat := l.keyOff + l.t.lcap * pad64 l.keyBytes

/-- LBS. -/
def Lay.lbs (l : Lay) : Nat := l.valOff + l.t.lcap * pad64 l.valBytes

/-- RL (R113). -/
def Lay.rl (l : Lay) : Nat := 32 + roundUp (bitBytes (l.t.vdim * l.fs.wid)) 32

def Lay.nodeVa (l : Lay) (i : Nat) : Nat := (l.t.nodeBase.toNat + i * l.nrs) % 2 ^ 64

def Lay.leafVa (l : Lay) (i : Nat) : Nat := (l.t.leafBase.toNat + i * l.lbs) % 2 ^ 64

/-! Descriptors (R105, R106). -/

/-- The captured fields of a descriptor at an address, byte 0 of `d` in its low bits. -/
def treeOf (desc : Word) (d : Nat) : Tree :=
  let f (off n : Nat) : Nat := nbits d (8 * off) (8 * n)
  { desc, nodeBase := BitVec.ofNat 64 (f 0x10 8), nodeCap := f 0x18 4, leafBase := BitVec.ofNat 64 (f 0x20 8), leafCap := f 0x28 4
    theta := BitVec.ofNat 32 (f 0x2C 4), kdim := f 0x30 2, vdim := f 0x32 2, kent := f 0x34 1 % 16, sent := f 0x35 1 % 16, vent := f 0x36 1 % 16
    fan := f 0x37 1, lcap := f 0x38 1, mode := f 0x39 1 }

/-- Checks 1 to 8 of R106 once the descriptor is read; the first that fails, 0 when all pass. -/
def treeCheck (l : Lay) (d : Nat) : Nat :=
  let f (off n : Nat) : Nat := nbits d (8 * off) (8 * n)
  let t := l.t
  let th := ofF32 t.theta.toNat
  if !(t.nodeBase != 0 && t.leafBase != 0 && t.nodeBase.toNat % 64 == 0 && t.leafBase.toNat % 64 == 0) then 1
  else if !(1 ≤ t.kdim && t.kdim ≤ 256 && t.vdim ≤ 256) then 2
  else if !(l.fk.bsk == 0 && l.fv.bsk == 0 && t.kdim * l.fk.wid % 8 == 0) then 3
  else if !(l.fs.kind == 0 && (l.fs.wid == 16 || l.fs.wid == 32) && l.fs.bsk == 0) then 4
  else if !(2 ≤ t.fan && t.fan ≤ 8 && 2 ≤ t.lcap && t.lcap ≤ 64) then 5
  else if !(t.mode ≤ 1 && (th.cls == .zero || th.cls == .finite) && t.theta.toNat < 2 ^ 31 && (t.mode == 0 || t.theta.toNat < 0x3F800000)) then 6
  else if !(f 0 4 < f 4 4 && f 4 4 ≤ t.nodeCap && f 0x1C 4 ≤ t.leafCap) then 7
  else if !(f 0x34 1 < 16 && f 0x35 1 < 16 && f 0x36 1 < 16 && f 0x3A 6 == 0 && f 0x50 48 == 0) then 8
  else 0

/-- The entries a tree names are valid (R58, R106). -/
def needTreeEnts (t : Tree) (ents : Vector Word 8) : M Unit :=
  forM' [t.kent, t.sent, t.vent] fun e => needN (fmtOf (entWord ents e)).valid .entryInvalid e

/-- A descriptor checked; its captured fields. -/
def checkTree (desc : Word) (d : Nat) (ents : Vector Word 8) : M Tree := do
  let t := treeOf desc d
  needTreeEnts t ents
  let n := treeCheck (layOf t ents) d
  needN (n == 0) .awlDesc n
  return t

/-! Accesses of a walker. -/

/-- Whose access a walk operation makes. -/
def WalkOp.who (o : WalkOp) (w : WalkId) : Who := { asid := o.asid, priv := o.priv, holder := .walk w }

def WalkOp.path (o : WalkOp) : TugPath := .own (o.issuer.map fun c => c.core)

/-- What an operation works with. -/
structure Walker where
  w : WalkId
  op : WalkOp
  l : Lay

/-- Reads bytes; a fault is raised with its own address. -/
def Walker.read (k : Walker) (a n : Nat) : M (List Byte) := do
  let bs ← mapM' (pieces64 a n) fun p => do
    match ← tugTry p.1 (tugRead (k.op.who k.w) k.op.path p.1 p.2) with
    | .ok v => return numBytes p.2 v
    | .error f => if f.aux = 0 then throw (.cause f.cause (some f.addr)) else throw (.stopAt f.cause f.aux.toNat)
  return bs.flatten

def Walker.readNat (k : Walker) (a n : Nat) : M Nat := do
  let b ← k.read a n
  return ofBytes b

/-- Places of bytes to be written, translated before any is written (R255). -/
def Walker.places (k : Walker) (a : Nat) (b : List Byte) : M (List (Loc × List Byte)) :=
  mapM' (pieces64 a b.length) fun p => do
    let l ← tugLoc (k.op.who k.w) k.op.path p.1 p.2 .write
    return (l, (b.drop (p.1 - a)).take p.2)

/-- Writes of an operation, all translated first; each piece to another module is one transfer (R393), numbered in the order of the writes (R291). -/
def Walker.commit (k : Walker) (ws : List (Nat × List Byte)) : M Unit := do
  let ps ← mapM' ws fun w => k.places w.1 w.2
  forM' ps.flatten fun p => beatTransfer [p]
  forM' ps.flatten fun p => tugWrite p.1 p.2

/-- A write with release order that goes to another module is sent once everything before it is acknowledged (R291): the `n` transfers under way before the operation's step, and the operation's own, whose acknowledgements its step takes in (log 43). -/
def Walker.release (k : Walker) (n a : Nat) : M Unit := do
  let l ← tugLoc (k.op.who k.w) k.op.path a 4 .write
  let s ← get
  if homeHere s l then pure ()
  else do
    waitUnless (n = 0)
    set { s with transfers := [] }

/-! Records of the tree (R107, R108, R430). -/

/-- A node record as read. -/
structure TNode where
  idx : Nat
  ver : Nat
  count : Nat
  rad : Nat
  flags : Nat
  parent : Nat
  leafptr : Nat
  child : List Nat
  cent : List Nat
  vsum : List Nat
  deriving DecidableEq, Repr

def TNode.isLeaf (x : TNode) : Bool := x.flags % 2 == 1

/-- Whether a number is infinite or NaN. -/
def unbounded (x : Num) : Bool := x.cls == .inf || x.cls == .nan

def Lay.node (l : Lay) (i : Nat) (b : Nat) : TNode :=
  let f (off n : Nat) : Nat := nbits b (8 * off) (8 * n)
  { idx := i, ver := f 0 8, count := f 8 4, rad := f 0xC 4, flags := f 0x10 1, parent := f 0x14 4, leafptr := f 0x18 8
    child := (List.range (min 8 (f 0x11 1))).map fun j => f (0x20 + 4 * j) 4
    cent := unpack l.fs.wid l.t.kdim (b / 2 ^ 512), vsum := unpack l.fs.wid l.t.vdim (b / 2 ^ (512 + 8 * l.cb)) }

/-- Whether a snapshot is one the walker can use (R430). -/
def Lay.nodeOk (l : Lay) (used : Nat) (b : Nat) (x : TNode) : Bool :=
  let nch := nbits b 136 8
  (x.isLeaf || nch != 0) && nch ≤ l.t.fan && x.child.all (· < used) && (!x.isLeaf || x.leafptr != 0) &&
    !(x.cent.any fun c => unbounded (toWide l.fs c)) && !unbounded (ofF32 x.rad) && !((ofF32 x.rad).neg && (ofF32 x.rad).cls == .finite)

/-- NODEUSED, as it stands (R105). -/
def Walker.used (k : Walker) : M Nat := k.readNat (k.l.t.desc.toNat + 4) 4

/-- A snapshot of a node (R112). An odd version needs LOCK, which `locked` says is held: it waits then. -/
def Walker.node (k : Walker) (locked : Bool) (i : Nat) : M TNode := do
  let a := k.l.nodeVa i
  let b ← k.readNat a k.l.nrs
  let x := k.l.node i b
  waitUnless (locked || x.ver % 2 == 0)
  let used ← k.used
  needN (k.l.nodeOk used b x) .awlTree a
  return x

/-- A node record's bytes; those after CENT and VSUM that no code fills are zero (DESIGN CHOICE, log 53). -/
def Lay.nodeImage (l : Lay) (x : TNode) : List Byte :=
  numBytes 8 x.ver ++ numBytes 4 x.count ++ numBytes 4 x.rad ++ numBytes 1 x.flags ++ numBytes 1 x.child.length ++ numBytes 2 0 ++ numBytes 4 x.parent ++
    numBytes 8 x.leafptr ++ numBytes 32 (pack 32 x.child) ++ numBytes l.cb (pack l.fs.wid x.cent) ++ numBytes l.vb (pack l.fs.wid x.vsum)

def Lay.nodeWrite (l : Lay) (x : TNode) : Nat × List Byte := (l.nodeVa x.idx, l.nodeImage x)

/-- A key with its identifier and value, as codes. -/
structure TKey where
  id : Nat
  key : List Nat
  val : List Nat
  deriving DecidableEq, Repr

/-- A leaf block as read: its address and its keys. -/
structure TLeaf where
  va : Nat
  keys : List TKey
  deriving DecidableEq, Repr

/-- COUNT of a leaf block (R430). -/
def Walker.leafCount (k : Walker) (va : Nat) : M Nat := do
  let n ← k.readNat va 4
  needN (n ≤ k.l.t.lcap) .awlTree va
  return n

/-- Codes of finite value, or AWL_TREE at the code's address (R430). -/
def needFinite (f : Fmt) (va : Nat) (codes : List Nat) : M (List Num) := do
  forM' codes.zipIdx fun c => needN (!unbounded (toWide f c.1)) .awlTree (va + c.2 * f.wid / 8)
  return codes.map (toWide f)

def Walker.leaf (k : Walker) (va : Nat) : M TLeaf := do
  let l := k.l
  let n ← k.leafCount va
  let keys ← mapM' (List.range n) fun s => do
    let id ← k.readNat (va + 64 + 8 * s) 8
    let kb ← k.readNat (va + l.keyOff + s * pad64 l.keyBytes) l.keyBytes
    let vb ← k.readNat (va + l.valOff + s * pad64 l.valBytes) l.valBytes
    let key := unpack l.fk.wid l.t.kdim kb
    let val := unpack l.fv.wid l.t.vdim vb
    discard (needFinite l.fk (va + l.keyOff + s * pad64 l.keyBytes) key)
    discard (needFinite l.fv (va + l.valOff + s * pad64 l.valBytes) val)
    return { id, key, val }
  return { va, keys }

/-- A list of bytes filled up with zeros. -/
def padTo (n : Nat) (b : List Byte) : List Byte := b ++ List.replicate (n - b.length) 0

/-- A new leaf block's bytes (R108). What the rules do not give, the padding of a slot and the slots not in use, is zero (DESIGN CHOICE, log 53). -/
def Lay.leafImage (l : Lay) (node : Nat) (keys : List TKey) : List Byte :=
  let head := padTo 64 (numBytes 4 keys.length ++ numBytes 4 0 ++ numBytes 4 node)
  let ids := padTo (pad64 (8 * l.t.lcap)) (keys.flatMap fun x => numBytes 8 x.id)
  let ks := keys.flatMap fun x => padTo (pad64 l.keyBytes) (numBytes l.keyBytes (pack l.fk.wid x.key))
  let vs := keys.flatMap fun x => padTo (pad64 l.valBytes) (numBytes l.valBytes (pack l.fv.wid x.val))
  head ++ ids ++ padTo (l.t.lcap * pad64 l.keyBytes) ks ++ padTo (l.t.lcap * pad64 l.valBytes) vs

/-! Exact arithmetic (R109, R115, R116). -/

/-- Exact sum. -/
def sumNum (l : List Num) : Num := l.foldl (fun a x => a.add x) (Num.zero false)

/-- Exact difference. -/
def Num.minus (a b : Num) : Num := a.add b.negate

/-- Exact sum of squares of differences. -/
def distSq (a b : List Num) : Num := sumNum ((a.zip b).map fun p => (p.1.minus p.2).mul (p.1.minus p.2))

def normSq (a : List Num) : Num := sumNum (a.map fun x => x.mul x)

/-- Exact square root down to 2^-200 and below, with a sticky mark. -/
def sqrtFine (x : Num) : Num :=
  match x.cls with
  | .finite =>
    let sh := 800 + (x.exp % 2).toNat
    let m := x.mag * 2 ^ sh
    let r := isqrt m
    { cls := .finite, neg := false, mag := r, exp := (x.exp - sh) / 2, sticky := r * r != m }
  | .zero | .inf | .nan => x

/-- A norm rounded once to FP32. -/
def normF32 (ss : Num) (mode : RMode) : Nat := toF32 (sqrtFine ss) mode

/-- The exact norm plus an exact number, rounded once to FP32 upward. -/
def normPlus (ss r : Num) : Nat :=
  let n := sqrtFine ss
  match n.cls, r.cls with
  | .finite, .finite => toF32 { cls := .finite, neg := false, mag := (n.at (min n.exp r.exp) + r.at (min n.exp r.exp)).toNat, exp := min n.exp r.exp, sticky := n.sticky } .rup
  | _, _ => toF32 (n.add r) .rup

/-- The largest of FP32 codes of non-negative numbers. -/
def maxF32 (l : List Nat) : Nat := l.foldl (fun a c => if (ofF32 a).lt (ofF32 c) false then c else a) 0

/-- Whether a ≤ b. -/
def Num.le (a b : Num) : Bool := a.cls != .nan && b.cls != .nan && !b.lt a false

/-- Index of the least number, the lowest on a tie. -/
def argMin (l : List Num) : Nat :=
  (l.zipIdx.foldl (fun (b : Nat × Option Num) x =>
    match b.2 with
    | none => (x.2, some x.1)
    | some y => if x.1.lt y false then (x.2, some x.1) else b) (0, none)).1

/-- Index of the greatest number, the lowest on a tie. -/
def argMax (l : List Num) : Nat :=
  (l.zipIdx.foldl (fun (b : Nat × Option Num) x =>
    match b.2 with
    | none => (x.2, some x.1)
    | some y => if y.lt x.1 false then (x.2, some x.1) else b) (0, none)).1

/-- Accept, with the score, or open (R109). `nq` is NormUp(q). A NormUp(q) that has overflowed to infinity gives no product with a radius of 0: the node is opened (DESIGN CHOICE, log 53). -/
def acceptNode (l : Lay) (q : List Num) (nq : Nat) (x : TNode) : Option Nat :=
  let c := x.cent.map (toWide l.fs)
  let r := ofF32 x.rad
  let th := ofF32 l.t.theta.toNat
  if l.t.mode = 0 then
    if (ofF32 (toF32 ((ofF32 nq).mul r) .rup)).le th then some (toF32 (sumNum ((q.zip c).map fun p => p.1.mul p.2)) .rne) else none
  else
    let d := distSq q c
    if r.le (ofF32 (toF32 (th.mul (ofF32 (normF32 d .rdn))) .rdn)) then some (normF32 d .rne) else none

/-! The walk (R111 to R114). -/

/-- A record (R113). -/
def Lay.record (l : Lay) (kind score count ref qidx flags ver : Nat) (vsum : List Nat) : List Byte :=
  padTo l.rl (numBytes 4 score ++ numBytes 4 count ++ numBytes 8 ref ++ numBytes 4 qidx ++ numBytes 1 kind ++ numBytes 1 flags ++ numBytes 2 0 ++
    numBytes 8 ver ++ numBytes (bitBytes (l.t.vdim * l.fs.wid)) (pack l.fs.wid vsum))

/-- Records, and the fault that ended the walk. -/
abbrev WalkRun := List (List Byte) × Option TugFault

/-- One node visited: its record, the keys covered, the children to visit. -/
def Walker.visit (k : Walker) (locked : Bool) (q : List Num) (nq qi i : Nat) : M (List (List Byte) × Nat × List Nat) := do
  let x ← k.node locked i
  if x.count = 0 then return ([], 0, [])
  else
    match acceptNode k.l q nq x with
    | some s => return ([k.l.record 1 s x.count i qi 0 x.ver x.vsum], x.count, [])
    | none =>
      if x.isLeaf then
        let n ← k.leafCount x.leafptr
        return ([k.l.record 2 0 n x.leafptr qi 0 0 []], n, [])
      else return ([], 0, x.child)

/-- The walk of one query, depth first, children in ascending index; `fuel` bounds the nodes. -/
def Walker.descend (k : Walker) (locked : Bool) (q : List Num) (nq qi : Nat) : Nat → List Nat → Nat → M (WalkRun × Nat)
  | 0, _, cov => pure (([], none), cov)
  | _, [], cov => pure (([], none), cov)
  | f + 1, i :: st, cov => do
    match ← tugTry (k.l.nodeVa i) (k.visit locked q nq qi i) with
    | .error x => return (([], some x), cov)
    | .ok (rs, n, ch) =>
      let t ← k.descend locked q nq qi f (ch ++ st) (cov + n)
      return ((rs ++ t.1.1, t.1.2), t.2)

/-- Most nodes a query visits in the model: a bound that no tree in memory reaches. -/
def walkFuel : Nat := 2 ^ 64

/-- A query's codes. -/
def Walker.query (k : Walker) (a : Nat) : M (List Num) := do
  let b ← k.readNat a k.l.keyBytes
  needFinite k.l.fk a (unpack k.l.fk.wid k.l.t.kdim b)

/-- The walks of queries in ascending index. -/
def Walker.queries (k : Walker) (locked : Bool) (root qbase qstride qidx0 : Nat) : List Nat → M WalkRun
  | [] => pure ([], none)
  | j :: js => do
    let a := (qbase + j * qstride) % 2 ^ 64
    match ← tugTry a (k.query a) with
    | .error x => return ([], some x)
    | .ok q =>
      let qi := (qidx0 + j) % 2 ^ 32
      let t ← k.descend locked q (normF32 (normSq q) .rup) qi walkFuel [root] 0
      match t.1.2 with
      | some x => return (t.1.1, some x)
      | none =>
        let r ← k.queries locked root qbase qstride qidx0 js
        return (t.1.1 ++ [k.l.record 3 0 t.2 0 qi 0 0 []] ++ r.1, r.2)

/-- A whole walk with its ENDW record. -/
def Walker.walk (k : Walker) (locked : Bool) (qbase nq qstride qidx0 : Nat) : M WalkRun := do
  match ← tugTry k.l.t.desc.toNat (k.readNat k.l.t.desc.toNat 4) with
  | .error x => return ([k.l.record 4 0 x.cause.code 0 0 1 0 []], some x)
  | .ok root =>
    let t ← k.queries locked root qbase qstride qidx0 (List.range nq)
    let last := match t.2 with
      | none => k.l.record 4 0 nq 0 0 0 0 []
      | some x => k.l.record 4 0 x.cause.code 0 0 1 0 []
    return (t.1 ++ [last], t.2)

/-! New records (R115, R116). -/

/-- Mean of points with counts, radius and value sum of a new record, each rounded once; AWL_TREE at `a` when one is not finite. -/
def Lay.fitNode (l : Lay) (a : Nat) (pts : List (Nat × List Num)) (rad : List Num → Nat) (vs : List (List Num)) : M (List Nat × Nat × List Nat) := do
  let tot : Nat := (pts.map (·.1)).foldl (· + ·) 0
  if tot = 0 then return (List.replicate l.t.kdim 0, 0, List.replicate l.t.vdim 0)
  else
    let cent := (List.range l.t.kdim).map fun j =>
      (fromWide ((sumNum (pts.map fun p => (Num.ofInt (p.1 : Int)).mul (p.2.getD j (Num.zero false)))).quo (Num.ofInt (tot : Int))) l.fs .rne 0).code
    let r := rad (cent.map (toWide l.fs))
    let vsum := (List.range l.t.vdim).map fun j => (fromWide (sumNum (vs.map fun v => v.getD j (Num.zero false))) l.fs .rne 0).code
    needN (!((cent ++ vsum).any fun c => unbounded (toWide l.fs c)) && !unbounded (ofF32 r)) .awlTree a
    return (cent, r, vsum)

/-- From keys: the radius is the largest distance, rounded up. -/
def Lay.fitKeys (l : Lay) (a : Nat) (keys : List TKey) : M (List Nat × Nat × List Nat) :=
  let pts := keys.map fun k => k.key.map (toWide l.fk)
  l.fitNode a (pts.map fun p => (1, p)) (fun c => maxF32 (pts.map fun p => normF32 (distSq p c) .rup)) (keys.map fun k => k.val.map (toWide l.fv))

/-- From children with keys: the radius bounds each child's distance and radius. A VSUM that is not finite makes the sum none. -/
def Lay.fitKids (l : Lay) (a : Nat) (kids : List TNode) : M (List Nat × Nat × List Nat) :=
  let ks := kids.filter fun x => x.count != 0
  let cent (x : TNode) : List Num := x.cent.map (toWide l.fs)
  l.fitNode a (ks.map fun x => (x.count, cent x)) (fun c => maxF32 (ks.map fun x => normPlus (distSq (cent x) c) (ofF32 x.rad))) (ks.map fun x => x.vsum.map (toWide l.fs))

/-- The two groups of a split by position: seed a farthest from the centroid, seed b farthest from a, each point to the nearer (R116). -/
def splitGroups (pts : List (List Num)) (cent : List Num) (half : Nat) : List Nat × List Nat :=
  let a := argMax (pts.map fun p => distSq p cent)
  let pa := pts.getD a []
  let da := pts.map fun p => distSq p pa
  if da.all fun d => d.cls == .zero then (List.range (half + 1), (List.range pts.length).drop (half + 1))
  else
    let pb := pts.getD (argMax da) []
    let toA (j : Nat) : Bool := !(distSq (pts.getD j []) pb).lt (da.getD j (Num.zero false)) false
    ((List.range pts.length).filter toA, (List.range pts.length).filter fun j => !toA j)

/-- An ancestor takes a new key: running mean, growing radius, one version step (R115). -/
def Lay.grow (l : Lay) (x : TNode) (key val : List Num) : M TNode := do
  let a := l.nodeVa x.idx
  let c := x.cent.map (toWide l.fs)
  let n : Num := Num.ofInt (x.count : Int)
  let m : Num := Num.ofInt ((x.count : Int) + 1)
  let cent := (c.zip key).map fun p => (fromWide (((n.mul p.1).add p.2).quo m) l.fs .rne 0).code
  let c2 := cent.map (toWide l.fs)
  let r1 := toF32 ((ofF32 x.rad).add (ofF32 (normF32 (distSq c2 c) .rup))) .rup
  let rad := maxF32 [r1, normF32 (distSq key c2) .rup]
  let vsum := ((x.vsum.map (toWide l.fs)).zip val).map fun p => (fromWide (p.1.add p.2) l.fs .rne 0).code
  needN (!((cent ++ vsum).any fun z => unbounded (toWide l.fs z)) && !unbounded (ofF32 r1) && !unbounded (ofF32 rad)) .awlTree a
  return { x with ver := x.ver + 2, count := x.count + 1, rad, cent, vsum }

/-- The path from the root to the leaf whose centroids are nearest the key (R115). -/
def Walker.path (k : Walker) (key : List Num) : Nat → Nat → M (List TNode)
  | 0, _ => pure []
  | f + 1, i => do
    let x ← k.node true i
    if x.isLeaf then return [x]
    else
      let kids ← mapM' x.child (k.node true)
      let j := argMin (kids.map fun y => distSq key (y.cent.map (toWide k.l.fs)))
      let t ← k.path key f (x.child.getD j 0)
      return x :: t

/-- The live fields of a descriptor (R105). -/
structure Live where
  root : Nat
  used : Nat
  leafUsed : Nat
  keys : Nat
  retired : Nat

def Walker.live (k : Walker) : M Live := do
  let b ← k.readNat k.l.t.desc.toNat 128
  return { root := nbits b 0 32, used := nbits b 32 32, leafUsed := nbits b 224 32, keys := nbits b 512 64, retired := nbits b 576 64 }

/-- Levels that split, from the leaf up: the leaf when it is full, then each parent without room (R115). `path` is leaf first. -/
def splitDepth (fan : Nat) : List TNode → Nat
  | [] => 0
  | [_] => 1
  | _ :: p :: ps => if p.child.length < fan then 1 else 1 + splitDepth fan (p :: ps)

/-- A parent index set in a new node. -/
def reparent (first p : Nat) (x : TNode) : TNode := if first ≤ x.idx then { x with parent := p } else x

/-- What a split has made so far: the pair that replaces a node, and the new records besides. -/
structure SplitRun where
  pair : List TNode
  made : List TNode
  next : Nat

/-- Splits the internal nodes of a path, lowest first, each taking its split child's pair (R116). -/
def Walker.splitUp (k : Walker) (first : Nat) : List TNode → Nat → SplitRun → M SplitRun
  | [], _, r => pure r
  | x :: xs, old, r => do
    let kids ← mapM' x.child fun c => if c = old then return r.pair else return [← k.node true c]
    let kids := kids.flatten
    let cent (y : TNode) : List Num := y.cent.map (toWide k.l.fs)
    let g := splitGroups (kids.map cent) (x.cent.map (toWide k.l.fs)) (k.l.t.fan / 2)
    let mk (i : Nat) (js : List Nat) : M (TNode × List TNode) := do
      let ks := js.filterMap fun j => kids[j]?
      let v ← k.l.fitKids (k.l.nodeVa i) ks
      let n : TNode := { idx := i, ver := 0, count := (ks.map (·.count)).foldl (· + ·) 0, rad := v.2.1, flags := 0, parent := 0, leafptr := 0
                         child := ks.map (·.idx), cent := v.1, vsum := v.2.2 }
      return (n, (ks.filter fun y => first ≤ y.idx).map (reparent first i))
    let a ← mk r.next g.1
    let b ← mk (r.next + 1) g.2
    k.splitUp first xs x.idx { pair := [a.1, b.1], made := r.made ++ a.2 ++ b.2, next := r.next + 2 }

/-- A node with a child's pair in its place, one version step on (R116). -/
def switchChild (x : TNode) (old : Nat) (pair : List TNode) : TNode :=
  { x with child := x.child.flatMap fun c => if c = old then pair.map (·.idx) else [c], ver := x.ver + 2 }

/-- The writes of an append without a split that come before the leaf's COUNT (R115): each node of the path, then the codes into slot `s` of the leaf block at `va`. -/
def Walker.plainWrites (k : Walker) (path : List TNode) (va s : Nat) (x : TKey) : M (List (Nat × List Byte)) := do
  let l := k.l
  let key := x.key.map (toWide l.fk)
  let val := x.val.map (toWide l.fv)
  let ns ← mapM' path fun n => l.grow n key val
  return ns.map l.nodeWrite ++
    [(va + 64 + 8 * s, numBytes 8 x.id), (va + l.keyOff + s * pad64 l.keyBytes, numBytes l.keyBytes (pack l.fk.wid x.key)),
     (va + l.valOff + s * pad64 l.valBytes, numBytes l.valBytes (pack l.fv.wid x.val))]

/-- The two leaves of a full leaf with the new key: their nodes and blocks (R116). -/
def Walker.splitLeaf (k : Walker) (v : Live) (leaf : TNode) (keys : List TKey) : M (List TNode × List (Nat × List Byte)) := do
  let l := k.l
  let g := splitGroups (keys.map fun x => x.key.map (toWide l.fk)) (leaf.cent.map (toWide l.fs)) (l.t.lcap / 2)
  let mk (i b : Nat) (js : List Nat) : M (TNode × (Nat × List Byte)) := do
    let ks := js.filterMap fun j => keys[j]?
    let f ← l.fitKeys (l.nodeVa i) ks
    let n : TNode := { idx := i, ver := 0, count := ks.length, rad := f.2.1, flags := 1, parent := 0, leafptr := l.leafVa b, child := [], cent := f.1, vsum := f.2.2 }
    return (n, (l.leafVa b, l.leafImage i ks))
  let a ← mk v.used v.leafUsed g.1
  let b ← mk (v.used + 1) (v.leafUsed + 1) g.2
  return ([a.1, b.1], [a.2, b.2])

/-- The writes of an append that splits `d` levels of the path, which is leaf first (R116). -/
def Walker.splitWrites (k : Walker) (v : Live) (d : Nat) (path : List TNode) (lf : TLeaf) (x : TKey) : M (List (Nat × List Byte)) := do
  let l := k.l
  match path with
  | [] => return []
  | leaf :: up => do
    let lp ← k.splitLeaf v leaf (lf.keys ++ [x])
    let r ← k.splitUp v.used (up.take (d - 1)) leaf.idx { pair := lp.1, made := [], next := v.used + 2 }
    let gone := path.take d
    let old := (gone.getLast?.map (·.idx)).getD 0
    let top := path.drop d
    let key := x.key.map (toWide l.fk)
    let val := x.val.map (toWide l.fv)
    let rest ← match top with
      | [] => do
        let i := r.next
        let f ← l.fitKids (l.nodeVa i) r.pair
        let root : TNode := { idx := i, ver := 0, count := (r.pair.map (·.count)).foldl (· + ·) 0, rad := f.2.1, flags := 0, parent := 0xFFFFFFFF, leafptr := 0
                              child := r.pair.map (·.idx), cent := f.1, vsum := f.2.2 }
        pure ((r.pair.map (reparent v.used i) ++ [root]).map l.nodeWrite ++ [(l.t.desc.toNat, numBytes 4 i)])
      | p :: _ => do
        let ns ← mapM' top.reverse fun n => l.grow n key val
        let ns := ns.map fun n => if n.idx = p.idx then switchChild n old r.pair else n
        pure ((r.pair.map (reparent v.used p.idx)).map l.nodeWrite ++ ns.map l.nodeWrite)
    let used := r.next + (if top.isEmpty then 1 else 0)
    return lp.2 ++ r.made.map l.nodeWrite ++ rest ++ gone.map (fun n => (l.nodeVa n.idx + 0x10, numBytes 1 (n.flags ||| 2))) ++
      [(lf.va + 4, numBytes 1 1), (l.t.desc.toNat + 4, numBytes 4 used), (l.t.desc.toNat + 0x1C, numBytes 4 (v.leafUsed + 2)),
       (l.t.desc.toNat + 0x48, numBytes 8 (v.retired + d + 1))]

/-- An append under LOCK: descent, arena check, writes, the leaf's COUNT with release order (R115, R255); `n` transfers were under way before its step. -/
def Walker.append (k : Walker) (n : Nat) (x : TKey) : M Unit := do
  let l := k.l
  let v ← k.live
  let down ← k.path (x.key.map (toWide l.fk)) walkFuel v.root
  let path := down.reverse
  match path with
  | [] => pure ()
  | leaf :: _ => do
    let held ← k.leafCount leaf.leafptr
    let full := held = l.t.lcap
    let d := if full then splitDepth l.t.fan path else 0
    let nodes := 2 * d + (if full && d = path.length then 1 else 0)
    needU (v.used + nodes ≤ l.t.nodeCap && v.leafUsed + (if full then 2 else 0) ≤ l.t.leafCap) .awlArena
    let keys := (l.t.desc.toNat + 0x40, numBytes 8 (v.keys + 1))
    if full then do
      let ws ← k.splitWrites v d path (← k.leaf leaf.leafptr) x
      k.commit (ws ++ [keys])
    else do
      let ws ← k.plainWrites down leaf.leafptr held x
      let last := [(leaf.leafptr, numBytes 4 (held + 1)), keys]
      discard (mapM' last fun w => k.places w.1 w.2)
      k.commit ws
      k.release n leaf.leafptr
      k.commit last

/-- A refit from a node: its children first, then itself under one version step (R117). -/
def Walker.refit (k : Walker) : Nat → Nat → M TNode
  | 0, i => k.node true i
  | f + 1, i => do
    let x ← k.node true i
    let kids ← mapM' x.child (k.refit f)
    if x.count = 0 then return x
    else
      let a := k.l.nodeVa i
      let v ← if x.isLeaf then do
          let lf ← k.leaf x.leafptr
          k.l.fitKeys a lf.keys
        else k.l.fitKids a kids
      let y := { x with ver := x.ver + 2, cent := v.1, rad := v.2.1, vsum := v.2.2 }
      k.commit [k.l.nodeWrite y]
      return y

/-! Reports and the end of an operation (R21, R114, R255, R299). -/

/-- Timeline handle of a walk context (R15). -/
def walkHandle (w : WalkId) : Nat := 0x2000 + WalkId.key w

/-- A cause of a walk operation goes to its fault domain. -/
def walkReport (s : State) (w : WalkId) (o : WalkOp) (f : TugFault) : State :=
  report s o.fdom { code := f.cause.code, disp := if o.node.isSome then .kill else .report, origin := 3, who := BitVec.ofNat 64 (walkHandle w)
                    place := BitVec.ofNat 64 o.num, tval := f.tval, gtag := o.gtag, aux := f.aux }

/-- Changes the operation at the head of a walk context. -/
def modHead (w : WalkId) (f : WalkOp → WalkOp) : M Unit :=
  modify fun s => s.modWalk w fun x => { x with queue := match x.queue with | o :: q => f o :: q | [] => [] }

/-! LOCK (R115). -/

/-- The place of LOCK: main memory, where an AMO is allowed. A tree whose descriptor lies in a pool window can be bound and walked, and taking its LOCK ends with TUG_PORT (DESIGN CHOICE, log 53). -/
def Walker.lockPa (k : Walker) : M Nat := do
  let a := k.l.t.desc.toNat + 8
  let l ← tugLoc (k.op.who k.w) k.op.path a 8 .write
  match l with
  | .mem pa _ => return pa
  | .pool _ _ | .peer _ _ => trapN .tugPort a

/-- Whether LOCK is free for a context: no one holds it and no one asked before. -/
def lockFree (s : State) (w : WalkId) (pa : Nat) : M Bool := do
  let v ← physRead pa 8
  let first := match s.locks.find? (fun l => l.2 == pa) with
    | some l => l.1 == w
    | none => true
  return v = 0 && first

/-- Takes LOCK by the atomic whose read found it free. -/
def takeLock (w : WalkId) (pa : Nat) : M Unit := do
  physPut pa 8 (walkHandle w + 1)
  modify fun s => { s with locks := s.locks.filter fun l => l != (w, pa) }

/-- An append or refit under LOCK; a fault of it frees LOCK at once. -/
def Walker.underLock (k : Walker) (pa : Nat) (x : M Unit) : M Unit := do
  takeLock k.w pa
  match ← tugTry k.l.t.desc.toNat x with
  | .ok _ => modHead k.w fun o => { o with started := true, locking := false, lock := some pa, finished := true }
  | .error f =>
    physWrite pa 8 0
    modHead k.w fun o => { o with started := true, locking := false, finished := true, fault := some f }

/-! Emission (R111, R113, R244). -/

/-- Slots' worth of records: as many as fit one slot, the last slot padded; the slot's bytes and the records left. -/
def slotRecords (slotsz rl : Nat) (rs : List (List Byte)) : List Byte × List (List Byte) :=
  (padTo slotsz (rs.take (slotsz / rl)).flatten, rs.drop (slotsz / rl))

/-- A ring's next free slot taken for a walk: TAKEN, EXP := SLOTSZ, LAND := 0 (R244). -/
def walkTake (core : Fin 1024) (ring : Fin 8) : M (Option Nat) := do
  let s ← get
  let r := (s.core core.val).rings[ring]
  match (if r.init then ringNext r else none) with
  | none => return none
  | some i =>
    set (s.modRing core.val ring fun r => ringTake r i r.slotsz)
    return some i

/-- The walk at the head of a context takes a slot when one is free (R244). -/
def headTake (w : WalkId) : M Unit := do
  let s ← get
  match (s.walk w).queue with
  | { kind := .query _ _ _ _ core ring, slot := none, .. } :: _ => do
    let i ← walkTake core ring
    modHead w fun o => { o with slot := i }
  | _ => pure ()

/-- The records of the walk at the head of a context fill the slot it has taken; with records left it takes the next one once that is free (R244). A slot of a ring initialised anew is no longer the walk's. -/
def emitSlot (w : WalkId) (rl : Nat) : M Unit := do
  let s ← get
  match (s.walk w).queue with
  | { kind := .query _ _ _ _ core ring, slot := some i, records, .. } :: _ => do
    let r := (s.core core.val).rings[ring]
    if r.init && r.taken.getLsbD i && !r.fill.getLsbD i then do
      let t := slotRecords r.slotsz rl records
      tugWrite (.pool core.val (r.base + i * r.slotsz)) t.1
      modify fun s => s.modRing core.val ring fun r => fillRing { r with lands := r.lands.set i r.slotsz } i false false
      modHead w fun o => { o with records := t.2, slot := none, finished := t.2.isEmpty }
      if !t.2.isEmpty then headTake w
    else if r.init then modHead w fun o => { o with slot := none }
    else pure ()
  | _ => headTake w

/-! Starting an operation. -/

/-- The tree an operation works on. -/
def needTree (w : WalkId) (o : WalkOp) : M Walker := do
  let s ← get
  match (s.walk w).tree with
  | some t => return { w, op := o, l := layOf t o.ents }
  | none => trapU .awlUnbound

/-- Ends an operation with a fault. -/
def faultHead (w : WalkId) (f : TugFault) : M Unit := modHead w fun o => { o with started := true, locking := false, finished := true, fault := some f }

/-- Waits for LOCK in the order of asking (R115). -/
def askLock (w : WalkId) (pa : Nat) : M Unit := do
  modify fun s => { s with locks := if s.locks.contains (w, pa) then s.locks else s.locks ++ [(w, pa)] }
  modHead w fun o => { o with started := true, locking := true }

/-- A walk whose records are ready to fill slot after slot. -/
def Walker.walked (k : Walker) (r : WalkRun) : M Unit := modHead k.w fun o => { o with started := true, locking := false, records := r.1, fault := r.2 }

/-- Whether a walk may take LOCK now, and asks for it otherwise (R112, R115). -/
def Walker.lockTry (k : Walker) : M Bool := do
  let pa ← k.lockPa
  let s ← get
  let free ← lockFree s k.w pa
  if free then return true
  else
    askLock k.w pa
    return false

/-- A fault in reaching LOCK ends a walk as one of a node access does, with an ENDW record, whether it arises at the first try or at the grant (DESIGN CHOICE, log 53). -/
def Walker.lockFault (k : Walker) (f : TugFault) : M Unit := k.walked ([k.l.record 4 0 f.cause.code 0 0 1 0 []], some f)

/-- A walk: it has taken its first ring slot and runs, its records then filling slot after slot. A snapshot that needs LOCK takes it, or waits for it (R112). -/
def Walker.startQuery (k : Walker) (granted : Bool) (qbase : Word) (nq qstride qidx0 : Nat) : M Unit := do
  match ← attempt (k.walk granted qbase.toNat nq qstride qidx0) with
  | .ok r => k.walked r
  | .error .wait =>
    if granted then waitM
    else
      match ← tugTry (k.l.t.desc.toNat + 8) k.lockTry with
      | .error f => k.lockFault f
      | .ok false => pure ()
      | .ok true => do
        let r ← k.walk true qbase.toNat nq qstride qidx0
        k.walked r
  | .error e => throw e

/-- The record, key and value of an append (R255). -/
def Walker.readAppend (k : Walker) (rec : Word) : M TKey := do
  let l := k.l
  let b ← k.readNat rec.toNat 32
  let kva := nbits b 64 64
  let vva := nbits b 128 64
  let kb ← k.readNat kva l.keyBytes
  let key := unpack l.fk.wid l.t.kdim kb
  discard (needFinite l.fk kva key)
  let vb ← k.readNat vva l.valBytes
  let val := unpack l.fv.wid l.t.vdim vb
  discard (needFinite l.fv vva val)
  return { id := nbits b 0 64, key, val }

/-- What an append keeps while it waits for LOCK. -/
def Lay.holdKey (l : Lay) (x : TKey) : List Byte := numBytes 8 x.id ++ numBytes l.keyBytes (pack l.fk.wid x.key) ++ numBytes l.valBytes (pack l.fv.wid x.val)

def Lay.heldKey (l : Lay) (b : List Byte) : TKey :=
  { id := ofBytes (b.take 8), key := unpack l.fk.wid l.t.kdim (ofBytes ((b.drop 8).take l.keyBytes)), val := unpack l.fv.wid l.t.vdim (ofBytes (b.drop (8 + l.keyBytes))) }

/-- Runs an operation under LOCK, or waits for it. -/
def Walker.lockOr (k : Walker) (x : M Unit) : M Unit := do
  let pa ← k.lockPa
  let s ← get
  let free ← lockFree s k.w pa
  if free then k.underLock pa x else askLock k.w pa

/-- Whether the ring of a query has a slot for it. -/
def queryRoom (s : State) (o : WalkOp) : Bool :=
  match o.kind with
  | .query _ _ _ _ core ring => (s.core core.val).rings[ring].init && (ringNext (s.core core.val).rings[ring]).isSome
  | _ => true

/-- A descriptor refused leaves the walk context unbound (R106). -/
def unbindTree (w : WalkId) : M Unit := modify fun s => s.modWalk w fun x => { x with tree := none, closed := true }

/-- Whether an exception is a refusal of a descriptor (R106). -/
def Exc.isDesc : Exc → Bool
  | .cause .awlDesc _ => true
  | .cause _ _ | .stopAt _ _ | .wait | .split => false

/-- What the start of an operation does (R253). -/
def startOp (w : WalkId) (o : WalkOp) : M Unit := do
  match o.kind with
  | .bind desc => do
    let who := o.who w
    let check : M Tree := do
      needN (desc != 0 && desc.toNat % 64 == 0) .awlDesc 1
      let lo ← tugRead who o.path desc.toNat 64
      let hi ← tugRead who o.path (desc.toNat + 64) 64
      checkTree desc (lo + 2 ^ 512 * hi) o.ents
    match ← attempt check with
    | .ok t => do
      modify fun s => s.modWalk w fun x => { x with tree := some t, closed := false }
      modHead w fun o => { o with started := true, finished := true }
    | .error e => do
      if e.isDesc then unbindTree w
      throw e
  | .query qbase nq qstride qidx0 _ _ => do
    let k ← needTree w o
    headTake w
    k.startQuery false qbase nq qstride qidx0
  | .append rec => do
    let k ← needTree w o
    let n := (← get).transfers.length
    let x ← k.readAppend rec
    modHead w fun o => { o with data := k.l.holdKey x }
    k.lockOr (k.append n x)
  | .refit => do
    let k ← needTree w o
    let root ← k.readNat k.l.t.desc.toNat 4
    k.lockOr (discard (k.refit walkFuel root))
  | .drain | .signal => modHead w fun o => { o with started := true, finished := true }

/-- A failed walker ends an operation (R350): with an ENDW fault record where its ring has a slot, else without one. -/
def fenceHead (w : WalkId) : M Unit := do
  let s ← get
  match (s.walk w).queue, (s.walk w).tree with
  | o :: _, some t =>
    let l := layOf t o.ents
    modHead w fun o => { o with records := [l.record 4 0 Cause.unitFenced.code 0 0 1 0 []] }
    headTake w
    emitSlot w l.rl
  | _, _ => pure ()
  modHead w fun o => { o with records := [], slot := none }
  faultHead w { cause := .unitFenced, tval := Config.tval s.tick, addr := 0, aux := 0 }

/-- AWL_OPERATION_START (R253): the oldest operation of a walk context starts once nothing before it is incomplete; a query waits for a free ring slot. -/
def execAwlOperationStart (w : WalkId) (s : State) : Out :=
  event (do
    match (s.walk w).queue with
    | [] => pure ()
    | o :: _ =>
      if !o.started && s.walkerFenced.contains w.walker.val then fenceHead w
      else if !o.started && queryRoom s o then
        match ← tugTry 0 (startOp w o) with
        | .ok _ => pure ()
        | .error f => faultHead w f) s

/-- What a granted LOCK lets the waiting operation do. -/
def grantedOp (w : WalkId) (o : WalkOp) : M Unit := do
  let n := (← get).transfers.length
  let k ← needTree w o
  let found : M (Nat × Bool) := do
    let pa ← k.lockPa
    let free ← lockFree (← get) w pa
    return (pa, free)
  match ← tugTry (k.l.t.desc.toNat + 8) found with
  | .ok (_, false) => pure ()
  | .ok (pa, true) =>
    match o.kind with
    | .append _ => k.underLock pa (k.append n (k.l.heldKey o.data))
    | .refit =>
      let root ← k.readNat k.l.t.desc.toNat 4
      k.underLock pa (discard (k.refit walkFuel root))
    | .query qbase nq qstride qidx0 _ _ =>
      modify fun s => { s with locks := s.locks.filter fun l => l != (w, pa) }
      k.startQuery true qbase nq qstride qidx0
    | .bind _ | .drain | .signal => pure ()
  | .error f =>
    modify fun s => { s with locks := s.locks.filter fun l => l.1 != w }
    match o.kind with
    | .query _ _ _ _ _ _ => k.lockFault f
    | .append _ | .refit | .bind _ | .drain | .signal => faultHead w f

/-- AWL_LOCK_GRANT (R115): LOCK goes to the operation that asked first, once it is free. -/
def execAwlLockGrant (w : WalkId) (s : State) : Out :=
  event (do
    match (s.walk w).queue with
    | [] => pure ()
    | o :: _ =>
      if o.locking then
        match ← tugTry 0 (grantedOp w o) with
        | .ok _ => pure ()
        | .error f =>
          modify fun s => { s with locks := s.locks.filter fun l => l.1 != w }
          faultHead w f) s

/-- AWL_SLOT_TAKE (R244): a walk with records left fills the slot it has taken, and takes the next once that is free. -/
def execAwlSlotTake (w : WalkId) (s : State) : Out :=
  event (do
    match (s.walk w).queue, (s.walk w).tree with
    | o :: _, some t => if o.started && !o.locking && !o.records.isEmpty then emitSlot w (layOf t o.ents).rl else pure ()
    | _, _ => pure ()) s

/-! W nodes (R298, R299). -/

/-- A walk operation of a node. It has no issuing context that could capture format entries 8 to 15: they are invalid for it (DESIGN CHOICE, log 53). -/
def nodeOp (s : State) (num : Nat) (kind : WalkKind) (r : NodeRef) (asid : BitVec 16) : WalkOp :=
  { num, kind, issuer := none, node := some r, asid, priv := 0, ents := Vector.replicate 8 0, stale := false
    fdom := (match tabFind s.graphs r.graph with | some g => effFdom s g.rcb | none => 0), gtag := gtagOf s (some r)
    started := false, locking := false, lock := none, data := [], records := [], slot := none, finished := false, fault := none, sig := none }

/-- The first failing row of a query block (R254), 0 when all hold; `coreOk` judges RCORE. -/
def queryCheck (b keyBytes : Nat) (coreOk : Nat → Bool) : Nat :=
  let f (off n : Nat) : Nat := nbits b (8 * off) (8 * n)
  if f 7 1 != 0 then 1
  else if !(1 ≤ f 8 4 && f 8 4 ≤ 65536) then 2
  else if f 0xC 4 < keyBytes then 3
  else if f 0x14 1 ≥ 8 then 5
  else if f 0x15 1 != 0 then 6
  else if !coreOk (f 0x16 2) then 7
  else if f 0x18 8 != 0 then 8
  else 0

/-- A query block checked: what the walk does (R254). -/
def checkQuery (t : Tree) (ents : Vector Word 8) (b : Nat) (core : Nat → Option (Fin 1024)) : M WalkKind := do
  let l := layOf t ents
  let f (off n : Nat) : Nat := nbits b (8 * off) (8 * n)
  let n := queryCheck b l.keyBytes fun c => (core c).isSome
  needN (n == 0) .awlDesc (16 + n)
  let c := (core (f 0x16 2)).getD 0
  let d := Fin.ofNat 8 (f 0x14 1)
  let s ← get
  let r := (s.core c.val).rings[d]
  needU r.init .drState
  needU (r.slotsz % l.rl == 0) .awlRing
  return .query (BitVec.ofNat 64 (f 0 8)) (f 8 4) (f 0xC 4) (f 0x10 4) c d

/-- An order of a W node, checked: function code and operand (R298, R299). -/
def orderKind (w : WalkId) (who : Who) (code arg : Nat) : M WalkKind := do
  let s ← get
  let x := s.walk w
  let bound : M Tree := do
    match x.closed, x.tree with
    | false, some t => return t
    | _, _ => trapU .awlUnbound
  match code with
  | 0 => return .bind (BitVec.ofNat 64 arg)
  | 1 => do
    let t ← bound
    needTreeEnts t (Vector.replicate 8 0)
    needN (arg % 8 == 0) .awlDesc 16
    let bs ← mapM' (pieces64 arg 32) fun p => do
      let v ← tugRead who (.own none) p.1 p.2
      return numBytes p.2 v
    checkQuery t (Vector.replicate 8 0) (ofBytes bs.flatten) fun c => if c < 1024 && dieOf c = w.walker.val / 4 then some (Fin.ofNat 1024 c) else none
  | 2 => do
    let t ← bound
    needTreeEnts t (Vector.replicate 8 0)
    return .append (BitVec.ofNat 64 arg)
  | 3 => do
    let t ← bound
    needTreeEnts t (Vector.replicate 8 0)
    return .refit
  | _ => trapU .awlDesc

/-- An operation enters a walk context with the next number. -/
def pushOp (w : WalkId) (mk : State → Nat → WalkOp) : M Unit := modify fun s =>
  let n := (s.walk w).issued + 1
  s.modWalk w fun x => { x with queue := x.queue ++ [mk s n], issued := n }

/-- The walk context takes a node's next order, then a WDRAIN; after that the node retires. A cause of it is a Kill of the node. -/
def takeOrder (w : WalkId) (r : NodeRef) : M Unit := do
  let s ← get
  match tabFind s.graphs r.graph, s.gnode r with
  | some g, some n =>
    let asid := match s.region g.rcb with | some x => x.asid | none => g.asid
    if n.left = 0 then set (retireNode s r)
    else if n.left = 1 then do
      modify fun s => (s.modNode r fun n => { n with left := 0 }).modWalk w fun x => { x with closed := true }
      pushOp w fun s num => nodeOp s num .drain r asid
    else
      let a := (blkField n.desc 8 8 + 16 * (blkField n.desc 6 2 + 1 - n.left)) % 2 ^ 64
      let who : Who := { asid, priv := 0, holder := .walk w }
      let read : M WalkKind := do
        let code ← tugRead who (.own none) a 8
        let arg ← tugRead who (.own none) (a + 8) 8
        orderKind w who code arg
      let res ← tugTry a read
      modify fun s => s.modNode r fun n => { n with left := n.left - 1 }
      match res with
      | .ok kind => pushOp w fun s num => nodeOp s num kind r asid
      | .error f => modify fun s => failNode (walkReport s w { nodeOp s (Config.free s.tick) .drain r asid with node := some r } f) r
  | _, _ => pure ()

/-! Completion (R111, R115, R253). -/

/-- Whether the head operation can complete: its records have landed, or a signal's time has come. -/
def opDone (s : State) (o : WalkOp) : Bool :=
  match o.sig with
  | some g => sigReady s g
  | none => o.finished

/-- AWL_OPERATION_COMPLETE (R111, R115): LOCK is freed, a fault reported, and the timeline advances; the translations held for the operation go (R321). -/
def execAwlOperationComplete (w : WalkId) (s : State) : Out :=
  event (do
    match (s.walk w).queue with
    | [] => pure ()
    | o :: rest =>
      if opDone s o then
        match o.lock with
        | some pa => do
          awaitAcks (.mem pa 1)
          modify fun s => ownWrite s pa 8 0
        | none => pure ()
        match o.fault with
        | some f => modify fun s => walkReport s w o f
        | none => pure ()
        modify fun s => s.modWalk w fun x =>
          { x with queue := rest, timeline := o.num, tlb := [], tree := if o.kind == .drain then none else x.tree }
        match o.node with
        | none => pure ()
        | some r => if o.fault.isSome then modify fun s => failNode s r else takeOrder w r) s

/-! Instructions (R253). -/

/-- The walk context of a handle, on the issuing core's die (R253). -/
def needWalk (b : Word) : M WalkId := do
  let s ← get
  match handleOf s b with
  | some (.walk w) =>
    needU (w.walker.val / 4 == dieOf s.cur.core.val) .awlCtx
    return w
  | _ => trapU .awlCtx

/-- The tree of a bound walk context whose entries are valid. -/
def needBound (w : WalkId) : M Tree := do
  let s ← get
  match (s.walk w).closed, (s.walk w).tree with
  | false, some t =>
    needTreeEnts t s.me.ents
    return t
  | _, _ => trapU .awlUnbound

/-- An operation of the running context, queued; a full queue is waited for. -/
def queueOp (w : WalkId) (kind : WalkKind) (sd : Fin 32) : M Unit := do
  let s ← get
  waitUnless ((s.walk w).queue.length < 8)
  let num := (s.walk w).issued + 1
  pushOp w fun s n => newWalkOp s n kind s.cur
  writeS sd (BitVec.ofNat 64 num)

/-- WBIND (R105, R106, R253): it binds once every earlier operation has completed; a descriptor refused leaves the walk context unbound. -/
def execWbind (f : A3) (s : State) : Out :=
  scalar (do
    let a ← readS f.sa
    let b ← readS f.sb
    awaitS f.sd
    let w ← needWalk b
    let s ← get
    waitUnless (s.walk w).queue.isEmpty
    let check : M Tree := do
      needN (a != 0 && a.toNat % 64 == 0) .awlDesc 1
      let d ← readWords a.toNat 16
      checkTree a d s.me.ents
    match ← attempt check with
    | .ok t =>
      let num := (s.walk w).issued + 1
      modify fun s => s.modWalk w fun x => { x with tree := some t, closed := false, issued := num, timeline := num }
      writeS f.sd (BitVec.ofNat 64 num)
    | .error e => do
      if e.isDesc then unbindTree w
      throw e) s

/-- WQRY (R253, R254). -/
def execWqry (f : A3) (s : State) : Out :=
  scalar (do
    let a ← readS f.sa
    let b ← readS f.sb
    awaitS f.sd
    let w ← needWalk b
    let t ← needBound w
    needN (a.toNat % 8 == 0) .awlDesc 16
    let q ← readWords a.toNat 4
    let s ← get
    let kind ← checkQuery t s.me.ents q fun c => if c = 0 then some s.cur.core else none
    queueOp w kind f.sd) s

/-- WAPP (R253, R255). -/
def execWapp (f : A3) (s : State) : Out :=
  scalar (do
    let a ← readS f.sa
    let b ← readS f.sb
    awaitS f.sd
    let w ← needWalk b
    discard (needBound w)
    queueOp w (.append a) f.sd) s

/-- WREFIT (R253). -/
def execWrefit (f : ADB) (s : State) : Out :=
  scalar (do
    let b ← readS f.sb
    awaitS f.sd
    let w ← needWalk b
    discard (needBound w)
    queueOp w .refit f.sd) s

/-- WDRAIN (R253). -/
def execWdrain (f : ADB) (s : State) : Out :=
  scalar (do
    let b ← readS f.sb
    awaitS f.sd
    let w ← needWalk b
    queueOp w .drain f.sd
    modify fun s => s.modWalk w fun x => { x with closed := true }) s

end Sys2Proof.Machine
end

