-- ==== Sys2Proof/Machine/Fetch.lean ====
section
/-! DEFINITION. What the next turn of a loop context does: a trap still to be delivered (R346), the head of its vector queue (R276), or the instruction at its PC, fetched (R53, R314, R328, R329) and decoded (R121). -/

namespace Sys2Proof.Machine

/-- A page of code of an address space in a die's commons (R314). -/
def findCode (s : State) (die : Nat) (asid : BitVec 16) (page : Nat) : Option CodePage :=
  s.code.find? fun p => p.die == die && p.asid == asid && p.page == page

/-- The bytes of a physical page as the commons take them: main memory, a pool, or a port, which reads as zero. -/
def pageBytes (s : State) (base : Nat) : Memory :=
  match physKind s base with
  | .memory => memSlice s.mem base 4096 0
  | .pool c off => memSlice (s.core c).pool off 4096 0
  | .inval | .control | .drive _ _ | .lost | .absent => []

/-- CODE_FILL (R329): a page is filled into a die's commons, its range and its hash checked. `base` is where the page lies. -/
def fillCode (die : Fin 8) (asid : BitVec 16) (va base : Nat) : M CodePage := do
  let e ← asidEntry asid va
  let hashed := nbit e.cflags 0
  needN (!hashed || (e.codeBase ≤ va && va < e.codeBase + 4096 * e.codePages)) .trPerm va
  transfer base
  let s ← get
  needU (physKind s base != .lost) .moduleLost
  let p : CodePage := { die := die.val, asid, page := va / 4096, bytes := pageBytes s base }
  if hashed then
    let h ← tableRead va (e.hashBase + 32 * ((va - e.codeBase) / 4096)) 32
    needN (sha256Digest (memBytes p.bytes 0 4096) == numBytes 32 h) .codeHash va
  modify fun s => { s with code := p :: s.code.filter fun q => !(q.die == die.val && q.asid == asid && q.page == va / 4096) }
  return p

/-- A core's cracked operation at an address, under the tags of the running context (R314). -/
def findOp (s : State) (va : Nat) : Option DecOp := s.myCore.ops.find? fun o => o.asid == s.me.asid && o.eff == s.me.vc.eff && o.va == va

/-- A word just cracked stays in the core's decoded-operation cache. -/
def keepOp (va w : Nat) : M Unit := modify fun s =>
  let o : DecOp := { asid := s.me.asid, eff := s.me.vc.eff, va, word := BitVec.ofNat 32 w }
  s.modMyCore fun k => { k with ops := o :: k.ops }

/-- Fetches the word at an address for the running context: from the core's decoded operations, else from the die commons, else by a fill of its page, which counts a slip (R314). -/
def fetchWord (va : Nat) : M Nat := do
  needN (va % 4 == 0) .pcAlign va
  let s ← get
  let w ← meWho
  let l ← coreLoc s.cur.core w va 4 1 .fetch true
  match l with
  | .pool _ _ | .peer _ _ => trapN .trPerm va
  | .mem pa _ =>
    match findOp (← get) va with
    | some o => return o.word.toNat
    | none =>
      let die := Fin.ofNat 8 (dieOf s.cur.core.val)
      let p ← match findCode (← get) die.val w.asid (va / 4096) with
        | some p => pure p
        | none => do
          if physKind (← get) pa == .memory && poisoned (← get) pa 4 then throw (.stopAt .memUe pa)
          let p ← fillCode die w.asid va (pa - pa % 4096)
          modMe fun c => { c with slip := c.slip + 1 }
          pure p
      let x := memRead p.bytes (va % 4096) 4
      keepOp va x
      return x

/-- The causes a fetch raises as FETCH_CAUSE. -/
def fetchCauseOf : Cause → Option FetchCause
  | .vaNoncanon => some .vaNoncanon
  | .pcAlign => some .pcAlign
  | .trNotmapped => some .trNotmapped
  | .trPerm => some .trPerm
  | .pteIllegal => some .pteIllegal
  | .asidInvalid => some .asidInvalid
  | .trPriv => some .trPriv
  | .execLost => some .execLost
  | _ => none

/-- EXEC_LOST in place of TR_NOTMAPPED or TR_PERM on a page an invalidation discarded (R328). -/
def lostCause (lost : Bool) (f : FetchCause) : FetchCause :=
  match lost, f with
  | true, .trNotmapped => .execLost
  | true, .trPerm => .execLost
  | _, f => f

/-- What a turn finds to do. -/
inductive Todo where
  /-- an instruction, or a step that stands for a failed fetch or decode -/
  | run (i : Instr) (s : State)
  /-- nothing more in this turn -/
  | idle (s : State)
  /-- a fetch that ends other than by a cause of FETCH_CAUSE -/
  | ended (e : Exc) (s : State)

/-- What a word decodes to: an instruction, or the step that stands for its decode cause. -/
def decoded (w : BitVec 32) : Instr :=
  match decode w.toNat with
  | .ok i => i
  | .error c => .decodeCause c w

/-- The instruction at the PC of the running context; an instruction that waits is fetched again. -/
def fetchDecode (s : State) : Todo :=
  let pc := s.me.pc
  let page := pc.toNat / 4096
  match fetchWord pc.toNat s with
  | .ok w t => .run (decoded (BitVec.ofNat 32 w)) (t.modMe fun c => { c with lost := c.lost.filter fun p => p != page })
  | .error (.cause c v) t =>
    match fetchCauseOf c with
    | some f => .run (.fetchCause (lostCause (s.me.lost.contains page) f) pc) t
    | none => .ended (.cause c v) t
  | .error e t => .ended e t

/-- The kept entries of a resumption enter ahead of everything else once its traps have been taken (R346). -/
def requeue (x : Ctx) : Ctx :=
  if !x.rejoin || x.inh || !x.pendTraps.isEmpty then x else { x with queue := x.kept ++ x.queue, kept := [], rejoin := false }

/-- What the running context's turn does. Values held back leave the queue to VECTOR_LANE_ADMIT. -/
def nextTodo (s : State) : Todo :=
  if s.me.st != .running then .idle s
  else
    match pendingTrap s s.cur with
    | some t => .idle t
    | none =>
      let s := settleRels (s.modMe requeue) s.cur
      if !s.me.queue.isEmpty && !s.late && !s.me.laneHeld then .run (.vectorLaneAdmit s.cur) s
      else fetchDecode (if s.me.laneHeld then s.modMe (fun c => { c with laneHeld := false }) else s)

/-- Time passes and the step is counted (R45; log 6). -/
def passTime (s : State) : State := { s with tick := s.tick + 1, time := s.time + Config.elapsed s.tick }

end Sys2Proof.Machine
end

