-- ==== Sys2Proof/Machine/Launch.lean ====
section
/-! DEFINITION. How a V node starts on a loop context: its descriptor's fields (R298), the clearing of the core (R42), who is resident beside it (R41), and its launch values (R24, R299, R334). -/

namespace Sys2Proof.Machine

/-! Fields of a descriptor (R298). -/

def dKind (d : BitVec 1024) : Nat := blkField d 0 1

def dDecl (d : BitVec 1024) : Nat := blkField d 1 1 % 4

def dPin (d : BitVec 1024) : Bool := nbit (blkField d 1 1) 2

def dNpred (d : BitVec 1024) : Nat := blkField d 2 2

def dNsucc (d : BitVec 1024) : Nat := blkField d 4 2

def dNops (d : BitVec 1024) : Nat := blkField d 6 2

def dEntry (d : BitVec 1024) : Nat := blkField d 8 8

def dSucc (d : BitVec 1024) : Nat := blkField d 0x10 8

def dBound (d : BitVec 1024) : Nat := blkField d 0x18 8

def dPart (d : BitVec 1024) : Word := BitVec.ofNat 64 (blkField d 0x20 8)

/-- A partition word passes R40. -/
def partOk (p : Word) : Bool := partScr p + partAcc p + partRbk p ≤ 128 && partRbk p % 2 == 0 && wbits p 24 40 == 0

/-! Clearing a pool (R42). -/

/-- The pool and the lane tables cleared to zero. -/
def Core.cleared (k : Core) : Core := { k with pool := [], lanes := [], poison := [], lanePoison := [] }

/-- Whether a core must be cleared before a node of a region with a partition word starts on it. -/
def needsClear (k : Core) (word rcb : Word) : Bool := k.part != word || (k.last.isSome && k.last != some rcb)

/-- The core takes a partition word and a region, cleared when R42 asks for it. -/
def Core.prepare (k : Core) (word rcb : Word) : Core :=
  if needsClear k word rcb then { k.cleared with part := word, last := some rcb } else { k with last := some rcb }

/-- Whether a context's accumulator space lies wholly within ACC (R344). -/
def tilesWhole (part : Word) (lc : Nat) : Bool := 8 * (lc % 4) + 8 ≤ partAcc part

/-- Pool offset of a context's tiles (R38). -/
def tilesOff (part : Word) (lc : Nat) : Nat := partScr part * 65536 + 8 * (lc % 4) * 65536

/-- Bytes of a context's tiles that lie in the accumulator partition (R38). -/
def tilesLen (part : Word) (lc : Nat) : Nat := min 0x80000 ((partScr part + partAcc part) * 65536 - tilesOff part lc)

/-- A pool with a context's tiles put into it. -/
def putTiles (pool : Memory) (part : Word) (lc : Nat) (tiles : Memory) : Memory :=
  memReplace pool (tilesOff part lc) (tilesLen part lc) (memSlice tiles 0 (tilesLen part lc) (tilesOff part lc))

/-- The place of the work parked in place from a loop context (R308). -/
def spotOf (c : CtxId) : CtxId := { c with lc := Fin.ofNat 8 (c.lc.val % 4 + 4) }

/-- First values of the trap registers in a fault domain (R334, R337). -/
def firstTraps (s : State) (fdom : Nat) : TrapRegs :=
  match s.fdTable with
  | none => TrapRegs.reset
  | some tab =>
    let e := tab + 64 * (fdom % 4096)
    { TrapRegs.reset with
      tvec := tvecPut 0 (BitVec.ofNat 64 (ownRead s (e + 0x18) 8))
      status := BitVec.ofNat 64 (ownRead s (e + 0x20) 8) &&& 0xFF00 }

/-! Nodes in a ready pool. -/

/-- A node in a ready pool with its graph. -/
structure Cand where
  ref : NodeRef
  graph : Graph
  node : GNode
  deriving DecidableEq, Repr

/-- An admitted graph. -/
def Graph.admitted (g : Graph) : Bool := !g.spawned && g.dl

/-- The loop contexts of a core that a partition word has areas for (R41). -/
def wordCtxs (word : Word) (core : Fin 1024) : List CtxId := (coreCtxs core).filter fun c => c.lc.val < min 4 (partRbk word / 2)

def residents (s : State) (core : Fin 1024) : List CtxId := (coreCtxs core).filter fun c => (s.ctx c).resident

/-- Work of a core that the scheduler has parked in place: it keeps its loop context (R308, R340). -/
def parkedOn (s : State) (core : Fin 1024) : List Lent := s.lent.filter fun l => l.inPlace && l.home.core == core

/-- The regions of the work a core holds, running or parked. -/
def heldRegions (s : State) (core : Fin 1024) : List Word := (residents s core).map (fun o => (s.ctx o).rcb) ++ (parkedOn s core).map fun l => l.ctx.rcb

/-- Whether R41 lets a node of a region with a word join what a core holds. -/
def joins (s : State) (core : Fin 1024) (word rcb : Word) : Bool := (heldRegions s core).all fun r => (s.core core.val).part == word && r == rcb

/-- Every unit some graph has reserved. -/
def allReserved (s : State) : List RUnit := s.graphs.flatMap fun g => g.2.reserved

/-- Units a node may use: an admitted graph's its own reservations, and after a breach unreserved ones beyond them; a best-effort node every loop context, and the unreserved command and walk contexts (R303, R308, R311). -/
def allowed (s : State) (c : Cand) (u : RUnit) : Bool :=
  if c.graph.admitted then c.graph.reserved.contains u || (c.graph.breached && !(allReserved s).contains u)
  else match u with
    | .ctx _ => true
    | .tug _ | .walk _ => !(allReserved s).contains u

/-! Starting a node. -/

/-- ASID of a node's work: the one recorded for its region (R299). -/
def nodeAsid (s : State) (g : Graph) : BitVec 16 := match s.region g.rcb with | some r => r.asid | none => g.asid

/-- The trap registers a node finds (R334): kept from the last node of its fault domain on the context, else the domain's first values. -/
def launchTraps (s : State) (fdom : Nat) (kept : List Kept) : TrapRegs :=
  match kept.find? fun k => k.fdom == fdom with
  | some k => { TrapRegs.reset with tvec := k.tvec, status := k.status &&& 0xFF00, scratch := k.scratch }
  | none => firstTraps s fdom

/-- Launch values of a V node on a loop context (R24). -/
def launchCtx (s : State) (c : Cand) (x : CtxId) : Ctx :=
  let d := c.node.desc
  let fdom := effFdom s c.graph.rcb
  let kept := (s.ctx x).kept0
  { Ctx.reset with
    st := .running, pc := BitVec.ofNat 64 (dEntry d)
    s := (Ctx.reset.s.set 30 (BitVec.ofNat 64 (blkField d 0x28 8))).set 31 (BitVec.ofNat 64 (blkField d 0x30 8))
    vc := { VCsr.reset with cnt := BitVec.ofNat 2 (dDecl d), eff := BitVec.ofNat 2 (dDecl d) }
    tr := launchTraps s fdom kept, kept0 := kept, asid := nodeAsid s c.graph, rcb := c.graph.rcb, node := some c.ref, fdom }

/-- The accumulators of a loop context start as zero (R24, R38). -/
def clearTiles (k : Core) (lc : Nat) : Core :=
  let lo := tilesOff k.part lc
  let hi := min (lo + 0x80000) ((partScr k.part + partAcc k.part) * 65536)
  { k with pool := memClear k.pool lo (hi - lo) }

/-- A running node, on a unit; no core keeps it as handed over (R304). -/
def runNode (s : State) (c : Cand) (u : RUnit) (left : Nat) : State :=
  let cores := s.cores.map fun (e : Nat × Core) => if e.2.next == some c.ref then (e.1, { e.2 with next := none }) else e
  ({ s with cores } : State).modNode c.ref fun n => { n with st := .running, hold := false, ran := some u, start := s.time, left }

/-- Report of a node that a core refuses (R40); WHERE and TVAL are stated for no such report (log 7). -/
def partReport (s : State) (c : Cand) (x : CtxId) : State :=
  report s (effFdom s c.graph.rcb)
    { code := Cause.partIllegal.code, disp := .kill, origin := 0, who := ctxId (nodeAsid s c.graph) x, place := BitVec.ofNat 64 (Config.free s.tick)
      tval := Config.tval s.tick, gtag := c.graph.gtag, aux := 0 }

/-- Starts a V node on a loop context. -/
def startV (s : State) (c : Cand) (x : CtxId) : State :=
  let word := dPart c.node.desc
  if !partOk word then failNode (partReport s c x) c.ref
  else
    let s := s.modCore x.core.val fun k => clearTiles (k.prepare word c.graph.rcb) x.lc.val
    runNode (s.setCtx x (launchCtx s c x)) c (.ctx x) 0

/-! A node handed over ahead (R304). -/

/-- A node that is still in a ready pool. -/
def readyCand (s : State) (r : NodeRef) : Option Cand :=
  match tabFind s.graphs r.graph, s.gnode r with
  | some g, some n => if g.st == .active && n.st == .ready then some { ref := r, graph := g, node := n } else none
  | _, _ => none

/-- Whether a node can start on a loop context of a core in service. -/
def mayStart (s : State) (c : Cand) (x : CtxId) : Bool :=
  !(s.ctx x).resident && (s.core x.core.val).service == .inService && (wordCtxs (dPart c.node.desc) x.core).contains x &&
    joins s x.core (dPart c.node.desc) c.graph.rcb && allowed s c (.ctx x)

/-- The node that a core was handed ahead starts on a loop context just freed (R304). -/
def startNext (s : State) (x : CtxId) : State :=
  match ((s.core x.core.val).next).bind (readyCand s) with
  | some c => if mayStart s c x then startV s c x else s
  | none => s

end Sys2Proof.Machine
end

