-- ==== Sys2Proof/Machine/Sys.lean ====
section
/-! DEFINITION. System instructions but for SPAWN (R256 to R259, R336, R404, R405), EMUCALL (R380), and the causes of decode and fetch (R121, R122, R328). -/

namespace Sys2Proof.Machine

/-- TRAP (R256). -/
def execTrap (f : A1) (s : State) : Out :=
  scalar (do
    let a ← readS f.sa
    trapV .swTrap a) s

/-- BRKPT (R256). -/
def execBrkpt (f : A1) (s : State) : Out :=
  scalar (do
    let a ← readS f.sa
    trapV .breakpoint a) s

/-- The return of ERET and where it goes. -/
def eretTo (f : A0) : M Word := do
  needPriv 1 (.eret f)
  let c ← getMe
  needN (c.ppriv.toNat ≤ c.priv.toNat) .privInsn ((encode (.eret f)).getD 0)
  waitUnless (!nbit c.tr.cause.toNat 10 || c.queue.isEmpty)
  modMe eretCtx
  return c.tr.epc

/-- ERET (R336): a level above the current one traps. The kept entries go back once the handler's own have run (R431). As an instruction of the handler it leaves the re-fault count (R327). -/
def execEret (f : A0) (s : State) : Out :=
  match eretTo f s with
  | .ok pc t => complete s.me.inh pc t
  | .error e t => scalarExc e t

/-- Waits until every earlier instruction of the context has completed. -/
def awaitAll : M Unit := do
  awaitLanes
  let c ← getMe
  waitUnless c.land.isEmpty

/-- HALT (R256). -/
def execHalt (f : A0) (s : State) : Out :=
  scalar (do
    needPriv 1 (.halt f)
    awaitAll
    drainAll
    modMe fun c => { c.endTraps with st := .halted }) s

/-- YIELD (R256): a pre-emption point is offered, which has no effect of its own. -/
def execYield (_ : A0) (s : State) : Out := scalar (pure ()) s

/-- NOP (R256). -/
def execNop (_ : A0) (s : State) : Out := scalar (pure ()) s

/-- RDTIME (R256). -/
def execRdtime (f : AD) (s : State) : Out :=
  scalar (do
    let s ← get
    writeS f.sd (BitVec.ofNat 64 s.time)) s

/-- The end of a node at NDONE: slots, streams, bindings and lease released, the node retired (R257, R275). -/
def leaveNode (s : State) (c : CtxId) : State :=
  let n := (s.ctx c).node
  let t := vacate s c
  match n with
  | some r => retireNode t r
  | none => t

/-- NDONE (R257): its retirement releases as REL.DOM.V.E does (R275); the node that the core was handed ahead starts on the context it frees (R304). -/
def execNdone (_ : A0) (s : State) : Out :=
  let wait : M Unit := do
    awaitAll
    let s ← get
    waitUnless (enginesDone s s.cur)
    release
  match wait s with
  | .ok _ t => .next (startNext (leaveNode t t.cur) t.cur)
  | .error e t => scalarExc e t

/-- The clock of a core in MHz: the highest lease among its running contexts, within CAP, and the nominal clock without one (R16, R406). -/
def coreClock (s : State) (core : Fin 1024) : Nat :=
  let cap := (s.cluster (clusterOf core.val)).cinch.cap
  min cap ((coreCtxs core).foldl (fun m c =>
    let x := s.ctx c
    match x.st, x.lease with
    | .running, some l => max m l.clock
    | _, _ => m) 3300)

/-- Whether LEASE's operand keeps its layout (R258). -/
def leaseOk (a : Word) : Bool :=
  1 ≤ wbits a 0 16 && wbits a 0 16 ≤ 50000 && 3301 ≤ wbits a 16 12 && wbits a 16 12 ≤ 3800 && wbits a 28 36 == 0

/-- Whether a lease of a clock is granted (R404). -/
def leaseGranted (s : State) (core : Fin 1024) (clock : Nat) : Bool :=
  let k := (s.cluster (clusterOf core.val)).cinch
  let sum := k.milli.foldl (· + ·) 0
  clock ≤ k.lmax && sum * clock * 1000 ≤ 95 * limit10 k * k.milli.length * coreClock s core && k.gap == 0 && clock ≤ k.cap

/-- LEASE (R258, R404). -/
def execLease (f : A2) (s : State) : Out :=
  scalar (do
    let a ← readS f.sa
    awaitS f.sd
    let s ← get
    if s.me.lease.isNone && leaseOk a && leaseGranted s s.cur.core (wbits a 16 12) then
      modMe fun c => { c with lease := some { micros := wbits a 0 16, clock := wbits a 16 12 } }
      writeS f.sd (BitVec.ofNat 64 (wbits a 0 16))
    else writeS f.sd 0) s

/-- UNLEASE (R256). -/
def execUnlease (_ : A0) (s : State) : Out := scalar (modMe fun c => { c with lease := none }) s

/-- A plain doubleword load with LD's checks, for the core itself (R380). -/
def loadD (a : Nat) : M Nat := do
  let l ← scalarLoc a 8 .read
  drainFor l 8
  match ← poisonAt l 8 with
  | some pa => throw (.stopAt .memUe pa)
  | none => scalarRead a l 8 true

/-- CODEBASE of an address space as its entry holds it, valid or not. -/
def codeBaseOf (s : State) (asid : BitVec 16) : Nat := ownRead s (s.local (s.asidTable + 32 * asid.toNat) + 8) 8

/-- EMUCALL (R259, R380). -/
def execEmucall (f : EForm) (s : State) : Out :=
  scalarTo (do
    let sp ← readS 30
    let c ← getMe
    let n := f.n.toNat
    let slot := (sp - 8).toNat
    if n = 0 then
      let p ← loadD slot
      needN (p % 4 == 0) .pcAlign p
      return BitVec.ofNat 64 p
    else
      let s ← get
      let e ← asidEntry c.asid (codeBaseOf s c.asid)
      let t ← loadD e.codeBase
      needN (n < t) .emuRange n
      let p ← loadD (e.codeBase + 8 * n)
      let l ← scalarLoc slot 8 .write
      drainFor l 8
      scalarWrite slot l 8 (c.pc + 4).toNat true
      return BitVec.ofNat 64 p) s

/-- Cause of a static decode check. -/
def decodeCauseOf : DecodeCause → Cause
  | .illZero => .illZero | .illOpc => .illOpc | .illFn => .illFn | .illField => .illField | .illHint => .illHint

/-- DECODE_CAUSE (R121, R122): precise, EPC the word's address, TVAL the word. ILL_VREG and PRIV_INSN, the last two steps of R121, are raised by the instructions themselves. -/
def execDecodeCause (c : DecodeCause) (w : BitVec 32) (s : State) : Out :=
  scalar (trapV (decodeCauseOf c) (w.setWidth 64)) s

/-- Cause of a failed fetch. -/
def fetchCauseCode : FetchCause → Cause
  | .vaNoncanon => .vaNoncanon | .pcAlign => .pcAlign | .trNotmapped => .trNotmapped | .trPerm => .trPerm
  | .pteIllegal => .pteIllegal | .asidInvalid => .asidInvalid | .trPriv => .trPriv | .execLost => .execLost

/-- FETCH_CAUSE (R53, R149, R328): EPC and TVAL are the fetch address, which is the PC. A page of lost code answers one fetch only. -/
def execFetchCause (c : FetchCause) (addr : BitVec 64) (s : State) : Out :=
  scalar (do
    let x ← getMe
    waitUnless x.lanesIdle
    modMe fun x => { x with lost := x.lost.filter fun p => p != addr.toNat / 4096 }
    trapV (fetchCauseCode c) addr) s

end Sys2Proof.Machine
end

