-- ==== Sys2Proof/Machine/Vgather.lean ====
section
/-! DEFINITION. Gathers, scatters, lane tables and vector atomics (R199 to R202). -/

namespace Sys2Proof.Machine

/-- Address of an element: the base plus the index, read as unsigned, times the element size (R199, R202). -/
def gatherVa (l : Lane) (n : Nat) (idx : View) (e : Nat) : Nat := (l.scalar + BitVec.ofNat 64 (idx.at e * n)).toNat

/-- A VTYPE entry of 8, 16 or 32 bits (R199, R201). -/
def needByteEntry (l : Lane) : M Fmt := do
  let k ← needVtypeEntry l
  needU (k.wid == 8 || k.wid == 16 || k.wid == 32) .streamFmt
  return k

/-- The home module of an element, this module for a pool window and where the tables give no page. -/
def homeOf (s : State) (l : Lane) (va : Nat) : Nat :=
  if ownBase ≤ va then s.modId.val
  else match (do pageAddr (← laneWho l) va : M Nat) s with
    | .ok pa _ => paHome pa
    | .error _ _ => s.modId.val

/-- The access of a peer gather's element: the core's own checks, those of VGATH, come first. PEER_UNREACH then stands for a module that cannot be reached, and for another module that refuses the element: for want of memory there, or under its own fencing, which is not this module's state (R200, log 27). -/
def peerRead (l : Lane) (va n : Nat) : M Nat := do
  let s ← get
  let far := homeOf s l va != s.modId.val
  let refused (e : Exc) : Bool := far && (match e with | .cause c _ => c == .moduleLost || c == .trNotmapped | .stopAt _ _ | .wait | .split => false)
  match ← attempt (elemLoc l 0 va n n false .read false) with
  | .error e => if refused e then trapN .peerUnreach va else throw e
  | .ok p =>
    if far && Config.peerRefuses s.tick va then trapN .peerUnreach va
    else
      match ← attempt (laneRead p n) with
      | .error e => if refused e then trapN .peerUnreach va else throw e
      | .ok v => return v

/-- Notes a peer gather in flight: what has still to return (R200, R342). -/
def noteGather (l : Lane) (v : Fin 32) (old : VReg) (es : List Nat) (addr : Nat → Nat) : M Unit := do
  let s ← get
  let homes := es.map fun e => homeOf s l (addr e)
  modMe fun c =>
    match c.queue with
    | e :: _ => { c with gather := c.gather ++ [{ dst := v.val, old, entry := { e with cap := { e.cap with vl := c.vc.vl } }, start := l.vstart, homes := es.zip homes }] }
    | [] => c

/-- VGATH and VGATHP in the lanes (R199, R200): StreamLoad with gathered addresses and no conversion. -/
def gatherRun (f : VS) (peer : Bool) (l : Lane) : M Unit := do
  let k ← needByteEntry l
  let mask ← activeMask l
  decodeSource f.va f.feA
  decodeDest f.vd (l.whole mask (l.nAt k.wid))
  if l.vstart ≥ l.vl then clearVstart
  else
    let c ← getMe
    let idx := sourceView c f.va k.wid
    let n := k.wid / 8
    loadRun l k.wid [f.vd] (writtenElems l mask) true (fun e => do
      let va := gatherVa l n idx e
      if peer then
        let v ← peerRead l va n
        return [v]
      else
        let p ← elemLoc l 0 va n n false .read false
        let v ← laneRead p n
        return [v]) (fun _ => pure ())
    let s ← get
    let es := (writtenElems l mask).filter (· < s.me.vc.vl.toNat)
    if peer && s.late && !es.isEmpty then noteGather l f.vd c.v[f.vd] es (gatherVa l n idx)

/-- What VGATH does in the lanes. -/
def laneVgath (f : VS) : Lane → M Unit := gatherRun f false

/-- VGATH (R199). -/
def execVgath (f : VS) (s : State) : Out := vector (.vgath f) (baseIssue [f.vd.val] f) (laneVgath f) s

/-- What VGATHP does in the lanes. -/
def laneVgathp (f : VS) : Lane → M Unit := gatherRun f true

/-- VGATHP (R200). -/
def execVgathp (f : VS) (s : State) : Out := vector (.vgathp f) (baseIssue [f.vd.val] f) (laneVgathp f) s

/-- What VSCAT does in the lanes (R199): StreamStore with scattered addresses. -/
def laneVscat (f : VS) (l : Lane) : M Unit := do
  let k ← needByteEntry l
  let mask ← activeMask l
  decodeSource f.va f.feA
  decodeDest f.vd false
  if l.vstart ≥ l.vl then clearVstart
  else
    let c ← getMe
    let idx := sourceView c f.va k.wid
    let d := sourceView c f.vd k.wid
    let n := k.wid / 8
    storeRun l (writtenElems l mask) (fun e => do
      let p ← elemLoc l 0 (gatherVa l n idx e) n n false .write false
      locWrite p n (d.at e)) (pure ())

/-- VSCAT (R199). -/
def execVscat (f : VS) (s : State) : Out := vector (.vscat f) (baseIssue [f.vd.val] f) (laneVscat f) s

/-! Lane tables (R201). -/

/-- Where element `e` lies in the core's lane tables; LT_RANGE beyond a table's 4096 bytes. -/
def tableSpot (n : Nat) (idx : View) (e : Nat) : M Nat := do
  needN (idx.at e * n + n ≤ 4096) .ltRange e
  return e % 64 * 4096 + idx.at e * n

/-- SRAM_UE of an access to a poisoned word of a lane table (R347); the manual gives the tables no physical address (log 27). An element is never as wide as a word, so no write heals one. -/
def needTable (a n : Nat) : M Unit := do
  let s ← get
  if s.myCore.lanePoison.any fun u => u * 8 < a + n && a < u * 8 + 8 then throw (.stopAt .sramUe (Config.free s.tick)) else pure ()

def readTable (a n : Nat) : M Nat := do
  needTable a n
  let c ← getCore
  return memRead c.lanes a n

def writeTable (a n v : Nat) : M Unit := do
  needTable a n
  modCore fun c => { c with lanes := memWrite c.lanes a n v }

/-- What VLTLD does in the lanes (R201). -/
def laneVltld (f : VU) (l : Lane) : M Unit := do
  let k ← needByteEntry l
  let mask ← activeMask l
  decodeSource f.va f.feA
  decodeDest f.vd (l.whole mask (l.nAt k.wid))
  if l.vstart ≥ l.vl then clearVstart
  else
    let c ← getMe
    let idx := sourceView c f.va k.wid
    loadRun l k.wid [f.vd] (writtenElems l mask) false (fun e => do
      let a ← tableSpot (k.wid / 8) idx e
      let v ← readTable a (k.wid / 8)
      return [v]) (fun _ => pure ())

/-- VLTLD (R201). -/
def execVltld (f : VU) (s : State) : Out := vector (.vltld f) { regs := [f.vd.val, f.va.val], reads := none, writes := none } (laneVltld f) s

/-- VLTST and VLTADD in the lanes (R201): `put` gives the new code of the old one and the data element. -/
def tableRun (f : VU) (put : Fmt → Nat → Nat → M Nat) (l : Lane) : M Unit := do
  let k ← needByteEntry l
  let mask ← activeMask l
  decodeSource f.va f.feA
  decodeDest f.vd false
  if l.vstart ≥ l.vl then clearVstart
  else
    let c ← getMe
    let idx := sourceView c f.va k.wid
    let d := sourceView c f.vd k.wid
    storeRun l (writtenElems l mask) (fun e => do
      let a ← tableSpot (k.wid / 8) idx e
      let old ← readTable a (k.wid / 8)
      let v ← put k old (d.at e)
      writeTable a (k.wid / 8) v) (pure ())

/-- What VLTST does in the lanes. -/
def laneVltst (f : VU) : Lane → M Unit := tableRun f fun _ _ d => pure d

/-- VLTST (R201). -/
def execVltst (f : VU) (s : State) : Out := vector (.vltst f) { regs := [f.vd.val, f.va.val], reads := none, writes := none } (laneVltst f) s

/-- VLTADD's sum (R201): wrapped for an integer entry, rounded once for a float one, with its flags. -/
def tableAdd (rmo : BitVec 3) (k : Fmt) (old d : Nat) : M Nat := do
  if k.isInt then return intMod k.wid (k.val old + k.val d)
  else
    let c ← getMe
    let mode := roundingMode rmo k
    let a := toWide k old
    let b := toWide k d
    let x := exactOf [a, b] (a.add b (mode == .rdn))
    let r := fromWide x.num k mode c.fc.seed
    modMe fun c => applyRaised c ((Raised.start c.fc.seed).add { r with flags := r.flags ||| x.flags } 1 0 0)
    return r.code

/-- What VLTADD does in the lanes. -/
def laneVltadd (f : VU) (l : Lane) : M Unit := tableRun f (tableAdd l.cap.rmo) l

/-- VLTADD (R201). -/
def execVltadd (f : VU) (s : State) : Out := vector (.vltadd f) { regs := [f.vd.val, f.va.val], reads := none, writes := none } (laneVltadd f) s

/-! Vector atomics (R202). -/

/-- A vector atomic in the lanes: `new` gives the value written of the old one, the data element and the second data element; none when nothing is written. -/
def vamoRun (f : VS) (second : Bool) (new : Fmt → Nat → Nat → Nat → Option Nat) (l : Lane) : M Unit := do
  let k ← needVtypeEntry l
  needKind (k.isInt && k.wid == 32)
  let mask ← activeMask l
  decodeSource f.va f.feA
  decodeDest f.vd false
  let vd2 := Fin.ofNat 32 (f.vd.val + 1)
  if second then decodeSource vd2 false
  if l.vstart ≥ l.vl then clearVstart
  else
    let c ← getMe
    let idx := sourceView c f.va 32
    let d := sourceView c f.vd 32
    let d2 := if second then sourceView c vd2 32 else View.plain []
    loadRun l 32 [f.vd] (writtenElems l mask) false (fun e => do
      let p ← elemLoc l 0 (gatherVa l 4 idx e) 4 4 false .write false
      let old ← laneRead p 4
      match new k old (d.at e) (d2.at e) with
      | some v => locPut p 4 v
      | none => pure ()
      return [old]) (fun _ => pure ())

/-- What VAMOADD does in the lanes. -/
def laneVamoadd (f : VS) : Lane → M Unit := vamoRun f false fun _ old d _ => some ((old + d) % 2 ^ 32)

/-- VAMOADD (R202). -/
def execVamoadd (f : VS) (s : State) : Out := vector (.vamoadd f) (baseIssue [f.vd.val] f) (laneVamoadd f) s

/-- What VAMOMAX does in the lanes. -/
def laneVamomax (f : VS) : Lane → M Unit := vamoRun f false fun k old d _ => some (if k.val old < k.val d then d else old)

/-- VAMOMAX (R202). -/
def execVamomax (f : VS) (s : State) : Out := vector (.vamomax f) (baseIssue [f.vd.val] f) (laneVamomax f) s

/-- What VAMOCAS does in the lanes. -/
def laneVamocas (f : VS) : Lane → M Unit := vamoRun f true fun _ old d d2 => if old = d then some d2 else none

/-- VAMOCAS (R202). -/
def execVamocas (f : VS) (s : State) : Out := vector (.vamocas f) (baseIssue [f.vd.val, f.vd.val + 1] f) (laneVamocas f) s

end Sys2Proof.Machine
end

