-- ==== Sys2Proof/Machine/Lanes.lean ====
section
/-! DEFINITION. The lanes and what comes to a loop context from outside its instructions: admission of queue entries and slabs (R33, R34, R431), retention (R36, R402, R403), values that land (R26, R148, R348), prepared translations (R190), peer gathers (R200), the array (R221, R237), slot fills (R207, R210) and waits (R252, R313). -/

namespace Sys2Proof.Machine

/-- Runs a step on behalf of a context, which is the running one meanwhile. -/
def asCtx (c : CtxId) (x : State → Out) (s : State) : Out :=
  match x { s with cur := c } with
  | .next t => .next { t with cur := s.cur }
  | .fault f => .fault f
  | .refused r => .refused r

/-- What an instruction of the queue does in the lanes or the array. -/
def laneBody : Instr → Lane → M Unit
  | .vadd f => laneVadd f
  | .vsub f => laneVsub f
  | .vmul f => laneVmul f
  | .vmulh f => laneVmulh f
  | .vmacc f => laneVmacc f
  | .vand f => laneVand f
  | .vor f => laneVor f
  | .vxor f => laneVxor f
  | .vsll f => laneVsll f
  | .vsrl f => laneVsrl f
  | .vsra f => laneVsra f
  | .vmin f => laneVmin f
  | .vmax f => laneVmax f
  | .vsadd f => laneVsadd f
  | .vssub f => laneVssub f
  | .vzsub f => laneVzsub f
  | .vfadd f => laneVfadd f
  | .vfsub f => laneVfsub f
  | .vfmul f => laneVfmul f
  | .vfma f => laneVfma f
  | .vfnms f => laneVfnms f
  | .vfdiv f => laneVfdiv f
  | .vfsqrt f => laneVfsqrt f
  | .vfmin f => laneVfmin f
  | .vfmax f => laneVfmax f
  | .vfabs f => laneVfabs f
  | .vfneg f => laneVfneg f
  | .vfrec f => laneVfrec f
  | .vfrsq f => laneVfrsq f
  | .vfexp2 f => laneVfexp2 f
  | .vidx f => laneVidx f
  | .vceq f => laneVceq f
  | .vcne f => laneVcne f
  | .vclt f => laneVclt f
  | .vcle f => laneVcle f
  | .vcltu f => laneVcltu f
  | .vfceq f => laneVfceq f
  | .vfclt f => laneVfclt f
  | .vfcle f => laneVfcle f
  | .vfcun f => laneVfcun f
  | .vband f => laneVband f
  | .mand f => laneMand f
  | .mor f => laneMor f
  | .mxor f => laneMxor f
  | .mnot f => laneMnot f
  | .mpop f => laneMpop f
  | .mfirst f => laneMfirst f
  | .vcvt f => laneVcvt f
  | .vqnt f => laneVqnt f
  | .vdqnt f => laneVdqnt f
  | .vamax f => laneVamax f
  | .vscl f => laneVscl f
  | .vunpk f => laneVunpk f
  | .vpack f => laneVpack f
  | .vencr f => laneVencr f
  | .vencd f => laneVencd f
  | .venct f => laneVenct f
  | .vdec f => laneVdec f
  | .vrenc f => laneVrenc f
  | .vencq f => laneVencq f
  | .vdictExtract f => laneVdictExtract f
  | .vdictReplace f => laneVdictReplace f
  | .vslup f => laneVslup f
  | .vsldn f => laneVsldn f
  | .vcomp f => laneVcomp f
  | .vexpd f => laneVexpd f
  | .vbpfx f => laneVbpfx f
  | .vbrd f => laneVbrd f
  | .viota f => laneViota f
  | .vreds f => laneVreds f
  | .vredmx f => laneVredmx f
  | .vredmn f => laneVredmn f
  | .vfreds f => laneVfreds f
  | .vmvs f => laneVmvs f
  | .vgath f => laneVgath f
  | .vgathp f => laneVgathp f
  | .vscat f => laneVscat f
  | .vltld f => laneVltld f
  | .vltst f => laneVltst f
  | .vltadd f => laneVltadd f
  | .vamoadd f => laneVamoadd f
  | .vamomax f => laneVamomax f
  | .vamocas f => laneVamocas f
  | .vld f => laneVld f
  | .vldb f => laneVldb f
  | .vldseg f => laneVldseg f
  | .vst f => laneVst f
  | .vstseg f => laneVstseg f
  | .vlde f => laneVlde f
  | .vste f => laneVste f
  | .vspl f => laneVspl f
  | .vfil f => laneVfil f
  | .mclaim f => laneMclaim f
  | .mrel f => laneMrel f
  | .mld f => laneMld f
  | .mlds f => laneMlds f
  | .mzero f => laneMzero f
  | .mma f => laneMma f
  | .mmas f => laneMmas f
  | .mslide f => laneMslide f
  | .mprom f => laneMprom f
  | .maccrd f => laneMaccrd f
  | .maccwr f => laneMaccwr f
  | _ => fun _ => pure ()

/-! Slabs (R33). -/

/-- SLAB_FILL (R33): a slab of a vector register, or from number 32 of a mask, that is not resident is filled from its backing, once every lane group of the core is awake (R403); the stall of its context ends. -/
def execSlabFill (c : CtxId) (v : Fin 40) (slab : Fin 32) (s : State) : Out :=
  event (do
    let x := s.ctx c
    let b := (c.lc.val, v.val, slab.val)
    let there := if v.val < 32 then v.val < x.count && slab.val < x.slabs else slab.val < x.slabs / 4
    if there && (s.core c.core.val).retained == 0 && !(s.core c.core.val).slabs.contains b then
      set ((useSlab c.core s b).modCtx c fun x => { x with laneHeld := false })) s

/-! Admission (R33, R431). -/

/-- The head of the running context's queue runs, its slabs made resident. -/
def runWith (e : QEntry) (s : State) : Out :=
  runHead (onHead (laneBody e.instr)) (((headSlabs s.me).map fun b => (s.cur.lc.val, b.1, b.2)).foldl (useSlab s.cur.core) s)

/-- The head of the running context's queue enters the lanes, after what waited for its slots has taken effect (R209). While values are held back, an operation of the array waits for ARRAY_ACCEPT, a slab that is not resident for SLAB_FILL and a lane group in retention for LANE_GROUP_WAKE; otherwise they cost only time. -/
def admitHead (s : State) : Out :=
  let s := settleRels s s.cur
  let c := s.me
  match c.queue with
  | [] => .next s
  | e :: _ =>
    if c.st != .running then .next s
    else if s.late then
      if arrayOp e.instr then .next (laneHold s)
      else if (headSlabs c).all (fun b => s.myCore.slabs.contains (s.cur.lc.val, b.1, b.2)) && s.myCore.retained &&& headGroups c == 0 then runWith e s
      else .next (laneHold s)
    else runWith e s

/-- VECTOR_LANE_ADMIT (R33). -/
def execVectorLaneAdmit (c : CtxId) (s : State) : Out := asCtx c admitHead s

/-! Retention (R36, R402, R403). -/

/-- LANE_GROUP_RETENTION (R402): a group that the last VL write left idle, once the instructions queued by then have completed. -/
def execLaneGroupRetention (c : CtxId) (g : Fin 4) (s : State) : Out :=
  event (modify fun s =>
    let x := s.ctx c
    let bit := BitVec.ofNat 4 (2 ^ g.val)
    if x.retDue.getLsbD g.val && (x.kept ++ x.queue).all (fun e => x.retAt < e.num) then
      (s.modCore c.core.val fun k => { k with retained := k.retained ||| bit }).modCtx c fun x => { x with retDue := x.retDue &&& ~~~bit }
    else s) s

/-- LANE_GROUP_WAKE (R403): a group of the context's core wakes and parity is checked; `lost` has a bit for each register of the core whose content did not survive. The context's stall ends. -/
def execLaneGroupWake (c : CtxId) (g : Fin 4) (lost : BitVec 128) (s : State) : Out :=
  event (modify fun s =>
    if (s.core c.core.val).retained.getLsbD g.val then
      (wakeGroups c.core (BitVec.ofNat 4 (2 ^ g.val)) lost s).modCtx c fun x => { x with laneHeld := false }
    else s) s

/-! Values that land (R26, R148, R348). -/

/-- VALUE_LANDS (R26): `i` below 32 is a scalar register, 32 and above a vector register. -/
def execValueLands (c : CtxId) (i : Nat) (s : State) : Out :=
  event (modify fun s =>
    if i < 32 then landScalar c (Fin.ofNat 32 i) s
    else if i < 64 && !(s.ctx c).gather.any (fun e => e.dst == i - 32) then
      landVector c (Fin.ofNat 32 i) s
    else s) s

/-- PEER_GATHER_RETURN (R200): module `m`'s packed vector of the oldest VGATHP that awaits it returns; with the last one the destination is full. -/
def execPeerGatherReturn (c : CtxId) (m : Nat) (s : State) : Out :=
  event (modify fun s =>
    match (s.ctx c).gather.find? fun e => e.homes.any fun h => h.2 == m with
    | none => s
    | some e =>
      let left := e.homes.filter fun h => h.2 != m
      if left.isEmpty then landVector c (Fin.ofNat 32 e.dst) (s.modCtx c fun x => { x with gather := x.gather.filter fun k => k != e })
      else s.modCtx c fun x => { x with gather := x.gather.map fun k => if k == e then { e with homes := left } else k }) s

/-! Prepared translations (R190). -/

/-- The first `n` distinct pages of addresses. -/
def firstPages : Nat → List Nat → List Nat → List Nat
  | _, acc, [] => acc.reverse
  | n, acc, va :: vas =>
    if acc.length ≥ n then acc.reverse
    else if acc.contains (va / 4096) then firstPages n acc vas
    else firstPages n (va / 4096 :: acc) vas

/-- Most positions the engine looks ahead of a stream's own. -/
def aheadMax : Nat := 16384

/-- The next 4 pages of a stream. -/
def nextPages (c : Ctx) (r : QReg) : List Nat :=
  if r.desc.lay then
    match r.block with
    | some b => if r.atEnd then [] else (List.range 4).map fun i => b.toNat / 4096 + i
    | none => []
  else
    let k := fmtOf (entWord c.ents r.desc.ent)
    let packed := if k.valid && (k.wid == 4 || k.wid == 6) then some k.wid else none
    let n := min aheadMax (r.desc.total - r.pos.toNat)
    firstPages 4 [] ((List.range n).map fun i => (elemSpot r.desc packed c.vc.vs (r.pos.toNat + i) 0).va)

/-- Prepares a page: its translation is held with the stream, or its fault is. -/
def preparePage (w : Who) (acc : Acc) (r : QReg) (page : Nat) : M QReg := do
  let va := page * 4096
  if ownBase ≤ va || r.prep.any (transHit w va) then return r
  else
    let s ← get
    let failed : QReg := { r with held := match r.held with | some h => some h | none => some (BitVec.ofNat 64 va) }
    match ← attempt (walkVa w va) with
    | .ok t => if (leafCause s w va acc t).isNone then return { r with prep := (t :: r.prep).take 4 } else return failed
    | .error _ => return failed

/-- STREAM_WALK_AHEAD (R190): translations of the next 4 pages, no data; a fault is held and raises nothing. -/
def execStreamWalkAhead (c : CtxId) (q : Fin 16) (s : State) : Out :=
  event (do
    let x := s.ctx c
    let r := x.q[q]
    if r.bound then
      let w : Who := { asid := x.asid, priv := x.priv, holder := .core c.core.val }
      let r' ← foldM' (preparePage w (if r.desc.writes then .write else .read)) r (nextPages x r)
      modify fun s => s.modCtx c fun x => { x with q := x.q.set q r' }) s

/-! The array (R221, R237). -/

/-- The follow-ons handed to a core's array, oldest first. -/
def pendCmd (s : State) (e : Nat × Nat) : Option (TugId × TugCmd) :=
  let t : TugId := { cluster := Fin.ofNat 128 (e.1 / 16), t := Fin.ofNat 16 e.1 }
  ((s.tug t).queue.find? fun k => k.num == e.2).map fun k => (t, k)

/-- What a follow-on does to the array: its checks, then its effect (R237). -/
def followRun (c : CtxId) (k : TugCmd) : M Unit := do
  let p : Place := .cmd k.after k.seq
  let prod (fn : MxFn) (f : MmaForm) : M Unit := do
    let plan ← productPlan fn c p k.ents f.acc f.slotA f.slotB f.p
    productEffect fn c f.acc f.slotA f.slotB f.p plan
  match decode (followWord k) with
  | .ok (.mma f) => prod .mma f
  | .ok (.mmas f) => prod .mmas f
  | .ok (.mslide f) => prod .mslide f
  | .ok (.mprom f) => do
    let off ← promoteCheck c p f.acc f.slotA f.slotB
    promoteEffect c f.acc f.slotA f.slotB off
  | .ok _ | .error _ => pure ()

/-- Whether an instruction of the queue fills, claims or frees a slot. -/
def touchesSlot (n : Fin 32) : Instr → Bool
  | .mld f => f.slot == n
  | .mlds f => f.slot == n
  | .mclaim f => (claimSet f.slot f.w).contains n
  | .mrel f => f.slot == n
  | _ => false

/-- Whether a follow-on must wait for earlier fills, claims and releases of its slots that are still queued (R220). -/
def followWaits (s : State) (c : CtxId) (k : TugCmd) : Bool :=
  (s.ctx c).unrun.any fun e => e.num ≤ k.after && (followSlots k).any fun n => touchesSlot n e.instr

/-- An entry that stands for a follow-on among the array's operations: its instruction and the entries it captured. -/
def followEntry (s : State) (c : CtxId) (k : TugCmd) : Option QEntry :=
  match decode (followWord k) with
  | .ok i => some { instr := i, pc := 0, cap := { capture (s.ctx c) with ents := k.ents }, scalar := 0, priv := k.priv, noTrim := false, num := k.after, stale := k.stale }
  | .error _ => none

/-- A follow-on of work parked in place acts on the tiles kept for it (R308, R343). -/
def onTiles (c : CtxId) (x : M Unit) : M Unit := do
  let s ← get
  match s.lent.find? fun l => l.inPlace && (spotOf l.home) == c with
  | none => x
  | some l =>
    let k := s.core c.core.val
    let lo := tilesOff k.part c.lc.val
    let n := tilesLen k.part c.lc.val
    set (s.modCore c.core.val fun k => { k with pool := putTiles k.pool k.part c.lc.val l.tiles })
    x
    modify fun t =>
      let tiles := memSlice (t.core c.core.val).pool lo n 0
      { t.modCore c.core.val fun z => { z with pool := putTiles z.pool z.part c.lc.val (memSlice k.pool lo n 0) } with
        lent := t.lent.map fun m => if m == l then { l with tiles } else m }

/-- Offers a follow-on to the array; whether it was taken. -/
def tryFollow (core : Fin 1024) (e : Nat × Nat) : M Bool := do
  let s ← get
  match pendCmd s e with
  | none => return false
  | some (t, k) =>
    match k.issuer with
    | none => return false
    | some c =>
      if followWaits s c k then return false
      else
        let taken : M Unit :=
          modify fun s =>
            (s.modTug t fun x => { x with queue := x.queue.map fun j => if j.num == k.num then { j with followed := true } else j }).modCore core.val
              fun z => { z with arr := { z.arr with pend := z.arr.pend.filter fun p => p != e } }
        match ← attempt (onTiles c (followRun c k)) with
        | .ok _ =>
          arrayTake c (followEntry s c k) s.late
          taken
          return true
        | .error .wait =>
          set s
          return false
        | .error x =>
          set s
          arrayTrap c
          taken
          let s ← get
          match tugFaultOf s 0 x with
          | some f => set (tugReport s t k 2 (0x1000 + core.val) (s.core core.val).arr.issued f)
          | none => pure ()
          return true

/-- Offers the pending follow-ons in turn. -/
def tryFollows (core : Fin 1024) : List (Nat × Nat) → M Bool
  | [] => pure false
  | e :: es => do if ← tryFollow core e then return true else tryFollows core es

/-- The lowest loop context whose queue's head is an operation of the array. -/
def arrayHead (s : State) (core : Fin 1024) : Option CtxId :=
  (coreCtxs core).find? fun c =>
    (s.ctx c).st == .running && match (s.ctx c).queue with | e :: _ => arrayOp e.instr | [] => false

/-- ARRAY_ACCEPT (R221): the array accepts a follow-on that can go ahead, else the head of a loop context's queue. -/
def execArrayAccept (core : Fin 1024) (s : State) : Out :=
  match tryFollows core (s.core core.val).arr.pend s with
  | .error _ t => .next t
  | .ok true t => .next t
  | .ok false t =>
    match arrayHead t core with
    | none => .next t
    | some c =>
      asCtx c (fun t =>
        match t.me.queue with
        | e :: _ => runHead (onHead (laneBody e.instr)) t
        | [] => .next t) t

/-- ARRAY_OP_COMPLETE (R221): the oldest operation completes, a signal once what it waits for has been done, and the timeline reaches its number. -/
def execArrayOpComplete (core : Fin 1024) (s : State) : Out := event (modify (arrayNext core)) s

/-- SLOT_FILL_LANDS (R207, R210): the last line of an MLD lands; the slot is full unless a Tug command still fills it. -/
def execSlotFillLands (core : Fin 1024) (slot : Fin 32) (s : State) : Out := event (modify (landSlot core slot)) s

/-! Waits (R252, R313). -/

/-- The waits of R252 and the other instructions that wait on what others do, executed again. -/
def releaseOf (i : Instr) (s : State) : Out :=
  match i with
  | .tlwait f => execTlwait f s
  | .drawait f => execDrawait f s
  | .barw f => execBarw f s
  | .acq f => execAcq f s
  | .tagwany f => execTagwany f s
  | .tagwall f => execTagwall f s
  | .fence f => execFence f s
  | .ndone f => execNdone f s
  | _ => .next (s.modMe fun x => { x with waiting := false })

/-- WAIT_RELEASE (R313): a waiting context goes on once its condition holds. -/
def execWaitRelease (c : CtxId) (s : State) : Out :=
  if (s.ctx c).st == .running && (s.ctx c).waiting then
    asCtx c (fun t =>
      match fetchDecode t with
      | .run i u => releaseOf i u
      | .idle u => .next u
      | .ended _ _ => .next t) s
  else .next s

end Sys2Proof.Machine
end

