-- ==== Sys2Proof/Machine/Control.lean ====
section
/-! DEFINITION. What supervisor code asks of the module through its ports: invalidation (R325, R328), and the control of loop contexts (R340): pre-emption points (R341), parking, save images (R44, R344, R421, R423), resumption (R345, R346, R422), kills; and the fill of code pages (R329). -/

namespace Sys2Proof.Machine

/-! Code pages (R329). -/

/-- The fault domain an address space fetches for: that of a context of the die, or of any region installed with the ASID. -/
def fetchDomain (s : State) (asid : BitVec 16) : Option Nat := (s.regions.find? fun r => r.asid == asid).map fun r => effFdom s r.va

/-- A page whose hash does not match ends the fault domain of whoever fetches from it (R329): of a context of the die that runs in the address space, else of a region that has the ASID; the report then names the Saddler, and the manual gives its WHO no value (log 35). -/
def codeHashEnd (s : State) (die : Fin 8) (asid : BitVec 16) (va : Nat) : State :=
  let at' : Word := BitVec.ofNat 64 va
  match (allCtxs s).find? fun c => (s.ctx c).resident && (s.ctx c).asid == asid && dieOf c.core.val == die.val with
  | some c => raise s c .codeHash at' at' at' 0 false
  | none =>
    match fetchDomain s asid with
    | some f =>
      let r : Report := { code := Cause.codeHash.code, disp := .endDomain, origin := 4, who := BitVec.ofNat 64 (Config.free s.tick), place := at', tval := at', gtag := 0, aux := 0 }
      endDomain (report s f r) f
    | none => s

/-- Whether a page of this kind can be filled into the commons. -/
def fillable : PaKind → Bool
  | .lost | .absent | .drive _ _ => false
  | .memory | .pool _ _ | .inval | .control => true

/-- The page at `a` of an address space is filled into a die's commons, when it can be. -/
def fillPage (die : Fin 8) (asid : BitVec 16) (a : Nat) (s : State) : State :=
  let w : Who := { asid, priv := 2, holder := .nobody }
  let fill : M Unit := do
    let t ← walkVa w a
    let s ← get
    let pa := transPa t a
    if (leafCause s w a .fetch t).isNone && fillable (physKind s pa) && !poisoned s (pa / 4096 * 4096) 4096 then
      discard (fillCode die asid a (pa / 4096 * 4096))
  match fill s with
  | .ok _ t => t
  | .error (.cause .codeHash _) t => codeHashEnd t die asid a
  | .error _ t => t

/-- CODE_FILL (R329): the page at `va` of an address space is filled into a die's commons and its hash checked. -/
def execCodeFill (die : Fin 8) (asid : BitVec 16) (va : BitVec 64) (s : State) : Out := .next (fillPage die asid (va.toNat % 2 ^ 56) s)

/-! Invalidation (R325, R328). -/

/-- An invalidation request's block. -/
structure Inval where
  asid : BitVec 16
  allVa : Bool
  allAsid : Bool
  global : Bool
  span : Nat
  va : Nat
  deriving DecidableEq, Repr

/-- Reads a block of 64 bytes, byte 0 in the low bits. -/
def block64 (s : State) (pa : Nat) : Nat := ownRead s pa 64

/-- The request in a block; none when the block breaks the layout of R325. -/
def invalOf (s : State) (pa : Nat) : Option Inval :=
  let b := block64 s pa
  let f (off n : Nat) : Nat := nbits b (8 * off) (8 * n)
  let fl := f 2 2
  if pa % 64 == 0 && paHome pa == s.modId.val && physKind s pa == .memory && fl < 8 && 12 ≤ f 4 1 && f 4 1 ≤ 56 && f 5 3 == 0 &&
      f 8 8 % 2 ^ f 4 1 == 0 && f 0x18 40 == 0 then
    some { asid := BitVec.ofNat 16 (f 0 2), allVa := nbit fl 0, allAsid := nbit fl 1, global := nbit fl 2, span := f 4 1, va := f 8 8 }
  else none

/-- Whether a translation is of the span. -/
def Inval.hits (q : Inval) (t : Trans) : Bool :=
  (if t.glob then q.global else q.allAsid || t.asid == q.asid) && (q.allVa || (t.va < q.va + 2 ^ q.span && q.va < t.va + 2 ^ t.log2))

/-- Whether a code page is of the span. -/
def Inval.hitsPage (q : Inval) (asid : BitVec 16) (page : Nat) : Bool :=
  (q.allAsid || q.global || asid == q.asid) && (q.allVa || (q.va ≤ page * 4096 && page * 4096 < q.va + 2 ^ q.span))

/-- A context whose PC lies in a page that loses its decoded operations notes it (R328). -/
def noteLost (s : State) (q : Inval) (c : CtxId) (x : Ctx) : Ctx :=
  let page := x.pc.toNat / 4096
  let there := (findCode s (dieOf c.core.val) x.asid page).isSome || (s.core c.core.val).ops.any fun o => o.asid == x.asid && o.va / 4096 == page
  if q.hitsPage x.asid page && there then { x with lost := page :: x.lost.filter fun p => p != page } else x

/-- Every holder drops its translations of the span, and decoded operations from it are discarded (R321, R328). -/
def dropSpan (s : State) (q : Inval) : State :=
  let keep (l : List Trans) : List Trans := l.filter fun t => !q.hits t
  let s1 := (allCtxs s).foldl (fun t c => t.modCtx c fun x =>
    let x := noteLost s q c x
    { x with q := x.q.map fun r => { r with prep := keep r.prep } }) s
  { s1 with
    cores := s1.cores.map fun e => (e.1, { e.2 with tlb := keep e.2.tlb, ops := e.2.ops.filter fun o => !q.hitsPage o.asid (o.va / 4096) })
    commons := s1.commons.map fun e => (e.1, keep e.2)
    tugs := s1.tugs.map fun e => (e.1, { e.2 with tlb := keep e.2.tlb })
    walks := s1.walks.map fun e => (e.1, if e.2.busy then e.2 else { e.2 with tlb := keep e.2.tlb })
    code := s1.code.filter fun p => !q.hitsPage p.asid p.page }

/-- Lands every beat of a command that has started. -/
def landAll (t : TugId) (n : Nat) : Nat → M Unit
  | 0 => pure ()
  | fuel + 1 => do
    let s ← get
    match (s.tug t).queue.find? fun k => k.num == n with
    | some k =>
      if k.started && !k.finished then
        nextBeat t k
        landAll t n fuel
    | none => pure ()

/-- Every access under way of the commands of an address space lands (R325). -/
def landCommands (q : Inval) : M Unit := do
  let s ← get
  forM' (allTugs s) fun t => forM' (s.tug t).queue fun k =>
    if q.allAsid || q.global || k.asid == q.asid then landAll t k.num (k.out.length + 1) else pure ()

/-- Whether an access under way still uses a translation of the span: an append or a refit that holds one, or a store of a context of the address space that has yet to be performed in memory (R281, R325). -/
def Inval.waits (q : Inval) (s : State) : Bool :=
  (s.walks.any fun e => e.2.busy && e.2.tlb.any q.hits) ||
    s.ctxs.any fun e => (q.allAsid || q.global || e.2.asid == q.asid) && e.2.stores.any fun p => match p.loc with | .mem _ _ => true | .pool _ _ | .peer _ _ => false

/-- INVALIDATION_REQUEST (R325): the oldest request is carried out, and DONE written: 1, or 2 when the block breaks its layout. While an access under way holds a translation of the span, the request stays and DONE is yet to come. -/
def execInvalidationRequest (pa : Nat) (s : State) : Out :=
  event (do
    if s.invals.head? == some pa then
      let done (v : Nat) : M Unit := modify fun s => ownWrite { s with invals := s.invals.tail } (pa + 0x10) 8 v
      match invalOf s pa with
      | none => done 2
      | some q =>
        modify fun s => dropSpan s q
        landCommands q
        let s ← get
        if q.waits s then pure () else done 1) s

/-! Pre-emption points (R341). -/

/-- The registers written back: VDIRTY clear, lane groups awake (R341, R403). -/
def Ctx.clean (x : Ctx) : Ctx :=
  { x with
    retDue := 0, waiting := false, laneHeld := false
    v := x.v.map fun r => { r with dirty := false }
    vc := { x.vc with vdirty := 0 } }

/-- Where a vector register's image begins in the context area (R44). -/
def imageAt (x : Ctx) (i : Nat) : Nat := i * (65536 / x.count)

/-- Bytes of register `i`'s slabs that are written back: those below a dead tail (R35, R341). -/
def Ctx.backOf (x : Ctx) (i : Nat) : Nat := ((x.deadTails.find? fun d => d.1 == i).map fun d => min x.vlenb (256 * d.2)).getD x.vlenb

/-- Under ERULE.TD the slabs of a dirty plain register that hold no element below VL are not written back (R341): they are dead, and read as zero (R35, R94). -/
def Ctx.deaden (x : Ctx) : Ctx :=
  if nbit x.vc.erule.toNat 4 then
    let k := tailSlab x.vc.vl.toNat x.liveSew
    let dies (i : Nat) : Bool :=
      let r := x.v[Fin.ofNat 32 i]
      r.dirty && r.kind == .plain && k < x.slabs && !x.deadTails.any fun d => d.1 == i && d.2 ≤ k
    { x with
      v := Vector.ofFn fun i : Fin 32 => if dies i.val then { x.v[i] with img := BitVec.ofNat _ ((x.v[i]).img.toNat % 2 ^ (2048 * k)) } else x.v[i]
      deadTails := ((List.range 32).filter dies).map (fun i => (i, k)) ++ x.deadTails.filter fun d => !dies d.1 }
  else x

/-- Register `i`'s image as its backing takes it, by offset, bytes and value. -/
def regField (x : Ctx) (i : Nat) : Nat × Nat × Nat := (imageAt x i, x.backOf i, (x.v[Fin.ofNat 32 i]).img.toNat % 2 ^ (8 * x.backOf i))

/-- The mask images of a context area. -/
def maskFields (x : Ctx) : List (Nat × Nat × Nat) := x.m.toList.zipIdx.map fun k => (0x10000 + 2048 * k.2, x.vlmax / 32, k.1.toNat % 2 ^ (x.vlmax / 4))

/-- The listed bytes of a number at an address. -/
def cellsOf (a n v : Nat) : Memory := (numBytes n v).zipIdx.filterMap fun b => if b.1 = 0 then none else some (a + b.2, b.1)

/-- Puts a number's bytes into a memory. -/
def putNum (m : Memory) (p : Nat × Nat × Nat) : Memory := memReplace m p.1 p.2.1 (cellsOf p.1 p.2.1 p.2.2)

/-- Writes fields of a context's area into its core's pool. -/
def putArea (s : State) (c : CtxId) (fs : List (Nat × Nat × Nat)) : State :=
  s.modCore c.core.val fun k => { k with pool := fs.foldl (fun m p => putNum m (areaBase k.part c.lc.val + p.1, p.2.1, p.2.2)) k.pool }

/-- Writes back the dirty slabs of a context: those of its dirty registers, and its masks. -/
def writeBack (s : State) (c : CtxId) : State :=
  let x := s.ctx c
  putArea s c (((List.range x.count).filter fun i => (x.v[Fin.ofNat 32 i]).dirty).map (regField x) ++ maskFields x)

/-- Loads that trim (R154). -/
def trimLoad : Instr → Bool
  | .vld _ | .vldb _ | .vldseg _ | .vgath _ | .vgathp _ => true
  | _ => false

/-- The head of the queue as it stops: a trimming load whose granted length is fixed has it as its VL and does not trim again (R342). -/
def fixGrant (s : State) (e : QEntry) : QEntry :=
  if trimLoad e.instr && Config.grantFixed s.tick then
    match laneBody e.instr (laneOf s.me e) (s.modMe fun x => { x with vc := { x.vc with vl := e.cap.vl } }) with
    | .ok _ t => { e with noTrim := true, cap := { e.cap with vl := t.me.vc.vl } }
    | .error _ _ => e
  else e

/-- The running context's head with its granted length, which VL takes when it is shorter. -/
def withHead (e e' : QEntry) (s : State) : State :=
  s.modMe fun x => { x with queue := e' :: x.queue.tail, vc := { x.vc with vl := if e'.cap.vl = e.cap.vl then x.vc.vl else e'.cap.vl } }

/-- The youngest entry in the lanes, when it is divisible, stops after its last whole slab (R341); how many it has completed is a free value, 0 when no entry is in the lanes. -/
def splitHead (s : State) (c : CtxId) : State :=
  let s0 := { s with cur := c, late := false }
  match s0.me.queue with
  | [] => s
  | e :: _ =>
    let e' := fixGrant s0 e
    let w := (fmtOf (entWord e.cap.ents (wbits e.cap.vtype 0 4))).wid
    let k := 2048 * Config.laneSlabs s.tick / w
    if s0.me.st != .running || !divisible e.instr || k ≤ s0.me.vc.vstart.toNat then s
    else
      let s1 := withHead e e' (((headSlabs s0.me).map fun b => (c.lc.val, b.1, b.2)).foldl (useSlab c.core) s0)
      match laneBody e.instr { laneOf s1.me e' with stop := if k < e'.cap.vl.toNat then some k else none } s1 with
      | .ok _ t => { laneRetire t with cur := s.cur, late := s.late }
      | .error .split t => { t with cur := s.cur, late := s.late }
      | .error _ _ => s

/-- Whether a peer gather is the youngest entry that has entered the lanes. -/
def Ctx.youngest (x : Ctx) (g : PeerGather) : Bool :=
  match x.queue with
  | e :: _ => e.num == g.entry.num + 1
  | [] => x.vIn == g.entry.num

/-- A VGATHP whose elements have not all returned stops at the lowest element group that lacks one: the register keeps its old elements from there on, and the entry is the head of the queue again, its granted length fixed (R342). -/
def stopGather (s : State) (c : CtxId) : State :=
  match (s.ctx c).gather.getLast? with
  | none => s
  | some g =>
    if g.homes.isEmpty || !(s.ctx c).youngest g then s
    else
      let w := (fmtOf (entWord g.entry.cap.ents (wbits g.entry.cap.vtype 0 4))).wid
      let low := g.homes.foldl (fun m h => min m h.1) (g.homes.headD (0, 0)).1
      let k := max g.start (low / (2048 / w) * (2048 / w))
      let dst := Fin.ofNat 32 g.dst
      let back : M Unit := do
        let x ← getMe
        let l := { laneOf x g.entry with vstart := g.start }
        let mask ← activeMask l
        let got := sourceView x dst w
        modMe fun x =>
          { x with
            v := x.v.set dst { g.old with full := true }
            vland := x.vland.filter fun n => n.dst != g.dst
            gather := x.gather.dropLast
            queue := { g.entry with noTrim := true } :: x.queue }
        if g.start < k then loadWrite l w k false [dst] (((writtenElems l mask).filter (· < k)).map fun e => (e, [got.at e])) else pure ()
        setVstart k
      match back { s with cur := c, late := false } with
      | .ok _ t => { t with cur := s.cur, late := s.late }
      | .error _ _ => s

/-- PREEMPTION_POINT (R341): a wait is abandoned, an ACQ losing its place (R252); stores are performed, the lanes and the array drained, the youngest divisible entry stopped, the dirty slabs written back, every lane group awake for it (R403). -/
def preempt (s : State) (c : CtxId) : State :=
  let s0 := performStores (leaveWait s c) c
  let s1 := stopGather s0 c
  let s2 := landCtx s1 c
  let s3 := if (s1.ctx c).queue.length = (s0.ctx c).queue.length then splitHead s2 c else s2
  let s4 := (wakeAll (settleRels s3 c) c.core).modCtx c Ctx.deaden
  (writeBack s4 c).modCtx c Ctx.clean

/-! Save images (R44, R344). -/

/-- The record of a stream register (R37); the manual gives it no layout (log 15): the descriptor, with the position, whether a fault is held, and a block's address in bits it leaves zero. What does not fit is in the core's own area. -/
def QReg.record (r : QReg) : List (Nat × Nat) :=
  if r.bound then
    let blk := if r.desc.lay then r.block else none
    [(0, wbits r.desc.base 0 56 + 2 ^ 56 + r.held.isSome.toNat * 2 ^ 57 + blk.isSome.toNat * 2 ^ 58), (8, wbits r.desc.ctl 0 16 + 2 ^ 16 * r.pos.toNat),
      (16, (r.desc.count.toList.zipIdx.map fun x => x.1.toNat * 2 ^ (32 * x.2)).foldl (· + ·) 0 % 2 ^ 64),
      (24, (r.desc.count.toList.zipIdx.map fun x => x.1.toNat * 2 ^ (32 * x.2)).foldl (· + ·) 0 / 2 ^ 64)] ++
      r.desc.stride.toList.zipIdx.map fun x => (32 + 8 * x.2, if x.2 = 1 then (match blk with | some b => b.toNat | none => x.1.toNat) else x.1.toNat)
  else [(8, 2 ^ 16 * r.pos.toNat)]

/-- A stream register from its record. -/
def qregOf (v : Nat) : QReg :=
  let w (i : Nat) : Nat := nbits v (64 * i) 64
  let pos := BitVec.ofNat 48 (w 1 / 2 ^ 16)
  if nbit (w 0) 56 then
    let d := descOf v
    let blk := nbit (w 0) 58
    let d1 : Desc := { d with base := BitVec.ofNat 64 (w 0 % 2 ^ 56), ctl := BitVec.ofNat 64 (w 1 % 2 ^ 16), stride := if blk then d.stride.set 1 0 else d.stride }
    { QReg.bind d1 with
      pos, held := if nbit (w 0) 57 then some 0 else none
      block := if blk then some (BitVec.ofNat 64 (w 5)) else if d1.lay then none else some d1.base }
  else { QReg.reset with pos }

/-- Code of a tile's kind in the core's own area (log 15). -/
def TileKind.code : TileKind → Nat
  | .none => 0 | .fp32 => 1 | .int32 => 2

def kindOfTile (n : Nat) : TileKind := match n with | 1 => .fp32 | 2 => .int32 | _ => .none

/-- A kept entry in the core's own area (log 15). -/
def QEntry.record (e : QEntry) : List (Nat × Nat × Nat) :=
  [(0, 4, (encode e.instr).getD 0), (4, 1, e.noTrim.toNat + 2 * e.stale.toNat), (5, 1, e.priv.toNat), (6, 1, e.cap.rmo.toNat), (7, 1, e.cap.xsel.toNat), (8, 8, e.pc.toNat),
    (16, 8, e.scalar.toNat), (24, 8, e.num), (32, 8, e.cap.vl.toNat), (40, 8, e.cap.vshape.toNat), (48, 8, e.cap.vtype.toNat), (56, 8, e.cap.vm.toNat),
    (64, 8, e.cap.vs.toNat), (72, 8, e.cap.xmr.toNat), (80, 8, e.cap.erule.toNat)] ++ e.cap.ents.toList.zipIdx.map fun x => (88 + 8 * x.2, 8, x.1.toNat)

/-- A kept entry from its record; one whose word no longer decodes is dropped. -/
def entryOf (m : Memory) (a : Nat) : Option QEntry :=
  let f (off n : Nat) : Nat := memRead m (a + off) n
  let w (off : Nat) : Word := BitVec.ofNat 64 (f off 8)
  match decode (f 0 4) with
  | .error _ => none
  | .ok i =>
    some
      { instr := i, pc := w 8, scalar := w 16, priv := BitVec.ofNat 2 (f 5 1), noTrim := nbit (f 4 1) 0, stale := nbit (f 4 1) 1, num := f 24 8
        cap :=
          { vl := w 32, vshape := w 40, vtype := w 48, vm := w 56, vs := w 64, xmr := w 72, erule := w 80, rmo := BitVec.ofNat 3 (f 6 1), xsel := BitVec.ofNat 5 (f 7 1)
            ents := Vector.ofFn fun i : Fin 8 => w (88 + 8 * i.val) } }

/-! The core's own area (R44; log 15): its kept entries, the values its streams have read early, and its other fields, by offset. -/

def keptOff : Nat := 0x14D40

def earlyOff : Nat := 0x19940

def bookOff : Nat := 0x1F000

/-- Values read early that lie at a constant distance: the stream, the key of the first, the distance of the keys, the bytes of each, and their bytes. -/
structure EarlyGroup where
  q : Nat
  key : Nat
  stride : Nat
  len : Nat
  runs : List (List Byte)
  deriving DecidableEq, Repr

/-- Adjoining bytes as runs. -/
def runsOfBytes (l : List (Nat × Byte)) : List (Nat × List Byte) :=
  (l.foldl (fun acc b =>
    match acc with
    | (k, bs) :: rest => if b.1 = k + bs.length then (k, bs ++ [b.2]) :: rest else (b.1, [b.2]) :: acc
    | [] => [(b.1, [b.2])]) ([] : List (Nat × List Byte))).reverse

/-- A run joins a group of its length at the group's distance, which the second run fixes. -/
def EarlyGroup.take (g : EarlyGroup) (r : Nat × List Byte) : Option EarlyGroup :=
  let n := g.runs.length
  if r.2.length != g.len then none
  else if n = 1 && g.key < r.1 && r.1 < g.key + 2 ^ 32 then some { g with stride := r.1 - g.key, runs := g.runs ++ [r.2] }
  else if r.1 = g.key + n * g.stride then some { g with runs := g.runs ++ [r.2] }
  else none

/-- The groups of a stream register's early values. -/
def groupsOf (q : Nat) (l : List (Nat × Byte)) : List EarlyGroup :=
  let new (r : Nat × List Byte) : EarlyGroup := { q, key := r.1, stride := 0, len := r.2.length, runs := [r.2] }
  ((runsOfBytes l).foldl (fun acc r =>
    match acc with
    | g :: rest => (match g.take r with | some h => h :: rest | none => new r :: acc)
    | [] => [new r]) ([] : List EarlyGroup)).reverse

/-- Bytes of a group's record. -/
def EarlyGroup.size (g : EarlyGroup) : Nat := 24 + g.len * g.runs.length

/-- The records of groups, from an offset. -/
def groupFields : Nat → List EarlyGroup → List (Nat × Nat × Nat)
  | _, [] => []
  | off, g :: gs =>
    [(off, 8, g.key), (off + 8, 4, g.stride), (off + 12, 4, g.runs.length), (off + 16, 4, g.len), (off + 20, 4, g.q + 1),
      (off + 24, g.len * g.runs.length, pack 8 (g.runs.flatten.map (·.toNat)))] ++ groupFields (off + g.size) gs

/-- The groups of a context's early values. -/
def earlyGroups (x : Ctx) : List EarlyGroup := x.q.toList.zipIdx.flatMap fun k => groupsOf k.2 k.1.early

/-- Whether a context's own area holds its early values; the module keeps them otherwise (log 15). -/
def earlyFits (x : Ctx) : Bool := (earlyGroups x).foldl (fun n g => n + g.size) earlyOff ≤ bookOff

/-- Early values with their streams. -/
def earlyAll (x : Ctx) : List (Nat × Nat × Byte) := x.q.toList.zipIdx.flatMap fun k => k.1.early.map fun b => (k.2, b)

/-- The early values of an area, by stream register. -/
def earlyOf (m : Memory) : Nat → Nat → List (Nat × Nat × Byte)
  | 0, _ => []
  | fuel + 1, off =>
    let f (o n : Nat) : Nat := memRead m (off + o) n
    let n := f 12 4
    let len := f 16 4
    if f 20 4 = 0 || bookOff < off + 24 + n * len then []
    else
      ((List.range n).flatMap fun i => (List.range len).map fun j => (f 20 4 - 1, f 0 8 + i * f 8 4 + j, memGet m (off + 24 + i * len + j))) ++
        earlyOf m fuel (off + 24 + n * len)

/-- Objects held that an area can name. -/
def heldMax : Nat := 255

/-- Most discarded code pages an area can name. -/
def lostMax : Nat := 22

/-- The core's own fields of a context; `spilled` numbers the early values that the module keeps. -/
def bookFields (x : Ctx) (spilled : Nat) : List (Nat × Nat × Nat) :=
  [(0, 8, (x.kept ++ x.queue).length), (8, 8, x.vIn), (16, 8, x.cmdSeq), (24, 8, x.rcb.toNat), (32, 8, x.fdom), (40, 8, x.asid.toNat),
    (48, 8, match x.node with | some r => r.graph + 1 | none => 0), (56, 8, match x.node with | some r => r.node | none => 0),
    (64, 8, match x.arrived with | some a => 1 + a.1 * 2 + a.2 * 2 ^ 8 | none => 0), (72, 8, x.vc.eff.toNat + 4 * x.vc.pend.toNat), (80, 8, x.slip.toNat),
    (88, 8, x.pendTraps.length)] ++
    (x.tk.toList.zipIdx.map fun k => (96 + k.2, 1, k.1.code)) ++ (x.pk.toList.zipIdx.map fun k => (112 + k.2, 1, k.1.code)) ++
    (x.pendTraps.zipIdx.flatMap fun t => [(128 + 16 * t.2, 8, t.1.cause.code), (136 + 16 * t.2, 8, t.1.tval.toNat)]) ++
    [(256, 8, x.refaults), (264, 8, x.lastFault.isSome.toNat), (272, 8, (x.lastFault.map (·.1.toNat)).getD 0), (280, 8, (x.lastFault.map (·.2.toNat)).getD 0)] ++
    (x.deadTails.map fun d => (288 + d.1, 1, d.2 + 1)) ++ (x.lost.take lostMax).zipIdx.map (fun p => (320 + 8 * p.2, 8, p.1 + 1)) ++ [(504, 8, spilled)] ++
    (x.q.toList.zipIdx.map fun k => (512 + 8 * k.2, 8, (k.1.held.map (·.toNat)).getD 0)) ++
    (x.q.toList.zipIdx.flatMap fun k => (k.1.prep.take 4).zipIdx.flatMap fun t => [(0x400 + 64 * k.2 + 16 * t.2, 8, t.1.va), (0x408 + 64 * k.2 + 16 * t.2, 8, t.1.leaf.toNat)]) ++
    [(0x800, 8, min heldMax x.held.length)] ++ (x.held.take heldMax).zipIdx.map fun h => (0x808 + 8 * h.2, 8, h.1.toNat)

/-- Entries an area can keep: those of a queue and those a trap has set aside. -/
def keptMax : Nat := 128

/-- Control registers 0x000 to 0x051 as saved (R44). -/
def savedCsrs (s : State) (c : CtxId) : List (Nat × Nat) :=
  (List.range 0x52).map fun n => (n, if (csrRow n).isSome then (csrValue { s with cur := c } n).toNat else 0)

/-- Metadata of register `i` as saved: its full/empty bit is clear while a kept MACCRD is to write it (R31, R218). -/
def savedMeta (x : Ctx) (i : Fin 32) : Nat := ({ x.v[i] with full := x.vfull i } : VReg).meta

/-- A context area's contents (R44), by offset, bytes and value. The image of a register that awaits restoration stays as its backing has it. -/
def areaFields (s : State) (c : CtxId) : List (Nat × Nat × Nat) :=
  let x := s.ctx c
  (((List.range x.count).filter fun i => !x.vc.vuse.getLsbD i).map (regField x)) ++ maskFields x ++
    [(0x14000, 1024, 0)] ++ (x.q.toList.zipIdx.flatMap fun k => k.1.record.map fun p => (0x14000 + 64 * k.2 + p.1, 8, p.2)) ++
    ((List.finRange 32).map fun i => (0x14400 + 16 * i.val, 16, savedMeta x i)) ++
    ((List.finRange 32).map fun i => (0x14600 + 8 * i.val, 8, (x.sget i).toNat)) ++
    [(0x14700, 8, x.pc.toNat), (0x14708, 8, x.full.toNat ||| 1), (0x14710, 240, 0), (0x14800, 1024, 0)] ++
    ((savedCsrs s c).map fun p => (0x14800 + 8 * p.1, 8, p.2)) ++
    (x.ents.toList.zipIdx.map fun k => (0x14C00 + 8 * k.2, 8, k.1.toNat)) ++
    [(0x14C40, 256, 0)] ++ (x.binds.flatMap fun b => [(0x14C40 + 16 * b.idx, 8, b.obj.toNat), (0x14C48 + 16 * b.idx, 8, b.span.toNat)]) ++
    [(keptOff, 131072 - keptOff, 0)] ++
    (((x.kept ++ x.queue).take keptMax).zipIdx.flatMap fun e => e.1.record.map fun p => (keptOff + 152 * e.2 + p.1, p.2.1, p.2.2)) ++
    (if earlyFits x then groupFields earlyOff (earlyGroups x) else []) ++
    ((bookFields x (if earlyFits x then 0 else s.spilled.length + 1)).map fun p => (bookOff + p.1, p.2.1, p.2.2))

/-- Writes a context's area into its core's pool; early values that it cannot hold stay with the module, numbered (R136; log 15). -/
def writeArea (s : State) (c : CtxId) : State :=
  let a := areaBase (s.core c.core.val).part c.lc.val
  let x := s.ctx c
  let t := (putArea s c (areaFields s c)).modCore c.core.val fun k => { k with poison := k.poison.filter fun u => !(a ≤ u * 8 && u * 8 < a + 131072) }
  if earlyFits x then t else { t with spilled := t.spilled ++ [earlyAll x] }

/-- Commands of a context that a MOVEOUT quiesces, with their command contexts, in the order of the records (R344). -/
def ctxCommands (s : State) (c : CtxId) : List (TugId × TugCmd) :=
  (clusterTugs (clusterOf c.core.val)).flatMap fun t => ((s.tug t).queue.filter fun k => k.issuer == some c && k.sig.isNone).map fun k => (t, k)

/-- A command record (R344, R423). -/
def cmdRecord (e : TugId × TugCmd) : List (Nat × Nat × Nat) :=
  let k := e.2
  [(0, 128, k.block.toNat), (0x80, 8, k.num), (0x88, 1, e.1.t.val), (0x89, 1, k.tag.val), (0x8A, 1, k.fn),
    (0x8B, 1, match k.slot with | some i => i | none => 0xFF), (0x8C, 4, if k.started then k.landed else 0),
    (0x90, 1, if cmdDkind k.block = 2 then cmdDr k.block else 0xFF), (0x91, 15, 0)]

/-- A slot's metadata word (R206). -/
def Slot.word (k : Slot) : Nat :=
  k.stag.toNat * 2 ^ 40 + k.dtag.toNat * 2 ^ 32 + k.svalid.toNat * 2 ^ 31 + k.sw32.toNat * 2 ^ 30 + k.dbl.toNat * 2 ^ 29 + k.rows * 2 ^ 22 + k.ent.val * 2 ^ 18 +
    k.owner.val % 4 * 2 ^ 14 + (match k.st with | .free => 0 | .claimed => 1 | .filling => 2 | .full => 3)

/-- Bits of the slots that `p` selects. -/
def slotBits (k : Core) (p : Slot → Bool) : Nat := ((List.finRange 32).map fun n => if p k.slots[n] then 2 ^ n.val else 0).foldl (· + ·) 0

/-- A vector frame: header and whole image (R198, R344), that of a register awaiting restoration as its backing in the area has it. -/
def frameFields (x : Ctx) (area : Memory) (i : Nat) : List (Nat × Nat × Nat) :=
  let r := if x.vc.vlive.getLsbD i then x.v[Fin.ofNat 32 i] else VReg.dead
  let img := if x.vc.vuse.getLsbD i then memRead area (imageAt x i) x.vlenb else r.img.toNat % 2 ^ x.vlmax
  let a := 0x2C000 + i * (64 + x.vlenb)
  [(a, 64, x.vlmax / x.liveSew + 2 ^ 64 * ({ r with full := false, dirty := false, pois := false } : VReg).meta + 2 ^ 128 * x.liveSew + 2 ^ 136 * x.vc.eff.toNat),
    (a + 64, x.vlenb, img)]

/-- The parts of an image beyond the context area and the tiles, by offset; `cmds` are the quiesced commands. -/
def imageFields (s : State) (c : CtxId) (cmds : List (TugId × TugCmd)) : List (Nat × Nat × Nat) :=
  let x := s.ctx c
  let k := s.core c.core.val
  let mine (z : Slot) : Bool := z.ownedBy c.lc
  [(0x20000, 8, k.part.toNat), (0x20008, 4, cmds.length), (0x2000C, 4, slotBits k mine), (0x20010, 4, slotBits k fun z => mine z && z.st == .full),
    (0x20014, 4, slotBits k fun z => mine z && z.dbl), (0x20018, 8, match x.lease with | some l => l.micros + 2 ^ 32 * l.clock | none => 0),
    (0x20020, 8, (ctxId x.asid c).toNat), (0x20028, 8, s.time), (0x20030, 8, (tilesWhole k.part c.lc.val).toNat), (0x20038, 8, 0)] ++
    (cmds.zipIdx.flatMap fun e => (cmdRecord e.1).map fun p => (0x20040 + 160 * e.2 + p.1, p.2.1, p.2.2)) ++
    ((List.finRange 32).map fun n => (0x2A040 + 8 * n.val, 8, if mine k.slots[n] then (k.slots[n]).word else 0)) ++
    ((List.range x.count).flatMap (frameFields x (memSlice k.pool (areaBase k.part c.lc.val) 65536 0))) ++
    ((List.finRange 32).flatMap fun n =>
      if mine k.slots[n] then [(0xC0000 + 0x2100 * n.val, 0x2000, (k.slots[n]).data.toNat), (0xC2000 + 0x2100 * n.val, 0x100, (k.slots[n]).side.toNat)] else [])

/-- Writes the rings a context owns into an image (R421). -/
def putRings (m : Memory) (img : Nat) (k : Core) (lc : Fin 8) : Memory :=
  (List.finRange 8).foldl (fun m d =>
    let a := img + 0x2A400 + 0x240 * d.val
    let r := k.rings[d]
    let m := memClear m a 0x240
    if r.init && r.owner == lc then ringImage r m a else m) m

/-- Bytes of a save image (R344). -/
def imageSize : Nat := 0x102000

/-- A save image over what its place held: the context's area and tiles, and the rest of it, by the image's own offsets. -/
def buildImage (s : State) (c : CtxId) (cmds : List (TugId × TugCmd)) (m : Memory) : Memory :=
  let k := s.core c.core.val
  let m := memReplace m 0 131072 (memSlice k.pool (areaBase k.part c.lc.val) 131072 0)
  let m := (imageFields s c cmds).foldl putNum m
  let m := if tilesWhole k.part c.lc.val then memReplace m 0x40000 0x80000 (memSlice k.pool (tilesOff k.part c.lc.val) 0x80000 0x40000) else m
  putRings m 0 k c.lc

/-- Whether every page of a save image is memory. -/
def imageInMem (s : State) (img : Nat) : Bool := (List.range 258).all fun i => physKind s (img + 4096 * i) == .memory

/-- An image's bytes, by its own offsets. -/
def imageOf (s : State) (img : Nat) : Memory :=
  if imageInMem s img then memSlice s.mem img imageSize 0
  else (List.range 16512).foldl (fun m i => memWrite m (64 * i) 64 (ownRead s (img + 64 * i) 64)) []

/-- Writes an image, to another module as transfers of 64 bytes (R291, R393). -/
def writeImage (s : State) (img : Nat) (m : Memory) : State :=
  if imageInMem s img then
    let t : State := { s with mem := memReplace s.mem img imageSize (memSlice m 0 imageSize img), poison := unpoison s.poison img imageSize }
    if paHome img = s.modId.val then t else (List.range 16512).foldl (fun t i => sendTo t (img + 64 * i)) t
  else (List.range 16512).foldl (fun s i => ownWrite s (img + 64 * i) 64 (memRead m (64 * i) 64)) s

/-- A context moved out leaves its core: slots, rings, bindings, lease and the context itself (R340, R421). -/
def leaveCore (s : State) (c : CtxId) : State :=
  let s := dropBinds s c
  let x := s.ctx c
  let s := s.modCore c.core.val fun k =>
    let ops := k.arr.ops.filter fun o => o.lc != c.lc
    { dropRings (freeSlots k c.lc) c.lc with
      last := some x.rcb, slabs := k.slabs.filter fun b => b.1 != c.lc.val
      arr := { k.arr with ops, done := if ops.isEmpty then k.arr.issued else k.arr.done } }
  s.modCtx c fun x => { Ctx.reset with kept0 := x.kept0 }

/-- MOVEOUT's steps (R340, R343, R344). -/
def moveOut (s : State) (c : CtxId) (img : Nat) : State :=
  let s := preempt s c
  let cmds := ctxCommands s c
  let s := settleRels (quiesceCtx s c) c
  let binds := (s.ctx c).binds
  let s := if binds.isEmpty then s else flushLines s c.core.val (fun _ => true) true
  let s := writeArea s c
  leaveCore (writeImage s img (buildImage s c cmds (imageOf s img))) c

/-! Resumption (R345, R346, R422). -/

/-- The control registers an image restores (R44). -/
def restoreVc (f : Nat → Word) (pend : Bool) : VCsr :=
  { vl := f 0, vshape := f 1, vtype := f 2 &&& 0xF, vm := f 3 &&& 0xF, vs := f 4, vstart := f 5, xmr := f 6 &&& 7, erule := f 7 &&& 0xDB
    vdirty := (f 9).setWidth 32, vuse := (f 0xA).setWidth 32, vlive := (f 0xB).setWidth 32
    cnt := (f 0xC).extractLsb' 0 2, eff := (f 0xC).extractLsb' 4 2, pend }

def restoreFc (f : Nat → Word) : FCsr :=
  { seed := (f 0x10).extractLsb' 32 32, xsel := (f 0x10).extractLsb' 11 5, rmo := (f 0x10).extractLsb' 8 3, flags := (f 0x10).extractLsb' 0 5, satcnt := f 0x11
    amax := Vector.ofFn fun i : Fin 16 => (f (0x20 + i.val)).setWidth 32, mrows := f 0x30 }

/-- Format entries as restored: one that fails R57 is invalid; its number and check (R83). -/
def restoreEnts (ws : List Word) : List Word × Option Nat :=
  let check (w : Word × Nat) : Nat := if nbit w.1.toNat 63 then entryCheck (8 + w.2) w.1 else 0
  let bad := ws.zipIdx.filter fun w => check w != 0
  (ws.zipIdx.map fun w => if check w != 0 then 0 else w.1, bad.head?.map fun w => 16 * (8 + w.2) + check w)

/-- A register as its saved metadata word and image restore it (R31, R36). -/
def savedReg (w img : Nat) : VReg := { regOf w img with full := nbit w 63, dirty := nbit w 62, pois := nbit w 61 }

/-- Vector registers as restored, with a bit for each that fails R89 (R346). A dead tail reads as zero (R35); a register that a kept MACCRD is to write is empty on its account alone (R218). -/
def restoreRegs (m : Memory) (vc : VCsr) (vt : Fmt) (lazy : Bool) (kept : List QEntry) : Vector VReg 32 × Nat :=
  let n := countOf vc.eff
  let vlenb := vlmaxOf vc.eff / 8
  let word (i : Nat) : Nat := memRead m (0x14400 + 16 * i) 8
  let tail (i : Nat) : Nat := memRead m (bookOff + 288 + i) 1
  let img (i : Nat) : Nat := memRead m (i * (65536 / n)) (if tail i = 0 then vlenb else min vlenb (256 * (tail i - 1)))
  let bad (i : Nat) : Bool := i < n && !savedOk (word i % 2 ^ 61) (img i) (vlmaxOf vc.eff) vt.isInt
  let pending (i : Nat) : Bool := kept.any fun e => match e.instr with | .maccrd f => f.vd.val == i | _ => false
  let reg (i : Nat) : VReg :=
    let r := savedReg (word i) (if lazy then 0 else img i)
    { r with full := r.full || pending i }
  (Vector.ofFn fun i : Fin 32 => if i.val < n && !bad i.val then reg i.val else VReg.dead,
    ((List.range 32).map fun i => if bad i then 2 ^ i else 0).foldl (· + ·) 0)

/-- The translations prepared for a stream, as saved: the page and the leaf. -/
def savedPages (m : Memory) (q : Nat) : List (Nat × Word) :=
  ((List.range 4).map fun i => (memRead m (bookOff + 0x400 + 64 * q + 16 * i) 8, BitVec.ofNat 64 (memRead m (bookOff + 0x408 + 64 * q + 16 * i) 8))).filter fun e => e.2 != 0

/-- A prepared translation is held again when the tables still give its leaf: an invalidation may have passed meanwhile (R325). -/
def stillMapped (s : State) (asid : BitVec 16) (e : Nat × Word) : Option Trans :=
  match walkVa { asid, priv := 0, holder := .nobody } e.1 s with
  | .ok t _ => if t.leaf ||| 0x60 == e.2 ||| 0x60 then some t else none
  | .error _ _ => none

/-- A stream register as restored: its record, and what the core's own area keeps of it. -/
def restoreQ (s : State) (m : Memory) (asid : BitVec 16) (early : List (Nat × Nat × Byte)) (q : Nat) : QReg :=
  let r := qregOf (memRead m (0x14000 + 64 * q) 64)
  if r.bound then
    { r with
      held := r.held.map fun _ => BitVec.ofNat 64 (memRead m (bookOff + 512 + 8 * q) 8)
      prep := (savedPages m q).filterMap (stillMapped s asid)
      early := (early.filter fun e => e.1 == q).map fun e => e.2 }
  else r

/-- The traps of R346, in order. -/
def resumeTraps (badRegs : Nat) (badEnt : Option Nat) (ncmd lease : Nat) (lost : Bool) : List PendTrap :=
  (if badRegs = 0 then [] else [{ cause := .metaIllegal, tval := BitVec.ofNat 64 badRegs }]) ++
    (match badEnt with | some n => [{ cause := .entryIllegal, tval := BitVec.ofNat 64 n }] | none => []) ++
    (if ncmd = 0 then [] else [{ cause := .tugQuiesced, tval := BitVec.ofNat 64 ncmd }]) ++
    (if lease != 0 && lost then [{ cause := .leaseLost, tval := BitVec.ofNat 64 lease }] else [])

/-- Causes a trap still to be delivered can have. -/
def pendCauseOf (n : Nat) : Option Cause := [Cause.metaIllegal, .entryIllegal, .tugQuiesced, .leaseLost].find? fun c => c.code == n

/-- The context an image holds, for loop context `c` (R345, R346, R422). -/
def loadCtx (s : State) (c : CtxId) (m : Memory) (lazy : Bool) : Ctx :=
  let f (off n : Nat) : Nat := memRead m off n
  let w (off : Nat) : Word := BitVec.ofNat 64 (f off 8)
  let b (off : Nat) : Nat := f (bookOff + off) 8
  let csr (n : Nat) : Word := w (0x14800 + 8 * n)
  let ents := restoreEnts ((List.range 8).map fun i => w (0x14C00 + 8 * i))
  let vc0 := restoreVc csr (nbit (b 72) 2)
  let vc := { vc0 with pend := vc0.pend || vc0.cnt != vc0.eff }
  let eff := vc.eff
  let entv : Vector Word 8 := Vector.ofFn fun i : Fin 8 => ents.1.getD i.val 0
  let kept := (List.range (min keptMax (b 0))).filterMap fun i => entryOf m (keptOff + 152 * i)
  let regs := restoreRegs m vc (fmtOf (entWord entv (wbits vc.vtype 0 4))) lazy kept
  let early := match s.spilled[b 504 - 1]? with
    | some l => if b 504 = 0 then earlyOf m 4096 earlyOff else l
    | none => earlyOf m 4096 earlyOff
  let from' := f 0x20020 8
  let rem := f 0x20018 8
  let same := dieOf (nbits from' 2 10) == dieOf c.core.val
  let tiles := nbit (f 0x20030 8) 0
  let earlier := (List.range (min 8 (b 88))).filterMap fun i =>
    (pendCauseOf (b (128 + 16 * i))).map fun x => ({ cause := x, tval := BitVec.ofNat 64 (b (136 + 16 * i)) } : PendTrap)
  let dead := BitVec.ofNat 32 regs.2
  { Ctx.reset with
    st := .running, pc := w 0x14700
    s := Vector.ofFn fun i : Fin 32 => if i.val = 0 then 0 else w (0x14600 + 8 * i.val)
    full := BitVec.ofNat 32 (f 0x14708 8) ||| 1
    v := regs.1
    m := Vector.ofFn fun i : Fin 8 => BitVec.ofNat 16384 (f (0x10000 + 2048 * i.val) (vlmaxOf eff / 32))
    q := Vector.ofFn fun i : Fin 16 => restoreQ s m (BitVec.ofNat 16 (nbits from' 32 16)) early i.val
    tk := Vector.ofFn fun i : Fin 16 => if tiles then kindOfTile (f (bookOff + 96 + i.val) 1) else .none
    pk := Vector.ofFn fun i : Fin 16 => if tiles then kindOfTile (f (bookOff + 112 + i.val) 1) else .none
    ents := entv
    vc := { vc with vlive := vc.vlive &&& ~~~dead, vuse := if lazy then vc.vlive &&& ~~~dead else vc.vuse }
    fc := restoreFc csr
    tr := firstTraps s (b 32)
    tags := csr 0x40
    lpenc := Vector.ofFn fun i : Fin 8 => csr (0x48 + i.val)
    lease := if rem % 2 ^ 32 != 0 && same then some { micros := rem % 2 ^ 32, clock := nbits rem 32 12 } else none
    slip := BitVec.ofNat 64 (b 80), asid := BitVec.ofNat 16 (nbits from' 32 16), rcb := BitVec.ofNat 64 (b 24), fdom := b 32
    kept, rejoin := true, resumeAt := w 0x14700
    refaults := b 256, lastFault := if b 264 = 0 then none else some (w (bookOff + 272), w (bookOff + 280))
    held := (List.range (min heldMax (b 0x800))).map fun i => w (bookOff + 0x808 + 8 * i)
    pendTraps := earlier ++ resumeTraps regs.2 ents.2 (f 0x20008 4) rem (!same)
    binds := (List.range 16).filterMap fun i =>
      if f (0x14C40 + 16 * i) 16 = 0 then none else some { idx := i, obj := w (0x14C40 + 16 * i), span := w (0x14C48 + 16 * i) }
    vIn := b 8, cmdSeq := b 16
    arrived := if b 64 = 0 then none else some (b 64 % 256 / 2, b 64 / 256)
    node := if b 48 = 0 then none else some ⟨b 48 - 1, b 56⟩
    lost := ((List.range lostMax).map fun i => b (320 + 8 * i)).filterMap fun p => if p = 0 then none else some (p - 1)
    deadTails := ((List.range 32).filter fun i => f (bookOff + 288 + i) 1 != 0).map fun i => (i, f (bookOff + 288 + i) 1 - 1)
    kept0 := (s.ctx c).kept0 }

/-- A slot restored (R344, R345). -/
def loadSlot (m : Memory) (lc : Fin 8) (n : Nat) : Slot :=
  let w := memRead m (0x2A040 + 8 * n) 8
  { st := if nbit (memRead m 0x20010 4) n then .full else .claimed
    owner := lc, rows := nbits w 22 7, ent := Fin.ofNat 16 (nbits w 18 4), dbl := nbit (memRead m 0x20014 4) n, sw32 := nbit w 30, svalid := nbit w 31
    dtag := BitVec.ofNat 8 (nbits w 32 8), stag := BitVec.ofNat 8 (nbits w 40 8)
    data := BitVec.ofNat 65536 (memRead m (0xC0000 + 0x2100 * n) 0x2000), side := BitVec.ofNat 2048 (memRead m (0xC2000 + 0x2100 * n) 0x100), mld := false }

/-- A ring an image holds (R421, R422). -/
def loadRing (m : Memory) (lc : Fin 8) (d : Nat) : Ring :=
  let a := 0x2A400 + 0x240 * d
  let f (off n : Nat) : Nat := memRead m (a + off) n
  let n := f 0x0C 1
  { init := true, owner := lc, hdr := f 0 8 - 64 - pad64 (8 * n), slotsz := f 8 4, nslot := n, widx := f 0x0D 1, ridx := f 0x0E 1
    fill := BitVec.ofNat 64 (f 0x10 8), taken := BitVec.ofNat 64 (f 0x18 8), flt := BitVec.ofNat 64 (f 0x20 8)
    exps := (List.range n).map fun i => f (0x40 + 8 * i) 4, lands := (List.range n).map fun i => f (0x44 + 8 * i) 4 }

/-- Whether an image holds ring `d`. -/
def hasRing (m : Memory) (d : Nat) : Bool := memRead m (0x2A40C + 0x240 * d) 1 != 0

/-- Whether a ring of an image can be restored: free on the target, wholly in its scratchpad (R422). -/
def ringFits (m : Memory) (k : Core) (word : Word) (d : Fin 8) : Bool :=
  let r := loadRing m 0 d.val
  !hasRing m d.val ||
    (!(k.rings[d]).init && 64 + pad64 (8 * r.nslot) ≤ memRead m (0x2A400 + 0x240 * d.val) 8 && r.hdr % 64 == 0 && r.nslot ≤ 64 &&
      r.hdr + 64 + pad64 (8 * r.nslot) + r.nslot * r.slotsz ≤ partScr word * 65536)

/-- Whether RESUME may load an image into a loop context (R340, R422). -/
def resumeOk (s : State) (c : CtxId) (m : Memory) : Bool :=
  let k := s.core c.core.val
  let word := BitVec.ofNat 64 (memRead m 0x20000 8)
  let rcb := BitVec.ofNat 64 (memRead m (bookOff + 24) 8)
  !(s.ctx c).resident && !(parkedOn s c.core).any (fun l => l.home == c) && k.service == .inService && c.lc.val < partRbk word / 2 &&
    (List.finRange 32).all (fun n => !nbit (memRead m 0x2000C 4) n.val || (k.slots[n]).st == .free) &&
    joins s c.core word rcb &&
    (List.finRange 8).all (ringFits m k word)

/-- Loads an image into a loop context (R340, R345, R422). A lazy load leaves the backing of the vector registers as it is, and the core's cache holds nothing older than the request. -/
def loadSaved (s : State) (c : CtxId) (m : Memory) (lazy hold : Bool) : State :=
  let word := BitVec.ofNat 64 (memRead m 0x20000 8)
  let alone := (heldRegions s c.core).isEmpty
  let x := loadCtx s c m lazy
  let s := if alone then s.modCore c.core.val fun k => k.prepare word x.rcb else s
  let s := s.modCore c.core.val fun k =>
    let a := areaBase k.part c.lc.val
    let from' := if lazy then 65536 else 0
    let pool := memReplace k.pool (a + from') (131072 - from') (memSlice m from' (131072 - from') (a + from'))
    let pool := if nbit (memRead m 0x20030 8) 0 && tilesWhole k.part c.lc.val then
      memReplace pool (tilesOff k.part c.lc.val) 0x80000 (memSlice m 0x40000 0x80000 (tilesOff k.part c.lc.val)) else pool
    { k with
      pool, slots := Vector.ofFn fun n : Fin 32 => if nbit (memRead m 0x2000C 4) n.val then loadSlot m c.lc n.val else k.slots[n] }
  let s := (List.finRange 8).foldl (fun s d => if hasRing m d.val then s.modRing c.core.val d fun _ => loadRing m c.lc d.val else s) s
  let s := (flushLines s c.core.val (fun _ => true) true).setCtx c { x with st := if hold then .parked else .running }
  match x.node with
  | some r => s.modNode r fun n => { n with ran := some (.ctx c) }
  | none => s

/-! The control port (R340). -/

/-- A control request's block. -/
structure CtlReq where
  op : Nat
  lazy : Bool
  hold : Bool
  ctx : CtxId
  image : Nat
  deriving DecidableEq, Repr

/-- The request in a block; none when the block breaks its layout. -/
def ctlOf (s : State) (pa : Nat) : Option CtlReq :=
  let b := block64 s pa
  let f (off n : Nat) : Nat := nbits b (8 * off) (8 * n)
  let image := f 8 8
  let wants := f 0 1 == 1 || (f 0 1 == 2 && (image != 0 || f 1 1 != 0))
  if pa % 64 == 0 && physKind s pa == .memory && f 0 1 < 4 && f 1 1 < 4 && f 2 1 < 4 && f 3 1 == 0 && f 4 4 < 1024 && f 0x18 40 == 0 &&
      (!wants || (image != 0 && image % 65536 == 0)) then
    some { op := f 0 1, lazy := nbit (f 1 1) 0, hold := nbit (f 1 1) 1, ctx := { core := Fin.ofNat 1024 (f 4 4), lc := Fin.ofNat 8 (f 2 1) }, image }
  else none

/-- OP of a block; PARK's step answers for one that no operation has. -/
def ctlOp (s : State) (pa : Nat) : Nat := if block64 s pa % 256 < 4 then block64 s pa % 256 else 0

/-- Takes the oldest request when it is of an operation, carries it out and writes DONE. -/
def controlStep (op pa : Nat) (act : State → CtlReq → Option State) (s : State) : Out :=
  if s.ctrls.head? == some pa && ctlOp s pa == op then
    let s := { s with ctrls := s.ctrls.tail }
    match ctlOf s pa with
    | none => .next (ownWrite s (pa + 0x10) 8 2)
    | some r =>
      match act s r with
      | some t => .next (ownWrite t (pa + 0x10) 8 1)
      | none => .next (ownWrite s (pa + 0x10) 8 3)
  else .next s

/-- PARK (R340): the context stops at a pre-emption point and keeps all it has. -/
def execPark (pa : Nat) (s : State) : Out :=
  controlStep 0 pa (fun s r => if (s.ctx r.ctx).resident then some ((preempt s r.ctx).modCtx r.ctx fun x => { x with st := .parked }) else none) s

/-- MOVEOUT (R340, R343, R344). -/
def execMoveout (pa : Nat) (s : State) : Out :=
  controlStep 1 pa (fun s r => if (s.ctx r.ctx).resident then some (moveOut s r.ctx r.image) else none) s

/-- RESUME (R340, R345, R346): in place, or from an image. -/
def execResume (pa : Nat) (s : State) : Out :=
  controlStep 2 pa (fun s r =>
    if r.image = 0 then
      match (s.ctx r.ctx).st with
      | .parked | .stopped | .halted => some (s.modCtx r.ctx fun x => { x with st := .running })
      | .free | .running => none
    else
      let m := imageOf s r.image
      if resumeOk s r.ctx m then some (loadSaved s r.ctx m r.lazy r.hold) else none) s

/-- KILL (R340, R332): the context's node ends, without a report. -/
def execKill (pa : Nat) (s : State) : Out :=
  controlStep 3 pa (fun s r => if (s.ctx r.ctx).resident then some (killCtx s r.ctx) else none) s

end Sys2Proof.Machine
end

