-- ==== Sys2Proof/Machine/Admit.lean ====
section
/-! DEFINITION. Graphs on their way in: the checks of R300 at SUBMIT (R384), SPAWN (R315), planned times (R306), admission (R307), re-planning (R311), and the watches on a node's bound and on a deadline (R310). -/

namespace Sys2Proof.Machine

/-! Reading descriptors. -/

/-- Reads bytes of a region's memory for a die scheduler or the Saddler, through the tables of an address space. -/
def schedRead (asid : BitVec 16) (a n : Nat) : M Nat := do
  let w : Who := { asid, priv := 0, holder := .nobody }
  let bs ← mapM' (pieces64 a n) fun p => do
    needN (p.1 + p.2 ≤ ownBase) .lpRange p.1
    let q ← translate w p.1 .read true
    let s ← get
    if poisoned s q.pa p.2 then throw (.stopAt .memUe q.pa)
    let v ← physRead q.pa p.2
    return numBytes p.2 v
  return ofBytes bs.flatten

/-- A read that may fail. -/
def tryRead (asid : BitVec 16) (a n : Nat) : M (Option Nat) := do
  match ← attempt (schedRead asid a n) with
  | .ok v => return some v
  | .error _ => return none

/-! The checks of R300 on one node. -/

/-- Every zero field of a node is zero (check 2). -/
def nodeZeros (d : BitVec 1024) : Bool := blkField d 1 1 < 8 && blkField d 0x38 8 < 2 ^ 48 && (dNsucc d != 0 || dSucc d == 0)

/-- Check 3. -/
def nodeShape (d : BitVec 1024) : Bool :=
  dKind d ≤ 2 &&
    (if dKind d = 0 then dDecl d != 3 && dEntry d % 4 == 0 && dNops d == 0 else 1 ≤ dNops d && dNops d ≤ 4096 && dPart d == 0)

/-- Check 4. -/
def nodePart (poolsl : Nat) (d : BitVec 1024) : Bool :=
  dKind d != 0 || (partOk (dPart d) && partScr (dPart d) + partAcc (dPart d) + partRbk (dPart d) ≤ poolsl)

/-! Order of a graph. -/

/-- The nodes in an order in which predecessors come first; nodes on a cycle are left out. -/
def topoOrder (succs : Array (List Nat)) : Nat → Array Nat → List Nat → List Nat → List Nat
  | 0, _, _, acc => acc.reverse
  | _ + 1, _, [], acc => acc.reverse
  | n + 1, preds, v :: ready, acc =>
    let r := (succs.getD v []).foldl (fun (p : Array Nat × List Nat) u =>
      let left := p.1.getD u 0 - 1
      (p.1.setIfInBounds u left, if left = 0 then u :: p.2 else p.2)) (preds, ready)
    topoOrder succs n r.1 r.2 (v :: acc)

/-- The order of nodes given by successors and predecessor counts. -/
def orderOf (succs : List (List Nat)) (preds : List Nat) : List Nat :=
  topoOrder succs.toArray succs.length preds.toArray ((List.range preds.length).filter fun i => preds.getD i 0 == 0) []

/-- How often each node is named as a successor. -/
def namedCounts (n : Nat) (succs : List (List Nat)) : Array Nat := succs.flatten.foldl (fun a i => a.modify i (· + 1)) (Array.replicate n 0)

/-- Largest weight of a path, by an order with predecessors first. -/
def longestPath (succs : Array (List Nat)) (w : Array Nat) (order : List Nat) : Nat :=
  (order.foldl (fun (p : Array Nat × Nat) v =>
    let d := p.1.getD v 0 + w.getD v 0
    ((succs.getD v []).foldl (fun a u => a.modify u (max d)) p.1, max p.2 d)) (Array.replicate w.size 0, 0)).2

/-! Submission (R300). -/

/-- Bytes a command block moves through memory-link ports, and whether it names one; none when it names a fabric port (R306). -/
def blockTraffic (raw : BitVec 1024) : Option (Nat × Bool) :=
  let b := tblkOf raw
  let z : Vector Word 8 := Vector.replicate 8 0
  let fs := fmtOf (entWord z b.sent)
  let fd := fmtOf (entWord z b.dent)
  let dst := dstBytes b.fn b fs fd
  let src := if b.fn = 4 then dst else bitBytes (b.total * srcBits b.fn b fs)
  let fab (p : Nat) : Bool := 24 ≤ p && p < 32
  let mem (p : Nat) : Bool := 16 ≤ p && p < 24
  if fab b.sport || fab b.dport then none else some ((if mem b.sport then src else 0) + (if mem b.dport then dst else 0), mem b.sport || mem b.dport)

/-- Traffic of blocks together. -/
def addTraffic (a b : Option (Nat × Bool)) : Option (Nat × Bool) :=
  match a, b with
  | some x, some y => some (x.1 + y.1, x.2 || y.2)
  | _, _ => none

/-- A node not yet in a pool. -/
def newNode (d : BitVec 1024) (succs : List Nat) (traffic : Option (Nat × Bool)) : GNode :=
  { desc := d, preds := dNpred d, succs, st := .waiting, die := 0, since := 0, enqSeq := 0, hold := false, prio := 0, placed := [], ran := none, start := 0, left := 0,
    traffic, overrun := false }

/-- The successor indices of a node; none when its list is not aligned or not readable. -/
def readSuccs (asid : BitVec 16) (d : BitVec 1024) : M (Option (List Nat)) := do
  if dNsucc d = 0 then return some []
  else if dSucc d % 4 != 0 then return none
  else
    match ← tryRead asid (dSucc d) (4 * dNsucc d) with
    | some v => return some (unpack 32 (dNsucc d) v)
    | none => return none

/-- The traffic of a C node; the outer none when a block is not aligned or not readable. -/
def readTraffic (asid : BitVec 16) (d : BitVec 1024) : M (Option (Option (Nat × Bool))) := do
  if dEntry d % 64 != 0 then return none
  else
    foldM' (fun (acc : Option (Option (Nat × Bool))) i => do
      match acc with
      | none => return none
      | some t =>
        match ← tryRead asid (dEntry d + 128 * i) 128 with
        | some v => return some (addTraffic t (blockTraffic (BitVec.ofNat 1024 v)))
        | none => return none) (some (some (0, false))) (List.range (dNops d))

/-- Header fields (R297). -/
def hField (h : BitVec 512) (off n : Nat) : Nat := blkField h off n

/-- Every zero field of a header is zero (check 2). -/
def headerZeros (h : BitVec 512) : Bool :=
  let dl := nbit (hField h 0x15 1) 0
  hField h 0x14 1 < 64 && hField h 0x15 1 < 4 && hField h 0x23 5 == 0 && hField h 0x30 16 == 0 &&
    (dl || (hField h 0x16 2 == 0 && hField h 0x18 8 == 0 && hField h 0x20 2 == 0 && hField h 0x22 1 == 0))

/-- Runs a computation over a list as long as it succeeds. -/
def allM {α β : Type} (f : α → M (Option β)) : List α → M (Option (List β))
  | [] => pure (some [])
  | a :: as => do
    match ← f a with
    | none => return none
    | some b =>
      match ← allM f as with
      | none => return none
      | some bs => return some (b :: bs)

/-- The nodes of a graph as checked: the first check of R300 that fails, or the nodes. -/
def checkGraph (asid : BitVec 16) (h : BitVec 512) : M (Except Nat (List GNode)) := do
  let s ← get
  let rcb := BitVec.ofNat 64 (hField h 0 8)
  match s.region rcb with
  | none => return .error 1
  | some r =>
    let n := hField h 0x10 4
    if r.asid != asid || hField h 8 8 % 64 != 0 then return .error 1
    else
      match ← allM (fun i => tryRead asid (hField h 8 8 + 128 * i) 128) (List.range n) with
      | none => return .error 1
      | some raws =>
        let ds := raws.map (BitVec.ofNat 1024)
        match ← allM (readSuccs asid) ds with
        | none => return .error 1
        | some succs =>
          let dl := nbit (hField h 0x15 1) 0
          let named := namedCounts n succs
          if !(1 ≤ n && n ≤ 65536) || !headerZeros h || !ds.all nodeZeros then return .error 2
          else if !ds.all nodeShape then return .error 3
          else if !ds.all (nodePart (effPoolsl s rcb)) then return .error 4
          else if !succs.flatten.all (· < n) || !(ds.zipIdx.all fun d => dNpred d.1 == named.getD d.2 0) then return .error 5
          else if (orderOf succs (ds.map dNpred)).length < n then return .error 6
          else
            let nodes := (ds.zip succs).map fun p => newNode p.1 p.2 (some (0, false))
            if !dl then return .ok nodes
            else if effDlpol s rcb = 0 || (ds.any (dKind · == 0) && hField h 0x16 2 == 0) || (ds.any (dKind · == 1) && hField h 0x20 2 == 0) ||
                (ds.any (dKind · == 2) && hField h 0x22 1 == 0) then return .error 7
            else
              match ← allM (fun (x : GNode) => if dKind x.desc = 1 then do
                  match ← readTraffic asid x.desc with
                  | some t => return some { x with traffic := t }
                  | none => return none
                else pure (some x)) nodes with
              | none => return .error 7
              | some ns => return .ok ns

/-- Adds a graph to the module's table; its number. -/
def addGraph (s : State) (g : Graph) : State × Nat := ({ s with graphs := tabSet s.graphs s.nextGraph g, nextGraph := s.nextGraph + 1 }, s.nextGraph)

/-- Enqueues every waiting node whose count is zero (R302). -/
def enqueueReady (s : State) (g : Nat) : State :=
  match tabFind s.graphs g with
  | none => s
  | some x => (List.range x.nodes.length).foldl (fun s i =>
      match s.gnode ⟨g, i⟩ with
      | some n => if n.preds = 0 && n.st == .waiting then enqueueNode s ⟨g, i⟩ else s
      | none => s) s

/-- A graph that has passed its checks: a best-effort graph starts, a deadline graph waits for ADMISSION. -/
def acceptGraph (s : State) (h : CmdHead) (asid : BitVec 16) (hd : BitVec 512) (nodes : List GNode) : State :=
  let dl := nbit (hField hd 0x15 1) 0
  let r := addGraph s
    { rcb := BitVec.ofNat 64 (hField hd 0 8), asid, header := hd, nodes, st := if dl then .admitting else .active, spawned := false, handle := 0
      cq := Fin.ofNat 64 (hField hd 0x14 1), sq := h.sq, seq := h.seq, reserved := [], breached := false }
  if dl then r.1 else enqueueReady r.1 r.2

/-- SUBMIT (R300, R384): a graph that fails a check is answered with REJECT_DESC; a header that cannot be read is answered on the command's own queue. -/
def execSubmit (h : CmdHead) (asid : BitVec 16) (va : BitVec 64) (s : State) : Out :=
  event (do
    let head ← if va.toNat % 64 = 0 then tryRead asid va.toNat 64 else pure none
    match head with
    | none => modify fun s => pushRecord s h.cq { status := 1, sq := h.sq.val, check := 1, tag := h.tag, time := s.time, seq := h.seq }
    | some v =>
      let hd := BitVec.ofNat 512 v
      match ← checkGraph asid hd with
      | .error n =>
        modify fun s => pushRecord s (Fin.ofNat 64 (hField hd 0x14 1))
          { status := 1, sq := h.sq.val, check := n, tag := BitVec.ofNat 64 (hField hd 0x28 8), time := s.time, seq := h.seq }
      | .ok nodes => modify fun s => acceptGraph s h asid hd nodes) s

/-! SPAWN (R256, R315). -/

/-- The spawned node, checked: SPAWN_DESC with the number of the first check that fails. -/
def checkSpawn (a : Word) : M (BitVec 1024) := do
  needN (a.toNat % 64 == 0) .spawnDesc 1
  match ← attempt (readWords a.toNat 16) with
  | .error .wait => waitM
  | .error _ => trapN .spawnDesc 1
  | .ok v =>
    let d := BitVec.ofNat 1024 v
    let s ← get
    needN (nodeZeros d) .spawnDesc 2
    needN (nodeShape d) .spawnDesc 3
    needN (nodePart (effPoolsl s s.me.rcb) d) .spawnDesc 4
    needN (dNpred d == 0 && dNsucc d == 0) .spawnDesc 8
    match s.region s.me.rcb with
    | some r => needN (r.spawned < 4096) .spawnDesc 9
    | none => pure ()
    return d

/-- SPAWN: the node forms a best-effort graph of its own in the region; sd names it. What came before is released to it as by REL.DOM.V.E (R256, R275). -/
def execSpawn (f : A2) (s : State) : Out :=
  scalar (do
    let a ← readS f.sa
    awaitS f.sd
    awaitQual true true
    let d ← checkSpawn a
    let s ← get
    let die := Fin.ofNat 8 (dieOf s.cur.core.val)
    let n := s.spawns[die] + 1
    let handle := BitVec.ofNat 64 (n % 2 ^ 32 + 2 ^ 32 * die.val)
    let r := addGraph s
      { rcb := s.me.rcb, asid := s.me.asid, header := 0, nodes := [newNode d [] (some (0, false))], st := .active, spawned := true, handle, cq := 0, sq := 0, seq := 0
        reserved := [], breached := false }
    let t : State := { r.1 with
      spawns := r.1.spawns.set die n, regions := r.1.regions.map fun x => if x.va == s.me.rcb then { x with spawned := x.spawned + 1 } else x }
    set (enqueueReady t r.2)
    writeS f.sd handle) s

/-! Reservations (R307, R308). -/



/-- Whether a core is in service (R14, R350). -/
def coreIn (s : State) (core : Nat) : Bool := (s.core core).service == .inService && (s.cluster (clusterOf core)).service == .inService

def tugIn (s : State) (cl : Nat) : Bool := (s.cluster cl).service == .inService && (s.cluster cl).tugService == .inService

def walkerIn (s : State) (w : Nat) : Bool := !s.walkerFenced.contains w

/-- Places a cluster in order of falling floor clock. -/
def insertFloor (s : State) (c : Nat) : List Nat → List Nat
  | [] => [c]
  | d :: ds => if (s.cluster d).cinch.floor < (s.cluster c).cinch.floor then c :: d :: ds else d :: insertFloor s c ds

/-- The clusters of a mask, the fastest first. -/
def byFloor (s : State) (mask : Nat) : List Nat := ((List.range 128).filter (nbit mask)).foldl (fun l c => insertFloor s c l) []

/-- The cores of a cluster that are in service. -/
def clusterCores (s : State) (cl : Nat) : List (Fin 1024) := ((List.range 8).map fun i => Fin.ofNat 1024 (cl * 8 + i)).filter fun c => coreIn s c.val

/-- Contexts of a core that are reserved. -/
def coreReserved (taken : List RUnit) (c : Fin 1024) : Nat := (taken.filter fun u => match u with | .ctx x => x.core == c | .tug _ | .walk _ => false).length

/-- Loop contexts of a core that a quarter reservation may take: at most 3 of a core are reserved (R307). -/
def quarterCtxs (taken : List RUnit) (c : Fin 1024) : List RUnit :=
  (((coreCtxs c).map RUnit.ctx).filter fun u => !taken.contains u).take (3 - coreReserved taken c)

/-- The loop contexts of a cluster for whole cores: none of them reserved, and one core of the cluster keeps a context (R307). -/
def wholeCtxs (s : State) (taken : List RUnit) (cl : Nat) : List RUnit :=
  let cs := clusterCores s cl
  let free := cs.filter fun c => coreReserved taken c == 0
  let keep := if (cs.filter fun c => 0 < coreReserved taken c && coreReserved taken c < 4).isEmpty then 1 else 0
  (free.take (free.length - keep)).flatMap fun c => (coreCtxs c).map RUnit.ctx

/-- Tug command contexts of a cluster: at most 2 of a Tug (R307). -/
def tugUnits (s : State) (taken : List RUnit) (share cl : Nat) : List RUnit :=
  if tugIn s cl then
    let held := (taken.filter fun u => match u with | .tug t => t.cluster.val == cl | .ctx _ | .walk _ => false).length
    (((clusterTugs cl).filter fun t => nbit share t.t.val).map RUnit.tug |>.filter fun u => !taken.contains u).take (2 - held)
  else []

/-- Walk contexts of a walker: at most 4 (R307). -/
def walkUnits (s : State) (taken : List RUnit) (share w : Nat) : List RUnit :=
  if walkerIn s w then
    let held := (taken.filter fun u => match u with | .walk k => k.walker.val == w | .ctx _ | .tug _ => false).length
    ((((List.finRange 8).filter fun k => nbit share k.val).map fun k => RUnit.walk { walker := Fin.ofNat 32 w, k }) |>.filter fun u => !taken.contains u).take (4 - held)
  else []

/-- The walkers of the dies a mask meets. -/
def maskWalkers (mask : Nat) : List Nat := (List.range 32).filter fun w => dieMeets mask (w / 4)

/-- Whether a loop context's core holds a reservation of another region, whose nodes could not be resident beside it (R41). -/
def coreShared (s : State) (rcb : Word) (u : RUnit) : Bool :=
  match u with
  | .ctx c => s.graphs.any fun g => g.2.rcb != rcb && 0 < coreReserved g.2.reserved c.core
  | .tug _ | .walk _ => false

/-- Loop contexts on cores that other regions have not reserved come first (R308). -/
def ownCoresFirst (s : State) (rcb : Word) (l : List RUnit) : List RUnit :=
  l.filter (fun u => !coreShared s rcb u) ++ l.filter (coreShared s rcb)

/-- Units for `nv` loop contexts, `nc` command contexts and `nw` walk contexts; none when they are not to be had. -/
def findUnits (s : State) (rcb : Word) (excl : Bool) (nv nc nw : Nat) : Option (List RUnit) :=
  let taken := allReserved s
  let mask := effClmask s rcb
  let cls := byFloor s mask
  let v := (if nv = 0 then [] else
    ownCoresFirst s rcb (cls.flatMap fun cl => if excl then wholeCtxs s taken cl else (clusterCores s cl).flatMap (quarterCtxs taken))).take nv
  let c := (if nc = 0 then [] else cls.flatMap (tugUnits s taken (effTugctx s rcb))).take nc
  let w := (if nw = 0 then [] else (maskWalkers mask).flatMap (walkUnits s taken (effAwlctx s rcb))).take nw
  if v.length = nv && c.length = nc && w.length = nw then some (v ++ c ++ w) else none

/-- Whether the caps of a region and its ancestors, and the module's memory-link share, allow more (R307). -/
def capsOk (s : State) (rcb : Word) (nv nc nw mlbw : Nat) : Bool :=
  (ancestors s 8 rcb).all (fun r =>
    let h := heldOf s r.va
    h.1 + nv ≤ effRsvctx s r.va && h.2.1 + nc ≤ effRsvtug s r.va && h.2.2.1 + nw ≤ effRsvawl s r.va && h.2.2.2 + mlbw ≤ effMlbw s r.va) &&
    (s.graphs.foldl (fun n g => n + graphMlbw s g.2) 0) + mlbw ≤ 64

/-! Planned times (R306, R307), exact: in units of 1 / `Plan.unit` microseconds. -/

/-- What a plan is made with: the least floor clocks of the loop and command contexts in MHz, the memory-link share, the reservations. -/
structure Plan where
  fv : Nat
  fc : Nat
  mlbw : Nat
  wv : Nat
  wc : Nat
  ww : Nat
  excl : Bool
  deriving DecidableEq, Repr

/-- The least floor of the clusters in which units of a kind lie. -/
def leastFloor (s : State) (cls : List Nat) : Nat :=
  match cls with
  | [] => 3300
  | c :: cs => cs.foldl (fun f d => min f (s.cluster d).cinch.floor) (s.cluster c).cinch.floor

/-- The plan of a graph with reserved units. -/
def planOf (s : State) (g : Graph) (units : List RUnit) : Plan :=
  let vs := units.filterMap fun u => match u with | .ctx c => some (clusterOf c.core.val) | .tug _ | .walk _ => none
  let cs := units.filterMap fun u => match u with | .tug t => some t.cluster.val | .ctx _ | .walk _ => none
  let ws := units.filter fun u => match u with | .walk _ => true | .ctx _ | .tug _ => false
  { fv := max 1 (leastFloor s vs), fc := max 1 (leastFloor s cs), mlbw := effMlbw s g.rcb, wv := max 1 (if g.excl then vs.length / 4 else vs.length)
    wc := max 1 cs.length, ww := max 1 ws.length, excl := g.excl }

/-- Units in a microsecond. -/
def Plan.unit (p : Plan) : Nat := 8 * p.fv * p.fc * max 1 p.mlbw * 94000000 * 3300

/-- The planned time of a node; none when R306 gives it none. -/
def Plan.time (p : Plan) (n : GNode) : Option Nat :=
  let u := p.unit
  let b := dBound n.desc
  match dKind n.desc with
  | 0 => some (8 * u + (if p.excl then b * 9 * u / (8 * p.fv) else b * 9 * u / (2 * p.fv)))
  | 1 =>
    match n.traffic with
    | none => none
    | some t => if t.2 && p.mlbw = 0 then none else some (u + max (b * 9 * u / (4 * p.fc)) (t.1 * 640 * u / (max 1 p.mlbw * 94000000)))
  | _ => some (u + b * 8 * u / 3300)

/-- Reservation of a node's kind, and the product of the others. -/
def Plan.share (p : Plan) (n : GNode) : Nat × Nat :=
  match dKind n.desc with
  | 0 => (p.wv, p.wc * p.ww)
  | 1 => (p.wc, p.wv * p.ww)
  | _ => (p.ww, p.wv * p.wc)

/-- T of R307 for the nodes with the given times, in units of 1 / (unit × WV × WC × WW): the largest path, each node's time weighted by 1 − 1 / W, with every S / W. -/
def Plan.bound (p : Plan) (nodes : List GNode) (times : List Nat) : Nat :=
  let nt := nodes.zip times
  let sums := (nt.map fun x => x.2 * (p.share x.1).2).foldl (· + ·) 0
  let w := (nt.map fun x => x.2 * ((p.share x.1).1 - 1) * (p.share x.1).2).toArray
  let succs := nodes.map (·.succs)
  longestPath succs.toArray w (orderOf succs (nodes.map fun n => dNpred n.desc)) + sums

/-- Whether a time in nanoseconds plus a bound lies within a deadline. -/
def Plan.within (p : Plan) (now bound deadline : Nat) : Bool :=
  let k := p.unit * p.wv * p.wc * p.ww
  now * k + bound * 1000 ≤ deadline * k

/-- The times of every node; none when one has none. -/
def Plan.times (p : Plan) : List GNode → Option (List Nat)
  | [] => some []
  | n :: ns =>
    match p.time n, p.times ns with
    | some t, some ts => some (t :: ts)
    | _, _ => none

/-- What is left of a node's planned time: nothing once it is retired, failed or over its bound (R310, R311). -/
def Plan.left (p : Plan) (now : Nat) (n : GNode) (t : Nat) : Nat :=
  match n.st with
  | .retired | .failed => 0
  | .running => if n.overrun then 0 else t - (now - n.start) * p.unit / 1000
  | .waiting | .ready => t

/-! Admission (R307). -/

/-- ADMISSION: the graph is admitted with its reservations, or refused with REJECT_DEADLINE. -/
def execAdmission (g : Nat) (s : State) : Out :=
  event (modify fun s =>
    match tabFind s.graphs g with
    | none => s
    | some x =>
      if x.st != .admitting then s
      else
        let nv := hField x.header 0x16 2 * (if x.excl then 4 else 1)
        let nc := hField x.header 0x20 2
        let nw := hField x.header 0x22 1
        let refused := endGraph s g 2 0
        match findUnits s x.rcb x.excl nv nc nw with
        | none => refused
        | some units =>
          let p := planOf s x units
          match p.times x.nodes with
          | none => refused
          | some ts =>
            if capsOk s x.rcb nv nc nw (effMlbw s x.rcb) && p.within s.time (p.bound x.nodes ts) x.deadline then
              writeHelds (enqueueReady (s.modGraph g fun x => { x with st := .active, reserved := units }) g) x.rcb
            else refused) s

/-! Re-planning (R311). -/

/-- Number of a unit in a report of the Saddler (R338). -/
def fenceWho : FenceUnit → Word
  | .core i => BitVec.ofNat 64 i.val
  | .cluster i => BitVec.ofNat 64 (2 ^ 16 + i.val)
  | .tug i => BitVec.ofNat 64 (2 * 2 ^ 16 + i.val)
  | .walker i => BitVec.ofNat 64 (3 * 2 ^ 16 + i.val)
  | .memLink i => BitVec.ofNat 64 (4 * 2 ^ 16 + i.val)
  | .balfin i => BitVec.ofNat 64 (5 * 2 ^ 16 + i.val)

/-- A report of the Saddler about a unit; WHERE and TVAL are stated for none of its causes (log 7). -/
def saddlerReport (s : State) (fdom : Nat) (c : Cause) (disp : Disp) (u : FenceUnit) (gtag aux : Word) : State :=
  report s fdom { code := c.code, disp, origin := 4, who := fenceWho u, place := BitVec.ofNat 64 (Config.free s.tick), tval := Config.tval s.tick, gtag, aux }

/-- What follows a plan that fails: a BREACHED record, DEADLINE_BREACH, and under policy 0b10 no further dispatch (R311). -/
def breach (s : State) (g : Nat) (u : FenceUnit) : State :=
  match tabFind s.graphs g with
  | none => s
  | some x =>
    let s1 := pushRecord s x.cq { status := 3, sq := x.sq.val, check := 0, tag := x.gtag, time := s.time, seq := x.seq }
    let s2 := saddlerReport s1 (effFdom s x.rcb) .deadlineBreach .report u x.gtag 0
    let s3 := s2.modGraph g fun x => { x with breached := true, st := if effDlpol s x.rcb = 2 then .cancelling else x.st }
    settleGraph s3 g

/-- Whether an admitted graph's remaining work still fits its deadline. -/
def planHolds (s : State) (x : Graph) (units : List RUnit) : Bool :=
  let p := planOf s x units
  match p.times x.nodes with
  | none => false
  | some ts => p.within s.time (p.bound x.nodes ((x.nodes.zip ts).map fun q => p.left s.time q.1 q.2)) x.deadline

/-- Re-plans a graph that loses units: others are reserved in their place when they are to be had. -/
def replan (s : State) (g : Nat) (gone : RUnit → Bool) (u : FenceUnit) : State :=
  match tabFind s.graphs g with
  | none => s
  | some x =>
    if x.st != .active || x.reserved.isEmpty then s
    else
      let keep := x.reserved.filter fun r => !gone r
      let lost := x.reserved.filter gone
      let cnt (p : RUnit → Bool) : Nat := (lost.filter p).length
      let s1 := s.modGraph g fun x => { x with reserved := keep }
      match findUnits s1 x.rcb x.excl (cnt fun r => match r with | .ctx _ => true | _ => false) (cnt fun r => match r with | .tug _ => true | _ => false)
          (cnt fun r => match r with | .walk _ => true | _ => false) with
      | none => writeHelds (breach s1 g u) x.rcb
      | some more =>
        let s2 := s1.modGraph g fun x => { x with reserved := keep ++ more }
        if planHolds s2 x (keep ++ more) then s2 else breach s2 g u

/-- Re-plans every admitted graph that `p` selects. -/
def replanAll (s : State) (p : Graph → Bool) (gone : RUnit → Bool) (u : FenceUnit) : State :=
  (s.graphs.filter fun e => e.2.st == .active && !e.2.reserved.isEmpty && p e.2).foldl (fun s e => replan s e.1 gone u) s

/-! Watches (R310). -/

/-- The unit a report about a running node names. -/
def nodeUnit (n : GNode) : FenceUnit :=
  match n.ran with
  | some (.ctx c) => .core c.core
  | some (.tug t) => .tug t.cluster
  | some (.walk w) => .walker w.walker
  | none => .core 0

/-- BOUND_OVERRUN (R310): a running node of an admitted graph has reached its planned time; it goes on, and the graph is re-planned with nothing left of the node. -/
def execBoundOverrun (g : Nat) (node : Nat) (s : State) : Out :=
  event (modify fun s =>
    match tabFind s.graphs g, s.gnode ⟨g, node⟩ with
    | some x, some n =>
      let p := planOf s x x.reserved
      match p.time n with
      | none => s
      | some t =>
        if x.reserved.isEmpty || n.st != .running || n.overrun || (s.time - n.start) * p.unit < t * 1000 then s
        else
          let s1 := saddlerReport s (effFdom s x.rcb) .boundOverrun .report (nodeUnit n) x.gtag 0
          let s2 := s1.modNode ⟨g, node⟩ fun n => { n with overrun := true }
          match tabFind s2.graphs g with
          | some y => if y.st != .active || planHolds s2 y y.reserved then s2 else breach s2 g (nodeUnit n)
          | none => s2
    | _, _ => s) s

/-- The nodes that follow a node. -/
def following (nodes : List GNode) (i : Nat) : List Nat :=
  let succs := nodes.map (·.succs)
  let order := orderOf succs (nodes.map fun n => dNpred n.desc)
  order.foldl (fun acc v => if v = i || acc.contains v then acc ++ (succs.getD v []).filter (fun u => !acc.contains u) else acc) []

/-- DEADLINE_WATCH (R310): a node over its bound has not retired, and TIME has passed the deadline less the bound of the work that follows it. -/
def execDeadlineWatch (g : Nat) (s : State) : Out :=
  event (modify fun s =>
    match tabFind s.graphs g with
    | none => s
    | some x =>
      if x.st != .active || x.reserved.isEmpty || x.breached then s
      else
        let p := planOf s x x.reserved
        match p.times x.nodes with
        | none => s
        | some ts =>
          let late := x.nodes.zipIdx.find? fun n =>
            n.1.overrun && n.1.st == .running &&
              let f := following x.nodes n.2
              !p.within s.time (p.bound x.nodes ((x.nodes.zip ts).zipIdx.map fun q => if f.contains q.2 then p.left s.time q.1.1 q.1.2 else 0)) x.deadline
          match late with
          | some n => breach s g (nodeUnit n.1)
          | none => s) s

end Sys2Proof.Machine
end

