-- ==== Sys2Proof/Machine/DieSched.lean ====
section
/-! DEFINITION. The die schedulers: effective priorities (R302), eligible units and scores (R303, R41), lent contexts (R308), dispatch, a node handed over ahead (R304), and the clearing of a pool (R42). -/

namespace Sys2Proof.Machine

/-- The nodes of a graph that wait in a pool. -/
def graphCands (e : Nat × Graph) : List Cand :=
  if e.2.st == .active then e.2.nodes.zipIdx.filterMap fun n => if n.1.st == .ready then some { ref := ⟨e.1, n.2⟩, graph := e.2, node := n.1 } else none else []

/-- Every node in a pool. -/
def allCands (s : State) : List Cand := s.graphs.flatMap graphCands

/-- The nodes in a die's pool. -/
def poolOf (s : State) (die : Nat) : List Cand := (allCands s).filter fun c => c.node.die == die

/-- Effective priority of a best-effort node that has waited (R302); TIME counts nanoseconds. -/
def agedPrio (s : State) (c : Cand) : Nat := min 15 (effPrio s c.graph.rcb + (s.time - c.node.since) / 8000)

/-- Effective priorities of a die's best-effort nodes, brought up to now. -/
def ageDie (s : State) (die : Nat) : State :=
  ((poolOf s die).filter fun c => !c.graph.admitted).foldl (fun s c => s.modNode c.ref fun n => { n with prio := agedPrio s c }) s

/-- A best-effort node at priority 15 that has waited a millisecond has units held for it (R302). -/
def holdDie (s : State) (die : Nat) : State :=
  ((poolOf s die).filter fun c => !c.graph.admitted && c.node.prio == 15 && c.node.since + 1000000 ≤ s.time).foldl
    (fun s c => s.modNode c.ref fun n => { n with hold := true }) s

/-- PRIORITY_AGE (R302). -/
def execPriorityAge (die : Fin 8) (s : State) : Out := .next (ageDie s die.val)

/-- PRIORITY_HOLD (R302). -/
def execPriorityHold (die : Fin 8) (s : State) : Out := .next (holdDie s die.val)

/-- Whether a node comes before another in a pool (R302). -/
def Cand.before (a b : Cand) : Bool :=
  match a.graph.admitted, b.graph.admitted with
  | true, false => true
  | false, true => false
  | true, true => a.graph.deadline < b.graph.deadline || (a.graph.deadline == b.graph.deadline && a.node.enqSeq ≤ b.node.enqSeq)
  | false, false => b.node.prio < a.node.prio || (a.node.prio == b.node.prio && a.node.enqSeq ≤ b.node.enqSeq)

/-- Places a node in order. -/
def insertCand (c : Cand) : List Cand → List Cand
  | [] => [c]
  | d :: ds => if c.before d then c :: d :: ds else d :: insertCand c ds

def sortCands (l : List Cand) : List Cand := l.foldr insertCand []

/-! Units (R303). -/

/-- The cores of a die in a mask that are in service. -/
def dieCores (s : State) (mask die : Nat) : List (Fin 1024) :=
  (List.range 128).filterMap fun i => if nbit mask (clusterOf (die * 128 + i)) && coreIn s (die * 128 + i) then some (Fin.ofNat 1024 (die * 128 + i)) else none

/-- Places a core by falling score; equal scores keep rising index. -/
def insertScore (n : GNode) (c : Fin 1024) : List (Fin 1024) → List (Fin 1024)
  | [] => [c]
  | d :: ds => if coreScore n c.val < coreScore n d.val then d :: insertScore n c ds else c :: d :: ds

/-- Cores where a V node may run, best first; a PIN node that some core scores has only the best (R303). -/
def nodeCores (s : State) (c : Cand) (die : Nat) : List (Fin 1024) :=
  let cs := dieCores s (effClmask s c.graph.rcb) die
  match bestCore c.node with
  | none => cs
  | some b => if dPin c.node.desc then cs.filter fun k => k.val == b else cs.foldr (insertScore c.node) []

/-- Whether a context runs best-effort work. -/
def bestEffort (s : State) (c : CtxId) : Bool :=
  match (s.ctx c).node with
  | none => true
  | some r => match tabFind s.graphs r.graph with
    | none => true
    | some g => !g.admitted

/-- Whether a running node occupies a unit. -/
def occupied (s : State) (u : RUnit) : Bool := s.graphs.any fun g => g.2.nodes.any fun n => n.st == .running && n.ran == some u

def freeTug (s : State) (t : TugId) : Bool := (s.tug t).queue.isEmpty && !occupied s (.tug t)

def freeWalk (s : State) (w : WalkId) : Bool := (s.walk w).queue.isEmpty && (s.walk w).closed && !occupied s (.walk w)

/-- Units of a C node on a die, free or not. -/
def nodeTugs (s : State) (rcb : Word) (die : Nat) : List RUnit :=
  ((List.range 16).map fun i => die * 16 + i).flatMap fun cl =>
    if nbit (effClmask s rcb) cl && tugIn s cl then ((clusterTugs cl).filter fun t => nbit (effTugctx s rcb) t.t.val).map RUnit.tug else []

/-- Units of a W node on a die, free or not. -/
def nodeWalks (s : State) (rcb : Word) (die : Nat) : List RUnit :=
  if dieMeets (effClmask s rcb) die then
    ((List.range 4).map fun i => die * 4 + i).flatMap fun w =>
      if walkerIn s w then ((List.finRange 8).filter fun k => nbit (effAwlctx s rcb) k.val).map fun k => RUnit.walk { walker := Fin.ofNat 32 w, k } else []
  else []

/-- Units of a node on a die, free or not, in the order in which they are preferred. -/
def nodeUnits (s : State) (c : Cand) (die : Nat) : List RUnit :=
  match dKind c.node.desc with
  | 0 => (nodeCores s c die).flatMap fun k => (wordCtxs (dPart c.node.desc) k).map RUnit.ctx
  | 1 => nodeTugs s c.graph.rcb die
  | _ => nodeWalks s c.graph.rcb die

/-- Whether a unit is free for a node. -/
def unitFree (s : State) (c : Cand) : RUnit → Bool
  | .ctx x => !(s.ctx x).resident && joins s x.core (dPart c.node.desc) c.graph.rcb
  | .tug t => freeTug s t
  | .walk w => freeWalk s w



/-- Units of one core or of one kind in the order in which they are taken: an admitted graph's reserved ones first, unreserved ones before lent ones for best-effort work. -/
def preferIn (s : State) (c : Cand) (l : List RUnit) : List RUnit :=
  if c.graph.admitted then l.filter (fun u => c.graph.reserved.contains u) ++ l.filter (fun u => !c.graph.reserved.contains u)
  else
    let taken := allReserved s
    l.filter (fun u => !taken.contains u) ++ l.filter (fun u => taken.contains u)

/-- The units a node may use, in order: a V node's core by core, so that the score and the core index decide first (R303). -/
def prefer (s : State) (c : Cand) (die : Nat) : List RUnit :=
  let one (l : List RUnit) : List RUnit := preferIn s c (l.filter fun u => allowed s c u)
  if dKind c.node.desc = 0 then (nodeCores s c die).flatMap fun k => one ((wordCtxs (dPart c.node.desc) k).map RUnit.ctx) else one (nodeUnits s c die)

/-- Whether holding units for nodes ahead keeps a unit from a best-effort node (R302). -/
def heldBack (s : State) (ahead : List Cand) (die : Nat) (u : RUnit) : Bool :=
  ahead.any fun h => h.node.hold && (nodeUnits s h die).contains u

/-- The free unit a node takes on a die. -/
def findFree (s : State) (ahead : List Cand) (die : Nat) (c : Cand) : Option RUnit :=
  (prefer s c die).find? fun u => unitFree s c u && (c.graph.admitted || !heldBack s ahead die u)

/-! Lent contexts (R308). -/

/-- A signal's wait, its context renamed. -/
def SigWait.moved (a b : CtxId) (w : SigWait) : SigWait := if w.ctx = a then { w with ctx := b } else w

/-- A command's issuer, renamed. -/
def movedIssuer (a b : CtxId) (i : Option CtxId) : Option CtxId := if i = some a then some b else i

/-- The work at place `a` of a core goes to place `b`: the context, and its name wherever its slots, its rings and its engine work have it. -/
def moveWork (s : State) (a b : CtxId) : State :=
  let x := s.ctx a
  let s := s.modCore a.core.val fun k =>
    { k with
      slots := k.slots.map fun z => if z.ownedBy a.lc then { z with owner := b.lc } else z
      rings := k.rings.map fun r => if r.init && r.owner == a.lc then { r with owner := b.lc } else r
      slabs := k.slabs.filter fun z => z.1 != a.lc.val
      arr := { k.arr with ops := k.arr.ops.map fun o => { o with lc := if o.lc = a.lc then b.lc else o.lc, sig := o.sig.map (SigWait.moved a b) } } }
  let s : State := { s with
    tugs := s.tugs.map fun e => (e.1, { e.2 with queue := e.2.queue.map fun k => { k with issuer := movedIssuer a b k.issuer, sig := k.sig.map (SigWait.moved a b) } })
    walks := s.walks.map fun e => (e.1, { e.2 with queue := e.2.queue.map fun o => { o with issuer := movedIssuer a b o.issuer, sig := o.sig.map (SigWait.moved a b) } }) }
  (s.setCtx b { x with kept0 := (s.ctx b).kept0 }).setCtx a { Ctx.reset with kept0 := x.kept0 }

/-- Parks best-effort work in place at a pre-emption point: it keeps its slots and rings, and its engine work runs on (R340, R343, R421). Its tiles are kept for it, since the node takes its accumulators (log 39). -/
def lendHere (s : State) (c : CtxId) : State :=
  let s := preempt s c
  let s := if (s.ctx c).binds.isEmpty then s else flushLines s c.core.val (fun _ => true) true
  let was := (s.ctx c).st
  let s := s.modCtx c fun x => { x with st := .parked }
  let k := s.core c.core.val
  let l : Lent := { home := c, inPlace := true, ctx := s.ctx c, was, part := k.part, image := [], tiles := memSlice k.pool (tilesOff k.part c.lc.val) (tilesLen k.part c.lc.val) 0 }
  moveWork { s with lent := s.lent ++ [l] } c (spotOf c)

/-- Moves best-effort work out into an image in firmware space. -/
def lendOut (s : State) (c : CtxId) : State :=
  let s := preempt s c
  let cmds := ctxCommands s c
  let s := quiesceCtx s c
  let s := if (s.ctx c).binds.isEmpty then s else flushLines s c.core.val (fun _ => true) true
  let s := writeArea s c
  let l : Lent := { home := c, inPlace := false, ctx := s.ctx c, was := (s.ctx c).st, part := (s.core c.core.val).part, image := buildImage s c cmds [], tiles := [] }
  { leaveCore s c with lent := s.lent ++ [l] }

/-- Work parked in place goes on, as it was before. -/
def returnHere (s : State) (l : Lent) : State :=
  let s := s.modCore l.home.core.val fun k => { k with pool := putTiles k.pool k.part l.home.lc.val l.tiles }
  (moveWork { s with lent := s.lent.filter fun k => k != l } (spotOf l.home) l.home).modCtx l.home fun x => { x with st := l.was }

/-- What makes way for an admitted graph's node on a reserved context. -/
inductive Way where
  | park (c : CtxId)
  | out (c : CtxId)
  | clear (c : CtxId)
  deriving DecidableEq, Repr

/-- How best-effort work can make way on a reserved context: of the graph's own region parked in place, or moved out where work that a node handed over followed is parked there already (DESIGN CHOICE, log 39); of another region moved out with every other resident of it. -/
def wayFor (s : State) (c : Cand) (x : CtxId) : Option Way :=
  let rs := residents s x.core
  if joins s x.core (dPart c.node.desc) c.graph.rcb then
    if (s.ctx x).resident && bestEffort s x then some (if (s.ctx (spotOf x)).resident then .out x else .park x) else none
  else if rs.all (bestEffort s) then some (.clear x)
  else none

/-- The reserved context where best-effort work makes way for a node, and how. -/
def findWay (s : State) (die : Nat) (c : Cand) : Option Way :=
  if c.graph.admitted && dKind c.node.desc = 0 then
    (nodeUnits s c die).findSome? fun u =>
      match u with
      | .ctx x => if c.graph.reserved.contains u then wayFor s c x else none
      | .tug _ | .walk _ => none
  else none

/-- Every context of a core is moved out, those parked in place after those that run. -/
def moveAllOut (s : State) (core : Fin 1024) : State :=
  let t := (residents s core).foldl lendOut s
  (parkedOn t core).foldl (fun s l => lendOut (returnHere s l) l.home) t

def makeWay (s : State) : Way → State × CtxId
  | .park c => (lendHere s c, c)
  | .out c => (lendOut s c, c)
  | .clear c => (moveAllOut s c.core, c)

/-- Whether work parked in place can go on where it was: under its partition word, beside work of its region. -/
def canReturn (s : State) (l : Lent) : Bool :=
  let k := s.core l.home.core.val
  !(s.ctx l.home).resident && coreIn s l.home.core.val && k.part == l.part && k.last == some l.ctx.rcb &&
    ((residents s l.home.core).all fun o => (s.ctx o).rcb == l.ctx.rcb)

/-- The loop context on a die that moved-out work can be resumed on. -/
def findResume (s : State) (die : Nat) (l : Lent) : Option CtxId :=
  let word := BitVec.ofNat 64 (memRead l.image 0x20000 8)
  ((dieCores s (effClmask s l.ctx.rcb) die).flatMap (wordCtxs word)).find? fun c => resumeOk s c l.image

/-- Resumes the oldest lent work that can go on on a die. -/
def resumeLent (s : State) (die : Nat) : List Lent → Option State
  | [] => none
  | l :: ls =>
    let gone : State := { s with lent := s.lent.filter fun k => k != l }
    if l.inPlace then
      if dieOf l.home.core.val == die && canReturn s l then some (returnHere s l) else resumeLent s die ls
    else
      match findResume s die l with
      | some c => some ((loadSaved gone c l.image false false).modCtx c fun x => { x with st := l.ctx.st })
      | none => resumeLent s die ls

/-! Starting a node. -/

/-- Starts a node on a unit: a C node's first block and a W node's first order are taken at once (R299). -/
def startNode (c : Cand) (u : RUnit) : M Unit :=
  match u with
  | .ctx x => modify fun s => startV s c x
  | .tug t => do
    modify fun s => runNode s c u (dNops c.node.desc)
    takeBlock t c.ref
  | .walk w => do
    modify fun s => runNode s c u (dNops c.node.desc + 1)
    takeOrder w c.ref

/-! Dispatch (R302, R303, R308). -/

/-- The first node in order with a unit, and what was ahead of it. -/
def firstFree (s : State) (die : Nat) : List Cand → List Cand → Option (Cand × RUnit)
  | _, [] => none
  | ahead, c :: cs =>
    match findFree s ahead die c with
    | some u => some (c, u)
    | none => firstFree s die (ahead ++ [c]) cs

/-- The first admitted node for which best-effort work makes way. -/
def firstWay (s : State) (die : Nat) : List Cand → Option (Cand × Way)
  | [] => none
  | c :: cs =>
    match findFree s [] die c, findWay s die c with
    | none, some w => some (c, w)
    | _, _ => firstWay s die cs

/-- Nodes another die's pool may lose: those that PIN does not tie to a core (R302, R303). -/
def stealable (s : State) (die : Nat) : List Cand :=
  sortCands ((allCands s).filter fun c => c.node.die != die && (!dPin c.node.desc || (bestCore c.node).isNone))

/-- What a die's scheduler does next. -/
inductive Choice where
  | start (c : Cand) (u : RUnit)
  | displace (c : Cand) (w : Way)
  | resume
  deriving DecidableEq, Repr

/-- The first choice of a list that is there. -/
def firstOf {α : Type} : List (Unit → Option α) → Option α
  | [] => none
  | f :: fs =>
    match f () with
    | some a => some a
    | none => firstOf fs

/-- The scheduler's choice: its pool's admitted nodes, lent work, its best-effort nodes, and, when it can place none of these, nodes of other pools (R302, R308). -/
def dieChoice (s : State) (die : Nat) : Option Choice :=
  let pool := sortCands (poolOf s die)
  let rest := pool.filter fun c => !c.graph.admitted
  let stolen := stealable s die
  let start (ahead l : List Cand) : Option Choice := (firstFree s die ahead l).map fun p => .start p.1 p.2
  let displace (l : List Cand) : Option Choice := (firstWay s die l).map fun p => .displace p.1 p.2
  let first := pool.filter fun c => c.graph.admitted
  let others := stolen.filter fun c => c.graph.admitted
  firstOf [fun _ => start [] first, fun _ => displace first, fun _ => (resumeLent s die s.lent).map fun _ => .resume, fun _ => start [] rest,
    fun _ => start [] others, fun _ => displace others, fun _ => start rest (stolen.filter fun c => !c.graph.admitted)]

/-! Handing a node over ahead (R304). -/

/-- Whether a core may be handed a V node ahead on a loop context: running work beside which R41 lets the node start, no node handed over yet, no unit held for another node. -/
def mayHand (s : State) (pool : List Cand) (die : Nat) (c : Cand) (u : RUnit) : Option (Fin 1024) :=
  match u with
  | .ctx x =>
    if allowed s c u && (s.core x.core.val).next.isNone && (s.ctx x).st == .running && joins s x.core (dPart c.node.desc) c.graph.rcb &&
        (c.graph.admitted || !heldBack s (pool.filter fun h => h.ref != c.ref && h.before c) die u) then some x.core else none
  | .tug _ | .walk _ => none

/-- The first V node in order that a die can hand to a core, and the core. -/
def handOver (s : State) (die : Nat) : Option (Cand × Fin 1024) :=
  let pool := sortCands (poolOf s die)
  let handed := s.cores.filterMap fun e => e.2.next
  (pool.filter fun c => dKind c.node.desc == 0 && !handed.contains c.ref).findSome? fun c =>
    (nodeUnits s c die).findSome? fun u => (mayHand s pool die c u).map fun k => (c, k)

/-- Bytes of a node's code that are filled ahead, from ENTRY on (R306). -/
def aheadBytes : Nat := 65536

/-- A translation joins a die's commons. -/
def shareTrans (die : Fin 8) (t : State) (e : Trans) : State :=
  { t with commons := tabSet t.commons die.val (e :: (tabGet [] t.commons die.val).filter fun x => x != e) }

/-- A page of code is filled ahead: into the die commons, its translation with it, and its words from `va` on into the core's decoded operations. -/
def aheadPage (core : Fin 1024) (asid : BitVec 16) (eff : BitVec 2) (s : State) (va : Nat) : State :=
  let die := Fin.ofNat 8 (dieOf core.val)
  let t := if (findCode s die.val asid (va / 4096)).isSome then s else fillPage die asid va s
  let t := match walkVa { asid, priv := 0, holder := .nobody } va t with
    | .ok e _ => shareTrans die t e
    | .error _ _ => t
  match findCode t die.val asid (va / 4096) with
  | some p =>
    let os : List DecOp := (List.range ((4096 - va % 4096) / 4)).map fun i => { asid, eff, va := va + 4 * i, word := BitVec.ofNat 32 (memRead p.bytes (va % 4096 + 4 * i) 4) }
    t.modCore core.val fun k => { k with ops := os ++ k.ops.filter fun o => !(o.asid == asid && o.eff == eff && o.va / 4096 == va / 4096 && va ≤ o.va) }
  | none => t

/-- The core fills the node's code into its decoded operations, and its first translations into the die commons (R304): the 64 KiB from ENTRY that R306 counts as a node's cold code fill (DEDUCED, log 39). -/
def fillAhead (s : State) (c : Cand) (core : Fin 1024) : State :=
  let va := dEntry c.node.desc
  let starts := va :: (List.range (aheadBytes / 4096)).filterMap fun i =>
    let a := (va / 4096 + 1 + i) * 4096
    if a < va + aheadBytes && a < ownBase then some a else none
  starts.foldl (aheadPage core (nodeAsid s c.graph) (BitVec.ofNat 2 (dDecl c.node.desc))) s

/-- A V node is handed to a core before a loop context on it is free; it stays in its pool until it starts (R304). -/
def handNode (s : State) (c : Cand) (core : Fin 1024) : State :=
  (if dEntry c.node.desc < ownBase then fillAhead s c core else s).modCore core.val fun k => { k with next := some c.ref }

/-- NODE_DISPATCH (R302): the die's scheduler starts the first node in order that has a unit, or resumes lent work ahead of best-effort nodes, or takes a node from another pool; with none of these, it may hand a node to a core ahead (R304). -/
def execNodeDispatch (die : Fin 8) (s : State) : Out :=
  event (do
    modify fun s => holdDie (ageDie s die.val) die.val
    let s ← get
    match dieChoice s die.val with
    | none => match handOver s die.val with
      | some h => set (handNode s h.1 h.2)
      | none => pure ()
    | some (.start c u) => startNode c u
    | some (.displace c w) =>
      let r := makeWay s w
      set r.1
      startNode c (.ctx r.2)
    | some .resume => match resumeLent s die.val s.lent with
      | some t => set t
      | none => pure ()) s

/-! Clearing ahead of a start (R42). -/

/-- The first node in order that could start on a core once it is cleared: nothing is resident there. -/
def clearFor (s : State) (core : Fin 1024) : Option Cand :=
  (sortCands (allCands s)).find? fun c =>
    dKind c.node.desc == 0 && partOk (dPart c.node.desc) && needsClear (s.core core.val) (dPart c.node.desc) c.graph.rcb &&
      ((nodeUnits s c (dieOf core.val)).any fun u => match u with
        | .ctx x => x.core == core && allowed s c u
        | .tug _ | .walk _ => false)

/-- POOL_CLEAR (R42): a core with no resident is cleared and takes the partition word and region of a node that is to start on it. -/
def execPoolClear (core : Fin 1024) (s : State) : Out :=
  .next (if (heldRegions s core).isEmpty then
    match clearFor s core with
    | some c => s.modCore core.val fun k => k.prepare (dPart c.node.desc) c.graph.rcb
    | none => s
  else s)

end Sys2Proof.Machine
end

