-- ==== Sys2Proof/Machine/Entries.lean ====
section
/-! DEFINITION. The format-table instructions FTWR, FTRD and FTFENCE (R57, R81, R82, R224), and the entries that operations in flight hold. -/

namespace Sys2Proof.Machine

/-! Entries in use (R81, R82). -/

/-- A fill of a slot that sets its entry and has still to come or to land: its place in program order, and the entry. -/
structure EntFill where
  num : Nat
  seq : Nat
  ent : Nat

/-- The later of two fills. -/
def EntFill.later (a b : EntFill) : EntFill := if a.num < b.num || (a.num == b.num && a.seq < b.seq) then b else a

/-- Fills of a slot's data before a place: MLDs of the queue, and Tug commands (R210, R231). -/
def entFills (s : State) (c : CtxId) (n : Fin 32) (p : Place) : List EntFill :=
  let x := s.ctx c
  let ahead (m : Nat) : Bool := match p with | .entry k => m < k | .cmd k _ => m ≤ k
  (x.unrun.filterMap fun e => match e.instr with
    | .mld f => if f.slot == n && ahead e.num then some { num := e.num, seq := 0, ent := (x.q[f.q]).desc.ent } else none
    | _ => none) ++
  ((openFills s c n).filter fun k => k.before' p).map fun k => { num := k.after, seq := k.seq + 1, ent := k.blk.dent }

/-- The entry of a slot's data as an operation at a place finds it: the latest earlier fill's, or the slot's own once it has landed. -/
def slotEnt (s : State) (c : CtxId) (n : Fin 32) (p : Place) : Nat :=
  match entFills s c n p with
  | [] => ((s.core c.core.val).slots[n]).ent.val
  | f :: fs => (fs.foldl EntFill.later f).ent

/-- The slots whose entries an operation of the array uses: its two operands. -/
def operandSlots : Instr → List (Fin 32)
  | .mma f | .mmas f | .mslide f => [f.slotA, f.slotB]
  | .mprom f => [f.slotA, f.slotB]
  | _ => []

/-- The entries a vector or matrix instruction of a context uses. -/
def entriesUsed (s : State) (c : CtxId) (e : QEntry) : List Nat :=
  let x := s.ctx c
  let vt := wbits e.cap.vtype 0 4
  let stream (q : Fin 16) : Nat := x.q[q].desc.ent
  match e.instr with
  | .mpop _ | .mfirst _ | .mclaim _ | .mrel _ | .mzero _ => []
  | .mld f => [stream f.q]
  | .mlds f => [stream f.q]
  | .mma _ | .mmas _ | .mslide _ | .mprom _ => (operandSlots e.instr).map fun n => slotEnt s c n (.entry e.num)
  | .vidx f => if f.fn.val == 15 then [vt, f.vb.val % 16] else [vt]
  | .vld f => [vt, stream f.q]
  | .vldb f => [vt, stream f.q]
  | .vst f => [vt, stream f.q]
  | .vzsub f => [vt, f.ent.val]
  | .vcvt f => [vt, f.ent.val]
  | .vpack f => [vt, f.ent.val]
  | .vunpk f => [vt, f.ent.val]
  | .vscl f => [f.ent.val]
  | _ => [vt]

/-- The entries a Tug command uses, with those of its follow-on's operands. -/
def TugCmd.entries (s : State) (c : CtxId) (k : TugCmd) : List Nat :=
  let b := k.blk
  let u := usesEnts k.fn b
  let ops := match decode (followWord k) with | .ok i => if k.fn = 1 && !k.followed then operandSlots i else [] | .error _ => []
  (if u.1 then [b.sent] else []) ++ (if u.2 then [b.dent] else []) ++ ops.map fun n => slotEnt s c n (.cmd k.after (k.seq + 1))

/-- The entries a walk operation uses. -/
def WalkOp.entries (x : Walk) (o : WalkOp) : List Nat :=
  match o.kind, x.tree with
  | .query _ _ _ _ _ _, some t | .append _, some t | .refit, some t => [t.kent, t.sent, t.vent]
  | _, _ => []

/-- An FTWR replaces entry `n` of a context: the operations in flight that hold it hold a replaced value from then on (R82). -/
def replaceEntry (s : State) (c : CtxId) (n : Nat) : State :=
  let s0 := s
  let mark (e : QEntry) : QEntry := if (entriesUsed s0 c e).contains n then { e with stale := true } else e
  let s := (s.modCtx c fun x => { x with queue := x.queue.map mark, kept := x.kept.map mark }).modCore c.core.val fun k =>
    { k with arr := { k.arr with ops := k.arr.ops.map fun o => if o.lc == c.lc then { o with entry := o.entry.map mark } else o } }
  let cmd (k : TugCmd) : TugCmd := if k.issuer == some c && (TugCmd.entries s0 c k).contains n then { k with stale := true } else k
  let op (w : Walk) (o : WalkOp) : WalkOp := if o.issuer == some c && (o.entries w).contains n then { o with stale := true } else o
  { s with
    tugs := s.tugs.map fun t => (t.1, { t.2 with queue := t.2.queue.map cmd })
    walks := s.walks.map fun w => (w.1, { w.2 with queue := w.2.queue.map (op w.2) }) }

/-- Whether an operation of a context in flight holds a value of an entry that a later FTWR has replaced (R82). -/
def staleEntries (s : State) (c : CtxId) : Bool :=
  let x := s.ctx c
  (x.queue ++ x.kept).any (·.stale) ||
  (s.core c.core.val).arr.ops.any (fun o => o.lc == c.lc && (match o.entry with | some e => e.stale | none => false)) ||
  s.tugs.any (fun t => t.2.queue.any fun k => k.issuer == some c && k.stale) ||
  s.walks.any fun w => w.2.queue.any fun k => k.issuer == some c && k.stale

/-! The instructions (R224). -/

/-- FTWR (R57, R81, R224). -/
def execFtwr (f : FtwrForm) (s : State) : Out :=
  scalar (do
    let w ← readS f.sa
    let k := entryCheck f.n.val w
    needN (k == 0) .entryIllegal k
    modify fun s => replaceEntry s s.cur f.n.val
    modMe fun c => { c with ents := c.ents.set (Fin.ofNat 8 (f.n.val - 8)) (if (fmtOf w).valid then w else 0) }) s

/-- FTRD (R61, R224): 0 for an invalid entry. -/
def execFtrd (f : FtrdForm) (s : State) : Out :=
  scalar (do
    let c ← getMe
    writeS f.sd (entWord c.ents f.n.val)) s

/-- FTFENCE (R82). -/
def execFtfence (_ : A0) (s : State) : Out :=
  scalar (do
    let s ← get
    waitUnless (!staleEntries s s.cur)) s

end Sys2Proof.Machine
end

