-- ==== Sys2Proof/Machine/HostIf.lean ====
section
/-! DEFINITION. The host windows (R381, R382, R389), the fetch of commands and their checks (R383 to R386), the commands (R384, R294 to R296), and completion records (R387, R388). -/

namespace Sys2Proof.Machine

/-! Host memory. -/

def hostMem (s : State) (link : Bool) : Memory := if link then s.host1 else s.host0

def hostBytes (s : State) (link : Bool) (a n : Nat) : List Byte := memBytes (hostMem s link) a n

def hostPut (s : State) (link : Bool) (a : Nat) (b : List Byte) : State :=
  if link then { s with host1 := memPut s.host1 a b } else { s with host0 := memPut s.host0 a b }

/-- READY: QUE and MEM answer (R408). -/
def isReady (s : State) : Bool := s.dl.st == 4

/-! Queue configuration (R382). -/

def cfgEn (w : Word) : Bool := nbit w.toNat 8

def cfgLink (w : Word) : Bool := nbit w.toNat 4

def cfgSlots (w : Word) : Nat := 2 ^ wbits w 0 4

/-- A configuration as written: its fields, with EN staying 0 when LOG2N is 0 or 13 to 15. -/
def cfgPut (fields : Word) (v : Word) : Word :=
  let w := v &&& fields
  if wbits w 0 4 = 0 || 13 ≤ wbits w 0 4 then w &&& ~~~256 else w

/-- Whether a write to a configuration register is taken: EN is 0, or the write clears it. -/
def cfgTaken (old v : Word) : Bool := !cfgEn old || !cfgEn v

/-- SQCFG (R382): setting EN zeroes SQHEAD and SQTAIL. -/
def execSqcfg (q : Fin 64) (v : BitVec 64) (s : State) : Out :=
  .next (if isReady s then s.modQueue q fun k =>
    if cfgTaken k.sqcfg v then
      let w := cfgPut 0x11F v
      if cfgEn w then { k with sqcfg := w, sqhead := 0, sqtail := 0, tries := 0 } else { k with sqcfg := w, tries := 0 }
    else k
  else s)

/-- CQCFG (R382): setting EN zeroes CQHEAD and CQTAIL. -/
def execCqcfg (q : Fin 64) (v : BitVec 64) (s : State) : Out :=
  .next (if isReady s then s.modQueue q fun k =>
    if cfgTaken k.cqcfg v then
      let w := cfgPut 0x3FFF1F v
      if cfgEn w then { k with cqcfg := w, cqhead := 0, cqtail := 0 } else { k with cqcfg := w }
    else k
  else s)

/-- SQTAIL (R386): a count below SQHEAD or more than the slots above it is discarded; while a command is retried a notify only raises the count. -/
def execSqtail (q : Fin 64) (v : BitVec 32) (s : State) : Out :=
  .next (if isReady s then s.modQueue q fun k =>
    let ahead := (v - k.sqhead).toNat
    if cfgSlots k.sqcfg < ahead || (k.tries != 0 && ahead < (k.sqtail - k.sqhead).toNat) then k else { k with sqtail := v }
  else s)

/-- CQHEAD (R388): the host's consumed count. -/
def execCqhead (q : Fin 64) (v : BitVec 32) (s : State) : Out :=
  .next (if isReady s then s.modQueue q fun k => { k with cqhead := v } else s)

/-- A MEM window begins at a multiple of its size (R381): the low bits of MEMOFF are reserved. -/
def windowBase (s : State) (v : Word) : Word := BitVec.ofNat 64 (v.toNat / 2 ^ s.memWin * 2 ^ s.memWin)

/-- REGISTER_WRITE (R381, R382, R408): a base register while its queue is disabled, MEMOFF from READY on, or a download register before READY. -/
def execRegisterWrite (r : HostReg) (v : BitVec 64) (s : State) : Out :=
  .next (match r with
    | .sqbase q => if isReady s then s.modQueue q fun k => if cfgEn k.sqcfg then k else { k with sqbase := v } else s
    | .cqbase q => if isReady s then s.modQueue q fun k => if cfgEn k.cqcfg then k else { k with cqbase := v } else s
    | .memoff => if isReady s then { s with memOff := windowBase s v } else s
    | .dladdr => if isReady s then s else { s with dl := { s.dl with addr := v } }
    | .dllen => if isReady s then s else { s with dl := { s.dl with len := v } }
    | .other _ => s)

/-- RESIZABLE_BAR_WRITE (R381): the MEM window takes a size from 1 GiB to 32 TiB, and MEMOFF stays aligned to it. -/
def execResizableBarWrite (log2 : Nat) (s : State) : Out :=
  .next (if 30 ≤ log2 && log2 ≤ 45 then
    let t : State := { s with memWin := log2 }
    { t with memOff := windowBase t t.memOff }
  else s)

/-! What a host read of a register returns (R5, R381, R382, R408). -/

/-- DLSTAT. -/
def dlStat (s : State) : Nat := s.dl.reason % 256 * 256 + s.dl.st % 256

/-- The register at an offset of CTL: before READY the download registers alone, from READY on MODID and MEMOFF. -/
def ctlRead (s : State) (off : Nat) : Nat :=
  if isReady s then
    match off with
    | 0x0000 => s.modId.val
    | 0x0008 => s.memOff.toNat
    | _ => 0
  else
    match off with
    | 0x1000 => s.dl.addr.toNat
    | 0x1008 => s.dl.len.toNat
    | 0x1018 => dlStat s
    | _ => 0

/-- The register at an offset of queue page `q`. -/
def queRead (s : State) (q : Fin 64) (off : Nat) : Nat :=
  if isReady s then
    let k := s.queue q
    match off with
    | 0x000 => k.sqbase.toNat
    | 0x008 => k.sqcfg.toNat
    | 0x010 => k.sqtail.toNat
    | 0x018 => k.sqhead.toNat
    | 0x800 => k.cqbase.toNat
    | 0x808 => k.cqcfg.toNat
    | 0x810 => k.cqhead.toNat
    | 0x818 => k.cqtail.toNat
    | _ => 0
  else 0

/-! The MEM window (R389). -/

/-- Whether a byte of main memory is reached: fitted, outside firmware space. -/
def memReach (s : State) (l : Nat) : Bool := l < s.memSize && physKind s (s.local l) == .memory && !(s.fwBase ≤ l && l < s.fwBase + s.fwSize)

/-- A byte written through MEM: to main memory that is reached, or to a drive's BAR. -/
def windowByte (s : State) (l : Nat) (b : Byte) : State :=
  if memReach s l then { s with mem := memSet s.mem (s.local l) b }
  else
    match physKind s (s.local l) with
    | .drive d off =>
      let x := tabGet Drive.reset s.drives d
      { s with drives := tabSet s.drives d { x with bar := (off, b) :: x.bar } }
    | _ => s

/-- Writes bytes through MEM. -/
def windowPut (s : State) (l : Nat) : List Byte → State
  | [] => s
  | b :: bs => windowPut (windowByte s l b) (l + 1) bs

/-- The byte a host reads at a module-local physical address: of main memory that is reached (a free value where it is poisoned, log 7), of a drive's BAR a free value, and zero elsewhere. -/
def windowGet (s : State) (l : Nat) : Byte :=
  if memReach s l then (if poisoned s (s.local l) 1 then BitVec.ofNat 8 (Config.free (s.tick + l)) else memGet s.mem (s.local l))
  else
    match physKind s (s.local l) with
    | .drive d off => Config.barByte s.tick d off
    | _ => 0

/-- What a host read of `n` bytes at an offset of MEM returns; before READY, and beyond the window, zero. -/
def windowRead (s : State) (off n : Nat) : List Byte :=
  (List.range n).map fun i => if isReady s && off + i < 2 ^ s.memWin then windowGet s (s.memOff.toNat + off + i) else 0

/-- HOST_MEM_ACCESS (R389): a write through MEM is performed; a read, which returns `windowRead`, changes nothing. -/
def execHostMemAccess (off : Nat) (a : HostAccess) (s : State) : Out :=
  .next (match a with
    | .read _ => s
    | .write data =>
      if isReady s && off + data.length ≤ 2 ^ s.memWin then
        let l := s.memOff.toNat + off
        let t := windowPut s l data
        { t with poison := if memReach s l then unpoison t.poison (s.local l) data.length else t.poison }
      else s)

/-! Command fetch (R383, R385). -/

/-- One bit of CRC-16 with polynomial 0x1021. -/
def crcBit (c : Nat) : Nat := if 0x8000 ≤ c then (2 * c % 0x10000) ^^^ 0x1021 else 2 * c

/-- CRC-16 of bytes (R383). -/
def crc16 (bs : List Byte) : Nat :=
  bs.foldl (fun c b =>
    let x := c ^^^ (b.toNat * 256)
    (List.range 8).foldl (fun x _ => crcBit x) x) 0xFFFF

/-- A command that has been fetched whole. -/
structure HostCmd where
  opc : Nat
  head : CmdHead
  pay : List Byte
  deriving DecidableEq, Repr

/-- How an attempt to fetch ends: again, with the check a last failure records, or with a check that fails now, or with a command. -/
inductive Fetched where
  | again (check : Nat)
  | bad (check : Nat) (head : CmdHead)
  | cmd (c : HostCmd)
  deriving DecidableEq, Repr

/-- Bytes `off` to `off + n - 1` of a list, as a number. -/
def byteField (b : List Byte) (off n : Nat) : Nat := ofBytes ((b.drop off).take n)

/-- Payload bytes of a command. -/
def cmdLen (opc : Nat) : Nat :=
  match opc with
  | 0 => 0 | 1 => 16 | 2 => 16 | 3 => 16 | 4 => 8 | _ => 32

/-- The fields of a payload keep R384. -/
def payOk (opc : Nat) (p : List Byte) : Bool :=
  match opc with
  | 0 => true
  | 1 | 2 | 3 => byteField p 2 6 == 0
  | 4 => byteField p 0 8 % 262144 == 0
  | _ => 2 ≤ byteField p 4 4 && byteField p 4 4 ≤ 65536 && byteField p 8 8 % 4096 == 0 && byteField p 16 8 % 4096 == 0 && byteField p 24 8 == 0

/-- The fields of a header keep R383. -/
def headOk (h : List Byte) : Bool :=
  byteField h 2 1 < 64 && byteField h 3 1 == 0 && byteField h 0x10 4 % 8 == 0 && byteField h 0x20 32 == 0 &&
    (if byteField h 0x10 4 = 0 then byteField h 8 8 == 0 else byteField h 8 8 % 8 == 0)

/-- One attempt to fetch the next command of a queue (R385). -/
def fetchCmd (s : State) (q : Fin 64) : Fetched :=
  let k := s.queue q
  let link := cfgLink k.sqcfg
  let h := hostBytes s link (k.sqbase.toNat + 64 * (k.sqhead.toNat % cfgSlots k.sqcfg)) 64
  let f (off n : Nat) : Nat := byteField h off n
  let head : CmdHead := { sq := q, cq := Fin.ofNat 64 (f 2 1), seq := k.sqhead, tag := BitVec.ofNat 64 (f 0x18 8) }
  if crc16 (h.take 0x16 ++ [0, 0] ++ h.drop 0x18) != f 0x16 2 || f 4 4 != k.sqhead.toNat then .again 1
  else if 4096 < f 0x10 4 then .bad 4 head
  else
    let p := hostBytes s link (f 8 8) (f 0x10 4)
    if crc16 p != f 0x14 2 then .again 2
    else if 6 ≤ f 0 2 then .bad 3 head
    else if !headOk h || f 0x10 4 != cmdLen (f 0 2) || !payOk (f 0 2) p then .bad 4 head
    else .cmd { opc := f 0 2, head, pay := p }

/-- The answer of a drive's admin queue: not the module's to say, a free value (log 8). -/
def driveAnswer (s : State) : Option (BitVec 32) :=
  if Config.free s.tick % 2 = 0 then none else some (BitVec.ofNat 32 (Config.free (s.tick + 1)))

/-- The step that carries a command out. -/
def cmdStep (s : State) (c : HostCmd) : Instr :=
  let f (off n : Nat) : Nat := byteField c.pay off n
  let w (off : Nat) : BitVec 64 := BitVec.ofNat 64 (f off 8)
  let asid := BitVec.ofNat 16 (f 0 2)
  match c.opc with
  | 0 => .hostCmdNop c.head
  | 1 => .submit c.head asid (w 8)
  | 2 => .regionInstall c.head asid (w 8)
  | 3 => .regionRemove c.head asid (w 8)
  | 4 => .fdtabSet c.head (w 0)
  | _ => .nvmeQpair c.head { drive := BitVec.ofNat 32 (f 0 4), depth := BitVec.ofNat 32 (f 4 4), sq := w 8, cq := w 16 } (driveAnswer s)

/-- Answers a command on its own queue. -/
def answer (s : State) (h : CmdHead) (status check : Nat) : State :=
  pushRecord s h.cq { status, sq := h.sq.val, check, tag := h.tag, time := s.time, seq := h.seq }

/-- The header's queue and tag as last read, for a record about a command that never arrived whole; with a failing header its fields are all there is. -/
def lastHead (s : State) (q : Fin 64) : CmdHead :=
  let k := s.queue q
  let h := hostBytes s (cfgLink k.sqcfg) (k.sqbase.toNat + 64 * (k.sqhead.toNat % cfgSlots k.sqcfg)) 64
  { sq := q, cq := Fin.ofNat 64 (byteField h 2 1), seq := k.sqhead, tag := BitVec.ofNat 64 (byteField h 0x18 8) }

/-- The command is settled: SQHEAD moves on. -/
def settleCmd (s : State) (q : Fin 64) : State := s.modQueue q fun k => { k with sqhead := k.sqhead + 1, tries := 0 }

/-- What an attempt leads to; `try'` is its number. A fetched command is the next turn. -/
def fetchTry (s : State) (q : Fin 64) (try' : Nat) : State :=
  match fetchCmd s q with
  | .cmd c => { settleCmd s q with agenda := .event (cmdStep s c) :: s.agenda }
  | .bad n h => settleCmd (answer s h 6 n) q
  | .again n => if try' < 16 then s.modQueue q fun k => { k with tries := try' + 1 } else settleCmd (answer s (lastHead s q) 6 n) q

/-- COMMAND_FETCH (R385): the next command of an enabled queue is fetched and checked. -/
def execCommandFetch (q : Fin 64) (s : State) : Out :=
  let k := s.queue q
  .next (if isReady s && cfgEn k.sqcfg && k.sqtail != k.sqhead && k.tries == 0 then fetchTry s q 0 else s)

/-- FETCH_RETRY (R385): a microsecond later, the header and payload are fetched again. -/
def execFetchRetry (q : Fin 64) (s : State) : Out :=
  let k := s.queue q
  .next (if isReady s && cfgEn k.sqcfg && k.tries != 0 then fetchTry s q k.tries else s)

/-! Completion records (R387, R388). -/

/-- The 32 bytes of a record; `phase` is PHASE. -/
def recordBytes (r : CRec) (phase : Bool) : List Byte :=
  numBytes 1 r.status ++ numBytes 1 phase.toNat ++ numBytes 1 r.sq ++ [0] ++ numBytes 4 r.check ++ numBytes 8 r.tag.toNat ++ numBytes 8 r.time ++
    numBytes 4 r.seq.toNat ++ numBytes 4 0

/-- COMPLETION_RECORD_WRITE (R388): the oldest record is written once there is room, CQTAIL rises, and VEC is raised if IEN is set. -/
def execCompletionRecordWrite (q : Fin 64) (s : State) : Out :=
  let k := s.queue q
  .next (match k.waiting with
    | [] => s
    | r :: rest =>
      if isReady s && cfgEn k.cqcfg && (k.cqtail - k.cqhead).toNat < cfgSlots k.cqcfg then
        let n := cfgSlots k.cqcfg
        let t := hostPut s (cfgLink k.cqcfg) (k.cqbase.toNat + 32 * (k.cqtail.toNat % n)) (recordBytes r (k.cqtail.toNat / n % 2 == 0))
        t.modQueue q fun k => { k with waiting := rest, cqtail := k.cqtail + 1, raised := if nbit k.cqcfg.toNat 9 then k.raised + 1 else k.raised }
      else s)

/-! Commands (R384). -/

/-- HOST_CMD_NOP. -/
def execHostCmdNop (h : CmdHead) (s : State) : Out := .next (answer s h 0 0)

/-- The zero fields and ranges of a region control block (R295). -/
def blockShape (b : BitVec 2048) : Bool :=
  let f (off n : Nat) : Nat := blkField b off n
  f 9 1 < 16 && f 0xA 1 < 3 && f 0xB 1 == 0 && f 0xC 2 < 512 && f 0xE 2 == 0 && f 0x14 4 == 0 && f 0x32 14 == 0 && f 0x60 160 == 0 && f 8 1 < 8

/-- The effective values of a region are in the ranges of R295. -/
def effRanges (s : State) (r : Word) : Bool :=
  effRsvctx s r ≤ 3072 && effRsvtug s r ≤ 256 && effRsvawl s r ≤ 128 && 1 ≤ effPoolsl s r && effPoolsl s r ≤ 128 && effMlbw s r ≤ 64 && effFdom s r < 4096

/-- A mask lies within another. -/
def subMask (a b : Nat) : Bool := a &&& b == a

/-- The effective values of a region lie within its parent's (R296). -/
def withinParent (s : State) (r p : Word) : Bool :=
  subMask (effClmask s r) (effClmask s p) && subMask (effTugctx s r) (effTugctx s p) && subMask (effAwlctx s r) (effAwlctx s p) &&
    effRsvctx s r ≤ effRsvctx s p && effRsvtug s r ≤ effRsvtug s p && effRsvawl s r ≤ effRsvawl s p && effPoolsl s r ≤ effPoolsl s p &&
    effMlbw s r ≤ effMlbw s p && effPrio s r ≤ effPrio s p && (effDlpol s p != 0 || effDlpol s r == 0)

/-- A region block passes R295 and R296; `s` holds it installed. -/
def regionOk (s : State) (r : Region) : Bool :=
  let parent := blkField r.block 0 8
  let level := blkField r.block 8 1
  blockShape r.block && effRanges s r.va &&
    (if parent = 0 then level == 0 && blkField r.block 0xC 2 == 0x1FF
    else match s.region (BitVec.ofNat 64 parent) with
      | none => false
      | some p => level == blkField p.block 8 1 + 1 && withinParent s r.va p.va)

/-- Reads a region block for the Saddler. -/
def readRegion (asid : BitVec 16) (va : Nat) : M (Option (BitVec 2048)) := do
  if va % 64 != 0 then return none
  else
    let w : Who := { asid, priv := 2, holder := .nobody }
    match ← attempt (mapM' (pieces64 va 256) fun p => do
        needN (p.1 + p.2 ≤ ownBase) .lpRange p.1
        let q ← translate w p.1 .read true
        let v ← physRead q.pa p.2
        return numBytes p.2 v) with
    | .ok bs => return some (BitVec.ofNat 2048 (ofBytes bs.flatten))
    | .error _ => return none

/-- REGION_INSTALL (R294, R296): the Saddler captures the block; REFUSED with check 2 when installed, 1 when a check fails. -/
def execRegionInstall (h : CmdHead) (asid : BitVec 16) (va : BitVec 64) (s : State) : Out :=
  event (do
    if (s.region va).isSome then modify fun s => answer s h 7 2
    else
      match ← readRegion asid va.toNat with
      | none => modify fun s => answer s h 7 1
      | some block =>
        let r : Region := { va, asid, block, lastDie := 7, spawned := 0 }
        let s ← get
        let t : State := { s with regions := s.regions ++ [r] }
        if regionOk t r then set (answer (writeHeld t r) h 0 0) else set (answer s h 7 1)) s

/-- Whether something of a region keeps it from being removed (R294): a child, a graph, a resident node, lent work. -/
def regionBusy (s : State) (va : Word) : Bool :=
  s.regions.any (fun r => blkField r.block 0 8 == va.toNat) || s.graphs.any (fun g => g.2.rcb == va) ||
    (allCtxs s).any (fun c => (s.ctx c).resident && (s.ctx c).rcb == va) || s.lent.any fun l => l.ctx.rcb == va

/-- REGION_REMOVE (R294, R384). -/
def execRegionRemove (h : CmdHead) (asid : BitVec 16) (va : BitVec 64) (s : State) : Out :=
  .next (match s.region va with
    | none => answer s h 7 2
    | some r =>
      if r.asid != asid then answer s h 7 2
      else if regionBusy s va then answer s h 7 3
      else answer { s with regions := s.regions.filter fun r => r.va != va } h 0 0)

/-- FDTAB_SET (R337, R384): the table's module-local address; REFUSED with check 4 while a region is installed. -/
def execFdtabSet (h : CmdHead) (pa : BitVec 64) (s : State) : Out :=
  .next (if s.regions.isEmpty then answer { s with fdTable := some (s.local pa.toNat) } h 0 0 else answer s h 7 4)

/-- NVME_QPAIR (R384): a queue pair on a drive; `got` is the identifier the drive's admin queue answers with, none when it refuses. -/
def execNvmeQpair (h : CmdHead) (p : QPair) (got : Option (BitVec 32)) (s : State) : Out :=
  let n := p.drive.toNat
  let d := tabGet Drive.reset s.drives n
  .next (match got with
    | none => answer s h 7 5
    | some id =>
      if n < 128 && d.present then
        answer { s with drives := tabSet s.drives n { d with pairs := d.pairs ++ [{ id := id.toNat, depth := p.depth.toNat, sq := p.sq, cq := p.cq }] } } h 0 id.toNat
      else answer s h 7 5)

/-! Drives (R390, R391). -/

/-- DRIVE_DMA_WRITE (R391): a drive's write reaches module-local main memory only; any other address fails the drive's command. -/
def execDriveDmaWrite (drive : Fin 128) (pa : Nat) (data : List (BitVec 8)) (s : State) : Out :=
  let inMem := (List.range data.length).all fun i => physKind s (s.local (pa + i)) == .memory && pa + i < 2 ^ 52
  .next (if (tabGet Drive.reset s.drives drive.val).present && inMem then
    { s with mem := memPut s.mem (s.local pa) data, poison := unpoison s.poison (s.local pa) data.length }
  else s)

/-! Firmware and power (R408 to R410). -/

/-- DLGO (R408): a download starts over the link written, when the module is idle or has rejected an image. -/
def execDlgo (link : Fin 2) (s : State) : Out :=
  .next (if s.dl.st = 0 || s.dl.st = 5 then { s with dl := { s.dl with st := 1, reason := 0, link := link.val } } else s)

/-- What survives without power: host memory and fuses are elsewhere; the model's own fields go on. -/
def powerOff (s : State) : State :=
  { State.reset with host0 := s.host0, host1 := s.host1, fuse := s.fuse, agenda := s.agenda, cur := s.cur, tick := s.tick, late := s.late }

/-- POWER_UP (R410): the module starts at STATE 0. -/
def execPowerUp (s : State) : Out := .next (powerOff s)

/-- POWER_LOSS (R410): the firmware is discarded; nothing runs until the next power-up. -/
def execPowerLoss (s : State) : Out := .next (powerOff s)

/-- The reason an image is rejected for (R409), 0 when it passes. -/
def imageCheck (fuse len : Nat) (img : List Byte) : Nat :=
  let head := img.take 64
  if !(0x2000 ≤ len && len ≤ 0x4000000) || byteField img 8 8 + 0x2000 != len then 1
  else if sha384Digest (img.drop 0x2000) != (img.drop 0x10).take 48 then 2
  else if !Config.ecdsaOk head ((img.drop 0x40).take 96) then 2
  else if !Config.mldsaOk head ((img.drop 0xA0).take 4627) then 3
  else if byteField img 4 4 < fuse then 4
  else 0

/-- The Saddler's plan keeps R396, R400 and R407: an entry for each cluster in service, clocks in their ranges, and limits that with the I/O dies' draw, in milliwatts, stay at or below 8.5 kW. A cluster draws its limit at its supply voltage (DEDUCED, log 45). -/
def plansOk (s : State) (p : PowerPlan) : Bool :=
  (List.range 128).all (fun i => (p.clusters.filter fun p => p.cluster.val == i).length == (if (s.cluster i).service == .inService then 1 else 0)) &&
    p.clusters.all (fun c => 2000 ≤ c.floor && c.floor ≤ 3800 && 3300 ≤ c.lmax && c.lmax ≤ 3800) &&
    (p.clusters.map fun c => c.limit * c.volts).foldl (· + ·) (1000 * p.ioDraw) ≤ 8500000000

/-- A cluster takes its plan (R396, R407) at a TIME: its predicted date lies a number of days ahead. -/
def planCluster (now : Nat) (k : Cinch) (p : ClusterPlan) : Cinch :=
  { k with
    limit := p.limit, floor := p.floor, lmax := p.lmax, cap := max k.cap p.floor, volts := p.volts, leakage := p.leakage
    wearDate := now + p.marginDays * 86400000000000, drift := 0, drifting := false }

/-- The clusters take a plan, and the module keeps the I/O dies' draw of it (R396). -/
def planClusters (now : Nat) (s : State) (p : PowerPlan) : State :=
  p.clusters.foldl (fun s k => s.modCluster k.cluster.val fun c => { c with cinch := planCluster now c.cinch k }) { s with ioDraw := p.ioDraw }

/-- A request for service (R352). -/
def askService (s : State) (b : Bool) : State := if b then { s with service := s.service + 1 } else s

/-- How many of `n` bits are 0. -/
def zeros {n : Nat} (b : BitVec n) : Nat := ((List.range n).filter fun i => !b.getLsbD i).length

/-- BRING_UP (R410): links and ports train, clusters take their plans, pools, slots and lane tables are cleared, drives are enumerated, TIME starts at 0 and STATE is READY. -/
def bringUp (s : State) (p : BringUp) : State :=
  let s := { s with
    memSize := (96 - zeros p.links) * 2 ^ 38
    links := (List.range 96).filterMap fun i => if p.links.getLsbD i then none else some (i, { MemLink.reset with fitted := false, fenced := true })
    ports := (List.range 36).filterMap fun i => if p.ports.getLsbD i then none else some (i, { Port.reset with live := false, fenced := true })
    modId := p.modId, members := p.members
    drives := (List.range 128).filterMap fun i => if p.drives.getLsbD i then some (i, { Drive.reset with present := true }) else none
    asidTable := p.asidTable, fwBase := p.fwBase, fwSize := p.fwSize }
  let s := planClusters 0 s p.power
  let s := { s with cores := s.cores.map fun e => (e.1, { e.2 with pool := [], lanes := [], poison := [], lanePoison := [], slotPoison := [], slots := Vector.replicate 32 Slot.reset }) }
  let s := askService (askService (askService s (4 ≤ zeros p.links)) (2 ≤ zeros p.ports)) (p.power.clusters.any fun c => c.marginDays < 90)
  { s with time := 0, dl := { s.dl with st := 4, reason := 0 } }

/-- FIRMWARE_VERIFY (R409, R410): the landed image is checked; a failure rejects it with its reason, and a pass brings the module up under a plan that keeps R396; with another, which the Saddler does not make, the step does nothing. -/
def execFirmwareVerify (readError : Bool) (plan : BringUp) (s : State) : Out :=
  let n := s.dl.len.toNat
  let img := hostBytes s (s.dl.link == 1) s.dl.addr.toNat n
  let r := if readError then 5 else imageCheck s.fuse n img
  .next (if s.dl.st != 1 then s
    else if r = 0 then (if plansOk s plan.power then bringUp s plan else s)
    else { s with dl := { s.dl with st := 5, reason := r } })

end Sys2Proof.Machine
end

