-- ==== Sys2Proof/Machine/Repair.lean ====
section
/-! DEFINITION. Failures and repair: fencing (R14, R350), memory links (R349), the Balfin fabric (R291, R349, R392, R393), pool scrubbing (R347), service requests (R352); and power: the Cinch (R397 to R400), ageing (R407) and leases (R405). -/

namespace Sys2Proof.Machine

/-! Fencing a core or a cluster (R350). -/

/-- A unit's Kill of a node it ran. -/
def fenceNode (s : State) (u : FenceUnit) (r : NodeRef) : State :=
  match tabFind s.graphs r.graph with
  | none => s
  | some g => failNode (saddlerReport s (effFdom s g.rcb) .unitFenced .kill u g.gtag 0) r

/-- A unit's Kill of the node on a loop context, reported by the Saddler: WHO is the unit, WHERE the node's PC (R338). -/
def fenceCtx (s : State) (u : FenceUnit) (c : CtxId) : State :=
  let x := s.ctx c
  killCtx (report s x.fdom
    { code := Cause.unitFenced.code, disp := .kill, origin := 4, who := fenceWho u, place := x.pc, tval := Config.tval s.tick, gtag := gtagOf s x.node, aux := 0 }) c

/-- Kills what a core runs, with UNIT_FENCED, for the unit that is fenced: its residents, and the work lent from it that is parked in place. -/
def killCore (u : FenceUnit) (s : State) (core : Fin 1024) : State :=
  let s := (residents s core).foldl (fun s c => fenceCtx s u c) (s.modCore core.val fun k => { k with next := none })
  let here := s.lent.filter fun l => l.inPlace && l.home.core == core
  let s := { s with lent := s.lent.filter fun l => !(l.inPlace && l.home.core == core) }
  here.foldl (fun s l => fenceCtx s u (spotOf l.home)) s

/-- Kills the C nodes on a cluster's Tug, and stops every command of it. -/
def killTug (s : State) (cl : Fin 128) (u : FenceUnit) : State :=
  (clusterTugs cl.val).foldl (fun s t =>
    let s := quiesceTug s t fun _ => true
    (s.graphs.flatMap fun g => (g.2.nodes.zipIdx.filter fun n => n.1.st == .running && n.1.ran == some (.tug t)).map fun n => (⟨g.1, n.2⟩ : NodeRef)).foldl
      (fun s r => fenceNode s u r) s) s

/-- Whether a reservation lies in a cluster. -/
def inCluster (cl : Nat) : RUnit → Bool
  | .ctx c => clusterOf c.core.val == cl
  | .tug t => t.cluster.val == cl
  | .walk _ => false

/-- A cluster is fenced whole. -/
def fenceCluster (s : State) (cl : Fin 128) : State :=
  let u := FenceUnit.cluster cl
  let s := ((List.range 8).map fun i => Fin.ofNat 1024 (cl.val * 8 + i)).foldl (killCore u) s
  let s := killTug s cl u
  let s := s.modCluster cl.val fun c => { c with service := .fenced }
  replanAll s (fun g => g.reserved.any (inCluster cl.val)) (inCluster cl.val) u

/-- A core is fenced: its spare takes its index over, with pool, slots and lane tables as at READY (R14); without a spare the cluster goes. -/
def fenceCore (s : State) (i : Fin 1024) : State :=
  let cl := clusterOf i.val
  if (s.cluster cl).spareUsed then fenceCluster (killCore (.core i) s i) (Fin.ofNat 128 cl)
  else
    let s := killCore (.core i) s i
    let s := (s.setCore i.val Core.reset).modCluster cl fun c => { c with spareUsed := true }
    let held (u : RUnit) : Bool := match u with | .ctx c => c.core == i | .tug _ | .walk _ => false
    askService (replanAll s (fun g => g.reserved.any held) (fun _ => false) (.core i)) true

/-! Walkers (R350). -/

/-- Ends every operation of a walk context, oldest first, as a failed walker does. -/
def endOps (w : WalkId) : Nat → M Unit
  | 0 => pure ()
  | n + 1 => do
    let s ← get
    match (s.walk w).queue with
    | [] => pure ()
    | o :: rest =>
      fenceHead w
      modify fun s => match o.lock with | some pa => ownWrite s pa 8 0 | none => s
      modify fun s => walkReport s w o { cause := .unitFenced, tval := Config.tval s.tick, addr := 0, aux := 0 }
      modify fun s => { s.modWalk w (fun x => { x with queue := rest, timeline := o.num }) with locks := s.locks.filter fun l => l.1 != w }
      match o.node with
      | some r => modify fun s => failNode s r
      | none => pure ()
      endOps w n

/-- A walker is fenced. -/
def fenceWalker (s : State) (i : Fin 32) : State :=
  let s := { s with walkerFenced := if s.walkerFenced.contains i.val then s.walkerFenced else s.walkerFenced ++ [i.val] }
  let s := (List.finRange 8).foldl (fun s k => quietly (endOps { walker := i, k } ((s.walk { walker := i, k }).queue.length)) s) s
  let held (u : RUnit) : Bool := match u with | .walk w => w.walker == i | .ctx _ | .tug _ => false
  replanAll s (fun g => g.reserved.any held) held (.walker i)

/-! Memory links (R349). -/

def State.memLink (s : State) (l : Fin 96) : MemLink := tabGet MemLink.reset s.links l.val

def State.modLink (s : State) (l : Fin 96) (f : MemLink → MemLink) : State := { s with links := tabSet s.links l.val (f (s.memLink l)) }

/-- Fault domains with a resident node or an admitted graph. -/
def busyDomains (s : State) : List Nat :=
  (((allCtxs s).filter fun c => (s.ctx c).resident).map (fun c => (s.ctx c).fdom) ++
    ((s.graphs.filter fun g => !g.2.reserved.isEmpty).map fun g => effFdom s g.2.rcb)).eraseDups

/-- Whether a physical address lies behind a link of this module. -/
def behindLink (s : State) (l : Fin 96) (pa : Nat) : Bool := paHome pa == s.modId.val && Config.linkOf (paLocal pa / 4096) % 96 == l.val

/-- The page behind a link that the lowest element of a load in flight read, with the element. -/
def firstPage (s : State) (l : Fin 96) (k : VLanding) : Option (Nat × Option Nat) :=
  (k.pages.filter fun p => behindLink s l (p.1 * 4096)).foldl (fun m p =>
    match m with
    | none => some p
    | some b => if p.2.getD 0 < b.2.getD 0 then some p else m) none

/-- The trim that a load in flight undergoes when its element, or line, `e` lands poisoned (R210, R348): none at its first, or where it does not trim. -/
def trimOf (x : Ctx) (k : VLanding) (e : Nat) : Option LandTrim :=
  let l := { laneOf x k.entry with vstart := k.start }
  if e ≤ k.first then none
  else
    match k.entry.instr with
    | .mld f =>
      let n := match k.pos with | some (q, _, _) => lineLen (fmtOf (l.ent (x.q[q]).desc.ent)).wid | none => 0
      some { elem := f.l0.val + e, reg := none, pos := k.pos.map fun p => (p.1, p.2.2, p.2.1 + BitVec.ofNat 48 (e * n)) }
    | i =>
      if trims i && !l.noTrim && !l.shaped then
        let sew := (fmtOf (l.ent l.entNo)).wid
        let r := Fin.ofNat 32 k.dst
        let new := sourceView x r sew
        let old := oldView { x with v := x.v.set r k.old } r sew
        let img := (List.range (l.nAt sew)).map fun j => if j < e then new.at j else if l.td then 0 else old.at j
        some { elem := e, reg := some (encodeElems l sew img), pos := k.pos.map fun p => (p.1, p.2.2, p.2.1 + BitVec.ofNat 48 e) }
      else none

/-- Values in flight from a link to a context land poisoned: of scalar loads, of vector loads and of fills of operand slots (R349). -/
def poisonFlight (s : State) (l : Fin 96) (x : Ctx) : Ctx :=
  { x with
    land := x.land.map fun k => match k.src with
      | some pa => if behindLink s l pa then { k with poison := some pa } else k
      | none => k
    vland := x.vland.map fun k => match firstPage s l k with
      | some p => { k with poison := some (p.1 * 4096), trim := trimOf x k (p.2.getD 0) }
      | none => k }

/-- Tug commands under way that have read from a link end at their beat with MEM_UE, its AUX the page (R240, R347, R349); which of the page's addresses, and the address in the status record, are not stated (log 7). -/
def poisonCmds (l : Fin 96) (s : State) : State :=
  (allTugs s).foldl (fun s t => (s.tug t).queue.foldl (fun s k =>
    match k.pages.find? fun p => behindLink s l (p * 4096) with
    | some p =>
      if k.started && !k.finished then
        quietly (finishCmd t k (some { cause := .memUe, tval := Config.tval s.tick, addr := BitVec.ofNat 64 (Config.free s.tick), aux := BitVec.ofNat 64 (p * 4096) })) s
      else s
    | none => s) s) s

/-- The physical address a LINK_LOST report names: one behind the link that an access in flight was to reach, else one the manual does not name, a free value (log 7). -/
def linkAux (s : State) (l : Fin 96) : Nat :=
  let flight := (allCtxs s).flatMap fun c => (s.ctx c).land.filterMap (·.src) ++ (s.ctx c).vland.flatMap fun v => v.pages.map (·.1 * 4096)
  (flight.find? (behindLink s l)).getD (s.local (Config.free s.tick % s.memSize))

/-- A memory link is fenced: what is in flight is poisoned, LINK_LOST is reported, the pages behind it are unmapped, and graphs with a share are re-planned. -/
def fenceLink (s : State) (l : Fin 96) : State :=
  if (s.memLink l).fenced then s
  else
    let aux := linkAux s l
    let s := poisonCmds l ((allCtxs s).foldl (fun s c => s.modCtx c (poisonFlight s l)) s)
    let s := s.modLink l fun k => { k with fenced := true }
    let s := (busyDomains s).foldl (fun s d => saddlerReport s d .linkLost .report (.memLink l) 0 (BitVec.ofNat 64 aux)) s
    let s := replanAll s (fun g => graphMlbw s g != 0) (fun _ => false) (.memLink l)
    askService s (4 ≤ (s.links.filter fun e => e.2.fenced).length)

/-- MEM_LINK_CRC_RETRY (R349): a frame that failed its CRC is sent again, up to 16 times. -/
def execMemLinkCrcRetry (l : Fin 96) (s : State) : Out :=
  .next (s.modLink l fun k => if k.fenced || 16 ≤ k.retries then k else { k with retries := k.retries + 1 })

/-- MEM_LINK_RETRAIN (R349): after 16 failed retries the link retrains; the third failure within an hour fences it. -/
def execMemLinkRetrain (l : Fin 96) (ok : Bool) (s : State) : Out :=
  let k := s.memLink l
  .next (if k.fenced || k.retries < 16 then s
    else if ok then s.modLink l fun k => { k with retries := 0 }
    else
      let fails := s.time :: k.failures.filter fun t => s.time < t + 3600000000000
      let s := s.modLink l fun k => { k with failures := fails }
      if 3 ≤ fails.length then fenceLink s l else s)

/-! Balfin ports (R392). -/

def State.port (s : State) (p : Fin 36) : Port := tabGet Port.reset s.ports p.val

def State.modPort (s : State) (p : Fin 36) (f : Port → Port) : State := { s with ports := tabSet s.ports p.val (f (s.port p)) }

/-- A port is fenced, and counted toward R352. -/
def fencePort (s : State) (p : Fin 36) : State :=
  if (s.port p).fenced then s
  else
    let s := s.modPort p fun k => { k with live := false, fenced := true }
    askService s (2 ≤ (s.ports.filter fun e => e.2.fenced).length)

/-- BALFIN_FLIT_REPLAY (R392): a flit in the replay buffer failed its CRC; it and every later flit are sent again. -/
def execBalfinFlitReplay (p : Fin 36) (seq : Nat) (s : State) : Out :=
  .next (s.modPort p fun k =>
    if !k.live || !k.replay.contains seq || 8 ≤ k.failed then k
    else { k with bad := some seq, failed := if k.bad == some seq then k.failed + 1 else 1 })

/-- BALFIN_RETRAIN (R392): after 8 failed replays of one flit the link retrains, or the port is fenced. -/
def execBalfinRetrain (p : Fin 36) (ok : Bool) (s : State) : Out :=
  .next (if (s.port p).failed < 8 || !(s.port p).live then s
    else if ok then s.modPort p fun k => { k with bad := none, failed := 0 }
    else fencePort s p)

/-- FLIT_ACKNOWLEDGEMENT (R392): flits up to a number leave the replay buffer. -/
def execFlitAcknowledgement (p : Fin 36) (upto : Nat) (s : State) : Out :=
  .next (s.modPort p fun k =>
    let past : Bool := match k.bad with | some b => b ≤ upto | none => false
    { k with replay := k.replay.filter fun n => upto < n, bad := if past then none else k.bad, failed := if past then 0 else k.failed })

/-! The fabric (R291, R349, R393). -/

/-- Whether a transfer is due to be sent again on a plane. -/
def resends (s : State) (dst seq plane : Nat) (t : Transfer) : Bool := t.dst = dst && t.seq = seq && t.plane != some plane && t.sent + 10000 ≤ s.time

/-- FABRIC_RESEND (R393): a transfer unacknowledged for 10 µs is sent again on another live plane, its number unchanged; its flit is held for replay there (R392). -/
def execFabricResend (dst : Nat) (seq : Nat) (plane : Fin 36) (s : State) : Out :=
  .next (if (s.port plane).live && s.transfers.any (resends s dst seq plane.val) then
    putFlit { s with transfers := s.transfers.map fun t => if resends s dst seq plane.val t then { t with plane := some plane.val, sent := s.time } else t } plane.val
  else s)

/-- FABRIC_ACKNOWLEDGEMENT (R393): the home has applied a transfer, which a plane has taken. -/
def execFabricAcknowledgement (dst : Nat) (seq : Nat) (s : State) : Out :=
  .next { s with transfers := s.transfers.filter fun t => !(t.dst = dst && t.seq = seq && t.plane.isSome) }

/-- The atomic of a function code (R157). -/
def amoOfCode (op : Fin 8) : AmoOp :=
  match op with
  | 0 => .add | 1 => .swp | 2 => .cas | 3 => .min | 4 => .max | 5 => .and | 6 => .or | 7 => .xor

/-- What another module's access does to a byte homed here, of memory, a pool or a drive's aperture (R20, R291). -/
def homeAccess (a : FabricAccess) : M Unit := do
  let s ← get
  match a with
  | .read _ _ => pure ()
  | .write pa data =>
    if paHome pa == s.modId.val && physKind s (pa + data.length - 1) != .absent then physPut pa data.length (pack 8 (data.map (·.toNat))) else pure ()
  | .amo pa op b cmp =>
    if paHome pa == s.modId.val && physKind s (pa + 7) != .absent then
      let old ← physGet pa 8
      match (amoOfCode op).apply (BitVec.ofNat 64 old) b cmp with
      | some v => physPut pa 8 v.toNat
      | none => pure ()
    else pure ()

/-- Applies an access of another module; one that meets a poisoned word, or nothing, changes nothing. -/
def applyAccess (s : State) (a : FabricAccess) : State :=
  match homeAccess a s with
  | .ok _ t => t
  | .error _ _ => s

/-- FABRIC_DELIVERY (R291): a write or an atomic of another module takes effect once; a copy whose number has been applied is discarded. -/
def execFabricDelivery (src : Nat) (seq : Nat) (a : FabricAccess) (s : State) : Out :=
  .next (match a with
    | .read _ _ => s
    | .write _ _ | .amo _ _ _ _ => if s.applied.contains (src, seq) then s else { applyAccess s a with applied := s.applied ++ [(src, seq)] })

/-- HOME_MODULE_LOST (R349): accesses to a module that no plane reaches fail from here on. -/
def execHomeModuleLost (m : Nat) (s : State) : Out :=
  .next (if m < 144 && m != s.modId.val then
    { s with
      unreachable := if s.unreachable.any (fun u => u.val == m) then s.unreachable else s.unreachable ++ [Fin.ofNat 144 m]
      transfers := s.transfers.filter fun t => t.dst != m }
  else s)

/-! Fencing (R350). -/

/-- UNIT_FENCE (R350): a failed unit is fenced. -/
def execUnitFence (u : FenceUnit) (s : State) : Out :=
  .next (match u with
    | .core i => fenceCore s i
    | .cluster i => fenceCluster s i
    | .tug i => fenceCluster s i
    | .walker i => fenceWalker s i
    | .memLink l => fenceLink s l
    | .balfin p => fencePort s p)

/-- Logs a corrected error of a unit; more than one in an hour asks for service (R347, R352). -/
def logCorrected (s : State) (unit : Nat) : State :=
  let now := s.time
  let old := s.corrected.filter fun e => now < e.2 + 3600000000000
  askService { s with corrected := (unit, now) :: old } (old.any fun e => e.1 == unit)

/-- Number of the unit that logs an error: a core, from 1024 a die's commons, from 2048 a memory link. -/
def ErrorUnit.unit (u : ErrorUnit) : Nat :=
  match u with
  | .pool c _ | .lanes c _ | .slots c _ | .ops c _ => c.val
  | .commons d _ => 1024 + d.val
  | .mem n => 2048 + Config.linkOf (paLocal (64 * n) / 4096) % 96

/-- An error that the code cannot correct: the word or the 64 bytes are poisoned, a page of the commons or a decoded operation is dropped (R347, R348). -/
def largeError (s : State) (u : ErrorUnit) : State :=
  match u with
  | .pool c w => if w < poolSize / 8 then s.modCore c.val fun k => { k with poison := addPoison k.poison w } else s
  | .lanes c w => if w < 64 * 512 then s.modCore c.val fun k => { k with lanePoison := addPoison k.lanePoison w } else s
  | .slots c w => if w < 32 * 1056 then s.modCore c.val fun k => { k with slotPoison := addPoison k.slotPoison w } else s
  | .ops c va => s.modCore c.val fun k => { k with ops := k.ops.filter fun o => o.va != va }
  | .commons d page => { s with code := s.code.filter fun p => !(p.die == d.val && p.page == page) }
  | .mem n => if physKind s (64 * n) == .memory then { s with poison := addPoison s.poison n } else s

/-- An access finds an error in a protected memory: one that the code corrects is only counted (R347, R348, R352). -/
def findError (s : State) (u : ErrorUnit) (large : Bool) : State := if large then largeError s u else logCorrected s u.unit

/-- SRAM_SCRUB (R347): a pool word is visited. Programs see nothing of it; whether it needed correcting is a free value (log 7). -/
def execSramScrub (core : Fin 1024) (off : Nat) (s : State) : Out :=
  .next (if off < poolSize && Config.free s.tick % 2 = 1 then logCorrected s core.val else s)

/-! The Cinch (R397 to R400). -/

/-- The highest clock of a cluster's cores. -/
def topClock (s : State) (cl : Nat) : Nat := ((List.range 8).map fun i => coreClock s (Fin.ofNat 1024 (cl * 8 + i))).foldl max 0

/-- The lowest-numbered pair still permitted. -/
def firstPair (wd : BitVec 8) : Option Nat := (List.range 8).find? fun i => !wd.getLsbD i

/-- The highest-numbered pair withdrawn. -/
def lastPair (wd : BitVec 8) : Option Nat := (List.range 8).reverse.find? fun i => wd.getLsbD i

/-- CAP lowered by one step (R399). -/
def lowerCap (k : Cinch) (c : Nat) : Nat := max k.floor (min k.cap c - 100)

/-- Every step taken. -/
def Cinch.spent (k : Cinch) : Bool := k.wd == 255 && k.gap == 2 && k.cap == k.floor

/-- The first step still possible; none when all are taken. -/
def stepUp (k : Cinch) (c : Nat) : Option Cinch :=
  match firstPair k.wd with
  | some i => some { k with wd := k.wd ||| BitVec.ofNat 8 (2 ^ i) }
  | none =>
    if k.gap < 2 then some { k with gap := k.gap + 1 }
    else if lowerCap k c < k.cap then some { k with cap := lowerCap k c }
    else none

/-- One step undone. -/
def stepDown (k : Cinch) : Option Cinch :=
  if k.cap < 3800 then some { k with cap := min 3800 (k.cap + 100) }
  else if 0 < k.gap then some { k with gap := k.gap - 1 }
  else match lastPair k.wd with
    | some i => some { k with wd := k.wd &&& ~~~(BitVec.ofNat 8 (2 ^ i)) }
    | none => none

/-- A microsecond of the Cinch with measured current `i` and highest clock `c`. -/
def Cinch.tick (k : Cinch) (i c : Nat) : Cinch :=
  let lim := limit10 k
  let above := lim < 10 * i
  let recent := (i :: k.recent).take 8
  let low := recent.length == 8 && recent.all (fun x => 100 * x < 9 * lim) && 7 ≤ k.quiet
  let next := if above then stepUp k c else if low then stepDown k else none
  let k1 := match next with
    | some x => { x with quiet := 0 }
    | none => { k with quiet := k.quiet + 1 }
  { k1 with recent, milli := (i :: k.milli).take 1000, overs := if above && k.spent then k.overs + 1 else 0 }

/-- A microsecond of a lease: it counts down while its context is resident and not parked (R405). -/
def countLease (x : Ctx) : Ctx :=
  match x.st, x.lease with
  | .free, _ | .parked, _ => x
  | _, some l => { x with lease := some { l with micros := l.micros - 1 } }
  | _, none => x

/-- LEASE_EXPIRE (R405): a lease with no time left ends. -/
def execLeaseExpire (c : CtxId) (s : State) : Out :=
  .next (s.modCtx c fun x => match x.lease with
    | some l => if l.micros = 0 then { x with lease := none } else x
    | none => x)

/-- Where an input lies in a table axis of 8 points: the lower point and the distance from it, clamped to the edges. -/
def axisAt (lo step x : Nat) : Nat × Nat :=
  let y := min (max x lo) (lo + 7 * step) - lo
  (min 6 (y / step), y - min 6 (y / step) * step)

/-- Leakage by bilinear interpolation, in 1/500 of a milliampere (R397). -/
def leakage500 (t : Vector Nat 64) (celsius millivolts : Nat) : Nat :=
  let a := axisAt 25 10 celsius
  let b := axisAt 600 50 millivolts
  let g (i j : Nat) : Nat := t.toList.getD (8 * i + j) 0
  (10 - a.2) * ((50 - b.2) * g a.1 b.1 + b.2 * g a.1 (b.1 + 1)) + a.2 * ((50 - b.2) * g (a.1 + 1) b.1 + b.2 * g (a.1 + 1) (b.1 + 1))

/-- The total current less the leakage of the table, in 1/500 of a milliampere (R397). -/
def dynamic500 (k : Cinch) (r : SensorReading) : Int := 500 * r.milliamps - leakage500 k.leakage r.celsius r.millivolts

/-- CINCH_TICK (R397, R399): every microsecond a cluster measures its current and takes or undoes at most one step by the total; leases count down. -/
def execCinchTick (cl : Fin 128) (reading : SensorReading) (s : State) : Out :=
  let c := topClock s cl.val
  let s := s.modCluster cl.val fun x => { x with cinch := { x.cinch.tick reading.milliamps c with dynamic := dynamic500 x.cinch reading } }
  .next (((allCtxs s).filter fun x => clusterOf x.core.val == cl.val).foldl (fun s x => s.modCtx x countLease) s)

/-- Whether a cluster issues nothing. -/
def clusterIdle (s : State) (cl : Nat) : Bool :=
  !(allCtxs s).any fun c => clusterOf c.core.val == cl && (s.ctx c).st == .running && !(s.ctx c).waiting

/-- Whether a reading differs from the table by more than a tenth (R398). -/
def readsOff (t : Vector Nat 64) (r : SensorReading) : Bool :=
  let l := leakage500 t r.celsius r.millivolts
  let m := 500 * r.milliamps
  l < 10 * (if l < m then m - l else l - m)

/-- SENSOR_CROSS_CHECK (R398): in an idle microsecond the sensor is checked against the leakage table; three differences running mark it drifting, which is logged. -/
def execSensorCrossCheck (cl : Fin 128) (reading : SensorReading) (s : State) : Out :=
  let k := (s.cluster cl.val).cinch
  let put (k : Cinch) : State := s.modCluster cl.val fun x => { x with cinch := k }
  .next (if !clusterIdle s cl.val then s
    else if !readsOff k.leakage reading then put { k with drift := 0 }
    else if k.drifting || k.drift + 1 < 3 then put { k with drift := k.drift + 1 }
    else { put { k with drift := k.drift + 1, drifting := true } with driftLog := (cl.val, s.time) :: s.driftLog })

/-- Re-plans the graphs with reservations in a cluster whose floor fell: what holds stays, the rest moves (R311). -/
def replanFloor (s : State) (cl : Fin 128) : State :=
  replanAll s (fun g => g.reserved.any (inCluster cl.val) && !planHolds s g g.reserved) (inCluster cl.val) (.cluster cl)

/-- FLOOR_LOWER (R400): 100 µs over the limit with every step taken lowers FLOOR by 100 MHz, not below 2,000; a cluster still over there is fenced. -/
def execFloorLower (cl : Fin 128) (s : State) : Out :=
  let k := (s.cluster cl.val).cinch
  .next (if k.overs < 100 then s
    else if k.floor ≤ 2000 then fenceCluster s cl
    else replanFloor (s.modCluster cl.val fun x => { x with cinch := { k with floor := max 2000 (k.floor - 100), overs := 0 } }) cl)

/-- AGEING_READ (R407): the Saddler plans clusters anew; a floor that falls re-plans graphs, and a short margin asks for service. A plan that breaks R396, which it does not make, does nothing. -/
def execAgeingRead (plans : PowerPlan) (s : State) : Out :=
  let fell := (plans.clusters.filter fun p => p.floor < (s.cluster p.cluster.val).cinch.floor).map fun p => p.cluster
  .next (if plansOk s plans then
    askService (fell.foldl replanFloor (planClusters s.time s plans)) (plans.clusters.any fun p => p.marginDays < 90)
  else s)

end Sys2Proof.Machine
end

