-- ==== Sys2Proof/Machine/Scalar.lean ====
section
/-! DEFINITION. The SALU functions and the immediate and shift forms (R139 to R143). -/

namespace Sys2Proof.Machine

/-- 1 for true, 0 for false. -/
def boolWord (b : Bool) : Word := if b then 1 else 0

/-- Bits [127:64] of the exact signed product. -/
def mulHigh (a b : Word) : Word := BitVec.ofInt 64 (a.toInt * b.toInt / 2 ^ 64)

/-- DIV's quotient with its saturated cases (R142). -/
def divSigned (a b : Word) : Word :=
  if b = 0 then (if a = 0 then 0 else if a.slt 0 then BitVec.ofNat 64 (2 ^ 63) else BitVec.ofNat 64 (2 ^ 63 - 1))
  else if a = BitVec.ofNat 64 (2 ^ 63) ∧ b = -1 then BitVec.ofNat 64 (2 ^ 63 - 1)
  else BitVec.ofInt 64 (a.toInt.tdiv b.toInt)

/-- DIVU's quotient (R142). -/
def divUnsigned (a b : Word) : Word :=
  if b = 0 then (if a = 0 then 0 else -1) else BitVec.ofNat 64 (a.toNat / b.toNat)

/-- REM's remainder, with the sign of sa (R142). -/
def remSigned (a b : Word) : Word := if b = 0 then a else BitVec.ofInt 64 (a.toInt.tmod b.toInt)

/-- REMU's remainder (R142). -/
def remUnsigned (a b : Word) : Word := if b = 0 then a else BitVec.ofNat 64 (a.toNat % b.toNat)

/-- Trailing zeros among the low `n` bits. -/
def trailingZeros : Nat → Nat → Nat
  | 0, _ => 0
  | n + 1, v => if v % 2 = 1 then 0 else 1 + trailingZeros n (v / 2)

/-- 1 bits among the low `n`. -/
def popCount : Nat → Nat → Nat
  | 0, _ => 0
  | n + 1, v => v % 2 + popCount n (v / 2)

/-- BEXT: positions 64 and above read as zero. -/
def bitExtract (a b : Word) : Word := BitVec.ofNat 64 (nbits a.toNat (wbits b 0 6) (wbits b 6 6 + 1))

/-- BINS: bits of `a` from 0 up go to the positions of `d` that `b` names. -/
def bitInsert (d a b : Word) : Word :=
  let lo := wbits b 0 6
  let mask := BitVec.ofNat 64 ((2 ^ (wbits b 6 6 + 1) - 1) * 2 ^ lo)
  (d &&& ~~~mask) ||| ((a <<< lo) &&& mask)

/-- A SALU function of sa and sb (R139). -/
def salu (f : A3) (op : Word → Word → Word) : M Unit := do
  let a ← readS f.sa
  let b ← readS f.sb
  writeS f.sd (op a b)

/-- A SALU function of sa. -/
def salu1 (f : A2) (op : Word → Word) : M Unit := do
  let a ← readS f.sa
  writeS f.sd (op a)

/-- A function of sa and an immediate. -/
def immediate (f : IForm) (op : Word → BitVec 16 → Word) : M Unit := do
  let a ← readS f.sa
  writeS f.sd (op a f.imm)

/-- A shift by a constant. -/
def shiftImm (f : ShForm) (op : Word → Nat → Word) : M Unit := do
  let a ← readS f.sa
  writeS f.sd (op a f.shamt.val)

/-- ADD (R141): sa + sb modulo 2^64. -/
def execAdd (f : A3) (s : State) : Out := scalar (salu f (fun a b => a + b)) s

/-- SUB (R141). -/
def execSub (f : A3) (s : State) : Out := scalar (salu f (fun a b => a - b)) s

/-- AND (R141). -/
def execAnd (f : A3) (s : State) : Out := scalar (salu f (fun a b => a &&& b)) s

/-- OR (R141). -/
def execOr (f : A3) (s : State) : Out := scalar (salu f (fun a b => a ||| b)) s

/-- XOR (R141). -/
def execXor (f : A3) (s : State) : Out := scalar (salu f (fun a b => a ^^^ b)) s

/-- SLL (R141): by sb[5:0]. -/
def execSll (f : A3) (s : State) : Out := scalar (salu f (fun a b => a <<< wbits b 0 6)) s

/-- SRL (R141): by sb[5:0], filling with zeros. -/
def execSrl (f : A3) (s : State) : Out := scalar (salu f (fun a b => a >>> wbits b 0 6)) s

/-- SRA (R141): by sb[5:0], filling with sa[63]. -/
def execSra (f : A3) (s : State) : Out := scalar (salu f (fun a b => a.sshiftRight (wbits b 0 6))) s

/-- MUL (R141): the low 64 bits of the product. -/
def execMul (f : A3) (s : State) : Out := scalar (salu f (fun a b => a * b)) s

/-- MULH (R141): bits [127:64] of the signed product. -/
def execMulh (f : A3) (s : State) : Out := scalar (salu f (mulHigh)) s

/-- DIV (R141, R142). -/
def execDiv (f : A3) (s : State) : Out := scalar (salu f (divSigned)) s

/-- DIVU (R141, R142). -/
def execDivu (f : A3) (s : State) : Out := scalar (salu f (divUnsigned)) s

/-- REM (R141, R142). -/
def execRem (f : A3) (s : State) : Out := scalar (salu f (remSigned)) s

/-- REMU (R141, R142). -/
def execRemu (f : A3) (s : State) : Out := scalar (salu f (remUnsigned)) s

/-- MIN (R141): the signed smaller. -/
def execMin (f : A3) (s : State) : Out := scalar (salu f (fun a b => if a.slt b then a else b)) s

/-- MAX (R141): the signed larger. -/
def execMax (f : A3) (s : State) : Out := scalar (salu f (fun a b => if a.slt b then b else a)) s

/-- SLT (R141). -/
def execSlt (f : A3) (s : State) : Out := scalar (salu f (fun a b => boolWord (a.slt b))) s

/-- SLTU (R141). -/
def execSltu (f : A3) (s : State) : Out := scalar (salu f (fun a b => boolWord (a.ult b))) s

/-- SEQ (R141). -/
def execSeq (f : A3) (s : State) : Out := scalar (salu f (fun a b => boolWord (a == b))) s

/-- BEXT (R141): sb[11:6] + 1 bits of sa from sb[5:0] up. -/
def execBext (f : A3) (s : State) : Out := scalar (salu f (bitExtract)) s

/-- CLZ (R141): leading zeros, 64 for 0. -/
def execClz (f : A2) (s : State) : Out := scalar (salu1 f (fun a => BitVec.ofNat 64 (if a = 0 then 64 else 63 - a.toNat.log2))) s

/-- CTZ (R141): trailing zeros, 64 for 0. -/
def execCtz (f : A2) (s : State) : Out := scalar (salu1 f (fun a => BitVec.ofNat 64 (trailingZeros 64 a.toNat))) s

/-- POPC (R141): number of 1 bits. -/
def execPopc (f : A2) (s : State) : Out := scalar (salu1 f (fun a => BitVec.ofNat 64 (popCount 64 a.toNat))) s

/-- BINS (R141), which also reads sd. -/
def execBins (f : A3) (s : State) : Out :=
  scalar (do
    let a ← readS f.sa
    let b ← readS f.sb
    let d ← readS f.sd
    writeS f.sd (bitInsert d a b)) s

/-- SEL (R141): sa if the old sd is not zero, else sb. -/
def execSel (f : A3) (s : State) : Out :=
  scalar (do
    let a ← readS f.sa
    let b ← readS f.sb
    let d ← readS f.sd
    writeS f.sd (if d = 0 then b else a)) s

/-- ADDI (R143). -/
def execAddi (f : IForm) (s : State) : Out := scalar (immediate f (fun a i => a + i.signExtend 64)) s

/-- ANDI (R143). -/
def execAndi (f : IForm) (s : State) : Out := scalar (immediate f (fun a i => a &&& i.setWidth 64)) s

/-- ORI (R143). -/
def execOri (f : IForm) (s : State) : Out := scalar (immediate f (fun a i => a ||| i.setWidth 64)) s

/-- XORI (R143). -/
def execXori (f : IForm) (s : State) : Out := scalar (immediate f (fun a i => a ^^^ i.setWidth 64)) s

/-- SLTI (R143). -/
def execSlti (f : IForm) (s : State) : Out := scalar (immediate f (fun a i => boolWord (a.slt (i.signExtend 64)))) s

/-- LUI (R143): imm16 × 2^16, sign-extended from 32 bits. -/
def execLui (f : LuiForm) (s : State) : Out := scalar (writeS f.sd ((f.imm ++ (0 : BitVec 16)).signExtend 64)) s

/-- SLLI (R143). -/
def execSlli (f : ShForm) (s : State) : Out := scalar (shiftImm f (fun a n => a <<< n)) s

/-- SRLI (R143). -/
def execSrli (f : ShForm) (s : State) : Out := scalar (shiftImm f (fun a n => a >>> n)) s

/-- SRAI (R143). -/
def execSrai (f : ShForm) (s : State) : Out := scalar (shiftImm f (fun a n => a.sshiftRight n)) s

end Sys2Proof.Machine
end

