-- ==== Sys2Proof/Machine/Dispatch.lean ====
section
/-! DEFINITION. One arm per instruction and step of the opcode table, each a direct call of its meaning. -/

namespace Sys2Proof.Machine

def exec (i : Instr) (s : State) : Host.Outcome State Fault Refusal :=
  match i with
  | .add f => Sys2Proof.Machine.execAdd f s
  | .sub f => Sys2Proof.Machine.execSub f s
  | .and f => Sys2Proof.Machine.execAnd f s
  | .or f => Sys2Proof.Machine.execOr f s
  | .xor f => Sys2Proof.Machine.execXor f s
  | .sll f => Sys2Proof.Machine.execSll f s
  | .srl f => Sys2Proof.Machine.execSrl f s
  | .sra f => Sys2Proof.Machine.execSra f s
  | .mul f => Sys2Proof.Machine.execMul f s
  | .mulh f => Sys2Proof.Machine.execMulh f s
  | .div f => Sys2Proof.Machine.execDiv f s
  | .divu f => Sys2Proof.Machine.execDivu f s
  | .rem f => Sys2Proof.Machine.execRem f s
  | .remu f => Sys2Proof.Machine.execRemu f s
  | .min f => Sys2Proof.Machine.execMin f s
  | .max f => Sys2Proof.Machine.execMax f s
  | .slt f => Sys2Proof.Machine.execSlt f s
  | .sltu f => Sys2Proof.Machine.execSltu f s
  | .seq f => Sys2Proof.Machine.execSeq f s
  | .clz f => Sys2Proof.Machine.execClz f s
  | .ctz f => Sys2Proof.Machine.execCtz f s
  | .popc f => Sys2Proof.Machine.execPopc f s
  | .bext f => Sys2Proof.Machine.execBext f s
  | .bins f => Sys2Proof.Machine.execBins f s
  | .sel f => Sys2Proof.Machine.execSel f s
  | .addi f => Sys2Proof.Machine.execAddi f s
  | .andi f => Sys2Proof.Machine.execAndi f s
  | .ori f => Sys2Proof.Machine.execOri f s
  | .xori f => Sys2Proof.Machine.execXori f s
  | .slti f => Sys2Proof.Machine.execSlti f s
  | .lui f => Sys2Proof.Machine.execLui f s
  | .slli f => Sys2Proof.Machine.execSlli f s
  | .srli f => Sys2Proof.Machine.execSrli f s
  | .srai f => Sys2Proof.Machine.execSrai f s
  | .ld f => Sys2Proof.Machine.execLd f s
  | .st f => Sys2Proof.Machine.execSt f s
  | .br f => Sys2Proof.Machine.execBr f s
  | .jal f => Sys2Proof.Machine.execJal f s
  | .jalr f => Sys2Proof.Machine.execJalr f s
  | .strip f => Sys2Proof.Machine.execStrip f s
  | .csrr f => Sys2Proof.Machine.execCsrr f s
  | .csrw f => Sys2Proof.Machine.execCsrw f s
  | .csrs f => Sys2Proof.Machine.execCsrs f s
  | .csrc f => Sys2Proof.Machine.execCsrc f s
  | .amoadd f => Sys2Proof.Machine.execAmoadd f s
  | .amoswp f => Sys2Proof.Machine.execAmoswp f s
  | .amocas f => Sys2Proof.Machine.execAmocas f s
  | .amomin f => Sys2Proof.Machine.execAmomin f s
  | .amomax f => Sys2Proof.Machine.execAmomax f s
  | .amoand f => Sys2Proof.Machine.execAmoand f s
  | .amoor f => Sys2Proof.Machine.execAmoor f s
  | .amoxor f => Sys2Proof.Machine.execAmoxor f s
  | .trap f => Sys2Proof.Machine.execTrap f s
  | .eret f => Sys2Proof.Machine.execEret f s
  | .fence f => Sys2Proof.Machine.execFence f s
  | .halt f => Sys2Proof.Machine.execHalt f s
  | .yield f => Sys2Proof.Machine.execYield f s
  | .spawn f => Sys2Proof.Machine.execSpawn f s
  | .ndone f => Sys2Proof.Machine.execNdone f s
  | .lease f => Sys2Proof.Machine.execLease f s
  | .unlease f => Sys2Proof.Machine.execUnlease f s
  | .brkpt f => Sys2Proof.Machine.execBrkpt f s
  | .rdtime f => Sys2Proof.Machine.execRdtime f s
  | .nop f => Sys2Proof.Machine.execNop f s
  | .acq f => Sys2Proof.Machine.execAcq f s
  | .rel f => Sys2Proof.Machine.execRel f s
  | .bind f => Sys2Proof.Machine.execBind f s
  | .unbind f => Sys2Proof.Machine.execUnbind f s
  | .tlwait f => Sys2Proof.Machine.execTlwait f s
  | .tlsig f => Sys2Proof.Machine.execTlsig f s
  | .tlrd f => Sys2Proof.Machine.execTlrd f s
  | .drinit f => Sys2Proof.Machine.execDrinit f s
  | .drawait f => Sys2Proof.Machine.execDrawait f s
  | .drrel f => Sys2Proof.Machine.execDrrel f s
  | .barw f => Sys2Proof.Machine.execBarw f s
  | .bara f => Sys2Proof.Machine.execBara f s
  | .tagwany f => Sys2Proof.Machine.execTagwany f s
  | .tagwall f => Sys2Proof.Machine.execTagwall f s
  | .tagff f => Sys2Proof.Machine.execTagff f s
  | .tcopy f => Sys2Proof.Machine.execTcopy f s
  | .tcopym f => Sys2Proof.Machine.execTcopym f s
  | .tqnt f => Sys2Proof.Machine.execTqnt f s
  | .tenc f => Sys2Proof.Machine.execTenc f s
  | .tdec f => Sys2Proof.Machine.execTdec f s
  | .tqsc f => Sys2Proof.Machine.execTqsc f s
  | .tstat f => Sys2Proof.Machine.execTstat f s
  | .tblk f => Sys2Proof.Machine.execTblk f s
  | .wbind f => Sys2Proof.Machine.execWbind f s
  | .wqry f => Sys2Proof.Machine.execWqry f s
  | .wapp f => Sys2Proof.Machine.execWapp f s
  | .wrefit f => Sys2Proof.Machine.execWrefit f s
  | .wdrain f => Sys2Proof.Machine.execWdrain f s
  | .emucall f => Sys2Proof.Machine.execEmucall f s
  | .vsetl f => Sys2Proof.Machine.execVsetl f s
  | .vshape f => Sys2Proof.Machine.execVshape f s
  | .vtype f => Sys2Proof.Machine.execVtype f s
  | .vsetm f => Sys2Proof.Machine.execVsetm f s
  | .vsets f => Sys2Proof.Machine.execVsets f s
  | .vdecl f => Sys2Proof.Machine.execVdecl f s
  | .vlive f => Sys2Proof.Machine.execVlive f s
  | .vadd f => Sys2Proof.Machine.execVadd f s
  | .vsub f => Sys2Proof.Machine.execVsub f s
  | .vmul f => Sys2Proof.Machine.execVmul f s
  | .vmulh f => Sys2Proof.Machine.execVmulh f s
  | .vmacc f => Sys2Proof.Machine.execVmacc f s
  | .vand f => Sys2Proof.Machine.execVand f s
  | .vor f => Sys2Proof.Machine.execVor f s
  | .vxor f => Sys2Proof.Machine.execVxor f s
  | .vsll f => Sys2Proof.Machine.execVsll f s
  | .vsrl f => Sys2Proof.Machine.execVsrl f s
  | .vsra f => Sys2Proof.Machine.execVsra f s
  | .vmin f => Sys2Proof.Machine.execVmin f s
  | .vmax f => Sys2Proof.Machine.execVmax f s
  | .vsadd f => Sys2Proof.Machine.execVsadd f s
  | .vssub f => Sys2Proof.Machine.execVssub f s
  | .vzsub f => Sys2Proof.Machine.execVzsub f s
  | .vfadd f => Sys2Proof.Machine.execVfadd f s
  | .vfsub f => Sys2Proof.Machine.execVfsub f s
  | .vfmul f => Sys2Proof.Machine.execVfmul f s
  | .vfma f => Sys2Proof.Machine.execVfma f s
  | .vfnms f => Sys2Proof.Machine.execVfnms f s
  | .vfdiv f => Sys2Proof.Machine.execVfdiv f s
  | .vfsqrt f => Sys2Proof.Machine.execVfsqrt f s
  | .vfmin f => Sys2Proof.Machine.execVfmin f s
  | .vfmax f => Sys2Proof.Machine.execVfmax f s
  | .vfabs f => Sys2Proof.Machine.execVfabs f s
  | .vfneg f => Sys2Proof.Machine.execVfneg f s
  | .vfrec f => Sys2Proof.Machine.execVfrec f s
  | .vfrsq f => Sys2Proof.Machine.execVfrsq f s
  | .vfexp2 f => Sys2Proof.Machine.execVfexp2 f s
  | .vceq f => Sys2Proof.Machine.execVceq f s
  | .vcne f => Sys2Proof.Machine.execVcne f s
  | .vclt f => Sys2Proof.Machine.execVclt f s
  | .vcle f => Sys2Proof.Machine.execVcle f s
  | .vcltu f => Sys2Proof.Machine.execVcltu f s
  | .vfceq f => Sys2Proof.Machine.execVfceq f s
  | .vfclt f => Sys2Proof.Machine.execVfclt f s
  | .vfcle f => Sys2Proof.Machine.execVfcle f s
  | .vfcun f => Sys2Proof.Machine.execVfcun f s
  | .mand f => Sys2Proof.Machine.execMand f s
  | .mor f => Sys2Proof.Machine.execMor f s
  | .mxor f => Sys2Proof.Machine.execMxor f s
  | .mnot f => Sys2Proof.Machine.execMnot f s
  | .mpop f => Sys2Proof.Machine.execMpop f s
  | .mfirst f => Sys2Proof.Machine.execMfirst f s
  | .vslup f => Sys2Proof.Machine.execVslup f s
  | .vsldn f => Sys2Proof.Machine.execVsldn f s
  | .vcomp f => Sys2Proof.Machine.execVcomp f s
  | .vexpd f => Sys2Proof.Machine.execVexpd f s
  | .vreds f => Sys2Proof.Machine.execVreds f s
  | .vredmx f => Sys2Proof.Machine.execVredmx f s
  | .vredmn f => Sys2Proof.Machine.execVredmn f s
  | .vfreds f => Sys2Proof.Machine.execVfreds f s
  | .vmvs f => Sys2Proof.Machine.execVmvs f s
  | .vbrd f => Sys2Proof.Machine.execVbrd f s
  | .viota f => Sys2Proof.Machine.execViota f s
  | .vband f => Sys2Proof.Machine.execVband f s
  | .vbpfx f => Sys2Proof.Machine.execVbpfx f s
  | .vencr f => Sys2Proof.Machine.execVencr f s
  | .vencd f => Sys2Proof.Machine.execVencd f s
  | .venct f => Sys2Proof.Machine.execVenct f s
  | .vdec f => Sys2Proof.Machine.execVdec f s
  | .vrenc f => Sys2Proof.Machine.execVrenc f s
  | .vencq f => Sys2Proof.Machine.execVencq f s
  | .vdictExtract f => Sys2Proof.Machine.execVdictExtract f s
  | .vdictReplace f => Sys2Proof.Machine.execVdictReplace f s
  | .vidx f => Sys2Proof.Machine.execVidx f s
  | .vcvt f => Sys2Proof.Machine.execVcvt f s
  | .vqnt f => Sys2Proof.Machine.execVqnt f s
  | .vdqnt f => Sys2Proof.Machine.execVdqnt f s
  | .vamax f => Sys2Proof.Machine.execVamax f s
  | .vscl f => Sys2Proof.Machine.execVscl f s
  | .vpack f => Sys2Proof.Machine.execVpack f s
  | .vunpk f => Sys2Proof.Machine.execVunpk f s
  | .vld f => Sys2Proof.Machine.execVld f s
  | .vldb f => Sys2Proof.Machine.execVldb f s
  | .vldseg f => Sys2Proof.Machine.execVldseg f s
  | .vlde f => Sys2Proof.Machine.execVlde f s
  | .vfil f => Sys2Proof.Machine.execVfil f s
  | .vst f => Sys2Proof.Machine.execVst f s
  | .vstseg f => Sys2Proof.Machine.execVstseg f s
  | .vste f => Sys2Proof.Machine.execVste f s
  | .vspl f => Sys2Proof.Machine.execVspl f s
  | .vgath f => Sys2Proof.Machine.execVgath f s
  | .vscat f => Sys2Proof.Machine.execVscat f s
  | .vgathp f => Sys2Proof.Machine.execVgathp f s
  | .vltld f => Sys2Proof.Machine.execVltld f s
  | .vltst f => Sys2Proof.Machine.execVltst f s
  | .vltadd f => Sys2Proof.Machine.execVltadd f s
  | .qbind f => Sys2Proof.Machine.execQbind f s
  | .qfree f => Sys2Proof.Machine.execQfree f s
  | .qseek f => Sys2Proof.Machine.execQseek f s
  | .qstat f => Sys2Proof.Machine.execQstat f s
  | .vamoadd f => Sys2Proof.Machine.execVamoadd f s
  | .vamomax f => Sys2Proof.Machine.execVamomax f s
  | .vamocas f => Sys2Proof.Machine.execVamocas f s
  | .mclaim f => Sys2Proof.Machine.execMclaim f s
  | .mrel f => Sys2Proof.Machine.execMrel f s
  | .mma f => Sys2Proof.Machine.execMma f s
  | .mmas f => Sys2Proof.Machine.execMmas f s
  | .mslide f => Sys2Proof.Machine.execMslide f s
  | .mprom f => Sys2Proof.Machine.execMprom f s
  | .mzero f => Sys2Proof.Machine.execMzero f s
  | .maccrd f => Sys2Proof.Machine.execMaccrd f s
  | .maccwr f => Sys2Proof.Machine.execMaccwr f s
  | .mld f => Sys2Proof.Machine.execMld f s
  | .mlds f => Sys2Proof.Machine.execMlds f s
  | .ftwr f => Sys2Proof.Machine.execFtwr f s
  | .ftrd f => Sys2Proof.Machine.execFtrd f s
  | .ftfence f => Sys2Proof.Machine.execFtfence f s
  | .decodeCause c w => Sys2Proof.Machine.execDecodeCause c w s
  | .fetchCause c addr => Sys2Proof.Machine.execFetchCause c addr s
  | .park pa => Sys2Proof.Machine.execPark pa s
  | .moveout pa => Sys2Proof.Machine.execMoveout pa s
  | .resume pa => Sys2Proof.Machine.execResume pa s
  | .kill pa => Sys2Proof.Machine.execKill pa s
  | .invalidationRequest pa => Sys2Proof.Machine.execInvalidationRequest pa s
  | .commandFetch q => Sys2Proof.Machine.execCommandFetch q s
  | .fetchRetry q => Sys2Proof.Machine.execFetchRetry q s
  | .completionRecordWrite q => Sys2Proof.Machine.execCompletionRecordWrite q s
  | .hostCmdNop h => Sys2Proof.Machine.execHostCmdNop h s
  | .submit h asid va => Sys2Proof.Machine.execSubmit h asid va s
  | .regionInstall h asid va => Sys2Proof.Machine.execRegionInstall h asid va s
  | .regionRemove h asid va => Sys2Proof.Machine.execRegionRemove h asid va s
  | .fdtabSet h pa => Sys2Proof.Machine.execFdtabSet h pa s
  | .nvmeQpair h p answer => Sys2Proof.Machine.execNvmeQpair h p answer s
  | .fabricAcknowledgement dst seq => Sys2Proof.Machine.execFabricAcknowledgement dst seq s
  | .vectorLaneAdmit c => Sys2Proof.Machine.execVectorLaneAdmit c s
  | .valueLands c k1 => Sys2Proof.Machine.execValueLands c k1 s
  | .peerGatherReturn c m => Sys2Proof.Machine.execPeerGatherReturn c m s
  | .tugCommandStart t n => Sys2Proof.Machine.execTugCommandStart t n s
  | .tugBeatLands t n => Sys2Proof.Machine.execTugBeatLands t n s
  | .tugCommandComplete t n => Sys2Proof.Machine.execTugCommandComplete t n s
  | .followOnIssue t n => Sys2Proof.Machine.execFollowOnIssue t n s
  | .arrayAccept core => Sys2Proof.Machine.execArrayAccept core s
  | .arrayOpComplete core => Sys2Proof.Machine.execArrayOpComplete core s
  | .slotFillLands core slot => Sys2Proof.Machine.execSlotFillLands core slot s
  | .awlOperationStart w => Sys2Proof.Machine.execAwlOperationStart w s
  | .awlLockGrant w => Sys2Proof.Machine.execAwlLockGrant w s
  | .awlSlotTake w => Sys2Proof.Machine.execAwlSlotTake w s
  | .awlOperationComplete w => Sys2Proof.Machine.execAwlOperationComplete w s
  | .waitRelease c => Sys2Proof.Machine.execWaitRelease c s
  | .nodeDispatch die => Sys2Proof.Machine.execNodeDispatch die s
  | .admission g => Sys2Proof.Machine.execAdmission g s
  | .boundOverrun g node => Sys2Proof.Machine.execBoundOverrun g node s
  | .streamWalkAhead c q => Sys2Proof.Machine.execStreamWalkAhead c q s
  | .codeFill die asid va => Sys2Proof.Machine.execCodeFill die asid va s
  | .poolClear core => Sys2Proof.Machine.execPoolClear core s
  | .priorityAge die => Sys2Proof.Machine.execPriorityAge die s
  | .priorityHold die => Sys2Proof.Machine.execPriorityHold die s
  | .laneGroupRetention c g => Sys2Proof.Machine.execLaneGroupRetention c g s
  | .laneGroupWake c g lost => Sys2Proof.Machine.execLaneGroupWake c g lost s
  | .slabFill c v slab => Sys2Proof.Machine.execSlabFill c v slab s
  | .deadlineWatch g => Sys2Proof.Machine.execDeadlineWatch g s
  | .sqtail q v => Sys2Proof.Machine.execSqtail q v s
  | .cqhead q v => Sys2Proof.Machine.execCqhead q v s
  | .sqcfg q v => Sys2Proof.Machine.execSqcfg q v s
  | .cqcfg q v => Sys2Proof.Machine.execCqcfg q v s
  | .registerWrite r v => Sys2Proof.Machine.execRegisterWrite r v s
  | .hostMemAccess off a => Sys2Proof.Machine.execHostMemAccess off a s
  | .dlgo link => Sys2Proof.Machine.execDlgo link s
  | .firmwareVerify readError plan => Sys2Proof.Machine.execFirmwareVerify readError plan s
  | .powerUp => Sys2Proof.Machine.execPowerUp s
  | .powerLoss => Sys2Proof.Machine.execPowerLoss s
  | .driveDmaWrite drive pa data => Sys2Proof.Machine.execDriveDmaWrite drive pa data s
  | .memLinkCrcRetry l => Sys2Proof.Machine.execMemLinkCrcRetry l s
  | .memLinkRetrain l ok => Sys2Proof.Machine.execMemLinkRetrain l ok s
  | .balfinFlitReplay p seq => Sys2Proof.Machine.execBalfinFlitReplay p seq s
  | .balfinRetrain p ok => Sys2Proof.Machine.execBalfinRetrain p ok s
  | .fabricResend dst seq plane => Sys2Proof.Machine.execFabricResend dst seq plane s
  | .fabricDelivery src seq a => Sys2Proof.Machine.execFabricDelivery src seq a s
  | .homeModuleLost m => Sys2Proof.Machine.execHomeModuleLost m s
  | .unitFence u => Sys2Proof.Machine.execUnitFence u s
  | .sramScrub core off => Sys2Proof.Machine.execSramScrub core off s
  | .cinchTick cl reading => Sys2Proof.Machine.execCinchTick cl reading s
  | .sensorCrossCheck cl reading => Sys2Proof.Machine.execSensorCrossCheck cl reading s
  | .floorLower cl => Sys2Proof.Machine.execFloorLower cl s
  | .ageingRead plans => Sys2Proof.Machine.execAgeingRead plans s
  | .leaseExpire c => Sys2Proof.Machine.execLeaseExpire c s
  | .flitAcknowledgement p upto => Sys2Proof.Machine.execFlitAcknowledgement p upto s
  | .resizableBarWrite log2 => Sys2Proof.Machine.execResizableBarWrite log2 s

end Sys2Proof.Machine
end

