-- ==== Sys2Proof/Machine/Sched.lean ====
section
/-! DEFINITION. The turns that the agenda leaves to the module (log 1), the turns that only drop what a unit holds, and the placing of an instruction where the next fetch finds it (log 11). -/

namespace Sys2Proof.Machine

/-- A line of a core's scalar data cache is evicted, its dirty bytes written back (R270). -/
def evict (s : State) (core : Fin 1024) (pa : Nat) : State := flushLines s core.val (fun l => l.pa == pa / 64 * 64) true

/-- A core drops the translations it holds of an address (R321). -/
def dropHeld (s : State) (core : Fin 1024) (va : Nat) : State :=
  s.modCore core.val fun c => { c with tlb := c.tlb.filter fun t => !(t.va ≤ va && va < t.va + 2 ^ t.log2) }

/-- A page leaves a die's commons (R314). -/
def dropPage (s : State) (die : Fin 8) (page : Nat) : State :=
  { s with code := s.code.filter fun p => !(p.die == die.val && p.page == page) }

/-- A die's commons drop the translations they hold of an address (R321). -/
def dropShared (s : State) (die : Fin 8) (va : Nat) : State :=
  { s with commons := tabSet s.commons die.val ((tabGet [] s.commons die.val).filter fun t => !(t.va ≤ va && va < t.va + 2 ^ t.log2)) }

/-- A decoded operation leaves a core's cache (R314). -/
def dropOp (s : State) (core : Fin 1024) (va : Nat) : State := s.modCore core.val fun k => { k with ops := k.ops.filter fun o => o.va != va }

/-- Whether a pending store may be performed ahead of those before it: none of them touches its bytes, and it is no release (R147, R281). -/
def mayLand (l : List PStore) (i : Nat) : Bool :=
  match l[i]? with
  | some p => i = 0 || (!p.rel && !(l.take i).any fun q => q.touches p.loc p.bytes)
  | none => false

/-- A context's pending store is performed (R281). -/
def storeLands (s : State) (c : CtxId) (i : Nat) : State :=
  let l := (s.ctx c).stores
  match l[i]? with
  | some p => if mayLand l i then (landStore c.core.val s p).modCtx c fun x => { x with stores := x.stores.eraseIdx i } else s
  | none => s

/-! The module's own progress (log 1). -/

/-- A command of a Tug context that can take its next step. -/
def tugTurn (s : State) (t : TugId) : Option Turn :=
  (s.tug t).queue.findSome? fun k =>
    if canComplete s t k then some (.event (.tugCommandComplete t k.num))
    else if k.sig.isSome then none
    else if k.started && !k.finished then some (.event (.tugBeatLands t k.num))
    else if canStart s t k then some (.event (.tugCommandStart t k.num))
    else
      match k.issuer with
      | some c => if k.finished && !k.followed && !(s.core c.core.val).arr.pend.contains (TugId.key t, k.num) then some (.event (.followOnIssue t k.num)) else none
      | none => none

/-- The array of a core completes, or accepts a follow-on. -/
def arrayTurn (s : State) (core : Fin 1024) : Option Turn :=
  let a := (s.core core.val).arr
  let done := match a.ops with
    | [] => false
    | o :: _ => match o.sig with | some g => sigReady s g | none => true
  if done then some (.event (.arrayOpComplete core))
  else
    match tryFollows core a.pend s with
    | .ok false _ => none
    | .ok true _ | .error _ _ => some (.event (.arrayAccept core))

/-- A slot of a core fills. -/
def slotTurn (s : State) (core : Fin 1024) : Option Turn :=
  ((List.finRange 32).find? fun n => ((s.core core.val).slots[n]).mld).map fun n => .event (.slotFillLands core n)

/-- Whether the LOCK a walk context waits for can be granted to it. -/
def lockCanGo (s : State) (w : WalkId) : Bool :=
  match s.locks.find? (fun l => l.1 == w) with
  | some l => memRead s.mem l.2 8 == 0 && (s.locks.find? (fun k => k.2 == l.2)) == some l
  | none => false

/-- Whether a query can fill the slot it holds or take another. -/
def emitCanGo (s : State) (o : WalkOp) : Bool :=
  match o.kind with
  | .query _ _ _ _ core ring => (s.core core.val).rings[ring].init && (o.slot.isSome || (ringNext (s.core core.val).rings[ring]).isSome)
  | .bind _ | .append _ | .refit | .drain | .signal => false

/-- The oldest operation of a walk context takes its next step. -/
def walkTurn (s : State) (w : WalkId) : Option Turn :=
  match (s.walk w).queue with
  | [] => none
  | o :: _ =>
    if opDone s o then some (.event (.awlOperationComplete w))
    else if o.finished then none
    else if o.locking then
      if lockCanGo s w then some (.event (.awlLockGrant w)) else none
    else if !o.started then (if queryRoom s o || s.walkerFenced.contains w.walker.val then some (.event (.awlOperationStart w)) else none)
    else if !o.records.isEmpty && emitCanGo s o then some (.event (.awlSlotTake w))
    else none

/-- A store of a context is performed, or a value in flight to it lands. -/
def landTurn (s : State) (c : CtxId) : Option Turn :=
  let x := s.ctx c
  match x.stores, x.land, x.gather.flatMap fun g => g.homes with
  | _ :: _, _, _ => some (.storeLands c 0)
  | [], l :: _, _ => some (.event (.valueLands c l.dst.val))
  | [], [], h :: _ => some (.event (.peerGatherReturn c h.2))
  | [], [], [] => ((List.finRange 32).find? fun i => !(x.v[i]).full).map fun i => .event (.valueLands c (32 + i.val))

/-- A context that can run. -/
def ctxTurn (s : State) (c : CtxId) : Option Turn :=
  let x := s.ctx c
  if x.st == .running && (!x.waiting || (!x.queue.isEmpty && !x.laneHeld)) then some (.ctx c false) else none

/-- The oldest invalidation request, when it need not wait. -/
def invalTurn (s : State) : Option Turn :=
  match s.invals with
  | pa :: _ => if (match invalOf s pa with | some q => q.waits s | none => false) then none else some (.event (.invalidationRequest pa))
  | [] => none

/-- The oldest context-control request. -/
def ctlTurn (s : State) : Option Turn :=
  s.ctrls.head?.map fun pa =>
    match ctlOp s pa with
    | 0 => .event (.park pa)
    | 1 => .event (.moveout pa)
    | 2 => .event (.resume pa)
    | _ => .event (.kill pa)

/-- The oldest transfer that a plane has taken is acknowledged. -/
def ackTurn (s : State) : Option Turn := (s.transfers.find? fun t => t.plane.isSome).map fun t => .event (.fabricAcknowledgement t.dst t.seq)

/-- The host interface. -/
def hostTurn (s : State) (q : Fin 64) : Option Turn :=
  let k := s.queue q
  if !isReady s then none
  else if !k.waiting.isEmpty && cfgEn k.cqcfg && (k.cqtail - k.cqhead).toNat < cfgSlots k.cqcfg then some (.event (.completionRecordWrite q))
  else if !cfgEn k.sqcfg then none
  else if k.tries != 0 then some (.event (.fetchRetry q))
  else if k.sqtail != k.sqhead then some (.event (.commandFetch q))
  else none

/-- The schedulers. -/
def schedTurn (s : State) : Option Turn :=
  match s.graphs.find? fun g => g.2.st == .admitting with
  | some g => some (.event (.admission g.1))
  | none =>
    if (allCands s).isEmpty && s.lent.isEmpty then none
    else
      let can (d : Fin 8) : Bool :=
        let t := holdDie (ageDie s d.val) d.val
        (dieChoice t d.val).isSome || (handOver t d.val).isSome
      ((List.finRange 8).find? can).map fun d => .event (.nodeDispatch d)

/-- A list from its `n`-th element on, round to it. -/
def rotated {α : Type} (n : Nat) (l : List α) : List α := l.drop (n % max 1 l.length) ++ l.take (n % max 1 l.length)

/-- A step the module can take while the current context cannot go on. Where it looks first changes from step to step, so that a part that must wait keeps none of the others back. -/
def moduleTurn (s : State) : Option Turn :=
  let n := s.tick / 2
  let cores := s.cores.map fun e => Fin.ofNat 1024 e.1
  let parts : List (Unit → Option Turn) :=
    [fun _ => (rotated n (allTugs s)).findSome? (tugTurn s), fun _ => cores.findSome? (arrayTurn s), fun _ => cores.findSome? (slotTurn s),
      fun _ => (rotated n (allWalks s)).findSome? (walkTurn s), fun _ => (rotated n (allCtxs s)).findSome? (landTurn s), fun _ => invalTurn s, fun _ => ctlTurn s,
      fun _ => ackTurn s, fun _ => (List.finRange 64).findSome? (hostTurn s), fun _ => schedTurn s]
  (firstOf (rotated n parts)).orElse fun _ => (allCtxs s).findSome? (ctxTurn s)

/-- The running contexts by turns. -/
def roundTurn (s : State) (n : Nat) : Turn :=
  let ws := (allCtxs s).filter fun c => (s.ctx c).st == .running
  .ctx (ws.getD (n % max 1 ws.length) s.cur) false

/-- The turn taken when the agenda is empty: the current context's, with values landing at once, and, while that waits or does not run, a step some other part of the module can take. So that nothing is left waiting, every sixteenth turn is a running context's, each in its turn, another every sixteenth the rest of the module's, and another the schedulers'. -/
def ownTurn (s : State) : Turn :=
  if s.tick % 16 = 0 then roundTurn s (s.tick / 16)
  else if s.tick % 16 = 8 then (moduleTurn s).getD (roundTurn s (s.tick / 16))
  else if s.tick % 16 = 4 then (schedTurn s).getD (roundTurn s (s.tick / 16))
  else
    match ctxTurn s s.cur with
    | some t => t
    | none => (moduleTurn s).getD (roundTurn s (s.tick - s.tick / 8))

/-! Placing an instruction. -/

/-- Module-local places of the tables `placeWord` writes: root, second table, and the gigabyte it maps. -/
def placeRoot : Nat := 2 ^ 20

def placeTable : Nat := 2 ^ 21

def placePage : Nat := 2 ^ 30

/-- The context an instruction is placed for: running, nothing ahead of its PC. -/
def placeCtx (x : Ctx) : Ctx :=
  { x with
    st := .running, waiting := false, laneHeld := false
    pc := BitVec.ofNat 64 (x.pc.toNat % 2 ^ 47 / 4 * 4)
    queue := [], kept := [], rejoin := false, pendTraps := [], lost := [], land := [] }

/-- Memory with an address space whose page at the PC is `placePage`, and the word there. -/
def placeMem (s : State) (asid : BitVec 16) (pc nbytes w : Nat) : Memory :=
  let m := memWrite s.mem (s.local (s.asidTable + 32 * asid.toNat)) 8 (2 ^ 63 + s.local placeRoot)
  let m := memWrite m (s.local (s.asidTable + 32 * asid.toNat + 8)) 24 0
  let m := memWrite m (s.local placeRoot + 8 * vaIndex 3 pc) 8 (2 ^ 63 + s.local placeTable)
  let m := memWrite m (s.local placeTable + 8 * vaIndex 2 pc) 8 (2 ^ 63 + 2 ^ 60 + s.local placePage + 0xE40)
  memWrite m (s.local placePage + pc % 2 ^ 30) nbytes w

/-- `s` with an instruction of `nbits` bits, all others of its 4 bytes zero, where the current context fetches next: the context running with an address space that maps its PC, no translation or code page held from before, and its turn next. -/
def placeWord (s : State) (nbits w : Nat) : State :=
  let s := { s with agenda := [.ctx s.cur false], late := false, code := [] }
  let s := s.modMe placeCtx
  let s := s.modMyCore fun c => { c with tlb := [], ops := [] }
  let s : State := { s with commons := tabSet s.commons (dieOf s.cur.core.val) [] }
  { s with mem := placeMem s s.me.asid s.me.pc.toNat 4 (w % 2 ^ nbits) }

end Sys2Proof.Machine
end

