-- ==== Sys2Proof/Machine/Step.lean ====
section
/-! DEFINITION. One step of the module: whose turn it is, and its instruction or event executed. -/

namespace Sys2Proof.Machine

/-- The turn of the running context. -/
def stepCtx (s : State) : Host.Outcome State Fault Refusal :=
  match nextTodo s with
  | .run i t => exec i t
  | .idle t => .next t
  | .ended e t => scalarExc e t

/-- One turn. -/
def runTurn (t : Turn) (s : State) : Host.Outcome State Fault Refusal :=
  match t with
  | .ctx c late => stepCtx { s with cur := c, late }
  | .event i => exec i { s with late := true }
  | .evictLine core pa => .next (evict s core pa)
  | .dropTrans core va => .next (dropHeld s core va)
  | .dropShared die va => .next (dropShared s die va)
  | .storeLands c i => .next (storeLands s c i)
  | .dropCode die page => .next (dropPage s die page)
  | .dropOp core va => .next (dropOp s core va)
  | .error u large => .next (findError s u large)

/-- One step: the first turn of the agenda, or, when it is empty, the turn the module takes by itself (log 1). -/
def step (s : State) : Host.Outcome State Fault Refusal :=
  let s := passTime s
  match s.agenda with
  | t :: rest => runTurn t { s with agenda := rest }
  | [] => runTurn (ownTurn s) s

/-- `s` with an instruction of `nbits` bits placed where `step` fetches next; see `placeWord` (log 11). -/
def State.withFetchWord (s : State) (nbits w : Nat) : State := placeWord s nbits w

end Sys2Proof.Machine
end

