-- ==== Sys2Proof/Safety.lean ====
section
/-! DEFINITION. The terms claims are made in: the invariant of byte memories, what the operands of an instruction must be for it to complete, and the states it completes in. -/

namespace Sys2Proof.Machine

/-- Canonical form of every byte memory of the state: main memory, the host memories, every pool and every lane table, and what displaced work holds. -/
def State.MemOk (s : State) : Prop :=
  memWf s.mem = true ∧ memWf s.host0 = true ∧ memWf s.host1 = true ∧
    (∀ e ∈ s.cores, memWf e.2.pool = true ∧ memWf e.2.lanes = true) ∧ ∀ l ∈ s.lent, memWf l.tiles = true ∧ memWf l.image = true

/-- The scalar registers are full (R26). -/
def State.Full (s : State) (rs : List (Fin 32)) : Prop := ∀ r ∈ rs, s.me.isFull r = true

/-- No poisoned value is in flight to the running context, or values are held back: the end of an instruction is no stop of R348. -/
def State.Quiet (s : State) : Prop := s.late = true ∨ ∀ l ∈ s.me.land, l.poison = none

/-- A context whose instruction has retired: it no longer waits, and outside a handler the re-fault count is clear (R327). -/
def Ctx.retired (x : Ctx) : Ctx := if x.inh then { x with waiting := false } else { x with waiting := false, refaults := 0, lastFault := none }

/-- The running context changed and retired, its PC moved on by 4. -/
def State.went (s : State) (f : Ctx → Ctx) : State := s.modMe fun c => ({ f c with pc := (f c).pc + 4 } : Ctx).retired

/-- The running context changed and retired, its PC set. -/
def State.wentTo (s : State) (pc : Word) (f : Ctx → Ctx) : State := s.modMe fun c => ({ f c with pc } : Ctx).retired

/-- A scalar register written and the PC moved on by 4; nothing else. -/
def State.wrote (s : State) (r : Fin 32) (v : Word) : State := s.went fun c => c.sset r v

/-- The running context's stores have been performed and its core's dirty lines of bound regions have reached memory: what a release leaves (R247, R270, R280). -/
def State.released (s : State) : State := flushLines (performStores s s.cur) s.cur.core.val (fun _ => true) false

/-- A byte of main memory by domain physical address. -/
def State.byte (s : State) (a : Nat) : Byte := memGet s.mem a

/-- A byte of a core's pool. -/
def State.poolByte (s : State) (core a : Nat) : Byte := memGet (s.core core).pool a

/-- An access of `n` bytes of the running context at address `a` reaches byte `off` of its own core's pool: aligned, allowed by the partition and the windows, and no word of it poisoned (R43, R54, R145, R267, R347). -/
def State.PoolAt (s : State) (a n : Nat) (acc : Acc) (off : Nat) : Prop :=
  a % n = 0 ∧ windowLoc s s.cur.core s.me.priv a n acc false = some (.ok (.pool s.cur.core.val off)) ∧ poolPoisoned s.myCore off n = false

/-- A read of `n` bytes of the running context at address `a` reaches byte `off` of the pool of core `core` through a peer window (R54): aligned, allowed by that core's partition and windows, and no word of it poisoned. -/
def State.PeerAt (s : State) (a n core off : Nat) : Prop :=
  a % n = 0 ∧ windowLoc s s.cur.core s.me.priv a n .read false = some (.ok (.peer core off)) ∧ poolPoisoned (s.core core) off n = false

/-- An access of `n` bytes of the running context at address `a` reaches main memory of this module at physical address `pa`, the translation leaving the state `t`: memory is there and not poisoned, and no line of the core's scalar data cache holds it or may come to hold it (R144, R269, R316, R348). -/
def State.MemAt (s : State) (a n : Nat) (acc : Acc) (pa : Nat) (t : State) : Prop :=
  (∃ typ, scalarLoc a n acc s = .ok (.mem pa typ) t) ∧ physKind t pa = .memory ∧ paHome pa = t.modId.val ∧ poisoned t pa n = false ∧
    isBound t t.cur.core a = false ∧ ∀ d ∈ t.myCore.dcache, d.pa ≠ pa / 64 * 64

/-- Only the running context differs between two states: every other context, every core, engine, graph, queue and every byte of memory is as before. -/
def State.OnlyMe (s t : State) : Prop := t = { s with ctxs := t.ctxs } ∧ ∀ c, c ≠ s.cur → t.ctx c = s.ctx c

/-! Vector and matrix instructions. -/

/-- A vector or matrix instruction can enter the queue and run at once: values are not held back, nothing is ahead of it, the registers it names lie below the declared count, its scalar operands are full (R121, R161, R162), and no lane group of the core has to wake first (R403). -/
def State.CanRun (s : State) (u : Issue) : Prop :=
  s.late = false ∧ s.me.queue = [] ∧ (∀ r ∈ u.regs, r < s.me.count) ∧ (∀ r, u.reads = some r → s.me.isFull r = true) ∧ (∀ r, u.writes = some r → s.me.isFull r = true) ∧ s.myCore.retained = 0

/-- The scalar operand an instruction enters the queue with; 0 where it reads none. -/
def State.scalarOf (s : State) (u : Issue) : Word := match u.reads with | some r => s.me.sget r | none => 0

/-- The lane an instruction runs with: the copies of R47 and its scalar operand. -/
def State.laneFor (s : State) (u : Issue) : Lane :=
  { cap := capture s.me, pc := s.me.pc, scalar := s.scalarOf u, priv := s.me.priv, noTrim := false, eff := s.me.vc.eff, vstart := s.me.vc.vstart.toNat }

/-- The queue entry of an instruction that enters now. -/
def State.entryFor (s : State) (i : Instr) (u : Issue) : QEntry :=
  { instr := i, pc := s.me.pc, cap := capture s.me, scalar := s.scalarOf u, priv := s.me.priv, noTrim := false, num := s.me.vIn + 1, stale := false }

/-- The state after an instruction has entered the queue: the bit of its scalar destination clear, the scalar side past it. -/
def State.entered (s : State) (i : Instr) (u : Issue) : State :=
  s.modMe fun c =>
    let c := match u.writes with
      | some r => c.sclear r
      | none => c
    { c with queue := c.queue ++ [s.entryFor i u], vIn := c.vIn + 1, pc := c.pc + 4, waiting := false }

/-- The state after an instruction has entered the empty queue and completed, having changed the running context alone. -/
def State.ran (s : State) (i : Instr) (u : Issue) (f : Ctx → Ctx) : State := laneRetire ((s.entered i u).modMe f)

/-- An instruction that can run at once raises ENTRY_KIND and does nothing else (R164). The TVAL is free (log 7). -/
def State.KindTrap (s : State) (i : Instr) (u : Issue) : Prop := exec i s = .next (laneTrap (s.entered i u) .entryKind (Config.tval s.tick) 0)

/-- A source register that DecodeOperands passes (R91): not awaiting lazy restore, full, not poisoned. -/
def Ctx.Readable (c : Ctx) (r : Fin 32) : Prop := c.vc.vuse.getLsbD r.val = false ∧ c.v[r].full = true ∧ c.v[r].pois = false

/-- A destination register that DecodeOperands passes: full, and, unless it is written whole, readable. -/
def Ctx.Writable (c : Ctx) (r : Fin 32) (whole : Bool) : Prop := c.v[r].full = true ∧ (whole = false → c.Readable r)

/-- What an element-wise operation of the running context works on (R91). -/
def State.ewOf (s : State) (l : Lane) (vd : Fin 32) (ssew sew : Nat) (baseOnly : Bool) (srcs : List Src) (f : ElemFn) : Ew :=
  let mask := s.me.m[l.mreg].toNat
  let whole := l.whole mask (l.nAt sew)
  { l, ssew, sew, n := l.nAt sew, mask, whole, srcs, old := if whole then View.plain [] else oldView s.me vd sew, baseOnly, f, xsel := l.cap.xsel.toNat }

/-- The current core changed by what the elements `es` write; with no element nothing is written. -/
def State.storing (s : State) (es : List Nat) (f : Core → Core) : State := if es = [] then s else s.modMyCore f

/-- A context after an element-wise operation: the destination, its tail slabs dead under TD (R94), what the elements raised, the mask of the x modifier, VSTART 0 (R69, R71, R75, R91, R99). -/
def Ctx.ewDone (c : Ctx) (e : Ew) (vd : Fin 32) (x : Bool) : Ctx :=
  let r := ewRun e c.fc.seed
  let c := applyRaised (putRes c vd r.1 (e.l.tail e.sew)) r.2
  let c := if x then applyX c e.l e.mask e.n r.2 else c
  { c with vc := { c.vc with vstart := 0 } }

/-- What a comparison works on: ElementWise with the mask register for its destination, whose old bits enter as a plain value (R30, R91, R174). -/
def State.maskEw (s : State) (l : Lane) (md : Fin 8) (ssew : Nat) (srcs : List Src) (f : ElemFn) : Ew :=
  let mask := s.me.m[l.mreg].toNat
  let n := l.nAt ssew
  { l, ssew, sew := 1, n, mask, whole := l.whole mask n, srcs, old := View.plain (unpack 1 n s.me.m[md].toNat), baseOnly := false, f, xsel := 0 }

/-- A context after a comparison: the mask, what the elements raised, VSTART 0 (R30, R71, R95). -/
def Ctx.maskDone (c : Ctx) (e : Ew) (md : Fin 8) : Ctx :=
  let r := ewVals e c.fc.seed
  let c := applyRaised (putMask c md (overMask c.m[md].toNat e.n (r.1.elems 1))) r.2
  { c with vc := { c.vc with vstart := 0 } }

/-- The codes of elements that move from one format entry to another, in element order, with what the conversions raise: unchanged where `keep` says so and the words of the entries are equal, else converted (R64, R193, R196). -/
def State.movedCodes (s : State) (l : Lane) (src dst : Nat) (keep : Bool) (es : List Nat) (raw : Nat → Nat) : List (Nat × Nat) × Raised :=
  let k := fmtOf (l.ent dst)
  es.foldl (fun (p : List (Nat × Nat) × Raised) e =>
    let c := if keep && l.ent src == l.ent dst then pureCode (raw e) p.2.seed
      else convert (raw e) (fmtOf (l.ent src)) k (roundingMode l.cap.rmo k) p.2.seed
    (p.1 ++ [(e, c.code)], p.2.add c 1 0 0)) ([], Raised.start s.me.fc.seed)

/-- A context with a vector register written and VSTART 0; the register's slabs from `tail` on are dead (R94). -/
def Ctx.vDone (c : Ctx) (vd : Fin 32) (x : VReg) (tail : Option Nat := none) : Ctx :=
  let c := putRes c vd x tail
  { c with vc := { c.vc with vstart := 0 } }

/-- The registers of an element-wise operation pass DecodeOperands and elements are left to do. -/
def State.EwReady (s : State) (l : Lane) (vd : Fin 32) (sew : Nat) (sources : List (Fin 32)) : Prop :=
  (∀ r ∈ sources, s.me.Readable r) ∧ s.me.Writable vd (l.whole s.me.m[l.mreg].toNat (l.nAt sew)) ∧ l.vstart < l.vl

/-- Every word of a range of addresses reaches the own core's pool, from byte `off` on: the range as blocks and frames are accessed (R194, R198). `port` is the path the stream asks for. -/
def State.PoolSpan (s : State) (port a n : Nat) (acc : Acc) (enc : Bool) (off : Nat) : Prop :=
  ∀ w ∈ spanWords a n, w.1 < 2 ^ 56 ∧ portOk port w.1 = true ∧ windowLoc s s.cur.core s.me.priv w.1 w.2 acc enc = some (.ok (.pool s.cur.core.val (off + (w.1 - a)))) ∧
    poolPoisoned s.myCore (off + (w.1 - a)) w.2 = false

/-! The matrix array. -/

/-- A tile or plane written whole, the poison of its words healed (R212, R347). -/
def Core.tilePut (c : Core) (off : Nat) (ws : List Nat) : Core :=
  { c with
    pool := memReplace c.pool off 16384 (wordBytes off ws)
    poison := c.poison.filter fun u => !(off ≤ u * 8 && u * 8 + 8 ≤ off + 16384) }

/-- The array has numbered an operation and completed it (R221). -/
def Core.arrayDone (c : Core) : Core := { c with arr := { c.arr with issued := c.arr.issued + 1, done := c.arr.issued + 1 } }

/-- A tile of the running context lies in the accumulator partition and begins at pool byte `off` (R38). -/
def State.TileAt (s : State) (acc : Fin 16) (off : Nat) : Prop :=
  let t := 16 * (s.cur.lc.val % 4) + acc.val
  (t + 1) * 32768 ≤ partAcc s.myCore.part * 65536 ∧ off = partScr s.myCore.part * 65536 + t * 32768

/-- The words of a tile or plane of the running context as an operation reads them: zeros when its kind is none (R212). -/
def State.tileOf (s : State) (acc : Fin 16) (plane : Bool) (off : Nat) : Array Nat :=
  if tileKind s s.cur acc plane = .none then Array.replicate 4096 0 else tileWords s.myCore.pool (if plane then off + 16384 else off)

/-- No word of a tile or plane that an operation reads is poisoned. -/
def State.TileClean (s : State) (acc : Fin 16) (plane : Bool) (off : Nat) : Prop :=
  tileKind s s.cur acc plane ≠ .none → poolPoisoned s.myCore (if plane then off + 16384 else off) 16384 = false

/-- An operand slot that checks 1 and 2 of R213 pass for an instruction that enters now: no earlier MREL of it waits and no earlier scale fill is in flight (R220). -/
def State.SlotFull (s : State) (n : Fin 32) : Prop :=
  s.myCore.slots[n].ownedBy s.cur.lc = true ∧ slotView s s.cur n (.entry (s.me.vIn + 1)) = .full ∧ awaitsRelease s s.cur n = false ∧
    ∀ q ∈ openScales s s.cur n, q.before' (.entry (s.me.vIn + 1)) = false

/-- What a product works with: the operands' entries, the line length, logical K, the group (R102, R213, R215, R216). -/
def State.planOf (s : State) (l : Lane) (fn : MxFn) (f : MmaForm) (off : Nat) : MxPlan :=
  let fa := fmtOf (l.ent s.myCore.slots[f.slotA].ent.val)
  let fb := fmtOf (l.ent s.myCore.slots[f.slotB].ent.val)
  let k := match fn with | .mslide => lineLen fa.wid | .mma | .mmas => min (lineLen fa.wid) (lineLen fb.wid)
  { off, fa, fb, k, kl := match fn with | .mmas => 2 * k | .mma | .mslide => k
    g := dotGroup (max fa.wid fb.wid), int := fa.isInt }

/-- The checks of R213 pass, with those of R215 and R216, and no word that the product reads is poisoned (R347). -/
def State.ProductOk (s : State) (l : Lane) (fn : MxFn) (f : MmaForm) (off : Nat) : Prop :=
  let p := s.planOf l fn f off
  let ok (n : Fin 32) (x : Fmt) : Prop :=
    s.SlotFull n ∧ x.valid = true ∧ (x.wid = 4 ∨ x.wid = 6 ∨ x.wid = 8 ∨ x.wid = 16) ∧
      (x.bsk = 1 → x.isInt = false ∧ s.myCore.slots[n].svalid = true ∧ s.myCore.slots[n].sw32 = false ∧ s.myCore.slots[n].stag = s.myCore.slots[n].dtag ∧
        64 * ((p.kl + 2 ^ x.blog - 1) / 2 ^ x.blog) ≤ sideBytes s.myCore n) ∧ slotBad s.myCore n true (x.bsk == 1) = false ∧
      (s.myCore.slots[n].isDouble n = true → slotBad s.myCore (slotNext n) (fn == .mmas) (x.bsk == 1 && readsNext s.myCore n p.kl x.blog) = false)
  let index (n : Fin 32) : Prop :=
    s.myCore.slots[n].isDouble n = true ∧ slotView s s.cur (slotNext n) (.entry (s.me.vIn + 1)) = .full ∧ indexOk s.myCore.slots[slotNext n] p.kl = true
  s.TileAt f.acc off ∧ s.TileClean f.acc f.p off ∧ ok f.slotA p.fa ∧ ok f.slotB p.fb ∧ p.fa.isInt = p.fb.isInt ∧
    (tileKind s s.cur f.acc f.p = .none ∨ tileKind s s.cur f.acc f.p = if p.fa.isInt then .int32 else .fp32) ∧
    (fn = .mslide → p.fa.wid = 8 ∨ p.fa.wid = 16) ∧
    (fn = .mmas → lineLen p.fa.wid = lineLen p.fb.wid ∧ index f.slotA ∧ index f.slotB)

/-- The words a product leaves in its tile or plane (R214). -/
def State.productWords (s : State) (fn : MxFn) (f : MmaForm) (p : MxPlan) : List Nat :=
  let t := s.tileOf f.acc f.p p.off
  let a := operandLines fn false s.myCore f.slotA p.fa p
  let b := operandLines fn true s.myCore f.slotB p.fb p
  (List.range 4096).map fun x => productElem p (t.getD x 0) (a.getD (x / 64) []) (b.getD (x % 64) [])

end Sys2Proof.Machine
end

