-- ==== Sys2Proof/Certificates/Slice0/Obligations.lean ====
section
/-! DEFINITION. The statements about the model, each by the rule of the manual it formalises. -/

open Sys2Proof Sys2Proof.Machine

/-! Scalar arithmetic. -/

/-- Two-operand arithmetic (R139, R141): with full registers, sd takes the function of sa and sb, the PC moves on by 4, and nothing else changes. The bit functions (R141), each by the bits of its result: BEXT takes sb[11:6] + 1 bits of sa from sb[5:0] up, positions 64 and above reading as zero; BINS writes them into sd; CLZ and CTZ give 64 for 0. The immediate and shift forms (R143): ADDI and SLTI sign-extend the immediate, the logical ones zero-extend it; LUI is sign-extended from 32 bits. -/
def Obligations.ScalarResults : Prop :=
  (∀ (f : A3) (s : State), s.Quiet → s.Full [f.sa, f.sb, f.sd] →
    let a := s.me.sget f.sa
    let b := s.me.sget f.sb
    let n := b.toNat % 64
    exec (.add f) s = .next (s.wrote f.sd (a + b)) ∧
    exec (.sub f) s = .next (s.wrote f.sd (a - b)) ∧
    exec (.and f) s = .next (s.wrote f.sd (a &&& b)) ∧
    exec (.or f) s = .next (s.wrote f.sd (a ||| b)) ∧
    exec (.xor f) s = .next (s.wrote f.sd (a ^^^ b)) ∧
    exec (.sll f) s = .next (s.wrote f.sd (a <<< n)) ∧
    exec (.srl f) s = .next (s.wrote f.sd (a >>> n)) ∧
    exec (.sra f) s = .next (s.wrote f.sd (a.sshiftRight n)) ∧
    exec (.mul f) s = .next (s.wrote f.sd (a * b)) ∧
    exec (.mulh f) s = .next (s.wrote f.sd (BitVec.ofInt 64 (a.toInt * b.toInt / 2 ^ 64))) ∧
    exec (.min f) s = .next (s.wrote f.sd (if a.toInt < b.toInt then a else b)) ∧
    exec (.max f) s = .next (s.wrote f.sd (if a.toInt < b.toInt then b else a)) ∧
    exec (.slt f) s = .next (s.wrote f.sd (if a.toInt < b.toInt then 1 else 0)) ∧
    exec (.sltu f) s = .next (s.wrote f.sd (if a.toNat < b.toNat then 1 else 0)) ∧
    exec (.seq f) s = .next (s.wrote f.sd (if a = b then 1 else 0))) ∧
  (∀ (s : State), s.Quiet →
    (∀ f : A3, s.Full [f.sa, f.sb, f.sd] →
      let a := s.me.sget f.sa
      let b := s.me.sget f.sb
      let d := s.me.sget f.sd
      let lo := b.toNat % 64
      let n := b.toNat / 64 % 64 + 1
      (∃ v : Word, exec (.bext f) s = .next (s.wrote f.sd v) ∧ ∀ i, v.getLsbD i = (decide (i < n) && a.getLsbD (lo + i))) ∧
      (∃ v : Word, exec (.bins f) s = .next (s.wrote f.sd v) ∧
        ∀ i, v.getLsbD i = if lo ≤ i ∧ i < lo + n ∧ i < 64 then a.getLsbD (i - lo) else d.getLsbD i) ∧
      exec (.sel f) s = .next (s.wrote f.sd (if d ≠ 0 then a else b))) ∧
    (∀ f : A2, s.Full [f.sa, f.sd] →
      let a := s.me.sget f.sa
      (∃ n : Nat, exec (.clz f) s = .next (s.wrote f.sd (BitVec.ofNat 64 n)) ∧ n ≤ 64 ∧
        (∀ i, 64 - n ≤ i → a.getLsbD i = false) ∧ (n < 64 → a.getLsbD (63 - n) = true)) ∧
      (∃ n : Nat, exec (.ctz f) s = .next (s.wrote f.sd (BitVec.ofNat 64 n)) ∧ n ≤ 64 ∧
        (∀ i, i < n → a.getLsbD i = false) ∧ (n < 64 → a.getLsbD n = true)) ∧
      exec (.popc f) s = .next (s.wrote f.sd (BitVec.ofNat 64 ((List.range 64).countP fun i => a.getLsbD i))))) ∧
  (∀ (s : State), s.Quiet →
    (∀ f : IForm, s.Full [f.sa, f.sd] →
      let a := s.me.sget f.sa
      exec (.addi f) s = .next (s.wrote f.sd (a + f.imm.signExtend 64)) ∧
      exec (.andi f) s = .next (s.wrote f.sd (a &&& f.imm.setWidth 64)) ∧
      exec (.ori f) s = .next (s.wrote f.sd (a ||| f.imm.setWidth 64)) ∧
      exec (.xori f) s = .next (s.wrote f.sd (a ^^^ f.imm.setWidth 64)) ∧
      exec (.slti f) s = .next (s.wrote f.sd (if a.toInt < f.imm.toInt then 1 else 0))) ∧
    (∀ f : LuiForm, s.Full [f.sd] → exec (.lui f) s = .next (s.wrote f.sd (BitVec.ofInt 64 (f.imm.toInt * 2 ^ 16)))) ∧
    (∀ f : ShForm, s.Full [f.sa, f.sd] →
      let a := s.me.sget f.sa
      exec (.slli f) s = .next (s.wrote f.sd (a <<< f.shamt.val)) ∧
      exec (.srli f) s = .next (s.wrote f.sd (a >>> f.shamt.val)) ∧
      exec (.srai f) s = .next (s.wrote f.sd (a.sshiftRight f.shamt.val))))

/-- Division (R142): the quotient rounded toward zero and the remainder with the sign of sa, and the cases a quotient does not exist for; no value traps. -/
def Obligations.DivisionResults : Prop :=
  ∀ (f : A3) (s : State), s.Quiet → s.Full [f.sa, f.sb, f.sd] →
    let a := s.me.sget f.sa
    let b := s.me.sget f.sb
    let low : Word := BitVec.ofNat 64 (2 ^ 63)
    (b ≠ 0 → ¬(a = low ∧ b = -1) → exec (.div f) s = .next (s.wrote f.sd (BitVec.ofInt 64 (a.toInt.tdiv b.toInt)))) ∧
    (a = low → b = -1 → exec (.div f) s = .next (s.wrote f.sd (BitVec.ofNat 64 (2 ^ 63 - 1)))) ∧
    (b = 0 → exec (.div f) s = .next (s.wrote f.sd (if a = 0 then 0 else if a.toInt < 0 then low else BitVec.ofNat 64 (2 ^ 63 - 1)))) ∧
    (b ≠ 0 → exec (.divu f) s = .next (s.wrote f.sd (BitVec.ofNat 64 (a.toNat / b.toNat)))) ∧
    (b = 0 → exec (.divu f) s = .next (s.wrote f.sd (if a = 0 then 0 else BitVec.ofNat 64 (2 ^ 64 - 1)))) ∧
    (b ≠ 0 → exec (.rem f) s = .next (s.wrote f.sd (BitVec.ofInt 64 (a.toInt.tmod b.toInt)))) ∧
    (b = 0 → exec (.rem f) s = .next (s.wrote f.sd a)) ∧
    (b ≠ 0 → exec (.remu f) s = .next (s.wrote f.sd (BitVec.ofNat 64 (a.toNat % b.toNat)))) ∧
    (b = 0 → exec (.remu f) s = .next (s.wrote f.sd a))

/-- What writing a scalar register changes (R25, R26): a register other than s0 takes the value, every other register keeps its value and its full bit, s0 stays zero, and every other context, core and byte of memory is as before. A scalar instruction with an empty source waits (R26, R252), said of every form that reads a scalar register and of each source it reads: the PC stays, no register or byte of memory changes, and the context is marked as waiting. BINS, SEL and the atomics read sd too; BR's FULL and EMPTY read nothing; STRIP comes to its sources with a valid VTYPE entry, the CSR instructions to theirs with a listed number that the privilege may access, BARW when it has not yet arrived. The flag waiting is how the model marks the wait of R252. -/
def Obligations.ScalarFrameAndWaits : Prop :=
  (∀ (s : State) (r : Fin 32) (v : Word),
    let t := s.wrote r v
    (r ≠ 0 → t.me.sget r = v ∧ t.me.isFull r = true) ∧ t.me.sget 0 = 0 ∧ t.me.isFull 0 = true ∧
    (∀ q, q ≠ r → t.me.sget q = s.me.sget q ∧ t.me.isFull q = s.me.isFull q) ∧
    t.me.pc = s.me.pc + 4 ∧ t.me.tr = s.me.tr ∧ t.me.vc = s.me.vc ∧ t.me.fc = s.me.fc ∧ t.me.v = s.me.v ∧ t.me.m = s.me.m ∧
    t.me.q = s.me.q ∧ t.me.tags = s.me.tags ∧ t.me.queue = s.me.queue ∧ s.OnlyMe t ∧
    (∀ a, t.byte a = s.byte a) ∧ ∀ core a, t.poolByte core a = s.poolByte core a) ∧
  (∀ (s : State),
    let waits (i : Instr) : Prop := exec i s = .next (s.modMe fun c => { c with waiting := true })
    let no (r : Fin 32) : Prop := s.me.isFull r = false
    (∀ f : A3, no f.sa ∨ no f.sb →
      ∀ i ∈ [Instr.add f, .sub f, .and f, .or f, .xor f, .sll f, .srl f, .sra f, .mul f, .mulh f, .div f, .divu f, .rem f, .remu f, .min f, .max f, .slt f, .sltu f, .seq f,
        .bext f, .bins f, .sel f, .bind f, .wbind f, .wqry f, .wapp f, .vshape f], waits i) ∧
    (∀ f : A3, no f.sd → waits (.bins f) ∧ waits (.sel f)) ∧
    (∀ f : A2, no f.sa →
      ∀ i ∈ [Instr.clz f, .ctz f, .popc f, .spawn f, .lease f, .tlsig f, .tlrd f, .tagwany f, .tagwall f, .tagff f, .vsetl f, .vtype f, .vsetm f, .vsets f, .vdecl f, .vlive f], waits i) ∧
    (∀ f : IForm, no f.sa → ∀ i ∈ [Instr.addi f, .andi f, .ori f, .xori f, .slti f, .jalr f], waits i) ∧
    (∀ f : ShForm, no f.sa → waits (.slli f) ∧ waits (.srli f) ∧ waits (.srai f)) ∧
    (∀ f : LForm, (no f.sa → waits (.ld f)) ∧ (no f.sa ∨ no f.r → waits (.st f))) ∧
    (∀ f : XForm, no f.sa ∨ no f.sb ∨ no f.sd →
      ∀ i ∈ [Instr.amoadd f, .amoswp f, .amocas f, .amomin f, .amomax f, .amoand f, .amoor f, .amoxor f], waits i) ∧
    (∀ f : BForm, f.cond ≠ .full → f.cond ≠ .empty → no f.sa ∨ no f.sb → waits (.br f)) ∧
    (∀ f : PForm, s.me.vtFmt.valid = true → no f.sn ∨ (∃ p ∈ stripPointers f, no p) → waits (.strip f)) ∧
    (∀ f : AB, no f.sa ∨ no f.sb → waits (.tlwait f)) ∧ (∀ f : ADB, no f.sb → waits (.wrefit f) ∧ waits (.wdrain f)) ∧
    (∀ f : A1, no f.sa → waits (.trap f) ∧ waits (.brkpt f) ∧ waits (.unbind f)) ∧ (∀ f : QualA, no f.sa → waits (.acq f) ∧ waits (.rel f)) ∧
    (∀ f : DrInitForm, no f.sa ∨ no f.sb → waits (.drinit f)) ∧ (∀ f : BaraForm, no f.sa → waits (.bara f)) ∧
    (∀ f : BarwForm, s.me.arrived = none → no f.sa → waits (.barw f)) ∧ (∀ f : QAForm, no f.sa → waits (.qbind f) ∧ waits (.qseek f)) ∧
    (∀ f : FtwrForm, no f.sa → waits (.ftwr f)) ∧ (∀ f : EForm, no 30 → waits (.emucall f)) ∧
    (∀ f : CForm, ∀ row, csrRow f.csr.toNat = some row → row.read ≤ s.me.priv.toNat → row.access = .ro ∨ row.write ≤ s.me.priv.toNat → no f.sa →
      waits (.csrw f) ∧ waits (.csrs f) ∧ waits (.csrc f)) ∧
    (∀ f : TForm, no f.sa ∨ no f.sb →
      ∀ i ∈ [Instr.tcopy f, .tcopym f, .tqnt f, .tenc f, .tdec f, .tqsc f, .tstat f, .tblk f], waits i))

/-! Control flow, system instructions, traps. -/

/-- The simplest system instructions (R256): NOP and YIELD only move the PC, RDTIME reads the time into sd, UNLEASE gives a lease up. -/
def Obligations.SystemResults : Prop :=
  ∀ (s : State), s.Quiet →
    (∀ f : A0, exec (.nop f) s = .next (s.went id) ∧ exec (.yield f) s = .next (s.went id) ∧
      exec (.unlease f) s = .next (s.went fun c => { c with lease := none })) ∧
    (∀ f : AD, s.Full [f.sd] → exec (.rdtime f) s = .next (s.wrote f.sd (BitVec.ofNat 64 s.time)))

/-- LEASE (R258, R404): a well-formed request without a lease held is granted for what it asks when the clock is within LMAX and CAP, GAP is 0, and the mean current of the last millisecond scaled by the requested clock over the present one is at most 0.95 L, where L is 0.9 of the plan's limit while the cluster's sensor drifts (R398); the lease is then held and sd is the duration. Otherwise sd is 0, and a lease held stays. -/
def Obligations.LeaseResults : Prop :=
  ∀ (s : State), s.Quiet →
    (∀ f : A2, s.Full [f.sa, f.sd] →
      let a := s.me.sget f.sa
      let us := wbits a 0 16
      let clock := wbits a 16 12
      let k := (s.cluster (s.cur.core.val / 8)).cinch
      let formed := 1 ≤ us ∧ us ≤ 50000 ∧ 3301 ≤ clock ∧ clock ≤ 3800 ∧ wbits a 28 36 = 0
      let tenths := if k.drifting then 9 * k.limit else 10 * k.limit
      let granted := clock ≤ k.lmax ∧ k.gap = 0 ∧ clock ≤ k.cap ∧
        k.milli.foldl (· + ·) 0 * clock * 1000 ≤ 95 * tenths * k.milli.length * coreClock s s.cur.core
      (s.me.lease = none → formed → granted →
        exec (.lease f) s = .next (s.went fun c => ({ c with lease := some { micros := us, clock } } : Ctx).sset f.sd (BitVec.ofNat 64 us))) ∧
      (¬(s.me.lease = none ∧ formed ∧ granted) → exec (.lease f) s = .next (s.wrote f.sd 0)))

/-- BR (R149): with full sources the PC goes to BR's address plus 4 times the signed offset when the condition holds, else past it; FULL and EMPTY look at the bit of sa alone and never wait. Nothing but the PC changes. JAL and JALR (R151): the link is the address + 4, the target of JALR comes from sa as it was before the link, and a target that is no multiple of 4 traps with PC_ALIGN, TVAL the target, no link written. -/
def Obligations.BranchAndJumpResults : Prop :=
  (∀ (f : BForm) (s : State), s.Quiet →
    let a := s.me.sget f.sa
    let b := s.me.sget f.sb
    let taken : Word := s.me.pc + 4 * f.off.signExtend 64
    let go (p : Prop) [Decidable p] := exec (.br f) s = .next (s.wentTo (if p then taken else s.me.pc + 4) id)
    (f.cond = .full → go (f.sa = 0 ∨ s.me.full.getLsbD f.sa.val = true)) ∧
    (f.cond = .empty → go (f.sa ≠ 0 ∧ s.me.full.getLsbD f.sa.val = false)) ∧
    (s.Full [f.sa, f.sb] →
      (f.cond = .eq → go (a = b)) ∧ (f.cond = .ne → go (a ≠ b)) ∧
      (f.cond = .lt → go (a.toInt < b.toInt)) ∧ (f.cond = .ge → go (b.toInt ≤ a.toInt)) ∧
      (f.cond = .ltu → go (a.toNat < b.toNat)) ∧ (f.cond = .geu → go (b.toNat ≤ a.toNat)))) ∧
  (∀ (s : State), s.Quiet →
    (∀ f : JForm, s.Full [31] →
      exec (.jal f) s = .next (s.wentTo (s.me.pc + 4 * f.off.signExtend 64) fun c => c.sset 31 (c.pc + 4))) ∧
    (∀ f : IForm, s.Full [f.sa] →
      let t := s.me.sget f.sa + f.imm.signExtend 64
      (t.toNat % 4 = 0 → s.Full [f.sd] → exec (.jalr f) s = .next (s.wentTo t fun c => c.sset f.sd (c.pc + 4))) ∧
      (t.toNat % 4 ≠ 0 → s.me.lanesIdle = true → exec (.jalr f) s = .next (raise s s.cur .pcAlign s.me.pc s.me.pc t 0 false))))

/-- STRIP (R152): a well-formed STRIP with a valid VTYPE entry and no trim outstanding moves the selected pointers by VL times VS, takes VL from sn down to zero, sets VL to the smaller of the rest and Lim and VSHAPE to 0, and branches while anything is left; nothing else of the machine changes but what the model itself keeps of waits, re-faults and lane groups left idle. With an invalid entry, and no vector or matrix instruction outstanding, it raises ENTRY_INVALID with the entry's number, having changed nothing. -/
def Obligations.StripResults : Prop :=
  ∀ (f : PForm) (s : State), s.Quiet → stripOk f = true →
    (∀ e ∈ s.me.queue, trims e.instr = true → e.noTrim = true) →
    let n := s.me.sget f.sn
    let gv := s.me.vc.vl
    let rem : Word := if gv.toNat ≤ n.toNat then n - gv else 0
    (s.me.vtFmt.valid = true → s.Full (f.sn :: stripPointers f) →
      ∃ t, exec (.strip f) s = .next t ∧ s.OnlyMe t ∧
        t.me.sget f.sn = rem ∧
        (∀ i : Fin 4, f.pmask.getLsbD i.val = true → ∀ p : Fin 32, p.val = 4 * f.pg.val + i.val → t.me.sget p = s.me.sget p + gv * s.me.vc.vs) ∧
        (∀ p : Fin 32, p ≠ f.sn → (p.val / 4 = f.pg.val → f.pmask.getLsbD (p.val % 4) = false) → t.me.sget p = s.me.sget p) ∧
        t.me.vc = { s.me.vc with vl := BitVec.ofNat 64 (Nat.min rem.toNat (s.me.vlmax / s.me.vtFmt.wid)), vshape := 0 } ∧
        t.me.pc = (if rem = 0 then s.me.pc + 4 else s.me.pc + 4 * f.off.signExtend 64) ∧
        t.me = { s.me with s := t.me.s, vc := t.me.vc, pc := t.me.pc, full := t.me.full, waiting := false, refaults := t.me.refaults, lastFault := t.me.lastFault, retDue := t.me.retDue, retAt := t.me.retAt }) ∧
    (s.me.vtFmt.valid = false → s.me.lanesIdle = true →
      exec (.strip f) s = .next (raise s s.cur .entryInvalid s.me.pc s.me.pc (BitVec.ofNat 64 (wbits s.me.vc.vtype 0 4)) 0 false))

/-- Taking a trap (R335): the trap registers take the cause's code with VEC in bit 10, the return address and TVAL; PPRIV takes PRIV, PRIV becomes S unless it is F, INH is set, every other bit of STATUS keeps its value; the PC goes to TVEC with bits 5:0 cleared, plus 64 times the class in mode 1. Every other register of the context is as it was. A cause that is delivered as a trap and is no translation fault is delivered so when it is raised, the context giving up its place among the waiters for an object (R252). ERET (R336): from S or F, to a level no higher than the current one, and with CAUSE.VEC = 1 once the handler's own vector instructions have completed, the PC takes EPC, PRIV takes PPRIV, PPRIV and INH clear, and every other bit of STATUS and every register keep their values. With CAUSE.VEC = 1 and no trap of a resumption to come the kept entries are back in the queue; with VEC = 0 the queue is as it was. A cause raised by the head of the vector queue (R431): with nothing of the context in flight, a cause that is delivered as a trap and is no translation fault sets the head and the later entries aside and is taken with CAUSE.VEC = 1, EPC the first instruction the scalar unit has not executed, VEPC the head's address; inside a handler it stops the context instead, and the queue and the entries kept before stay as they were. That the kept entries come back with VEC set alone is the reading of log 16. -/
def Obligations.TrapEntryAndReturn : Prop :=
  (∀ (s : State) (c : CtxId) (k : Cause) (epc tval : Word) (vec : Bool),
    let x := s.ctx c
    (k.delivery = .trap → k ≠ .trNotmapped → k ≠ .trPerm → k ≠ .pteIllegal → ∀ pc aux : Word,
      raise s c k pc epc tval aux vec = deliver { s with acqs := s.acqs.filter fun a => a.1 != c } c k epc tval vec) ∧
    (x.tr.status.getLsbD 4 = false → x.tr.status.getLsbD (8 + k.code / 128) = false →
    ∃ y : Ctx, deliver s c k epc tval vec = s.setCtx c y ∧
      y = { x with waiting := false, pc := y.pc, tr := y.tr } ∧
      y.tr.cause = BitVec.ofNat 64 (k.code + if vec then 1024 else 0) ∧ y.tr.epc = epc ∧ y.tr.tval = tval ∧
      y.tr = { x.tr with cause := y.tr.cause, epc := y.tr.epc, tval := y.tr.tval, status := y.tr.status } ∧
      wbits y.tr.status 2 2 = wbits x.tr.status 0 2 ∧ wbits y.tr.status 0 2 = (if wbits x.tr.status 0 2 = 2 then 2 else 1) ∧
      y.tr.status.getLsbD 4 = true ∧ (∀ i, i ≠ 0 → i ≠ 1 → i ≠ 2 → i ≠ 3 → i ≠ 4 → y.tr.status.getLsbD i = x.tr.status.getLsbD i) ∧
      y.pc = BitVec.ofNat 64 (x.tr.tvec.toNat / 64 * 64 + if x.tr.tvec.toNat % 4 = 1 then 64 * (k.code / 128) else 0))) ∧
  (∀ (f : A0) (s : State), s.Quiet → 1 ≤ wbits s.me.tr.status 0 2 → wbits s.me.tr.status 2 2 ≤ wbits s.me.tr.status 0 2 →
    (s.me.tr.cause.getLsbD 10 = true → s.me.queue = []) →
    ∃ t, exec (.eret f) s = .next t ∧ s.OnlyMe t ∧ t.me.pc = s.me.tr.epc ∧
      wbits t.me.tr.status 0 2 = wbits s.me.tr.status 2 2 ∧ wbits t.me.tr.status 2 2 = 0 ∧ t.me.tr.status.getLsbD 4 = false ∧
      (∀ i, 5 ≤ i → t.me.tr.status.getLsbD i = s.me.tr.status.getLsbD i) ∧
      t.me.tr = { s.me.tr with status := t.me.tr.status } ∧
      t.me = { s.me with pc := t.me.pc, tr := t.me.tr, waiting := false, refaults := t.me.refaults, lastFault := t.me.lastFault,
                         queue := t.me.queue, kept := t.me.kept, rejoin := t.me.rejoin } ∧
      (s.me.tr.cause.getLsbD 10 = true → s.me.pendTraps = [] → t.me.queue = s.me.kept ∧ t.me.kept = []) ∧
      (s.me.tr.cause.getLsbD 10 = false → t.me.queue = s.me.queue)) ∧
  (∀ (s : State) (e : QEntry) (rest : List QEntry) (k : Cause) (tval aux : Word),
    s.me.queue = e :: rest → s.me.st = .running → k.delivery = .trap → k ≠ .trNotmapped → k ≠ .trPerm → k ≠ .pteIllegal →
    s.me.land = [] → (∀ r : Fin 32, s.me.v[r].full = true) → (∀ n : Fin 32, s.myCore.slots[n].mld = true → s.myCore.slots[n].owner ≠ s.cur.lc) →
    (∀ o ∈ s.myCore.arr.ops, o.lc ≠ s.cur.lc) →
    (s.me.tr.status.getLsbD 4 = false → s.me.tr.status.getLsbD (8 + k.code / 128) = false →
      let t := laneTrap s k tval aux
      ({ s with acqs := s.acqs.filter fun a => a.1 != s.cur } : State).OnlyMe t ∧
      t.me = { s.me with
        waiting := false, queue := [], kept := s.me.queue, rejoin := false, laneHeld := false, gather := [], readPages := []
        pc := trapTarget s.me.tr.tvec (k.code / 128)
        tr := { s.me.tr with cause := BitVec.ofNat 64 (1024 + k.code), epc := s.me.pc, tval, status := trapStatus s.me.tr.status, vepc := e.pc } }) ∧
    (s.me.tr.status.getLsbD 4 = true →
      let t := laneTrap s k tval aux
      t.me.st = .stopped ∧ t.me.queue = s.me.queue ∧ t.me.kept = s.me.kept ∧ t.me.tr = s.me.tr ∧ t.me.pc = s.me.pc))

/-- A cause that arrives inside a handler stops the context with DOUBLE_TRAP in the report, and one whose class STATUS.RDIR redirects stops it with its own code (R335): the registers stay, the context is stopped, and a handler that stops so leaves no trap of a resumption to come (R346). Re-faults (R327): the fourth repeat of one translation fault outside a handler stops the context with REPLAY_LOST in place of the trap; an earlier repeat is counted and taken. The context gives up its place among the waiters for an object. -/
def Obligations.StopsWithoutDelivery : Prop :=
  (∀ (s : State) (c : CtxId) (k : Cause) (epc tval : Word) (vec : Bool),
    let x := s.ctx c
    (x.tr.status.getLsbD 4 = true →
      deliver s c k epc tval vec = (ctxReport s c 0x010 .stop epc (BitVec.ofNat 64 k.code) 0).modCtx c fun y => { y with st := .stopped, waiting := false, pendTraps := [] }) ∧
    (x.tr.status.getLsbD 4 = false → x.tr.status.getLsbD (8 + k.code / 128) = true →
      deliver s c k epc tval vec = (ctxReport s c k.code .stop epc tval 0).modCtx c fun y => { y with st := .stopped, waiting := false })) ∧
  (∀ (s : State) (c : CtxId) (k : Cause) (pc epc tval aux : Word) (vec : Bool),
    let left : State := { s with acqs := s.acqs.filter fun a => a.1 != c }
    k = .trNotmapped ∨ k = .trPerm ∨ k = .pteIllegal → (s.ctx c).tr.status.getLsbD 4 = false → (s.ctx c).lastFault = some (pc, tval) →
    (3 ≤ (s.ctx c).refaults →
      raise s c k pc epc tval aux vec = (ctxReport left c 0x115 .stop epc tval 0).modCtx c fun x => { x with st := .stopped, waiting := false }) ∧
    ((s.ctx c).refaults < 3 →
      raise s c k pc epc tval aux vec = deliver (left.modCtx c fun x => { x with refaults := x.refaults + 1 }) c k epc tval vec))

/-- TRAP and BRKPT (R256): once every earlier vector and matrix instruction has completed they take the trap of SW_TRAP and BREAKPOINT, EPC their own address, TVAL the value of sa; the context gives up its place among the waiters for an object (R252). The privileged instructions (R121, R336): with no vector or matrix instruction outstanding, ERET and HALT at N, and ERET to a level above the current one, raise PRIV_INSN with TVAL the word, and have no effect of their own. -/
def Obligations.TrapsTakenAtOnce : Prop :=
  (∀ (f : A1) (s : State), s.Full [f.sa] → s.me.lanesIdle = true → s.me.tr.status.getLsbD 4 = false → s.me.tr.status.getLsbD 8 = false →
    let taken (code : Nat) : State := ({ s with acqs := s.acqs.filter fun a => a.1 != s.cur } : State).modMe fun x =>
      { x with
        waiting := false
        pc := trapTarget x.tr.tvec 0
        tr := { x.tr with cause := BitVec.ofNat 64 code, epc := x.pc, tval := x.sget f.sa, status := trapStatus x.tr.status } }
    exec (.trap f) s = .next (taken 0x00D) ∧ exec (.brkpt f) s = .next (taken 0x00E)) ∧
  (∀ (f : A0) (s : State), s.me.lanesIdle = true →
    (wbits s.me.tr.status 0 2 = 0 →
      exec (.halt f) s = .next (raise s s.cur .privInsn s.me.pc s.me.pc (BitVec.ofNat 64 ((encode (.halt f)).getD 0)) 0 false)) ∧
    (wbits s.me.tr.status 0 2 = 0 ∨ wbits s.me.tr.status 0 2 < wbits s.me.tr.status 2 2 →
      exec (.eret f) s = .next (raise s s.cur .privInsn s.me.pc s.me.pc (BitVec.ofNat 64 ((encode (.eret f)).getD 0)) 0 false)))

/-- A word that fails a static check, and a fetch that fails (R121, R122, R328): outside a handler, with the class not redirected and no vector or matrix instruction outstanding, the trap is taken, EPC the PC; TVAL is the word, or the address of the fetch. The page of the fetch is no longer marked as discarded, the context gives up its place among the waiters for an object (R252), and a translation fault other than the last is the one that later re-faults are held against (R327). -/
def Obligations.DecodeAndFetchTraps : Prop :=
  ∀ (s : State), s.me.lanesIdle = true → s.me.tr.status.getLsbD 4 = false →
    let left : State := { s with acqs := s.acqs.filter fun a => a.1 != s.cur }
    let taken (code cls : Nat) (tval : Word) (x : Ctx) : Ctx :=
      { x with
        waiting := false
        pc := trapTarget x.tr.tvec cls
        tr := { x.tr with cause := BitVec.ofNat 64 code, epc := x.pc, tval, status := trapStatus x.tr.status } }
    (s.me.tr.status.getLsbD 8 = false → ∀ w : BitVec 32,
      let tval := w.setWidth 64
      exec (.decodeCause .illZero w) s = .next (left.modMe (taken 1 0 tval)) ∧
      exec (.decodeCause .illOpc w) s = .next (left.modMe (taken 2 0 tval)) ∧
      exec (.decodeCause .illFn w) s = .next (left.modMe (taken 3 0 tval)) ∧
      exec (.decodeCause .illField w) s = .next (left.modMe (taken 4 0 tval)) ∧
      exec (.decodeCause .illHint w) s = .next (left.modMe (taken 5 0 tval))) ∧
    (∀ a : Word,
      let gone (x : Ctx) : Ctx := { x with lost := x.lost.filter fun p => p != a.toNat / 4096 }
      (s.me.tr.status.getLsbD 8 = false → exec (.fetchCause .pcAlign a) s = .next (left.modMe fun x => taken 0x00A 0 a (gone x))) ∧
      (s.me.tr.status.getLsbD 10 = false →
        exec (.fetchCause .vaNoncanon a) s = .next (left.modMe fun x => taken 0x101 2 a (gone x)) ∧
        exec (.fetchCause .asidInvalid a) s = .next (left.modMe fun x => taken 0x106 2 a (gone x)) ∧
        exec (.fetchCause .execLost a) s = .next (left.modMe fun x => taken 0x114 2 a (gone x)) ∧
        (s.me.lastFault ≠ some (s.me.pc, a) →
          let counted (x : Ctx) : Ctx := { gone x with lastFault := some (s.me.pc, a) }
          exec (.fetchCause .trNotmapped a) s = .next (left.modMe fun x => taken 0x103 2 a (counted x)) ∧
          exec (.fetchCause .trPerm a) s = .next (left.modMe fun x => taken 0x104 2 a (counted x)) ∧
          exec (.fetchCause .pteIllegal a) s = .next (left.modMe fun x => taken 0x105 2 a (counted x)))) ∧
      (s.me.tr.status.getLsbD 13 = false → exec (.fetchCause .trPriv a) s = .next (left.modMe fun x => taken 0x281 5 a (gone x))))

/-! Scalar memory access. -/

/-- LD (R144 to R148): with no store of the context still to be performed, a load whose address reaches the core's own pool, or a peer's pool or main memory with values landing at once, writes the little-endian bytes there to sd, extended as the width says, for every order; the PC moves on and no byte of memory changes but what the translation marks. With values held back the register empties and the value of main memory or of a peer's pool is in flight to it. ST (R144 to R147, R281): with no earlier store of the context still to be performed, a store of the widths a store has writes the low bytes of ss, little-endian, at the address LD would read, and no other byte: of the core's own pool, or of main memory (the state `t` after the translation, which may have marked the page). While values are held back it changes no byte yet: it is the context's one store still to be performed. No register changes. Whether a value is held back is the turn's own field late (log 1), and accesses happen one at a time (log 2). -/
def Obligations.LoadAndStoreResults : Prop :=
  (∀ (f : LForm) (s : State), s.Quiet → s.Full [f.sa, f.r] → s.me.stores = [] →
    let a := (s.me.sget f.sa + f.off.signExtend 64).toNat
    let n := match f.width with | .b => 1 | .bu => 1 | .h => 2 | .hu => 2 | .w => 4 | .wu => 4 | .d => 8
    let ext (v : Nat) : Word := match f.width with
      | .b => (BitVec.ofNat 8 v).signExtend 64
      | .h => (BitVec.ofNat 16 v).signExtend 64
      | .w => (BitVec.ofNat 32 v).signExtend 64
      | .bu => BitVec.ofNat 64 v
      | .hu => BitVec.ofNat 64 v
      | .wu => BitVec.ofNat 64 v
      | .d => BitVec.ofNat 64 v
    (∀ off, s.PoolAt a n .read off → exec (.ld f) s = .next (s.wrote f.r (ext (memRead s.myCore.pool off n)))) ∧
    (∀ core off, s.PeerAt a n core off →
      (s.late = false ∨ f.r = 0 → exec (.ld f) s = .next (s.wrote f.r (ext (memRead (s.core core).pool off n)))) ∧
      (s.late = true → f.r ≠ 0 → exec (.ld f) s = .next (s.went fun c =>
        { c.sclear f.r with land := c.land ++ [{ dst := f.r, value := ext (memRead (s.core core).pool off n), poison := none, src := none }] }))) ∧
    (∀ pa t, s.MemAt a n .read pa t →
      (s.late = false ∨ f.r = 0 → exec (.ld f) s = .next (t.wrote f.r (ext (memRead t.mem pa n)))) ∧
      (s.late = true → f.r ≠ 0 → exec (.ld f) s = .next (t.went fun c =>
        { c.sclear f.r with land := c.land ++ [{ dst := f.r, value := ext (memRead t.mem pa n), poison := none, src := some pa }] })))) ∧
  (∀ (f : LForm) (s : State), s.Quiet → s.Full [f.sa, f.r] → stOk f = true → s.me.stores = [] →
    let a := (s.me.sget f.sa + f.off.signExtend 64).toNat
    let n := match f.width with | .b => 1 | .bu => 1 | .h => 2 | .hu => 2 | .w => 4 | .wu => 4 | .d => 8
    let v := (s.me.sget f.r).toNat
    let pends (t : State) (loc : Loc) : Prop :=
      exec (.st f) s = .next (t.went fun c => { c with stores := [{ loc, bytes := n, value := v, rel := f.order == .sync }] })
    (s.late = true → (∀ off, s.PoolAt a n .write off → pends s (.pool s.cur.core.val off)) ∧
      ∀ pa t, s.MemAt a n .write pa t → ∃ typ, pends t (.mem pa typ)) ∧
    (s.late = false → ∀ off, s.PoolAt a n .write off →
      ∃ u, exec (.st f) s = .next u ∧ u = (s.modMyCore fun k => { k with pool := memWrite k.pool off n v }).went id ∧
        (∀ i, i < n → (u.poolByte s.cur.core.val (off + i)).toNat = v / 256 ^ i % 256) ∧
        (∀ b, b < off ∨ off + n ≤ b → u.poolByte s.cur.core.val b = s.poolByte s.cur.core.val b) ∧
        (∀ c b, c ≠ s.cur.core.val → u.poolByte c b = s.poolByte c b) ∧ ∀ b, u.byte b = s.byte b) ∧
    (s.late = false → ∀ pa t, s.MemAt a n .write pa t →
      ∃ u, exec (.st f) s = .next u ∧ u = ({ t with mem := memWrite t.mem pa n v } : State).went id ∧
        (∀ i, i < n → (u.byte (pa + i)).toNat = v / 256 ^ i % 256) ∧ (∀ b, b < pa ∨ pa + n ≤ b → u.byte b = t.byte b) ∧
        ∀ c b, u.poolByte c b = t.poolByte c b))

/-- The scalar atomics (R157 to R160) on a doubleword of the core's own pool, and of main memory with values landing at once, with no store of the context still to be performed: sd takes the old value, the doubleword the new one, and AMOCAS writes only when sd held the old value. Values landing at once is the field late of the model's turns (log 1). -/
def Obligations.AtomicResults : Prop :=
  ∀ (f : XForm) (s : State), s.Quiet → s.Full [f.sa, f.sb, f.sd] → s.me.stores = [] →
    let b := s.me.sget f.sb
    let cmp := s.me.sget f.sd
    let each (put : (Word → Option Word) → Word → State) (old : Word) : Prop :=
      let done (new : Word → Option Word) : Out := .next (put new old)
      exec (.amoadd f) s = done (fun o => some (o + b)) ∧
      exec (.amoswp f) s = done (fun _ => some b) ∧
      exec (.amocas f) s = done (fun o => if o = cmp then some b else none) ∧
      exec (.amomin f) s = done (fun o => some (if o.toInt < b.toInt then o else b)) ∧
      exec (.amomax f) s = done (fun o => some (if o.toInt < b.toInt then b else o)) ∧
      exec (.amoand f) s = done (fun o => some (o &&& b)) ∧
      exec (.amoor f) s = done (fun o => some (o ||| b)) ∧
      exec (.amoxor f) s = done (fun o => some (o ^^^ b))
    (∀ off, s.PoolAt (s.me.sget f.sa).toNat 8 .write off →
      each (fun new old => match new old with
        | some v => (s.modMyCore fun k => { k with pool := memWrite k.pool off 8 v.toNat }).wrote f.sd old
        | none => s.wrote f.sd old) (BitVec.ofNat 64 (memRead s.myCore.pool off 8))) ∧
    (s.late = false → ∀ pa t, s.MemAt (s.me.sget f.sa).toNat 8 .write pa t →
      each (fun new old => match new old with
        | some v => ({ t with mem := memWrite t.mem pa 8 v.toNat } : State).wrote f.sd old
        | none => t.wrote f.sd old) (BitVec.ofNat 64 (memRead t.mem pa 8)))

/-- The checks of a scalar access (R53, R144, R145, R157): with no vector or matrix instruction outstanding, for a load, a store and every atomic, an address of 2^56 or more raises VA_NONCANON, one that is no multiple of the width MISALIGNED, and a store or an atomic to a peer's pool PEER_WRITE, with TVAL the address. Nothing else has happened. -/
def Obligations.ScalarAccessCauses : Prop :=
  ∀ (s : State), s.me.lanesIdle = true →
    let raised (c : Cause) (a : Word) : Out := .next (raise s s.cur c s.me.pc s.me.pc a 0 false)
    (∀ f : LForm, s.Full [f.sa, f.r] →
      let a := s.me.sget f.sa + f.off.signExtend 64
      let n := widthBytes f.width
      (2 ^ 56 ≤ a.toNat → exec (.ld f) s = raised .vaNoncanon a ∧ exec (.st f) s = raised .vaNoncanon a) ∧
      (a.toNat < 2 ^ 56 → a.toNat % n ≠ 0 → exec (.ld f) s = raised .misaligned a ∧ exec (.st f) s = raised .misaligned a) ∧
      (peerBase ≤ a.toNat → a.toNat < peerBase + 8 * poolSize → a.toNat % n = 0 → exec (.st f) s = raised .peerWrite a)) ∧
    (∀ f : XForm, s.Full [f.sa, f.sb, f.sd] →
      let a := s.me.sget f.sa
      ∀ i ∈ [Instr.amoadd f, .amoswp f, .amocas f, .amomin f, .amomax f, .amoand f, .amoor f, .amoxor f],
        (2 ^ 56 ≤ a.toNat → exec i s = raised .vaNoncanon a) ∧
        (a.toNat < 2 ^ 56 → a.toNat % 8 ≠ 0 → exec i s = raised .misaligned a) ∧
        (peerBase ≤ a.toNat → a.toNat < peerBase + 8 * poolSize → a.toNat % 8 = 0 → exec i s = raised .peerWrite a))

/-! Control registers. -/

/-- CSRR (R45, R47, R155): with a listed number that the privilege may read, sd full, and, for a number whose read waits, every vector and matrix instruction complete, sd takes the register's value; every register of the map reads as State holds it. Which instructions a waiting read waits for is the reading of log 24. -/
def Obligations.CsrReads : Prop :=
  ∀ (f : CRForm) (s : State), s.Quiet → s.Full [f.sd] →
    (∀ row, csrRow f.csr.toNat = some row → row.read ≤ s.me.priv.toNat → (row.waits = true → lanesDone s s.cur = true) →
      exec (.csrr f) s = .next (s.wrote f.sd (csrValue s f.csr.toNat))) ∧
    csrValue s 0x000 = s.me.vc.vl ∧ csrValue s 0x001 = s.me.vc.vshape ∧ csrValue s 0x002 = s.me.vc.vtype ∧
    csrValue s 0x003 = s.me.vc.vm ∧ csrValue s 0x004 = s.me.vc.vs ∧ csrValue s 0x005 = s.me.vc.vstart ∧
    csrValue s 0x008 = BitVec.ofNat 64 (16384 * 2 ^ s.me.vc.eff.toNat / 8) ∧ csrValue s 0x009 = s.me.vc.vdirty.setWidth 64 ∧
    csrValue s 0x011 = s.me.fc.satcnt ∧ (∀ n : Fin 16, csrValue s (0x020 + n.val) = (s.me.fc.amax[n]).setWidth 64) ∧
    csrValue s 0x040 = s.me.tags ∧ (∀ n : Fin 8, csrValue s (0x048 + n.val) = s.me.lpenc[n]) ∧
    csrValue s 0x100 = s.me.tr.cause ∧ csrValue s 0x101 = s.me.tr.epc ∧ csrValue s 0x102 = s.me.tr.tval ∧ csrValue s 0x103 = s.me.tr.tvec ∧
    csrValue s 0x104 = s.me.tr.status ∧ csrValue s 0x105 = s.me.tr.scratch ∧ csrValue s 0x107 = s.me.tr.vepc ∧
    csrValue s 0x110 = s.me.slip ∧ csrValue s 0x120 = BitVec.ofNat 64 s.time ∧
    (s.me.lease = none → csrValue s 0x051 = 0) ∧ (∀ l, s.me.lease = some l → csrValue s 0x051 = BitVec.ofNat 64 l.micros) ∧
    csrValue s 0x006 = s.me.vc.xmr ∧ csrValue s 0x007 = s.me.vc.erule ∧ csrValue s 0x00A = s.me.vc.vuse.setWidth 64 ∧
    csrValue s 0x00B = s.me.vc.vlive.setWidth 64 ∧ csrValue s 0x00C = s.me.vc.vdecl ∧ csrValue s 0x030 = s.me.fc.mrows ∧ csrValue s 0x106 = s.me.rcb ∧
    csrValue s 0x130 = BitVec.ofNat 64 (s.me.asid.toNat * 2 ^ 32 + s.cur.core.val * 4 + s.cur.lc.val) ∧
    (let w := csrValue s 0x010
     wbits w 0 5 = s.me.fc.flags.toNat ∧ wbits w 8 3 = s.me.fc.rmo.toNat ∧ wbits w 11 5 = s.me.fc.xsel.toNat ∧ wbits w 32 32 = s.me.fc.seed.toNat) ∧
    (let w := csrValue s 0x050
     let k := (s.cluster (s.cur.core.val / 8)).cinch
     wbits w 48 12 = k.lmax % 4096 ∧ wbits w 36 12 = k.floor % 4096 ∧ wbits w 20 12 = k.cap % 4096 ∧ wbits w 8 2 = k.gap % 4 ∧ wbits w 60 4 = 0)

/-- CSRW, CSRS and CSRC (R46, R69, R94, R155, R168) on the registers that can be written: sd takes the old value, and the register the operand, the operand ORed in, or its bits cleared, as far as its bits are writable; a reserved RMO of FCSR keeps RMO. A value without a reserved field enters ERULE; VTYPE, VDECL and VLIVE take it with the effect of their VSET functions, a VTYPE once no trim is outstanding, a VLIVE once every vector and matrix instruction has completed. Every other register of the context stays. Which instructions a waiting access waits for is the reading of log 24. -/
def Obligations.CsrWrites : Prop :=
  ∀ (f : CForm) (s : State), s.Quiet → s.Full [f.sa, f.sd] →
    let a := s.me.sget f.sa
    let all (lvl : Nat) (waits : Bool) (old : Word) (put : Word → Ctx → Ctx) : Prop :=
      lvl ≤ s.me.priv.toNat → (waits = true → lanesDone s s.cur = true) →
        exec (.csrw f) s = .next (s.went fun c => (put a c).sset f.sd old) ∧
        exec (.csrs f) s = .next (s.went fun c => (put (old ||| a) c).sset f.sd old) ∧
        exec (.csrc f) s = .next (s.went fun c => (put (old &&& ~~~a) c).sset f.sd old)
    (f.csr = 0x003 → all 0 false s.me.vc.vm fun v c => { c with vc := { c.vc with vm := v &&& 0xF } }) ∧
    (f.csr = 0x004 → all 0 false s.me.vc.vs fun v c => { c with vc := { c.vc with vs := v } }) ∧
    (f.csr = 0x005 → all 0 true s.me.vc.vstart fun v c => { c with vc := { c.vc with vstart := v } }) ∧
    (f.csr = 0x006 → all 0 false s.me.vc.xmr fun v c => { c with vc := { c.vc with xmr := v &&& 7 } }) ∧
    (f.csr = 0x011 → all 0 true s.me.fc.satcnt fun v c => { c with fc := { c.fc with satcnt := v } }) ∧
    (∀ n : Fin 16, f.csr.toNat = 0x020 + n.val → all 0 true ((s.me.fc.amax[n]).setWidth 64) fun v c => { c with fc := { c.fc with amax := c.fc.amax.set n (v.setWidth 32) } }) ∧
    (∀ n : Fin 8, f.csr.toNat = 0x048 + n.val → lanesDone s s.cur = true →
      all 0 false (s.me.lpenc[n]) fun v c => { c with lpenc := c.lpenc.set n (v &&& 0x8003FFFF0003FFFF) }) ∧
    (f.csr = 0x00A → all 1 true (s.me.vc.vuse.setWidth 64) fun v c => { c with vc := { c.vc with vuse := v.setWidth 32 } }) ∧
    (f.csr = 0x100 → all 1 false s.me.tr.cause fun v c => { c with tr := { c.tr with cause := v &&& 0x7FF } }) ∧
    (f.csr = 0x101 → all 1 false s.me.tr.epc fun v c => { c with tr := { c.tr with epc := v } }) ∧
    (f.csr = 0x102 → all 1 false s.me.tr.tval fun v c => { c with tr := { c.tr with tval := v } }) ∧
    (f.csr = 0x103 → all 1 false s.me.tr.tvec fun v c => { c with tr := { c.tr with tvec := tvecPut c.tr.tvec v } }) ∧
    (f.csr = 0x104 → all 1 false s.me.tr.status fun v c => { c with tr := { c.tr with status := statusPut c.tr.status v } }) ∧
    (f.csr = 0x105 → all 1 false s.me.tr.scratch fun v c => { c with tr := { c.tr with scratch := v } }) ∧
    (f.csr = 0x107 → all 1 false s.me.tr.vepc fun v c => { c with tr := { c.tr with vepc := v } }) ∧
    (f.csr = 0x110 → all 1 false s.me.slip fun v c => { c with slip := v }) ∧
    (f.csr = 0x010 → all 0 true (csrValue s 0x010) fun v c =>
      { c with fc := { c.fc with seed := v.extractLsb' 32 32, xsel := v.extractLsb' 11 5, flags := v.setWidth 5, rmo := if 6 ≤ wbits v 8 3 then c.fc.rmo else v.extractLsb' 8 3 } }) ∧
    (let put (old : Word) : List (Instr × Word) := [(.csrw f, a), (.csrs f, old ||| a), (.csrc f, old &&& ~~~a)]
     (f.csr = 0x007 → ∀ p ∈ put s.me.vc.erule, wbits p.2 0 2 ≠ 3 → wbits p.2 6 2 ≠ 3 →
       exec p.1 s = .next (s.went fun c => ({ c with vc := { c.vc with erule := p.2 &&& 0xDB } } : Ctx).sset f.sd s.me.vc.erule)) ∧
     (f.csr = 0x00C → ∀ p ∈ put s.me.vc.vdecl,
       (wbits p.2 0 2 = 3 → exec p.1 s = .next (s.wrote f.sd s.me.vc.vdecl)) ∧
       (wbits p.2 0 2 ≠ 3 → exec p.1 s = .next (s.went fun c => ({ c with vc := { c.vc with cnt := p.2.setWidth 2, pend := true } } : Ctx).sset f.sd s.me.vc.vdecl))) ∧
     (f.csr = 0x002 → (∀ e ∈ s.me.queue, trims e.instr = true → e.noTrim = true) → ∀ p ∈ put s.me.vc.vtype,
       ∃ t, exec p.1 s = .next t ∧ s.OnlyMe t ∧ t.me.vc.vtype = BitVec.ofNat 64 (wbits p.2 0 4) ∧ (f.sd ≠ 0 → t.me.sget f.sd = s.me.vc.vtype) ∧
         let k := fmtOf (entWord s.me.ents (wbits p.2 0 4))
         let lim := s.me.vlmax / k.wid
         (k.valid = true → lim < s.me.vc.vl.toNat → t.me.vc.vl = BitVec.ofNat 64 lim ∧ t.me.vc.vshape = 0) ∧
         (k.valid = false ∨ s.me.vc.vl.toNat ≤ lim → t.me.vc.vl = s.me.vc.vl ∧ t.me.vc.vshape = s.me.vc.vshape)) ∧
     (f.csr = 0x00B → lanesDone s s.cur = true → ∀ p ∈ put (s.me.vc.vlive.setWidth 64),
       ∃ t, exec p.1 s = .next t ∧ (∀ i, t.me.vc.vlive.getLsbD i = (decide (i < s.me.count) && p.2.getLsbD i)) ∧
         (f.sd ≠ 0 → t.me.sget f.sd = s.me.vc.vlive.setWidth 64) ∧
         (∀ i : Fin 32, s.me.vc.vlive.getLsbD i.val = t.me.vc.vlive.getLsbD i.val → t.me.v[i] = s.me.v[i]) ∧
         (∀ i : Fin 32, s.me.vc.vlive.getLsbD i.val = true → t.me.vc.vlive.getLsbD i.val = false → t.me.v[i] = VReg.dead) ∧
         (∀ i, t.me.vc.vdirty.getLsbD i = (s.me.vc.vdirty.getLsbD i && !(s.me.vc.vlive.getLsbD i && !t.me.vc.vlive.getLsbD i))) ∧ ∀ b, t.byte b = s.byte b))

/-- What the three instructions do on registers that are not plain storage (R46, R94): a read-only register takes nothing, VL and MROWS once every vector and matrix instruction has completed; VDIRTY and TAGS lose the bits of sa that are 1, with VDIRTY's the DIRTY of the registers, and CSRC leaves them. With no vector or matrix instruction outstanding a reserved value for ERULE raises ERULE_ILLEGAL, a number not listed ILL_CSR, a trap register or VEPC at N, and a write of VDIRTY, VUSE or SLIPCNT at N, PRIV_CSR, with TVAL the word. STATUS and TVEC as a write leaves them (R334): PRIV is read-only, PPRIV takes the value but for 0b11, INH and RDIR take it and every other bit reads as 0; TVEC keeps a base aligned to 64, and a reserved MODE leaves MODE. The TVAL of ERULE_ILLEGAL is named by no rule and is the free value Config.tval of the step counter (log 7); keeping PPRIV and MODE under a reserved value is R334 as log 48 reads it. -/
def Obligations.CsrSpecialWrites : Prop :=
  (∀ (f : CForm) (s : State), s.Quiet → s.Full [f.sa, f.sd] →
    let a := s.me.sget f.sa
    let kept (old : Word) : Prop := exec (.csrw f) s = .next (s.wrote f.sd old) ∧ exec (.csrs f) s = .next (s.wrote f.sd old) ∧ exec (.csrc f) s = .next (s.wrote f.sd old)
    (f.csr = 0x001 → kept s.me.vc.vshape) ∧ (f.csr = 0x008 → kept (BitVec.ofNat 64 (s.me.vlmax / 8))) ∧ (f.csr = 0x050 → kept (csrValue s 0x050)) ∧
    (f.csr = 0x051 → kept (match s.me.lease with | some l => BitVec.ofNat 64 l.micros | none => 0)) ∧ (f.csr = 0x106 → kept s.me.rcb) ∧
    (f.csr = 0x120 → kept (BitVec.ofNat 64 s.time)) ∧ (f.csr = 0x130 → kept (ctxId s.me.asid s.cur)) ∧
    (lanesDone s s.cur = true → (f.csr = 0x000 → kept s.me.vc.vl) ∧ (f.csr = 0x030 → kept s.me.fc.mrows)) ∧
    (f.csr = 0x009 → lanesDone s s.cur = true → 1 ≤ s.me.priv.toNat →
      let cleared : Out := .next (s.went fun c => ({ c with
        vc := { c.vc with vdirty := c.vc.vdirty &&& ~~~(a.setWidth 32) }
        v := Vector.ofFn fun i => if a.getLsbD i.val then { c.v[i] with dirty := false } else c.v[i] } : Ctx).sset f.sd (s.me.vc.vdirty.setWidth 64))
      exec (.csrw f) s = cleared ∧ exec (.csrs f) s = cleared ∧
      exec (.csrc f) s = .next (s.wrote f.sd (s.me.vc.vdirty.setWidth 64))) ∧
    (f.csr = 0x040 →
      exec (.csrw f) s = .next (s.went fun c => ({ c with tags := c.tags &&& ~~~a } : Ctx).sset f.sd s.me.tags) ∧
      exec (.csrs f) s = .next (s.went fun c => ({ c with tags := c.tags &&& ~~~a } : Ctx).sset f.sd s.me.tags) ∧
      exec (.csrc f) s = .next (s.wrote f.sd s.me.tags)) ∧
    (s.me.lanesIdle = true →
      let refused (i : Instr) (c : Cause) : Prop := exec i s = .next (raise s s.cur c s.me.pc s.me.pc (BitVec.ofNat 64 ((encode i).getD 0)) 0 false)
      let old := s.me.vc.erule
      (f.csr = 0x007 → ∀ p ∈ [(Instr.csrw f, a), (.csrs f, old ||| a), (.csrc f, old &&& ~~~a)], wbits p.2 0 2 = 3 ∨ wbits p.2 6 2 = 3 →
        exec p.1 s = .next (raise s s.cur .eruleIllegal s.me.pc s.me.pc (Config.tval s.tick) 0 false)) ∧
      (csrRow f.csr.toNat = none → ∀ i ∈ [Instr.csrw f, .csrs f, .csrc f, .csrr { sd := f.sd, csr := f.csr }], refused i .illCsr) ∧
      (s.me.priv = 0 →
        (f.csr.toNat ∈ [0x100, 0x101, 0x102, 0x103, 0x104, 0x105, 0x107] → ∀ i ∈ [Instr.csrw f, .csrs f, .csrc f, .csrr { sd := f.sd, csr := f.csr }], refused i .privCsr) ∧
        (f.csr.toNat ∈ [0x009, 0x00A, 0x110] → ∀ i ∈ [Instr.csrw f, .csrs f, .csrc f], refused i .privCsr)))) ∧
  (∀ old v : Word,
    let st := statusPut old v
    wbits st 0 2 = wbits old 0 2 ∧ wbits st 2 2 = (if wbits v 2 2 = 3 then wbits old 2 2 else wbits v 2 2) ∧
    st.getLsbD 4 = v.getLsbD 4 ∧ wbits st 8 8 = wbits v 8 8 ∧ wbits st 5 3 = 0 ∧ wbits st 16 48 = 0 ∧
    wbits (tvecPut old v) 6 58 = wbits v 6 58 ∧ wbits (tvecPut old v) 2 4 = 0 ∧
    wbits (tvecPut old v) 0 2 = (if 2 ≤ wbits v 0 2 then wbits old 0 2 else wbits v 0 2))

/-! Timelines, tags, rings, barriers, objects. -/

/-- TLWAIT and TLRD (R247): with a valid handle TLWAIT goes on once the timeline has reached sb, and waits until then; TLRD gives the timeline's value. With no vector or matrix instruction outstanding a handle that is not valid raises TL_HANDLE. TLSIG (R15, R221, R247): the context's stores and dirty lines reach memory; the signal takes the next number of the engine context's timeline, which sd receives, and stands last among what that context has to complete, waiting for what was issued before it; the timeline itself has not moved. A signal of a full engine context waits, and one of the array waits for the array operations still queued ahead of it. With no vector or matrix instruction outstanding a handle that is not valid raises TL_HANDLE. The TVAL of TL_HANDLE is the free value Config.tval of the step counter (log 7). -/
def Obligations.TimelineResults : Prop :=
  (∀ (s : State), s.Quiet →
    (∀ f : AB, s.Full [f.sa, f.sb] →
      (∀ e, handleOf s (s.me.sget f.sa) = some e →
        ((s.me.sget f.sb).toNat ≤ timelineOf s e → exec (.tlwait f) s = .next (s.went id)) ∧
        (timelineOf s e < (s.me.sget f.sb).toNat → exec (.tlwait f) s = .next (s.modMe fun c => { c with waiting := true }))) ∧
      (handleOf s (s.me.sget f.sa) = none → s.me.lanesIdle = true →
        exec (.tlwait f) s = .next (raise s s.cur .tlHandle s.me.pc s.me.pc (Config.tval s.tick) 0 false))) ∧
    (∀ f : A2, s.Full [f.sa, f.sd] →
      (∀ e, handleOf s (s.me.sget f.sa) = some e → exec (.tlrd f) s = .next (s.wrote f.sd (BitVec.ofNat 64 (timelineOf s e)))) ∧
      (handleOf s (s.me.sget f.sa) = none → s.me.lanesIdle = true →
        exec (.tlrd f) s = .next (raise s s.cur .tlHandle s.me.pc s.me.pc (Config.tval s.tick) 0 false)))) ∧
  (∀ (f : A2) (s : State), s.Quiet → s.Full [f.sa, f.sd] →
    let h := handleOf s (s.me.sget f.sa)
    let s1 := s.released
    let w := sigNow s1 s.cur
    let held (i : Instr) : Prop := ∃ t, exec i s = .next t ∧ t.me.waiting = true ∧ t.me.pc = s.me.pc ∧ t.me.s = s.me.s
    (∀ t, h = some (.tug t) → (s.tug t).queue.length < 16 →
      let n := (s.tug t).issued + 1
      exec (.tlsig f) s = .next ((s1.modTug t fun x => { x with queue := x.queue ++ [tugSignal n s.cur w], issued := n }).wrote f.sd (BitVec.ofNat 64 n))) ∧
    (∀ t, h = some (.tug t) → 16 ≤ (s.tug t).queue.length → held (.tlsig f)) ∧
    (h = some .array → (∀ e ∈ s.me.queue, arrayOp e.instr = false) →
      let n := s.myCore.arr.issued + 1
      exec (.tlsig f) s = .next ((s1.modMyCore fun c => { c with arr := { c.arr with issued := n, ops := c.arr.ops ++ [{ num := n, lc := s.cur.lc, entry := none, sig := some w, fin := false }] } }).wrote f.sd
        (BitVec.ofNat 64 n))) ∧
    (h = some .array → (∃ e ∈ s.me.queue, arrayOp e.instr = true) → held (.tlsig f)) ∧
    (∀ k, h = some (.walk k) → (s.walk k).queue.length < 8 →
      let n := (s.walk k).issued + 1
      ∃ o : WalkOp, o.num = n ∧ o.kind = .signal ∧ o.issuer = some s.cur ∧ o.sig = some w ∧ o.finished = true ∧ o.node = none ∧
        exec (.tlsig f) s = .next ((s1.modWalk k fun x => { x with queue := x.queue ++ [o], issued := n }).wrote f.sd (BitVec.ofNat 64 n))) ∧
    (∀ k, h = some (.walk k) → 8 ≤ (s.walk k).queue.length → held (.tlsig f)) ∧
    (h = none → s.me.lanesIdle = true → exec (.tlsig f) s = .next (raise s s.cur .tlHandle s.me.pc s.me.pc (Config.tval s.tick) 0 false)))

/-- The tag instructions (R246): TAGWANY waits for any tag of sa, gives those that are set and clears them; TAGWALL waits for all and clears them; TAGFF gives the lowest set tag of sa and clears it, or 64 and clears none. Cluster barriers (R251): with every earlier vector and matrix instruction complete, an arrival makes the context's stores and dirty lines reach memory, counts one, gives the phase it arrived in, and the last of the participants opens the next phase with the count at 0; BARW arrives once and waits until the phase it arrived in is past; a count that does not match raises BAR_COUNT. The TVAL of BAR_COUNT is the free value Config.tval of the step counter (log 7). -/
def Obligations.TagAndBarrierResults : Prop :=
  (∀ (f : A2) (s : State), s.Quiet → s.Full [f.sa, f.sd] →
    let a := s.me.sget f.sa
    let g := s.me.tags &&& a
    let clear (m : Word) (v : Word) : Out := .next (s.went fun c => ({ c with tags := c.tags &&& ~~~m } : Ctx).sset f.sd v)
    (g ≠ 0 → exec (.tagwany f) s = clear a g) ∧
    (g = 0 → exec (.tagwany f) s = .next (s.modMe fun c => { c with waiting := true })) ∧
    (g = a → exec (.tagwall f) s = clear a a) ∧
    (g ≠ a → exec (.tagwall f) s = .next (s.modMe fun c => { c with waiting := true })) ∧
    (∀ i, i < 64 → g.getLsbD i = true → (∀ j, j < i → g.getLsbD j = false) →
      exec (.tagff f) s = clear (BitVec.ofNat 64 (2 ^ i)) (BitVec.ofNat 64 i)) ∧
    (g = 0 → exec (.tagff f) s = .next (s.wrote f.sd 64))) ∧
  (∀ (s : State), s.Quiet → lanesDone s s.cur = true →
    let cl := s.cur.core.val / 8
    (∀ f : BaraForm, s.Full [f.sa, f.sd] →
      let b := (s.cluster cl).bars[f.bar]
      let n := (s.me.sget f.sa).toNat
      (1 ≤ n → n ≤ 32 → (b.count = 0 ∨ b.n = n) →
        ∃ u : State, exec (.bara f) s = .next (u.wrote f.sd (BitVec.ofNat 64 b.phase)) ∧ u = { s.released with clusters := u.clusters } ∧
          (u.cluster cl).bars[f.bar] = (if n ≤ b.count + 1 then { phase := b.phase + 1, n := 0, count := 0 } else { phase := b.phase, n, count := b.count + 1 })) ∧
      (n = 0 ∨ 32 < n ∨ (b.count ≠ 0 ∧ b.n ≠ n) →
        exec (.bara f) s = .next (raise s s.cur .barCount s.me.pc s.me.pc (Config.tval s.tick) 0 false))) ∧
    (∀ f : BarwForm,
      let b := (s.cluster cl).bars[f.bar]
      (∀ k p, s.me.arrived = some (k, p) → p < b.phase → exec (.barw f) s = .next (s.went fun c => { c with arrived := none })) ∧
      (∀ k p, s.me.arrived = some (k, p) → b.phase ≤ p → exec (.barw f) s = .next (s.modMe fun c => { c with waiting := true })) ∧
      (s.me.arrived = none → s.Full [f.sa] →
        let n := (s.me.sget f.sa).toNat
        1 ≤ n → n ≤ 32 → (b.count = 0 ∨ b.n = n) →
        (b.count + 1 < n → ∃ u : State, exec (.barw f) s = .next (u.modMe fun c => { c with arrived := some (f.bar.val, b.phase), waiting := true }) ∧
          u = { s.released with clusters := u.clusters } ∧ (u.cluster cl).bars[f.bar] = { phase := b.phase, n, count := b.count + 1 }) ∧
        (n ≤ b.count + 1 → ∃ u : State, exec (.barw f) s = .next (u.went fun c => { c with arrived := none }) ∧
          u = { s.released with clusters := u.clusters } ∧ (u.cluster cl).bars[f.bar] = { phase := b.phase + 1, n := 0, count := 0 })) ∧
      (s.me.arrived = none → s.Full [f.sa] →
        let n := (s.me.sget f.sa).toNat
        n = 0 ∨ 32 < n ∨ (b.count ≠ 0 ∧ b.n ≠ n) →
          exec (.barw f) s = .next (raise s s.cur .barCount s.me.pc s.me.pc (Config.tval s.tick) 0 false))))

/-- D-rings (R242 to R245): DRINIT with a header and a size word that keep R242 and R243, on a ring no producer is filling, makes the ring empty at slot 0, the context its owner; DRAWAIT waits for the slot at RIDX, gives its pool address, and raises DR_FAULT with the slot's number when it is marked; DRREL empties a full slot and moves RIDX on. With no vector or matrix instruction outstanding, DRINIT otherwise, DRAWAIT on a ring that is not initialised and DRREL on one or on a slot that is not full raise DR_STATE with the ring's number. -/
def Obligations.RingResults : Prop :=
  ∀ (s : State), s.Quiet →
    (∀ f : DrInitForm, s.Full [f.sa, f.sb] →
      let r := s.myCore.rings[f.ring]
      let a := s.me.sget f.sa
      let b := s.me.sget f.sb
      let n := wbits b 32 8
      ringOk s.myCore.part a b = true → (r.init = true → r.taken &&& ~~~r.fill = 0) →
      exec (.drinit f) s = .next ((s.modRing s.cur.core.val f.ring fun _ =>
        { init := true, owner := s.cur.lc, hdr := a.toNat, slotsz := wbits b 0 32, nslot := n, widx := 0, ridx := 0, fill := 0, taken := 0, flt := 0
          exps := List.replicate n 0, lands := List.replicate n 0 }).went id)) ∧
    (∀ f : DrInitForm, s.Full [f.sa, f.sb] → s.me.lanesIdle = true →
      let r := s.myCore.rings[f.ring]
      ringOk s.myCore.part (s.me.sget f.sa) (s.me.sget f.sb) = false ∨ (r.init = true ∧ r.taken &&& ~~~r.fill ≠ 0) →
      exec (.drinit f) s = .next (raise s s.cur .drState s.me.pc s.me.pc (BitVec.ofNat 64 f.ring.val) 0 false)) ∧
    (∀ f : DrWaitForm, s.Full [f.sd] →
      let r := s.myCore.rings[f.ring]
      (r.init = true → r.fill.getLsbD r.ridx = true → r.flt.getLsbD r.ridx = false →
        exec (.drawait f) s = .next (s.wrote f.sd (BitVec.ofNat 64 (0x00F0000000000000 + r.hdr + 64 + pad64 (8 * r.nslot) + r.ridx * r.slotsz)))) ∧
      (r.init = true → r.fill.getLsbD r.ridx = false → exec (.drawait f) s = .next (s.modMe fun c => { c with waiting := true })) ∧
      (r.init = true → r.fill.getLsbD r.ridx = true → r.flt.getLsbD r.ridx = true → s.me.lanesIdle = true →
        exec (.drawait f) s = .next (raise s s.cur .drFault s.me.pc s.me.pc (BitVec.ofNat 64 r.ridx) 0 false)) ∧
      (r.init = false → s.me.lanesIdle = true → exec (.drawait f) s = .next (raise s s.cur .drState s.me.pc s.me.pc (BitVec.ofNat 64 f.ring.val) 0 false))) ∧
    (∀ f : DrRelForm,
      let r := s.myCore.rings[f.ring]
      let bit : BitVec 64 := BitVec.ofNat 64 (2 ^ r.ridx)
      (r.init = true → r.fill.getLsbD r.ridx = true →
        exec (.drrel f) s = .next ((s.modRing s.cur.core.val f.ring fun r =>
          { r with fill := r.fill &&& ~~~bit, taken := r.taken &&& ~~~bit, flt := r.flt &&& ~~~bit, exps := r.exps.set r.ridx 0, lands := r.lands.set r.ridx 0
                   ridx := (r.ridx + 1) % r.nslot }).went id)) ∧
      (r.init = false ∨ r.fill.getLsbD r.ridx = false → s.me.lanesIdle = true → exec (.drrel f) s = .next (raise s s.cur .drState s.me.pc s.me.pc (BitVec.ofNat 64 f.ring.val) 0 false)))

/-- BIND and UNBIND (R248, R270): BIND takes a free index, which sd receives, and records the object and the region; UNBIND removes every binding of the object, its lines written back to memory and dropped. With no vector or matrix instruction outstanding an object that is no multiple of 8 and a span that is no region raise MISALIGNED, a full set BIND_FULL. ACQ and REL (R249, R270) of an object word in the core's own pool, with no store of the context still to be performed: ACQ of a word that is 0 and that no context waits for longer writes the owner's word there, the context holding the object and waiting no more; of a held word it waits, among the waiters; REL by its owner, with nothing the qualifier covers outstanding, writes 0, the context holding the object no more; by another, with no vector or matrix instruction outstanding, it raises LOCK_OWNER with the object's address. No other byte of the pool changes. Which free index BIND takes is the model's own (log 25), and the TVAL of BIND_FULL is free (log 7). -/
def Obligations.BindingAndLockResults : Prop :=
  (∀ (s : State), s.Quiet →
    (∀ f : A3, s.Full [f.sa, f.sb, f.sd] →
      let a := s.me.sget f.sa
      let b := s.me.sget f.sb
      let span := 12 ≤ wbits b 0 6 ∧ wbits b 0 6 ≤ 40 ∧ wbits b 6 6 = 0
      (a.toNat % 8 = 0 → span → s.me.binds.length < 16 →
        ∃ i, i < 16 ∧ (∀ x ∈ s.me.binds, x.idx ≠ i) ∧
          exec (.bind f) s = .next (s.went fun c => ({ c with binds := c.binds ++ [{ idx := i, obj := a, span := b }] } : Ctx).sset f.sd (BitVec.ofNat 64 i))) ∧
      (s.me.lanesIdle = true → a.toNat % 8 ≠ 0 → exec (.bind f) s = .next (raise s s.cur .misaligned s.me.pc s.me.pc a 0 false)) ∧
      (s.me.lanesIdle = true → a.toNat % 8 = 0 → ¬span → exec (.bind f) s = .next (raise s s.cur .misaligned s.me.pc s.me.pc b 0 false)) ∧
      (s.me.lanesIdle = true → a.toNat % 8 = 0 → span → 16 ≤ s.me.binds.length →
        exec (.bind f) s = .next (raise s s.cur .bindFull s.me.pc s.me.pc (Config.tval s.tick) 0 false))) ∧
    (∀ f : A1, s.Full [f.sa] →
      let gone := s.me.binds.filter fun b => b.obj == s.me.sget f.sa
      exec (.unbind f) s = .next ((flushLines s s.cur.core.val (lineIn gone) true).went fun c => { c with binds := c.binds.filter fun b => b.obj != s.me.sget f.sa }))) ∧
  (∀ (f : QualA) (s : State) (off : Nat), s.Quiet → s.Full [f.sa] → s.me.stores = [] → s.PoolAt (s.me.sget f.sa).toNat 8 .write off →
    let key := 2 ^ 70 + s.cur.core.val * 2 ^ 23 + off
    let v := memRead s.myCore.pool off 8
    let owner := 2 ^ 63 + s.modId.val * 2 ^ 12 + s.cur.core.val * 4 + s.cur.lc.val
    (v = 0 → (∀ w, s.acqs.find? (fun w => w.2 == key) = some w → w.1 = s.cur) →
      ∃ t, exec (.acq f) s = .next t ∧ memRead t.myCore.pool off 8 = owner ∧ t.acqs = s.acqs.filter (fun w => w != (s.cur, key)) ∧ t.me.pc = s.me.pc + 4 ∧
        s.me.sget f.sa ∈ t.me.held ∧
        (∀ a, a < off ∨ off + 8 ≤ a → t.poolByte s.cur.core.val a = s.poolByte s.cur.core.val a)) ∧
    (v ≠ 0 → ∃ t, exec (.acq f) s = .next t ∧ t.myCore.pool = s.myCore.pool ∧ t.me.pc = s.me.pc ∧ t.me.waiting = true ∧ (s.cur, key) ∈ t.acqs) ∧
    (v = owner → (f.v = true → lanesDone s s.cur = true) → (f.e = true → enginesDone s s.cur = true) →
      ∃ t, exec (.rel f) s = .next t ∧ memRead t.myCore.pool off 8 = 0 ∧ t.me.pc = s.me.pc + 4 ∧ s.me.sget f.sa ∉ t.me.held ∧
        (∀ a, a < off ∨ off + 8 ≤ a → t.poolByte s.cur.core.val a = s.poolByte s.cur.core.val a)) ∧
    (v ≠ owner → s.me.lanesIdle = true → exec (.rel f) s = .next (raise s s.cur .lockOwner s.me.pc s.me.pc (s.me.sget f.sa) 0 false)))

/-- FENCE (R134, R250, R270), FTFENCE (R82), HALT and NDONE (R256, R257, R304): each goes on once what it waits for is complete, and waits with the PC in place until then; a FENCE has performed the context's stores, and one that covers vector accesses or engine commands leaves no dirty byte of the core's bound regions; HALT at S or F, its stores performed, halts the context, in a handler with no trap of a resumption left; NDONE, having released as REL does, ends the node, and the node the core was handed ahead starts where it may. The end of a node (R257, R275, R425): the context is free and holds no node, lease, binding, object, pending store or queued entry, its stream registers are unbound and its slots free, and where it had bindings the core's cache is empty; its registers, masks, tags, PC and ASID stand, as do other contexts and the slots of others. Its node has retired: of a graph that has another node running, the node is retired, the counts of its successors fall, and one that waits and whose count becomes zero is ready. What a fence orders for other agents is left out (log 2). -/
def Obligations.FenceResults : Prop :=
  (∀ (s : State), s.Quiet →
    let held : Out := .next (s.modMe fun c => { c with waiting := true })
    let stored := performStores s s.cur
    (∀ f : QualForm,
      (f.v = false → f.e = false → exec (.fence f) s = .next (stored.went id)) ∧
      (f.v = true ∨ f.e = true → (f.v = true → lanesDone s s.cur = true) → (f.e = true → enginesDone s s.cur = true) →
        exec (.fence f) s = .next (s.released.went id)) ∧
      (f.v = true ∧ lanesDone s s.cur = false ∨ f.e = true ∧ enginesDone s s.cur = false →
        exec (.fence f) s = .next (stored.modMe fun c => { c with waiting := true }))) ∧
    (∀ f : A0,
      (staleEntries s s.cur = false → exec (.ftfence f) s = .next (s.went id)) ∧ (staleEntries s s.cur = true → exec (.ftfence f) s = held) ∧
      (1 ≤ s.me.priv.toNat → lanesDone s s.cur = true → s.me.land = [] →
        exec (.halt f) s = .next (stored.went fun c => { c with st := .halted, pendTraps := if c.inh then [] else c.pendTraps })) ∧
      (1 ≤ s.me.priv.toNat → lanesDone s s.cur = false ∨ s.me.land ≠ [] → exec (.halt f) s = held) ∧
      (lanesDone s s.cur = true → s.me.land = [] → enginesDone s s.cur = true →
        exec (.ndone f) s = .next (startNext (leaveNode s.released s.cur) s.cur)) ∧
      (lanesDone s s.cur = false ∨ s.me.land ≠ [] ∨ enginesDone s s.cur = false → exec (.ndone f) s = held))) ∧
  (∀ (s : State) (c : CtxId),
    let v := vacate s c
    let x := s.ctx c
    let y := v.ctx c
    let k := s.core c.core.val
    (x.node = none → leaveNode s c = v) ∧ (∀ r, x.node = some r → leaveNode s c = retireNode v r) ∧
    y.st = .free ∧ y.node = none ∧ y.lease = none ∧ y.binds = [] ∧ y.held = [] ∧ y.stores = [] ∧ y.queue = [] ∧ (∀ q : Fin 16, y.q[q] = QReg.reset) ∧
    y.s = x.s ∧ y.full = x.full ∧ y.v = x.v ∧ y.m = x.m ∧ y.tags = x.tags ∧ y.pc = x.pc ∧ y.asid = x.asid ∧
    (∀ c', c' ≠ c → v.ctx c' = s.ctx c') ∧
    (∀ n : Fin 32, (v.core c.core.val).slots[n] =
      if k.slots[n].ownedBy c.lc = true then { k.slots[n] with st := .free, dbl := false, mld := false } else k.slots[n]) ∧
    (x.binds ≠ [] → (v.core c.core.val).dcache = []) ∧
    ∀ (r : NodeRef) (g : Graph) (n : GNode), tabFind s.graphs r.graph = some g → g.nodes[r.node]? = some n →
      (∃ (i : Nat) (m : GNode), i ≠ r.node ∧ g.nodes[i]? = some m ∧ m.st = .running) →
      let t := retireNode s r
      (∃ m, t.gnode r = some m ∧ m.st = .retired) ∧
      ∀ (i : Nat) (m : GNode), i ≠ r.node → g.nodes[i]? = some m →
        ∃ m', t.gnode ⟨r.graph, i⟩ = some m' ∧ m'.desc = m.desc ∧ m'.preds = m.preds - n.succs.count i ∧
          m'.st = if i ∈ n.succs ∧ m.preds - n.succs.count i = 0 ∧ m.st = .waiting ∧ g.st = .active then .ready else m.st)

/-! Streams, the format table, the vector registers' shape, engine commands. -/

/-- QBIND, QFREE, QSEEK and QSTAT (R184 to R186): once no earlier vector memory instruction names the stream register, QBIND of a descriptor that passes every check binds it at position 0, QFREE clears it, QSEEK sets POS and drops what was read ahead, QSTAT gives the word of R185; a descriptor that fails raises STREAM_DESC with the number of the check, an unbound register STREAM_UNBOUND. The TVAL of STREAM_UNBOUND is the free value Config.tval of the step counter (log 7); a held fault goes with these instructions alone by log 20. -/
def Obligations.StreamRegisterResults : Prop :=
  ∀ (s : State) (q : Fin 16), s.Quiet → (∀ e ∈ s.me.queue, namesQ e.instr ≠ some q) → s.myCore.arr.ops = [] →
    (∀ f : QAForm, f.q = q → s.Full [f.sa] →
      let a := (s.me.sget f.sa).toNat
      (a % 64 ≠ 0 → s.me.lanesIdle = true → exec (.qbind f) s = .next (raise s s.cur .streamDesc s.me.pc s.me.pc 1 0 false)) ∧
      (a % 64 = 0 → ∀ v u, readWords a 8 s = .ok v u →
        let d := descOf v
        let k := fmtOf (entWord s.me.ents d.ent)
        let n := descCheck d (if k.valid then k.wid else 0)
        (n = 0 → exec (.qbind f) s = .next (u.went fun c => { c with q := c.q.set q { QReg.reset with bound := true, desc := d, pos := 0, block := some d.base } })) ∧
        (n ≠ 0 → s.me.lanesIdle = true → exec (.qbind f) s = .next (raise u u.cur .streamDesc s.me.pc s.me.pc (BitVec.ofNat 64 n) 0 false)))) ∧
    (∀ f : QForm, f.q = q → exec (.qfree f) s = .next (s.went fun c => { c with q := c.q.set q QReg.reset })) ∧
    (∀ f : QAForm, f.q = q → s.Full [f.sa] →
      let a := s.me.sget f.sa
      let r := s.me.q[q]
      (r.bound = true → wbits a 48 16 = 0 → (r.desc.lay = true → wbits a 0 17 = 0) →
        exec (.qseek f) s = .next (s.went fun c => { c with q := c.q.set q { s.me.q[q] with pos := a.setWidth 48, held := none, prep := [], early := [], block := none } })) ∧
      (r.bound = false → s.me.lanesIdle = true → exec (.qseek f) s = .next (raise s s.cur .streamUnbound s.me.pc s.me.pc (Config.tval s.tick) 0 false))) ∧
    (∀ f : QDForm, f.q = q → s.Full [f.sd] →
      let r := s.me.q[q]
      ∃ w : Word, exec (.qstat f) s = .next (s.wrote f.sd w) ∧ wbits w 0 48 = r.pos.toNat ∧ w.getLsbD 48 = r.bound ∧ wbits w 52 12 = 0 ∧
        w.getLsbD 49 = (r.bound && r.held.isSome) ∧ w.getLsbD 51 = (r.bound && r.desc.writes) ∧ w.getLsbD 50 = (r.bound && r.atEnd))

/-- FTWR and FTRD (R57, R61, R82, R224): FTWR of an entry from 8 up with a word that passes the checks of R57 sets the entry, an invalid one as 0, and marks the operations in flight that use it, which go on with what they captured; of a word that fails, and of an entry below 8, it raises ENTRY_ILLEGAL with the number of the check, with no vector or matrix instruction outstanding. FTRD gives the entry's word. VSETL and VSHAPE (R168, R169): with a valid VTYPE entry and no trim outstanding, VSETL grants the smaller of sa and Lim and clears VSHAPE; VSHAPE grants whole rows of the length of sb, at most Lim in all, and records them; sd takes VL. A declaration that is pending takes effect first, once every vector and matrix instruction has completed: every vector register is then dead and every mask zero. With none of them outstanding an invalid entry raises ENTRY_INVALID with its number. -/
def Obligations.FormatAndLengthResults : Prop :=
  (∀ (s : State), s.Quiet →
    (∀ f : FtwrForm, s.Full [f.sa] →
      let w := s.me.sget f.sa
      let k := entryCheck f.n.val w
      let set : Out := .next ((replaceEntry s s.cur f.n.val).went fun c => { c with ents := c.ents.set (Fin.ofNat 8 (f.n.val - 8)) (if (fmtOf w).valid then w else 0) })
      (k = 0 → 8 ≤ f.n.val ∧ exec (.ftwr f) s = set) ∧
      (∃ u : State, replaceEntry s s.cur f.n.val = u ∧ u = { s with ctxs := u.ctxs, cores := u.cores, tugs := u.tugs, walks := u.walks } ∧
        u.me = { s.me with queue := u.me.queue, kept := u.me.kept } ∧ u.me.queue.map (fun e => (e.instr, e.cap)) = s.me.queue.map (fun e => (e.instr, e.cap)) ∧
        ∀ a, u.poolByte s.cur.core.val a = s.poolByte s.cur.core.val a) ∧
      (k ≠ 0 → s.me.lanesIdle = true → exec (.ftwr f) s = .next (raise s s.cur .entryIllegal s.me.pc s.me.pc (BitVec.ofNat 64 k) 0 false))) ∧
    (∀ f : FtrdForm, s.Full [f.sd] → exec (.ftrd f) s = .next (s.wrote f.sd (entWord s.me.ents f.n.val)))) ∧
  (∀ (s : State), s.Quiet → (∀ e ∈ s.me.queue, trims e.instr = true → e.noTrim = true) →
    let lim := s.me.vlmax / s.me.vtFmt.wid
    (s.me.vtFmt.valid = true → s.me.vc.pend = false →
      (∀ f : A2, s.Full [f.sa, f.sd] →
        let n := Nat.min (s.me.sget f.sa).toNat lim
        ∃ t, exec (.vsetl f) s = .next t ∧ s.OnlyMe t ∧ t.me.vc = { s.me.vc with vl := BitVec.ofNat 64 n, vshape := 0 } ∧
          (f.sd ≠ 0 → t.me.sget f.sd = BitVec.ofNat 64 n) ∧ (∀ r, r ≠ f.sd → t.me.sget r = s.me.sget r) ∧ t.me.v = s.me.v ∧ t.me.pc = s.me.pc + 4) ∧
      (∀ f : A3, s.Full [f.sa, f.sb, f.sd] →
        let len := Nat.min (s.me.sget f.sb).toNat lim
        let rows := if len = 0 then 0 else Nat.min (s.me.sget f.sa).toNat (lim / len)
        ∃ t, exec (.vshape f) s = .next t ∧ s.OnlyMe t ∧
          t.me.vc = { s.me.vc with vl := BitVec.ofNat 64 (rows * len), vshape := BitVec.ofNat 64 (rows * 2 ^ 16 + len) } ∧
          (f.sd ≠ 0 → t.me.sget f.sd = BitVec.ofNat 64 (rows * len)) ∧ (∀ r, r ≠ f.sd → t.me.sget r = s.me.sget r) ∧ t.me.v = s.me.v ∧ t.me.pc = s.me.pc + 4)) ∧
    (s.me.vtFmt.valid = true → s.me.vc.pend = true → lanesDone s s.cur = true →
      let lim := vlmaxOf s.me.vc.cnt / s.me.vtFmt.wid
      let declared (i : Instr) (vl shape : Nat) : Prop :=
        ∃ t, exec i s = .next t ∧ t.me.pc = s.me.pc + 4 ∧ (∀ r, t.me.v[r]? = if r < 32 then some VReg.dead else none) ∧ (∀ m : Fin 8, t.me.m[m] = 0) ∧
          t.me.vc = { s.me.vc with eff := s.me.vc.cnt, pend := false, vlive := 0, vdirty := 0, vuse := 0, vl := BitVec.ofNat 64 vl, vshape := BitVec.ofNat 64 shape }
      (∀ f : A2, s.Full [f.sa, f.sd] → declared (.vsetl f) (Nat.min (s.me.sget f.sa).toNat lim) 0) ∧
      (∀ f : A3, s.Full [f.sa, f.sb, f.sd] →
        let len := Nat.min (s.me.sget f.sb).toNat lim
        let rows := if len = 0 then 0 else Nat.min (s.me.sget f.sa).toNat (lim / len)
        declared (.vshape f) (rows * len) (rows * 2 ^ 16 + len))) ∧
    (s.me.vtFmt.valid = false → s.me.lanesIdle = true →
      let raised : Out := .next (raise s s.cur .entryInvalid s.me.pc s.me.pc (BitVec.ofNat 64 (wbits s.me.vc.vtype 0 4)) 0 false)
      (∀ f : A2, s.Full [f.sa, f.sd] → exec (.vsetl f) s = raised) ∧ ∀ f : A3, s.Full [f.sa, f.sb, f.sd] → exec (.vshape f) s = raised))

/-- VTYPE, VSETM, VSETS, VDECL and VLIVE (R51, R168, R169): sd takes the old value; VTYPE takes the entry number and lowers VL when the new entry holds fewer elements; VSETM and VSETS take the operand; VDECL records a declaration, pending, and ignores 0b11; VLIVE, once every vector and matrix instruction has completed, takes the bits below the declared count: a register made dead loses its content and its bit of VDIRTY, one that stays keeps its content. The width a register made live without a write has is the reading of log 12. -/
def Obligations.VectorStateWrites : Prop :=
  ∀ (f : A2) (s : State), s.Quiet → s.Full [f.sa, f.sd] →
    let a := s.me.sget f.sa
    exec (.vsetm f) s = .next (s.went fun c => ({ c with vc := { c.vc with vm := a &&& 0xF } } : Ctx).sset f.sd s.me.vc.vm) ∧
    exec (.vsets f) s = .next (s.went fun c => ({ c with vc := { c.vc with vs := a } } : Ctx).sset f.sd s.me.vc.vs) ∧
    (wbits a 0 2 = 3 → exec (.vdecl f) s = .next (s.wrote f.sd s.me.vc.vdecl)) ∧
    (wbits a 0 2 ≠ 3 → exec (.vdecl f) s = .next (s.went fun c => ({ c with vc := { c.vc with cnt := a.setWidth 2, pend := true } } : Ctx).sset f.sd s.me.vc.vdecl)) ∧
    ((∀ e ∈ s.me.queue, trims e.instr = true → e.noTrim = true) →
      ∃ t, exec (.vtype f) s = .next t ∧ s.OnlyMe t ∧ t.me.vc.vtype = BitVec.ofNat 64 (wbits a 0 4) ∧ (f.sd ≠ 0 → t.me.sget f.sd = s.me.vc.vtype) ∧
        let k := fmtOf (entWord s.me.ents (wbits a 0 4))
        let lim := s.me.vlmax / k.wid
        (k.valid = true → lim < s.me.vc.vl.toNat → t.me.vc.vl = BitVec.ofNat 64 lim ∧ t.me.vc.vshape = 0) ∧
        (k.valid = false ∨ s.me.vc.vl.toNat ≤ lim → t.me.vc.vl = s.me.vc.vl ∧ t.me.vc.vshape = s.me.vc.vshape)) ∧
    (lanesDone s s.cur = true →
      ∃ t, exec (.vlive f) s = .next t ∧ (∀ i, t.me.vc.vlive.getLsbD i = (decide (i < s.me.count) && a.getLsbD i)) ∧
        (f.sd ≠ 0 → t.me.sget f.sd = s.me.vc.vlive.setWidth 64) ∧
        (∀ i : Fin 32, s.me.vc.vlive.getLsbD i.val = t.me.vc.vlive.getLsbD i.val → t.me.v[i] = s.me.v[i]) ∧
        (∀ i : Fin 32, s.me.vc.vlive.getLsbD i.val = true → t.me.vc.vlive.getLsbD i.val = false → t.me.v[i] = VReg.dead) ∧
        (∀ i, t.me.vc.vdirty.getLsbD i = (s.me.vc.vdirty.getLsbD i && !(s.me.vc.vlive.getLsbD i && !t.me.vc.vlive.getLsbD i))) ∧ ∀ b, t.byte b = s.byte b)

/-- The Tug instructions (R15, R230): with a command context of the region's share that has room, a block that passes its checks (of TSTAT the address alone), and, where the command fills a slot, the slot the context's own, the command is queued behind the others with the next number, which sd receives. Nothing of it has been done yet: the timeline stands, and no byte of memory has changed since the block was read. The walk instructions (R253 to R255): WBIND of a descriptor that passes its checks, once the walk context is idle, binds the tree and moves the timeline; WQRY, WAPP and WREFIT on a bound tree, and WDRAIN, queue their operation with the next number, which sd receives; WDRAIN closes the tree to later operations. On a context without a tree WAPP raises AWL_UNBOUND. Binding to a descriptor that passes alone is the reading of log 31, the order of the checks of a command block that of log 30; the TVAL of AWL_UNBOUND is free (log 7). -/
def Obligations.EngineCommandsQueue : Prop :=
  (∀ (f : TForm) (s u : State) (fn : Nat) (i : Instr) (raw : BitVec 1024), s.Quiet → s.Full [f.sa, f.sb, f.sd] →
    (fn, i) ∈ [(0, Instr.tcopy f), (1, .tcopym f), (2, .tqnt f), (3, .tenc f), (4, .tdec f), (5, .tqsc f), (6, .tstat f), (7, .tblk f)] →
    let b := (s.me.sget f.sb).toNat
    let t : TugId := { cluster := Fin.ofNat 128 (s.cur.core.val / 8), t := Fin.ofNat 16 b }
    b < 16 → tugShare s s.me.rcb t = true → readBlock fn (s.me.sget f.sa) s = .ok raw u → (u.tug t).queue.length < 16 →
    (fn = 5 ∨ (fn < 6 ∧ cmdDkind raw = 1) →
      let n := Fin.ofNat 32 (cmdDst raw)
      (s.me.kept ++ s.me.queue).all (fun e => !claims n e) = true ∧ (u.myCore.slots[n]).ownedBy s.cur.lc = true) →
    let num := (u.tug t).issued + 1
    ∃ v, exec i s = .next v ∧
      (∃ k : TugCmd, (v.tug t).queue = (u.tug t).queue ++ [k] ∧ k.num = num ∧ k.fn = fn ∧ k.block = raw ∧ k.tag = f.tag.val ∧ k.issuer = some s.cur ∧
        k.started = false ∧ k.finished = false ∧ k.ents = s.me.ents) ∧
      (v.tug t).issued = num ∧ (v.tug t).timeline = (u.tug t).timeline ∧ v.mem = u.mem ∧
      (f.sd ≠ 0 → v.me.sget f.sd = BitVec.ofNat 64 num) ∧ (∀ r, r ≠ f.sd → v.me.sget r = s.me.sget r) ∧ v.me.pc = s.me.pc + 4) ∧
  (∀ (s : State) (sb sd : Fin 32) (w : WalkId), s.Quiet → s.Full [sb, sd] → handleOf s (s.me.sget sb) = some (.walk w) →
    w.walker.val / 4 = s.cur.core.val / 128 →
    let x := s.walk w
    let num := x.issued + 1
    let queued (u v : State) (kind : WalkKind) : Prop :=
      (∃ o : WalkOp, (v.walk w).queue = (u.walk w).queue ++ [o] ∧ o.num = (u.walk w).issued + 1 ∧ o.kind = kind ∧ o.issuer = some s.cur ∧ o.started = false ∧ o.finished = false) ∧
      (v.walk w).issued = (u.walk w).issued + 1 ∧ (v.walk w).timeline = (u.walk w).timeline ∧ (v.walk w).tree = (u.walk w).tree ∧
      (sd ≠ 0 → v.me.sget sd = BitVec.ofNat 64 ((u.walk w).issued + 1)) ∧ v.me.pc = s.me.pc + 4 ∧ v.mem = u.mem
    (∀ h, x.queue.length < 8 → ∃ v, exec (.wdrain { sd, sb, hint := h }) s = .next v ∧ queued s v .drain ∧ (v.walk w).closed = true) ∧
    (∀ t, x.closed = false → x.tree = some t → x.queue.length < 8 →
      (∀ e ∈ [t.kent, t.sent, t.vent], (fmtOf (entWord s.me.ents e)).valid = true) → ∀ h : Fin 8,
      (∃ v, exec (.wrefit { sd, sb, hint := h }) s = .next v ∧ queued s v .refit ∧ (v.walk w).closed = false) ∧
      (∀ sa, s.Full [sa] → ∃ v, exec (.wapp { sd, sa, sb, hint := h }) s = .next v ∧ queued s v (.append (s.me.sget sa)) ∧ (v.walk w).closed = false) ∧
      (∀ sa q u kind, s.Full [sa] → (s.me.sget sa).toNat % 8 = 0 → readWords (s.me.sget sa).toNat 4 s = .ok q u → (u.walk w).queue.length < 8 →
        checkQuery t s.me.ents q (fun c => if c = 0 then some s.cur.core else none) u = .ok kind u →
        ∃ v, exec (.wqry { sd, sa, sb, hint := h }) s = .next v ∧ queued u v kind)) ∧
    (x.tree = none → s.me.lanesIdle = true → ∀ h sa, s.Full [sa] →
      exec (.wapp { sd, sa, sb, hint := h }) s = .next (raise s s.cur .awlUnbound s.me.pc s.me.pc (Config.tval s.tick) 0 false)) ∧
    (x.queue = [] → ∀ h sa d u t, s.Full [sa] → s.me.sget sa ≠ 0 → (s.me.sget sa).toNat % 64 = 0 → readWords (s.me.sget sa).toNat 16 s = .ok d u →
      checkTree (s.me.sget sa) d s.me.ents u = .ok t u →
      ∃ v, exec (.wbind { sd, sa, sb, hint := h }) s = .next v ∧ (v.walk w).tree = some t ∧ (v.walk w).closed = false ∧
        (v.walk w).issued = num ∧ (v.walk w).timeline = num ∧ (sd ≠ 0 → v.me.sget sd = BitVec.ofNat 64 num) ∧ v.me.pc = s.me.pc + 4))

/-- SPAWN (R256, R275, R280, R315): once every vector and matrix instruction and engine command of the context has completed, its stores performed and its core's dirty lines in memory, a descriptor in the core's own pool that passes its checks becomes a graph of one ready node in the region, named by the die's next spawn number, which sd receives; an address that is no multiple of 64 raises SPAWN_DESC with check 1. Until then it waits. EMUCALL (R259, R380) with no store of the context still to be performed, the slot below s30 in the core's own pool or in main memory, and the routine table, at the CODEBASE of a valid entry of the address space, in main memory: EMUCALL of a routine the table has writes the return address to the slot and goes to the routine; EMUCALL 0 goes to the address in the slot, or raises PC_ALIGN when it is no multiple of 4; a number the table does not have raises EMU_RANGE. s30 itself does not change. -/
def Obligations.SpawnAndEmulation : Prop :=
  (∀ (f : A2) (s : State), s.Quiet → s.Full [f.sa, f.sd] → s.me.stores = [] →
    let a := (s.me.sget f.sa).toNat
    let die := Fin.ofNat 8 (s.cur.core.val / 128)
    let n := s.spawns[die] + 1
    let handle : Word := BitVec.ofNat 64 (n % 2 ^ 32 + 2 ^ 32 * die.val)
    (lanesDone s s.cur = true → enginesDone s s.cur = true →
      (∀ off, a % 64 = 0 → (∀ i, i < 16 → s.PoolAt (a + 8 * i) 8 .read (off + 8 * i)) →
        let d := BitVec.ofNat 1024 (memRead s.myCore.pool off 128)
        nodeZeros d = true → nodeShape d = true → nodePart (effPoolsl s s.me.rcb) d = true → dNpred d = 0 → dNsucc d = 0 →
        (∀ r, s.region s.me.rcb = some r → r.spawned < 4096) →
        ∃ t : State, exec (.spawn f) s = .next (t.wrote f.sd handle) ∧ t.spawns = s.spawns.set die n ∧
          t.ctxs = s.released.ctxs ∧ t.mem = s.released.mem ∧ t.cores = s.released.cores ∧ t.nextGraph = s.nextGraph + 1 ∧
          ∃ (x : Graph) (k : GNode), tabFind t.graphs s.nextGraph = some x ∧ x.rcb = s.me.rcb ∧ x.st = .active ∧ x.spawned = true ∧ x.handle = handle ∧ x.reserved = [] ∧
            x.nodes = [k] ∧ k.desc = d ∧ k.st = .ready) ∧
      (a % 64 ≠ 0 → exec (.spawn f) s = .next (raise s.released s.cur .spawnDesc s.me.pc s.me.pc 1 0 false))) ∧
    (lanesDone s s.cur = false ∨ enginesDone s s.cur = false → exec (.spawn f) s = .next (s.modMe fun c => { c with waiting := true }))) ∧
  (∀ (f : EForm) (s : State), s.Quiet → s.Full [30] → s.me.stores = [] →
    let slot := (s.me.sget 30 - 8).toNat
    let n := f.n.toNat
    let back (t : State) (p : Nat) : Prop :=
      (p % 4 = 0 → exec (.emucall f) s = .next (t.wentTo (BitVec.ofNat 64 p) id)) ∧
      (p % 4 ≠ 0 → s.me.lanesIdle = true → exec (.emucall f) s = .next (raise t t.cur .pcAlign s.me.pc s.me.pc (BitVec.ofNat 64 p) 0 false))
    (n = 0 →
      (∀ off, s.PoolAt slot 8 .read off → back s (memRead s.myCore.pool off 8)) ∧ ∀ pa t, s.MemAt slot 8 .read pa t → back t (memRead t.mem pa 8)) ∧
    (n ≠ 0 → ∀ e pa t, asidEntry s.me.asid (codeBaseOf s s.me.asid) s = .ok e s → s.MemAt e.codeBase 8 .read pa t →
      let count := memRead t.mem pa 8
      (count ≤ n → s.me.lanesIdle = true → exec (.emucall f) s = .next (raise t t.cur .emuRange s.me.pc s.me.pc (BitVec.ofNat 64 n) 0 false)) ∧
      (n < count → ∀ pb u, t.MemAt (e.codeBase + 8 * n) 8 .read pb u →
        let p : Word := BitVec.ofNat 64 (memRead u.mem pb 8)
        (∀ off, u.PoolAt slot 8 .write off →
          exec (.emucall f) s = .next ((u.modMyCore fun k => { k with pool := memWrite k.pool off 8 (s.me.pc + 4).toNat }).wentTo p id)) ∧
        ∀ pc v, u.MemAt slot 8 .write pc v → exec (.emucall f) s = .next (({ v with mem := memWrite v.mem pc 8 (s.me.pc + 4).toNat } : State).wentTo p id))))

/-! Vector instructions: issue, element-wise functions. -/

/-- How a vector or matrix instruction issues (R121 step 6, R161, R162, R276), said of VADD, VFMA, VREDS, VLD, MMA and MACCRD: with no trim outstanding, registers below the declared count, full scalar operands and fewer than 64 entries ahead, it enters the queue with its copies of the vector state while values are held back or others are ahead, and the PC moves on; a register at or above the count raises ILL_VREG with the word in TVAL once no vector or matrix instruction is outstanding; a full queue, or an empty scalar source, makes it wait. Whether the queue runs at once is the turn's own field late (log 1). -/
def Obligations.VectorIssue : Prop :=
  ∀ (s : State), (∀ e ∈ s.me.queue, trims e.instr = true → e.noTrim = true) →
    let goes (i : Instr) (u : Issue) : Prop :=
      ((∀ r ∈ u.regs, r < s.me.count) → (∀ r, u.reads = some r ∨ u.writes = some r → s.me.isFull r = true) →
        (s.me.queue.length < 64 → s.late = true ∨ s.me.queue ≠ [] → exec i s = .next (s.entered i u)) ∧
        (64 ≤ s.me.queue.length → exec i s = .next (s.modMe fun c => { c with waiting := true }))) ∧
      ((∃ r ∈ u.regs, s.me.count ≤ r) → s.me.lanesIdle = true →
        exec i s = .next (raise s s.cur .illVreg s.me.pc s.me.pc (BitVec.ofNat 64 ((encode i).getD 0)) 0 false)) ∧
      ((∀ r ∈ u.regs, r < s.me.count) → (∃ r, u.reads = some r ∧ s.me.isFull r = false) → exec i s = .next (s.modMe fun c => { c with waiting := true }))
    (∀ f : VB, goes (.vadd f) { regs := [f.vd.val, f.va.val] ++ vsrcNums f.b, reads := vsrcScalar f.b, writes := none }) ∧
    (∀ f : VB, goes (.vfma f) { regs := [f.vd.val, f.va.val] ++ vsrcNums f.b, reads := vsrcScalar f.b, writes := none }) ∧
    (∀ f : VS, goes (.vreds f) { regs := [f.va.val], reads := some f.sb, writes := some f.vd }) ∧
    (∀ f : VLdForm, goes (.vld f) { regs := [f.vd.val], reads := none, writes := none }) ∧
    (∀ f : MmaForm, goes (.mma f) { regs := [], reads := none, writes := none }) ∧
    (∀ f : MAccRdForm, goes (.maccrd f) { regs := [f.vd.val], reads := none, writes := none })

/-- VARI (R91, R163, R170): with a valid VTYPE entry and operands that pass DecodeOperands, each function runs ElementWise with its own element function on va and vb or the scalar, VMACC also on vd; the queue is empty again and the PC past the instruction. VFP (R91, R172): with a valid floating-point VTYPE entry, each function runs ElementWise with one rounding into that entry, VFMA and VFNMS also on vd; with an integer entry every one of them raises ENTRY_KIND and does nothing else. What the functions of the wide form round from is the reading of log 17; the TVAL of ENTRY_KIND is free (log 7). -/
def Obligations.VectorArithmeticRuns : Prop :=
  (∀ (f : VB) (s : State),
    let u : Issue := { regs := [f.vd.val, f.va.val] ++ vsrcNums f.b, reads := vsrcScalar f.b, writes := none }
    let l := s.laneFor u
    let k := l.fmt
    let bs := (vsrcRegs f.b).map (·.1)
    let a := Src.vec f.va.val (sourceView s.me f.va k.wid)
    let b := match f.b with
      | .vec r _ => Src.vec r.val (sourceView s.me r k.wid)
      | .sca _ => Src.const (l.scalar.toNat % 2 ^ k.wid)
    let shift := match f.b with
      | .vec _ _ => none
      | .sca _ => some l.scalar.toNat
    let based := match f.b with
      | .vec _ _ => false
      | .sca _ => true
    let runs (i : Instr) (op : VariOp) (base : Bool) : Prop :=
      s.EwReady l f.vd k.wid (f.va :: bs) → exec i s = .next (s.ran i u fun c => c.ewDone (s.ewOf l f.vd k.wid k.wid base [a, b] (variElem op k shift)) f.vd f.x)
    s.CanRun u → k.valid = true →
    runs (.vadd f) .add based ∧ runs (.vsub f) .sub based ∧ runs (.vmul f) .mul false ∧ runs (.vmulh f) .mulh false ∧
    runs (.vand f) .and false ∧ runs (.vor f) .or false ∧ runs (.vxor f) .xor false ∧
    runs (.vsll f) .sll false ∧ runs (.vsrl f) .srl false ∧ runs (.vsra f) .sra false ∧
    runs (.vmin f) .min false ∧ runs (.vmax f) .max false ∧ runs (.vsadd f) .sadd false ∧ runs (.vssub f) .ssub false ∧
    (s.EwReady l f.vd k.wid (f.va :: bs ++ [f.vd]) →
      exec (.vmacc f) s = .next (s.ran (.vmacc f) u fun c =>
        c.ewDone (s.ewOf l f.vd k.wid k.wid false [a, b, .vec f.vd.val (oldView s.me f.vd k.wid)] (variElem .macc k shift)) f.vd f.x))) ∧
  (∀ (s : State),
    (∀ f : VB,
      let u : Issue := { regs := [f.vd.val, f.va.val] ++ vsrcNums f.b, reads := vsrcScalar f.b, writes := none }
      let l := s.laneFor u
      let k := l.fmt
      let bs := (vsrcRegs f.b).map (·.1)
      let a := Src.vec f.va.val (sourceView s.me f.va k.wid)
      let b := match f.b with
        | .vec r _ => Src.vec r.val (sourceView s.me r k.wid)
        | .sca _ => Src.const (l.scalar.toNat % 2 ^ k.wid)
      let runs (i : Instr) (op : VfpOp) : Prop :=
        s.EwReady l f.vd k.wid (f.va :: bs) →
          exec i s = .next (s.ran i u fun c => c.ewDone (s.ewOf l f.vd k.wid k.wid false [a, b] (vfpElem op k (roundingMode s.me.fc.rmo k))) f.vd f.x)
      let third (i : Instr) (op : VfpOp) : Prop :=
        s.EwReady l f.vd k.wid (f.va :: bs ++ [f.vd]) →
          exec i s = .next (s.ran i u fun c =>
            c.ewDone (s.ewOf l f.vd k.wid k.wid false [a, b, .vec f.vd.val (oldView s.me f.vd k.wid)] (vfpElem op k (roundingMode s.me.fc.rmo k))) f.vd f.x)
      s.CanRun u → k.valid = true →
      (k.kind = 0 →
        runs (.vfadd f) .add ∧ runs (.vfsub f) .sub ∧ runs (.vfmul f) .mul ∧ runs (.vfdiv f) .div ∧ runs (.vfmin f) .min ∧ runs (.vfmax f) .max ∧
        third (.vfma f) .fma ∧ third (.vfnms f) .nms) ∧
      (k.kind ≠ 0 → ∀ i ∈ [Instr.vfadd f, .vfsub f, .vfmul f, .vfdiv f, .vfmin f, .vfmax f, .vfma f, .vfnms f], s.KindTrap i u)) ∧
    (∀ f : VUX,
      let u : Issue := { regs := [f.vd.val, f.va.val], reads := none, writes := none }
      let l := s.laneFor u
      let k := l.fmt
      let runs (i : Instr) (op : VfpOp) : Prop :=
        s.EwReady l f.vd k.wid [f.va] →
          exec i s = .next (s.ran i u fun c =>
            c.ewDone (s.ewOf l f.vd k.wid k.wid false [.vec f.va.val (sourceView s.me f.va k.wid)] (vfpElem op k (roundingMode s.me.fc.rmo k))) f.vd f.x)
      s.CanRun u → k.valid = true →
      (k.kind = 0 → runs (.vfsqrt f) .sqrt ∧ runs (.vfabs f) .abs ∧ runs (.vfneg f) .neg ∧ runs (.vfrec f) .recip ∧ runs (.vfrsq f) .rsq ∧ runs (.vfexp2 f) .exp2) ∧
      (k.kind ≠ 0 → ∀ i ∈ [Instr.vfsqrt f, .vfabs f, .vfneg f, .vfrec f, .vfrsq f, .vfexp2 f], s.KindTrap i u)))

/-- VZSUB, VCVT, VQNT, VDQNT and VBRD (R171, R225, R226, R176): with valid entries of the kinds they ask for and a VL that both widths hold, they run ElementWise from the source's width to the destination's; with an entry of another kind VZSUB, VCVT, VQNT and VDQNT raise ENTRY_KIND. -/
def Obligations.ConversionRuns : Prop :=
  ∀ (s : State),
    (∀ f : VZForm,
      let u : Issue := { regs := [f.vd.val, f.va.val], reads := none, writes := none }
      let l := s.laneFor u
      let k := l.fmt
      let d := fmtOf (l.ent f.ent.val)
      s.CanRun u → k.valid = true → d.valid = true →
      (k.kind = 0 ∨ d.kind = 0 → s.KindTrap (.vzsub f) u) ∧
      (k.kind ≠ 0 → d.kind ≠ 0 → l.vl ≤ l.vlmax / d.wid → s.EwReady l f.vd d.wid [f.va] →
      exec (.vzsub f) s = .next (s.ran (.vzsub f) u fun c =>
        c.ewDone (s.ewOf l f.vd k.wid d.wid false [.vec f.va.val (sourceView s.me f.va k.wid)] (vzElem k d)) f.vd f.x))) ∧
    (∀ f : VCvtForm,
      let u : Issue := { regs := [f.vd.val, f.va.val], reads := none, writes := none }
      let l := s.laneFor u
      let k := l.fmt
      let d := fmtOf (l.ent f.ent.val)
      s.CanRun u → k.valid = true → d.valid = true →
      (k.bsk ≠ 0 ∨ d.bsk ≠ 0 → s.KindTrap (.vcvt f) u) ∧
      (k.bsk = 0 → d.bsk = 0 → l.vl ≤ l.vlmax / d.wid → s.EwReady l f.vd d.wid [f.va] →
      exec (.vcvt f) s = .next (s.ran (.vcvt f) u fun c =>
        c.ewDone (s.ewOf l f.vd k.wid d.wid false [.vec f.va.val (sourceView s.me f.va k.wid)]
          fun srcs seed => convert (srcs.getD 0 0) k d (roundingMode s.me.fc.rmo d) seed f.sat) f.vd f.x))) ∧
    (∀ f : VQForm,
      let u : Issue := { regs := [f.vd.val, f.va.val, f.vb.val], reads := none, writes := none }
      let l := s.laneFor u
      let k := l.fmt
      let n := l.vlmax / k.wid
      s.CanRun u → k.valid = true →
      (k.bsk = 3 → s.KindTrap (.vqnt f) u) ∧
      (k.bsk ≠ 3 → l.vl ≤ l.vlmax / 32 → s.EwReady l f.vd k.wid [f.va, f.vb] →
      exec (.vqnt f) s = .next (s.ran (.vqnt f) u fun c =>
        c.ewDone (s.ewOf l f.vd 32 k.wid false [.vec f.va.val (sourceView s.me f.va 32), .vec f.vb.val (scaleView k n (sourceView s.me f.vb 32))]
          fun srcs seed =>
            let q := ofF32 (srcs.getD 1 0)
            if scaleOk k q then fromWide ((ofF32 (srcs.getD 0 0)).quo q) k (roundingMode s.me.fc.rmo k) seed f.sat else badScale k seed) f.vd f.x))) ∧
    (∀ f : VDQForm,
      let u : Issue := { regs := [f.vd.val, f.va.val, f.vb.val], reads := none, writes := none }
      let l := s.laneFor u
      let k := l.fmt
      let n := l.vlmax / 32
      s.CanRun u → k.valid = true →
      (k.bsk = 3 → s.KindTrap (.vdqnt f) u) ∧
      (k.bsk ≠ 3 → l.vl ≤ n → s.EwReady l f.vd 32 [f.va, f.vb] →
      exec (.vdqnt f) s = .next (s.ran (.vdqnt f) u fun c =>
        c.ewDone (s.ewOf l f.vd k.wid 32 false [.vec f.va.val (sourceView s.me f.va k.wid), .vec f.vb.val (scaleView k n (sourceView s.me f.vb 32))]
          fun srcs seed =>
            let q := ofF32 (srcs.getD 1 0)
            if scaleOk k q then fromWide ((toWide k (srcs.getD 0 0)).mul q) fp32 (roundingMode s.me.fc.rmo fp32) seed else badScale fp32 seed) f.vd f.x))) ∧
    (∀ f : VBrdForm,
      let u : Issue := { regs := [f.vd.val], reads := some f.sb, writes := none }
      let l := s.laneFor u
      let k := l.fmt
      s.CanRun u → k.valid = true → s.EwReady l f.vd k.wid [] →
      exec (.vbrd f) s = .next (s.ran (.vbrd f) u fun c =>
        c.ewDone (s.ewOf l f.vd k.wid k.wid false [.const (l.scalar.toNat % 2 ^ k.wid)] fun srcs seed => pureCode (srcs.getD 0 0) seed) f.vd false))

/-- VIDX (R128, R182): the register that si names takes the place of va, and the function index selects the function: an integer one on a valid entry, a floating-point one on a floating-point entry; a floating-point one on an integer entry, and the subtraction of zero points with a floating-point one, raise ENTRY_KIND. -/
def Obligations.IndirectRuns : Prop :=
  ∀ (f : VIdxForm) (s : State), vidxOk f = true → s.me.isFull f.si = true →
    let va : Fin 32 := Fin.ofNat 32 (wbits (s.me.sget f.si) 0 5)
    let named := if f.fn.val = 15 ∨ vidxUnary f.fn.val = true then [] else [f.vb.val]
    let u : Issue := { regs := [f.vd.val] ++ named ++ [va.val], reads := some f.si, writes := none }
    let l := s.laneFor u
    let k := l.fmt
    let src (r : Fin 32) := Src.vec r.val (sourceView s.me r k.wid)
    let done (ssew sew : Nat) (base : Bool) (srcs : List Src) (g : ElemFn) : Prop :=
      exec (.vidx f) s = .next (s.ran (.vidx f) u fun c => c.ewDone (s.ewOf l f.vd ssew sew base srcs g) f.vd f.x)
    s.CanRun u → k.valid = true →
    (∀ p ∈ [(0, VariOp.add), (1, .sub), (2, .mul), (3, .mulh), (5, .and), (6, .or), (7, .xor), (8, .sll), (9, .srl), (10, .sra), (11, .min), (12, .max), (13, .sadd), (14, .ssub)],
      f.fn.val = p.1 → s.EwReady l f.vd k.wid [va, f.vb] → done k.wid k.wid false [src va, src f.vb] (variElem p.2 k none)) ∧
    (f.fn.val = 4 → s.EwReady l f.vd k.wid [va, f.vb, f.vd] →
      done k.wid k.wid false [src va, src f.vb, .vec f.vd.val (oldView s.me f.vd k.wid)] (variElem .macc k none)) ∧
    (f.fn.val = 15 →
      let d := fmtOf (l.ent f.vb.val)
      d.valid = true → (k.kind = 0 ∨ d.kind = 0 → s.KindTrap (.vidx f) u) ∧
        (k.kind ≠ 0 → d.kind ≠ 0 → l.vl ≤ l.vlmax / d.wid → s.EwReady l f.vd d.wid [va] → done k.wid d.wid false [src va] (vzElem k d))) ∧
    (16 ≤ f.fn.val → f.fn.val ≤ 29 → k.kind ≠ 0 → s.KindTrap (.vidx f) u) ∧
    (∀ p ∈ [(16, VfpOp.add), (17, .sub), (18, .mul), (21, .div), (23, .min), (24, .max)],
      f.fn.val = p.1 → k.kind = 0 → s.EwReady l f.vd k.wid [va, f.vb] → done k.wid k.wid false [src va, src f.vb] (vfpElem p.2 k (roundingMode s.me.fc.rmo k))) ∧
    (∀ p ∈ [(19, VfpOp.fma), (20, .nms)],
      f.fn.val = p.1 → k.kind = 0 → s.EwReady l f.vd k.wid [va, f.vb, f.vd] →
        done k.wid k.wid false [src va, src f.vb, .vec f.vd.val (oldView s.me f.vd k.wid)] (vfpElem p.2 k (roundingMode s.me.fc.rmo k))) ∧
    (∀ p ∈ [(22, VfpOp.sqrt), (25, .abs), (26, .neg), (27, .recip), (28, .rsq), (29, .exp2)],
      f.fn.val = p.1 → k.kind = 0 → s.EwReady l f.vd k.wid [va] → done k.wid k.wid false [src va] (vfpElem p.2 k (roundingMode s.me.fc.rmo k)))

/-! Vector instructions: comparisons, masks, movement, reductions, encodings. -/

/-- Comparisons and VBAND (R30, R91, R95, R99, R174, R176): with a valid entry and sources that pass DecodeOperands, each runs ElementWise with its relation, 1 or 0 an element, and md takes the values of the segments: what it leaves is said for sources of every encoding, and, where va or vb is plain, bit by bit: below Lim the bit of a Written element is the relation of the two codes (or of the values they stand for, false beside a NaN but for VFCUN), the bit of an element at or past VL under ERULE.TD is 0, any other is its old bit; bits from Lim up stay; VFCLT and VFCLE raise NV when a Written element has a NaN, no other raises anything. The floating-point ones raise ENTRY_KIND on an integer entry. Mask logic and mask scalars (R175): the bits of [0, VL) are the function of the source bits, those from VL to Lim 0 under ERULE.TD, all others stay; MPOP counts the active 1 bits of ma below VL, MFIRST gives the lowest one's index or all ones. VSTART is left 0. That MAND to MNOT need the entry of VTYPE and MPOP and MFIRST do not is the reading of log 18. -/
def Obligations.ComparisonAndMaskResults : Prop :=
  (∀ (f : VCmpForm) (s : State),
    let u : Issue := { regs := [f.va.val] ++ vsrcNums f.b, reads := vsrcScalar f.b, writes := none }
    let l := s.laneFor u
    let k := l.fmt
    let n := l.vlmax / k.wid
    let mask := s.me.m[l.mreg].toNat
    let va := sourceView s.me f.va k.wid
    let srcB := match f.b with
      | .vec r _ => Src.vec r.val (sourceView s.me r k.wid)
      | .sca _ => Src.const (l.scalar.toNat % 2 ^ k.wid)
    let a (e : Nat) := va.at e
    let b (e : Nat) := srcB.at e
    let x (e : Nat) := toWide k (a e)
    let y (e : Nat) := toWide k (b e)
    let nan (e : Nat) := (x e).cls == .nan || (y e).cls == .nan
    let bare := va.kind = .plain ∨ ∃ r fe, f.b = .vec r fe ∧ (sourceView s.me r k.wid).kind = .plain
    let runs (i : Instr) (rel : Relation) (holds raises : Nat → Bool) : Prop :=
      exec i s = .next (s.ran i u fun c => c.maskDone (s.maskEw l f.md k.wid [.vec f.va.val va, srcB] (relElem rel k)) f.md) ∧
      (bare → n ≤ 16384 →
        ∃ t, exec i s = .next (freeTails t) ∧ s.OnlyMe t ∧ t.me.vc = { s.me.vc with vstart := 0 } ∧ t.me.v = s.me.v ∧ t.me.s = s.me.s ∧ t.me.pc = s.me.pc + 4 ∧ t.me.queue = [] ∧
          (∀ m, m ≠ f.md → t.me.m[m] = s.me.m[m]) ∧
          (∀ e, e < n → (t.me.m[f.md]).getLsbD e =
            if l.written mask e then holds e else if l.vl ≤ e ∧ l.td = true then false else (s.me.m[f.md]).getLsbD e) ∧
          (∀ e, n ≤ e → (t.me.m[f.md]).getLsbD e = (s.me.m[f.md]).getLsbD e) ∧
          t.me.fc = { s.me.fc with flags := s.me.fc.flags ||| if ((List.range n).any fun e => l.written mask e && raises e) = true then BitVec.ofNat 5 fNV else 0 })
    let quiet (_ : Nat) : Bool := false
    s.CanRun u → k.valid = true → s.me.Readable f.va → (∀ r fe, f.b = .vec r fe → s.me.Readable r) → l.vstart < l.vl →
    runs (.vceq f) (codeRel fun _ c d => c == d) (fun e => a e == b e) quiet ∧ runs (.vcne f) (codeRel fun _ c d => c != d) (fun e => a e != b e) quiet ∧
    runs (.vclt f) (codeRel fun g c d => sextNat g.wid c < sextNat g.wid d) (fun e => decide (sextNat k.wid (a e) < sextNat k.wid (b e))) quiet ∧
    runs (.vcle f) (codeRel fun g c d => sextNat g.wid c ≤ sextNat g.wid d) (fun e => decide (sextNat k.wid (a e) ≤ sextNat k.wid (b e))) quiet ∧
    runs (.vcltu f) (codeRel fun _ c d => c < d) (fun e => decide (a e < b e)) quiet ∧
    runs (.vband f) (codeRel fun _ c d => c &&& d != 0) (fun e => (a e &&& b e) != 0) quiet ∧
    (k.kind = 0 →
      runs (.vfceq f) (valueRel (false, 0) Num.eqv) (fun e => !nan e && (x e).eqv (y e)) quiet ∧
      runs (.vfclt f) (valueRel (false, fNV) fun p q => p.lt q false) (fun e => !nan e && (x e).lt (y e) false) nan ∧
      runs (.vfcle f) (valueRel (false, fNV) fun p q => !q.lt p false) (fun e => !nan e && !(y e).lt (x e) false) nan ∧
      runs (.vfcun f) (valueRel (true, 0) fun _ _ => false) nan quiet) ∧
    (k.kind ≠ 0 → ∀ i ∈ [Instr.vfceq f, .vfclt f, .vfcle f, .vfcun f], exec i s = .next (laneTrap (s.entered i u) .entryKind (Config.tval s.tick) 0))) ∧
  (∀ (s : State),
    let l := s.laneFor { regs := [], reads := none, writes := none }
    let n := l.vlmax / l.fmt.wid
    let logic (i : Instr) (md : Fin 8) (g : Nat → Bool) : Prop :=
      ∃ t, exec i s = .next (freeTails t) ∧ s.OnlyMe t ∧ t.me.vc = { s.me.vc with vstart := 0 } ∧ t.me.v = s.me.v ∧ t.me.s = s.me.s ∧ t.me.pc = s.me.pc + 4 ∧ t.me.queue = [] ∧
        (∀ m, m ≠ md → t.me.m[m] = s.me.m[m]) ∧
        (∀ e, e < 16384 → (t.me.m[md]).getLsbD e = if e < l.vl ∧ e < n then g e else if e < n ∧ l.td = true then false else (s.me.m[md]).getLsbD e)
    s.CanRun { regs := [], reads := none, writes := none } →
    (l.fmt.valid = true → n ≤ 16384 →
      (∀ f : M3, logic (.mand f) f.md (fun e => (s.me.m[f.ma]).getLsbD e && (s.me.m[f.mb]).getLsbD e) ∧
        logic (.mor f) f.md (fun e => (s.me.m[f.ma]).getLsbD e || (s.me.m[f.mb]).getLsbD e) ∧
        logic (.mxor f) f.md (fun e => xor ((s.me.m[f.ma]).getLsbD e) ((s.me.m[f.mb]).getLsbD e))) ∧
      (∀ f : M2, logic (.mnot f) f.md fun e => !(s.me.m[f.ma]).getLsbD e)) ∧
    (∀ f : MS, s.me.isFull f.sd = true →
      let live (e : Nat) := decide (e < l.vl) && (s.me.m[f.ma]).getLsbD e && (l.unmasked || (s.me.m[l.mreg]).getLsbD e)
      let gives (i : Instr) (v : Word) : Prop :=
        ∃ t, exec i s = .next (freeTails t) ∧ s.OnlyMe t ∧ t.me.vc = { s.me.vc with vstart := 0 } ∧ t.me.m = s.me.m ∧ t.me.v = s.me.v ∧ t.me.pc = s.me.pc + 4 ∧
          (f.sd ≠ 0 → t.me.sget f.sd = v ∧ t.me.isFull f.sd = true) ∧ (∀ r, r ≠ f.sd → t.me.sget r = s.me.sget r)
      gives (.mpop f) (BitVec.ofNat 64 ((List.range 16384).countP live)) ∧
      (∀ e, e < 16384 → live e = true → (∀ j, j < e → live j = false) → gives (.mfirst f) (BitVec.ofNat 64 e)) ∧
      ((∀ e, e < 16384 → live e = false) → gives (.mfirst f) (BitVec.ofNat 64 (2 ^ 64 - 1)))))

/-- Movement (R90, R95, R176, R178): with a valid entry and operands that pass DecodeOperands, VSLUP and VSLDN move by the scalar, VCOMP and VEXPD pack and spread the active elements, VBPFX counts the bits before each active element modulo 2^w, VIOTA numbers the elements; the image, elements not Written old or 0 as R90 says, goes to vd in the encoding R93 gives it. Reductions and VMVS (R100, R101, R162, R176, R177): the scalar destination receives init combined with the Written elements of va: VREDS the sum modulo 2^w of plain or delta elements, VREDMX and VREDMN the extreme, VFREDS the FP32 sum of R101 rounded to the entry, VMVS one element; flags join FCSR, a VFREDS whose result saturates counts once in SATCNT (log 52), VSTART is left 0, no vector or mask register changes. Elements below VSTART kept by VSLUP, VSLDN and VIOTA is the reading of log 19; that a saturating reduction counts once is log 52. -/
def Obligations.MovementAndReductionResults : Prop :=
  (∀ (s : State) (vd va : Fin 32) (u : Issue),
    let l := s.laneFor u
    let k := l.fmt
    let n := l.vlmax / k.wid
    let mask := s.me.m[l.mreg].toNat
    let a := sourceView s.me va k.wid
    let old := oldView s.me vd k.wid
    let rest (e : Nat) : Nat := if l.vl ≤ e ∧ l.td = true then 0 else old.at e
    let act := (List.range l.vl).filter fun e => l.unmasked || nbit mask e
    let img (g : Nat → Nat) := (List.range n).map fun e => if l.written mask e then g e else rest e
    let moved (g : Nat → Option Nat) := (List.range n).map fun e => (g e).getD (rest e)
    let gives (i : Instr) (x : List Nat) : Prop := exec i s = .next (s.ran i u fun c => c.vDone vd (encodeElems l k.wid x) (l.tail k.wid))
    s.CanRun u → k.valid = true →
    (s.me.Readable va →
      (∀ sb feA hint, u = { regs := [vd.val, va.val], reads := some sb, writes := none } →
        let t := (s.me.sget sb).toNat
        (s.me.Writable vd (l.whole mask n && decide (t = 0)) → gives (.vslup { vd, va, sb, feA, hint }) (img fun e => if t ≤ e then a.at (e - t) else old.at e)) ∧
        (s.me.Writable vd (l.whole mask n) → gives (.vsldn { vd, va, sb, feA, hint }) (img fun e => if e + t < l.vl then a.at (e + t) else 0)))) ∧
    (s.me.Readable va → s.me.Writable vd (l.indivisible.whole mask n) →
      (∀ feA hint, u = { regs := [vd.val, va.val], reads := none, writes := none } →
        gives (.vcomp { vd, va, feA, hint }) (moved fun e => (act[e]?).map a.at) ∧
        gives (.vexpd { vd, va, feA, hint }) (moved fun e => if act.contains e then some (a.at (act.idxOf e)) else none) ∧
        gives (.vbpfx { vd, va, feA, hint }) (moved fun e => if act.contains e then some (((act.take (act.idxOf e)).map fun j => countBits (a.at j)).sum % 2 ^ k.wid) else none))) ∧
    (s.me.Writable vd (l.whole mask n) → ∀ hint, u = { regs := [vd.val], reads := none, writes := none } →
      (l.whole mask n = true ∧ k.kind ≠ 0 ∧ 8 ≤ k.wid ∧ l.mode ≠ 1 →
        exec (.viota { vd, hint }) s = .next (s.ran (.viota { vd, hint }) u fun c => c.vDone vd (mkDelta k.wid 0 (List.replicate (n - 1) 1) 0))) ∧
      (¬(l.whole mask n = true ∧ k.kind ≠ 0 ∧ 8 ≤ k.wid ∧ l.mode ≠ 1) → gives (.viota { vd, hint }) (img fun e => e % 2 ^ k.wid)))) ∧
  (∀ (f : VS) (s : State),
    let u : Issue := { regs := [f.va.val], reads := some f.sb, writes := some f.vd }
    let l := s.laneFor u
    let k := l.fmt
    let mask := s.me.m[l.mreg].toNat
    let v := sourceView s.me f.va k.wid
    let l0 := l.indivisible
    let init := l.scalar.toNat % 2 ^ k.wid
    let gives (i : Instr) (x : Word) (flags : Nat) (sats : Nat := 0) : Prop :=
      ∃ t, exec i s = .next (freeTails t) ∧ s.OnlyMe t ∧ t.me.vc = { s.me.vc with vstart := 0 } ∧ t.me.v = s.me.v ∧ t.me.m = s.me.m ∧ t.me.pc = s.me.pc + 4 ∧
        t.me.fc = { s.me.fc with flags := s.me.fc.flags ||| BitVec.ofNat 5 flags, satcnt := addSat s.me.fc.satcnt sats } ∧
        (f.vd ≠ 0 → t.me.sget f.vd = x ∧ t.me.isFull f.vd = true) ∧ (∀ r, r ≠ f.vd → t.me.sget r = s.me.sget r)
    s.CanRun u → k.valid = true → s.me.Readable f.va →
    (v.kind = .plain ∨ v.kind = .delta →
      let act := (List.range l.vl).filter fun e => l.unmasked || nbit mask e
      gives (.vreds f) (extCode k (intMod k.wid (k.val init + (act.map fun e => k.val (v.at e)).sum))) 0) ∧
    (let cs := ((weighted l0 mask v).filter fun p => p.2 != 0).map (·.1)
     gives (.vredmx f) (extCode k (extreme k true (init :: cs)).1) (extreme k true (init :: cs)).2 ∧
     gives (.vredmn f) (extCode k (extreme k false (init :: cs)).1) (extreme k false (init :: cs)).2) ∧
    (k.kind = 0 →
      let t := sumF32 k l0 mask v (ofF32 (l.scalar.toNat % 2 ^ 32))
      let c := fromWide t.1 k .rne 0
      gives (.vfreds f) (BitVec.ofNat 64 c.code) (t.2 ||| c.flags) c.sat.toNat) ∧
    gives (.vmvs f) (if l.scalar.toNat < l.vlmax / k.wid then extCode k (v.at l.scalar.toNat) else 0) 0)

/-- Encodings (R179 to R181): the image, a copy of va under the classes of R90, goes to vd as runs, a dictionary with a new tag, deltas or plain, whatever fits, VRENC in the order R179 gives; VENCQ codes va by vb's dictionary; the two forms of VDICT read and replace a dictionary's entries; a source that is no dictionary raises ENC_KIND, va of either form of VDICT as vb of VENCQ. The TVAL of ENC_KIND is the free value Config.tval of the step counter (log 7); zeros beyond the bits in use are log 52. -/
def Obligations.EncodingResults : Prop :=
  ∀ (s : State),
    (∀ f : VU,
      let u : Issue := { regs := [f.vd.val, f.va.val], reads := none, writes := none }
      let l := (s.laneFor u).indivisible
      let k := l.fmt
      let n := l.vlmax / k.wid
      let mask := s.me.m[l.mreg].toNat
      let a := sourceView s.me f.va k.wid
      let old := oldView s.me f.vd k.wid
      let img := (List.range n).map fun e => if l.written mask e then a.at e else if l.vl ≤ e ∧ l.td = true then 0 else old.at e
      let cap := runCap k.wid l.slabs
      let gives (i : Instr) (x : VReg) : Prop := exec i s = .next (s.ran i u fun c => c.vDone f.vd x (l.tail k.wid))
      s.CanRun u → k.valid = true → s.me.Readable f.va →
      (s.me.Writable f.vd (l.whole mask n) →
        gives (.vencr f) ((encodeRuns k.wid l.slabs cap img).getD (mkPlain k.wid img)) ∧
        gives (.vencd f) ((encodeDict k.wid (newTag s.me) img).getD (mkPlain k.wid img)) ∧
        (k.kind ≠ 0 → gives (.venct f) ((encodeDelta k.wid l.eruleDw img).getD (mkPlain k.wid img))) ∧
        gives (.vdec f) (mkPlain k.wid img) ∧
        gives (.vrenc f) ((((encodeRuns k.wid l.slabs (cap / 2) img).or (encodeDict k.wid (newTag s.me) img)).or
          ((if k.kind ≠ 0 then encodeDelta k.wid l.eruleDw img else none).or (encodeRuns k.wid l.slabs cap img))).getD (mkPlain k.wid img))) ∧
      (s.me.v[f.vd].full = true →
        (a.kind = .dictionary → exec (.vdictExtract f) s = .next (s.ran (.vdictExtract f) u fun c => c.vDone f.vd (mkPlain k.wid a.vals))) ∧
        (a.kind ≠ .dictionary → exec (.vdictExtract f) s = .next (laneTrap (s.entered (.vdictExtract f) u) .encKind (Config.tval s.tick) 0)))) ∧
    (∀ f : VV,
      let u : Issue := { regs := [f.vd.val, f.va.val, f.vb.val], reads := none, writes := none }
      let l := s.laneFor u
      let k := l.fmt
      let a := sourceView s.me f.va k.wid
      let b := sourceView s.me f.vb k.wid
      s.CanRun u → k.valid = true → s.me.Readable f.va → s.me.Readable f.vb → s.me.v[f.vd].full = true →
      (a.kind = .dictionary →
        exec (.vdictReplace f) s = .next (s.ran (.vdictReplace f) u fun c => c.vDone f.vd (mkDict k.wid ((List.range a.vals.length).map b.at) a.codes a.tag))) ∧
      (a.kind ≠ .dictionary → exec (.vdictReplace f) s = .next (laneTrap (s.entered (.vdictReplace f) u) .encKind (Config.tval s.tick) 0)) ∧
      (b.kind ≠ .dictionary → exec (.vencq f) s = .next (laneTrap (s.entered (.vencq f) u) .encKind (Config.tval s.tick) 0)) ∧
      (b.kind = .dictionary →
        let rs := (List.range (l.vlmax / k.wid)).map fun e => if e < l.vl then quantCode k ((b.vals.map (toWide k)).zipIdx) (a.at e) else (0, 0)
        exec (.vencq f) s = .next (s.ran (.vencq f) u fun c =>
          addFlags (c.vDone f.vd (mkDict k.wid b.vals (rs.map (·.1)) b.tag)) (rs.foldl (fun fl r => fl ||| r.2) 0))))

/-! Vector memory. -/

/-- The amax history, scales and packing (R79, R80, R227, R228): VAMAX pushes the largest magnitude among the active numbers, rounded up to FP32, VSCL gives the scale of R80, VUNPK and VPACK convert between one wide group and one narrow register, element by element, in ascending order. A scale the rules state no result for is free (log 7); that their roundings to FP32 raise no flags is log 52. -/
def Obligations.ScaleAndPackResults : Prop :=
  ∀ (s : State),
    (∀ f : VA1,
      let u : Issue := { regs := [f.va.val], reads := none, writes := none }
      let l := (s.laneFor u).indivisible
      let k := l.fmt
      let v := sourceView s.me f.va k.wid
      let xs := (activeElems l s.me.m[l.mreg].toNat).map fun e => toWide k (v.at e)
      let ok := xs.filter fun x => x.cls != .nan
      let m := toF32 (ok.foldl (fun m x => maxNum m { x with neg := false }) (Sys2Proof.Machine.Num.zero false)) .rup
      s.CanRun u → k.valid = true → s.me.Readable f.va →
      ∃ t, exec (.vamax f) s = .next (freeTails t) ∧ s.OnlyMe t ∧ t.me.fc.amax[(0 : Fin 16)] = BitVec.ofNat 32 m ∧
        (∀ i : Fin 16, ∀ j : Fin 16, j.val + 1 = i.val → t.me.fc.amax[i] = s.me.fc.amax[j]) ∧
        t.me.fc.flags = s.me.fc.flags ||| (if ∃ x ∈ xs, x.cls = .nan then BitVec.ofNat 5 fNV else 0) ∧ t.me.v = s.me.v ∧ t.me.pc = s.me.pc + 4) ∧
    (∀ f : VSclForm,
      let u : Issue := { regs := [], reads := none, writes := some f.sd }
      let l := s.laneFor u
      let k := fmtOf (l.ent f.ent.val)
      let n := if f.n.val = 0 then 16 else f.n.val
      let ms := (s.me.fc.amax.toList.take n).map fun a => ofF32 a.toNat
      s.CanRun u → k.valid = true →
      ∃ t, exec (.vscl f) s = .next (freeTails t) ∧ s.OnlyMe t ∧ t.me.fc = s.me.fc ∧ t.me.v = s.me.v ∧ t.me.pc = s.me.pc + 4 ∧
        (f.sd ≠ 0 → t.me.sget f.sd = BitVec.ofNat 64 (delayedScale s.tick ms k)) ∧
        (ms ≠ [] → (∀ x ∈ ms, x.cls = .zero) → f.sd ≠ 0 → t.me.sget f.sd = BitVec.ofNat 64 0x3F800000)) ∧
    (∀ f : VPkForm, ∀ m : Nat,
      let w := s.me.vtFmt
      let k := fmtOf (entWord s.me.ents f.ent.val)
      let mask (l : Lane) := s.me.m[l.mreg].toNat
      packRatio w k = some m → w.valid = true → k.valid = true →
      (let u : Issue := { regs := packRegs s.me f.ent f.vd f.va, reads := none, writes := none }
       let l := (s.laneFor u).indivisible
       let n := l.vlmax / w.wid
       s.CanRun u → s.me.Readable f.va → (∀ d ∈ (groupRegs f.vd m).zipIdx, s.me.Writable d.1 (wholeFrom l (mask l) (d.2 * n) n)) →
       ∃ t, packInto l (mask l) w.wid n (sourceView s.me f.va k.wid).at (fun c seed => convert c k w (roundingMode s.me.fc.rmo w) seed) (groupRegs f.vd m).zipIdx
           (s.entered (.vunpk f) u) = .ok () t ∧
         exec (.vunpk f) s = .next (laneRetire (t.modMe fun c => { c with vc := { c.vc with vstart := 0 } }))) ∧
      (let u : Issue := { regs := packRegs s.me f.ent f.va f.vd, reads := none, writes := none }
       let l := (s.laneFor u).indivisible
       let n := l.vlmax / k.wid
       let nw := l.vlmax / w.wid
       let vs := (groupRegs f.va m).map fun r => sourceView s.me r w.wid
       let old := if wholeFrom l (mask l) 0 n then View.plain [] else oldView s.me f.vd k.wid
       let x := packElems l (mask l) 0 old (fun e => match vs[e / nw]? with | some v => v.at (e % nw) | none => 0)
         (fun c seed => convert c w k (roundingMode s.me.fc.rmo k) seed) (Raised.start s.me.fc.seed) (List.range n)
       s.CanRun u → (∀ r ∈ groupRegs f.va m, s.me.Readable r) → s.me.Writable f.vd (l.whole (mask l) n) →
       exec (.vpack f) s = .next (s.ran (.vpack f) u fun c =>
         let c := applyRaised (putRes c f.vd (encodeElems l k.wid x.1) (l.tail k.wid)) x.2
         { c with vc := { c.vc with vstart := 0 } })))

/-- VLD, VLDB and VLDSEG (R64, R188, R189, R192, R193), without the hint to read ahead, on a bound, readable, plain stream with nothing read ahead or prepared, every element's bytes in the core's own pool: each Written element that is no edge element takes the little-endian code at its address (the packed bits, or the record's fields in turn), for VLD and VLDB converted from the stream's entry to VTYPE's where their words differ, any other its old value, or 0 past VL under ERULE.TD; the stream moves on by VL; VSTART is 0. Fault-only-first (R97, R154, R192), said of the loop of a load that trims: where element e, above the first Written one, faults while every element before it is read, those are kept, VL becomes e, the stream moves by e and nothing is raised; a fault at the first Written element, where that is the element at VSTART, raises its cause with VSTART there, and writes nothing. The order of the checks of two entries is the reading of log 20. -/
def Obligations.StreamLoadResults : Prop :=
  (∀ (s : State) (q : Fin 16),
    let l := s.laneFor { regs := [], reads := none, writes := none }
    let k := l.fmt
    let r := s.me.q[q]
    let d := r.desc
    let n := l.vlmax / k.wid
    let elems := streamElems l r s.me.m[l.mreg].toNat
    let pos (e : Nat) := elemPos l d r.pos.toNat e
    let ms := fmtOf (l.ent d.ent)
    let read (a w : Nat) := memRead s.myCore.pool (a - 0x00F0000000000000) w
    let inPool (a w : Nat) : Prop := s.PoolAt a w .read (a - 0x00F0000000000000) ∧ portOk d.port a = true
    let img (r : Fin 32) (g : Nat → Nat) := (List.range n).map fun e => if e ∈ elems then g e else if l.vl ≤ e ∧ l.td = true then 0 else (oldView s.me r k.wid).at e
    let whole := l.whole s.me.m[l.mreg].toNat n && !(List.range n).any (isEdge l d r.pos.toNat)
    let moved (c : Ctx) : Ctx := { c with q := c.q.set q { r with pos := BitVec.ofNat 48 (advancePos l d r.pos.toNat l.vl), early := [] } }
    let codes (raw : Nat → Nat) := s.movedCodes l d.ent l.entNo true elems raw
    let loaded (vd : Fin 32) (raw : Nat → Nat) (c : Ctx) : Ctx :=
      moved ((applyRaised c (codes raw).2).vDone vd (encodeElems l k.wid (img vd fun e => (((codes raw).1.find? fun p => p.1 == e).map (·.2)).getD 0)) (l.tail k.wid))
    r.bound = true → d.writes = false → d.lay = false → r.prep = [] → r.early = [] → k.valid = true → l.vstart < l.vl →
    (∀ e ∈ elems, pos e < d.total) →
    (∀ f : VLdForm, f.q = q → f.hint ≠ 4 → s.CanRun { regs := [f.vd.val], reads := none, writes := none } → s.me.Writable f.vd whole →
      ms.valid = true → 8 ≤ ms.wid →
      let a (e : Nat) := (elemSpot d none s.me.vc.vs (pos e) 0).va
      (∀ e ∈ elems, inPool (a e) (ms.wid / 8)) →
      exec (.vld f) s = .next (s.ran (.vld f) { regs := [f.vd.val], reads := none, writes := none } (loaded f.vd fun e => read (a e) (ms.wid / 8)))) ∧
    (∀ f : VLdbForm, f.q = q → f.hint ≠ 4 → s.CanRun { regs := [f.vd.val], reads := none, writes := none } → s.me.Writable f.vd whole →
      ms.valid = true → ms.wid = 4 ∨ ms.wid = 6 →
      let spot (e : Nat) := elemSpot d (some ms.wid) s.me.vc.vs (pos e) f.off.val
      let bytes (e : Nat) := ((spot e).bit + ms.wid + 7) / 8
      (∀ e ∈ elems, ∀ i, i < bytes e → inPool ((spot e).va + i) 1) →
      exec (.vldb f) s = .next (s.ran (.vldb f) { regs := [f.vd.val], reads := none, writes := none }
        (loaded f.vd fun e => nbits (read (spot e).va (bytes e)) (spot e).bit ms.wid))) ∧
    (∀ f : VSegForm, f.q = q → f.hint ≠ 4 →
      let w := 2 ^ f.fw.val
      let u : Issue := { regs := (List.range (f.nf.val + 1)).map fun i => f.vd.val + i, reads := none, writes := none }
      let a (e i : Nat) := (elemSpot d none s.me.vc.vs (pos e) 0).va + i * w
      s.CanRun u → k.wid = 8 ∨ k.wid = 16 ∨ k.wid = 32 →
      (∀ i, i ≤ f.nf.val → s.me.Writable (Fin.ofNat 32 (f.vd.val + i)) whole) →
      (∀ e ∈ elems, ∀ i, i ≤ f.nf.val → inPool (a e i) w) →
      ∃ t, exec (.vldseg f) s = .next (freeTails t) ∧ s.OnlyMe t ∧ t.me.pc = s.me.pc + 4 ∧ t.me.vc.vstart = 0 ∧ t.me.q = (moved s.me).q ∧
        (∀ i, i ≤ f.nf.val → t.me.v[Fin.ofNat 32 (f.vd.val + i)] =
          { encodeElems l k.wid (img (Fin.ofNat 32 (f.vd.val + i)) fun e => extField f.sx (8 * w) k.wid (read (a e i) w)) with full := true, dirty := true, pois := false }) ∧
        (∀ r : Fin 32, (∀ i, i ≤ f.nf.val → r.val ≠ f.vd.val + i) → t.me.v[r] = s.me.v[r]))) ∧
  (∀ (s : State) (l : Lane) (sew : Nat) (regs : List (Fin 32)) (elems : List Nat) (fetch : Nat → M (List Nat)) (advance : Nat → M Unit) (r : ElemRun (List Nat)) (u : State) (e : Nat) (x : Exc),
    tryElems fetch elems s = .ok r u → r.fault = some (e, x) → l.noTrim = false → l.stop = none →
    (elems.head? ≠ some e → x ≠ .split →
      loadRun l sew regs elems true fetch advance s =
        (do
          loadWrite l sew e l.td regs r.vals
          modMe fun c => { c with vc := { c.vc with vl := BitVec.ofNat 64 e } }
          advance e
          modMe fun c => { c with vc := { c.vc with vstart := 0 } }) u) ∧
    (elems.head? = some e → e ≤ l.vstart →
      loadRun l sew regs elems true fetch advance s = .error x (u.modMe fun c => { c with vc := { c.vc with vstart := BitVec.ofNat 64 e } })))

/-- VST and VSTSEG (R64, R188, R189, R196) on a bound, writable, plain stream with nothing prepared, every element's bytes in the core's own pool: each Written element that is no edge element, for VST converted from VTYPE's entry to the stream's, is stored at its address, in order, the fields of a record in turn, and no other byte of the pool or of memory changes; the stream moves on by VL; VSTART is 0. Sub-byte elements change their bits alone. The order of the checks of two entries is the reading of log 20. -/
def Obligations.StreamStoreResults : Prop :=
  ∀ (s : State) (q : Fin 16),
    let l := s.laneFor { regs := [], reads := none, writes := none }
    let k := l.fmt
    let r := s.me.q[q]
    let d := r.desc
    let elems := streamElems l r s.me.m[l.mreg].toNat
    let pos (e : Nat) := elemPos l d r.pos.toNat e
    let off (a : Nat) := a - 0x00F0000000000000
    let inPool (a w : Nat) : Prop := s.PoolAt a w .write (off a) ∧ portOk d.port a = true
    let stored (i : Instr) (u : Issue) (m : Memory) (x : Raised) : Prop :=
      exec i s = .next (laneRetire (((s.entered i u).storing elems fun c => { c with pool := m }).modMe fun c =>
        let c := applyRaised c x
        { c with q := c.q.set q { r with pos := BitVec.ofNat 48 (advancePos l d r.pos.toNat l.vl) }, vc := { c.vc with vstart := 0 } }))
    let ms := fmtOf (l.ent d.ent)
    r.bound = true → d.writes = true → d.lay = false → r.prep = [] → k.valid = true → l.vstart < l.vl → (∀ e ∈ elems, pos e < d.total) →
    (∀ f : VStForm, f.q = q → s.CanRun { regs := [f.vs.val], reads := none, writes := none } → s.me.Readable f.vs → ms.valid = true →
      let codes := s.movedCodes l l.entNo d.ent false elems (sourceView s.me f.vs k.wid).at
      (8 ≤ ms.wid →
        let a (e : Nat) := (elemSpot d none s.me.vc.vs (pos e) 0).va
        (∀ e ∈ elems, inPool (a e) (ms.wid / 8)) →
        let m := codes.1.foldl (fun m x => memWrite m (off (a x.1)) (ms.wid / 8) x.2) s.myCore.pool
        stored (.vst f) { regs := [f.vs.val], reads := none, writes := none } m codes.2 ∧
        ∀ b, (∀ e ∈ elems, b < off (a e) ∨ off (a e) + ms.wid / 8 ≤ b) → memGet m b = s.poolByte s.cur.core.val b) ∧
      (ms.wid = 4 ∨ ms.wid = 6 →
        let spot (e : Nat) := elemSpot d (some ms.wid) s.me.vc.vs (pos e) 0
        let bytes (e : Nat) := ((spot e).bit + ms.wid + 7) / 8
        (∀ e ∈ elems, ∀ i, i < bytes e → inPool ((spot e).va + i) 1) →
        stored (.vst f) { regs := [f.vs.val], reads := none, writes := none } (codes.1.foldl (fun m x =>
          let t := spot x.1
          let old := memRead m (off t.va) (bytes x.1)
          memWrite m (off t.va) (bytes x.1) (old - nbits old t.bit ms.wid * 2 ^ t.bit + x.2 % 2 ^ ms.wid * 2 ^ t.bit)) s.myCore.pool) codes.2)) ∧
    (∀ f : VStSegForm, f.q = q →
      let w := 2 ^ f.fw.val
      let u : Issue := { regs := (List.range (f.nf.val + 1)).map fun i => f.vs.val + i, reads := none, writes := none }
      let a (e i : Nat) := (elemSpot d none s.me.vc.vs (pos e) 0).va + i * w
      s.CanRun u → k.wid = 8 ∨ k.wid = 16 ∨ k.wid = 32 → (∀ i, i ≤ f.nf.val → s.me.Readable (Fin.ofNat 32 (f.vs.val + i))) →
      (∀ e ∈ elems, ∀ i, i ≤ f.nf.val → inPool (a e i) w) →
      stored (.vstseg f) u (elems.foldl (fun m e => (List.range (f.nf.val + 1)).foldl (fun m i =>
        memWrite m (off (a e i)) w (extField f.sx k.wid (8 * w) ((sourceView s.me (Fin.ofNat 32 (f.vs.val + i)) k.wid).at e))) m) s.myCore.pool) (Raised.start s.me.fc.seed))

/-- VGATH, VGATHP and VSCAT (R199, R200) with every element in the core's own pool: the element at scalar base plus index times element size, for each Written element in order; the others keep their value, or are 0 past VL under ERULE.TD. The lane tables (R201), no word of which that is reached is poisoned: element e uses table e mod 64 at index times element size; VLTLD reads, VLTST writes, VLTADD adds in element order, modulo the width for an integer entry and with one rounding for a floating-point one; an index past the table's 4,096 bytes at the first element makes VLTST raise LT_RANGE with the element's number in TVAL, VSTART holding it. The vector atomics (R202) on words of the core's own pool, in element order: vd takes each old word, and the word the sum, the larger by the entry's values, or, where it equals vd's element, the element of the next register. -/
def Obligations.IndexedAccessResults : Prop :=
  (∀ (f : VS) (s : State),
    let u : Issue := { regs := [f.va.val, f.vd.val], reads := some f.sb, writes := none }
    let l := s.laneFor u
    let k := l.fmt
    let w := k.wid / 8
    let n := l.vlmax / k.wid
    let mask := s.me.m[l.mreg].toNat
    let elems := (List.range l.vl).filter (l.written mask)
    let idx := sourceView s.me f.va k.wid
    let a (e : Nat) : Nat := (s.me.sget f.sb + BitVec.ofNat 64 (idx.at e * w)).toNat
    let off (e : Nat) := a e - 0x00F0000000000000
    s.CanRun u → k.valid = true → k.wid = 8 ∨ k.wid = 16 ∨ k.wid = 32 → s.me.Readable f.va → l.vstart < l.vl →
    ((∀ e ∈ elems, s.PoolAt (a e) w .read (off e)) → s.me.Writable f.vd (l.whole mask n) →
      let img := (List.range n).map fun e =>
        if e ∈ elems then memRead s.myCore.pool (off e) w else if l.vl ≤ e ∧ l.td = true then 0 else (oldView s.me f.vd k.wid).at e
      exec (.vgath f) s = .next (s.ran (.vgath f) u fun c => c.vDone f.vd (encodeElems l k.wid img) (l.tail k.wid)) ∧
      exec (.vgathp f) s = .next (s.ran (.vgathp f) u fun c => c.vDone f.vd (encodeElems l k.wid img) (l.tail k.wid))) ∧
    ((∀ e ∈ elems, s.PoolAt (a e) w .write (off e)) → s.me.Readable f.vd →
      let m := elems.foldl (fun m e => memWrite m (off e) w ((sourceView s.me f.vd k.wid).at e)) s.myCore.pool
      exec (.vscat f) s = .next (laneRetire (((s.entered (.vscat f) u).storing elems fun c => { c with pool := m }).modMe fun c => { c with vc := { c.vc with vstart := 0 } })) ∧
      ∀ b, (∀ e ∈ elems, b < off e ∨ off e + w ≤ b) → memGet m b = s.poolByte s.cur.core.val b)) ∧
  (∀ (f : VU) (s : State),
    let u : Issue := { regs := [f.vd.val, f.va.val], reads := none, writes := none }
    let l := s.laneFor u
    let k := l.fmt
    let w := k.wid / 8
    let n := l.vlmax / k.wid
    let mask := s.me.m[l.mreg].toNat
    let elems := (List.range l.vl).filter (l.written mask)
    let idx := sourceView s.me f.va k.wid
    let data := sourceView s.me f.vd k.wid
    let spot (e : Nat) := e % 64 * 4096 + idx.at e * w
    let tables (i : Instr) (m : Memory) (x : Raised := Raised.start s.me.fc.seed) : Prop :=
      exec i s = .next (laneRetire (((s.entered i u).storing elems fun c => { c with lanes := m }).modMe fun c =>
        let c := applyRaised c x
        { c with vc := { c.vc with vstart := 0 } }))
    let mode := roundingMode s.me.fc.rmo k
    let sum (old d : Nat) (seed : BitVec 32) : Coded :=
      let a := toWide k old
      let b := toWide k d
      let x := exactOf [a, b] (a.add b (mode == .rdn))
      let c := fromWide x.num k mode seed
      { c with flags := c.flags ||| x.flags }
    s.CanRun u → k.valid = true → k.wid = 8 ∨ k.wid = 16 ∨ k.wid = 32 → s.me.Readable f.va → l.vstart < l.vl →
    ((∀ e ∈ elems, idx.at e * w + w ≤ 4096 ∧ ∀ p ∈ s.myCore.lanePoison, p * 8 + 8 ≤ spot e ∨ spot e + w ≤ p * 8) →
      (s.me.Writable f.vd (l.whole mask n) →
        exec (.vltld f) s = .next (s.ran (.vltld f) u fun c => c.vDone f.vd (encodeElems l k.wid ((List.range n).map fun e =>
          if e ∈ elems then memRead s.myCore.lanes (spot e) w else if l.vl ≤ e ∧ l.td = true then 0 else (oldView s.me f.vd k.wid).at e)) (l.tail k.wid))) ∧
      (s.me.Readable f.vd →
        tables (.vltst f) (elems.foldl (fun m e => memWrite m (spot e) w (data.at e)) s.myCore.lanes) ∧
        (k.kind ≠ 0 → tables (.vltadd f) (elems.foldl (fun m e => memWrite m (spot e) w (intMod k.wid (k.val (memRead m (spot e) w) + k.val (data.at e)))) s.myCore.lanes)) ∧
        (k.kind = 0 →
          let r := elems.foldl (fun (p : Memory × Raised) e =>
            let c := sum (memRead p.1 (spot e) w) (data.at e) p.2.seed
            (memWrite p.1 (spot e) w c.code, p.2.add c 1 0 0)) (s.myCore.lanes, Raised.start s.me.fc.seed)
          tables (.vltadd f) r.1 r.2))) ∧
    (s.me.Readable f.vd → ∀ e, elems.head? = some e → 4096 < idx.at e * w + w →
      exec (.vltst f) s = .next (laneTrap ((s.entered (.vltst f) u).modMe fun c => { c with vc := { c.vc with vstart := BitVec.ofNat 64 e } }) .ltRange (BitVec.ofNat 64 e) 0))) ∧
  (∀ (f : VS) (s : State),
    let run (i : Instr) (second : Bool) (new : Fmt → Nat → Nat → Nat → Option Nat) : Prop :=
      let u : Issue := { regs := [f.va.val, f.vd.val] ++ (if second then [f.vd.val + 1] else []), reads := some f.sb, writes := none }
      let l := s.laneFor u
      let k := l.fmt
      let mask := s.me.m[l.mreg].toNat
      let elems := (List.range l.vl).filter (l.written mask)
      let d := sourceView s.me f.vd 32
      let d2 := sourceView s.me (Fin.ofNat 32 (f.vd.val + 1)) 32
      let off (e : Nat) : Nat := (s.me.sget f.sb + BitVec.ofNat 64 ((sourceView s.me f.va 32).at e * 4)).toNat - 0x00F0000000000000
      let r := elems.foldl (fun (p : State × List (Nat × Nat)) e =>
        let old := memRead p.1.myCore.pool (off e) 4
        (match new k old (d.at e) (d2.at e) with
          | some v => p.1.modMyCore fun c => { c with pool := memWrite c.pool (off e) 4 v }
          | none => p.1, p.2 ++ [(e, old)])) (s.entered i u, [])
      let img := (List.range (l.vlmax / 32)).map fun e => match r.2.find? (fun p => p.1 == e) with
        | some p => p.2
        | none => if l.vl ≤ e ∧ l.td = true then 0 else (oldView s.me f.vd 32).at e
      s.CanRun u → k.valid = true → k.kind ≠ 0 → k.wid = 32 → s.me.Readable f.va → s.me.Readable f.vd → (second = true → s.me.Readable (Fin.ofNat 32 (f.vd.val + 1))) →
      l.vstart < l.vl → (∀ e ∈ elems, s.PoolAt (off e + 0x00F0000000000000) 4 .write (off e) ∧
        0x00F0000000000000 ≤ (s.me.sget f.sb + BitVec.ofNat 64 ((sourceView s.me f.va 32).at e * 4)).toNat) →
      exec i s = .next (laneRetire (r.1.modMe fun c => c.vDone f.vd (encodeElems l 32 img) (l.tail 32)))
    run (.vamoadd f) false (fun _ old d _ => some ((old + d) % 2 ^ 32)) ∧
    run (.vamomax f) false (fun k old d _ => some (if k.val old < k.val d then d else old)) ∧
    run (.vamocas f) true (fun _ old d d2 => if old = d then some d2 else none))

/-! Encoded blocks and spill frames. -/

/-- VLDE, VSTE, VSPL and VFIL (R194, R195, R197, R198, R427) on a bound stream of blocks or frames with nothing read early or prepared, not at its end, every word in the own core's pool. VLDE makes the register of the block's elements from the stream's offset on, VL their number, and moves to the next block. VSTE writes header, values and index area of the first VL elements, and the index moves by one. VSPL writes the frame of VL, metadata, width, declaration and image; VFIL restores the register from it. VSTART is 0; nothing else changes. The acceptance of a larger BYTES and the VSTART of a frame are the readings of log 21. -/
def Obligations.BlockResults : Prop :=
  ∀ (s : State) (q : Fin 16),
    let l := s.laneFor { regs := [], reads := none, writes := none }
    let k := l.fmt
    let r := s.me.q[q]
    let d := r.desc
    let n := l.vlmax / k.wid
    let off (a : Nat) := a - 0x00F0000000000000
    let read (a m : Nat) := memRead s.myCore.pool (off a) m
    let pos := r.pos.toNat
    let stored (i : Instr) (u : Issue) (m : Memory) (r' : QReg) : Prop :=
      exec i s = .next (laneRetire (((s.entered i u).modMyCore fun c => { c with pool := m }).modMe fun c =>
        { c with q := c.q.set q r', vc := { c.vc with vstart := 0 } }))
    let frame := (d.base.toNat + pos / 2 ^ 17 * (64 + l.vlmax / 8)) % 2 ^ 64
    let next := { r with pos := r.pos + 0x20000, block := none, early := [] }
    r.bound = true → d.lay = true → r.prep = [] → r.early = [] → r.atEnd = false → k.valid = true →
    (∀ (f : VLdForm) (va : Nat), f.q = q → f.hint ≠ 4 → d.writes = false → s.CanRun { regs := [f.vd.val], reads := none, writes := none } → s.me.v[f.vd].full = true →
      r.block = some (BitVec.ofNat 64 va) → va < 2 ^ 56 →
      let p := pos % 2 ^ 17
      let h := read va 64
      let b := blkOf h
      let v := read (va + 64) b.vb
      let ix := b.idx (8 * b.ib) (read (va + 64 + b.vb) b.ib)
      let g := b.n - p
      s.PoolSpan d.port va 64 .read true (off va) → s.PoolSpan d.port (va + 64) b.vb .read true (off (va + 64)) →
      s.PoolSpan d.port (va + 64 + b.vb) b.ib .read true (off (va + 64 + b.vb)) →
      b.ok h l.slabs k.isInt = true → b.sew = k.wid → b.n ≤ n → p < b.n → b.idxOk ix = true →
      exec (.vlde f) s = .next (s.ran (.vlde f) { regs := [f.vd.val], reads := none, writes := none } fun c =>
        let c' := putV c f.vd (b.slice l.slabs n (newTag c) p g v ix)
        { c' with
          vc := { c'.vc with vl := BitVec.ofNat 64 g, vstart := 0 }
          q := c.q.set q { r with pos := BitVec.ofNat 48 ((pos / 2 ^ 17 + 1) * 2 ^ 17), block := some (BitVec.ofNat 64 (va + b.bytes)), early := [] } })) ∧
    (∀ (f : VStForm) (va : Nat), f.q = q → d.writes = true → s.CanRun { regs := [f.vs.val], reads := none, writes := none } → s.me.Readable f.vs →
      r.block = some (BitVec.ofNat 64 va) → va < 2 ^ 56 → pos % 2 ^ 17 = 0 → l.vl ≠ 0 →
      let b := blockOf (sourceView s.me f.vs k.wid) k.wid (min l.vl n)
      s.PoolSpan d.port va b.1.bytes .write true (off va) →
      let m := memWrite s.myCore.pool (off va) b.1.bytes (b.1.header + 2 ^ 512 * b.2.1 + 2 ^ (8 * (64 + b.1.vb)) * b.2.2)
      stored (.vste f) { regs := [f.vs.val], reads := none, writes := none } m
        { r with pos := BitVec.ofNat 48 ((pos / 2 ^ 17 + 1) * 2 ^ 17), block := some (BitVec.ofNat 64 (va + b.1.bytes)) } ∧
      ∀ a, a < off va ∨ off va + b.1.bytes ≤ a → memGet m a = s.poolByte s.cur.core.val a) ∧
    (∀ f : VStForm, f.q = q → d.writes = true → s.CanRun { regs := [f.vs.val], reads := none, writes := none } → s.me.Readable f.vs → pos % 2 ^ 17 = 0 →
      let x := if s.me.vc.vlive.getLsbD f.vs.val then s.me.v[f.vs] else VReg.dead
      let plain := x.kind == .plain
      let body := if plain then min (l.vlmax / 8) ((l.vl * k.wid + 7) / 8) else l.vlmax / 8
      let img := if plain then x.img.toNat % 2 ^ (min l.vl n * k.wid) else x.img.toNat % 2 ^ l.vlmax
      let head := l.vl + 2 ^ 64 * ({ x with full := false, dirty := false, pois := false } : VReg).meta + 2 ^ 128 * k.wid + 2 ^ 136 * l.eff.toNat
      s.PoolSpan d.port frame (64 + body) .write false (off frame) →
      let m := memWrite s.myCore.pool (off frame) (64 + body) (head + 2 ^ 512 * img)
      stored (.vspl f) { regs := [f.vs.val], reads := none, writes := none } m next ∧
      ∀ a, a < off frame ∨ off frame + (64 + body) ≤ a → memGet m a = s.poolByte s.cur.core.val a) ∧
    (∀ f : VLdForm, f.q = q → f.hint ≠ 4 → d.writes = false → s.CanRun { regs := [f.vd.val], reads := none, writes := none } → s.me.v[f.vd].full = true → pos % 2 ^ 17 = 0 →
      let h := read frame 64
      let w := nbits h 64 64
      let plain := kindOf w == .plain
      let vl := nbits h 0 64
      let body := if plain then min (l.vlmax / 8) ((vl * k.wid + 7) / 8) else l.vlmax / 8
      let bits := read (frame + 64) body
      let img := if plain then bits % 2 ^ (min vl n * k.wid) else bits
      s.PoolSpan d.port frame 64 .read false (off frame) → s.PoolSpan d.port (frame + 64) body .read false (off (frame + 64)) →
      nbits h 128 8 = k.wid → nbits h 136 8 = l.eff.toNat → savedOk w img l.vlmax k.isInt = true →
      exec (.vfil f) s = .next (s.ran (.vfil f) { regs := [f.vd.val], reads := none, writes := none } fun c =>
        let c' := putV c f.vd (regOf w img)
        { c' with vc := { c'.vc with vstart := 0 }, q := c.q.set q next }))

/-! The matrix array. -/

/-- Operand slots (R207 to R211, R220), no earlier MREL of the slot waiting: MCLAIM takes free slots, and raises SLOT_STATE when one is not; MREL frees an owned slot nothing earlier uses and steps aside for one in use, later instructions going on; of a slot not owned, and of the odd member of a double, it raises SLOT_OWNER. MLD fills the lines from l0 on with the stream's next codes and MLDS the side area, each moving its stream, where nothing earlier fills or reads the slot, nothing was read ahead and every element lies in the own core's pool. The TVAL of SLOT_STATE and SLOT_OWNER is free (log 7); the state a slot is found in is the reading of log 22. -/
def Obligations.SlotResults : Prop :=
  ∀ (s : State),
    let u : Issue := { regs := [], reads := none, writes := none }
    let l := s.laneFor u
    let slots (i : Instr) (g : Vector Slot 32 → Vector Slot 32) (h : Ctx → Ctx) (healed : Nat → Bool := fun _ => false) : Prop :=
      exec i s = .next (laneRetire (((s.entered i u).modMyCore fun c => { c with slots := g c.slots, slotPoison := c.slotPoison.filter fun p => !healed p }).modMe h))
    let here : Place := .entry (s.me.vIn + 1)
    let free (n : Fin 32) : Prop := slotView s s.cur n here ≠ .filling ∧ awaitsRelease s s.cur n = false ∧ s.myCore.slots[n].mld = false ∧
      (∀ c ∈ openScales s s.cur n, c.before' here = false) ∧
      ∀ c ∈ ctxCmds s s.cur, c.before' here = true → c.followed = false → n ∉ followSlots c
    let covers (n : Fin 32) (a b : Nat) (p : Nat) : Bool := p / 1056 == n.val && a ≤ p % 1056 * 8 && p % 1056 * 8 + 8 ≤ b
    s.CanRun u →
    (∀ f : MClaimForm, (∀ n ∈ claimSet f.slot f.w, awaitsRelease s s.cur n = false) →
      ((∀ n ∈ claimSet f.slot f.w, s.myCore.slots[n].st = .free) →
        slots (.mclaim f) (fun v => (claimSet f.slot f.w).foldl (fun (v : Vector Slot 32) (n : Fin 32) => v.set n (v[n].claim s.cur.lc f.w)) v) id) ∧
      ((∃ n ∈ claimSet f.slot f.w, s.myCore.slots[n].st ≠ .free) →
        exec (.mclaim f) s = .next (laneTrap (s.entered (.mclaim f) u) .slotState (Config.tval s.tick) 0))) ∧
    (∀ f : MRelForm,
      let k := s.myCore.slots[f.slot]
      (k.ownedBy s.cur.lc = true → (k.dbl = true → f.slot.val % 2 = 0) → awaitsRelease s s.cur f.slot = false →
        ((∀ n ∈ claimSet f.slot k.dbl, slotBusy s s.cur n here = false) →
          slots (.mrel f) (fun v => (claimSet f.slot k.dbl).foldl (fun (v : Vector Slot 32) (n : Fin 32) => v.set n { v[n] with st := .free, dbl := false }) v) id) ∧
        ((∃ n ∈ claimSet f.slot k.dbl, slotBusy s s.cur n here = true) →
          exec (.mrel f) s = .next (s.ran (.mrel f) u fun c => { c with rels := c.rels ++ [s.entryFor (.mrel f) u] }))) ∧
      (k.ownedBy s.cur.lc = false ∨ (k.dbl = true ∧ f.slot.val % 2 = 1) →
        exec (.mrel f) s = .next (laneTrap (s.entered (.mrel f) u) .slotOwner (Config.tval s.tick) 0))) ∧
    (∀ f : MLdForm,
      let k := s.myCore.slots[f.slot]
      let r := s.me.q[f.q]
      let m := fmtOf (l.ent r.desc.ent)
      let odd := k.dbl && f.slot.val % 2 == 1
      let n := lineLen m.wid
      let l0 := f.l0.val
      let packed := m.wid == 4 || m.wid == 6
      let spot (p : Nat) := elemSpot r.desc (if packed then some m.wid else none) s.me.vc.vs p 0
      let bytes (p : Nat) := ((spot p).bit + m.wid + 7) / 8
      let code (p : Nat) := nbits (memRead s.myCore.pool ((spot p).va - 0x00F0000000000000) (bytes p)) (spot p).bit m.wid
      let inPool (a w : Nat) : Prop := s.PoolAt a w .read (a - 0x00F0000000000000) ∧ portOk r.desc.port a = true
      let pos := r.pos.toNat
      k.ownedBy s.cur.lc = true → free f.slot → openFills s s.cur f.slot = [] →
      r.bound = true → r.desc.writes = false → r.desc.lay = false → r.prep = [] → m.valid = true → m.wid = 8 ∨ (odd = false ∧ (m.wid = 4 ∨ m.wid = 6 ∨ m.wid = 16)) →
      (l0 = 0 ∨ odd = true ∨ k.ent.val = r.desc.ent) →
      (∀ i, i < (64 - l0) * n → let p := pos + i
        p < r.desc.total ∧ if packed then ∀ b, b < bytes p → inPool ((spot p).va + b) 1 else inPool (spot p).va (m.wid / 8)) →
      slots (.mld f)
        (fun v => v.set f.slot { v[f.slot] with
          st := .full, mld := false
          data := BitVec.ofNat 65536 (k.data.toNat % 2 ^ (1024 * l0) +
            packLines m.wid l0 ((List.range (64 - l0)).map fun i => (i, (List.range n).map fun j => code (pos + i * n + j))))
          rows := 64
          ent := if odd then k.ent else Fin.ofNat 16 r.desc.ent
          dtag := if odd || l0 != 0 then k.dtag else BitVec.ofNat 8 (pos / (64 * n)) })
        (fun c => { c with fc := { c.fc with mrows := 64 }, q := c.q.set f.q { r with pos := BitVec.ofNat 48 (pos + (64 - l0) * n) } }) (covers f.slot (128 * l0) 8192)) ∧
    (∀ f : MLdsForm,
      let k := s.myCore.slots[f.slot]
      let r := s.me.q[f.q]
      let m := fmtOf (l.ent r.desc.ent)
      let n := sideBytes s.myCore f.slot * 8 / m.wid
      let a (p : Nat) := (elemSpot r.desc none s.me.vc.vs p 0).va
      let pos := r.pos.toNat
      let side := pack m.wid ((List.range n).map fun i => memRead s.myCore.pool (a (pos + i) - 0x00F0000000000000) (m.wid / 8))
      k.ownedBy s.cur.lc = true → free f.slot →
      r.bound = true → r.desc.writes = false → r.desc.lay = false → r.prep = [] → m.valid = true → m.wid = 8 ∨ m.wid = 32 →
      (∀ i, i < n → pos + i < r.desc.total ∧ s.PoolAt (a (pos + i)) (m.wid / 8) .read (a (pos + i) - 0x00F0000000000000) ∧ portOk r.desc.port (a (pos + i)) = true) →
      slots (.mlds f)
        (fun v =>
          let v' := v.set f.slot { v[f.slot] with side := BitVec.ofNat 2048 side, svalid := true, sw32 := m.wid == 32, stag := BitVec.ofNat 8 (pos / n) }
          if k.isDouble f.slot then v'.set (slotNext f.slot) { v'[slotNext f.slot] with side := BitVec.ofNat 2048 (side / 2 ^ 2048) } else v')
        (fun c => { c with fc := { c.fc with mrows := 64 }, q := c.q.set f.q { r with pos := BitVec.ofNat 48 (pos + n) } })
        fun p => covers f.slot 8192 8448 p || (k.isDouble f.slot && covers (slotNext f.slot) 8192 8448 p))

/-- The array's operations (R102, R103, R212 to R217, R219, R221) on a tile inside the accumulator partition, no word they read poisoned and nothing of the array in flight: MZERO clears tile and plane and their kinds; MMA, MMAS and MSLIDE leave the products' words in the tile or plane and set its kind; MPROM adds the scaled plane to the tile and clears the plane; MACCWR puts a block of rows converted from a register. Each takes the array's next number and has completed. MACCRD (R218): with a valid entry without block scaling and a block inside the tile, vd takes the block's rows converted into the entry, zero above, and flags, counts and seed move with the conversions. The tile stays. What a pruned position and rows past ROWS give is the reading of logs 23 and 52, the TVAL of a failing check that of log 22. -/
def Obligations.ArrayResults : Prop :=
  (∀ (s : State) (off : Nat),
    let none' : Issue := { regs := [], reads := none, writes := none }
    let done (i : Instr) (u : Issue) (put : Core → Core) (h : Ctx → Ctx) : Prop :=
      exec i s = .next (laneRetire (((s.entered i u).modMyCore fun c => (put c).arrayDone).modMe h))
    let zeros : List Nat := List.replicate 4096 0
    let at' (plane : Bool) := if plane then off + 16384 else off
    let kind (acc : Fin 16) (plane : Bool) (k : TileKind) (c : Ctx) : Ctx := if plane then { c with pk := c.pk.set acc k } else { c with tk := c.tk.set acc k }
    s.myCore.arr.ops = [] →
    (s.CanRun none' →
      let l := s.laneFor none'
      (∀ f : MZeroForm, s.TileAt f.acc off →
        done (.mzero f) none' (fun c => (c.tilePut off zeros).tilePut (off + 16384) zeros) (fun c => { c with tk := c.tk.set f.acc .none, pk := c.pk.set f.acc .none })) ∧
      (∀ f : MmaForm,
        let runs (i : Instr) (fn : MxFn) : Prop := s.ProductOk l fn f off →
          let p := s.planOf l fn f off
          done i none' (fun c => c.tilePut (at' f.p) (s.productWords fn f p)) (kind f.acc f.p (if p.int then .int32 else .fp32))
        runs (.mma f) .mma ∧ runs (.mmas f) .mmas ∧ runs (.mslide f) .mslide) ∧
      (∀ f : MPromForm,
        let ok (n : Fin 32) : Prop := s.SlotFull n ∧ s.myCore.slots[n].svalid = true ∧ s.myCore.slots[n].sw32 = true ∧ s.myCore.slots[n].stag = s.myCore.slots[n].dtag ∧
          slotBad s.myCore n false true = false
        let scale (n : Fin 32) (i : Nat) : Sys2Proof.Machine.Num := ofF32 (nbits s.myCore.slots[n].side.toNat (32 * i) 32)
        let pk := tileKind s s.cur f.acc true
        let tile := s.tileOf f.acc false off
        let plane := s.tileOf f.acc true off
        s.TileAt f.acc off → s.TileClean f.acc false off → s.TileClean f.acc true off → ok f.slotA → ok f.slotB → tileKind s s.cur f.acc false ≠ .int32 →
        done (.mprom f) none'
          (fun c => (c.tilePut off ((List.range 4096).map fun x =>
            promoteElem (ofF32 (tile.getD x 0)) (planeNum pk (plane.getD x 0)) (scale f.slotA (x / 64)) (scale f.slotB (x % 64)))).tilePut (off + 16384) zeros)
          (fun c => { c with tk := c.tk.set f.acc .fp32, pk := c.pk.set f.acc .none }))) ∧
    (∀ f : MAccWrForm,
      let u : Issue := { regs := [f.vs.val], reads := none, writes := none }
      let l := s.laneFor u
      let k := l.fmt
      let nr := min 64 (l.vlmax / k.wid / 64)
      let first := nr * f.blk.val
      let last := min 64 (first + nr)
      let v := sourceView s.me f.vs k.wid
      let t := s.tileOf f.acc false off
      let val (e : Nat) : Coded := if k.isInt then pureCode (intMod 32 (k.intValue (v.at e))) 0 else fromWide (toWide k (v.at e)) fp32 .rne 0
      let want : TileKind := if k.isInt then .int32 else .fp32
      s.CanRun u → k.valid = true → f.blk.val * nr < 64 → k.bsk = 0 → s.TileAt f.acc off → s.TileClean f.acc false off → s.me.Readable f.vs →
      tileKind s s.cur f.acc false = .none ∨ tileKind s s.cur f.acc false = want →
      done (.maccwr f) u (fun c => c.tilePut off ((List.range 4096).map fun x => if first * 64 ≤ x ∧ x < last * 64 then (val (x - first * 64)).code else t.getD x 0))
        fun c => addFlags { c with tk := c.tk.set f.acc want } ((List.range ((last - first) * 64)).foldl (fun a e => a ||| (val e).flags) 0)) ∧
    (∀ (c : Core) (ws : List Nat), ws.length = 4096 →
      (∀ x, x < 4096 → memRead (c.tilePut off ws).pool (off + 4 * x) 4 = ws.getD x 0 % 2 ^ 32) ∧
      ∀ a, a < off ∨ off + 16384 ≤ a → memGet (c.tilePut off ws).pool a = memGet c.pool a)) ∧
  (∀ (f : MAccRdForm) (s : State) (off : Nat),
    let u : Issue := { regs := [f.vd.val], reads := none, writes := none }
    let l := s.laneFor u
    let k := l.fmt
    let nr := min 64 (l.vlmax / k.wid / 64)
    let first := f.blk.val * nr
    let n := (min 64 (first + nr) - first) * 64
    let src := if tileKind s s.cur f.acc false = .int32 then int32Fmt else fp32
    let r := (List.range n).foldl (fun (a : List Nat × Raised) e =>
      let c := convert ((s.tileOf f.acc false off).getD (first * 64 + e) 0) src k (roundingMode s.me.fc.rmo k) a.2.seed f.sat
      (a.1 ++ [c.code], a.2.add c 1 0 0)) ([], Raised.start s.me.fc.seed)
    s.CanRun u → k.valid = true → f.blk.val * nr < 64 → k.bsk = 0 → s.TileAt f.acc off → s.TileClean f.acc false off → s.me.v[f.vd].full = true →
    exec (.maccrd f) s = .next (s.ran (.maccrd f) u fun c => applyRaised (putV c f.vd (encodeElems l k.wid (r.1 ++ List.replicate (l.vlmax / k.wid - n) 0))) r.2))

/-! Hardware steps: lanes, array, Tug, walk contexts. -/

/-- What comes to a loop context from its lanes (R26, R30, R33, R34, R36, R200, R309, R348, R402, R403): SLAB_FILL makes a slab of a vector register or mask that is not resident the most recently used one, once every lane group is awake, in a free slab or in place of the victim of R34 and R309, a dirty one written back to its context area; an idle lane group goes to retention once the instructions queued by then have completed, and wakes, poisoning the dirty registers of every context of the core that lost their content; a value in flight fills its register, a poisoned one stops the context with MEM_UE, but for a vector load that trims at the poisoned element; the last module's vector fills the destination of VGATHP. Where the condition does not hold nothing changes. Which slab goes first, a mask counting as dirty slabs, and what a wake loses are the reading of log 33; laneHeld is the model's own field (log 1). -/
def Obligations.LaneStepResults : Prop :=
  ∀ (s : State) (c : CtxId),
    let x := s.ctx c
    let z := s.core c.core.val
    (∀ (v : Fin 40) (slab : Fin 32),
      let b := (c.lc.val, v.val, slab.val)
      let ready := (if v.val < 32 then v.val < x.count ∧ slab.val < x.slabs else slab.val < x.slabs / 4) ∧ z.retained = 0 ∧ b ∉ z.slabs
      (ready → ∃ t : State, exec (.slabFill c v slab) s = .next t ∧ t.ctx c = { x with laneHeld := false } ∧ t.mem = s.mem ∧
        (z.slabs.length < 768 → (t.core c.core.val).slabs = z.slabs ++ [b] ∧ (t.core c.core.val).pool = z.pool) ∧
        (768 ≤ z.slabs.length → victim s c.core c.lc z.slabs = none → (t.core c.core.val).slabs = z.slabs ++ [b] ∧ (t.core c.core.val).pool = z.pool) ∧
        (∀ d, 768 ≤ z.slabs.length → victim s c.core c.lc z.slabs = some d →
          (t.core c.core.val).slabs = z.slabs.filter (· != d) ++ [b] ∧
          let w := slabBacking (s.ctx { core := c.core, lc := Fin.ofNat 8 d.1 }) d
          (t.core c.core.val).pool = if evictClass s c.core d = 2 then memWrite z.pool (areaBase z.part (Fin.ofNat 8 d.1).val + w.1) 256 w.2 else z.pool)) ∧
      (¬ready → exec (.slabFill c v slab) s = .next s)) ∧
    (∀ g : Fin 4,
      let bit : BitVec 4 := BitVec.ofNat 4 (2 ^ g.val)
      let due := x.retDue.getLsbD g.val = true ∧ ∀ e ∈ x.kept ++ x.queue, x.retAt < e.num
      (due → exec (.laneGroupRetention c g) s =
        .next ((s.modCore c.core.val fun k => { k with retained := k.retained ||| bit }).setCtx c { x with retDue := x.retDue &&& ~~~bit })) ∧
      (¬due → exec (.laneGroupRetention c g) s = .next s) ∧
      (∀ lost : BitVec 128,
        (z.retained.getLsbD g.val = true →
          ∃ t : State, exec (.laneGroupWake c g lost) s = .next t ∧ t.core c.core.val = { z with retained := z.retained &&& ~~~bit } ∧ t.mem = s.mem ∧ (t.ctx c).laneHeld = false ∧
            ∀ d ∈ coreCtxs c.core, ∀ r : Fin 32,
              let k := (s.ctx d).v[r]
              (t.ctx d).v[r] = if lost.getLsbD (32 * d.lc.val + r.val) = true ∧ (s.ctx d).vc.vlive.getLsbD r.val = true ∧ k.dirty = true then { k with pois := true } else k) ∧
        (z.retained.getLsbD g.val = false → exec (.laneGroupWake c g lost) s = .next s))) ∧
    (∀ (r : Fin 32),
      (∀ l : Landing, x.land.find? (fun k => k.dst == r) = some l →
        let y : Ctx := { x with land := x.land.filter fun k => k != l }
        (l.poison = none → exec (.valueLands c r.val) s = .next (s.setCtx c (y.sset r l.value))) ∧
        (∀ pa, l.poison = some pa → exec (.valueLands c r.val) s = .next (raise (s.setCtx c y) c .memUe x.pc x.pc (Config.tval s.tick) (BitVec.ofNat 64 pa) false))) ∧
      ((∀ l ∈ x.land, l.dst ≠ r) → exec (.valueLands c r.val) s = .next s)) ∧
    (∀ r : Fin 32, (∀ e ∈ x.gather, e.dst ≠ r.val) →
      let y : Ctx := { x with vland := x.vland.filter fun l => l.dst != r.val, laneHeld := false }
      let g := x.vland.find? fun l => l.dst == r.val
      (g.bind (·.poison) = none → exec (.valueLands c (32 + r.val)) s = .next (s.setCtx c { y with v := x.v.set r { x.v[r] with full := true } })) ∧
      (∀ l pa, g = some l → l.poison = some pa →
        (l.trim = none → exec (.valueLands c (32 + r.val)) s = .next (raise (s.setCtx c y) c .memUe x.pc x.pc (Config.tval s.tick) (BitVec.ofNat 64 pa) false)) ∧
        (∀ t, l.trim = some t → x.retAt < l.entry.num → x.vc.vl.toNat = l.granted ∨ x.vc.vl.toNat = t.elem →
          ∃ u : State, exec (.valueLands c (32 + r.val)) s = .next u ∧ (u.ctx c).v[r] = { t.reg.getD x.v[r] with full := true } ∧
            (u.ctx c).vc.vl = BitVec.ofNat 64 t.elem ∧ (u.ctx c).pc = x.pc ∧ (u.ctx c).st = x.st ∧ u.mem = s.mem ∧
            ∀ q left now, t.pos = some (q, left, now) → (x.q[q]).pos = left → ((u.ctx c).q[q]).pos = now))) ∧
    (∀ (m : Nat) (e : PeerGather) (r : Fin 32), x.gather.find? (fun e => e.homes.any fun h => h.2 == m) = some e → e.dst = r.val →
      let left := e.homes.filter fun h => h.2 != m
      (left ≠ [] → exec (.peerGatherReturn c m) s = .next (s.setCtx c { x with gather := x.gather.map fun k => if k = e then { e with homes := left } else k })) ∧
      (left = [] → (∀ l ∈ x.vland, l.dst ≠ r.val) →
        exec (.peerGatherReturn c m) s = .next (s.setCtx c { x with
          gather := x.gather.filter fun k => k != e, v := x.v.set r { x.v[r] with full := true }, laneHeld := false }))) ∧
    (∀ m : Nat, (∀ e ∈ x.gather, ∀ h ∈ e.homes, h.2 ≠ m) → exec (.peerGatherReturn c m) s = .next s)

/-- What moves a context's queue and its waits (R33, R35, R190, R252, R313, R431): with no MREL waiting and no value held back, VECTOR_LANE_ADMIT runs the head of a running context's queue, whatever it is, as its instruction does alone, its slabs the most recently used ones, the lane groups it uses awake first, and, under ERULE.TD, the tail slabs of a plain result freed; an empty queue is left; WAIT_RELEASE executes a waiting instruction again; STREAM_WALK_AHEAD holds what a translation gives with the stream, no more than 4, and neither moves the stream nor raises anything. The array and the slots (R207, R210, R221, R237): ARRAY_OP_COMPLETE completes the oldest operation, and those behind it that have trapped, and the timeline reaches the last one's number; SLOT_FILL_LANDS makes a slot full that no Tug command fills, with the lines below a poisoned one alone; FOLLOW_ON_ISSUE hands a landed copy's follow-on to the array; ARRAY_ACCEPT, with no follow-on pending, runs the array operation at the head of the lowest loop context's queue, the lane groups it uses awake first. The bound of four translations is log 34, the precedence of follow-ons log 32, the fields late and waiting log 1. -/
def Obligations.QueueAndArrayStepResults : Prop :=
  (∀ (s : State) (c : CtxId),
    let x := s.ctx c
    (x.queue = [] → x.rels = [] → exec (.vectorLaneAdmit c) s = .next s) ∧
    (∀ (e : QEntry) (rest : List QEntry), x.queue = e :: rest → x.rels = [] → x.st = .running → s.late = false →
      let u := ((headSlabs x).map fun b => (c.lc.val, b.1, b.2)).foldl (useSlab c.core) { s with cur := c }
      let w := wakeGroups c.core (headGroups u.me) (Config.wakeLost s.tick) u
      (∀ t, laneBody e.instr (laneOf w.me e) w = .ok () t → t.late = false →
        exec (.vectorLaneAdmit c) s = .next { laneRetire t with cur := s.cur } ∧
        ∀ d ∈ t.me.deadTails, ∀ b ∈ (laneRetire t).myCore.slabs, b.1 = t.cur.lc.val → b.2.1 = d.1 → b.2.2 < d.2) ∧
      (∀ f : M3, e.instr = .mxor f → (fmtOf (entWord e.cap.ents (wbits e.cap.vtype 0 4))).valid = true →
        ∃ t : State, exec (.vectorLaneAdmit c) s = .next t ∧ (t.ctx c).queue = rest ∧ (t.ctx c).pc = x.pc ∧ (t.ctx c).s = x.s ∧ t.cur = s.cur ∧
          ∀ b, b < e.cap.vl.toNat → b < vlmaxOf x.vc.eff / (fmtOf (entWord e.cap.ents (wbits e.cap.vtype 0 4))).wid → b < 16384 →
            ((t.ctx c).m[f.md]).getLsbD b = xor ((x.m[f.ma]).getLsbD b) ((x.m[f.mb]).getLsbD b))) ∧
    (∀ (i : Instr) (u : State), x.st = .running → x.waiting = true → fetchDecode { s with cur := c } = .run i u →
      let waits := (∃ f, i = .tlwait f) ∨ (∃ f, i = .drawait f) ∨ (∃ f, i = .barw f) ∨ (∃ f, i = .acq f) ∨ (∃ f, i = .tagwany f) ∨ (∃ f, i = .tagwall f) ∨ (∃ f, i = .fence f) ∨ ∃ f, i = .ndone f
      (waits → ∀ t, exec i u = .next t → exec (.waitRelease c) s = .next { t with cur := s.cur }) ∧
      (¬waits → exec (.waitRelease c) s = .next { u.modMe (fun y => { y with waiting := false }) with cur := s.cur })) ∧
    (x.waiting = false → exec (.waitRelease c) s = .next s) ∧
    (∀ (q : Fin 16),
      (x.q[q].bound = false → exec (.streamWalkAhead c q) s = .next s) ∧
      (x.q[q].bound = true → nextPages x x.q[q] = [] → exec (.streamWalkAhead c q) s = .next (s.setCtx c x)) ∧
      (∀ (page : Nat) (t : Trans) (u : State),
        let w : Who := { asid := x.asid, priv := x.priv, holder := .core c.core.val }
        let acc : Acc := if x.q[q].desc.writes then .write else .read
        x.q[q].bound = true → nextPages x x.q[q] = [page] → page * 4096 < 0x00F0000000000000 → (x.q[q].prep.any (transHit w (page * 4096))) = false →
        walkVa w (page * 4096) s = .ok t u → leafCause s w (page * 4096) acc t = none →
        exec (.streamWalkAhead c q) s = .next (u.modCtx c fun y => { y with q := y.q.set q { x.q[q] with prep := (t :: x.q[q].prep).take 4 } })))) ∧
  (∀ (s : State) (core : Fin 1024),
    let z := s.core core.val
    (∀ (o : ArrOp) (rest : List ArrOp), z.arr.ops = o :: rest → o.sig = none →
      exec (.arrayOpComplete core) s = .next (s.modCore core.val fun k => { k with
        arr := { k.arr with ops := rest.dropWhile (·.fin), done := (rest.takeWhile (·.fin)).foldl (fun _ p => p.num) o.num } })) ∧
    (z.arr.ops = [] → exec (.arrayOpComplete core) s = .next s) ∧
    (∀ n : Fin 32, z.slots[n].mld = true → openFills s { core, lc := z.slots[n].owner } n = [] →
      let fly := (s.ctx { core, lc := z.slots[n].owner }).vland
      ((∀ l ∈ fly, l.dst ≠ 32 + n.val) →
        exec (.slotFillLands core n) s = .next (s.modCore core.val fun k => { k with slots := k.slots.set n { z.slots[n] with mld := false, st := .full } })) ∧
      (∀ l t, fly.find? (fun l => l.dst == 32 + n.val) = some l → l.poison ≠ none → l.trim = some t →
        ∃ u : State, exec (.slotFillLands core n) s = .next u ∧ u.mem = s.mem ∧
          (u.core core.val).slots[n] = { z.slots[n] with mld := false, st := .full, rows := t.elem, data := BitVec.ofNat 65536 (z.slots[n].data.toNat % 2 ^ (1024 * t.elem)) })) ∧
    (∀ (t : TugId) (n : Nat) (k : TugCmd) (c : CtxId), (s.tug t).queue.find? (fun k => k.num == n) = some k → k.issuer = some c →
      k.finished = true → k.followed = false → (TugId.key t, n) ∉ (s.core c.core.val).arr.pend →
      exec (.followOnIssue t n) s = .next (s.modCore c.core.val fun y => { y with arr := { y.arr with pend := y.arr.pend ++ [(TugId.key t, n)] } })) ∧
    (∀ (c : CtxId) (e : QEntry) (rest : List QEntry), z.arr.pend = [] → arrayHead s core = some c → (s.ctx c).queue = e :: rest →
      let w := wakeGroups c.core (headGroups (s.ctx c)) (Config.wakeLost s.tick) { s with cur := c }
      ∀ t, laneBody e.instr (laneOf w.me e) w = .ok () t → t.late = false ∨ t.me.readPages = [] →
        exec (.arrayAccept core) s = .next { laneRetire t with cur := s.cur }) ∧
    (z.arr.pend = [] → arrayHead s core = none → exec (.arrayAccept core) s = .next s))

/-- The Tug's steps (R235, R236, R239, R240, R272, R274): a command waits while another of the cluster that needs one of its ports and could start is served first, by reserved share and then issue age; a TSTAT that can start becomes a beat of the 64-byte record; a copy of one row takes the source's bytes in beats for the destination; a beat of a copy to a pool is written whole and counted, the last one ends the data; a command whose data has ended completes: its tag is set and the timeline counts it. The steps of a walk context (R106, R111, R115, R242, R244, R253): a drain starts and is finished; a query whose ring has no free slot waits; a bind to an address that is 0 or no multiple of 64 ends with AWL_DESC and leaves the context unbound; a lock that is free goes to the operation that asked first, which then runs under it; a walk with records takes the ring's next free slot, with the slot's size expected; records fill the slot taken, as many as fit, padded with zeros, and with records left the walk takes the next free slot, the ring's header and side array written anew; the finished operation leaves the queue, LOCK is 0 again (one on another module once nothing awaits its acknowledgement), and the timeline takes its number. That a command reads at its start and writes in beats is log 14, the records of a query as one step log 31. -/
def Obligations.EngineStepResults : Prop :=
  (∀ (s : State) (t : TugId) (n : Nat) (k : TugCmd), (s.tug t).queue.find? (fun k => k.num == n) = some k →
    let b := k.blk
    let put (k' : TugCmd) (x : Tug) : Tug := { x with queue := x.queue.map fun j => if j.num = n then k' else j }
    let poolOf (port : Nat) : Fin 1024 := Fin.ofNat 1024 (t.cluster.val * 8 + port % 8)
    let level : PoolWay := if k.priv = 0 then .node else .supervisor
    let inPool (c : Fin 1024) (a m : Nat) : Prop := a + m ≤ 0x800000 ∧ poolCheck s c level a m = none
    (canStart s t k = false → exec (.tugCommandStart t n) s = .next s) ∧
    (canStart s t k = true → k.fn = 6 →
      let k' : TugCmd := { k with
        started := true, ends := none, sats := 0, side := [], pages := []
        out := [[(nbits k.block.toNat 128 64,
          numBytes 8 (s.tug t).timeline ++ numBytes 8 (s.tug t).issued ++ numBytes 8 (s.tug t).sats ++ numBytes 8 (s.tug t).cause ++
            numBytes 8 (s.tug t).causeNum ++ numBytes 8 (s.tug t).causeAddr.toNat ++ List.replicate 16 0)]] }
      exec (.tugCommandStart t n) s = .next (s.modTug t fun x => { put k' x with reading := [] })) ∧
    (∀ u e, u ∈ clusterTugs t.cluster.val → u ≠ t → e ∈ (s.tug u).queue → sharePort e k = true → startable s u e = true →
      (tugReserved s u = true ∧ tugReserved s t = false) ∨ (tugReserved s u = tugReserved s t ∧ e.age < k.age) → exec (.tugCommandStart t n) s = .next s) ∧
    (k.fn = 0 → b.ndim = 1 → b.dkind = 0 → 8 ≤ b.sport → b.sport < 16 →
      let len := b.row * b.esz
      (∀ p ∈ pieces64 b.src.toNat len, inPool (poolOf b.sport) p.1 p.2 ∧ poolPoisoned (s.core (poolOf b.sport).val) p.1 p.2 = false) →
      elemPlan t k s = .ok { out := beatsOf [b.dst.toNat] len [(List.range len).map fun i => s.poolByte (poolOf b.sport).val (b.src.toNat + i)], ends := none, sats := 0, side := [] } s) ∧
    (∀ (a : Nat) (bytes : List Byte) (rest : List Beat), k.started = true → k.finished = false → k.out = [(a, bytes)] :: rest →
      k.fn = 0 → b.dkind = 0 → b.dport < 8 → k.slot = none → k.node = none → k.ends = none → k.fault = none → inPool (poolOf b.dport) a bytes.length →
      exec (.tugBeatLands t n) s = .next ((s.modCore (poolOf b.dport).val fun c => { c with
          pool := memPut c.pool a bytes, poison := c.poison.filter fun u => !(a ≤ u * 8 && u * 8 + 8 ≤ a + bytes.length) }).modTug t
        (put { k with out := rest, landed := k.landed + bytes.length, finished := rest.isEmpty }))) ∧
    (∀ c, k.finished = true → k.followed = true → k.issuer = some c → k.sig = none → k.node = none → k.slot = none →
      ∃ u : State, exec (.tugCommandComplete t n) s = .next u ∧ u.ctx c = { s.ctx c with tags := (s.ctx c).tags ||| BitVec.ofNat 64 (2 ^ k.tag.val) } ∧
        (u.tug t).queue = ((s.tug t).queue.filter fun e => e.num != n) ∧ (u.tug t).sats = min ((s.tug t).sats + k.sats) (2 ^ 64 - 1) ∧
        ((s.tug t).completed = [] → n = (s.tug t).timeline + 1 → (u.tug t).timeline = n ∧ (u.tug t).completed = [])) ∧
    (k.finished = false → k.sig = none → exec (.tugCommandComplete t n) s = .next s)) ∧
  (∀ (s : State) (w : WalkId) (o : WalkOp) (rest : List WalkOp), (s.walk w).queue = o :: rest →
    let head (o' : WalkOp) (x : Walk) : Walk := { x with queue := o' :: rest }
    (o.started = false → w.walker.val ∉ s.walkerFenced →
      (o.kind = .drain ∨ o.kind = .signal → exec (.awlOperationStart w) s = .next (s.modWalk w (head { o with started := true, finished := true }))) ∧
      (∀ qbase nq qs qi core ring, o.kind = .query qbase nq qs qi core ring → (s.core core.val).rings[ring].init = false ∨ ringNext (s.core core.val).rings[ring] = none →
        exec (.awlOperationStart w) s = .next s) ∧
      (∀ desc, o.kind = .bind desc → desc = 0 ∨ desc.toNat % 64 ≠ 0 →
        let o' : WalkOp := { o with started := true, locking := false, finished := true, fault := some { cause := .awlDesc, tval := 1, addr := 1, aux := 0 } }
        exec (.awlOperationStart w) s = .next (s.modWalk w fun x => { head o' x with tree := none, closed := true }))) ∧
    (o.started = true → exec (.awlOperationStart w) s = .next s) ∧
    (∀ (t : Tree) (rec : Word) (pa : Nat) (s1 u : State), o.locking = true → (s.walk w).tree = some t → o.kind = .append rec →
      let k : Walker := { w, op := o, l := layOf t o.ents }
      k.lockPa s = .ok pa s → lockFree s w pa s = .ok true s → takeLock w pa s = .ok () s1 → k.append s.transfers.length (k.l.heldKey o.data) s1 = .ok () u → (u.walk w).queue = o :: rest →
      exec (.awlLockGrant w) s = .next (u.modWalk w (head { o with started := true, locking := false, lock := some pa, finished := true }))) ∧
    (o.locking = false → exec (.awlLockGrant w) s = .next s) ∧
    (∀ (t : Tree) (qbase : Word) (nq qs qi : Nat) (core : Fin 1024) (ring : Fin 8) (i : Nat),
      o.kind = .query qbase nq qs qi core ring → (s.walk w).tree = some t → o.started = true → o.locking = false → o.records ≠ [] →
      let r := (s.core core.val).rings[ring]
      let fit := r.slotsz / (layOf t o.ents).rl
      let bytes := (o.records.take fit).flatten
      let more := o.records.drop fit
      let full : Ring := { r with fill := r.fill ||| BitVec.ofNat 64 (2 ^ i), lands := r.lands.set i r.slotsz }
      let next := if more = [] then none else ringNext full
      r.init = true →
      (o.slot = none → ringNext r = some i →
        exec (.awlSlotTake w) s = .next ((s.modRing core.val ring fun r => ringTake r i r.slotsz).modWalk w (head { o with slot := some i }))) ∧
      (o.slot = some i → r.taken.getLsbD i = true → r.fill.getLsbD i = false →
        ∃ u : State, exec (.awlSlotTake w) s = .next u ∧
          (u.walk w).queue = { o with records := more, slot := next, finished := more.isEmpty } :: rest ∧
          (u.core core.val).rings[ring] = (match next with | none => full | some j => ringTake full j r.slotsz) ∧
          (next = none → (u.core core.val).pool =
            ringImage full (memPut (s.core core.val).pool (r.base + i * r.slotsz) (bytes ++ List.replicate (r.slotsz - bytes.length) 0)) r.hdr) ∧
          u.mem = s.mem ∧ u.ctxs = s.ctxs)) ∧
    (o.records = [] → exec (.awlSlotTake w) s = .next s) ∧
    (o.finished = true → o.sig = none → o.fault = none → o.node = none →
      let done (x : State) : State := x.modWalk w fun y => { y with queue := rest, timeline := o.num, tlb := [], tree := if o.kind = .drain then none else y.tree }
      (o.lock = none → exec (.awlOperationComplete w) s = .next (done s)) ∧
      (∀ pa, o.lock = some pa → paHome pa = s.modId.val ∨ s.transfers = [] → exec (.awlOperationComplete w) s = .next (done (ownWrite s pa 8 0)))) ∧
    (o.finished = false → o.sig = none → exec (.awlOperationComplete w) s = .next s))

/-! Hardware steps: host interface and control requests. -/

/-- The host's registers and memory window (R5, R381, R382, R386, R388, R389, R391, R408). Of a module that is READY: SQTAIL takes a count no more than the ring ahead of SQHEAD, CQHEAD any; a configuration is taken while EN is 0 or the write clears it, EN stays 0 for LOG2N 0 or above 12, and setting EN zeroes the counts; a base register only changes while EN is 0; MEMOFF takes a value aligned to the window, and the download registers take none. Before READY the download registers alone are written. A resized window keeps MEMOFF aligned. Each register reads as it stands, other offsets zero, and before READY the download registers alone. A host write of a READY module reaches the bytes of fitted memory outside firmware space and a drive's registers, and nothing else of the module, a host read returns those bytes, where not poisoned, and zero where neither memory nor a drive is; a drive's write reaches module memory or nothing. What happens to bits the register does not have is the reading of log 41; the bytes of a drive's BAR and of poisoned memory are free (logs 7 and 8). -/
def Obligations.HostRegisterResults : Prop :=
  ∀ (s : State) (q : Fin 64),
    let k := s.queue q
    let put (k' : HQueue) : State := { s with queues := s.queues.set q k' }
    let en (w : Word) : Prop := w.getLsbD 8 = true
    let log (w : Word) : Nat := wbits w 0 4
    let aligned (m : Nat) (v : Word) : Word := BitVec.ofNat 64 (v.toNat / 2 ^ m * 2 ^ m)
    let reached (l : Nat) : Prop := l < s.memSize ∧ physKind s (s.local l) = .memory ∧ ¬(s.fwBase ≤ l ∧ l < s.fwBase + s.fwSize)
    let ofDrive (l : Nat) : Prop := ∃ d off, physKind s (s.local l) = .drive d off
    (s.dl.st ≠ 4 →
      (∀ (v : Word) (n : BitVec 32), exec (.sqtail q n) s = .next s ∧ exec (.cqhead q n) s = .next s ∧ exec (.sqcfg q v) s = .next s ∧ exec (.cqcfg q v) s = .next s ∧
        exec (.registerWrite (.sqbase q) v) s = .next s ∧ exec (.registerWrite (.cqbase q) v) s = .next s ∧ exec (.registerWrite .memoff v) s = .next s ∧
        exec (.registerWrite .dladdr v) s = .next { s with dl := { s.dl with addr := v } } ∧ exec (.registerWrite .dllen v) s = .next { s with dl := { s.dl with len := v } }) ∧
      ctlRead s 0x1000 = s.dl.addr.toNat ∧ ctlRead s 0x1008 = s.dl.len.toNat ∧ ctlRead s 0x1018 = s.dl.reason % 256 * 256 + s.dl.st % 256 ∧
      (∀ off, off ≠ 0x1000 → off ≠ 0x1008 → off ≠ 0x1018 → ctlRead s off = 0) ∧ (∀ off, queRead s q off = 0) ∧
      (∀ off data, exec (.hostMemAccess off (.write data)) s = .next s) ∧ ∀ off n, windowRead s off n = List.replicate n 0) ∧
    (∀ n, exec (.resizableBarWrite n) s = .next (if 30 ≤ n ∧ n ≤ 45 then { s with memWin := n, memOff := aligned n s.memOff } else s)) ∧
    (s.dl.st = 4 →
      (∀ v : Word, exec (.registerWrite .memoff v) s = .next { s with memOff := aligned s.memWin v } ∧ exec (.registerWrite .dladdr v) s = .next s ∧
        exec (.registerWrite .dllen v) s = .next s) ∧
      ctlRead s 0 = s.modId.val ∧ ctlRead s 8 = s.memOff.toNat ∧ (∀ off, off ≠ 0 → off ≠ 8 → ctlRead s off = 0) ∧
      queRead s q 0 = k.sqbase.toNat ∧ queRead s q 8 = k.sqcfg.toNat ∧ queRead s q 0x10 = k.sqtail.toNat ∧ queRead s q 0x18 = k.sqhead.toNat ∧
      queRead s q 0x800 = k.cqbase.toNat ∧ queRead s q 0x808 = k.cqcfg.toNat ∧ queRead s q 0x810 = k.cqhead.toNat ∧ queRead s q 0x818 = k.cqtail.toNat ∧
      (∀ off, off ∉ [0, 8, 0x10, 0x18, 0x800, 0x808, 0x810, 0x818] → queRead s q off = 0) ∧
      (∀ (off n i : Nat), i < n →
        let l := s.memOff.toNat + off + i
        (off + i < 2 ^ s.memWin → reached l → poisoned s (s.local l) 1 = false → (windowRead s off n).getD i 0 = s.byte (s.local l)) ∧
        (2 ^ s.memWin ≤ off + i ∨ ¬reached l ∧ ¬ofDrive l → (windowRead s off n).getD i 0 = 0)) ∧
      (∀ n : BitVec 32, k.tries = 0 → exec (.sqtail q n) s = .next (if (n - k.sqhead).toNat ≤ 2 ^ log k.sqcfg then put { k with sqtail := n } else s)) ∧
      (∀ n : BitVec 32, exec (.cqhead q n) s = .next (put { k with cqhead := n })) ∧
      (∀ v : Word,
        (en k.sqcfg → en v → exec (.sqcfg q v) s = .next s) ∧
        (¬en k.sqcfg → en v → 1 ≤ log v → log v ≤ 12 → exec (.sqcfg q v) s = .next (put { k with sqcfg := v &&& 0x11F, sqhead := 0, sqtail := 0, tries := 0 })) ∧
        (¬en v → exec (.sqcfg q v) s = .next (put { k with sqcfg := v &&& 0x11F, tries := 0 })) ∧
        (¬en k.sqcfg → log v = 0 ∨ 12 < log v → exec (.sqcfg q v) s = .next (put { k with sqcfg := v &&& 0x1F, tries := 0 })) ∧
        (¬en k.cqcfg → en v → 1 ≤ log v → log v ≤ 12 → exec (.cqcfg q v) s = .next (put { k with cqcfg := v &&& 0x3FFF1F, cqhead := 0, cqtail := 0 })) ∧
        (en k.cqcfg → en v → exec (.cqcfg q v) s = .next s) ∧
        exec (.registerWrite (.sqbase q) v) s = .next (if k.sqcfg.getLsbD 8 then s else put { k with sqbase := v }) ∧
        exec (.registerWrite (.cqbase q) v) s = .next (if k.cqcfg.getLsbD 8 then s else put { k with cqbase := v })) ∧
      (∀ (off : Nat) (data : List Byte), off + data.length ≤ 2 ^ s.memWin →
        let l := s.memOff.toNat + off
        ∃ t : State, exec (.hostMemAccess off (.write data)) s = .next t ∧ t = { s with mem := t.mem, poison := t.poison, drives := t.drives } ∧
          ((∀ i, i < data.length → reached (l + i) ∨ ¬ofDrive (l + i)) → t.drives = s.drives) ∧
          (∀ i, i < data.length → reached (l + i) → t.byte (s.local (l + i)) = data.getD i 0) ∧
          ∀ a, (∀ i, i < data.length → reached (l + i) → a ≠ s.local (l + i)) → t.byte a = s.byte a)) ∧
    (∀ (off n : Nat), exec (.hostMemAccess off (.read n)) s = .next s) ∧
    (∀ (d : Fin 128) (pa : Nat) (data : List Byte),
      let fits := (tabGet Drive.reset s.drives d.val).present = true ∧ ∀ i, i < data.length → physKind s (s.local (pa + i)) = .memory ∧ pa + i < 2 ^ 52
      (fits → exec (.driveDmaWrite d pa data) s = .next { s with mem := memPut s.mem (s.local pa) data, poison := unpoison s.poison (s.local pa) data.length }) ∧
      (¬fits → exec (.driveDmaWrite d pa data) s = .next s))

/-- Commands of the host (R383 to R388, R294 to R296, R300): a fetched header with its CRC and SEQ right and no payload carries a NOP out next and moves SQHEAD on; a wrong CRC is tried again, the seventeenth failure answers BAD_COMMAND; a record is written where there is room, with PHASE by its lap, and CQTAIL rises; each command answers with its status: a submission whose header cannot be read with check 1 on its own queue; a best-effort graph that passes its checks is active, its nodes without predecessors ready; a removal of a region installed under another ASID is refused with check 2. The answer to a header that stays bad is the reading of log 41, the order of the checks of a submission log 38, the die a count starts at log 40; an NVMe answer is an operand (log 8). -/
def Obligations.HostCommandResults : Prop :=
  ∀ (s : State),
    let answered (t : State) (h : CmdHead) (status check : Nat) : State :=
      { t with queues := t.queues.set h.cq { t.queues[h.cq] with waiting := t.queues[h.cq].waiting ++ [{ status, sq := h.sq.val, check, tag := h.tag, time := t.time, seq := h.seq }] } }
    (s.dl.st = 4 → ∀ q : Fin 64,
      let k := s.queue q
      let link := k.sqcfg.getLsbD 4
      let host := if link then s.host1 else s.host0
      let h := memBytes host (k.sqbase.toNat + 64 * (k.sqhead.toNat % 2 ^ wbits k.sqcfg 0 4)) 64
      let f (off n : Nat) : Nat := byteField h off n
      let good := crc16 (h.take 0x16 ++ [0, 0] ++ h.drop 0x18) = f 0x16 2 ∧ f 4 4 = k.sqhead.toNat
      let head : CmdHead := { sq := q, cq := Fin.ofNat 64 (f 2 1), seq := k.sqhead, tag := BitVec.ofNat 64 (f 0x18 8) }
      k.sqcfg.getLsbD 8 = true → k.sqtail ≠ k.sqhead →
      (k.tries = 0 → good → f 0x10 4 = 0 → f 0x14 2 = 0xFFFF → f 0 2 = 0 → headOk h = true →
        exec (.commandFetch q) s = .next { s with queues := s.queues.set q { k with sqhead := k.sqhead + 1, tries := 0 }, agenda := .event (.hostCmdNop head) :: s.agenda }) ∧
      (k.tries = 0 → ¬good → exec (.commandFetch q) s = .next { s with queues := s.queues.set q { k with tries := 1 } }) ∧
      (0 < k.tries → k.tries < 16 → ¬good → exec (.fetchRetry q) s = .next { s with queues := s.queues.set q { k with tries := k.tries + 1 } }) ∧
      (k.tries = 16 → ¬good → head.cq ≠ q →
        exec (.fetchRetry q) s = .next (answered { s with queues := s.queues.set q { k with sqhead := k.sqhead + 1, tries := 0 } } head 6 1))) ∧
    (s.dl.st = 4 → ∀ (q : Fin 64) (r : CRec) (rest : List CRec),
      let k := s.queue q
      let n := 2 ^ wbits k.cqcfg 0 4
      k.waiting = r :: rest → k.cqcfg.getLsbD 8 = true → (k.cqtail - k.cqhead).toNat < n →
      let a := k.cqbase.toNat + 32 * (k.cqtail.toNat % n)
      let bytes := numBytes 1 r.status ++ numBytes 1 (if k.cqtail.toNat / n % 2 = 0 then 1 else 0) ++ numBytes 1 r.sq ++ [0] ++ numBytes 4 r.check ++
        numBytes 8 r.tag.toNat ++ numBytes 8 r.time ++ numBytes 4 r.seq.toNat ++ numBytes 4 0
      let k' := { k with waiting := rest, cqtail := k.cqtail + 1, raised := if k.cqcfg.getLsbD 9 then k.raised + 1 else k.raised }
      exec (.completionRecordWrite q) s = .next (if k.cqcfg.getLsbD 4 then { s with host1 := memPut s.host1 a bytes, queues := s.queues.set q k' }
        else { s with host0 := memPut s.host0 a bytes, queues := s.queues.set q k' })) ∧
    (∀ h : CmdHead,
      exec (.hostCmdNop h) s = .next (answered s h 0 0) ∧
      (∀ (asid : BitVec 16) (va : BitVec 64),
        (va.toNat % 64 ≠ 0 → exec (.submit h asid va) s = .next (answered s h 1 1)) ∧
        (∀ u : State, va.toNat % 64 = 0 → tryRead asid va.toNat 64 s = .ok none u → exec (.submit h asid va) s = .next (answered u h 1 1)) ∧
        (∀ (v n : Nat) (u u' : State), va.toNat % 64 = 0 → tryRead asid va.toNat 64 s = .ok (some v) u → checkGraph asid (BitVec.ofNat 512 v) u = .ok (.error n) u' →
          exec (.submit h asid va) s = .next (answered u' { h with cq := Fin.ofNat 64 (nbits v 160 8), tag := BitVec.ofNat 64 (nbits v 320 64) } 1 n)) ∧
        (∀ (v : Nat) (nodes : List GNode) (u u' : State), va.toNat % 64 = 0 → tryRead asid va.toNat 64 s = .ok (some v) u →
          checkGraph asid (BitVec.ofNat 512 v) u = .ok (.ok nodes) u' → nbit v 168 = true →
          let g : Graph :=
            { rcb := BitVec.ofNat 64 (nbits v 0 64), asid, header := BitVec.ofNat 512 v, nodes, st := .admitting, spawned := false, handle := 0
              cq := Fin.ofNat 64 (nbits v 160 8), sq := h.sq, seq := h.seq, reserved := [], breached := false }
          exec (.submit h asid va) s = .next { u' with nextGraph := u'.nextGraph + 1, graphs := tabSet u'.graphs u'.nextGraph g }) ∧
        (∀ (v : Nat) (nodes : List GNode) (u u' : State), va.toNat % 64 = 0 → tryRead asid va.toNat 64 s = .ok (some v) u →
          checkGraph asid (BitVec.ofNat 512 v) u = .ok (.ok nodes) u' → nbit v 168 = false →
          ∃ (t : State) (g : Graph), exec (.submit h asid va) s = .next t ∧ t.queues = u'.queues ∧ t.nextGraph = u'.nextGraph + 1 ∧
            tabFind t.graphs u'.nextGraph = some g ∧ (∀ n, n ≠ u'.nextGraph → tabFind t.graphs n = tabFind u'.graphs n) ∧
            g.rcb = BitVec.ofNat 64 (nbits v 0 64) ∧ g.asid = asid ∧ g.st = .active ∧ g.reserved = [] ∧ g.nodes.length = nodes.length ∧
            ∀ (i : Nat) (n : GNode), nodes[i]? = some n → ∃ m, g.nodes[i]? = some m ∧ m.desc = n.desc ∧ m.preds = n.preds ∧
              (n.preds = 0 ∧ n.st = .waiting → m.st = .ready ∧ m.prio = effPrio u' g.rcb ∧ m.since = u'.time) ∧ (¬(n.preds = 0 ∧ n.st = .waiting) → m = n)) ∧
        ((s.region va).isSome = true → exec (.regionInstall h asid va) s = .next (answered s h 7 2)) ∧
        (∀ (block : BitVec 2048) (u : State), (s.region va) = none → readRegion asid va.toNat s = .ok (some block) u →
          let r : Region := { va, asid, block, lastDie := 7, spawned := 0 }
          let v : State := { u with regions := u.regions ++ [r] }
          exec (.regionInstall h asid va) s = .next (if regionOk v r then answered (writeHeld v r) h 0 0 else answered u h 7 1)) ∧
        (s.region va = none → exec (.regionRemove h asid va) s = .next (answered s h 7 2)) ∧
        (∀ r, s.region va = some r → r.asid ≠ asid → exec (.regionRemove h asid va) s = .next (answered s h 7 2)) ∧
        (∀ r, s.region va = some r → r.asid = asid →
          exec (.regionRemove h asid va) s = .next (if regionBusy s va then answered s h 7 3
            else answered { s with regions := s.regions.filter fun r => r.va != va } h 0 0))) ∧
      (∀ pa : BitVec 64, exec (.fdtabSet h pa) s = .next (if s.regions = [] then answered { s with fdTable := some (s.modId.val * 2 ^ 52 + pa.toNat) } h 0 0 else answered s h 7 4)) ∧
      (∀ p : QPair, exec (.nvmeQpair h p none) s = .next (answered s h 7 5) ∧
        ∀ id : BitVec 32, let d := tabGet Drive.reset s.drives p.drive.toNat
          exec (.nvmeQpair h p (some id)) s = .next (if p.drive.toNat < 128 ∧ d.present = true then
            answered { s with drives := tabSet s.drives p.drive.toNat { d with pairs := d.pairs ++ [{ id := id.toNat, depth := p.depth.toNat, sq := p.sq, cq := p.cq }] } } h 0 id.toNat
          else answered s h 7 5)))

/-- Supervisor requests (R321, R325, R328, R340, R341): the oldest request, when its block keeps the layout, is carried out and DONE becomes 1: PARK stops the context at a pre-emption point, MOVEOUT writes its image and frees it, RESUME in place lets it run and from an image loads it, KILL ends it, an invalidation drops the span's translations; one for a context that is not resident gets 3, as does a RESUME in place of a context that is free or runs and one whose image cannot be loaded, and a block out of layout 2. While an append or a refit under way holds a translation of the span, or a store of the address space has yet to reach memory, the invalidation stays the oldest request and DONE is not written. What a pre-emption point, a save image, a kill and a load leave of a context (R44, R332, R340 to R345, R421, R422). At a pre-emption point a context with nothing in flight and ERULE.TD 0 keeps PC, scalars and fullness, its dirty registers and masks are in their backing, VDIRTY is clear, and it waits for no object. The area holds PC, scalars, fullness, control registers, entries, metadata, register images, masks, stream positions and bindings as R44 lays them out; the image holds that area, the header, the quiesced commands, the owned slots and rings, and the tiles that lie wholly in ACC. MOVEOUT leaves these bytes at IMAGE and frees the context, its slots, rings and lease; a KILL frees them without an image, none of its commands left, and fails the node. A load is refused into a context that is not free, for a slot or ring that is not, and beside another partition word or region; it restores what the image holds, with the trap registers of R422, a lazy one leaving the registers to be restored, then parked under HOLD, else running. The landing of all beats of an address space and the wait for an append or a refit are the reading of log 36, where the youngest entry stops log 37, and the area of an image the rules give no layout for is the model's own (log 15). -/
def Obligations.RequestResults : Prop :=
  (∀ (s : State) (pa : Nat) (rest : List Nat),
    let done (t : State) (v : Nat) : State := ownWrite t (pa + 0x10) 8 v
    (s.ctrls = pa :: rest →
      let u : State := { s with ctrls := rest }
      (∀ r, ctlOf u pa = some r →
        (r.op = 0 → ctlOp s pa = 0 → exec (.park pa) s = .next (if (s.ctx r.ctx).resident then
          done ((preempt u r.ctx).modCtx r.ctx fun x => { x with st := .parked }) 1 else done u 3)) ∧
        (r.op = 1 → ctlOp s pa = 1 → exec (.moveout pa) s = .next (if (s.ctx r.ctx).resident then done (moveOut u r.ctx r.image) 1 else done u 3)) ∧
        (r.op = 2 → ctlOp s pa = 2 →
          (r.image = 0 → (s.ctx r.ctx).st = .parked ∨ (s.ctx r.ctx).st = .stopped ∨ (s.ctx r.ctx).st = .halted →
            exec (.resume pa) s = .next (done (u.setCtx r.ctx { s.ctx r.ctx with st := .running }) 1)) ∧
          (r.image = 0 → (s.ctx r.ctx).st = .free ∨ (s.ctx r.ctx).st = .running → exec (.resume pa) s = .next (done u 3)) ∧
          (r.image ≠ 0 → exec (.resume pa) s = .next (if resumeOk u r.ctx (imageOf u r.image) then
            done (loadSaved u r.ctx (imageOf u r.image) r.lazy r.hold) 1 else done u 3))) ∧
        (r.op = 3 → ctlOp s pa = 3 → exec (.kill pa) s = .next (if (s.ctx r.ctx).resident then done (killCtx u r.ctx) 1 else done u 3))) ∧
      (ctlOf u pa = none → ctlOp s pa = 0 → exec (.park pa) s = .next (done u 2))) ∧
    (s.invals = pa :: rest →
      let u : State := { s with invals := rest }
      (invalOf u pa = none → exec (.invalidationRequest pa) s = .next (done u 2)) ∧
      (∀ q, invalOf u pa = some q → (∀ t ∈ s.tugs, ∀ k ∈ t.2.queue, k.started = false ∨ k.finished = true) →
        let held : Prop := (∃ w ∈ s.walks, w.2.busy = true ∧ ∃ t ∈ w.2.tlb, q.hits t = true) ∨
          ∃ c ∈ s.ctxs, (q.allAsid = true ∨ q.global = true ∨ c.2.asid = q.asid) ∧ ∃ p ∈ c.2.stores, ∃ a b, p.loc = .mem a b
        (¬held → exec (.invalidationRequest pa) s = .next (done (dropSpan u q) 1)) ∧
        (held → exec (.invalidationRequest pa) s = .next (dropSpan s q))) ∧
      ∀ q : Inval,
        let d := dropSpan u q
        (∀ e ∈ d.cores, ∀ t ∈ e.2.tlb, q.hits t = false) ∧ (∀ e ∈ d.commons, ∀ t ∈ e.2, q.hits t = false) ∧ (∀ e ∈ d.tugs, ∀ t ∈ e.2.tlb, q.hits t = false) ∧
        (∀ e ∈ d.walks, e.2.busy = false → ∀ t ∈ e.2.tlb, q.hits t = false) ∧ ∀ p ∈ d.code, q.hitsPage p.asid p.page = false)) ∧
  (∀ (s : State) (c : CtxId),
    let x := s.ctx c
    let k := s.core c.core.val
    let area := areaBase k.part c.lc.val
    let freed (t : State) : Prop := (t.ctx c).st = .free ∧ (t.ctx c).node = none ∧ (t.ctx c).lease = none ∧ (t.ctx c).binds = [] ∧ (t.ctx c).queue = [] ∧
      (∀ n : Fin 32, (t.core c.core.val).slots[n].ownedBy c.lc = false) ∧ ∀ d : Fin 8, ¬((t.core c.core.val).rings[d].init = true ∧ (t.core c.core.val).rings[d].owner = c.lc)
    let masks (pool : Memory) : Prop := x.vc.eff.toNat < 3 → ∀ j : Fin 8, memRead pool (area + 0x10000 + 2048 * j.val) (x.vlmax / 32) = x.m[j].toNat % 2 ^ (x.vlmax / 4)
    let image (pool : Memory) (i : Fin 32) : Prop := memRead pool (area + i.val * (65536 / x.count)) (x.backOf i.val) = x.v[i].img.toNat % 2 ^ (8 * x.backOf i.val)
    (x.land = [] → x.queue = [] → x.gather = [] → x.rels = [] → x.stores = [] → (∀ r : Fin 32, x.v[r].full = true) → (∀ n : Fin 32, k.slots[n].mld = false) →
      k.arr.ops = [] → k.retained = 0 → x.vc.erule.getLsbD 4 = false →
      let t := preempt s c
      let y := t.ctx c
      t.acqs = s.acqs.filter (fun a => a.1 != c) ∧ y.pc = x.pc ∧ y.s = x.s ∧ y.full = x.full ∧ y.m = x.m ∧ y.vc = { x.vc with vdirty := 0 } ∧ y.waiting = false ∧
      (∀ r : Fin 32, y.v[r] = { x.v[r] with dirty := false }) ∧ masks (t.core c.core.val).pool ∧
      ∀ i : Fin 32, i.val < x.count → x.v[i].dirty = true → image (t.core c.core.val).pool i) ∧
    (let p := ((writeArea s c).core c.core.val).pool
      let at' (off n : Nat) := memRead p (area + off) n
      at' 0x14700 8 = x.pc.toNat ∧ at' 0x14708 8 = x.full.toNat ||| 1 ∧ (∀ i : Fin 32, at' (0x14600 + 8 * i.val) 8 = (x.sget i).toNat) ∧
      (∀ n, n < 0x52 → at' (0x14800 + 8 * n) 8 = if (csrRow n).isSome = true then (csrValue { s with cur := c } n).toNat else 0) ∧
      (∀ i : Fin 8, at' (0x14C00 + 8 * i.val) 8 = x.ents[i].toNat) ∧
      (∀ i : Fin 32, at' (0x14400 + 16 * i.val) 16 = ({ x.v[i] with full := x.vfull i } : VReg).meta) ∧
      (∀ i : Fin 32, i.val < x.count → x.vc.vuse.getLsbD i.val = false → image p i) ∧ masks p ∧
      (∀ q : Fin 16, at' (0x14000 + 64 * q.val + 10) 6 = x.q[q].pos.toNat) ∧
      ((x.binds.map (·.idx)).Nodup → ∀ b ∈ x.binds, b.idx < 16 → at' (0x14C40 + 16 * b.idx) 8 = b.obj.toNat ∧ at' (0x14C48 + 16 * b.idx) 8 = b.span.toNat)) ∧
    (∀ (cmds : List (TugId × TugCmd)) (m0 : Memory), cmds.length ≤ 256 →
      let m := buildImage s c cmds m0
      let mine (n : Fin 32) := k.slots[n].ownedBy c.lc
      (∀ a, a < 131072 → memGet m a = memGet k.pool (area + a)) ∧
      memRead m 0x20000 8 = k.part.toNat ∧ memRead m 0x20008 4 = cmds.length ∧
      (∀ n : Fin 32, nbit (memRead m 0x2000C 4) n.val = mine n ∧ nbit (memRead m 0x20010 4) n.val = (mine n && k.slots[n].st == .full) ∧
        nbit (memRead m 0x20014 4) n.val = (mine n && k.slots[n].dbl)) ∧
      (∀ l, x.lease = some l → l.micros < 2 ^ 32 → l.clock < 4096 → memRead m 0x20018 8 = l.micros + 2 ^ 32 * l.clock) ∧ (x.lease = none → memRead m 0x20018 8 = 0) ∧
      memRead m 0x20020 8 = x.asid.toNat * 2 ^ 32 + c.core.val * 4 + c.lc.val % 4 ∧ memRead m 0x20028 8 = s.time % 2 ^ 64 ∧
      (8 * (c.lc.val % 4) + 8 ≤ partAcc k.part → memRead m 0x20030 8 = 1 ∧ ∀ a, a < 0x80000 → memGet m (0x40000 + a) = memGet k.pool (tilesOff k.part c.lc.val + a)) ∧
      (partAcc k.part < 8 * (c.lc.val % 4) + 8 → memRead m 0x20030 8 = 0) ∧
      (∀ (i : Nat) (e : TugId × TugCmd), cmds[i]? = some e → let r := 0x20040 + 160 * i
        memRead m r 128 = e.2.block.toNat ∧ memRead m (r + 0x80) 8 = e.2.num % 2 ^ 64 ∧ memRead m (r + 0x88) 1 = e.1.t.val ∧ memRead m (r + 0x89) 1 = e.2.tag.val) ∧
      (∀ n : Fin 32, memRead m (0x2A040 + 8 * n.val) 8 = if mine n = true then k.slots[n].word % 2 ^ 64 else 0) ∧
      (∀ n : Fin 32, mine n = true → memRead m (0xC0000 + 0x2100 * n.val) 0x2000 = k.slots[n].data.toNat ∧ memRead m (0xC2000 + 0x2100 * n.val) 0x100 = k.slots[n].side.toNat) ∧
      ∀ d : Fin 8, let r := k.rings[d]
        let a := 0x2A400 + 0x240 * d.val
        (r.init = true ∧ r.owner = c.lc → memRead m (a + 0x0C) 1 = r.nslot % 256 ∧ memRead m (a + 8) 4 = r.slotsz % 2 ^ 32 ∧ memRead m (a + 0x10) 8 = r.fill.toNat ∧
          memRead m (a + 0x18) 8 = r.taken.toNat) ∧
        (¬(r.init = true ∧ r.owner = c.lc) → memRead m (a + 0x0C) 1 = 0)) ∧
    (∀ img : Nat,
      let u := settleRels (quiesceCtx (preempt s c) c) c
      let v := writeArea (if (u.ctx c).binds = [] then u else flushLines u c.core.val (fun _ => true) true) c
      let t := moveOut s c img
      freed t ∧ (imageInMem v img = true → ∀ a, a < 0x102000 → t.byte (img + a) = memGet (buildImage v c (ctxCommands (preempt s c) c) (imageOf v img)) a)) ∧
    (∃ v : State, killCtx s c = (match x.node with | some r => failNode v r | none => v) ∧ freed v ∧
      ∀ t : TugId, t.cluster.val = c.core.val / 8 → ∀ q ∈ (v.tug t).queue, q.issuer ≠ some c) ∧
    (∀ (r : NodeRef) (g : Graph) (n : GNode), tabFind s.graphs r.graph = some g → g.nodes[r.node]? = some n →
      (∃ (i : Nat) (m : GNode), i ≠ r.node ∧ g.nodes[i]? = some m ∧ m.st = .running) →
      ∃ g', tabFind (failNode s r).graphs r.graph = some g' ∧ g'.st = .failing ∧ g'.nodes = g.nodes.modify r.node fun n => { n with st := .failed }) ∧
    (∀ m : Memory,
      let w (off : Nat) : Word := BitVec.ofNat 64 (memRead m off 8)
      let slot (n : Fin 32) := nbit (memRead m 0x2000C 4) n.val
      (x.st ≠ .free ∨ (∃ n : Fin 32, slot n = true ∧ k.slots[n].st ≠ .free) ∨ (∃ d : Fin 8, memRead m (0x2A40C + 0x240 * d.val) 1 ≠ 0 ∧ k.rings[d].init = true) ∨
        (∃ o, o ∈ residents s c.core ∧ (k.part ≠ w 0x20000 ∨ (s.ctx o).rcb ≠ w (bookOff + 24))) → resumeOk s c m = false) ∧
      ∀ (lazy hold : Bool),
        let t := loadSaved s c m lazy hold
        let y := t.ctx c
        let kt := t.core c.core.val
        let rings : Prop := ∃ d : Fin 8, memRead m (0x2A40C + 0x240 * d.val) 1 ≠ 0
        y.st = (if hold then .parked else .running) ∧ y.pc = w 0x14700 ∧ (∀ i : Fin 32, i ≠ 0 → y.sget i = w (0x14600 + 8 * i.val)) ∧
        (∀ i : Fin 32, i ≠ 0 → y.isFull i = nbit (memRead m 0x14708 8) i.val) ∧ y.vc.vl = w 0x14800 ∧ y.vc.vstart = w 0x14828 ∧ y.tags = w 0x14A00 ∧
        (∀ i : Fin 8, nbit (w (0x14C00 + 8 * i.val)).toNat 63 = false ∨ entryCheck (8 + i.val) (w (0x14C00 + 8 * i.val)) = 0 → y.ents[i] = w (0x14C00 + 8 * i.val)) ∧
        y.tr.cause = 0 ∧ y.tr.epc = 0 ∧ y.tr.vepc = 0 ∧ y.tr.tval = 0 ∧ y.tr.scratch = 0 ∧ y.tr.status &&& 0xFF = 0 ∧
        y.vc.vuse = (if lazy then y.vc.vlive else (w 0x14850).setWidth 32) ∧
        (lazy = false → ∀ i : Fin 32, i.val < countOf y.vc.eff → y.vc.vlive.getLsbD i.val = true → memRead m (bookOff + 288 + i.val) 1 = 0 →
          y.v[i].img.toNat = memRead m (i.val * (65536 / countOf y.vc.eff)) (vlmaxOf y.vc.eff / 8) % 2 ^ 65536) ∧
        (∀ n : Fin 32, slot n = true → kt.slots[n].st = (if nbit (memRead m 0x20010 4) n.val = true then .full else .claimed) ∧ kt.slots[n].owner = c.lc ∧
          kt.slots[n].data.toNat = memRead m (0xC0000 + 0x2100 * n.val) 0x2000 ∧ kt.slots[n].side.toNat = memRead m (0xC2000 + 0x2100 * n.val) 0x100) ∧
        (∀ d : Fin 8, memRead m (0x2A40C + 0x240 * d.val) 1 ≠ 0 → kt.rings[d].init = true ∧ kt.rings[d].owner = c.lc ∧ kt.rings[d].fill = w (0x2A410 + 0x240 * d.val)) ∧
        (heldRegions s c.core = [] → kt.part = w 0x20000) ∧
        (¬rings → nbit (memRead m 0x20030 8) 0 = false → ∀ a, (if lazy then 65536 else 0) ≤ a → a < 131072 → memGet kt.pool (areaBase kt.part c.lc.val + a) = memGet m a) ∧
        (¬rings → nbit (memRead m 0x20030 8) 0 = true → 8 * (c.lc.val % 4) + 8 ≤ partAcc kt.part →
          ∀ a, a < 0x80000 → memGet kt.pool (tilesOff kt.part c.lc.val + a) = memGet m (0x40000 + a))))

/-! Hardware steps: the schedulers. -/

/-- Dispatch (R24, R42, R299, R302, R303, R304): waiting best-effort nodes of a die age one priority in 8 µs, up to 15, and one that has waited a millisecond at 15 has units held for it; a pool's order puts admitted nodes by deadline before best-effort ones by priority, the earlier enqueued first; the first admitted node with a free unit starts, and, when no admitted node of the pool can be placed and no lent work goes on, the pool's first best-effort node if it has one; a V node's context finds its launch values. With nothing to place, a V node may be handed to a core ahead: one that runs work beside which it may start and that keeps none yet; it stays in its pool, its code from the entry point on comes to that core, and a context of it that becomes free takes it. A core that no region holds is cleared and takes the partition word and the region of the node that is to start there. CODE_FILL (R329): the page of a translation that may be fetched from, in unpoisoned main memory of this module, is what the die's commons hold for that page from then on: without a hash as it stands, with one in the code range when its SHA-256 is the hash. With another hash the fault domain of who fetches it ends. The choice between own and foreign nodes and when one is handed over ahead are log 39, the level bits of a launch log 29, the page a fill may read log 35. -/
def Obligations.DispatchAndCodeResults : Prop :=
  (∀ (s : State) (die : Fin 8),
    let aged := ((poolOf s die.val).filter fun c => !c.graph.admitted).foldl
      (fun t c => t.modNode c.ref fun n => { n with prio := min 15 (effPrio s c.graph.rcb + (s.time - c.node.since) / 8000) }) s
    let held (t : State) := ((poolOf t die.val).filter fun c => !c.graph.admitted && c.node.prio == 15 && c.node.since + 1000000 ≤ t.time).foldl
      (fun u c => u.modNode c.ref fun n => { n with hold := true }) t
    let s' := held aged
    exec (.priorityAge die) s = .next aged ∧ exec (.priorityHold die) s = .next (held s) ∧
    (∀ l : List Cand, (sortCands l).Pairwise (fun a b => a.before b = true) ∧ ∀ c, c ∈ sortCands l ↔ c ∈ l) ∧
    (∀ a b : Cand, a.graph.admitted = true → b.graph.admitted = false → a.before b = true ∧ b.before a = false) ∧
    (dieChoice s' die.val = none →
      (handOver s' die.val = none → exec (.nodeDispatch die) s = .next s') ∧
      ∀ c k, handOver s' die.val = some (c, k) → exec (.nodeDispatch die) s = .next (handNode s' c k)) ∧
    (∀ c k, handOver s' die.val = some (c, k) → c ∈ poolOf s' die.val ∧ dKind c.node.desc = 0 ∧ (s'.core k.val).next = none ∧
      ∃ x : CtxId, x.core = k ∧ (s'.ctx x).st = .running ∧ joins s' k (dPart c.node.desc) c.graph.rcb = true ∧ allowed s' c (.ctx x) = true) ∧
    (∀ (c : Cand) (k : Fin 1024),
      let va := dEntry c.node.desc
      let asid := nodeAsid s c.graph
      let page (a : Nat) : Option CodePage := findCode s (dieOf k.val) asid a
      ((handNode s c k).core k.val).next = some c.ref ∧
      (va < ownBase → (∀ a, va / 4096 ≤ a → a ≤ (va + aheadBytes) / 4096 → (page a).isSome = true) →
        (handNode s c k).graphs = s.graphs ∧ (handNode s c k).code = s.code ∧
        ∀ p, page (va / 4096) = some p → ∀ i, va % 4096 + 4 * i + 4 ≤ 4096 →
          ({ asid, eff := BitVec.ofNat 2 (dDecl c.node.desc), va := va + 4 * i, word := BitVec.ofNat 32 (memRead p.bytes (va % 4096 + 4 * i) 4) } : DecOp) ∈
            ((handNode s c k).core k.val).ops)) ∧
    (∀ (c : Cand) (x : CtxId), (s.core x.core.val).next = some c.ref → readyCand s c.ref = some c → (s.ctx x).resident = false →
      (s.core x.core.val).service = .inService → x ∈ wordCtxs (dPart c.node.desc) x.core → joins s x.core (dPart c.node.desc) c.graph.rcb = true →
      allowed s c (.ctx x) = true → startNext s x = startV s c x) ∧
    (∀ (c : Cand) (cs : List Cand) (u : RUnit), ((sortCands (poolOf s' die.val)).filter fun c => c.graph.admitted) = c :: cs → findFree s' [] die.val c = some u →
      dieChoice s' die.val = some (.start c u)) ∧
    (∀ (c : Cand) (cs : List Cand) (u : RUnit),
      let first := (sortCands (poolOf s' die.val)).filter fun c => c.graph.admitted
      firstFree s' die.val [] first = none → firstWay s' die.val first = none → resumeLent s' die.val s'.lent = none →
      ((sortCands (poolOf s' die.val)).filter fun c => !c.graph.admitted) = c :: cs → findFree s' [] die.val c = some u →
      dieChoice s' die.val = some (.start c u)) ∧
    (∀ (c : Cand) (x : CtxId), dieChoice s' die.val = some (.start c (.ctx x)) → partOk (dPart c.node.desc) = true →
      ∃ t : State, exec (.nodeDispatch die) s = .next t ∧
        (t.ctx x).st = .running ∧ (t.ctx x).pc = BitVec.ofNat 64 (blkField c.node.desc 8 8) ∧
        (t.ctx x).sget 30 = BitVec.ofNat 64 (blkField c.node.desc 0x28 8) ∧ (t.ctx x).sget 31 = BitVec.ofNat 64 (blkField c.node.desc 0x30 8) ∧
        (∀ r : Fin 32, r.val < 30 → (t.ctx x).sget r = 0) ∧ (∀ r, (t.ctx x).isFull r = true) ∧
        (t.ctx x).vc.vlive = 0 ∧ (t.ctx x).vc.cnt = BitVec.ofNat 2 (dDecl c.node.desc) ∧ (∀ r : Fin 32, (t.ctx x).v[r].kind = .plain ∧ (t.ctx x).v[r].full = true) ∧
        (∀ q : Fin 16, (t.ctx x).q[q].bound = false) ∧ (t.ctx x).ents = Vector.replicate 8 0 ∧ (t.ctx x).binds = [] ∧ (t.ctx x).queue = [] ∧ (t.ctx x).tags = 0 ∧
        (t.ctx x).rcb = c.graph.rcb ∧ (t.ctx x).node = some c.ref ∧ (t.core x.core.val).last = some c.graph.rcb ∧
        (s'.gnode c.ref = some c.node → t.gnode c.ref = some { c.node with st := .running, hold := false, ran := some (.ctx x), start := s.time, left := 0 })) ∧
    (∀ core : Fin 1024,
      (heldRegions s core ≠ [] → exec (.poolClear core) s = .next s) ∧
      (heldRegions s core = [] → ∀ c, clearFor s core = some c →
        exec (.poolClear core) s = .next (s.modCore core.val fun k =>
          { k with pool := [], lanes := [], poison := [], lanePoison := [], part := dPart c.node.desc, last := some c.graph.rcb })))) ∧
  (∀ (s u v : State) (die : Fin 8) (asid : BitVec 16) (va : BitVec 64) (t : Trans) (e : AsidEntry),
    let a := va.toNat % 2 ^ 56
    let base := transPa t a / 4096 * 4096
    walkVa { asid, priv := 2, holder := .nobody } a s = .ok t u → leafCause u { asid, priv := 2, holder := .nobody } a .fetch t = none →
    physKind u (transPa t a) = .memory → poisoned u base 4096 = false → asidEntry asid a u = .ok e v → physKind v base = .memory → paHome base = v.modId.val →
    let page : CodePage := { die := die.val, asid, page := a / 4096, bytes := memSlice v.mem base 4096 0 }
    let filled (w : State) : State := { w with code := page :: w.code.filter fun q => !(q.die == die.val && q.asid == asid && q.page == a / 4096) }
    (nbit e.cflags 0 = false → exec (.codeFill die asid va) s = .next (filled v)) ∧
    (∀ h w, nbit e.cflags 0 = true → e.codeBase ≤ a → a < e.codeBase + 4096 * e.codePages → tableRead a (e.hashBase + 32 * ((a - e.codeBase) / 4096)) 32 v = .ok h w →
      exec (.codeFill die asid va) s = .next (if sha256Digest (memBytes page.bytes 0 4096) = numBytes 32 h then filled w else codeHashEnd w die asid a)))

/-- Deadline graphs (R301, R307, R310, R311): a graph whose units, caps and bound are to be had is admitted with its reservations and its ready nodes enqueued; otherwise it ends with REJECT_DEADLINE. A running node past its planned time is marked and reported, the graph re-planned; a graph whose following work no longer fits is breached: a BREACHED record, and under the cancelling policy no more of it starts. The units chosen are log 47, the re-planned time log 46; WHERE and TVAL of the reports are free (log 7). -/
def Obligations.DeadlineResults : Prop :=
  ∀ (s : State) (g : Nat) (x : Graph), tabFind s.graphs g = some x →
    let nv := hField x.header 0x16 2 * (if x.excl then 4 else 1)
    let nc := hField x.header 0x20 2
    let nw := hField x.header 0x22 1
    (x.st = .admitting →
      (findUnits s x.rcb x.excl nv nc nw = none → exec (.admission g) s = .next (endGraph s g 2 0)) ∧
      (∀ (units : List RUnit) (ts : List Nat), findUnits s x.rcb x.excl nv nc nw = some units →
        let p := planOf s x units
        p.times x.nodes = some ts →
        exec (.admission g) s = .next (if capsOk s x.rcb nv nc nw (effMlbw s x.rcb) = true ∧ p.within s.time (p.bound x.nodes ts) x.deadline = true then
          writeHelds (enqueueReady { s with graphs := tabSet s.graphs g { x with st := .active, reserved := units } } g) x.rcb else endGraph s g 2 0))) ∧
    (x.spawned = false → x.reserved = [] → endGraph s g 2 0 = { s with
      graphs := s.graphs.filter fun e => e.1 != g
      queues := s.queues.set x.cq { s.queues[x.cq] with waiting := s.queues[x.cq].waiting ++ [{ status := 2, sq := x.sq.val, check := 0, tag := x.gtag, time := s.time, seq := x.seq }] } }) ∧
    (∀ (i : Nat) (n : GNode) (t : Nat), x.nodes[i]? = some n →
      let p := planOf s x x.reserved
      p.time n = some t → x.reserved ≠ [] → n.st = .running → n.overrun = false →
      ((s.time - n.start) * p.unit < t * 1000 → exec (.boundOverrun g i) s = .next s) ∧
      (t * 1000 ≤ (s.time - n.start) * p.unit → x.st = .active →
        let r := saddlerReport s (effFdom s x.rcb) .boundOverrun .report (nodeUnit n) x.gtag 0
        let y := { x with nodes := x.nodes.modify i fun n => { n with overrun := true } }
        let u : State := { r with graphs := tabSet r.graphs g y }
        exec (.boundOverrun g i) s = .next (if planHolds u y y.reserved then u else breach u g (nodeUnit n)))) ∧
    (x.st = .active → x.reserved ≠ [] → x.breached = false → ∀ ts,
      let p := planOf s x x.reserved
      p.times x.nodes = some ts →
      let left (i : Nat) := p.bound x.nodes ((x.nodes.zip ts).zipIdx.map fun q => if (following x.nodes i).contains q.2 then p.left s.time q.1.1 q.1.2 else 0)
      let late (n : GNode × Nat) : Prop := n.1.overrun = true ∧ n.1.st = .running ∧ p.within s.time (left n.2) x.deadline = false
      ((∀ n ∈ x.nodes.zipIdx, ¬late n) → exec (.deadlineWatch g) s = .next s) ∧
      (∀ (n : GNode × Nat) (a b : List (GNode × Nat)), x.nodes.zipIdx = a ++ n :: b → (∀ m ∈ a, ¬late m) → late n →
        exec (.deadlineWatch g) s = .next (breach s g (nodeUnit n.1)))) ∧
    (∀ u : FenceUnit, (∃ n ∈ x.nodes, n.st = .running) →
      ∃ t : State, breach s g u = t ∧ tabFind t.graphs g = some { x with breached := true, st := if effDlpol s x.rcb = 2 then .cancelling else x.st } ∧
        (s.fdTable = none → t.queues = s.queues.set x.cq { s.queues[x.cq] with
          waiting := s.queues[x.cq].waiting ++ [{ status := 3, sq := x.sq.val, check := 0, tag := x.gtag, time := s.time, seq := x.seq }] }))

/-! Hardware steps: fabric, links, repair, power. -/

/-- The fabric and its links (R291, R349, R392 to R394): an access of another module is a transfer with that module's next number on the first live plane, and waits while there is none; one to a module that is lost or no member fails at once with MODULE_LOST and makes no transfer; a write or an atomic of another module takes effect once in main memory (of the atomics CAS writes where the old value equals its comparand, MIN and MAX are signed); the acknowledgement retires its transfer; a transfer unacknowledged for 10 µs moves to another live plane; a port keeps its last 512 flits until they are acknowledged; a flit that fails its CRC is replayed, eight failures ask for a retrain, and a failed retrain fences the port; a frame is retried 16 times, then the link retrains, and the third failure in an hour fences it; a lost module's transfers end. Fencing (R14, R338, R350): a core that fails leaves no node of its loop contexts running and its spare takes its index over as at READY, but for pool bytes that the reports of re-planned graphs write; a cluster is out of service; a walker takes no operation any more; a Tug takes its cluster with it; a memory link and a port are out of use; a report names the unit by kind and number. Other modules show as their memory alone (log 43), an access while no plane is live waits by log 43, what a spare takes over is the reading of log 44, the link of a page is log 13. -/
def Obligations.LinkAndFenceResults : Prop :=
  (∀ (s : State),
    let sent (k : Port) : Port := { k with replay := (k.replay ++ [k.next]).drop (k.replay.length - 511), next := k.next + 1 }
    (∀ pa : Nat, paHome pa ≠ s.modId.val →
      let n := tabGet 0 s.nextSeq (paHome pa)
      let gone := (∀ m ∈ s.members, m.val ≠ paHome pa) ∨ ∃ m ∈ s.unreachable, m.val = paHome pa
      (physKind s pa = .lost ↔ gone) ∧
      (gone → transfer pa s = .error (.cause .moduleLost none) s) ∧
      (¬gone → physKind s pa ≠ .absent → livePlane s = none → transfer pa s = .error .wait s) ∧
      ∀ p, ¬gone → physKind s pa ≠ .absent → livePlane s = some p → transfer pa s = .ok () { s with
        nextSeq := tabSet s.nextSeq (paHome pa) (n + 1)
        transfers := s.transfers ++ [{ dst := paHome pa, seq := n, plane := some p, sent := s.time }]
        ports := tabSet s.ports p (sent (tabGet Port.reset s.ports p)) }) ∧
    (∀ (src seq pa : Nat) (data : List Byte),
      (∀ i, i < data.length → paHome (pa + i) = s.modId.val ∧ physKind s (pa + i) = .memory) → data ≠ [] → (src, seq) ∉ s.applied →
      exec (.fabricDelivery src seq (.write pa data)) s = .next { s with mem := memPut s.mem pa data, poison := unpoison s.poison pa data.length, applied := s.applied ++ [(src, seq)] }) ∧
    (∀ (src seq pa : Nat) (b c : BitVec 64), paHome pa = s.modId.val → physKind s pa = .memory → physKind s (pa + 7) = .memory → (src, seq) ∉ s.applied →
      let old := BitVec.ofNat 64 (memRead s.mem pa 8)
      let puts (op : Fin 8) (v : BitVec 64) : Prop := exec (.fabricDelivery src seq (.amo pa op b c)) s = .next { s with mem := memWrite s.mem pa 8 v.toNat, applied := s.applied ++ [(src, seq)] }
      puts 0 (old + b) ∧ puts 1 b ∧ (old = c → puts 2 b) ∧
      (old ≠ c → exec (.fabricDelivery src seq (.amo pa 2 b c)) s = .next { s with applied := s.applied ++ [(src, seq)] }) ∧
      puts 3 (if old.slt b then old else b) ∧ puts 4 (if old.slt b then b else old) ∧ puts 5 (old &&& b) ∧ puts 6 (old ||| b) ∧ puts 7 (old ^^^ b)) ∧
    (∀ (src seq : Nat) (a : FabricAccess), (src, seq) ∈ s.applied → exec (.fabricDelivery src seq a) s = .next s) ∧
    (∀ dst seq : Nat, ∃ t : State, exec (.fabricAcknowledgement dst seq) s = .next t ∧ t = { s with transfers := t.transfers } ∧
      ∀ x, x ∈ t.transfers ↔ x ∈ s.transfers ∧ ¬(x.dst = dst ∧ x.seq = seq ∧ x.plane.isSome = true)) ∧
    (∀ (dst seq : Nat) (p : Fin 36), (s.port p).live = true →
      let due (t : Transfer) : Prop := t.dst = dst ∧ t.seq = seq ∧ t.plane ≠ some p.val ∧ t.sent + 10000 ≤ s.time
      ((∀ t ∈ s.transfers, ¬due t) → exec (.fabricResend dst seq p) s = .next s) ∧
      ((∃ t ∈ s.transfers, due t) → exec (.fabricResend dst seq p) s = .next { s with
        transfers := s.transfers.map fun t =>
          if t.dst = dst ∧ t.seq = seq ∧ t.plane ≠ some p.val ∧ t.sent + 10000 ≤ s.time then { t with plane := some p.val, sent := s.time } else t
        ports := tabSet s.ports p.val (sent (s.port p)) })) ∧
    (∀ (p : Fin 36) (seq : Nat),
      let k := s.port p
      let put (k' : Port) : State := { s with ports := tabSet s.ports p.val k' }
      (k.live = true → seq ∈ k.replay → k.failed < 8 → exec (.balfinFlitReplay p seq) s = .next (put { k with bad := some seq, failed := if k.bad = some seq then k.failed + 1 else 1 })) ∧
      (k.live = true → 8 ≤ k.failed → exec (.balfinRetrain p true) s = .next (put { k with bad := none, failed := 0 })) ∧
      (k.live = true → 8 ≤ k.failed → k.fenced = false →
        ∃ t : State, exec (.balfinRetrain p false) s = .next t ∧ t.port p = { k with live := false, fenced := true } ∧ t.mem = s.mem ∧ t.ctxs = s.ctxs ∧ ∀ r, r ≠ p → t.port r = s.port r) ∧
      (k.failed < 8 → ∀ b, exec (.balfinRetrain p b) s = .next s) ∧
      (k.bad = none → exec (.flitAcknowledgement p seq) s = .next (put { k with replay := k.replay.filter fun n => seq < n })) ∧
      (∀ b, k.bad = some b → b ≤ seq → exec (.flitAcknowledgement p seq) s = .next (put { k with replay := k.replay.filter fun n => seq < n, bad := none, failed := 0 }))) ∧
    (∀ l : Fin 96,
      let k := s.memLink l
      let put (k' : MemLink) : State := { s with links := tabSet s.links l.val k' }
      (k.fenced = false → k.retries < 16 → exec (.memLinkCrcRetry l) s = .next (put { k with retries := k.retries + 1 }) ∧ ∀ b, exec (.memLinkRetrain l b) s = .next s) ∧
      (k.fenced = false → 16 ≤ k.retries →
        exec (.memLinkRetrain l true) s = .next (put { k with retries := 0 }) ∧
        (let recent := k.failures.filter fun t => s.time < t + 3600000000000
         (recent.length < 2 → exec (.memLinkRetrain l false) s = .next (put { k with failures := s.time :: recent })) ∧
         (2 ≤ recent.length → ∃ t : State, exec (.memLinkRetrain l false) s = .next t ∧ (t.memLink l).fenced = true)))) ∧
    (∀ m : Nat, m < 144 → m ≠ s.modId.val → ∃ t : State, exec (.homeModuleLost m) s = .next t ∧ t = { s with unreachable := t.unreachable, transfers := t.transfers } ∧
      (∃ u ∈ t.unreachable, u.val = m) ∧ ∀ x, x ∈ t.transfers ↔ x ∈ s.transfers ∧ x.dst ≠ m)) ∧
  (∀ (s : State),
    (∀ i : Fin 1024, (s.cluster (i.val / 8)).spareUsed = false → ∃ t : State, exec (.unitFence (.core i)) s = .next t ∧
      (t.cluster (i.val / 8)).spareUsed = true ∧ t.core i.val = { Core.reset with pool := (t.core i.val).pool, poison := (t.core i.val).poison } ∧
      ∀ lc : Fin 8, lc.val < 4 → (t.ctx { core := i, lc }).resident = false) ∧
    (∀ i : Fin 128, ∃ t : State, exec (.unitFence (.cluster i)) s = .next t ∧ (t.cluster i.val).service = .fenced) ∧
    (∀ i : Fin 128, exec (.unitFence (.tug i)) s = exec (.unitFence (.cluster i)) s) ∧
    (∀ i : Fin 32, ∃ t : State, exec (.unitFence (.walker i)) s = .next t ∧ i.val ∈ t.walkerFenced) ∧
    (∀ l : Fin 96, ∃ t : State, exec (.unitFence (.memLink l)) s = .next t ∧ (t.memLink l).fenced = true) ∧
    (∀ p : Fin 36, ∃ t : State, exec (.unitFence (.balfin p)) s = .next t ∧ (t.port p).fenced = true) ∧
    fenceWho (.core 5) = 5 ∧ fenceWho (.cluster 5) = 0x10005 ∧ fenceWho (.tug 5) = 0x20005 ∧ fenceWho (.walker 5) = 0x30005 ∧ fenceWho (.memLink 5) = 0x40005 ∧ fenceWho (.balfin 5) = 0x50005)

/-- Scrubbing and the Cinch (R347, R348, R398, R399, R400, R404, R405): a scrub and an error that the code corrects change nothing programs see, and a larger one poisons the pool word or the 64 bytes of memory; each microsecond a cluster takes dynamic current as total less leakage, and over its limit withdraws the next pair, then widens the gap, then lowers CAP by 100 MHz from the highest clock, not below FLOOR, one step; after seven quiet ones eight currents below 90% undo one, CAP first, then the gap, then the highest pair withdrawn; three differences running mark a sensor drifting and are logged, and its cluster is held to 90% of the limit; a lease counts down while its context is resident and ends at 0; 100 µs over with every step taken lower FLOOR by 100 MHz, down to 2,000. Start and loss of power (R396, R407 to R410): DLGO begins a download when the module is idle or has rejected an image; an image that cannot be read, is of a wrong length, fails its digest, a signature, or is older than the fuse is rejected with its reason; one that passes brings the module up: READY, TIME 0, pools and slots clear; the Saddler's plan has one entry for each cluster in service, with FLOOR from 2,000 to 3,800 and LMAX from 3,300 to 3,800, the limits with the I/O dies' draw at most 8.5 kW, and sets each cluster's limit, FLOOR, LMAX, voltage, leakage table and predicted date; a plan that is not so sets nothing; at power-up and power loss the module is as at reset. Whether a signature verifies is a constant of Config (log 10), the count of quiet microseconds and which plan is taken the readings of log 45, what is fused and fitted log 42, the values at power-up no rule gives log 4. -/
def Obligations.PowerAndBringUpResults : Prop :=
  (∀ (s : State),
    (∀ (core : Fin 1024) (off : Nat), ∃ t : State, exec (.sramScrub core off) s = .next t ∧ t = { s with corrected := t.corrected, service := t.service }) ∧
    (∀ u : ErrorUnit, let t := findError s u false
      t = { s with corrected := (u.unit, s.time) :: s.corrected.filter fun e => s.time < e.2 + 3600000000000, service := t.service }) ∧
    (∀ (c : Fin 1024) (w : Nat), w < poolSize / 8 → w ∈ ((findError s (.pool c w) true).core c.val).poison) ∧
    (∀ n : Nat, physKind s (64 * n) = .memory → n ∈ (findError s (.mem n) true).poison) ∧
    (∀ (cl : Fin 128) (r : SensorReading),
      let k := (s.cluster cl.val).cinch
      let amps := r.milliamps
      let lower := max k.floor (min k.cap (topClock s cl.val) - 100)
      let lim := if k.drifting then 9 * k.limit else 10 * k.limit
      ∃ t : State, exec (.cinchTick cl r) s = .next t ∧ t.mem = s.mem ∧ t.cores = s.cores ∧
        let k' := (t.cluster cl.val).cinch
        k'.recent = (amps :: k.recent).take 8 ∧ k'.milli = (amps :: k.milli).take 1000 ∧ k'.limit = k.limit ∧ k'.floor = k.floor ∧
        k'.dynamic = 500 * r.milliamps - leakage500 k.leakage r.celsius r.millivolts ∧
        (lim < 10 * amps →
          (∀ i : Fin 8, k.wd.getLsbD i.val = false → (∀ j : Fin 8, j.val < i.val → k.wd.getLsbD j.val = true) →
            k'.wd = k.wd ||| BitVec.ofNat 8 (2 ^ i.val) ∧ k'.gap = k.gap ∧ k'.cap = k.cap ∧ k'.quiet = 0) ∧
          (k.wd = 255 → k.gap < 2 → k'.wd = 255 ∧ k'.gap = k.gap + 1 ∧ k'.cap = k.cap ∧ k'.quiet = 0) ∧
          (k.wd = 255 → k.gap = 2 → lower < k.cap → k'.wd = 255 ∧ k'.gap = 2 ∧ k'.cap = lower ∧ k'.quiet = 0) ∧
          (k.wd = 255 → k.gap = 2 → k.cap = k.floor → k'.wd = 255 ∧ k'.gap = 2 ∧ k'.cap = k.cap ∧ k'.overs = k.overs + 1)) ∧
        (10 * amps ≤ lim → k'.overs = 0) ∧
        (10 * amps ≤ lim → (7 ≤ k.recent.length ∧ 7 ≤ k.quiet ∧ (∀ x ∈ (amps :: k.recent).take 8, 100 * x < 9 * lim)) →
          (k.cap < 3800 → k'.cap = min 3800 (k.cap + 100) ∧ k'.gap = k.gap ∧ k'.wd = k.wd) ∧
          (3800 ≤ k.cap → 0 < k.gap → k'.cap = k.cap ∧ k'.gap = k.gap - 1 ∧ k'.wd = k.wd) ∧
          (3800 ≤ k.cap → k.gap = 0 → ∀ i : Fin 8, k.wd.getLsbD i.val = true → (∀ j : Fin 8, i.val < j.val → k.wd.getLsbD j.val = false) →
            k'.cap = k.cap ∧ k'.gap = 0 ∧ k'.wd = k.wd &&& ~~~(BitVec.ofNat 8 (2 ^ i.val)) ∧ k'.quiet = 0) ∧
          (3800 ≤ k.cap → k.gap = 0 → k.wd = 0 → k'.cap = k.cap ∧ k'.gap = 0 ∧ k'.wd = 0 ∧ k'.quiet = k.quiet + 1))) ∧
    (∀ c : CtxId, ∀ l, (s.ctx c).lease = some l →
      (l.micros = 0 → exec (.leaseExpire c) s = .next (s.setCtx c { s.ctx c with lease := none })) ∧
      countLease { s.ctx c with st := .running } = { s.ctx c with st := .running, lease := some { l with micros := l.micros - 1 } } ∧
      countLease { s.ctx c with st := .parked } = { s.ctx c with st := .parked }) ∧
    (∀ (cl : Fin 128) (r : SensorReading),
      let k := (s.cluster cl.val).cinch
      let put (k' : Cinch) : State := s.modCluster cl.val fun x => { x with cinch := k' }
      (clusterIdle s cl.val = false → exec (.sensorCrossCheck cl r) s = .next s) ∧
      let l := leakage500 k.leakage r.celsius r.millivolts
      (readsOff k.leakage r = true ↔ 500 * r.milliamps * 10 > 11 * l ∨ 500 * r.milliamps * 10 < 9 * l) ∧
      (clusterIdle s cl.val = true → readsOff k.leakage r = true → k.drifting = true ∨ k.drift + 1 < 3 →
        exec (.sensorCrossCheck cl r) s = .next (put { k with drift := k.drift + 1 })) ∧
      (clusterIdle s cl.val = true → readsOff k.leakage r = true → k.drifting = false → 3 ≤ k.drift + 1 →
        exec (.sensorCrossCheck cl r) s = .next { put { k with drift := k.drift + 1, drifting := true } with driftLog := (cl.val, s.time) :: s.driftLog }) ∧
      (clusterIdle s cl.val = true → readsOff k.leakage r = false → exec (.sensorCrossCheck cl r) s = .next (put { k with drift := 0 }))) ∧
    (∀ (cl : Fin 128),
      let k := (s.cluster cl.val).cinch
      (k.overs < 100 → exec (.floorLower cl) s = .next s) ∧
      (100 ≤ k.overs → 2000 < k.floor → s.graphs = [] →
        exec (.floorLower cl) s = .next (s.modCluster cl.val fun x => { x with cinch := { k with floor := max 2000 (k.floor - 100), overs := 0 } })) ∧
      (100 ≤ k.overs → k.floor ≤ 2000 → ∃ t : State, exec (.floorLower cl) s = .next t ∧ (t.cluster cl.val).service = .fenced))) ∧
  (∀ (s : State),
    (∀ link : Fin 2, exec (.dlgo link) s = .next (if s.dl.st = 0 ∨ s.dl.st = 5 then { s with dl := { s.dl with st := 1, reason := 0, link := link.val } } else s)) ∧
    (∀ plan : BringUp,
      let n := s.dl.len.toNat
      let img := memBytes (if s.dl.link = 1 then s.host1 else s.host0) s.dl.addr.toNat n
      let f (off m : Nat) := byteField img off m
      let sized := 0x2000 ≤ n ∧ n ≤ 0x4000000 ∧ f 8 8 + 0x2000 = n
      let whole := sha384Digest (img.drop 0x2000) = (img.drop 0x10).take 48
      let signed := Config.ecdsaOk (img.take 64) ((img.drop 0x40).take 96) = true
      let signed2 := Config.mldsaOk (img.take 64) ((img.drop 0xA0).take 4627) = true
      let rejected (r : Nat) (b : Bool) : Prop := exec (.firmwareVerify b plan) s = .next { s with dl := { s.dl with st := 5, reason := r } }
      (s.dl.st ≠ 1 → exec (.firmwareVerify false plan) s = .next s) ∧
      (s.dl.st = 1 →
        rejected 5 true ∧ (¬sized → rejected 1 false) ∧ (sized → ¬(whole ∧ signed) → rejected 2 false) ∧ (sized → whole → signed → ¬signed2 → rejected 3 false) ∧
        (sized → whole → signed → signed2 → f 4 4 < s.fuse → rejected 4 false) ∧
        (sized → whole → signed → signed2 → s.fuse ≤ f 4 4 → plansOk s plan.power = false → exec (.firmwareVerify false plan) s = .next s) ∧
        (sized → whole → signed → signed2 → s.fuse ≤ f 4 4 → plansOk s plan.power = true → ∃ t : State, exec (.firmwareVerify false plan) s = .next t ∧
          t.dl = { s.dl with st := 4, reason := 0 } ∧ t.time = 0 ∧ t.modId = plan.modId ∧ t.members = plan.members ∧ t.asidTable = plan.asidTable ∧
          t.mem = s.mem ∧ t.ctxs = s.ctxs ∧
          ∀ e ∈ t.cores, e.2.pool = [] ∧ e.2.lanes = [] ∧ e.2.poison = [] ∧ e.2.lanePoison = [] ∧ e.2.slotPoison = [] ∧ ∀ n : Fin 32, e.2.slots[n] = Slot.reset))) ∧
    (∀ plans : PowerPlan,
      (plansOk s plans = true ↔
        (∀ p ∈ plans.clusters, 2000 ≤ p.floor ∧ p.floor ≤ 3800 ∧ 3300 ≤ p.lmax ∧ p.lmax ≤ 3800) ∧
        (∀ i : Fin 128, (plans.clusters.filter fun p => p.cluster = i).length = if (s.cluster i.val).service = .inService then 1 else 0) ∧
        (plans.clusters.map fun p => p.limit * p.volts).sum + 1000 * plans.ioDraw ≤ 8500000000) ∧
      (plansOk s plans = false → exec (.ageingRead plans) s = .next s) ∧
      (plansOk s plans = true → s.graphs = [] → ∃ t : State, exec (.ageingRead plans) s = .next t ∧ t.ioDraw = plans.ioDraw ∧ t.mem = s.mem ∧
        t.service = (if ∃ p ∈ plans.clusters, p.marginDays < 90 then s.service + 1 else s.service) ∧
        ∀ p ∈ plans.clusters, (t.cluster p.cluster.val).cinch = { (s.cluster p.cluster.val).cinch with
          limit := p.limit, floor := p.floor, lmax := p.lmax, cap := max (s.cluster p.cluster.val).cinch.cap p.floor, volts := p.volts, leakage := p.leakage
          wearDate := s.time + p.marginDays * 86400000000000, drift := 0, drifting := false })) ∧
    (let off : State := { State.reset with host0 := s.host0, host1 := s.host1, fuse := s.fuse, agenda := s.agenda, cur := s.cur, tick := s.tick, late := s.late }
     exec .powerUp s = .next off ∧ exec .powerLoss s = .next off))

/-! Decoding and the step. -/

/-- Every word the encoder gives for a well-formed instruction decodes to that instruction, with every operand at every value its encoding admits (R121, R124 to R133). -/
def Obligations.DecodeOfEncode : Prop :=
  ∀ (i : Instr) (w : Nat), wf i = true → encode i = some w → decode w = .ok i ∧ w < 2 ^ 32

/-- Every word that decodes is the encoding of the instruction it decodes to, and that instruction is well formed: no bit of an accepted word is ignored (R121, R124 to R133). -/
def Obligations.EncodeOfDecode : Prop :=
  ∀ (w : Nat) (i : Instr), w < 2 ^ 32 → decode w = .ok i → encode i = some w ∧ wf i = true

/-- What the chapters' own example words hold: one word of each family, and the words that are not instructions with the cause each raises. -/
def Obligations.WrittenWordsDecode : Prop :=
  decode 0x04221800 = .ok (.add ⟨1, 2, 3, 0⟩) ∧ decode 0x08A5FFF8 = .ok (.addi ⟨5, 5, 0xFFF8⟩) ∧
  decode 0x2086D010 = .ok (.ld ⟨4, 6, .d, .sync, 16⟩) ∧ decode 0x34221FFD = .ok (.br ⟨1, 2, .eq, 0x1FFD⟩) ∧
  decode 0x48A63828 = .ok (.amoadd ⟨5, 6, 7, .clu, .acquire, 0⟩) ∧ decode 0x4C007810 = .ok (.fence ⟨.mod, true, true, 0⟩) ∧
  decode 0x68611020 = .ok (.vfadd ⟨3, 1, .vec 2 false, true, false, 0⟩) ∧ decode 0x68612C00 = .ok (.vfadd ⟨3, 1, .sca 5, false, false, 0⟩) ∧
  decode 0x80460004 = .ok (.vld ⟨2, 3, 4⟩) ∧ decode 0x988A6280 = .ok (.mma ⟨2, 5, 6, true, 0⟩) ∧
  decode 0x54284846 = .ok (.tcopym ⟨1, 8, 9, 6⟩) ∧ decode 0x58486000 = .ok (.wbind ⟨2, 8, 12, 0⟩) ∧
  decode 0x00000000 = .error .illZero ∧ decode 0x2C000000 = .error .illOpc ∧ decode 0x040000C8 = .error .illFn ∧
  decode 0x68000385 = .error .illFn ∧ decode 0x2000E000 = .error .illField ∧ decode 0x40200000 = .error .illField ∧
  decode 0x4C00005D = .error .illHint ∧ decode 0x84460004 = .error .illHint

/-- The first steps of R121: the zero word, the majors that R132 reserves, and, for the majors with a function field, the codes that R133 leaves unassigned; these words and no others raise ILL_ZERO, ILL_OPC and ILL_FN. Each row gives a major, the lowest bit of its function field, the number of codes of the field and how many of them are assigned, from 0 up. -/
def Obligations.ReservedWordsRefused : Prop :=
  let reserved (w : Nat) : Prop := w / 2 ^ 26 = 0 ∨ w / 2 ^ 26 = 0x0B ∨ w / 2 ^ 26 = 0x0C ∨ 0x29 ≤ w / 2 ^ 26
  let rows : List (Nat × Nat × Nat × Nat) :=
    [(0x01, 3, 256, 25), (0x13, 3, 256, 12), (0x14, 3, 256, 15), (0x15, 6, 32, 8), (0x16, 3, 256, 5), (0x18, 3, 256, 7), (0x1A, 6, 16, 14),
     (0x1B, 6, 16, 15), (0x1C, 6, 16, 13), (0x1D, 6, 16, 7), (0x1E, 6, 32, 30), (0x1F, 6, 16, 7), (0x20, 11, 64, 5), (0x21, 11, 64, 4),
     (0x22, 6, 16, 3), (0x23, 6, 16, 3), (0x24, 3, 256, 4), (0x25, 6, 16, 3), (0x26, 8, 16, 9), (0x27, 11, 64, 2), (0x28, 3, 256, 3)]
  let unassigned (w : Nat) : Prop := ∃ r ∈ rows, w / 2 ^ 26 = r.1 ∧ r.2.2.2 ≤ w / 2 ^ r.2.1 % r.2.2.1
  ∀ w : Nat, w < 2 ^ 32 →
    (decode w = .error .illZero ↔ w = 0) ∧ (decode w = .error .illOpc ↔ w ≠ 0 ∧ reserved w) ∧ (decode w = .error .illFn ↔ unassigned w)

/-- A step runs the instruction at the PC (R120 to R122, R209, R276, R346). When the next turn is a running context's, with no trap still to be delivered and, once the kept entries of a resumption are back and what the slots it gives up waited for is settled, no vector instruction queued or set aside, the step is `exec` of the instruction that the word fetched at its PC decodes to, in the state the fetch leaves; an undecodable word is the step DECODE_CAUSE with its cause and the word; a page an invalidation discarded stops being marked. A turn of the hardware runs that step. Time has passed before either. A fetch gives the word the core's decoded operations hold for the address under the address space and the declared count, and with none there the little-endian word at the 4-aligned address from the page the die's commons hold for the address space, which the core then holds (R1, R120, R314); an address that is no multiple of 4 raises PC_ALIGN with TVAL the address. That the head of the agenda says whose turn it is, and the time a step adds, are the model's (log 1, 6); the order of trap and fetch for a discarded page is log 35. -/
def Obligations.StepRunsTheDecodedInstruction : Prop :=
  (∀ (s : State) (rest : List Turn),
    let p := passTime s
    (∀ (c : CtxId) (late : Bool), p.agenda = .ctx c late :: rest →
      let u : State := settleRels (State.modMe { p with agenda := rest, cur := c, late } requeue) c
      u.me.st = .running → u.me.pendTraps = [] → u.me.queue = [] → u.me.laneHeld = false →
      ∀ (w : Nat) (t : State), fetchWord u.me.pc.toNat u = .ok w t →
        let t := t.modMe fun x => { x with lost := x.lost.filter fun g => g != u.me.pc.toNat / 4096 }
        (∀ i, decode (w % 2 ^ 32) = .ok i → step s = exec i t) ∧
        (∀ cause, decode (w % 2 ^ 32) = .error cause → step s = exec (.decodeCause cause (BitVec.ofNat 32 w)) t)) ∧
    (∀ i, p.agenda = .event i :: rest → step s = exec i { p with agenda := rest, late := true })) ∧
  (∀ (s : State) (va : Nat),
    (va % 4 ≠ 0 → fetchWord va s = .error (.cause .pcAlign (BitVec.ofNat 64 va)) s) ∧
    (∀ (pa typ : Nat) (t : State), va % 4 = 0 →
      coreLoc s.cur.core { asid := s.me.asid, priv := s.me.priv, holder := .core s.cur.core.val } va 4 1 .fetch true s = .ok (.mem pa typ) t →
      (∀ o, findOp t va = some o → fetchWord va s = .ok o.word.toNat t) ∧
      (∀ p : CodePage, findOp t va = none → findCode t (dieOf s.cur.core.val) s.me.asid (va / 4096) = some p →
        ∃ w, fetchWord va s = .ok w (t.modMyCore fun k =>
            { k with ops := { asid := t.me.asid, eff := t.me.vc.eff, va, word := BitVec.ofNat 32 w } :: k.ops }) ∧
          ∀ i : Fin 4, w / 256 ^ i.val % 256 = (memGet p.bytes (va % 4096 + i.val)).toNat)))

/-! Reset and the memories. -/

/-- The module after power-up, for what the rules give: STATE is 0, no queue is enabled, nothing is installed or running; every loop context has the launch values of the state table and the reset column of the control registers, every vector register is plain and full and reads zero, every core has the reset partition word, a pool and lane tables of zeros and free slots. Fields no rule gives a value for (log 4) are not named here. That a queue, a region and a graph are absent before any bring-up is log 4. -/
def Obligations.ResetValues : Prop :=
  let z := State.reset
  z.dl.st = 0 ∧ z.dl.reason = 0 ∧ z.regions = [] ∧ z.graphs = [] ∧ (∀ q : Fin 64, (z.queue q).sqcfg = 0 ∧ (z.queue q).cqcfg = 0) ∧
  (∀ c : CtxId,
    let x := z.ctx c
    x.st = .free ∧ x.full = BitVec.allOnes 32 ∧ (∀ r : Fin 32, x.sget r = 0) ∧
    (∀ r : Fin 32, x.v[r].full = true ∧ x.v[r].dirty = false ∧ x.v[r].pois = false ∧ x.v[r].kind = .plain ∧ x.v[r].k = 0) ∧
    (∀ q : Fin 16, x.q[q].bound = false) ∧ (∀ t : Fin 16, x.tk[t] = .none ∧ x.pk[t] = .none) ∧ (∀ e : Fin 8, x.ents[e] = 0) ∧ x.binds = [] ∧
    x.vc.vl = 0 ∧ x.vc.vshape = 0 ∧ x.vc.vtype = 0 ∧ x.vc.vm = 8 ∧ x.vc.vs = 0 ∧ x.vc.vstart = 0 ∧ x.vc.xmr = 0 ∧ x.vc.erule = 0 ∧
    x.vc.vdirty = 0 ∧ x.vc.vuse = 0 ∧ x.vc.vlive = 0 ∧ x.vc.cnt = 0 ∧ x.vc.eff = 0 ∧ x.fc.seed = 0 ∧ x.fc.rmo = 0 ∧ x.fc.flags = 0 ∧
    x.fc.satcnt = 0 ∧ x.fc.mrows = 0 ∧ x.tags = 0 ∧ x.tr.cause = 0 ∧ x.tr.epc = 0 ∧ x.tr.tval = 0 ∧ x.tr.vepc = 0 ∧ x.slip = 0 ∧ x.lease = none) ∧
  (∀ k : Fin 1024,
    let c := z.core k.val
    c.part = 0x80078 ∧ (∀ a, memGet c.pool a = 0 ∧ memGet c.lanes a = 0) ∧ ∀ n : Fin 32, c.slots[n].st = .free)

/-- A number written at a memory address of this module is what a read of the same bytes gives back, little-endian (R1), and no other byte of main memory changes; a 64-byte unit written whole is no longer poisoned (R348). That memory is a list of bytes with zero where nothing is listed is log 3. -/
def Obligations.MemoryReadsBack : Prop :=
  ∀ (s : State) (pa n v : Nat), physKind s pa = .memory → paHome pa = s.modId.val →
    ∃ t : State, physWrite pa n v s = .ok () t ∧
      physRead pa n t = .ok (v % 256 ^ n) t ∧
      (∀ a, t.byte a = if pa ≤ a ∧ a < pa + n then BitVec.ofNat 8 (v / 256 ^ (a - pa)) else s.byte a) ∧
      (∀ u, pa ≤ u * 64 → u * 64 + 64 ≤ pa + n → u ∉ t.poison) ∧
      t = { s with mem := t.mem, poison := t.poison } ∧ (s.MemOk → t.MemOk)

/-- Every byte memory of the module right after power-up has the canonical form. The form, and the zero of an unlisted byte of main memory, are the model's (log 3). -/
def Obligations.ResetMemory : Prop := State.reset.MemOk

/-- Every step keeps the canonical form of every byte memory: addresses strictly rise and no listed byte is the zero that an unlisted address reads as, in main memory, both host memories, every core's pool and lane tables, and the tiles and images of displaced work. The form, and the zero of an unlisted byte of main memory, are the model's (log 3). -/
def Obligations.StepKeepsMemory : Prop :=
  ∀ (s t : State), s.MemOk → step s = .next t → t.MemOk
end

