-- ==== Sys2Proof/Laws/State.lean ====
section
/-! SUPPORT. What an update of the state leaves alone, field by field, and what a table or a unit reads after it was written. -/

namespace Sys2Proof.Machine

/-! Fields that an update of one unit leaves alone. -/

@[simp] theorem State.setCtx_cores (s : State) (c : CtxId) (x : Ctx) : (s.setCtx c x).cores = s.cores := rfl
@[simp] theorem State.setCtx_clusters (s : State) (c : CtxId) (x : Ctx) : (s.setCtx c x).clusters = s.clusters := rfl
@[simp] theorem State.setCtx_tugs (s : State) (c : CtxId) (x : Ctx) : (s.setCtx c x).tugs = s.tugs := rfl
@[simp] theorem State.setCtx_walks (s : State) (c : CtxId) (x : Ctx) : (s.setCtx c x).walks = s.walks := rfl
@[simp] theorem State.setCtx_walkerFenced (s : State) (c : CtxId) (x : Ctx) : (s.setCtx c x).walkerFenced = s.walkerFenced := rfl
@[simp] theorem State.setCtx_mem (s : State) (c : CtxId) (x : Ctx) : (s.setCtx c x).mem = s.mem := rfl
@[simp] theorem State.setCtx_memSize (s : State) (c : CtxId) (x : Ctx) : (s.setCtx c x).memSize = s.memSize := rfl
@[simp] theorem State.setCtx_poison (s : State) (c : CtxId) (x : Ctx) : (s.setCtx c x).poison = s.poison := rfl
@[simp] theorem State.setCtx_time (s : State) (c : CtxId) (x : Ctx) : (s.setCtx c x).time = s.time := rfl
@[simp] theorem State.setCtx_modId (s : State) (c : CtxId) (x : Ctx) : (s.setCtx c x).modId = s.modId := rfl
@[simp] theorem State.setCtx_members (s : State) (c : CtxId) (x : Ctx) : (s.setCtx c x).members = s.members := rfl
@[simp] theorem State.setCtx_unreachable (s : State) (c : CtxId) (x : Ctx) : (s.setCtx c x).unreachable = s.unreachable := rfl
@[simp] theorem State.setCtx_asidTable (s : State) (c : CtxId) (x : Ctx) : (s.setCtx c x).asidTable = s.asidTable := rfl
@[simp] theorem State.setCtx_fwBase (s : State) (c : CtxId) (x : Ctx) : (s.setCtx c x).fwBase = s.fwBase := rfl
@[simp] theorem State.setCtx_fwSize (s : State) (c : CtxId) (x : Ctx) : (s.setCtx c x).fwSize = s.fwSize := rfl
@[simp] theorem State.setCtx_fdTable (s : State) (c : CtxId) (x : Ctx) : (s.setCtx c x).fdTable = s.fdTable := rfl
@[simp] theorem State.setCtx_regions (s : State) (c : CtxId) (x : Ctx) : (s.setCtx c x).regions = s.regions := rfl
@[simp] theorem State.setCtx_graphs (s : State) (c : CtxId) (x : Ctx) : (s.setCtx c x).graphs = s.graphs := rfl
@[simp] theorem State.setCtx_nextGraph (s : State) (c : CtxId) (x : Ctx) : (s.setCtx c x).nextGraph = s.nextGraph := rfl
@[simp] theorem State.setCtx_nextEnq (s : State) (c : CtxId) (x : Ctx) : (s.setCtx c x).nextEnq = s.nextEnq := rfl
@[simp] theorem State.setCtx_lent (s : State) (c : CtxId) (x : Ctx) : (s.setCtx c x).lent = s.lent := rfl
@[simp] theorem State.setCtx_spilled (s : State) (c : CtxId) (x : Ctx) : (s.setCtx c x).spilled = s.spilled := rfl
@[simp] theorem State.setCtx_spawns (s : State) (c : CtxId) (x : Ctx) : (s.setCtx c x).spawns = s.spawns := rfl
@[simp] theorem State.setCtx_queues (s : State) (c : CtxId) (x : Ctx) : (s.setCtx c x).queues = s.queues := rfl
@[simp] theorem State.setCtx_host0 (s : State) (c : CtxId) (x : Ctx) : (s.setCtx c x).host0 = s.host0 := rfl
@[simp] theorem State.setCtx_host1 (s : State) (c : CtxId) (x : Ctx) : (s.setCtx c x).host1 = s.host1 := rfl
@[simp] theorem State.setCtx_memOff (s : State) (c : CtxId) (x : Ctx) : (s.setCtx c x).memOff = s.memOff := rfl
@[simp] theorem State.setCtx_memWin (s : State) (c : CtxId) (x : Ctx) : (s.setCtx c x).memWin = s.memWin := rfl
@[simp] theorem State.setCtx_dl (s : State) (c : CtxId) (x : Ctx) : (s.setCtx c x).dl = s.dl := rfl
@[simp] theorem State.setCtx_fuse (s : State) (c : CtxId) (x : Ctx) : (s.setCtx c x).fuse = s.fuse := rfl
@[simp] theorem State.setCtx_links (s : State) (c : CtxId) (x : Ctx) : (s.setCtx c x).links = s.links := rfl
@[simp] theorem State.setCtx_ports (s : State) (c : CtxId) (x : Ctx) : (s.setCtx c x).ports = s.ports := rfl
@[simp] theorem State.setCtx_transfers (s : State) (c : CtxId) (x : Ctx) : (s.setCtx c x).transfers = s.transfers := rfl
@[simp] theorem State.setCtx_applied (s : State) (c : CtxId) (x : Ctx) : (s.setCtx c x).applied = s.applied := rfl
@[simp] theorem State.setCtx_nextSeq (s : State) (c : CtxId) (x : Ctx) : (s.setCtx c x).nextSeq = s.nextSeq := rfl
@[simp] theorem State.setCtx_drives (s : State) (c : CtxId) (x : Ctx) : (s.setCtx c x).drives = s.drives := rfl
@[simp] theorem State.setCtx_invals (s : State) (c : CtxId) (x : Ctx) : (s.setCtx c x).invals = s.invals := rfl
@[simp] theorem State.setCtx_ctrls (s : State) (c : CtxId) (x : Ctx) : (s.setCtx c x).ctrls = s.ctrls := rfl
@[simp] theorem State.setCtx_service (s : State) (c : CtxId) (x : Ctx) : (s.setCtx c x).service = s.service := rfl
@[simp] theorem State.setCtx_corrected (s : State) (c : CtxId) (x : Ctx) : (s.setCtx c x).corrected = s.corrected := rfl
@[simp] theorem State.setCtx_driftLog (s : State) (c : CtxId) (x : Ctx) : (s.setCtx c x).driftLog = s.driftLog := rfl
@[simp] theorem State.setCtx_ioDraw (s : State) (c : CtxId) (x : Ctx) : (s.setCtx c x).ioDraw = s.ioDraw := rfl
@[simp] theorem State.setCtx_code (s : State) (c : CtxId) (x : Ctx) : (s.setCtx c x).code = s.code := rfl
@[simp] theorem State.setCtx_commons (s : State) (c : CtxId) (x : Ctx) : (s.setCtx c x).commons = s.commons := rfl
@[simp] theorem State.setCtx_acqs (s : State) (c : CtxId) (x : Ctx) : (s.setCtx c x).acqs = s.acqs := rfl
@[simp] theorem State.setCtx_locks (s : State) (c : CtxId) (x : Ctx) : (s.setCtx c x).locks = s.locks := rfl
@[simp] theorem State.setCtx_agenda (s : State) (c : CtxId) (x : Ctx) : (s.setCtx c x).agenda = s.agenda := rfl
@[simp] theorem State.setCtx_cur (s : State) (c : CtxId) (x : Ctx) : (s.setCtx c x).cur = s.cur := rfl
@[simp] theorem State.setCtx_late (s : State) (c : CtxId) (x : Ctx) : (s.setCtx c x).late = s.late := rfl
@[simp] theorem State.setCtx_tick (s : State) (c : CtxId) (x : Ctx) : (s.setCtx c x).tick = s.tick := rfl

@[simp] theorem State.modCtx_cores (s : State) (c : CtxId) (f : Ctx → Ctx) : (s.modCtx c f).cores = s.cores := rfl
@[simp] theorem State.modCtx_clusters (s : State) (c : CtxId) (f : Ctx → Ctx) : (s.modCtx c f).clusters = s.clusters := rfl
@[simp] theorem State.modCtx_tugs (s : State) (c : CtxId) (f : Ctx → Ctx) : (s.modCtx c f).tugs = s.tugs := rfl
@[simp] theorem State.modCtx_walks (s : State) (c : CtxId) (f : Ctx → Ctx) : (s.modCtx c f).walks = s.walks := rfl
@[simp] theorem State.modCtx_walkerFenced (s : State) (c : CtxId) (f : Ctx → Ctx) : (s.modCtx c f).walkerFenced = s.walkerFenced := rfl
@[simp] theorem State.modCtx_mem (s : State) (c : CtxId) (f : Ctx → Ctx) : (s.modCtx c f).mem = s.mem := rfl
@[simp] theorem State.modCtx_memSize (s : State) (c : CtxId) (f : Ctx → Ctx) : (s.modCtx c f).memSize = s.memSize := rfl
@[simp] theorem State.modCtx_poison (s : State) (c : CtxId) (f : Ctx → Ctx) : (s.modCtx c f).poison = s.poison := rfl
@[simp] theorem State.modCtx_time (s : State) (c : CtxId) (f : Ctx → Ctx) : (s.modCtx c f).time = s.time := rfl
@[simp] theorem State.modCtx_modId (s : State) (c : CtxId) (f : Ctx → Ctx) : (s.modCtx c f).modId = s.modId := rfl
@[simp] theorem State.modCtx_members (s : State) (c : CtxId) (f : Ctx → Ctx) : (s.modCtx c f).members = s.members := rfl
@[simp] theorem State.modCtx_unreachable (s : State) (c : CtxId) (f : Ctx → Ctx) : (s.modCtx c f).unreachable = s.unreachable := rfl
@[simp] theorem State.modCtx_asidTable (s : State) (c : CtxId) (f : Ctx → Ctx) : (s.modCtx c f).asidTable = s.asidTable := rfl
@[simp] theorem State.modCtx_fwBase (s : State) (c : CtxId) (f : Ctx → Ctx) : (s.modCtx c f).fwBase = s.fwBase := rfl
@[simp] theorem State.modCtx_fwSize (s : State) (c : CtxId) (f : Ctx → Ctx) : (s.modCtx c f).fwSize = s.fwSize := rfl
@[simp] theorem State.modCtx_fdTable (s : State) (c : CtxId) (f : Ctx → Ctx) : (s.modCtx c f).fdTable = s.fdTable := rfl
@[simp] theorem State.modCtx_regions (s : State) (c : CtxId) (f : Ctx → Ctx) : (s.modCtx c f).regions = s.regions := rfl
@[simp] theorem State.modCtx_graphs (s : State) (c : CtxId) (f : Ctx → Ctx) : (s.modCtx c f).graphs = s.graphs := rfl
@[simp] theorem State.modCtx_nextGraph (s : State) (c : CtxId) (f : Ctx → Ctx) : (s.modCtx c f).nextGraph = s.nextGraph := rfl
@[simp] theorem State.modCtx_nextEnq (s : State) (c : CtxId) (f : Ctx → Ctx) : (s.modCtx c f).nextEnq = s.nextEnq := rfl
@[simp] theorem State.modCtx_lent (s : State) (c : CtxId) (f : Ctx → Ctx) : (s.modCtx c f).lent = s.lent := rfl
@[simp] theorem State.modCtx_spilled (s : State) (c : CtxId) (f : Ctx → Ctx) : (s.modCtx c f).spilled = s.spilled := rfl
@[simp] theorem State.modCtx_spawns (s : State) (c : CtxId) (f : Ctx → Ctx) : (s.modCtx c f).spawns = s.spawns := rfl
@[simp] theorem State.modCtx_queues (s : State) (c : CtxId) (f : Ctx → Ctx) : (s.modCtx c f).queues = s.queues := rfl
@[simp] theorem State.modCtx_host0 (s : State) (c : CtxId) (f : Ctx → Ctx) : (s.modCtx c f).host0 = s.host0 := rfl
@[simp] theorem State.modCtx_host1 (s : State) (c : CtxId) (f : Ctx → Ctx) : (s.modCtx c f).host1 = s.host1 := rfl
@[simp] theorem State.modCtx_memOff (s : State) (c : CtxId) (f : Ctx → Ctx) : (s.modCtx c f).memOff = s.memOff := rfl
@[simp] theorem State.modCtx_memWin (s : State) (c : CtxId) (f : Ctx → Ctx) : (s.modCtx c f).memWin = s.memWin := rfl
@[simp] theorem State.modCtx_dl (s : State) (c : CtxId) (f : Ctx → Ctx) : (s.modCtx c f).dl = s.dl := rfl
@[simp] theorem State.modCtx_fuse (s : State) (c : CtxId) (f : Ctx → Ctx) : (s.modCtx c f).fuse = s.fuse := rfl
@[simp] theorem State.modCtx_links (s : State) (c : CtxId) (f : Ctx → Ctx) : (s.modCtx c f).links = s.links := rfl
@[simp] theorem State.modCtx_ports (s : State) (c : CtxId) (f : Ctx → Ctx) : (s.modCtx c f).ports = s.ports := rfl
@[simp] theorem State.modCtx_transfers (s : State) (c : CtxId) (f : Ctx → Ctx) : (s.modCtx c f).transfers = s.transfers := rfl
@[simp] theorem State.modCtx_applied (s : State) (c : CtxId) (f : Ctx → Ctx) : (s.modCtx c f).applied = s.applied := rfl
@[simp] theorem State.modCtx_nextSeq (s : State) (c : CtxId) (f : Ctx → Ctx) : (s.modCtx c f).nextSeq = s.nextSeq := rfl
@[simp] theorem State.modCtx_drives (s : State) (c : CtxId) (f : Ctx → Ctx) : (s.modCtx c f).drives = s.drives := rfl
@[simp] theorem State.modCtx_invals (s : State) (c : CtxId) (f : Ctx → Ctx) : (s.modCtx c f).invals = s.invals := rfl
@[simp] theorem State.modCtx_ctrls (s : State) (c : CtxId) (f : Ctx → Ctx) : (s.modCtx c f).ctrls = s.ctrls := rfl
@[simp] theorem State.modCtx_service (s : State) (c : CtxId) (f : Ctx → Ctx) : (s.modCtx c f).service = s.service := rfl
@[simp] theorem State.modCtx_corrected (s : State) (c : CtxId) (f : Ctx → Ctx) : (s.modCtx c f).corrected = s.corrected := rfl
@[simp] theorem State.modCtx_driftLog (s : State) (c : CtxId) (f : Ctx → Ctx) : (s.modCtx c f).driftLog = s.driftLog := rfl
@[simp] theorem State.modCtx_ioDraw (s : State) (c : CtxId) (f : Ctx → Ctx) : (s.modCtx c f).ioDraw = s.ioDraw := rfl
@[simp] theorem State.modCtx_code (s : State) (c : CtxId) (f : Ctx → Ctx) : (s.modCtx c f).code = s.code := rfl
@[simp] theorem State.modCtx_commons (s : State) (c : CtxId) (f : Ctx → Ctx) : (s.modCtx c f).commons = s.commons := rfl
@[simp] theorem State.modCtx_acqs (s : State) (c : CtxId) (f : Ctx → Ctx) : (s.modCtx c f).acqs = s.acqs := rfl
@[simp] theorem State.modCtx_locks (s : State) (c : CtxId) (f : Ctx → Ctx) : (s.modCtx c f).locks = s.locks := rfl
@[simp] theorem State.modCtx_agenda (s : State) (c : CtxId) (f : Ctx → Ctx) : (s.modCtx c f).agenda = s.agenda := rfl
@[simp] theorem State.modCtx_cur (s : State) (c : CtxId) (f : Ctx → Ctx) : (s.modCtx c f).cur = s.cur := rfl
@[simp] theorem State.modCtx_late (s : State) (c : CtxId) (f : Ctx → Ctx) : (s.modCtx c f).late = s.late := rfl
@[simp] theorem State.modCtx_tick (s : State) (c : CtxId) (f : Ctx → Ctx) : (s.modCtx c f).tick = s.tick := rfl

@[simp] theorem State.modMe_cores (s : State) (f : Ctx → Ctx) : (s.modMe f).cores = s.cores := rfl
@[simp] theorem State.modMe_clusters (s : State) (f : Ctx → Ctx) : (s.modMe f).clusters = s.clusters := rfl
@[simp] theorem State.modMe_tugs (s : State) (f : Ctx → Ctx) : (s.modMe f).tugs = s.tugs := rfl
@[simp] theorem State.modMe_walks (s : State) (f : Ctx → Ctx) : (s.modMe f).walks = s.walks := rfl
@[simp] theorem State.modMe_walkerFenced (s : State) (f : Ctx → Ctx) : (s.modMe f).walkerFenced = s.walkerFenced := rfl
@[simp] theorem State.modMe_mem (s : State) (f : Ctx → Ctx) : (s.modMe f).mem = s.mem := rfl
@[simp] theorem State.modMe_memSize (s : State) (f : Ctx → Ctx) : (s.modMe f).memSize = s.memSize := rfl
@[simp] theorem State.modMe_poison (s : State) (f : Ctx → Ctx) : (s.modMe f).poison = s.poison := rfl
@[simp] theorem State.modMe_time (s : State) (f : Ctx → Ctx) : (s.modMe f).time = s.time := rfl
@[simp] theorem State.modMe_modId (s : State) (f : Ctx → Ctx) : (s.modMe f).modId = s.modId := rfl
@[simp] theorem State.modMe_members (s : State) (f : Ctx → Ctx) : (s.modMe f).members = s.members := rfl
@[simp] theorem State.modMe_unreachable (s : State) (f : Ctx → Ctx) : (s.modMe f).unreachable = s.unreachable := rfl
@[simp] theorem State.modMe_asidTable (s : State) (f : Ctx → Ctx) : (s.modMe f).asidTable = s.asidTable := rfl
@[simp] theorem State.modMe_fwBase (s : State) (f : Ctx → Ctx) : (s.modMe f).fwBase = s.fwBase := rfl
@[simp] theorem State.modMe_fwSize (s : State) (f : Ctx → Ctx) : (s.modMe f).fwSize = s.fwSize := rfl
@[simp] theorem State.modMe_fdTable (s : State) (f : Ctx → Ctx) : (s.modMe f).fdTable = s.fdTable := rfl
@[simp] theorem State.modMe_regions (s : State) (f : Ctx → Ctx) : (s.modMe f).regions = s.regions := rfl
@[simp] theorem State.modMe_graphs (s : State) (f : Ctx → Ctx) : (s.modMe f).graphs = s.graphs := rfl
@[simp] theorem State.modMe_nextGraph (s : State) (f : Ctx → Ctx) : (s.modMe f).nextGraph = s.nextGraph := rfl
@[simp] theorem State.modMe_nextEnq (s : State) (f : Ctx → Ctx) : (s.modMe f).nextEnq = s.nextEnq := rfl
@[simp] theorem State.modMe_lent (s : State) (f : Ctx → Ctx) : (s.modMe f).lent = s.lent := rfl
@[simp] theorem State.modMe_spilled (s : State) (f : Ctx → Ctx) : (s.modMe f).spilled = s.spilled := rfl
@[simp] theorem State.modMe_spawns (s : State) (f : Ctx → Ctx) : (s.modMe f).spawns = s.spawns := rfl
@[simp] theorem State.modMe_queues (s : State) (f : Ctx → Ctx) : (s.modMe f).queues = s.queues := rfl
@[simp] theorem State.modMe_host0 (s : State) (f : Ctx → Ctx) : (s.modMe f).host0 = s.host0 := rfl
@[simp] theorem State.modMe_host1 (s : State) (f : Ctx → Ctx) : (s.modMe f).host1 = s.host1 := rfl
@[simp] theorem State.modMe_memOff (s : State) (f : Ctx → Ctx) : (s.modMe f).memOff = s.memOff := rfl
@[simp] theorem State.modMe_memWin (s : State) (f : Ctx → Ctx) : (s.modMe f).memWin = s.memWin := rfl
@[simp] theorem State.modMe_dl (s : State) (f : Ctx → Ctx) : (s.modMe f).dl = s.dl := rfl
@[simp] theorem State.modMe_fuse (s : State) (f : Ctx → Ctx) : (s.modMe f).fuse = s.fuse := rfl
@[simp] theorem State.modMe_links (s : State) (f : Ctx → Ctx) : (s.modMe f).links = s.links := rfl
@[simp] theorem State.modMe_ports (s : State) (f : Ctx → Ctx) : (s.modMe f).ports = s.ports := rfl
@[simp] theorem State.modMe_transfers (s : State) (f : Ctx → Ctx) : (s.modMe f).transfers = s.transfers := rfl
@[simp] theorem State.modMe_applied (s : State) (f : Ctx → Ctx) : (s.modMe f).applied = s.applied := rfl
@[simp] theorem State.modMe_nextSeq (s : State) (f : Ctx → Ctx) : (s.modMe f).nextSeq = s.nextSeq := rfl
@[simp] theorem State.modMe_drives (s : State) (f : Ctx → Ctx) : (s.modMe f).drives = s.drives := rfl
@[simp] theorem State.modMe_invals (s : State) (f : Ctx → Ctx) : (s.modMe f).invals = s.invals := rfl
@[simp] theorem State.modMe_ctrls (s : State) (f : Ctx → Ctx) : (s.modMe f).ctrls = s.ctrls := rfl
@[simp] theorem State.modMe_service (s : State) (f : Ctx → Ctx) : (s.modMe f).service = s.service := rfl
@[simp] theorem State.modMe_corrected (s : State) (f : Ctx → Ctx) : (s.modMe f).corrected = s.corrected := rfl
@[simp] theorem State.modMe_driftLog (s : State) (f : Ctx → Ctx) : (s.modMe f).driftLog = s.driftLog := rfl
@[simp] theorem State.modMe_ioDraw (s : State) (f : Ctx → Ctx) : (s.modMe f).ioDraw = s.ioDraw := rfl
@[simp] theorem State.modMe_code (s : State) (f : Ctx → Ctx) : (s.modMe f).code = s.code := rfl
@[simp] theorem State.modMe_commons (s : State) (f : Ctx → Ctx) : (s.modMe f).commons = s.commons := rfl
@[simp] theorem State.modMe_acqs (s : State) (f : Ctx → Ctx) : (s.modMe f).acqs = s.acqs := rfl
@[simp] theorem State.modMe_locks (s : State) (f : Ctx → Ctx) : (s.modMe f).locks = s.locks := rfl
@[simp] theorem State.modMe_agenda (s : State) (f : Ctx → Ctx) : (s.modMe f).agenda = s.agenda := rfl
@[simp] theorem State.modMe_cur (s : State) (f : Ctx → Ctx) : (s.modMe f).cur = s.cur := rfl
@[simp] theorem State.modMe_late (s : State) (f : Ctx → Ctx) : (s.modMe f).late = s.late := rfl
@[simp] theorem State.modMe_tick (s : State) (f : Ctx → Ctx) : (s.modMe f).tick = s.tick := rfl

@[simp] theorem State.setCore_ctxs (s : State) (i : Nat) (x : Core) : (s.setCore i x).ctxs = s.ctxs := rfl
@[simp] theorem State.setCore_clusters (s : State) (i : Nat) (x : Core) : (s.setCore i x).clusters = s.clusters := rfl
@[simp] theorem State.setCore_tugs (s : State) (i : Nat) (x : Core) : (s.setCore i x).tugs = s.tugs := rfl
@[simp] theorem State.setCore_walks (s : State) (i : Nat) (x : Core) : (s.setCore i x).walks = s.walks := rfl
@[simp] theorem State.setCore_walkerFenced (s : State) (i : Nat) (x : Core) : (s.setCore i x).walkerFenced = s.walkerFenced := rfl
@[simp] theorem State.setCore_mem (s : State) (i : Nat) (x : Core) : (s.setCore i x).mem = s.mem := rfl
@[simp] theorem State.setCore_memSize (s : State) (i : Nat) (x : Core) : (s.setCore i x).memSize = s.memSize := rfl
@[simp] theorem State.setCore_poison (s : State) (i : Nat) (x : Core) : (s.setCore i x).poison = s.poison := rfl
@[simp] theorem State.setCore_time (s : State) (i : Nat) (x : Core) : (s.setCore i x).time = s.time := rfl
@[simp] theorem State.setCore_modId (s : State) (i : Nat) (x : Core) : (s.setCore i x).modId = s.modId := rfl
@[simp] theorem State.setCore_members (s : State) (i : Nat) (x : Core) : (s.setCore i x).members = s.members := rfl
@[simp] theorem State.setCore_unreachable (s : State) (i : Nat) (x : Core) : (s.setCore i x).unreachable = s.unreachable := rfl
@[simp] theorem State.setCore_asidTable (s : State) (i : Nat) (x : Core) : (s.setCore i x).asidTable = s.asidTable := rfl
@[simp] theorem State.setCore_fwBase (s : State) (i : Nat) (x : Core) : (s.setCore i x).fwBase = s.fwBase := rfl
@[simp] theorem State.setCore_fwSize (s : State) (i : Nat) (x : Core) : (s.setCore i x).fwSize = s.fwSize := rfl
@[simp] theorem State.setCore_fdTable (s : State) (i : Nat) (x : Core) : (s.setCore i x).fdTable = s.fdTable := rfl
@[simp] theorem State.setCore_regions (s : State) (i : Nat) (x : Core) : (s.setCore i x).regions = s.regions := rfl
@[simp] theorem State.setCore_graphs (s : State) (i : Nat) (x : Core) : (s.setCore i x).graphs = s.graphs := rfl
@[simp] theorem State.setCore_nextGraph (s : State) (i : Nat) (x : Core) : (s.setCore i x).nextGraph = s.nextGraph := rfl
@[simp] theorem State.setCore_nextEnq (s : State) (i : Nat) (x : Core) : (s.setCore i x).nextEnq = s.nextEnq := rfl
@[simp] theorem State.setCore_lent (s : State) (i : Nat) (x : Core) : (s.setCore i x).lent = s.lent := rfl
@[simp] theorem State.setCore_spilled (s : State) (i : Nat) (x : Core) : (s.setCore i x).spilled = s.spilled := rfl
@[simp] theorem State.setCore_spawns (s : State) (i : Nat) (x : Core) : (s.setCore i x).spawns = s.spawns := rfl
@[simp] theorem State.setCore_queues (s : State) (i : Nat) (x : Core) : (s.setCore i x).queues = s.queues := rfl
@[simp] theorem State.setCore_host0 (s : State) (i : Nat) (x : Core) : (s.setCore i x).host0 = s.host0 := rfl
@[simp] theorem State.setCore_host1 (s : State) (i : Nat) (x : Core) : (s.setCore i x).host1 = s.host1 := rfl
@[simp] theorem State.setCore_memOff (s : State) (i : Nat) (x : Core) : (s.setCore i x).memOff = s.memOff := rfl
@[simp] theorem State.setCore_memWin (s : State) (i : Nat) (x : Core) : (s.setCore i x).memWin = s.memWin := rfl
@[simp] theorem State.setCore_dl (s : State) (i : Nat) (x : Core) : (s.setCore i x).dl = s.dl := rfl
@[simp] theorem State.setCore_fuse (s : State) (i : Nat) (x : Core) : (s.setCore i x).fuse = s.fuse := rfl
@[simp] theorem State.setCore_links (s : State) (i : Nat) (x : Core) : (s.setCore i x).links = s.links := rfl
@[simp] theorem State.setCore_ports (s : State) (i : Nat) (x : Core) : (s.setCore i x).ports = s.ports := rfl
@[simp] theorem State.setCore_transfers (s : State) (i : Nat) (x : Core) : (s.setCore i x).transfers = s.transfers := rfl
@[simp] theorem State.setCore_applied (s : State) (i : Nat) (x : Core) : (s.setCore i x).applied = s.applied := rfl
@[simp] theorem State.setCore_nextSeq (s : State) (i : Nat) (x : Core) : (s.setCore i x).nextSeq = s.nextSeq := rfl
@[simp] theorem State.setCore_drives (s : State) (i : Nat) (x : Core) : (s.setCore i x).drives = s.drives := rfl
@[simp] theorem State.setCore_invals (s : State) (i : Nat) (x : Core) : (s.setCore i x).invals = s.invals := rfl
@[simp] theorem State.setCore_ctrls (s : State) (i : Nat) (x : Core) : (s.setCore i x).ctrls = s.ctrls := rfl
@[simp] theorem State.setCore_service (s : State) (i : Nat) (x : Core) : (s.setCore i x).service = s.service := rfl
@[simp] theorem State.setCore_corrected (s : State) (i : Nat) (x : Core) : (s.setCore i x).corrected = s.corrected := rfl
@[simp] theorem State.setCore_driftLog (s : State) (i : Nat) (x : Core) : (s.setCore i x).driftLog = s.driftLog := rfl
@[simp] theorem State.setCore_ioDraw (s : State) (i : Nat) (x : Core) : (s.setCore i x).ioDraw = s.ioDraw := rfl
@[simp] theorem State.setCore_code (s : State) (i : Nat) (x : Core) : (s.setCore i x).code = s.code := rfl
@[simp] theorem State.setCore_commons (s : State) (i : Nat) (x : Core) : (s.setCore i x).commons = s.commons := rfl
@[simp] theorem State.setCore_acqs (s : State) (i : Nat) (x : Core) : (s.setCore i x).acqs = s.acqs := rfl
@[simp] theorem State.setCore_locks (s : State) (i : Nat) (x : Core) : (s.setCore i x).locks = s.locks := rfl
@[simp] theorem State.setCore_agenda (s : State) (i : Nat) (x : Core) : (s.setCore i x).agenda = s.agenda := rfl
@[simp] theorem State.setCore_cur (s : State) (i : Nat) (x : Core) : (s.setCore i x).cur = s.cur := rfl
@[simp] theorem State.setCore_late (s : State) (i : Nat) (x : Core) : (s.setCore i x).late = s.late := rfl
@[simp] theorem State.setCore_tick (s : State) (i : Nat) (x : Core) : (s.setCore i x).tick = s.tick := rfl

@[simp] theorem State.modCore_ctxs (s : State) (i : Nat) (f : Core → Core) : (s.modCore i f).ctxs = s.ctxs := rfl
@[simp] theorem State.modCore_clusters (s : State) (i : Nat) (f : Core → Core) : (s.modCore i f).clusters = s.clusters := rfl
@[simp] theorem State.modCore_tugs (s : State) (i : Nat) (f : Core → Core) : (s.modCore i f).tugs = s.tugs := rfl
@[simp] theorem State.modCore_walks (s : State) (i : Nat) (f : Core → Core) : (s.modCore i f).walks = s.walks := rfl
@[simp] theorem State.modCore_walkerFenced (s : State) (i : Nat) (f : Core → Core) : (s.modCore i f).walkerFenced = s.walkerFenced := rfl
@[simp] theorem State.modCore_mem (s : State) (i : Nat) (f : Core → Core) : (s.modCore i f).mem = s.mem := rfl
@[simp] theorem State.modCore_memSize (s : State) (i : Nat) (f : Core → Core) : (s.modCore i f).memSize = s.memSize := rfl
@[simp] theorem State.modCore_poison (s : State) (i : Nat) (f : Core → Core) : (s.modCore i f).poison = s.poison := rfl
@[simp] theorem State.modCore_time (s : State) (i : Nat) (f : Core → Core) : (s.modCore i f).time = s.time := rfl
@[simp] theorem State.modCore_modId (s : State) (i : Nat) (f : Core → Core) : (s.modCore i f).modId = s.modId := rfl
@[simp] theorem State.modCore_members (s : State) (i : Nat) (f : Core → Core) : (s.modCore i f).members = s.members := rfl
@[simp] theorem State.modCore_unreachable (s : State) (i : Nat) (f : Core → Core) : (s.modCore i f).unreachable = s.unreachable := rfl
@[simp] theorem State.modCore_asidTable (s : State) (i : Nat) (f : Core → Core) : (s.modCore i f).asidTable = s.asidTable := rfl
@[simp] theorem State.modCore_fwBase (s : State) (i : Nat) (f : Core → Core) : (s.modCore i f).fwBase = s.fwBase := rfl
@[simp] theorem State.modCore_fwSize (s : State) (i : Nat) (f : Core → Core) : (s.modCore i f).fwSize = s.fwSize := rfl
@[simp] theorem State.modCore_fdTable (s : State) (i : Nat) (f : Core → Core) : (s.modCore i f).fdTable = s.fdTable := rfl
@[simp] theorem State.modCore_regions (s : State) (i : Nat) (f : Core → Core) : (s.modCore i f).regions = s.regions := rfl
@[simp] theorem State.modCore_graphs (s : State) (i : Nat) (f : Core → Core) : (s.modCore i f).graphs = s.graphs := rfl
@[simp] theorem State.modCore_nextGraph (s : State) (i : Nat) (f : Core → Core) : (s.modCore i f).nextGraph = s.nextGraph := rfl
@[simp] theorem State.modCore_nextEnq (s : State) (i : Nat) (f : Core → Core) : (s.modCore i f).nextEnq = s.nextEnq := rfl
@[simp] theorem State.modCore_lent (s : State) (i : Nat) (f : Core → Core) : (s.modCore i f).lent = s.lent := rfl
@[simp] theorem State.modCore_spilled (s : State) (i : Nat) (f : Core → Core) : (s.modCore i f).spilled = s.spilled := rfl
@[simp] theorem State.modCore_spawns (s : State) (i : Nat) (f : Core → Core) : (s.modCore i f).spawns = s.spawns := rfl
@[simp] theorem State.modCore_queues (s : State) (i : Nat) (f : Core → Core) : (s.modCore i f).queues = s.queues := rfl
@[simp] theorem State.modCore_host0 (s : State) (i : Nat) (f : Core → Core) : (s.modCore i f).host0 = s.host0 := rfl
@[simp] theorem State.modCore_host1 (s : State) (i : Nat) (f : Core → Core) : (s.modCore i f).host1 = s.host1 := rfl
@[simp] theorem State.modCore_memOff (s : State) (i : Nat) (f : Core → Core) : (s.modCore i f).memOff = s.memOff := rfl
@[simp] theorem State.modCore_memWin (s : State) (i : Nat) (f : Core → Core) : (s.modCore i f).memWin = s.memWin := rfl
@[simp] theorem State.modCore_dl (s : State) (i : Nat) (f : Core → Core) : (s.modCore i f).dl = s.dl := rfl
@[simp] theorem State.modCore_fuse (s : State) (i : Nat) (f : Core → Core) : (s.modCore i f).fuse = s.fuse := rfl
@[simp] theorem State.modCore_links (s : State) (i : Nat) (f : Core → Core) : (s.modCore i f).links = s.links := rfl
@[simp] theorem State.modCore_ports (s : State) (i : Nat) (f : Core → Core) : (s.modCore i f).ports = s.ports := rfl
@[simp] theorem State.modCore_transfers (s : State) (i : Nat) (f : Core → Core) : (s.modCore i f).transfers = s.transfers := rfl
@[simp] theorem State.modCore_applied (s : State) (i : Nat) (f : Core → Core) : (s.modCore i f).applied = s.applied := rfl
@[simp] theorem State.modCore_nextSeq (s : State) (i : Nat) (f : Core → Core) : (s.modCore i f).nextSeq = s.nextSeq := rfl
@[simp] theorem State.modCore_drives (s : State) (i : Nat) (f : Core → Core) : (s.modCore i f).drives = s.drives := rfl
@[simp] theorem State.modCore_invals (s : State) (i : Nat) (f : Core → Core) : (s.modCore i f).invals = s.invals := rfl
@[simp] theorem State.modCore_ctrls (s : State) (i : Nat) (f : Core → Core) : (s.modCore i f).ctrls = s.ctrls := rfl
@[simp] theorem State.modCore_service (s : State) (i : Nat) (f : Core → Core) : (s.modCore i f).service = s.service := rfl
@[simp] theorem State.modCore_corrected (s : State) (i : Nat) (f : Core → Core) : (s.modCore i f).corrected = s.corrected := rfl
@[simp] theorem State.modCore_driftLog (s : State) (i : Nat) (f : Core → Core) : (s.modCore i f).driftLog = s.driftLog := rfl
@[simp] theorem State.modCore_ioDraw (s : State) (i : Nat) (f : Core → Core) : (s.modCore i f).ioDraw = s.ioDraw := rfl
@[simp] theorem State.modCore_code (s : State) (i : Nat) (f : Core → Core) : (s.modCore i f).code = s.code := rfl
@[simp] theorem State.modCore_commons (s : State) (i : Nat) (f : Core → Core) : (s.modCore i f).commons = s.commons := rfl
@[simp] theorem State.modCore_acqs (s : State) (i : Nat) (f : Core → Core) : (s.modCore i f).acqs = s.acqs := rfl
@[simp] theorem State.modCore_locks (s : State) (i : Nat) (f : Core → Core) : (s.modCore i f).locks = s.locks := rfl
@[simp] theorem State.modCore_agenda (s : State) (i : Nat) (f : Core → Core) : (s.modCore i f).agenda = s.agenda := rfl
@[simp] theorem State.modCore_cur (s : State) (i : Nat) (f : Core → Core) : (s.modCore i f).cur = s.cur := rfl
@[simp] theorem State.modCore_late (s : State) (i : Nat) (f : Core → Core) : (s.modCore i f).late = s.late := rfl
@[simp] theorem State.modCore_tick (s : State) (i : Nat) (f : Core → Core) : (s.modCore i f).tick = s.tick := rfl

@[simp] theorem State.modMyCore_ctxs (s : State) (f : Core → Core) : (s.modMyCore f).ctxs = s.ctxs := rfl
@[simp] theorem State.modMyCore_clusters (s : State) (f : Core → Core) : (s.modMyCore f).clusters = s.clusters := rfl
@[simp] theorem State.modMyCore_tugs (s : State) (f : Core → Core) : (s.modMyCore f).tugs = s.tugs := rfl
@[simp] theorem State.modMyCore_walks (s : State) (f : Core → Core) : (s.modMyCore f).walks = s.walks := rfl
@[simp] theorem State.modMyCore_walkerFenced (s : State) (f : Core → Core) : (s.modMyCore f).walkerFenced = s.walkerFenced := rfl
@[simp] theorem State.modMyCore_mem (s : State) (f : Core → Core) : (s.modMyCore f).mem = s.mem := rfl
@[simp] theorem State.modMyCore_memSize (s : State) (f : Core → Core) : (s.modMyCore f).memSize = s.memSize := rfl
@[simp] theorem State.modMyCore_poison (s : State) (f : Core → Core) : (s.modMyCore f).poison = s.poison := rfl
@[simp] theorem State.modMyCore_time (s : State) (f : Core → Core) : (s.modMyCore f).time = s.time := rfl
@[simp] theorem State.modMyCore_modId (s : State) (f : Core → Core) : (s.modMyCore f).modId = s.modId := rfl
@[simp] theorem State.modMyCore_members (s : State) (f : Core → Core) : (s.modMyCore f).members = s.members := rfl
@[simp] theorem State.modMyCore_unreachable (s : State) (f : Core → Core) : (s.modMyCore f).unreachable = s.unreachable := rfl
@[simp] theorem State.modMyCore_asidTable (s : State) (f : Core → Core) : (s.modMyCore f).asidTable = s.asidTable := rfl
@[simp] theorem State.modMyCore_fwBase (s : State) (f : Core → Core) : (s.modMyCore f).fwBase = s.fwBase := rfl
@[simp] theorem State.modMyCore_fwSize (s : State) (f : Core → Core) : (s.modMyCore f).fwSize = s.fwSize := rfl
@[simp] theorem State.modMyCore_fdTable (s : State) (f : Core → Core) : (s.modMyCore f).fdTable = s.fdTable := rfl
@[simp] theorem State.modMyCore_regions (s : State) (f : Core → Core) : (s.modMyCore f).regions = s.regions := rfl
@[simp] theorem State.modMyCore_graphs (s : State) (f : Core → Core) : (s.modMyCore f).graphs = s.graphs := rfl
@[simp] theorem State.modMyCore_nextGraph (s : State) (f : Core → Core) : (s.modMyCore f).nextGraph = s.nextGraph := rfl
@[simp] theorem State.modMyCore_nextEnq (s : State) (f : Core → Core) : (s.modMyCore f).nextEnq = s.nextEnq := rfl
@[simp] theorem State.modMyCore_lent (s : State) (f : Core → Core) : (s.modMyCore f).lent = s.lent := rfl
@[simp] theorem State.modMyCore_spilled (s : State) (f : Core → Core) : (s.modMyCore f).spilled = s.spilled := rfl
@[simp] theorem State.modMyCore_spawns (s : State) (f : Core → Core) : (s.modMyCore f).spawns = s.spawns := rfl
@[simp] theorem State.modMyCore_queues (s : State) (f : Core → Core) : (s.modMyCore f).queues = s.queues := rfl
@[simp] theorem State.modMyCore_host0 (s : State) (f : Core → Core) : (s.modMyCore f).host0 = s.host0 := rfl
@[simp] theorem State.modMyCore_host1 (s : State) (f : Core → Core) : (s.modMyCore f).host1 = s.host1 := rfl
@[simp] theorem State.modMyCore_memOff (s : State) (f : Core → Core) : (s.modMyCore f).memOff = s.memOff := rfl
@[simp] theorem State.modMyCore_memWin (s : State) (f : Core → Core) : (s.modMyCore f).memWin = s.memWin := rfl
@[simp] theorem State.modMyCore_dl (s : State) (f : Core → Core) : (s.modMyCore f).dl = s.dl := rfl
@[simp] theorem State.modMyCore_fuse (s : State) (f : Core → Core) : (s.modMyCore f).fuse = s.fuse := rfl
@[simp] theorem State.modMyCore_links (s : State) (f : Core → Core) : (s.modMyCore f).links = s.links := rfl
@[simp] theorem State.modMyCore_ports (s : State) (f : Core → Core) : (s.modMyCore f).ports = s.ports := rfl
@[simp] theorem State.modMyCore_transfers (s : State) (f : Core → Core) : (s.modMyCore f).transfers = s.transfers := rfl
@[simp] theorem State.modMyCore_applied (s : State) (f : Core → Core) : (s.modMyCore f).applied = s.applied := rfl
@[simp] theorem State.modMyCore_nextSeq (s : State) (f : Core → Core) : (s.modMyCore f).nextSeq = s.nextSeq := rfl
@[simp] theorem State.modMyCore_drives (s : State) (f : Core → Core) : (s.modMyCore f).drives = s.drives := rfl
@[simp] theorem State.modMyCore_invals (s : State) (f : Core → Core) : (s.modMyCore f).invals = s.invals := rfl
@[simp] theorem State.modMyCore_ctrls (s : State) (f : Core → Core) : (s.modMyCore f).ctrls = s.ctrls := rfl
@[simp] theorem State.modMyCore_service (s : State) (f : Core → Core) : (s.modMyCore f).service = s.service := rfl
@[simp] theorem State.modMyCore_corrected (s : State) (f : Core → Core) : (s.modMyCore f).corrected = s.corrected := rfl
@[simp] theorem State.modMyCore_driftLog (s : State) (f : Core → Core) : (s.modMyCore f).driftLog = s.driftLog := rfl
@[simp] theorem State.modMyCore_ioDraw (s : State) (f : Core → Core) : (s.modMyCore f).ioDraw = s.ioDraw := rfl
@[simp] theorem State.modMyCore_code (s : State) (f : Core → Core) : (s.modMyCore f).code = s.code := rfl
@[simp] theorem State.modMyCore_commons (s : State) (f : Core → Core) : (s.modMyCore f).commons = s.commons := rfl
@[simp] theorem State.modMyCore_acqs (s : State) (f : Core → Core) : (s.modMyCore f).acqs = s.acqs := rfl
@[simp] theorem State.modMyCore_locks (s : State) (f : Core → Core) : (s.modMyCore f).locks = s.locks := rfl
@[simp] theorem State.modMyCore_agenda (s : State) (f : Core → Core) : (s.modMyCore f).agenda = s.agenda := rfl
@[simp] theorem State.modMyCore_cur (s : State) (f : Core → Core) : (s.modMyCore f).cur = s.cur := rfl
@[simp] theorem State.modMyCore_late (s : State) (f : Core → Core) : (s.modMyCore f).late = s.late := rfl
@[simp] theorem State.modMyCore_tick (s : State) (f : Core → Core) : (s.modMyCore f).tick = s.tick := rfl

@[simp] theorem State.setCluster_ctxs (s : State) (i : Nat) (x : Cluster) : (s.setCluster i x).ctxs = s.ctxs := rfl
@[simp] theorem State.setCluster_cores (s : State) (i : Nat) (x : Cluster) : (s.setCluster i x).cores = s.cores := rfl
@[simp] theorem State.setCluster_tugs (s : State) (i : Nat) (x : Cluster) : (s.setCluster i x).tugs = s.tugs := rfl
@[simp] theorem State.setCluster_walks (s : State) (i : Nat) (x : Cluster) : (s.setCluster i x).walks = s.walks := rfl
@[simp] theorem State.setCluster_walkerFenced (s : State) (i : Nat) (x : Cluster) : (s.setCluster i x).walkerFenced = s.walkerFenced := rfl
@[simp] theorem State.setCluster_mem (s : State) (i : Nat) (x : Cluster) : (s.setCluster i x).mem = s.mem := rfl
@[simp] theorem State.setCluster_memSize (s : State) (i : Nat) (x : Cluster) : (s.setCluster i x).memSize = s.memSize := rfl
@[simp] theorem State.setCluster_poison (s : State) (i : Nat) (x : Cluster) : (s.setCluster i x).poison = s.poison := rfl
@[simp] theorem State.setCluster_time (s : State) (i : Nat) (x : Cluster) : (s.setCluster i x).time = s.time := rfl
@[simp] theorem State.setCluster_modId (s : State) (i : Nat) (x : Cluster) : (s.setCluster i x).modId = s.modId := rfl
@[simp] theorem State.setCluster_members (s : State) (i : Nat) (x : Cluster) : (s.setCluster i x).members = s.members := rfl
@[simp] theorem State.setCluster_unreachable (s : State) (i : Nat) (x : Cluster) : (s.setCluster i x).unreachable = s.unreachable := rfl
@[simp] theorem State.setCluster_asidTable (s : State) (i : Nat) (x : Cluster) : (s.setCluster i x).asidTable = s.asidTable := rfl
@[simp] theorem State.setCluster_fwBase (s : State) (i : Nat) (x : Cluster) : (s.setCluster i x).fwBase = s.fwBase := rfl
@[simp] theorem State.setCluster_fwSize (s : State) (i : Nat) (x : Cluster) : (s.setCluster i x).fwSize = s.fwSize := rfl
@[simp] theorem State.setCluster_fdTable (s : State) (i : Nat) (x : Cluster) : (s.setCluster i x).fdTable = s.fdTable := rfl
@[simp] theorem State.setCluster_regions (s : State) (i : Nat) (x : Cluster) : (s.setCluster i x).regions = s.regions := rfl
@[simp] theorem State.setCluster_graphs (s : State) (i : Nat) (x : Cluster) : (s.setCluster i x).graphs = s.graphs := rfl
@[simp] theorem State.setCluster_nextGraph (s : State) (i : Nat) (x : Cluster) : (s.setCluster i x).nextGraph = s.nextGraph := rfl
@[simp] theorem State.setCluster_nextEnq (s : State) (i : Nat) (x : Cluster) : (s.setCluster i x).nextEnq = s.nextEnq := rfl
@[simp] theorem State.setCluster_lent (s : State) (i : Nat) (x : Cluster) : (s.setCluster i x).lent = s.lent := rfl
@[simp] theorem State.setCluster_spilled (s : State) (i : Nat) (x : Cluster) : (s.setCluster i x).spilled = s.spilled := rfl
@[simp] theorem State.setCluster_spawns (s : State) (i : Nat) (x : Cluster) : (s.setCluster i x).spawns = s.spawns := rfl
@[simp] theorem State.setCluster_queues (s : State) (i : Nat) (x : Cluster) : (s.setCluster i x).queues = s.queues := rfl
@[simp] theorem State.setCluster_host0 (s : State) (i : Nat) (x : Cluster) : (s.setCluster i x).host0 = s.host0 := rfl
@[simp] theorem State.setCluster_host1 (s : State) (i : Nat) (x : Cluster) : (s.setCluster i x).host1 = s.host1 := rfl
@[simp] theorem State.setCluster_memOff (s : State) (i : Nat) (x : Cluster) : (s.setCluster i x).memOff = s.memOff := rfl
@[simp] theorem State.setCluster_memWin (s : State) (i : Nat) (x : Cluster) : (s.setCluster i x).memWin = s.memWin := rfl
@[simp] theorem State.setCluster_dl (s : State) (i : Nat) (x : Cluster) : (s.setCluster i x).dl = s.dl := rfl
@[simp] theorem State.setCluster_fuse (s : State) (i : Nat) (x : Cluster) : (s.setCluster i x).fuse = s.fuse := rfl
@[simp] theorem State.setCluster_links (s : State) (i : Nat) (x : Cluster) : (s.setCluster i x).links = s.links := rfl
@[simp] theorem State.setCluster_ports (s : State) (i : Nat) (x : Cluster) : (s.setCluster i x).ports = s.ports := rfl
@[simp] theorem State.setCluster_transfers (s : State) (i : Nat) (x : Cluster) : (s.setCluster i x).transfers = s.transfers := rfl
@[simp] theorem State.setCluster_applied (s : State) (i : Nat) (x : Cluster) : (s.setCluster i x).applied = s.applied := rfl
@[simp] theorem State.setCluster_nextSeq (s : State) (i : Nat) (x : Cluster) : (s.setCluster i x).nextSeq = s.nextSeq := rfl
@[simp] theorem State.setCluster_drives (s : State) (i : Nat) (x : Cluster) : (s.setCluster i x).drives = s.drives := rfl
@[simp] theorem State.setCluster_invals (s : State) (i : Nat) (x : Cluster) : (s.setCluster i x).invals = s.invals := rfl
@[simp] theorem State.setCluster_ctrls (s : State) (i : Nat) (x : Cluster) : (s.setCluster i x).ctrls = s.ctrls := rfl
@[simp] theorem State.setCluster_service (s : State) (i : Nat) (x : Cluster) : (s.setCluster i x).service = s.service := rfl
@[simp] theorem State.setCluster_corrected (s : State) (i : Nat) (x : Cluster) : (s.setCluster i x).corrected = s.corrected := rfl
@[simp] theorem State.setCluster_driftLog (s : State) (i : Nat) (x : Cluster) : (s.setCluster i x).driftLog = s.driftLog := rfl
@[simp] theorem State.setCluster_ioDraw (s : State) (i : Nat) (x : Cluster) : (s.setCluster i x).ioDraw = s.ioDraw := rfl
@[simp] theorem State.setCluster_code (s : State) (i : Nat) (x : Cluster) : (s.setCluster i x).code = s.code := rfl
@[simp] theorem State.setCluster_commons (s : State) (i : Nat) (x : Cluster) : (s.setCluster i x).commons = s.commons := rfl
@[simp] theorem State.setCluster_acqs (s : State) (i : Nat) (x : Cluster) : (s.setCluster i x).acqs = s.acqs := rfl
@[simp] theorem State.setCluster_locks (s : State) (i : Nat) (x : Cluster) : (s.setCluster i x).locks = s.locks := rfl
@[simp] theorem State.setCluster_agenda (s : State) (i : Nat) (x : Cluster) : (s.setCluster i x).agenda = s.agenda := rfl
@[simp] theorem State.setCluster_cur (s : State) (i : Nat) (x : Cluster) : (s.setCluster i x).cur = s.cur := rfl
@[simp] theorem State.setCluster_late (s : State) (i : Nat) (x : Cluster) : (s.setCluster i x).late = s.late := rfl
@[simp] theorem State.setCluster_tick (s : State) (i : Nat) (x : Cluster) : (s.setCluster i x).tick = s.tick := rfl

@[simp] theorem State.modCluster_ctxs (s : State) (i : Nat) (f : Cluster → Cluster) : (s.modCluster i f).ctxs = s.ctxs := rfl
@[simp] theorem State.modCluster_cores (s : State) (i : Nat) (f : Cluster → Cluster) : (s.modCluster i f).cores = s.cores := rfl
@[simp] theorem State.modCluster_tugs (s : State) (i : Nat) (f : Cluster → Cluster) : (s.modCluster i f).tugs = s.tugs := rfl
@[simp] theorem State.modCluster_walks (s : State) (i : Nat) (f : Cluster → Cluster) : (s.modCluster i f).walks = s.walks := rfl
@[simp] theorem State.modCluster_walkerFenced (s : State) (i : Nat) (f : Cluster → Cluster) : (s.modCluster i f).walkerFenced = s.walkerFenced := rfl
@[simp] theorem State.modCluster_mem (s : State) (i : Nat) (f : Cluster → Cluster) : (s.modCluster i f).mem = s.mem := rfl
@[simp] theorem State.modCluster_memSize (s : State) (i : Nat) (f : Cluster → Cluster) : (s.modCluster i f).memSize = s.memSize := rfl
@[simp] theorem State.modCluster_poison (s : State) (i : Nat) (f : Cluster → Cluster) : (s.modCluster i f).poison = s.poison := rfl
@[simp] theorem State.modCluster_time (s : State) (i : Nat) (f : Cluster → Cluster) : (s.modCluster i f).time = s.time := rfl
@[simp] theorem State.modCluster_modId (s : State) (i : Nat) (f : Cluster → Cluster) : (s.modCluster i f).modId = s.modId := rfl
@[simp] theorem State.modCluster_members (s : State) (i : Nat) (f : Cluster → Cluster) : (s.modCluster i f).members = s.members := rfl
@[simp] theorem State.modCluster_unreachable (s : State) (i : Nat) (f : Cluster → Cluster) : (s.modCluster i f).unreachable = s.unreachable := rfl
@[simp] theorem State.modCluster_asidTable (s : State) (i : Nat) (f : Cluster → Cluster) : (s.modCluster i f).asidTable = s.asidTable := rfl
@[simp] theorem State.modCluster_fwBase (s : State) (i : Nat) (f : Cluster → Cluster) : (s.modCluster i f).fwBase = s.fwBase := rfl
@[simp] theorem State.modCluster_fwSize (s : State) (i : Nat) (f : Cluster → Cluster) : (s.modCluster i f).fwSize = s.fwSize := rfl
@[simp] theorem State.modCluster_fdTable (s : State) (i : Nat) (f : Cluster → Cluster) : (s.modCluster i f).fdTable = s.fdTable := rfl
@[simp] theorem State.modCluster_regions (s : State) (i : Nat) (f : Cluster → Cluster) : (s.modCluster i f).regions = s.regions := rfl
@[simp] theorem State.modCluster_graphs (s : State) (i : Nat) (f : Cluster → Cluster) : (s.modCluster i f).graphs = s.graphs := rfl
@[simp] theorem State.modCluster_nextGraph (s : State) (i : Nat) (f : Cluster → Cluster) : (s.modCluster i f).nextGraph = s.nextGraph := rfl
@[simp] theorem State.modCluster_nextEnq (s : State) (i : Nat) (f : Cluster → Cluster) : (s.modCluster i f).nextEnq = s.nextEnq := rfl
@[simp] theorem State.modCluster_lent (s : State) (i : Nat) (f : Cluster → Cluster) : (s.modCluster i f).lent = s.lent := rfl
@[simp] theorem State.modCluster_spilled (s : State) (i : Nat) (f : Cluster → Cluster) : (s.modCluster i f).spilled = s.spilled := rfl
@[simp] theorem State.modCluster_spawns (s : State) (i : Nat) (f : Cluster → Cluster) : (s.modCluster i f).spawns = s.spawns := rfl
@[simp] theorem State.modCluster_queues (s : State) (i : Nat) (f : Cluster → Cluster) : (s.modCluster i f).queues = s.queues := rfl
@[simp] theorem State.modCluster_host0 (s : State) (i : Nat) (f : Cluster → Cluster) : (s.modCluster i f).host0 = s.host0 := rfl
@[simp] theorem State.modCluster_host1 (s : State) (i : Nat) (f : Cluster → Cluster) : (s.modCluster i f).host1 = s.host1 := rfl
@[simp] theorem State.modCluster_memOff (s : State) (i : Nat) (f : Cluster → Cluster) : (s.modCluster i f).memOff = s.memOff := rfl
@[simp] theorem State.modCluster_memWin (s : State) (i : Nat) (f : Cluster → Cluster) : (s.modCluster i f).memWin = s.memWin := rfl
@[simp] theorem State.modCluster_dl (s : State) (i : Nat) (f : Cluster → Cluster) : (s.modCluster i f).dl = s.dl := rfl
@[simp] theorem State.modCluster_fuse (s : State) (i : Nat) (f : Cluster → Cluster) : (s.modCluster i f).fuse = s.fuse := rfl
@[simp] theorem State.modCluster_links (s : State) (i : Nat) (f : Cluster → Cluster) : (s.modCluster i f).links = s.links := rfl
@[simp] theorem State.modCluster_ports (s : State) (i : Nat) (f : Cluster → Cluster) : (s.modCluster i f).ports = s.ports := rfl
@[simp] theorem State.modCluster_transfers (s : State) (i : Nat) (f : Cluster → Cluster) : (s.modCluster i f).transfers = s.transfers := rfl
@[simp] theorem State.modCluster_applied (s : State) (i : Nat) (f : Cluster → Cluster) : (s.modCluster i f).applied = s.applied := rfl
@[simp] theorem State.modCluster_nextSeq (s : State) (i : Nat) (f : Cluster → Cluster) : (s.modCluster i f).nextSeq = s.nextSeq := rfl
@[simp] theorem State.modCluster_drives (s : State) (i : Nat) (f : Cluster → Cluster) : (s.modCluster i f).drives = s.drives := rfl
@[simp] theorem State.modCluster_invals (s : State) (i : Nat) (f : Cluster → Cluster) : (s.modCluster i f).invals = s.invals := rfl
@[simp] theorem State.modCluster_ctrls (s : State) (i : Nat) (f : Cluster → Cluster) : (s.modCluster i f).ctrls = s.ctrls := rfl
@[simp] theorem State.modCluster_service (s : State) (i : Nat) (f : Cluster → Cluster) : (s.modCluster i f).service = s.service := rfl
@[simp] theorem State.modCluster_corrected (s : State) (i : Nat) (f : Cluster → Cluster) : (s.modCluster i f).corrected = s.corrected := rfl
@[simp] theorem State.modCluster_driftLog (s : State) (i : Nat) (f : Cluster → Cluster) : (s.modCluster i f).driftLog = s.driftLog := rfl
@[simp] theorem State.modCluster_ioDraw (s : State) (i : Nat) (f : Cluster → Cluster) : (s.modCluster i f).ioDraw = s.ioDraw := rfl
@[simp] theorem State.modCluster_code (s : State) (i : Nat) (f : Cluster → Cluster) : (s.modCluster i f).code = s.code := rfl
@[simp] theorem State.modCluster_commons (s : State) (i : Nat) (f : Cluster → Cluster) : (s.modCluster i f).commons = s.commons := rfl
@[simp] theorem State.modCluster_acqs (s : State) (i : Nat) (f : Cluster → Cluster) : (s.modCluster i f).acqs = s.acqs := rfl
@[simp] theorem State.modCluster_locks (s : State) (i : Nat) (f : Cluster → Cluster) : (s.modCluster i f).locks = s.locks := rfl
@[simp] theorem State.modCluster_agenda (s : State) (i : Nat) (f : Cluster → Cluster) : (s.modCluster i f).agenda = s.agenda := rfl
@[simp] theorem State.modCluster_cur (s : State) (i : Nat) (f : Cluster → Cluster) : (s.modCluster i f).cur = s.cur := rfl
@[simp] theorem State.modCluster_late (s : State) (i : Nat) (f : Cluster → Cluster) : (s.modCluster i f).late = s.late := rfl
@[simp] theorem State.modCluster_tick (s : State) (i : Nat) (f : Cluster → Cluster) : (s.modCluster i f).tick = s.tick := rfl

@[simp] theorem State.setTug_ctxs (s : State) (t : TugId) (x : Tug) : (s.setTug t x).ctxs = s.ctxs := rfl
@[simp] theorem State.setTug_cores (s : State) (t : TugId) (x : Tug) : (s.setTug t x).cores = s.cores := rfl
@[simp] theorem State.setTug_clusters (s : State) (t : TugId) (x : Tug) : (s.setTug t x).clusters = s.clusters := rfl
@[simp] theorem State.setTug_walks (s : State) (t : TugId) (x : Tug) : (s.setTug t x).walks = s.walks := rfl
@[simp] theorem State.setTug_walkerFenced (s : State) (t : TugId) (x : Tug) : (s.setTug t x).walkerFenced = s.walkerFenced := rfl
@[simp] theorem State.setTug_mem (s : State) (t : TugId) (x : Tug) : (s.setTug t x).mem = s.mem := rfl
@[simp] theorem State.setTug_memSize (s : State) (t : TugId) (x : Tug) : (s.setTug t x).memSize = s.memSize := rfl
@[simp] theorem State.setTug_poison (s : State) (t : TugId) (x : Tug) : (s.setTug t x).poison = s.poison := rfl
@[simp] theorem State.setTug_time (s : State) (t : TugId) (x : Tug) : (s.setTug t x).time = s.time := rfl
@[simp] theorem State.setTug_modId (s : State) (t : TugId) (x : Tug) : (s.setTug t x).modId = s.modId := rfl
@[simp] theorem State.setTug_members (s : State) (t : TugId) (x : Tug) : (s.setTug t x).members = s.members := rfl
@[simp] theorem State.setTug_unreachable (s : State) (t : TugId) (x : Tug) : (s.setTug t x).unreachable = s.unreachable := rfl
@[simp] theorem State.setTug_asidTable (s : State) (t : TugId) (x : Tug) : (s.setTug t x).asidTable = s.asidTable := rfl
@[simp] theorem State.setTug_fwBase (s : State) (t : TugId) (x : Tug) : (s.setTug t x).fwBase = s.fwBase := rfl
@[simp] theorem State.setTug_fwSize (s : State) (t : TugId) (x : Tug) : (s.setTug t x).fwSize = s.fwSize := rfl
@[simp] theorem State.setTug_fdTable (s : State) (t : TugId) (x : Tug) : (s.setTug t x).fdTable = s.fdTable := rfl
@[simp] theorem State.setTug_regions (s : State) (t : TugId) (x : Tug) : (s.setTug t x).regions = s.regions := rfl
@[simp] theorem State.setTug_graphs (s : State) (t : TugId) (x : Tug) : (s.setTug t x).graphs = s.graphs := rfl
@[simp] theorem State.setTug_nextGraph (s : State) (t : TugId) (x : Tug) : (s.setTug t x).nextGraph = s.nextGraph := rfl
@[simp] theorem State.setTug_nextEnq (s : State) (t : TugId) (x : Tug) : (s.setTug t x).nextEnq = s.nextEnq := rfl
@[simp] theorem State.setTug_lent (s : State) (t : TugId) (x : Tug) : (s.setTug t x).lent = s.lent := rfl
@[simp] theorem State.setTug_spilled (s : State) (t : TugId) (x : Tug) : (s.setTug t x).spilled = s.spilled := rfl
@[simp] theorem State.setTug_spawns (s : State) (t : TugId) (x : Tug) : (s.setTug t x).spawns = s.spawns := rfl
@[simp] theorem State.setTug_queues (s : State) (t : TugId) (x : Tug) : (s.setTug t x).queues = s.queues := rfl
@[simp] theorem State.setTug_host0 (s : State) (t : TugId) (x : Tug) : (s.setTug t x).host0 = s.host0 := rfl
@[simp] theorem State.setTug_host1 (s : State) (t : TugId) (x : Tug) : (s.setTug t x).host1 = s.host1 := rfl
@[simp] theorem State.setTug_memOff (s : State) (t : TugId) (x : Tug) : (s.setTug t x).memOff = s.memOff := rfl
@[simp] theorem State.setTug_memWin (s : State) (t : TugId) (x : Tug) : (s.setTug t x).memWin = s.memWin := rfl
@[simp] theorem State.setTug_dl (s : State) (t : TugId) (x : Tug) : (s.setTug t x).dl = s.dl := rfl
@[simp] theorem State.setTug_fuse (s : State) (t : TugId) (x : Tug) : (s.setTug t x).fuse = s.fuse := rfl
@[simp] theorem State.setTug_links (s : State) (t : TugId) (x : Tug) : (s.setTug t x).links = s.links := rfl
@[simp] theorem State.setTug_ports (s : State) (t : TugId) (x : Tug) : (s.setTug t x).ports = s.ports := rfl
@[simp] theorem State.setTug_transfers (s : State) (t : TugId) (x : Tug) : (s.setTug t x).transfers = s.transfers := rfl
@[simp] theorem State.setTug_applied (s : State) (t : TugId) (x : Tug) : (s.setTug t x).applied = s.applied := rfl
@[simp] theorem State.setTug_nextSeq (s : State) (t : TugId) (x : Tug) : (s.setTug t x).nextSeq = s.nextSeq := rfl
@[simp] theorem State.setTug_drives (s : State) (t : TugId) (x : Tug) : (s.setTug t x).drives = s.drives := rfl
@[simp] theorem State.setTug_invals (s : State) (t : TugId) (x : Tug) : (s.setTug t x).invals = s.invals := rfl
@[simp] theorem State.setTug_ctrls (s : State) (t : TugId) (x : Tug) : (s.setTug t x).ctrls = s.ctrls := rfl
@[simp] theorem State.setTug_service (s : State) (t : TugId) (x : Tug) : (s.setTug t x).service = s.service := rfl
@[simp] theorem State.setTug_corrected (s : State) (t : TugId) (x : Tug) : (s.setTug t x).corrected = s.corrected := rfl
@[simp] theorem State.setTug_driftLog (s : State) (t : TugId) (x : Tug) : (s.setTug t x).driftLog = s.driftLog := rfl
@[simp] theorem State.setTug_ioDraw (s : State) (t : TugId) (x : Tug) : (s.setTug t x).ioDraw = s.ioDraw := rfl
@[simp] theorem State.setTug_code (s : State) (t : TugId) (x : Tug) : (s.setTug t x).code = s.code := rfl
@[simp] theorem State.setTug_commons (s : State) (t : TugId) (x : Tug) : (s.setTug t x).commons = s.commons := rfl
@[simp] theorem State.setTug_acqs (s : State) (t : TugId) (x : Tug) : (s.setTug t x).acqs = s.acqs := rfl
@[simp] theorem State.setTug_locks (s : State) (t : TugId) (x : Tug) : (s.setTug t x).locks = s.locks := rfl
@[simp] theorem State.setTug_agenda (s : State) (t : TugId) (x : Tug) : (s.setTug t x).agenda = s.agenda := rfl
@[simp] theorem State.setTug_cur (s : State) (t : TugId) (x : Tug) : (s.setTug t x).cur = s.cur := rfl
@[simp] theorem State.setTug_late (s : State) (t : TugId) (x : Tug) : (s.setTug t x).late = s.late := rfl
@[simp] theorem State.setTug_tick (s : State) (t : TugId) (x : Tug) : (s.setTug t x).tick = s.tick := rfl

@[simp] theorem State.modTug_ctxs (s : State) (t : TugId) (f : Tug → Tug) : (s.modTug t f).ctxs = s.ctxs := rfl
@[simp] theorem State.modTug_cores (s : State) (t : TugId) (f : Tug → Tug) : (s.modTug t f).cores = s.cores := rfl
@[simp] theorem State.modTug_clusters (s : State) (t : TugId) (f : Tug → Tug) : (s.modTug t f).clusters = s.clusters := rfl
@[simp] theorem State.modTug_walks (s : State) (t : TugId) (f : Tug → Tug) : (s.modTug t f).walks = s.walks := rfl
@[simp] theorem State.modTug_walkerFenced (s : State) (t : TugId) (f : Tug → Tug) : (s.modTug t f).walkerFenced = s.walkerFenced := rfl
@[simp] theorem State.modTug_mem (s : State) (t : TugId) (f : Tug → Tug) : (s.modTug t f).mem = s.mem := rfl
@[simp] theorem State.modTug_memSize (s : State) (t : TugId) (f : Tug → Tug) : (s.modTug t f).memSize = s.memSize := rfl
@[simp] theorem State.modTug_poison (s : State) (t : TugId) (f : Tug → Tug) : (s.modTug t f).poison = s.poison := rfl
@[simp] theorem State.modTug_time (s : State) (t : TugId) (f : Tug → Tug) : (s.modTug t f).time = s.time := rfl
@[simp] theorem State.modTug_modId (s : State) (t : TugId) (f : Tug → Tug) : (s.modTug t f).modId = s.modId := rfl
@[simp] theorem State.modTug_members (s : State) (t : TugId) (f : Tug → Tug) : (s.modTug t f).members = s.members := rfl
@[simp] theorem State.modTug_unreachable (s : State) (t : TugId) (f : Tug → Tug) : (s.modTug t f).unreachable = s.unreachable := rfl
@[simp] theorem State.modTug_asidTable (s : State) (t : TugId) (f : Tug → Tug) : (s.modTug t f).asidTable = s.asidTable := rfl
@[simp] theorem State.modTug_fwBase (s : State) (t : TugId) (f : Tug → Tug) : (s.modTug t f).fwBase = s.fwBase := rfl
@[simp] theorem State.modTug_fwSize (s : State) (t : TugId) (f : Tug → Tug) : (s.modTug t f).fwSize = s.fwSize := rfl
@[simp] theorem State.modTug_fdTable (s : State) (t : TugId) (f : Tug → Tug) : (s.modTug t f).fdTable = s.fdTable := rfl
@[simp] theorem State.modTug_regions (s : State) (t : TugId) (f : Tug → Tug) : (s.modTug t f).regions = s.regions := rfl
@[simp] theorem State.modTug_graphs (s : State) (t : TugId) (f : Tug → Tug) : (s.modTug t f).graphs = s.graphs := rfl
@[simp] theorem State.modTug_nextGraph (s : State) (t : TugId) (f : Tug → Tug) : (s.modTug t f).nextGraph = s.nextGraph := rfl
@[simp] theorem State.modTug_nextEnq (s : State) (t : TugId) (f : Tug → Tug) : (s.modTug t f).nextEnq = s.nextEnq := rfl
@[simp] theorem State.modTug_lent (s : State) (t : TugId) (f : Tug → Tug) : (s.modTug t f).lent = s.lent := rfl
@[simp] theorem State.modTug_spilled (s : State) (t : TugId) (f : Tug → Tug) : (s.modTug t f).spilled = s.spilled := rfl
@[simp] theorem State.modTug_spawns (s : State) (t : TugId) (f : Tug → Tug) : (s.modTug t f).spawns = s.spawns := rfl
@[simp] theorem State.modTug_queues (s : State) (t : TugId) (f : Tug → Tug) : (s.modTug t f).queues = s.queues := rfl
@[simp] theorem State.modTug_host0 (s : State) (t : TugId) (f : Tug → Tug) : (s.modTug t f).host0 = s.host0 := rfl
@[simp] theorem State.modTug_host1 (s : State) (t : TugId) (f : Tug → Tug) : (s.modTug t f).host1 = s.host1 := rfl
@[simp] theorem State.modTug_memOff (s : State) (t : TugId) (f : Tug → Tug) : (s.modTug t f).memOff = s.memOff := rfl
@[simp] theorem State.modTug_memWin (s : State) (t : TugId) (f : Tug → Tug) : (s.modTug t f).memWin = s.memWin := rfl
@[simp] theorem State.modTug_dl (s : State) (t : TugId) (f : Tug → Tug) : (s.modTug t f).dl = s.dl := rfl
@[simp] theorem State.modTug_fuse (s : State) (t : TugId) (f : Tug → Tug) : (s.modTug t f).fuse = s.fuse := rfl
@[simp] theorem State.modTug_links (s : State) (t : TugId) (f : Tug → Tug) : (s.modTug t f).links = s.links := rfl
@[simp] theorem State.modTug_ports (s : State) (t : TugId) (f : Tug → Tug) : (s.modTug t f).ports = s.ports := rfl
@[simp] theorem State.modTug_transfers (s : State) (t : TugId) (f : Tug → Tug) : (s.modTug t f).transfers = s.transfers := rfl
@[simp] theorem State.modTug_applied (s : State) (t : TugId) (f : Tug → Tug) : (s.modTug t f).applied = s.applied := rfl
@[simp] theorem State.modTug_nextSeq (s : State) (t : TugId) (f : Tug → Tug) : (s.modTug t f).nextSeq = s.nextSeq := rfl
@[simp] theorem State.modTug_drives (s : State) (t : TugId) (f : Tug → Tug) : (s.modTug t f).drives = s.drives := rfl
@[simp] theorem State.modTug_invals (s : State) (t : TugId) (f : Tug → Tug) : (s.modTug t f).invals = s.invals := rfl
@[simp] theorem State.modTug_ctrls (s : State) (t : TugId) (f : Tug → Tug) : (s.modTug t f).ctrls = s.ctrls := rfl
@[simp] theorem State.modTug_service (s : State) (t : TugId) (f : Tug → Tug) : (s.modTug t f).service = s.service := rfl
@[simp] theorem State.modTug_corrected (s : State) (t : TugId) (f : Tug → Tug) : (s.modTug t f).corrected = s.corrected := rfl
@[simp] theorem State.modTug_driftLog (s : State) (t : TugId) (f : Tug → Tug) : (s.modTug t f).driftLog = s.driftLog := rfl
@[simp] theorem State.modTug_ioDraw (s : State) (t : TugId) (f : Tug → Tug) : (s.modTug t f).ioDraw = s.ioDraw := rfl
@[simp] theorem State.modTug_code (s : State) (t : TugId) (f : Tug → Tug) : (s.modTug t f).code = s.code := rfl
@[simp] theorem State.modTug_commons (s : State) (t : TugId) (f : Tug → Tug) : (s.modTug t f).commons = s.commons := rfl
@[simp] theorem State.modTug_acqs (s : State) (t : TugId) (f : Tug → Tug) : (s.modTug t f).acqs = s.acqs := rfl
@[simp] theorem State.modTug_locks (s : State) (t : TugId) (f : Tug → Tug) : (s.modTug t f).locks = s.locks := rfl
@[simp] theorem State.modTug_agenda (s : State) (t : TugId) (f : Tug → Tug) : (s.modTug t f).agenda = s.agenda := rfl
@[simp] theorem State.modTug_cur (s : State) (t : TugId) (f : Tug → Tug) : (s.modTug t f).cur = s.cur := rfl
@[simp] theorem State.modTug_late (s : State) (t : TugId) (f : Tug → Tug) : (s.modTug t f).late = s.late := rfl
@[simp] theorem State.modTug_tick (s : State) (t : TugId) (f : Tug → Tug) : (s.modTug t f).tick = s.tick := rfl

@[simp] theorem State.setWalk_ctxs (s : State) (w : WalkId) (x : Walk) : (s.setWalk w x).ctxs = s.ctxs := rfl
@[simp] theorem State.setWalk_cores (s : State) (w : WalkId) (x : Walk) : (s.setWalk w x).cores = s.cores := rfl
@[simp] theorem State.setWalk_clusters (s : State) (w : WalkId) (x : Walk) : (s.setWalk w x).clusters = s.clusters := rfl
@[simp] theorem State.setWalk_tugs (s : State) (w : WalkId) (x : Walk) : (s.setWalk w x).tugs = s.tugs := rfl
@[simp] theorem State.setWalk_walkerFenced (s : State) (w : WalkId) (x : Walk) : (s.setWalk w x).walkerFenced = s.walkerFenced := rfl
@[simp] theorem State.setWalk_mem (s : State) (w : WalkId) (x : Walk) : (s.setWalk w x).mem = s.mem := rfl
@[simp] theorem State.setWalk_memSize (s : State) (w : WalkId) (x : Walk) : (s.setWalk w x).memSize = s.memSize := rfl
@[simp] theorem State.setWalk_poison (s : State) (w : WalkId) (x : Walk) : (s.setWalk w x).poison = s.poison := rfl
@[simp] theorem State.setWalk_time (s : State) (w : WalkId) (x : Walk) : (s.setWalk w x).time = s.time := rfl
@[simp] theorem State.setWalk_modId (s : State) (w : WalkId) (x : Walk) : (s.setWalk w x).modId = s.modId := rfl
@[simp] theorem State.setWalk_members (s : State) (w : WalkId) (x : Walk) : (s.setWalk w x).members = s.members := rfl
@[simp] theorem State.setWalk_unreachable (s : State) (w : WalkId) (x : Walk) : (s.setWalk w x).unreachable = s.unreachable := rfl
@[simp] theorem State.setWalk_asidTable (s : State) (w : WalkId) (x : Walk) : (s.setWalk w x).asidTable = s.asidTable := rfl
@[simp] theorem State.setWalk_fwBase (s : State) (w : WalkId) (x : Walk) : (s.setWalk w x).fwBase = s.fwBase := rfl
@[simp] theorem State.setWalk_fwSize (s : State) (w : WalkId) (x : Walk) : (s.setWalk w x).fwSize = s.fwSize := rfl
@[simp] theorem State.setWalk_fdTable (s : State) (w : WalkId) (x : Walk) : (s.setWalk w x).fdTable = s.fdTable := rfl
@[simp] theorem State.setWalk_regions (s : State) (w : WalkId) (x : Walk) : (s.setWalk w x).regions = s.regions := rfl
@[simp] theorem State.setWalk_graphs (s : State) (w : WalkId) (x : Walk) : (s.setWalk w x).graphs = s.graphs := rfl
@[simp] theorem State.setWalk_nextGraph (s : State) (w : WalkId) (x : Walk) : (s.setWalk w x).nextGraph = s.nextGraph := rfl
@[simp] theorem State.setWalk_nextEnq (s : State) (w : WalkId) (x : Walk) : (s.setWalk w x).nextEnq = s.nextEnq := rfl
@[simp] theorem State.setWalk_lent (s : State) (w : WalkId) (x : Walk) : (s.setWalk w x).lent = s.lent := rfl
@[simp] theorem State.setWalk_spilled (s : State) (w : WalkId) (x : Walk) : (s.setWalk w x).spilled = s.spilled := rfl
@[simp] theorem State.setWalk_spawns (s : State) (w : WalkId) (x : Walk) : (s.setWalk w x).spawns = s.spawns := rfl
@[simp] theorem State.setWalk_queues (s : State) (w : WalkId) (x : Walk) : (s.setWalk w x).queues = s.queues := rfl
@[simp] theorem State.setWalk_host0 (s : State) (w : WalkId) (x : Walk) : (s.setWalk w x).host0 = s.host0 := rfl
@[simp] theorem State.setWalk_host1 (s : State) (w : WalkId) (x : Walk) : (s.setWalk w x).host1 = s.host1 := rfl
@[simp] theorem State.setWalk_memOff (s : State) (w : WalkId) (x : Walk) : (s.setWalk w x).memOff = s.memOff := rfl
@[simp] theorem State.setWalk_memWin (s : State) (w : WalkId) (x : Walk) : (s.setWalk w x).memWin = s.memWin := rfl
@[simp] theorem State.setWalk_dl (s : State) (w : WalkId) (x : Walk) : (s.setWalk w x).dl = s.dl := rfl
@[simp] theorem State.setWalk_fuse (s : State) (w : WalkId) (x : Walk) : (s.setWalk w x).fuse = s.fuse := rfl
@[simp] theorem State.setWalk_links (s : State) (w : WalkId) (x : Walk) : (s.setWalk w x).links = s.links := rfl
@[simp] theorem State.setWalk_ports (s : State) (w : WalkId) (x : Walk) : (s.setWalk w x).ports = s.ports := rfl
@[simp] theorem State.setWalk_transfers (s : State) (w : WalkId) (x : Walk) : (s.setWalk w x).transfers = s.transfers := rfl
@[simp] theorem State.setWalk_applied (s : State) (w : WalkId) (x : Walk) : (s.setWalk w x).applied = s.applied := rfl
@[simp] theorem State.setWalk_nextSeq (s : State) (w : WalkId) (x : Walk) : (s.setWalk w x).nextSeq = s.nextSeq := rfl
@[simp] theorem State.setWalk_drives (s : State) (w : WalkId) (x : Walk) : (s.setWalk w x).drives = s.drives := rfl
@[simp] theorem State.setWalk_invals (s : State) (w : WalkId) (x : Walk) : (s.setWalk w x).invals = s.invals := rfl
@[simp] theorem State.setWalk_ctrls (s : State) (w : WalkId) (x : Walk) : (s.setWalk w x).ctrls = s.ctrls := rfl
@[simp] theorem State.setWalk_service (s : State) (w : WalkId) (x : Walk) : (s.setWalk w x).service = s.service := rfl
@[simp] theorem State.setWalk_corrected (s : State) (w : WalkId) (x : Walk) : (s.setWalk w x).corrected = s.corrected := rfl
@[simp] theorem State.setWalk_driftLog (s : State) (w : WalkId) (x : Walk) : (s.setWalk w x).driftLog = s.driftLog := rfl
@[simp] theorem State.setWalk_ioDraw (s : State) (w : WalkId) (x : Walk) : (s.setWalk w x).ioDraw = s.ioDraw := rfl
@[simp] theorem State.setWalk_code (s : State) (w : WalkId) (x : Walk) : (s.setWalk w x).code = s.code := rfl
@[simp] theorem State.setWalk_commons (s : State) (w : WalkId) (x : Walk) : (s.setWalk w x).commons = s.commons := rfl
@[simp] theorem State.setWalk_acqs (s : State) (w : WalkId) (x : Walk) : (s.setWalk w x).acqs = s.acqs := rfl
@[simp] theorem State.setWalk_locks (s : State) (w : WalkId) (x : Walk) : (s.setWalk w x).locks = s.locks := rfl
@[simp] theorem State.setWalk_agenda (s : State) (w : WalkId) (x : Walk) : (s.setWalk w x).agenda = s.agenda := rfl
@[simp] theorem State.setWalk_cur (s : State) (w : WalkId) (x : Walk) : (s.setWalk w x).cur = s.cur := rfl
@[simp] theorem State.setWalk_late (s : State) (w : WalkId) (x : Walk) : (s.setWalk w x).late = s.late := rfl
@[simp] theorem State.setWalk_tick (s : State) (w : WalkId) (x : Walk) : (s.setWalk w x).tick = s.tick := rfl

@[simp] theorem State.modWalk_ctxs (s : State) (w : WalkId) (f : Walk → Walk) : (s.modWalk w f).ctxs = s.ctxs := rfl
@[simp] theorem State.modWalk_cores (s : State) (w : WalkId) (f : Walk → Walk) : (s.modWalk w f).cores = s.cores := rfl
@[simp] theorem State.modWalk_clusters (s : State) (w : WalkId) (f : Walk → Walk) : (s.modWalk w f).clusters = s.clusters := rfl
@[simp] theorem State.modWalk_tugs (s : State) (w : WalkId) (f : Walk → Walk) : (s.modWalk w f).tugs = s.tugs := rfl
@[simp] theorem State.modWalk_walkerFenced (s : State) (w : WalkId) (f : Walk → Walk) : (s.modWalk w f).walkerFenced = s.walkerFenced := rfl
@[simp] theorem State.modWalk_mem (s : State) (w : WalkId) (f : Walk → Walk) : (s.modWalk w f).mem = s.mem := rfl
@[simp] theorem State.modWalk_memSize (s : State) (w : WalkId) (f : Walk → Walk) : (s.modWalk w f).memSize = s.memSize := rfl
@[simp] theorem State.modWalk_poison (s : State) (w : WalkId) (f : Walk → Walk) : (s.modWalk w f).poison = s.poison := rfl
@[simp] theorem State.modWalk_time (s : State) (w : WalkId) (f : Walk → Walk) : (s.modWalk w f).time = s.time := rfl
@[simp] theorem State.modWalk_modId (s : State) (w : WalkId) (f : Walk → Walk) : (s.modWalk w f).modId = s.modId := rfl
@[simp] theorem State.modWalk_members (s : State) (w : WalkId) (f : Walk → Walk) : (s.modWalk w f).members = s.members := rfl
@[simp] theorem State.modWalk_unreachable (s : State) (w : WalkId) (f : Walk → Walk) : (s.modWalk w f).unreachable = s.unreachable := rfl
@[simp] theorem State.modWalk_asidTable (s : State) (w : WalkId) (f : Walk → Walk) : (s.modWalk w f).asidTable = s.asidTable := rfl
@[simp] theorem State.modWalk_fwBase (s : State) (w : WalkId) (f : Walk → Walk) : (s.modWalk w f).fwBase = s.fwBase := rfl
@[simp] theorem State.modWalk_fwSize (s : State) (w : WalkId) (f : Walk → Walk) : (s.modWalk w f).fwSize = s.fwSize := rfl
@[simp] theorem State.modWalk_fdTable (s : State) (w : WalkId) (f : Walk → Walk) : (s.modWalk w f).fdTable = s.fdTable := rfl
@[simp] theorem State.modWalk_regions (s : State) (w : WalkId) (f : Walk → Walk) : (s.modWalk w f).regions = s.regions := rfl
@[simp] theorem State.modWalk_graphs (s : State) (w : WalkId) (f : Walk → Walk) : (s.modWalk w f).graphs = s.graphs := rfl
@[simp] theorem State.modWalk_nextGraph (s : State) (w : WalkId) (f : Walk → Walk) : (s.modWalk w f).nextGraph = s.nextGraph := rfl
@[simp] theorem State.modWalk_nextEnq (s : State) (w : WalkId) (f : Walk → Walk) : (s.modWalk w f).nextEnq = s.nextEnq := rfl
@[simp] theorem State.modWalk_lent (s : State) (w : WalkId) (f : Walk → Walk) : (s.modWalk w f).lent = s.lent := rfl
@[simp] theorem State.modWalk_spilled (s : State) (w : WalkId) (f : Walk → Walk) : (s.modWalk w f).spilled = s.spilled := rfl
@[simp] theorem State.modWalk_spawns (s : State) (w : WalkId) (f : Walk → Walk) : (s.modWalk w f).spawns = s.spawns := rfl
@[simp] theorem State.modWalk_queues (s : State) (w : WalkId) (f : Walk → Walk) : (s.modWalk w f).queues = s.queues := rfl
@[simp] theorem State.modWalk_host0 (s : State) (w : WalkId) (f : Walk → Walk) : (s.modWalk w f).host0 = s.host0 := rfl
@[simp] theorem State.modWalk_host1 (s : State) (w : WalkId) (f : Walk → Walk) : (s.modWalk w f).host1 = s.host1 := rfl
@[simp] theorem State.modWalk_memOff (s : State) (w : WalkId) (f : Walk → Walk) : (s.modWalk w f).memOff = s.memOff := rfl
@[simp] theorem State.modWalk_memWin (s : State) (w : WalkId) (f : Walk → Walk) : (s.modWalk w f).memWin = s.memWin := rfl
@[simp] theorem State.modWalk_dl (s : State) (w : WalkId) (f : Walk → Walk) : (s.modWalk w f).dl = s.dl := rfl
@[simp] theorem State.modWalk_fuse (s : State) (w : WalkId) (f : Walk → Walk) : (s.modWalk w f).fuse = s.fuse := rfl
@[simp] theorem State.modWalk_links (s : State) (w : WalkId) (f : Walk → Walk) : (s.modWalk w f).links = s.links := rfl
@[simp] theorem State.modWalk_ports (s : State) (w : WalkId) (f : Walk → Walk) : (s.modWalk w f).ports = s.ports := rfl
@[simp] theorem State.modWalk_transfers (s : State) (w : WalkId) (f : Walk → Walk) : (s.modWalk w f).transfers = s.transfers := rfl
@[simp] theorem State.modWalk_applied (s : State) (w : WalkId) (f : Walk → Walk) : (s.modWalk w f).applied = s.applied := rfl
@[simp] theorem State.modWalk_nextSeq (s : State) (w : WalkId) (f : Walk → Walk) : (s.modWalk w f).nextSeq = s.nextSeq := rfl
@[simp] theorem State.modWalk_drives (s : State) (w : WalkId) (f : Walk → Walk) : (s.modWalk w f).drives = s.drives := rfl
@[simp] theorem State.modWalk_invals (s : State) (w : WalkId) (f : Walk → Walk) : (s.modWalk w f).invals = s.invals := rfl
@[simp] theorem State.modWalk_ctrls (s : State) (w : WalkId) (f : Walk → Walk) : (s.modWalk w f).ctrls = s.ctrls := rfl
@[simp] theorem State.modWalk_service (s : State) (w : WalkId) (f : Walk → Walk) : (s.modWalk w f).service = s.service := rfl
@[simp] theorem State.modWalk_corrected (s : State) (w : WalkId) (f : Walk → Walk) : (s.modWalk w f).corrected = s.corrected := rfl
@[simp] theorem State.modWalk_driftLog (s : State) (w : WalkId) (f : Walk → Walk) : (s.modWalk w f).driftLog = s.driftLog := rfl
@[simp] theorem State.modWalk_ioDraw (s : State) (w : WalkId) (f : Walk → Walk) : (s.modWalk w f).ioDraw = s.ioDraw := rfl
@[simp] theorem State.modWalk_code (s : State) (w : WalkId) (f : Walk → Walk) : (s.modWalk w f).code = s.code := rfl
@[simp] theorem State.modWalk_commons (s : State) (w : WalkId) (f : Walk → Walk) : (s.modWalk w f).commons = s.commons := rfl
@[simp] theorem State.modWalk_acqs (s : State) (w : WalkId) (f : Walk → Walk) : (s.modWalk w f).acqs = s.acqs := rfl
@[simp] theorem State.modWalk_locks (s : State) (w : WalkId) (f : Walk → Walk) : (s.modWalk w f).locks = s.locks := rfl
@[simp] theorem State.modWalk_agenda (s : State) (w : WalkId) (f : Walk → Walk) : (s.modWalk w f).agenda = s.agenda := rfl
@[simp] theorem State.modWalk_cur (s : State) (w : WalkId) (f : Walk → Walk) : (s.modWalk w f).cur = s.cur := rfl
@[simp] theorem State.modWalk_late (s : State) (w : WalkId) (f : Walk → Walk) : (s.modWalk w f).late = s.late := rfl
@[simp] theorem State.modWalk_tick (s : State) (w : WalkId) (f : Walk → Walk) : (s.modWalk w f).tick = s.tick := rfl

/-! Tables. -/

@[simp] theorem tabGet_tabSet_self {α : Type} (d v : α) (t : Table α) (n : Nat) : tabGet d (tabSet t n v) n = v := by
  induction t with
  | nil => simp [tabSet, tabGet]
  | cons p t ih =>
    obtain ⟨k, w⟩ := p
    by_cases h : k = n
    · simp [tabSet, tabGet, h]
    · by_cases g : n < k
      · simp [tabSet, tabGet, h, g]
      · simp [tabSet, tabGet, h, g, ih]

theorem tabGet_tabSet_ne {α : Type} (d v : α) (t : Table α) {n m : Nat} (h : m ≠ n) : tabGet d (tabSet t n v) m = tabGet d t m := by
  induction t with
  | nil => simp [tabSet, tabGet, Ne.symm h]
  | cons p t ih =>
    obtain ⟨k, w⟩ := p
    by_cases e : k = n
    · subst e; simp [tabSet, tabGet, Ne.symm h]
    · by_cases g : n < k
      · simp [tabSet, tabGet, e, g, Ne.symm h]
      · simp [tabSet, tabGet, e, g, ih]

theorem tabSet_tabSet {α : Type} (t : Table α) (n : Nat) (v w : α) : tabSet (tabSet t n v) n w = tabSet t n w := by
  induction t with
  | nil => simp [tabSet]
  | cons p t ih =>
    obtain ⟨k, x⟩ := p
    by_cases e : k = n
    · simp [tabSet, e]
    · by_cases g : n < k
      · simp [tabSet, e, g]
      · simp [tabSet, e, g, ih]

/-! Units read after they were written. -/

theorem CtxId.key_inj {a b : CtxId} (h : CtxId.key a = CtxId.key b) : a = b := by
  obtain ⟨⟨a, ha⟩, ⟨x, hx⟩⟩ := a
  obtain ⟨⟨b, hb⟩, ⟨y, hy⟩⟩ := b
  simp only [CtxId.key] at h
  have : a = b := by omega
  have : x = y := by omega
  simp_all

@[simp] theorem State.ctx_setCtx_self (s : State) (c : CtxId) (x : Ctx) : (s.setCtx c x).ctx c = x := by
  simp [State.ctx, State.setCtx]

theorem State.ctx_setCtx_ne (s : State) {c d : CtxId} (x : Ctx) (h : d ≠ c) : (s.setCtx c x).ctx d = s.ctx d :=
  tabGet_tabSet_ne _ _ _ fun e => h (CtxId.key_inj e)

@[simp] theorem State.setCtx_setCtx (s : State) (c : CtxId) (x y : Ctx) : (s.setCtx c x).setCtx c y = s.setCtx c y := by
  simp [State.setCtx, tabSet_tabSet]

@[simp] theorem State.ctx_modCtx_self (s : State) (c : CtxId) (f : Ctx → Ctx) : (s.modCtx c f).ctx c = f (s.ctx c) := by
  simp [State.modCtx]

theorem State.ctx_modCtx_ne (s : State) {c d : CtxId} (f : Ctx → Ctx) (h : d ≠ c) : (s.modCtx c f).ctx d = s.ctx d :=
  State.ctx_setCtx_ne s _ h

@[simp] theorem State.modCtx_modCtx (s : State) (c : CtxId) (f g : Ctx → Ctx) : (s.modCtx c f).modCtx c g = s.modCtx c fun x => g (f x) := by
  simp [State.modCtx]

@[simp] theorem State.me_modMe (s : State) (f : Ctx → Ctx) : (s.modMe f).me = f s.me := by
  simp [State.me, State.modMe]

@[simp] theorem State.modMe_modMe (s : State) (f g : Ctx → Ctx) : (s.modMe f).modMe g = s.modMe fun x => g (f x) := by
  simp [State.modMe]

theorem State.ctx_modMe_ne (s : State) {d : CtxId} (f : Ctx → Ctx) (h : d ≠ s.cur) : (s.modMe f).ctx d = s.ctx d :=
  State.ctx_modCtx_ne s f h

@[simp] theorem State.ctx_modMe_cur (s : State) (f : Ctx → Ctx) : (s.modMe f).ctx s.cur = f s.me := by
  simp [State.me, State.modMe]

/-- Two changes of the running context that agree on it give one state. -/
theorem State.modMe_congr {s : State} {f g : Ctx → Ctx} (h : f s.me = g s.me) : s.modMe f = s.modMe g := by
  simp only [State.modMe, State.modCtx]; exact congrArg _ h

@[simp] theorem State.core_setCore_self (s : State) (i : Nat) (x : Core) : (s.setCore i x).core i = x := by
  simp [State.core, State.setCore]

theorem State.core_setCore_ne (s : State) {i j : Nat} (x : Core) (h : j ≠ i) : (s.setCore i x).core j = s.core j :=
  tabGet_tabSet_ne _ _ _ h

@[simp] theorem State.core_modCore_self (s : State) (i : Nat) (f : Core → Core) : (s.modCore i f).core i = f (s.core i) := by
  simp [State.modCore]

theorem State.core_modCore_ne (s : State) {i j : Nat} (f : Core → Core) (h : j ≠ i) : (s.modCore i f).core j = s.core j :=
  State.core_setCore_ne s _ h

@[simp] theorem State.myCore_modMyCore (s : State) (f : Core → Core) : (s.modMyCore f).myCore = f s.myCore := by
  simp [State.myCore, State.modMyCore]

@[simp] theorem State.cluster_setCluster_self (s : State) (i : Nat) (x : Cluster) : (s.setCluster i x).cluster i = x := by
  simp [State.cluster, State.setCluster]

@[simp] theorem State.cluster_modCluster_self (s : State) (i : Nat) (f : Cluster → Cluster) : (s.modCluster i f).cluster i = f (s.cluster i) := by
  simp [State.modCluster]

theorem State.cluster_setCluster_ne (s : State) {i j : Nat} (x : Cluster) (h : j ≠ i) : (s.setCluster i x).cluster j = s.cluster j :=
  tabGet_tabSet_ne _ _ _ h

@[simp] theorem State.tug_setTug_self (s : State) (t : TugId) (x : Tug) : (s.setTug t x).tug t = x := by
  simp [State.tug, State.setTug]

@[simp] theorem State.tug_modTug_self (s : State) (t : TugId) (f : Tug → Tug) : (s.modTug t f).tug t = f (s.tug t) := by
  simp [State.modTug]

@[simp] theorem State.walk_setWalk_self (s : State) (w : WalkId) (x : Walk) : (s.setWalk w x).walk w = x := by
  simp [State.walk, State.setWalk]

@[simp] theorem State.walk_modWalk_self (s : State) (w : WalkId) (f : Walk → Walk) : (s.modWalk w f).walk w = f (s.walk w) := by
  simp [State.modWalk]

/-! A unit seen through the update of another. -/

@[simp] theorem State.ctx_setCore (s : State) (i : Nat) (x : Core) (c : CtxId) : (s.setCore i x).ctx c = s.ctx c := rfl
@[simp] theorem State.ctx_modCore (s : State) (i : Nat) (f : Core → Core) (c : CtxId) : (s.modCore i f).ctx c = s.ctx c := rfl
@[simp] theorem State.ctx_setTug (s : State) (t : TugId) (x : Tug) (c : CtxId) : (s.setTug t x).ctx c = s.ctx c := rfl
@[simp] theorem State.ctx_setWalk (s : State) (w : WalkId) (x : Walk) (c : CtxId) : (s.setWalk w x).ctx c = s.ctx c := rfl
@[simp] theorem State.ctx_setCluster (s : State) (i : Nat) (x : Cluster) (c : CtxId) : (s.setCluster i x).ctx c = s.ctx c := rfl
@[simp] theorem State.me_modCore (s : State) (i : Nat) (f : Core → Core) : (s.modCore i f).me = s.me := rfl
@[simp] theorem State.me_modMyCore (s : State) (f : Core → Core) : (s.modMyCore f).me = s.me := rfl
@[simp] theorem State.me_setTug (s : State) (t : TugId) (x : Tug) : (s.setTug t x).me = s.me := rfl
@[simp] theorem State.me_setWalk (s : State) (w : WalkId) (x : Walk) : (s.setWalk w x).me = s.me := rfl
@[simp] theorem State.me_modCluster (s : State) (i : Nat) (f : Cluster → Cluster) : (s.modCluster i f).me = s.me := rfl
@[simp] theorem State.core_modCtx (s : State) (c : CtxId) (f : Ctx → Ctx) (i : Nat) : (s.modCtx c f).core i = s.core i := rfl
@[simp] theorem State.core_modMe (s : State) (f : Ctx → Ctx) (i : Nat) : (s.modMe f).core i = s.core i := rfl
@[simp] theorem State.myCore_modMe (s : State) (f : Ctx → Ctx) : (s.modMe f).myCore = s.myCore := rfl
@[simp] theorem State.cluster_modMe (s : State) (f : Ctx → Ctx) (i : Nat) : (s.modMe f).cluster i = s.cluster i := rfl
@[simp] theorem State.tug_modMe (s : State) (f : Ctx → Ctx) (t : TugId) : (s.modMe f).tug t = s.tug t := rfl
@[simp] theorem State.walk_modMe (s : State) (f : Ctx → Ctx) (w : WalkId) : (s.modMe f).walk w = s.walk w := rfl

/-! Scalar registers (R25, R26). -/

@[simp] theorem Ctx.sget_zero (c : Ctx) : c.sget 0 = 0 := by simp [Ctx.sget]

@[simp] theorem Ctx.isFull_zero (c : Ctx) : c.isFull 0 = true := by simp [Ctx.isFull]

@[simp] theorem Ctx.sset_zero (c : Ctx) (v : Word) : c.sset 0 v = c := by simp [Ctx.sset]

theorem Ctx.sget_sset_self (c : Ctx) {r : Fin 32} (v : Word) (h : r ≠ 0) : (c.sset r v).sget r = v := by
  simp [Ctx.sget, Ctx.sset, h]

theorem Ctx.sget_sset_ne (c : Ctx) {r q : Fin 32} (v : Word) (h : q ≠ r) : (c.sset r v).sget q = c.sget q := by
  have : r.val ≠ q.val := fun e => h (Fin.ext e.symm)
  by_cases z : r = 0
  · simp [z]
  · simp [Ctx.sget, Ctx.sset, z, this]

end Sys2Proof.Machine
end

