-- ==== Sys2Proof/Laws/Monad.lean ====
section
/-! SUPPORT. The computation type run on a state, and each shared operation of the scalar side in the case where it succeeds. -/

namespace Sys2Proof.Machine

/-! Running a computation. -/

theorem run_bind {α β : Type} (x : M α) (f : α → M β) (s : State) :
    (x >>= f) s = match x s with | .ok a t => f a t | .error e t => .error e t := by
  simp only [bind, EStateM.bind]; cases x s <;> rfl

theorem run_bind_ok {α β : Type} {x : M α} {f : α → M β} {s t : State} {a : α} (h : x s = .ok a t) : (x >>= f) s = f a t := by
  rw [run_bind, h]

theorem run_bind_error {α β : Type} {x : M α} {f : α → M β} {s t : State} {e : Exc} (h : x s = .error e t) : (x >>= f) s = .error e t := by
  rw [run_bind, h]

/-- A function of what a computation answers. -/
theorem run_map {α β : Type} (f : α → β) (x : M α) (s : State) :
    (f <$> x) s = match x s with | .ok a t => .ok (f a) t | .error e t => .error e t := by
  simp only [Functor.map, EStateM.map]; cases x s <;> rfl

@[simp] theorem run_pure {α : Type} (a : α) (s : State) : (pure a : M α) s = .ok a s := rfl
@[simp] theorem run_get (s : State) : (get : M State) s = .ok s s := rfl
@[simp] theorem run_set (t s : State) : (set t : M Unit) s = .ok () t := rfl
@[simp] theorem run_modify (f : State → State) (s : State) : (modify f : M Unit) s = .ok () (f s) := rfl
@[simp] theorem run_throw {α : Type} (e : Exc) (s : State) : (throw e : M α) s = .error e s := rfl
@[simp] theorem run_getMe (s : State) : getMe s = .ok s.me s := rfl
@[simp] theorem run_getCore (s : State) : getCore s = .ok s.myCore s := rfl
@[simp] theorem run_modMe (f : Ctx → Ctx) (s : State) : modMe f s = .ok () (s.modMe f) := rfl
@[simp] theorem run_modCore (f : Core → Core) (s : State) : modCore f s = .ok () (s.modMyCore f) := rfl
@[simp] theorem run_waitM {α : Type} (s : State) : (waitM : M α) s = .error .wait s := rfl
@[simp] theorem run_trapV {α : Type} (c : Cause) (v : Word) (s : State) : (trapV c v : M α) s = .error (.cause c (some v)) s := rfl
@[simp] theorem run_trapN {α : Type} (c : Cause) (n : Nat) (s : State) : (trapN c n : M α) s = .error (.cause c (some (BitVec.ofNat 64 n))) s := rfl
@[simp] theorem run_trapU {α : Type} (c : Cause) (s : State) : (trapU c : M α) s = .error (.cause c none) s := rfl

theorem waitUnless_true {b : Bool} (h : b = true) (s : State) : waitUnless b s = .ok () s := by subst h; rfl
theorem waitUnless_false {b : Bool} (h : b = false) (s : State) : waitUnless b s = .error .wait s := by subst h; rfl
theorem need_true {b : Bool} (h : b = true) (c : Cause) (v : Word) (s : State) : need b c v s = .ok () s := by subst h; rfl
theorem need_false {b : Bool} (h : b = false) (c : Cause) (v : Word) (s : State) : need b c v s = .error (.cause c (some v)) s := by subst h; rfl
theorem needN_true {b : Bool} (h : b = true) (c : Cause) (n : Nat) (s : State) : needN b c n s = .ok () s := by subst h; rfl
theorem needN_false {b : Bool} (h : b = false) (c : Cause) (n : Nat) (s : State) :
    needN b c n s = .error (.cause c (some (BitVec.ofNat 64 n))) s := by subst h; rfl
theorem needU_true {b : Bool} (h : b = true) (c : Cause) (s : State) : needU b c s = .ok () s := by subst h; rfl
theorem needU_false {b : Bool} (h : b = false) (c : Cause) (s : State) : needU b c s = .error (.cause c none) s := by subst h; rfl

/-- What `attempt` answers. -/
theorem run_attempt {α : Type} (x : M α) (s : State) :
    attempt x s = match x s with | .ok a t => .ok (.ok a) t | .error e t => .ok (.error e) t := rfl

/-! Scalar registers. -/

theorem readS_ok {s : State} {r : Fin 32} (h : s.me.isFull r = true) : readS r s = .ok (s.me.sget r) s := by
  simp [readS, run_bind, h]

theorem readS_wait {s : State} {r : Fin 32} (h : s.me.isFull r = false) : readS r s = .error .wait s := by
  simp [readS, run_bind, h]

theorem awaitS_ok {s : State} {r : Fin 32} (h : s.me.isFull r = true) : awaitS r s = .ok () s := by
  simp [awaitS, run_bind, h, waitUnless]

theorem writeS_ok {s : State} {r : Fin 32} (v : Word) (h : s.me.isFull r = true) :
    writeS r v s = .ok () (s.modMe fun c => c.sset r v) := by
  simp [writeS, run_bind, h]

theorem landAt_ok {s : State} (r : Fin 32) (v : Word) (src : Option Nat) (h : s.late = false) :
    landAt r v src s = .ok () (s.modMe fun c => c.sset r v) := by
  simp [landAt, run_bind, h]

theorem landS_ok {s : State} (r : Fin 32) (v : Word) (h : s.late = false) : landS r v s = .ok () (s.modMe fun c => c.sset r v) :=
  landAt_ok r v none h

end Sys2Proof.Machine
end

