-- ==== Sys2Proof/Laws/Keep.lean ====
section
/-! SUPPORT. What a computation keeps: a property of states that holds before it holds after it, however it ends; and that finding the place of an access leaves every context as it was. -/

namespace Sys2Proof.Machine

/-- The state a computation ends in. -/
def endState {α : Type} : EStateM.Result Exc State α → State
  | .ok _ t => t
  | .error _ t => t

/-- The computation keeps the property, whether it answers or raises. -/
def Keeps {α : Type} (P : State → Prop) (x : M α) : Prop := ∀ s, P s → P (endState (x s))

variable {α β : Type} {P : State → Prop}

theorem Keeps.ok {x : M α} (h : Keeps P x) {s t : State} {a : α} (hs : P s) (e : x s = .ok a t) : P t := by
  have := h s hs; rwa [e] at this

theorem Keeps.error {x : M α} (h : Keeps P x) {s t : State} {e : Exc} (hs : P s) (e' : x s = .error e t) : P t := by
  have := h s hs; rwa [e'] at this

theorem Keeps.pure (a : α) : Keeps P (pure a : M α) := fun _ hs => hs

theorem Keeps.throw (e : Exc) : Keeps P (throw e : M α) := fun _ hs => hs

theorem Keeps.bind {x : M α} {f : α → M β} (hx : Keeps P x) (hf : ∀ a, Keeps P (f a)) : Keeps P (x >>= f) := by
  intro s hs
  rw [run_bind]
  cases h : x s with
  | ok a t => exact hf a t (hx.ok hs h)
  | error e t => exact hx.error hs h

theorem Keeps.map {x : M α} (f : α → β) (hx : Keeps P x) : Keeps P (f <$> x) := by
  intro s hs
  rw [run_map]
  cases h : x s with
  | ok a t => exact hx.ok hs h
  | error e t => exact hx.error hs h

theorem Keeps.get : Keeps P (get : M State) := fun _ hs => hs

theorem Keeps.set {t : State} (h : P t) : Keeps P (set t : M Unit) := fun _ _ => h

theorem Keeps.modify {f : State → State} (h : ∀ s, P s → P (f s)) : Keeps P (modify f : M Unit) := fun s hs => h s hs

/-- What follows a read of the state may use that the property holds of it. -/
theorem Keeps.get_bind {f : State → M β} (h : ∀ s, P s → Keeps P (f s)) : Keeps P (MonadState.get >>= f) := fun s hs => h s hs s hs

theorem Keeps.ite {c : Prop} [Decidable c] {x y : M α} (hx : c → Keeps P x) (hy : ¬c → Keeps P y) : Keeps P (if c then x else y) := by
  split
  · exact hx ‹_›
  · exact hy ‹_›

theorem Keeps.forM' {γ : Type} {f : γ → M Unit} (l : List γ) (h : ∀ a, Keeps P (f a)) : Keeps P (forM' l f) := by
  induction l with
  | nil => exact Keeps.pure _
  | cons a l ih => exact (h a).bind fun _ => ih

theorem Keeps.waitUnless (b : Bool) : Keeps P (waitUnless b) := Keeps.ite (fun _ => Keeps.pure _) fun _ => Keeps.throw _
theorem Keeps.need (b : Bool) (c : Cause) (v : Word) : Keeps P (need b c v) := Keeps.ite (fun _ => Keeps.pure _) fun _ => Keeps.throw _
theorem Keeps.needN (b : Bool) (c : Cause) (n : Nat) : Keeps P (needN b c n) := Keeps.ite (fun _ => Keeps.pure _) fun _ => Keeps.throw _
theorem Keeps.needU (b : Bool) (c : Cause) : Keeps P (needU b c) := Keeps.ite (fun _ => Keeps.pure _) fun _ => Keeps.throw _
theorem Keeps.trapN (c : Cause) (n : Nat) : Keeps P (trapN c n : M α) := Keeps.throw _
theorem Keeps.trapU (c : Cause) : Keeps P (trapU c : M α) := Keeps.throw _
theorem Keeps.trapV (c : Cause) (v : Word) : Keeps P (trapV c v : M α) := Keeps.throw _

/-! Physical accesses. A property that does not look at what they change. -/

/-- The contexts, the order of turns and what is held back: what an access to memory leaves alone. -/
def State.SameCtx (s t : State) : Prop :=
  t.ctxs = s.ctxs ∧ t.cur = s.cur ∧ t.late = s.late ∧ t.tick = s.tick ∧ t.agenda = s.agenda ∧ t.time = s.time

theorem State.SameCtx.refl (s : State) : s.SameCtx s := ⟨rfl, rfl, rfl, rfl, rfl, rfl⟩

theorem sendOn_same (s u : State) (pa p : Nat) (h : s.SameCtx u) : s.SameCtx (sendOn u pa p) := h

theorem sendTo_same (s u : State) (pa : Nat) (h : s.SameCtx u) : s.SameCtx (sendTo u pa) := by
  unfold sendTo; split
  · exact h
  · split
    · exact sendOn_same s u _ _ h
    · exact h

theorem transfer_same (s : State) (pa : Nat) : Keeps s.SameCtx (transfer pa) := by
  unfold transfer
  refine Keeps.get_bind fun u hu => Keeps.ite (fun _ => Keeps.pure _) fun _ => ?_
  split <;> first
    | exact Keeps.throw _
    | (split
       · exact Keeps.set (sendOn_same s u _ _ hu)
       · exact Keeps.throw _)

theorem transfer_home {pa : Nat} {s : State} (h : paHome pa = s.modId.val) : transfer pa s = .ok () s := by
  simp [transfer, run_bind, h]

theorem poolRead_same (c off n : Nat) : Keeps P (poolRead c off n) := by
  unfold poolRead
  exact Keeps.get_bind fun u hu => Keeps.ite (fun _ => Keeps.throw _) fun _ => Keeps.pure _

theorem poolWrite_same (s : State) (c off n v : Nat) : Keeps s.SameCtx (poolWrite c off n v) := by
  unfold poolWrite
  exact Keeps.get_bind fun u hu => Keeps.ite (fun _ => Keeps.throw _) fun _ => Keeps.set hu

theorem physGet_same (pa n : Nat) : Keeps P (physGet pa n) := by
  unfold physGet
  refine Keeps.get_bind fun u hu => ?_
  split <;> first | exact Keeps.pure _ | exact Keeps.throw _ | exact poolRead_same _ _ _

theorem physGet_state {pa n v : Nat} {s t : State} (h : physGet pa n s = .ok v t) : t = s :=
  ((physGet_same (P := fun u => u = s) pa n).ok rfl h)

theorem physPut_same (s : State) (pa n v : Nat) : Keeps s.SameCtx (physPut pa n v) := by
  unfold physPut
  refine Keeps.get_bind fun u hu => ?_
  split
  · exact Keeps.set hu
  · exact Keeps.ite (fun _ => Keeps.set hu) fun _ => Keeps.pure _
  · exact Keeps.ite (fun _ => Keeps.set hu) fun _ => Keeps.pure _
  · exact Keeps.set hu
  · exact poolWrite_same s _ _ _ _
  · exact Keeps.throw _
  · exact Keeps.throw _

theorem physRead_same (s : State) (pa n : Nat) : Keeps s.SameCtx (physRead pa n) := (transfer_same s pa).bind fun _ => physGet_same _ _

theorem physWrite_same (s : State) (pa n v : Nat) : Keeps s.SameCtx (physWrite pa n v) := (transfer_same s pa).bind fun _ => physPut_same s _ _ _

theorem tableRead_same (s : State) (va pa n : Nat) : Keeps s.SameCtx (tableRead va pa n) := by
  unfold tableRead
  exact Keeps.get_bind fun u hu => (Keeps.needN _ _ _).bind fun _ => physRead_same s _ _

theorem asidEntry_same (s : State) (asid : BitVec 16) (va : Nat) : Keeps s.SameCtx (asidEntry asid va) := by
  unfold asidEntry
  exact Keeps.get_bind fun u hu => (Keeps.needN _ _ _).bind fun _ => (physRead_same s _ _).bind fun _ => (physRead_same s _ _).bind fun _ =>
    (physRead_same s _ _).bind fun _ => (physRead_same s _ _).bind fun _ => (physRead_same s _ _).bind fun _ => (Keeps.needN _ _ _).bind fun _ => Keeps.pure _

theorem walkFrom_same (s : State) (va lvl table : Nat) : Keeps s.SameCtx (walkFrom va lvl table) := by
  induction lvl generalizing table with
  | zero => exact (tableRead_same s _ _ _).bind fun _ => (Keeps.needN _ _ _).bind fun _ => (Keeps.needN _ _ _).bind fun _ => Keeps.pure _
  | succ n ih =>
    exact (tableRead_same s _ _ _).bind fun _ => (Keeps.needN _ _ _).bind fun _ => (Keeps.needN _ _ _).bind fun _ =>
      Keeps.ite (fun _ => ih _) fun _ => Keeps.pure _

theorem contEntry_same (s : State) (va : Nat) (l : Leaf) : Keeps s.SameCtx (contEntry va l) := by
  unfold contEntry
  refine Keeps.ite (fun _ => Keeps.get_bind fun u hu => ?_) fun _ => Keeps.pure _
  exact (tableRead_same s _ _ _).bind fun _ => (Keeps.needN _ _ _).bind fun _ => (Keeps.needN _ _ _).bind fun _ => Keeps.pure _

theorem walkVa_same (s : State) (w : Who) (va : Nat) : Keeps s.SameCtx (walkVa w va) := by
  unfold walkVa
  exact (asidEntry_same s _ _).bind fun _ => (walkFrom_same s _ _ _).bind fun _ => (contEntry_same s _ _).bind fun _ => Keeps.pure _

theorem mapTlb_same (s u : State) (h : Holder) (f : List Trans → List Trans) (hu : s.SameCtx u) : s.SameCtx (mapTlb u h f) := by
  cases h <;> exact hu

theorem markLeaf_same (s : State) (h : Holder) (acc : Acc) (t : Trans) : Keeps s.SameCtx (markLeaf h acc t) := by
  unfold markLeaf
  exact Keeps.ite (fun _ => Keeps.pure _) fun _ => (transfer_same s _).bind fun _ => (physGet_same _ _).bind fun _ =>
    (physPut_same s _ _ _).bind fun _ => Keeps.modify fun v hv => mapTlb_same s v _ _ hv

theorem findLeaf_same (s : State) (w : Who) (va : Nat) (acc : Acc) : Keeps s.SameCtx (findLeaf w va acc) := by
  unfold findLeaf
  refine Keeps.get_bind fun u hu => ?_
  split
  · exact Keeps.pure _
  · refine (Keeps.modify fun v hv => mapTlb_same s v _ _ hv).bind fun _ => (walkVa_same s _ _).bind fun _ => Keeps.get_bind fun v hv => ?_
    split
    · exact Keeps.throw _
    · exact (Keeps.modify fun v hv => mapTlb_same s v _ _ hv).bind fun _ => Keeps.pure _

theorem readPool_same (s : State) (va pa : Nat) : Keeps s.SameCtx (readPool va pa) := by
  unfold readPool
  exact (tableRead_same s _ _ _).bind fun _ => (tableRead_same s _ _ _).bind fun _ => (tableRead_same s _ _ _).bind fun _ =>
    (tableRead_same s _ _ _).bind fun _ => (tableRead_same s _ _ _).bind fun _ => Keeps.pure _

theorem spoil_same (s u : State) (pa : Nat) (h : s.SameCtx u) : s.SameCtx (spoil u pa) := by
  unfold spoil; split <;> exact h

theorem copyUnit_same (s : State) (src dst : Nat) : Keeps s.SameCtx (copyUnit src dst) := by
  unfold copyUnit
  exact Keeps.get_bind fun u hu => (physRead_same s _ _).bind fun _ => (physWrite_same s _ _ _).bind fun _ =>
    Keeps.ite (fun _ => Keeps.modify fun v hv => spoil_same s v _ hv) fun _ => Keeps.pure _

theorem copyPage_same (s : State) (src dst : Nat) : Keeps s.SameCtx (copyPage src dst) := by
  unfold copyPage
  refine Keeps.get_bind fun u hu => Keeps.ite (fun _ => ?_) fun _ => Keeps.forM' _ fun _ => copyUnit_same s _ _
  exact (Keeps.forM' _ fun _ => (transfer_same s _).bind fun _ => transfer_same s _).bind fun _ => Keeps.modify fun _ h => h

theorem reach_same (s : State) (w : Who) (va pa : Nat) : Keeps s.SameCtx (reach w va pa) := by
  unfold reach
  refine Keeps.get_bind fun u hu => ?_
  split
  · exact Keeps.throw _
  · exact (Keeps.needU _ _).bind fun _ => Keeps.waitUnless _

theorem blockEntry_same (s : State) (t : Trans) (va : Nat) : Keeps s.SameCtx (blockEntry t va) := by
  unfold blockEntry
  exact (tableRead_same s _ _ _).bind fun _ => (Keeps.needN _ _ _).bind fun _ => (tableRead_same s _ _ _).bind fun _ => (readPool_same s _ _).bind fun _ => Keeps.pure _

theorem findBlock_same (s : State) (w : Who) (t : Trans) (va : Nat) (acc : Acc) : Keeps s.SameCtx (findBlock w t va acc) := by
  unfold findBlock
  refine (blockEntry_same s _ _).bind fun _ => (reach_same s _ _ _).bind fun _ => Keeps.ite (fun _ => (tableRead_same s _ _ _).bind fun _ => ?_) fun _ => Keeps.pure _
  refine Keeps.ite (fun _ => (Keeps.needN _ _ _).bind fun _ => (tableRead_same s _ _ _).bind fun _ => ?_) fun _ => Keeps.pure _
  exact (Keeps.forM' _ fun _ => (reach_same s _ _ _).bind fun _ => reach_same s _ _ _).bind fun _ => Keeps.get_bind fun u hu => (Keeps.waitUnless _).bind fun _ => Keeps.pure _

theorem copyBlock_same (s : State) (b : BlockUse) : Keeps s.SameCtx (copyBlock b) := by
  unfold copyBlock
  exact Keeps.ite (fun _ => Keeps.forM' _ fun _ => copyPage_same s _ _) fun _ => Keeps.pure _

theorem useBlock_same (s : State) (b : BlockUse) : Keeps s.SameCtx (useBlock b) := by
  unfold useBlock
  split
  · exact (physWrite_same s _ _ _).bind fun _ => (physWrite_same s _ _ _).bind fun _ => (physWrite_same s _ _ _).bind fun _ =>
      (physWrite_same s _ _ _).bind fun _ => (physWrite_same s _ _ _).bind fun _ => Keeps.pure _
  · exact Keeps.pure _

theorem translate_same (s : State) (w : Who) (va : Nat) (acc : Acc) (enc : Bool) : Keeps s.SameCtx (translate w va acc enc) := by
  unfold translate
  refine (findLeaf_same s _ _ _).bind fun _ => (Keeps.needN _ _ _).bind fun _ => Keeps.ite (fun _ => ?_) fun _ => ?_
  · exact (findBlock_same s _ _ _ _).bind fun _ => (copyBlock_same s _).bind fun _ => (markLeaf_same s _ _ _).bind fun _ => (useBlock_same s _).bind fun _ => Keeps.pure _
  · exact (markLeaf_same s _ _ _).bind fun _ => Keeps.pure _

/-- Finding the place of an access changes no context and no turn. -/
theorem coreLoc_same (s : State) (core : Fin 1024) (w : Who) (va n align : Nat) (acc : Acc) (enc : Bool) : Keeps s.SameCtx (coreLoc core w va n align acc enc) := by
  unfold coreLoc
  refine (Keeps.needN _ _ _).bind fun _ => (Keeps.needN _ _ _).bind fun _ => Keeps.get_bind fun u hu => ?_
  split
  · exact Keeps.throw _
  · exact Keeps.pure _
  · exact (translate_same s _ _ _ _).bind fun _ => Keeps.get_bind fun v hv => (Keeps.needU _ _).bind fun _ => Keeps.pure _

theorem meWho_same : Keeps P meWho := by
  unfold meWho
  exact Keeps.get_bind fun s hs => Keeps.pure _

end Sys2Proof.Machine
end

