-- ==== Sys2Proof/Laws/Memory.lean ====
section
/-! SUPPORT. Byte memories: the canonical form every operation keeps, and what a byte reads as after each. -/

namespace Sys2Proof.Machine

/-- The canonical form from a bound up: addresses strictly rise, no entry is zero. -/
def memFrom : Nat → Memory → Prop
  | _, [] => True
  | n, (a, b) :: m => n ≤ a ∧ b ≠ 0 ∧ memFrom (a + 1) m

theorem memFrom.mono {n k : Nat} {m : Memory} (h : memFrom n m) (hk : k ≤ n) : memFrom k m := by
  cases m with
  | nil => trivial
  | cons c m => exact ⟨Nat.le_trans hk h.1, h.2⟩

theorem memWf_iff (m : Memory) : memWf m = true ↔ memFrom 0 m := by
  have key : ∀ (m : Memory) (a : Nat) (b : Byte), memWf ((a, b) :: m) = true ↔ b ≠ 0 ∧ memFrom (a + 1) m := by
    intro m
    induction m with
    | nil => intro a b; simp [memWf, memFrom]
    | cons c m ih =>
      intro a b
      obtain ⟨a', b'⟩ := c
      simp only [memWf, Bool.and_eq_true, bne_iff_ne, decide_eq_true_eq, ih, memFrom]
      constructor
      · rintro ⟨⟨h1, h2⟩, h3, h4⟩; exact ⟨h1, h2, h3, h4⟩
      · rintro ⟨h1, h2, h3, h4⟩; exact ⟨⟨h1, h2⟩, h3, h4⟩
  cases m with
  | nil => simp [memWf, memFrom]
  | cons c m => obtain ⟨a, b⟩ := c; rw [key]; simp [memFrom]

theorem memGet_lt {n a : Nat} {m : Memory} (h : memFrom n m) (ha : a < n) : memGet m a = 0 := by
  induction m generalizing n with
  | nil => rfl
  | cons c m ih =>
    obtain ⟨k, b⟩ := c
    have h1 := h.1
    simp only [memGet]
    rw [if_neg (by omega)]
    exact ih h.2.2 (by omega)

theorem memFrom.filter {n : Nat} {m : Memory} (h : memFrom n m) (p : Host.Cell → Bool) : memFrom n (m.filter p) := by
  induction m generalizing n with
  | nil => trivial
  | cons c m ih =>
    obtain ⟨k, b⟩ := c
    rw [List.filter_cons]
    split
    · exact ⟨h.1, h.2.1, ih h.2.2⟩
    · exact (ih h.2.2).mono (Nat.le_succ_of_le h.1)

theorem memFrom.ins {n a : Nat} {m : Memory} (h : memFrom n m) (ha : n ≤ a) {b : Byte} (hb : b ≠ 0) : memFrom n (memIns m a b) := by
  induction m generalizing n with
  | nil => exact ⟨ha, hb, trivial⟩
  | cons c m ih =>
    obtain ⟨k, v⟩ := c
    have h1 := h.1
    simp only [memIns]
    split
    · subst k; exact ⟨ha, hb, h.2.2⟩
    · split
      · exact ⟨ha, hb, by omega, h.2.1, h.2.2⟩
      · exact ⟨h1, h.2.1, ih h.2.2 (by omega)⟩

theorem memFrom.set {m : Memory} (h : memFrom 0 m) (a : Nat) (b : Byte) : memFrom 0 (memSet m a b) := by
  unfold memSet; split
  · exact h.filter _
  · exact h.ins (Nat.zero_le _) ‹_›

theorem memGet_ins (m : Memory) (a : Nat) (b : Byte) (x : Nat) : memGet (memIns m a b) x = if x = a then b else memGet m x := by
  induction m with
  | nil => simp only [memIns, memGet]; by_cases h : a = x <;> simp [h, eq_comm]
  | cons c m ih =>
    obtain ⟨k, v⟩ := c
    simp only [memIns]
    split
    · subst k; simp only [memGet]; by_cases h : a = x
      · simp [h]
      · simp [h, Ne.symm h]
    · split
      · simp only [memGet]; by_cases h : a = x
        · simp [h]
        · simp [h, Ne.symm h]
      · simp only [memGet, ih]
        by_cases h : k = x
        · subst h; simp; intro e; subst e; contradiction
        · simp [h]

theorem memGet_filter_ne (m : Memory) (a x : Nat) : memGet (m.filter fun c => c.1 != a) x = if x = a then 0 else memGet m x := by
  induction m with
  | nil => simp [memGet]
  | cons c m ih =>
    obtain ⟨k, v⟩ := c
    rw [List.filter_cons]
    by_cases h : k = a
    · subst h; simp only [bne_self_eq_false, Bool.false_eq_true, if_false, ih, memGet]
      by_cases h2 : x = k
      · simp [h2]
      · simp [h2, Ne.symm h2]
    · simp only [bne_iff_ne, ne_eq, h, not_false_eq_true, if_true, memGet, ih]
      by_cases h2 : k = x
      · subst h2; simp [h]
      · simp [h2]

/-- A byte after a write of one byte. -/
theorem memGet_set (m : Memory) (a : Nat) (b : Byte) (x : Nat) : memGet (memSet m a b) x = if x = a then b else memGet m x := by
  unfold memSet; split
  · subst b; exact memGet_filter_ne m a x
  · exact memGet_ins m a b x

/-! The canonical form is kept. -/

theorem memSet_wf {m : Memory} (h : memWf m = true) (a : Nat) (b : Byte) : memWf (memSet m a b) = true := by
  rw [memWf_iff] at *; exact h.set a b

theorem memWrite_wf {m : Memory} (h : memWf m = true) (a n v : Nat) : memWf (memWrite m a n v) = true := by
  induction n generalizing m a v with
  | zero => exact h
  | succ n ih => exact ih (memSet_wf h _ _) _ _

theorem memPut_wf {m : Memory} (h : memWf m = true) (a : Nat) (bs : List Byte) : memWf (memPut m a bs) = true := by
  induction bs generalizing m a with
  | nil => exact h
  | cons b bs ih => exact ih (memSet_wf h _ _) _

theorem memOver_wf {m : Memory} (h : memWf m = true) (p : Memory) : memWf (memOver m p) = true := by
  unfold memOver
  induction p generalizing m with
  | nil => exact h
  | cons c p ih => exact ih (memSet_wf h _ _)

theorem memClear_wf {m : Memory} (h : memWf m = true) (a n : Nat) : memWf (memClear m a n) = true := by
  rw [memWf_iff] at *; exact h.filter _

theorem memFilter_wf {m : Memory} (h : memWf m = true) (p : Host.Cell → Bool) : memWf (m.filter p) = true := by
  rw [memWf_iff] at *; exact h.filter _

theorem memFrom.move {m : Memory} {n a b : Nat} (h : memFrom n m) (hn : a ≤ n) (hm : ∀ c ∈ m, a ≤ c.1) :
    memFrom (n - a + b) (m.map fun c => (c.1 - a + b, c.2)) := by
  induction m generalizing n with
  | nil => trivial
  | cons c m ih =>
    obtain ⟨k, v⟩ := c
    have h1 := h.1
    have h2 : a ≤ k := hm (k, v) (by simp)
    refine ⟨by simp only; omega, h.2.1, ?_⟩
    have := ih h.2.2 (by omega) fun c hc => hm c (by simp [hc])
    have e : k + 1 - a + b = k - a + b + 1 := by omega
    rwa [e] at this

theorem memFrom.move' {m : Memory} {n a b : Nat} (h : memFrom n m) (hm : ∀ c ∈ m, a ≤ c.1) : memFrom 0 (m.map fun c => (c.1 - a + b, c.2)) := by
  cases m with
  | nil => trivial
  | cons c m =>
    have h1 : a ≤ c.1 := hm c (by simp)
    have h2 : memFrom c.1 (c :: m) := ⟨Nat.le_refl _, h.2.1, h.2.2⟩
    exact (h2.move h1 hm).mono (Nat.zero_le _)

theorem memSlice_wf {m : Memory} (h : memWf m = true) (a n b : Nat) : memWf (memSlice m a n b) = true := by
  rw [memWf_iff] at *
  unfold memSlice
  refine (h.filter _).move' fun c hc => ?_
  rw [List.mem_filter] at hc
  have h2 := hc.2
  simp only [Bool.and_eq_true, decide_eq_true_eq] at h2
  exact h2.1

theorem memFrom.append {m p : Memory} {n k : Nat} (h : memFrom n m) (hp : memFrom k p) (hnk : n ≤ k) (hm : ∀ c ∈ m, c.1 < k) : memFrom n (m ++ p) := by
  induction m generalizing n with
  | nil => exact hp.mono hnk
  | cons c m ih =>
    obtain ⟨a, b⟩ := c
    exact ⟨h.1, h.2.1, ih h.2.2 (hm (a, b) (by simp)) fun c hc => hm c (by simp [hc])⟩

theorem memFrom.lower {m : Memory} {n k : Nat} (h : memFrom n m) (hm : ∀ c ∈ m, k ≤ c.1) : memFrom k m := by
  cases m with
  | nil => trivial
  | cons c m => exact ⟨hm c (by simp), h.2⟩

/-- A range replaced by a memory in canonical form whose bytes lie in it. -/
theorem memReplace_wf {m p : Memory} (h : memWf m = true) (hp : memWf p = true) (a n : Nat) (hr : ∀ c ∈ p, a ≤ c.1 ∧ c.1 < a + n) :
    memWf (memReplace m a n p) = true := by
  rw [memWf_iff] at *
  unfold memReplace
  have h1 : memFrom 0 (m.filter fun c => c.1 < a) := h.filter _
  have h2 : memFrom a p := hp.lower fun c hc => (hr c hc).1
  have h3 : memFrom (a + n) (m.filter fun c => a + n ≤ c.1) := (h.filter _).lower fun c hc => by
    rw [List.mem_filter] at hc; simpa using hc.2
  have h4 : memFrom 0 (m.filter (fun c => c.1 < a) ++ p) := h1.append h2 (Nat.zero_le _) fun c hc => by
    rw [List.mem_filter] at hc; simpa using hc.2
  refine h4.append h3 (Nat.zero_le _) fun c hc => ?_
  rw [List.mem_append] at hc
  rcases hc with hc | hc
  · rw [List.mem_filter] at hc
    have : c.1 < a := by simpa using hc.2
    omega
  · exact (hr c hc).2

/-! What a byte reads as. -/

theorem memGet_write (m : Memory) (a n v x : Nat) :
    memGet (memWrite m a n v) x = if a ≤ x ∧ x < a + n then BitVec.ofNat 8 (v / 256 ^ (x - a)) else memGet m x := by
  induction n generalizing m a v with
  | zero => simp only [memWrite]; rw [if_neg (by omega)]
  | succ n ih =>
    simp only [memWrite, ih, memGet_set]
    by_cases h : x = a
    · subst h; rw [if_neg (by omega), if_pos rfl, if_pos (by omega)]; simp
    · by_cases h2 : a + 1 ≤ x ∧ x < a + 1 + n
      · rw [if_pos h2, if_pos (by omega), Nat.div_div_eq_div_mul]
        have e : x - a = (x - (a + 1)) + 1 := by omega
        rw [e, Nat.pow_succ, Nat.mul_comm]
      · rw [if_neg h2, if_neg h, if_neg (by omega)]

theorem memGet_put (m : Memory) (a : Nat) (bs : List Byte) (x : Nat) :
    memGet (memPut m a bs) x = if a ≤ x ∧ x < a + bs.length then bs.getD (x - a) 0 else memGet m x := by
  induction bs generalizing m a with
  | nil => simp only [memPut, List.length_nil]; rw [if_neg (by omega)]
  | cons b bs ih =>
    simp only [memPut, ih, memGet_set, List.length_cons]
    by_cases h : x = a
    · subst h; rw [if_neg (by omega), if_pos rfl, if_pos (by omega)]; simp
    · by_cases h2 : a + 1 ≤ x ∧ x < a + 1 + bs.length
      · rw [if_pos h2, if_pos (by omega)]
        have e : x - a = (x - (a + 1)) + 1 := by omega
        rw [e]; simp
      · rw [if_neg h2, if_neg h, if_neg (by omega)]

/-- A number read back from where it was written. -/
theorem memRead_write (m : Memory) (a n v : Nat) : memRead (memWrite m a n v) a n = v % 256 ^ n := by
  have key : ∀ (k : Nat) (m : Memory) (b v : Nat), (∀ i, i < k → memGet m (b + i) = BitVec.ofNat 8 (v / 256 ^ i)) → memRead m b k = v % 256 ^ k := by
    intro k
    induction k with
    | zero => intro m b v _; simp [memRead, Nat.mod_one]
    | succ k ih =>
      intro m b v h
      simp only [memRead]
      have h0 := h 0 (by omega)
      simp only [Nat.add_zero, Nat.pow_zero, Nat.div_one] at h0
      rw [h0, ih m (b + 1) (v / 256) fun i hi => by
        have := h (i + 1) (by omega)
        rw [Nat.div_div_eq_div_mul, Nat.mul_comm, ← Nat.pow_succ]
        rw [← this]; congr 1; omega]
      rw [BitVec.toNat_ofNat, Nat.pow_succ (n := 256), Nat.mul_comm (256 ^ k) 256, Nat.mod_mul]
  exact key n _ a v fun i hi => by
    rw [memGet_write, if_pos (by omega)]; congr 2; rw [Nat.add_sub_cancel_left]

/-! Spans cut out and replaced. -/

theorem memGet_filter (m : Memory) (p : Nat → Bool) (x : Nat) : memGet (m.filter fun c => p c.1) x = if p x then memGet m x else 0 := by
  induction m with
  | nil => simp [memGet]
  | cons c m ih =>
    by_cases hc : p c.1 <;> by_cases hx : c.1 = x
    · subst hx; simp [hc, memGet]
    · simp [hc, memGet, hx, ih]
    · subst hx; simp [hc, ih]
    · simp [hc, memGet, hx, ih]

theorem memGet_append_out (m p : Memory) (x : Nat) (h : ∀ c ∈ m, c.1 ≠ x) : memGet (m ++ p) x = memGet p x := by
  induction m with
  | nil => rfl
  | cons c m ih => simp [memGet, h c (by simp), ih fun d hd => h d (by simp [hd])]

theorem memGet_out (m : Memory) (x : Nat) (h : ∀ c ∈ m, c.1 ≠ x) : memGet m x = 0 := by
  have := memGet_append_out m [] x h
  simpa [memGet] using this

theorem memGet_append_left (m p : Memory) (x : Nat) (h : ∀ c ∈ p, c.1 ≠ x) : memGet (m ++ p) x = memGet m x := by
  induction m with
  | nil => simpa [memGet] using memGet_out p x h
  | cons c m ih => simp only [List.cons_append, memGet, ih]

/-- A slice moved to `b` reads as the span it was cut from. -/
theorem memGet_slice (m : Memory) (a n b x : Nat) : memGet (memSlice m a n b) x = if b ≤ x ∧ x < b + n then memGet m (x - b + a) else 0 := by
  unfold memSlice
  induction m with
  | nil => simp [memGet]
  | cons c m ih =>
    by_cases hc : a ≤ c.1 ∧ c.1 < a + n
    · simp only [List.filter_cons, hc, decide_true, Bool.and_self, if_true, List.map_cons, memGet, ih]
      by_cases hx : c.1 - a + b = x
      · have : b ≤ x ∧ x < b + n := by omega
        have h2 : c.1 = x - b + a := by omega
        simp [this, h2]
      · by_cases hb : b ≤ x ∧ x < b + n
        · have h2 : ¬c.1 = x - b + a := by omega
          simp [hx, hb, h2]
        · simp [hx, hb]
    · have h1 : (decide (a ≤ c.1) && decide (c.1 < a + n)) = false := by
        simp only [Bool.and_eq_false_iff, decide_eq_false_iff_not]; omega
      simp only [List.filter_cons, h1, Bool.false_eq_true, if_false, ih, memGet]
      by_cases hb : b ≤ x ∧ x < b + n
      · have h2 : ¬c.1 = x - b + a := by omega
        simp [hb, h2]
      · simp [hb]

/-- A span replaced reads as what replaces it; every other byte stays. -/
theorem memGet_replace (m p : Memory) (a n x : Nat) (hp : ∀ c ∈ p, a ≤ c.1 ∧ c.1 < a + n) :
    memGet (memReplace m a n p) x = if a ≤ x ∧ x < a + n then memGet p x else memGet m x := by
  unfold memReplace
  have lo : ∀ y, memGet (m.filter fun c => decide (c.1 < a)) y = if y < a then memGet m y else 0 := fun y => by
    simpa using memGet_filter m (fun k => decide (k < a)) y
  have hi : ∀ y, memGet (m.filter fun c => decide (a + n ≤ c.1)) y = if a + n ≤ y then memGet m y else 0 := fun y => by
    simpa using memGet_filter m (fun k => decide (a + n ≤ k)) y
  by_cases h1 : x < a
  · rw [memGet_append_left _ _ _ (fun c hc => ?_), memGet_append_left _ _ _ (fun c hc => ?_), lo]
    · simp [h1, show ¬(a ≤ x ∧ x < a + n) by omega]
    · have := hp c hc; omega
    · simp only [List.mem_filter, decide_eq_true_eq] at hc; omega
  · have hl : ∀ c ∈ m.filter fun c => decide (c.1 < a), c.1 ≠ x := fun c hc => by simp only [List.mem_filter, decide_eq_true_eq] at hc; omega
    by_cases h2 : x < a + n
    · rw [memGet_append_left _ _ _ (fun c hc => ?_), memGet_append_out _ _ _ hl]
      · simp [h2, show a ≤ x by omega]
      · simp only [List.mem_filter, decide_eq_true_eq] at hc; omega
    · rw [List.append_assoc, memGet_append_out _ _ _ hl, memGet_append_out _ _ _ (fun c hc => ?_), hi]
      · simp [h2, show a + n ≤ x by omega]
      · have := hp c hc; omega

end Sys2Proof.Machine
end

