-- ==== Sys2Proof/Laws/Scalar.lean ====
section
/-! SUPPORT. How the computation of a scalar instruction becomes its step: when it succeeds, waits, or raises a cause. -/

namespace Sys2Proof.Machine

theorem retire_eq (s : State) : retire s = s.modMe Ctx.retired := rfl

theorem find_none {l : List Landing} (h : ∀ k ∈ l, k.poison = none) : l.find? (fun k => k.poison.isSome) = none := by
  rw [List.find?_eq_none]; intro k hk; simp [h k hk]

@[simp] theorem Ctx.retired_land (x : Ctx) : x.retired.land = x.land := by unfold Ctx.retired; split <;> rfl

/-- The end of an instruction is quiet. -/
theorem boundary_quiet {s : State} (h : s.Quiet) : boundary s = s := by
  rcases h with h | h
  · simp [boundary, h]
  · have h' : (s.ctx s.cur).land.find? (fun k => k.poison.isSome) = none := find_none h
    simp [boundary, poisonStop, h']

theorem Quiet.modMe {s : State} (h : s.Quiet) {f : Ctx → Ctx} (hf : (f s.me).land = s.me.land) : (s.modMe f).Quiet := by
  rcases h with h | h
  · exact .inl h
  · exact .inr (by simpa [hf] using h)

/-- A scalar instruction whose computation succeeds. -/
theorem scalar_ok {x : M Unit} {s t : State} (h : x s = .ok () t) (q : t.Quiet) : scalar x s = .next (t.went id) := by
  simp only [scalar, h, retire_eq, State.modMe_modMe]
  rw [boundary_quiet (Quiet.modMe q (by simp))]
  rfl

/-- A scalar instruction that says where the PC goes. -/
theorem scalarTo_ok {x : M Word} {s t : State} {pc : Word} (h : x s = .ok pc t) (q : t.Quiet) : scalarTo x s = .next (t.wentTo pc id) := by
  simp only [scalarTo, h, retire_eq, State.modMe_modMe]
  rw [boundary_quiet (Quiet.modMe q (by simp))]
  rfl

/-- One that changes the running context alone. -/
theorem scalar_modMe {x : M Unit} {s t : State} {f : Ctx → Ctx} (h : x s = .ok () (t.modMe f)) (q : t.Quiet) (hf : (f t.me).land = t.me.land) :
    scalar x s = .next (t.went f) := by
  rw [scalar_ok h (Quiet.modMe q hf)]; simp [State.went]

theorem scalarTo_modMe {x : M Word} {s t : State} {pc : Word} {f : Ctx → Ctx} (h : x s = .ok pc (t.modMe f)) (q : t.Quiet) (hf : (f t.me).land = t.me.land) :
    scalarTo x s = .next (t.wentTo pc f) := by
  rw [scalarTo_ok h (Quiet.modMe q hf)]; simp [State.wentTo]

/-- One that changes nothing but the PC. -/
theorem scalar_same {x : M Unit} {s t : State} (h : x s = .ok () t) (q : t.Quiet) : scalar x s = .next (t.went id) := scalar_ok h q

theorem Ctx.sset_land (c : Ctx) (r : Fin 32) (v : Word) : (c.sset r v).land = c.land := by unfold Ctx.sset; split <;> rfl

/-- One that writes a scalar register. -/
theorem scalar_write {x : M Unit} {s t : State} {r : Fin 32} {v : Word} (h : x s = .ok () (t.modMe fun c => c.sset r v)) (q : t.Quiet) :
    scalar x s = .next (t.wrote r v) := scalar_modMe h q (Ctx.sset_land _ _ _)

theorem scalar_wait {x : M Unit} {s t : State} (h : x s = .error .wait t) : scalar x s = .next (hold t) := by simp [scalar, h, scalarExc]

theorem scalarTo_wait {x : M Word} {s t : State} (h : x s = .error .wait t) : scalarTo x s = .next (hold t) := by simp [scalarTo, h, scalarExc]

/-- One that raises a cause with no vector or matrix instruction ahead of it. -/
theorem scalar_cause {x : M Unit} {s t : State} {c : Cause} {v : Option Word} (h : x s = .error (.cause c v) t) (q : t.me.lanesIdle = true) :
    scalar x s = .next (raise t t.cur c t.me.pc t.me.pc (tvalOf t v) 0 false) := by simp [scalar, h, scalarExc, q]

theorem scalarTo_cause {x : M Word} {s t : State} {c : Cause} {v : Option Word} (h : x s = .error (.cause c v) t) (q : t.me.lanesIdle = true) :
    scalarTo x s = .next (raise t t.cur c t.me.pc t.me.pc (tvalOf t v) 0 false) := by simp [scalarTo, h, scalarExc, q]

/-- What a step of the hardware that only changes the state answers. -/
theorem event_modify (f : State → State) (s : State) : event (modify f) s = .next (f s) := rfl

/-! Frames. -/

theorem OnlyMe.modMe (s : State) (f : Ctx → Ctx) : s.OnlyMe (s.modMe f) :=
  ⟨rfl, fun _ h => State.ctx_modMe_ne s f h⟩

theorem OnlyMe.went (s : State) (f : Ctx → Ctx) : s.OnlyMe (s.went f) := OnlyMe.modMe s _

@[simp] theorem State.me_went (s : State) (f : Ctx → Ctx) : (s.went f).me = ({ f s.me with pc := (f s.me).pc + 4 } : Ctx).retired := by simp [State.went]

/-! The forms of the scalar arithmetic. -/

theorem salu_ok {f : A3} {s : State} (op : Word → Word → Word) (h : s.Full [f.sa, f.sb, f.sd]) :
    salu f op s = .ok () (s.modMe fun c => c.sset f.sd (op (s.me.sget f.sa) (s.me.sget f.sb))) := by
  simp only [salu, run_bind, readS_ok (h f.sa (by simp)), readS_ok (h f.sb (by simp)), writeS_ok _ (h f.sd (by simp))]

theorem salu1_ok {f : A2} {s : State} (op : Word → Word) (h : s.Full [f.sa, f.sd]) :
    salu1 f op s = .ok () (s.modMe fun c => c.sset f.sd (op (s.me.sget f.sa))) := by
  simp only [salu1, run_bind, readS_ok (h f.sa (by simp)), writeS_ok _ (h f.sd (by simp))]

theorem immediate_ok {f : IForm} {s : State} (op : Word → BitVec 16 → Word) (h : s.Full [f.sa, f.sd]) :
    immediate f op s = .ok () (s.modMe fun c => c.sset f.sd (op (s.me.sget f.sa) f.imm)) := by
  simp only [immediate, run_bind, readS_ok (h f.sa (by simp)), writeS_ok _ (h f.sd (by simp))]

theorem shiftImm_ok {f : ShForm} {s : State} (op : Word → Nat → Word) (h : s.Full [f.sa, f.sd]) :
    shiftImm f op s = .ok () (s.modMe fun c => c.sset f.sd (op (s.me.sget f.sa) f.shamt.val)) := by
  simp only [shiftImm, run_bind, readS_ok (h f.sa (by simp)), writeS_ok _ (h f.sd (by simp))]

theorem State.Full.get {s : State} {rs : List (Fin 32)} (h : s.Full rs) {r : Fin 32} (m : r ∈ rs) : s.me.isFull r = true := h r m

end Sys2Proof.Machine
end

