-- ==== Sys2Proof/Laws/Access.lean ====
section
/-! SUPPORT. Scalar accesses: where one reaches, and what reading and writing there does, in the core's own pool and in main memory of the module. -/

namespace Sys2Proof.Machine

theorem State.SameCtx.me {s t : State} (h : s.SameCtx t) : t.me = s.me := by
  obtain ⟨h1, h2, _⟩ := h
  simp [State.me, State.ctx, h1, h2]

theorem State.SameCtx.quiet {s t : State} (h : s.SameCtx t) (q : s.Quiet) : t.Quiet := by
  rcases q with q | q
  · exact .inl (h.2.2.1.trans q)
  · exact .inr (by rw [h.me]; exact q)

theorem scalarLoc_same (s : State) (a n : Nat) (acc : Acc) : Keeps s.SameCtx (scalarLoc a n acc) := by
  unfold scalarLoc
  exact Keeps.get_bind fun u hu => meWho_same.bind fun _ => coreLoc_same s _ _ _ _ _ _ _

theorem scalarLoc_ok_same {s t : State} {a n : Nat} {acc : Acc} {l : Loc} (h : scalarLoc a n acc s = .ok l t) : s.SameCtx t :=
  (scalarLoc_same s a n acc).ok (State.SameCtx.refl s) h

theorem windowLoc_some_lt {s : State} {core : Fin 1024} {priv : BitVec 2} {va n : Nat} {acc : Acc} {enc : Bool} {l : Loc}
    (h : windowLoc s core priv va n acc enc = some (.ok l)) : va < 2 ^ 56 := by
  have e1 : ownBase + poolSize ≤ 2 ^ 56 := by decide
  have e2 : peerBase + 8 * poolSize ≤ 2 ^ 56 := by decide
  generalize 2 ^ 56 = top at *
  unfold windowLoc at h
  repeat' split at h
  all_goals first | omega | cases h

/-- An access of the own pool is found without any effect. -/
theorem State.PoolAt.loc {s : State} {a n : Nat} {acc : Acc} {off : Nat} (h : s.PoolAt a n acc off) : scalarLoc a n acc s = .ok (.pool s.cur.core.val off) s := by
  obtain ⟨h1, h2, _⟩ := h
  have hw : meWho s = .ok { asid := s.me.asid, priv := s.me.priv, holder := .core s.cur.core.val } s := rfl
  unfold scalarLoc
  rw [run_bind_ok (run_get s), run_bind_ok hw]
  unfold coreLoc
  rw [run_bind_ok (needN_true (by simpa using windowLoc_some_lt h2) _ _ _), run_bind_ok (needN_true (by simp [h1]) _ _ _), run_bind_ok (run_get s)]
  simp only [h2]
  rfl

theorem poolPoisoned_rest {c : Core} {off n : Nat} (h : poolPoisoned c off n = false) : (c.poison.filter fun u => !(off ≤ u * 8 && u * 8 + 8 ≤ off + n)) = c.poison := by
  rw [List.filter_eq_self]
  intro u hu
  simp only [poolPoisoned, List.any_eq_false] at h
  have := h u hu
  simp only [Bool.and_eq_true, decide_eq_true_eq] at this
  simp only [Bool.not_eq_true', Bool.and_eq_false_iff, decide_eq_false_iff_not]
  omega

theorem poolRead_ok {s : State} {c off n : Nat} (h : poolPoisoned (s.core c) off n = false) : poolRead c off n s = .ok (memRead (s.core c).pool off n) s := by
  simp [poolRead, run_bind, h]

theorem poolWrite_ok {s : State} {c off n : Nat} (v : Nat) (h : poolPoisoned (s.core c) off n = false) :
    poolWrite c off n v s = .ok () (s.modCore c fun k => { k with pool := memWrite k.pool off n v }) := by
  simp only [poolWrite, run_bind, run_get, poolPoisoned_rest h]
  have : poolPoisoned { s.core c with poison := (s.core c).poison } off n = false := h
  rw [this]
  rfl

theorem locRead_pool {s : State} {c off n : Nat} (h : poolPoisoned (s.core c) off n = false) : locRead (.pool c off) n s = .ok (memRead (s.core c).pool off n) s :=
  poolRead_ok h

theorem locWrite_pool {s : State} {c off n : Nat} (v : Nat) (h : poolPoisoned (s.core c) off n = false) :
    locWrite (.pool c off) n v s = .ok () (s.modCore c fun k => { k with pool := memWrite k.pool off n v }) := poolWrite_ok v h

/-! Pending stores: none is left by an access when none was there. -/

theorem drainFor_none {s : State} (l : Loc) (n : Nat) (h : s.me.stores = []) : drainFor l n s = .ok () s := by
  simp [drainFor, h]

theorem performStores_none {s : State} {c : CtxId} (h : (s.ctx c).stores = []) : performStores s c = s := by
  simp [performStores, h]

theorem drainAll_none {s : State} (h : s.me.stores = []) : drainAll s = .ok () s := by
  simp only [drainAll, run_modify]; rw [performStores_none h]

theorem mayPend_none {s : State} {a n : Nat} {l : Loc} {plain : Bool} (h : s.late = false) : mayPend s a l n plain = false := by
  simp [mayPend, h]

theorem awaitAcks_home {s : State} {l : Loc} (h : homeHere s l = true) : awaitAcks l s = .ok () s := by
  simp [awaitAcks, run_bind, h, waitUnless]

/-- A read in the own pool, in any order. -/
theorem State.PoolAt.read {s : State} {a n : Nat} {acc : Acc} {off : Nat} (h : s.PoolAt a n acc off) (b : Nat) (plain : Bool) :
    scalarRead b (.pool s.cur.core.val off) n plain s = .ok (memRead s.myCore.pool off n) s := by
  have r := locRead_pool (s := s) (c := s.cur.core.val) h.2.2
  cases plain
  · simp only [scalarRead, run_bind, run_get, Bool.false_eq_true, if_false, strongPrep, dropLine, run_modify]; exact r
  · simp only [scalarRead, run_bind, run_get, if_true, cachedRead]; exact r

/-- A write in the own pool, in any order. -/
theorem State.PoolAt.write {s : State} {a n : Nat} {acc : Acc} {off : Nat} (h : s.PoolAt a n acc off) (b v : Nat) (plain : Bool) :
    scalarWrite b (.pool s.cur.core.val off) n v plain s = .ok () (s.modMyCore fun k => { k with pool := memWrite k.pool off n v }) := by
  have r := locWrite_pool (s := s) (c := s.cur.core.val) v h.2.2
  cases plain
  · simp only [scalarWrite, run_bind, run_get, Bool.false_eq_true, if_false, strongPrep, dropLine, run_modify]; exact r
  · simp only [scalarWrite, run_bind, run_get, if_true, cachedWrite]; exact r

theorem unpoison_self {p : List Nat} {s : State} {pa n : Nat} (hp : s.poison = p) (h : poisoned s pa n = false) : unpoison p pa n = p := by
  subst hp
  unfold unpoison
  rw [List.filter_eq_self]
  intro u hu
  simp only [poisoned, List.any_eq_false] at h
  have := h u hu
  simp only [Bool.and_eq_true, decide_eq_true_eq] at this
  simp only [Bool.not_eq_true', Bool.and_eq_false_iff, decide_eq_false_iff_not]
  omega

theorem physRead_memory {s : State} {pa : Nat} (n : Nat) (h : physKind s pa = .memory) (hh : paHome pa = s.modId.val) :
    physRead pa n s = .ok (memRead s.mem pa n) s := by
  rw [physRead, run_bind_ok (transfer_home hh)]
  simp [physGet, run_bind, h]

/-- A write to main memory of this module, without the transfer. -/
theorem physPut_memory {s : State} {pa n : Nat} (v : Nat) (h : physKind s pa = .memory) (hp : poisoned s pa n = false) :
    physPut pa n v s = .ok () { s with mem := memWrite s.mem pa n v } := by
  simp only [physPut, run_bind, run_get, h, unpoison_self rfl hp]
  rfl

/-- A write to main memory of this module. -/
theorem physWrite_memory {s : State} {pa n : Nat} (v : Nat) (h : physKind s pa = .memory) (hh : paHome pa = s.modId.val)
    (hp : poisoned s pa n = false) : physWrite pa n v s = .ok () { s with mem := memWrite s.mem pa n v } := by
  rw [physWrite, run_bind_ok (transfer_home hh)]
  exact physPut_memory v h hp

/-- No line of the core's data cache holds the address: a strong access has nothing to write back. -/
theorem strongPrep_none {s : State} {core pa typ : Nat} (h : ∀ d ∈ (s.core core).dcache, d.pa ≠ pa / 64 * 64) : strongPrep core (.mem pa typ) s = .ok () s := by
  have : findLine s core pa = none := by
    simpa [findLine, List.find?_eq_none] using h
  simp only [strongPrep, dropLine, run_modify, this, Option.isSome_none, Bool.false_eq_true, if_false]

theorem scalarRead_memory {s : State} {a pa typ n : Nat} (plain : Bool) (hk : physKind s pa = .memory) (hb : isBound s s.cur.core a = false)
    (hd : ∀ d ∈ s.myCore.dcache, d.pa ≠ pa / 64 * 64) (hh : paHome pa = s.modId.val) :
    scalarRead a (.mem pa typ) n plain s = .ok (memRead s.mem pa n) s := by
  cases plain
  · simp only [scalarRead, run_bind, run_get, Bool.false_eq_true, if_false, strongPrep_none hd, locRead]; exact physRead_memory n hk hh
  · simp only [scalarRead, run_bind, run_get, if_true, cachedRead, hb, Bool.false_and, Bool.false_eq_true, if_false, strongPrep_none hd, locRead]; exact physRead_memory n hk hh

theorem scalarWrite_memory {s : State} {a pa typ n : Nat} (v : Nat) (plain : Bool) (hk : physKind s pa = .memory) (hb : isBound s s.cur.core a = false)
    (hd : ∀ d ∈ s.myCore.dcache, d.pa ≠ pa / 64 * 64) (hh : paHome pa = s.modId.val) (hp : poisoned s pa n = false) :
    scalarWrite a (.mem pa typ) n v plain s = .ok () { s with mem := memWrite s.mem pa n v } := by
  cases plain
  · simp only [scalarWrite, run_bind, run_get, Bool.false_eq_true, if_false, strongPrep_none hd, locWrite]; exact physWrite_memory v hk hh hp
  · simp only [scalarWrite, run_bind, run_get, if_true, cachedWrite, hb, Bool.false_and, Bool.false_eq_true, if_false, strongPrep_none hd, locWrite]; exact physWrite_memory v hk hh hp

theorem poisonAt_pool {s : State} {c off n : Nat} : poisonAt (.pool c off) n s = .ok none s := rfl

theorem poisonAt_memory {s : State} {pa typ n : Nat} (hp : poisoned s pa n = false) : poisonAt (.mem pa typ) n s = .ok none s := by
  simp [poisonAt, run_bind, hp]

theorem landAt_late {s : State} {r : Fin 32} (v : Word) (src : Option Nat) (h : s.late = true) (hr : r ≠ 0) :
    landAt r v src s = .ok () (s.modMe fun c => { c.sclear r with land := c.land ++ [{ dst := r, value := v, poison := none, src }] }) := by
  simp [landAt, run_bind, h, hr]

theorem widthBytes_pos (k : Width) : 0 < widthBytes k := by cases k <;> decide

end Sys2Proof.Machine
end

