-- ==== Sys2Proof/Laws/Bits.lean ====
section
/-! SUPPORT. Bit fields of numbers and words, and how a field is replaced. -/

namespace Sys2Proof.Machine

theorem nbits_lt (v lo n : Nat) : nbits v lo n < 2 ^ n := Nat.mod_lt _ (Nat.two_pow_pos n)

theorem wbits_lt {w : Nat} (v : BitVec w) (lo n : Nat) : wbits v lo n < 2 ^ n := nbits_lt _ _ _

/-- A number as what lies above a field, the field, and what lies below it. -/
theorem nbits_split (v lo n : Nat) : v = 2 ^ lo * (2 ^ n * (v / 2 ^ (lo + n)) + nbits v lo n) + v % 2 ^ lo := by
  have h1 := Nat.div_add_mod v (2 ^ lo)
  have h2 := Nat.div_add_mod (v / 2 ^ lo) (2 ^ n)
  rw [Nat.div_div_eq_div_mul, ← Nat.pow_add] at h2
  unfold nbits
  rw [h2, h1]

theorem testBit_nbits (v lo n i : Nat) : (nbits v lo n).testBit i = (decide (i < n) && v.testBit (lo + i)) := by
  unfold nbits
  rw [Nat.testBit_mod_two_pow, Nat.testBit_div_two_pow, Nat.add_comm]

/-- The number a field replacement gives. -/
theorem setBits_value (v : Word) (lo n x : Nat) :
    v.toNat - wbits v lo n * 2 ^ lo + x % 2 ^ n * 2 ^ lo = 2 ^ lo * (2 ^ n * (v.toNat / 2 ^ (lo + n)) + x % 2 ^ n) + v.toNat % 2 ^ lo := by
  have h := nbits_split v.toNat lo n
  unfold wbits
  generalize v.toNat / 2 ^ (lo + n) = hi at *
  generalize hm : nbits v.toNat lo n = mid at *
  generalize v.toNat % 2 ^ lo = low at *
  rw [h, Nat.mul_add, Nat.mul_add, Nat.mul_comm mid, Nat.mul_comm (x % 2 ^ n)]
  omega

/-- A bit of a word with a field replaced: of the new field inside it, of the word outside it. -/
theorem getLsbD_setBits (v : Word) (lo n x i : Nat) :
    (setBits v lo n x).getLsbD i = if lo ≤ i ∧ i < lo + n then decide (i < 64) && x.testBit (i - lo) else v.getLsbD i := by
  unfold setBits
  rw [setBits_value, BitVec.getLsbD_ofNat, Nat.testBit_two_pow_mul_add _ (Nat.mod_lt _ (Nat.two_pow_pos lo))]
  have hb : ∀ j, v.getLsbD j = v.toNat.testBit j := fun j => rfl
  by_cases h1 : i < lo
  · rw [if_pos h1, if_neg (by omega), Nat.testBit_mod_two_pow, hb]
    by_cases h2 : i < 64
    · simp [h1, h2]
    · simp [h1, h2, ← hb, BitVec.getLsbD_of_ge v i (by omega)]
  · rw [if_neg h1, Nat.testBit_two_pow_mul_add _ (Nat.mod_lt _ (Nat.two_pow_pos n))]
    by_cases h3 : i - lo < n
    · rw [if_pos h3, if_pos (by omega), Nat.testBit_mod_two_pow]; simp [h3]
    · rw [if_neg h3, if_neg (by omega), Nat.testBit_div_two_pow, hb]
      have e : i - lo - n + (lo + n) = i := by omega
      rw [e]
      by_cases h2 : i < 64
      · simp [h2]
      · simp [h2, ← hb, BitVec.getLsbD_of_ge v i (by omega)]

/-- Words with the same bits in a field hold the same number there. -/
theorem wbits_congr {v w : Word} {lo lo' n : Nat} (h : ∀ i, i < n → v.getLsbD (lo + i) = w.getLsbD (lo' + i)) : wbits v lo n = wbits w lo' n := by
  apply Nat.eq_of_testBit_eq
  intro i
  rw [wbits, wbits, testBit_nbits, testBit_nbits]
  by_cases hi : i < n
  · simpa [hi, BitVec.getLsbD] using h i hi
  · simp [hi]

/-- The field that was replaced. -/
theorem wbits_setBits_self (v : Word) (lo n x : Nat) (h : lo + n ≤ 64) : wbits (setBits v lo n x) lo n = x % 2 ^ n := by
  apply Nat.eq_of_testBit_eq
  intro i
  rw [wbits, testBit_nbits, Nat.testBit_mod_two_pow]
  by_cases hi : i < n
  · have := getLsbD_setBits v lo n x (lo + i)
    rw [if_pos ⟨by omega, by omega⟩] at this
    have h2 : lo + i < 64 := by omega
    simpa [hi, BitVec.getLsbD, h2] using this
  · simp [hi]

/-- A field apart from the one replaced. -/
theorem wbits_setBits_ne (v : Word) (lo n x lo' n' : Nat) (h : lo' + n' ≤ lo ∨ lo + n ≤ lo') : wbits (setBits v lo n x) lo' n' = wbits v lo' n' := by
  apply wbits_congr
  intro i hi
  rw [getLsbD_setBits, if_neg (by omega)]

end Sys2Proof.Machine
end

