-- ==== Sys2Proof/Laws/PerInstr.lean ====
section
/-! SUPPORT. Decoding gives back every encoded instruction, constructor by constructor. -/

namespace Sys2Proof.Laws.Roundtrip

set_option Elab.async false

/-- The word of the instruction decodes to it. -/
def Statement (i : Instr) : Prop := ∀ w : Nat, wf i = true → encode i = some w → decode w = .ok i ∧ w < 2 ^ 32

theorem stepHas {i : Instr} (h : encode i = none) : Statement i := by
  intro w _ he; rw [h] at he; cases he

theorem fin_eq {n : Nat} [NeZero n] {x : Nat} {r : Fin n} (h : x % n = r.val) : Fin.ofNat n x = r := Fin.ext h

theorem bv_eq {n : Nat} {x : Nat} {b : BitVec n} (h : x % 2 ^ n = b.toNat) : BitVec.ofNat n x = b := by
  apply BitVec.eq_of_toNat_eq; rw [BitVec.toNat_ofNat]; exact h

theorem bitAt_eq {w i : Nat} {b : Bool} (h : w / 2 ^ i % 2 = b.toNat) : bitAt w i = b := by
  unfold bitAt; rw [h]; cases b <;> rfl

theorem condOf_code (c : Cond) : condOf (condCode c) = c := by cases c <;> rfl
theorem condCode_lt (c : Cond) : condCode c < 8 := by cases c <;> decide
theorem scopeOf_code (c : Scope) : scopeOf (scopeCode c) = some c := by cases c <;> rfl
theorem scopeCode_lt (c : Scope) : scopeCode c < 8 := by cases c <;> decide
theorem xorderOf_code (c : XOrder) : xorderOf (xorderCode c) = some c := by cases c <;> rfl
theorem xorderCode_lt (c : XOrder) : xorderCode c < 4 := by cases c <;> decide
theorem lorderOf_code (c : LOrder) : lorderOf (lorderCode c) = some c := by cases c <;> rfl
theorem lorderCode_lt (c : LOrder) : lorderCode c < 4 := by cases c <;> decide
theorem widthOf_code (c : Width) : widthOf (widthCode c) = some c := by cases c <;> rfl
theorem widthCode_lt (c : Width) : widthCode c < 8 := by cases c <;> decide

theorem vsrcOf_vec {w : Nat} {r : Fin 32} {fe : Bool} (h : w / 2 ^ 11 % 32 = r.val) (h10 : w / 2 ^ 10 % 2 = 0) (h3 : w / 2 ^ 3 % 2 = fe.toNat) :
    vsrcOf w = some (.vec r fe) := by
  unfold vsrcOf
  rw [bitAt_eq (b := false) h10, bitAt_eq h3, fin_eq h]; rfl

theorem vsrcOf_sca {w : Nat} {r : Fin 32} (h : w / 2 ^ 11 % 32 = r.val) (h10 : w / 2 ^ 10 % 2 = 1) (h3 : w / 2 ^ 3 % 2 = 0) :
    vsrcOf w = some (.sca r) := by
  unfold vsrcOf
  rw [bitAt_eq (b := true) h10, bitAt_eq (b := false) h3, fin_eq h]; rfl

theorem decode_major {w : Nat} (h : w / 2 ^ 26 ≠ 0) : decode w = decodeMajor w := by
  unfold decode; rw [if_neg]; rintro rfl; exact h rfl

theorem accept_ok {α : Type} {zero hint : Bool} {f : Option α} {ok : α → Bool} {mk : α → Instr} {x : α}
    (hz : zero = true) (hh : hint = true) (hf : f = some x) (ho : ok x = true) : accept zero hint f ok mk = .ok (mk x) := by
  subst hz hh hf; simp only [accept, ho, if_true]

theorem hint_ok {w : Nat} {h : Fin 8} (e : w % 8 = h.val) (k : hintWf h = true) : hintOk w = true := by
  unfold hintOk; rw [e]; exact k

theorem hintVld_ok {w : Nat} {h : Fin 8} (e : w % 8 = h.val) (k : hintWfVld h = true) : hintOkVld w = true := by
  unfold hintOkVld; rw [e]; exact k

/-! What the word of each form holds. -/

theorem A3_bits {w m fn : Nat} (hm : m < 64) (hn : fn < 256) {f : A3} (h : w = m * 2 ^ 26 + fn * 2 ^ 3 + writeA3 f) :
    w < 2 ^ 32 ∧ w / 2 ^ 26 = m ∧ w / 2 ^ 3 % 256 = fn ∧ w % 8 = f.hint.val ∧ readA3 w = f := by
  obtain ⟨sd, sa, sb, hint⟩ := f
  simp only [writeA3] at h
  have := sd.isLt
  have := sa.isLt
  have := sb.isLt
  have := hint.isLt
  refine ⟨by omega, by omega, by omega, (by show w % 8 = hint.val; omega), ?_⟩
  unfold readA3
  rw [fin_eq (by omega : w / 2 ^ 21 % 32 = sd.val), fin_eq (by omega : w / 2 ^ 16 % 32 = sa.val), fin_eq (by omega : w / 2 ^ 11 % 32 = sb.val), fin_eq (by omega : w % 8 = hint.val)]

theorem A2_bits {w m fn : Nat} (hm : m < 64) (hn : fn < 256) {f : A2} (h : w = m * 2 ^ 26 + fn * 2 ^ 3 + writeA2 f) :
    w < 2 ^ 32 ∧ w / 2 ^ 26 = m ∧ w / 2 ^ 3 % 256 = fn ∧ w / 2 ^ 11 % 32 = 0 ∧ w % 8 = f.hint.val ∧ readA2 w = f := by
  obtain ⟨sd, sa, hint⟩ := f
  simp only [writeA2] at h
  have := sd.isLt
  have := sa.isLt
  have := hint.isLt
  refine ⟨by omega, by omega, by omega, by omega, (by show w % 8 = hint.val; omega), ?_⟩
  unfold readA2
  rw [fin_eq (by omega : w / 2 ^ 21 % 32 = sd.val), fin_eq (by omega : w / 2 ^ 16 % 32 = sa.val), fin_eq (by omega : w % 8 = hint.val)]

theorem IForm_bits {w m : Nat} (hm : m < 64) {f : IForm} (h : w = m * 2 ^ 26 + writeIForm f) :
    w < 2 ^ 32 ∧ w / 2 ^ 26 = m ∧ readIForm w = f := by
  obtain ⟨sd, sa, imm⟩ := f
  simp only [writeIForm] at h
  have := sd.isLt
  have := sa.isLt
  have := imm.isLt
  refine ⟨by omega, by omega, ?_⟩
  unfold readIForm
  rw [fin_eq (by omega : w / 2 ^ 21 % 32 = sd.val), fin_eq (by omega : w / 2 ^ 16 % 32 = sa.val), bv_eq (by omega : w % 2 ^ 16 = imm.toNat)]

theorem LuiForm_bits {w m : Nat} (hm : m < 64) {f : LuiForm} (h : w = m * 2 ^ 26 + writeLuiForm f) :
    w < 2 ^ 32 ∧ w / 2 ^ 26 = m ∧ w / 2 ^ 16 % 32 = 0 ∧ readLuiForm w = f := by
  obtain ⟨sd, imm⟩ := f
  simp only [writeLuiForm] at h
  have := sd.isLt
  have := imm.isLt
  refine ⟨by omega, by omega, by omega, ?_⟩
  unfold readLuiForm
  rw [fin_eq (by omega : w / 2 ^ 21 % 32 = sd.val), bv_eq (by omega : w % 2 ^ 16 = imm.toNat)]

theorem ShForm_bits {w m fn : Nat} (hm : m < 64) (hn : fn < 4) {f : ShForm} (h : w = m * 2 ^ 26 + fn * 2 ^ 14 + writeShForm f) :
    w < 2 ^ 32 ∧ w / 2 ^ 26 = m ∧ w / 2 ^ 14 % 4 = fn ∧ w % 256 = 0 ∧ readShForm w = f := by
  obtain ⟨sd, sa, shamt⟩ := f
  simp only [writeShForm] at h
  have := sd.isLt
  have := sa.isLt
  have := shamt.isLt
  refine ⟨by omega, by omega, by omega, by omega, ?_⟩
  unfold readShForm
  rw [fin_eq (by omega : w / 2 ^ 21 % 32 = sd.val), fin_eq (by omega : w / 2 ^ 16 % 32 = sa.val), fin_eq (by omega : w / 2 ^ 8 % 64 = shamt.val)]

theorem LForm_bits {w m : Nat} (hm : m < 64) {f : LForm} (h : w = m * 2 ^ 26 + writeLForm f) :
    w < 2 ^ 32 ∧ w / 2 ^ 26 = m ∧ readLForm w = some f := by
  obtain ⟨r, sa, width, order, off⟩ := f
  simp only [writeLForm] at h
  have := r.isLt
  have := sa.isLt
  have := widthCode_lt width
  have := lorderCode_lt order
  have := off.isLt
  refine ⟨by omega, by omega, ?_⟩
  unfold readLForm
  rw [fin_eq (by omega : w / 2 ^ 21 % 32 = r.val), fin_eq (by omega : w / 2 ^ 16 % 32 = sa.val), (by omega : w / 2 ^ 13 % 8 = widthCode width), widthOf_code, (by omega : w / 2 ^ 11 % 4 = lorderCode order), lorderOf_code, bv_eq (by omega : w % 2 ^ 11 = off.toNat)]
  rfl

theorem BForm_bits {w m : Nat} (hm : m < 64) {f : BForm} (h : w = m * 2 ^ 26 + writeBForm f) :
    w < 2 ^ 32 ∧ w / 2 ^ 26 = m ∧ readBForm w = f := by
  obtain ⟨sa, sb, cond, off⟩ := f
  simp only [writeBForm] at h
  have := sa.isLt
  have := sb.isLt
  have := condCode_lt cond
  have := off.isLt
  refine ⟨by omega, by omega, ?_⟩
  unfold readBForm
  rw [fin_eq (by omega : w / 2 ^ 21 % 32 = sa.val), fin_eq (by omega : w / 2 ^ 16 % 32 = sb.val), (by omega : w / 2 ^ 13 % 8 = condCode cond), condOf_code, bv_eq (by omega : w % 2 ^ 13 = off.toNat)]

theorem JForm_bits {w m : Nat} (hm : m < 64) {f : JForm} (h : w = m * 2 ^ 26 + writeJForm f) :
    w < 2 ^ 32 ∧ w / 2 ^ 26 = m ∧ readJForm w = f := by
  obtain ⟨off⟩ := f
  simp only [writeJForm] at h
  have := off.isLt
  refine ⟨by omega, by omega, ?_⟩
  unfold readJForm
  rw [bv_eq (by omega : w % 2 ^ 26 = off.toNat)]

theorem PForm_bits {w m : Nat} (hm : m < 64) {f : PForm} (h : w = m * 2 ^ 26 + writePForm f) :
    w < 2 ^ 32 ∧ w / 2 ^ 26 = m ∧ readPForm w = f := by
  obtain ⟨sn, pg, pmask, off⟩ := f
  simp only [writePForm] at h
  have := sn.isLt
  have := pg.isLt
  have := pmask.isLt
  have := off.isLt
  refine ⟨by omega, by omega, ?_⟩
  unfold readPForm
  rw [fin_eq (by omega : w / 2 ^ 21 % 32 = sn.val), fin_eq (by omega : w / 2 ^ 18 % 8 = pg.val), bv_eq (by omega : w / 2 ^ 14 % 2 ^ 4 = pmask.toNat), bv_eq (by omega : w % 2 ^ 14 = off.toNat)]

theorem CRForm_bits {w m fn : Nat} (hm : m < 64) (hn : fn < 4) {f : CRForm} (h : w = m * 2 ^ 26 + fn * 2 ^ 14 + writeCRForm f) :
    w < 2 ^ 32 ∧ w / 2 ^ 26 = m ∧ w / 2 ^ 14 % 4 = fn ∧ w / 2 ^ 12 % 4 = 0 ∧ w / 2 ^ 16 % 32 = 0 ∧ readCRForm w = f := by
  obtain ⟨sd, csr⟩ := f
  simp only [writeCRForm] at h
  have := sd.isLt
  have := csr.isLt
  refine ⟨by omega, by omega, by omega, by omega, by omega, ?_⟩
  unfold readCRForm
  rw [fin_eq (by omega : w / 2 ^ 21 % 32 = sd.val), bv_eq (by omega : w % 2 ^ 12 = csr.toNat)]

theorem CForm_bits {w m fn : Nat} (hm : m < 64) (hn : fn < 4) {f : CForm} (h : w = m * 2 ^ 26 + fn * 2 ^ 14 + writeCForm f) :
    w < 2 ^ 32 ∧ w / 2 ^ 26 = m ∧ w / 2 ^ 14 % 4 = fn ∧ w / 2 ^ 12 % 4 = 0 ∧ readCForm w = f := by
  obtain ⟨sd, sa, csr⟩ := f
  simp only [writeCForm] at h
  have := sd.isLt
  have := sa.isLt
  have := csr.isLt
  refine ⟨by omega, by omega, by omega, by omega, ?_⟩
  unfold readCForm
  rw [fin_eq (by omega : w / 2 ^ 21 % 32 = sd.val), fin_eq (by omega : w / 2 ^ 16 % 32 = sa.val), bv_eq (by omega : w % 2 ^ 12 = csr.toNat)]

theorem XForm_bits {w m fn : Nat} (hm : m < 64) (hn : fn < 8) {f : XForm} (h : w = m * 2 ^ 26 + fn * 2 ^ 8 + writeXForm f) :
    w < 2 ^ 32 ∧ w / 2 ^ 26 = m ∧ w / 2 ^ 8 % 8 = fn ∧ w % 8 = f.hint.val ∧ readXForm w = some f := by
  obtain ⟨sd, sa, sb, scope, order, hint⟩ := f
  simp only [writeXForm] at h
  have := sd.isLt
  have := sa.isLt
  have := sb.isLt
  have := scopeCode_lt scope
  have := xorderCode_lt order
  have := hint.isLt
  refine ⟨by omega, by omega, by omega, (by show w % 8 = hint.val; omega), ?_⟩
  unfold readXForm
  rw [fin_eq (by omega : w / 2 ^ 21 % 32 = sd.val), fin_eq (by omega : w / 2 ^ 16 % 32 = sa.val), fin_eq (by omega : w / 2 ^ 11 % 32 = sb.val), (by omega : w / 2 ^ 5 % 8 = scopeCode scope), scopeOf_code, (by omega : w / 2 ^ 3 % 4 = xorderCode order), xorderOf_code, fin_eq (by omega : w % 8 = hint.val)]
  rfl

theorem A1_bits {w m fn : Nat} (hm : m < 64) (hn : fn < 256) {f : A1} (h : w = m * 2 ^ 26 + fn * 2 ^ 3 + writeA1 f) :
    w < 2 ^ 32 ∧ w / 2 ^ 26 = m ∧ w / 2 ^ 3 % 256 = fn ∧ w / 2 ^ 11 % 32 = 0 ∧ w / 2 ^ 21 % 32 = 0 ∧ w % 8 = f.hint.val ∧ readA1 w = f := by
  obtain ⟨sa, hint⟩ := f
  simp only [writeA1] at h
  have := sa.isLt
  have := hint.isLt
  refine ⟨by omega, by omega, by omega, by omega, by omega, (by show w % 8 = hint.val; omega), ?_⟩
  unfold readA1
  rw [fin_eq (by omega : w / 2 ^ 16 % 32 = sa.val), fin_eq (by omega : w % 8 = hint.val)]

theorem A0_bits {w m fn : Nat} (hm : m < 64) (hn : fn < 256) {f : A0} (h : w = m * 2 ^ 26 + fn * 2 ^ 3 + writeA0 f) :
    w < 2 ^ 32 ∧ w / 2 ^ 26 = m ∧ w / 2 ^ 3 % 256 = fn ∧ w / 2 ^ 11 % 32768 = 0 ∧ w % 8 = f.hint.val ∧ readA0 w = f := by
  obtain ⟨hint⟩ := f
  simp only [writeA0] at h
  have := hint.isLt
  refine ⟨by omega, by omega, by omega, by omega, (by show w % 8 = hint.val; omega), ?_⟩
  unfold readA0
  rw [fin_eq (by omega : w % 8 = hint.val)]

theorem QualForm_bits {w m fn : Nat} (hm : m < 64) (hn : fn < 256) {f : QualForm} (h : w = m * 2 ^ 26 + fn * 2 ^ 3 + writeQualForm f) :
    w < 2 ^ 32 ∧ w / 2 ^ 26 = m ∧ w / 2 ^ 3 % 256 = fn ∧ w / 2 ^ 16 % 1024 = 0 ∧ w % 8 = f.hint.val ∧ readQualForm w = some f := by
  obtain ⟨scope, v, e, hint⟩ := f
  simp only [writeQualForm] at h
  have := scopeCode_lt scope
  have := Bool.toNat_le v
  have := Bool.toNat_le e
  have := hint.isLt
  refine ⟨by omega, by omega, by omega, by omega, (by show w % 8 = hint.val; omega), ?_⟩
  unfold readQualForm
  rw [(by omega : w / 2 ^ 13 % 8 = scopeCode scope), scopeOf_code, bitAt_eq (by omega : w / 2 ^ 12 % 2 = v.toNat), bitAt_eq (by omega : w / 2 ^ 11 % 2 = e.toNat), fin_eq (by omega : w % 8 = hint.val)]
  rfl

theorem AD_bits {w m fn : Nat} (hm : m < 64) (hn : fn < 256) {f : AD} (h : w = m * 2 ^ 26 + fn * 2 ^ 3 + writeAD f) :
    w < 2 ^ 32 ∧ w / 2 ^ 26 = m ∧ w / 2 ^ 3 % 256 = fn ∧ w / 2 ^ 11 % 1024 = 0 ∧ w % 8 = f.hint.val ∧ readAD w = f := by
  obtain ⟨sd, hint⟩ := f
  simp only [writeAD] at h
  have := sd.isLt
  have := hint.isLt
  refine ⟨by omega, by omega, by omega, by omega, (by show w % 8 = hint.val; omega), ?_⟩
  unfold readAD
  rw [fin_eq (by omega : w / 2 ^ 21 % 32 = sd.val), fin_eq (by omega : w % 8 = hint.val)]

theorem QualA_bits {w m fn : Nat} (hm : m < 64) (hn : fn < 256) {f : QualA} (h : w = m * 2 ^ 26 + fn * 2 ^ 3 + writeQualA f) :
    w < 2 ^ 32 ∧ w / 2 ^ 26 = m ∧ w / 2 ^ 3 % 256 = fn ∧ w / 2 ^ 21 % 32 = 0 ∧ w % 8 = f.hint.val ∧ readQualA w = some f := by
  obtain ⟨sa, scope, v, e, hint⟩ := f
  simp only [writeQualA] at h
  have := sa.isLt
  have := scopeCode_lt scope
  have := Bool.toNat_le v
  have := Bool.toNat_le e
  have := hint.isLt
  refine ⟨by omega, by omega, by omega, by omega, (by show w % 8 = hint.val; omega), ?_⟩
  unfold readQualA
  rw [fin_eq (by omega : w / 2 ^ 16 % 32 = sa.val), (by omega : w / 2 ^ 13 % 8 = scopeCode scope), scopeOf_code, bitAt_eq (by omega : w / 2 ^ 12 % 2 = v.toNat), bitAt_eq (by omega : w / 2 ^ 11 % 2 = e.toNat), fin_eq (by omega : w % 8 = hint.val)]
  rfl

theorem AB_bits {w m fn : Nat} (hm : m < 64) (hn : fn < 256) {f : AB} (h : w = m * 2 ^ 26 + fn * 2 ^ 3 + writeAB f) :
    w < 2 ^ 32 ∧ w / 2 ^ 26 = m ∧ w / 2 ^ 3 % 256 = fn ∧ w / 2 ^ 21 % 32 = 0 ∧ w % 8 = f.hint.val ∧ readAB w = f := by
  obtain ⟨sa, sb, hint⟩ := f
  simp only [writeAB] at h
  have := sa.isLt
  have := sb.isLt
  have := hint.isLt
  refine ⟨by omega, by omega, by omega, by omega, (by show w % 8 = hint.val; omega), ?_⟩
  unfold readAB
  rw [fin_eq (by omega : w / 2 ^ 16 % 32 = sa.val), fin_eq (by omega : w / 2 ^ 11 % 32 = sb.val), fin_eq (by omega : w % 8 = hint.val)]

theorem DrInitForm_bits {w m fn : Nat} (hm : m < 64) (hn : fn < 256) {f : DrInitForm} (h : w = m * 2 ^ 26 + fn * 2 ^ 3 + writeDrInitForm f) :
    w < 2 ^ 32 ∧ w / 2 ^ 26 = m ∧ w / 2 ^ 3 % 256 = fn ∧ w / 2 ^ 24 % 4 = 0 ∧ w % 8 = f.hint.val ∧ readDrInitForm w = f := by
  obtain ⟨ring, sa, sb, hint⟩ := f
  simp only [writeDrInitForm] at h
  have := ring.isLt
  have := sa.isLt
  have := sb.isLt
  have := hint.isLt
  refine ⟨by omega, by omega, by omega, by omega, (by show w % 8 = hint.val; omega), ?_⟩
  unfold readDrInitForm
  rw [fin_eq (by omega : w / 2 ^ 21 % 8 = ring.val), fin_eq (by omega : w / 2 ^ 16 % 32 = sa.val), fin_eq (by omega : w / 2 ^ 11 % 32 = sb.val), fin_eq (by omega : w % 8 = hint.val)]

theorem DrWaitForm_bits {w m fn : Nat} (hm : m < 64) (hn : fn < 256) {f : DrWaitForm} (h : w = m * 2 ^ 26 + fn * 2 ^ 3 + writeDrWaitForm f) :
    w < 2 ^ 32 ∧ w / 2 ^ 26 = m ∧ w / 2 ^ 3 % 256 = fn ∧ w / 2 ^ 11 % 32 = 0 ∧ w / 2 ^ 19 % 4 = 0 ∧ w % 8 = f.hint.val ∧ readDrWaitForm w = f := by
  obtain ⟨sd, ring, hint⟩ := f
  simp only [writeDrWaitForm] at h
  have := sd.isLt
  have := ring.isLt
  have := hint.isLt
  refine ⟨by omega, by omega, by omega, by omega, by omega, (by show w % 8 = hint.val; omega), ?_⟩
  unfold readDrWaitForm
  rw [fin_eq (by omega : w / 2 ^ 21 % 32 = sd.val), fin_eq (by omega : w / 2 ^ 16 % 8 = ring.val), fin_eq (by omega : w % 8 = hint.val)]

theorem DrRelForm_bits {w m fn : Nat} (hm : m < 64) (hn : fn < 256) {f : DrRelForm} (h : w = m * 2 ^ 26 + fn * 2 ^ 3 + writeDrRelForm f) :
    w < 2 ^ 32 ∧ w / 2 ^ 26 = m ∧ w / 2 ^ 3 % 256 = fn ∧ w / 2 ^ 11 % 32 = 0 ∧ w / 2 ^ 19 % 128 = 0 ∧ w % 8 = f.hint.val ∧ readDrRelForm w = f := by
  obtain ⟨ring, hint⟩ := f
  simp only [writeDrRelForm] at h
  have := ring.isLt
  have := hint.isLt
  refine ⟨by omega, by omega, by omega, by omega, by omega, (by show w % 8 = hint.val; omega), ?_⟩
  unfold readDrRelForm
  rw [fin_eq (by omega : w / 2 ^ 16 % 8 = ring.val), fin_eq (by omega : w % 8 = hint.val)]

theorem BarwForm_bits {w m fn : Nat} (hm : m < 64) (hn : fn < 256) {f : BarwForm} (h : w = m * 2 ^ 26 + fn * 2 ^ 3 + writeBarwForm f) :
    w < 2 ^ 32 ∧ w / 2 ^ 26 = m ∧ w / 2 ^ 3 % 256 = fn ∧ w / 2 ^ 15 % 2 = 0 ∧ w / 2 ^ 21 % 32 = 0 ∧ w % 8 = f.hint.val ∧ readBarwForm w = f := by
  obtain ⟨sa, bar, hint⟩ := f
  simp only [writeBarwForm] at h
  have := sa.isLt
  have := bar.isLt
  have := hint.isLt
  refine ⟨by omega, by omega, by omega, by omega, by omega, (by show w % 8 = hint.val; omega), ?_⟩
  unfold readBarwForm
  rw [fin_eq (by omega : w / 2 ^ 16 % 32 = sa.val), fin_eq (by omega : w / 2 ^ 11 % 16 = bar.val), fin_eq (by omega : w % 8 = hint.val)]

theorem BaraForm_bits {w m fn : Nat} (hm : m < 64) (hn : fn < 256) {f : BaraForm} (h : w = m * 2 ^ 26 + fn * 2 ^ 3 + writeBaraForm f) :
    w < 2 ^ 32 ∧ w / 2 ^ 26 = m ∧ w / 2 ^ 3 % 256 = fn ∧ w / 2 ^ 15 % 2 = 0 ∧ w % 8 = f.hint.val ∧ readBaraForm w = f := by
  obtain ⟨sd, sa, bar, hint⟩ := f
  simp only [writeBaraForm] at h
  have := sd.isLt
  have := sa.isLt
  have := bar.isLt
  have := hint.isLt
  refine ⟨by omega, by omega, by omega, by omega, (by show w % 8 = hint.val; omega), ?_⟩
  unfold readBaraForm
  rw [fin_eq (by omega : w / 2 ^ 21 % 32 = sd.val), fin_eq (by omega : w / 2 ^ 16 % 32 = sa.val), fin_eq (by omega : w / 2 ^ 11 % 16 = bar.val), fin_eq (by omega : w % 8 = hint.val)]

theorem TForm_bits {w m fn : Nat} (hm : m < 64) (hn : fn < 32) {f : TForm} (h : w = m * 2 ^ 26 + fn * 2 ^ 6 + writeTForm f) :
    w < 2 ^ 32 ∧ w / 2 ^ 26 = m ∧ w / 2 ^ 6 % 32 = fn ∧ readTForm w = f := by
  obtain ⟨sd, sa, sb, tag⟩ := f
  simp only [writeTForm] at h
  have := sd.isLt
  have := sa.isLt
  have := sb.isLt
  have := tag.isLt
  refine ⟨by omega, by omega, by omega, ?_⟩
  unfold readTForm
  rw [fin_eq (by omega : w / 2 ^ 21 % 32 = sd.val), fin_eq (by omega : w / 2 ^ 16 % 32 = sa.val), fin_eq (by omega : w / 2 ^ 11 % 32 = sb.val), fin_eq (by omega : w % 64 = tag.val)]

theorem ADB_bits {w m fn : Nat} (hm : m < 64) (hn : fn < 256) {f : ADB} (h : w = m * 2 ^ 26 + fn * 2 ^ 3 + writeADB f) :
    w < 2 ^ 32 ∧ w / 2 ^ 26 = m ∧ w / 2 ^ 3 % 256 = fn ∧ w / 2 ^ 16 % 32 = 0 ∧ w % 8 = f.hint.val ∧ readADB w = f := by
  obtain ⟨sd, sb, hint⟩ := f
  simp only [writeADB] at h
  have := sd.isLt
  have := sb.isLt
  have := hint.isLt
  refine ⟨by omega, by omega, by omega, by omega, (by show w % 8 = hint.val; omega), ?_⟩
  unfold readADB
  rw [fin_eq (by omega : w / 2 ^ 21 % 32 = sd.val), fin_eq (by omega : w / 2 ^ 11 % 32 = sb.val), fin_eq (by omega : w % 8 = hint.val)]

theorem EForm_bits {w m : Nat} (hm : m < 64) {f : EForm} (h : w = m * 2 ^ 26 + writeEForm f) :
    w < 2 ^ 32 ∧ w / 2 ^ 26 = m ∧ readEForm w = f := by
  obtain ⟨n⟩ := f
  simp only [writeEForm] at h
  have := n.isLt
  refine ⟨by omega, by omega, ?_⟩
  unfold readEForm
  rw [bv_eq (by omega : w % 2 ^ 26 = n.toNat)]

theorem VB_bits {w m fn : Nat} (hm : m < 64) (hn : fn < 16) {f : VB} (h : w = m * 2 ^ 26 + fn * 2 ^ 6 + writeVB f) :
    w < 2 ^ 32 ∧ w / 2 ^ 26 = m ∧ w / 2 ^ 6 % 16 = fn ∧ w % 8 = f.hint.val ∧ readVB w = some f := by
  obtain ⟨vd, va, (⟨r, fe⟩ | r), x, feA, hint⟩ := f
  · simp only [writeVB, vsrcCode] at h
    have := vd.isLt
    have := va.isLt
    have := Bool.toNat_le x
    have := Bool.toNat_le feA
    have := hint.isLt
    have := r.isLt
    have := Bool.toNat_le fe
    refine ⟨by omega, by omega, by omega, (by show w % 8 = hint.val; omega), ?_⟩
    unfold readVB
    rw [vsrcOf_vec (by omega : w / 2 ^ 11 % 32 = r.val) (by omega : w / 2 ^ 10 % 2 = 0) (by omega : w / 2 ^ 3 % 2 = fe.toNat), fin_eq (by omega : w / 2 ^ 21 % 32 = vd.val), fin_eq (by omega : w / 2 ^ 16 % 32 = va.val), bitAt_eq (by omega : w / 2 ^ 5 % 2 = x.toNat), bitAt_eq (by omega : w / 2 ^ 4 % 2 = feA.toNat), fin_eq (by omega : w % 8 = hint.val)]
    rfl
  · simp only [writeVB, vsrcCode] at h
    have := vd.isLt
    have := va.isLt
    have := Bool.toNat_le x
    have := Bool.toNat_le feA
    have := hint.isLt
    have := r.isLt
    refine ⟨by omega, by omega, by omega, (by show w % 8 = hint.val; omega), ?_⟩
    unfold readVB
    rw [vsrcOf_sca (by omega : w / 2 ^ 11 % 32 = r.val) (by omega : w / 2 ^ 10 % 2 = 1) (by omega : w / 2 ^ 3 % 2 = 0), fin_eq (by omega : w / 2 ^ 21 % 32 = vd.val), fin_eq (by omega : w / 2 ^ 16 % 32 = va.val), bitAt_eq (by omega : w / 2 ^ 5 % 2 = x.toNat), bitAt_eq (by omega : w / 2 ^ 4 % 2 = feA.toNat), fin_eq (by omega : w % 8 = hint.val)]
    rfl

theorem VZForm_bits {w m fn : Nat} (hm : m < 64) (hn : fn < 16) {f : VZForm} (h : w = m * 2 ^ 26 + fn * 2 ^ 6 + writeVZForm f) :
    w < 2 ^ 32 ∧ w / 2 ^ 26 = m ∧ w / 2 ^ 6 % 16 = fn ∧ w / 2 ^ 3 % 2 = 0 ∧ w / 2 ^ 10 % 2 = 0 ∧ w / 2 ^ 15 % 2 = 0 ∧ w % 8 = f.hint.val ∧ readVZForm w = f := by
  obtain ⟨vd, va, ent, x, feA, hint⟩ := f
  simp only [writeVZForm] at h
  have := vd.isLt
  have := va.isLt
  have := ent.isLt
  have := Bool.toNat_le x
  have := Bool.toNat_le feA
  have := hint.isLt
  refine ⟨by omega, by omega, by omega, by omega, by omega, by omega, (by show w % 8 = hint.val; omega), ?_⟩
  unfold readVZForm
  rw [fin_eq (by omega : w / 2 ^ 21 % 32 = vd.val), fin_eq (by omega : w / 2 ^ 16 % 32 = va.val), fin_eq (by omega : w / 2 ^ 11 % 16 = ent.val), bitAt_eq (by omega : w / 2 ^ 5 % 2 = x.toNat), bitAt_eq (by omega : w / 2 ^ 4 % 2 = feA.toNat), fin_eq (by omega : w % 8 = hint.val)]

theorem VUX_bits {w m fn : Nat} (hm : m < 64) (hn : fn < 16) {f : VUX} (h : w = m * 2 ^ 26 + fn * 2 ^ 6 + writeVUX f) :
    w < 2 ^ 32 ∧ w / 2 ^ 26 = m ∧ w / 2 ^ 6 % 16 = fn ∧ w / 2 ^ 3 % 2 = 0 ∧ w / 2 ^ 10 % 64 = 0 ∧ w % 8 = f.hint.val ∧ readVUX w = f := by
  obtain ⟨vd, va, x, feA, hint⟩ := f
  simp only [writeVUX] at h
  have := vd.isLt
  have := va.isLt
  have := Bool.toNat_le x
  have := Bool.toNat_le feA
  have := hint.isLt
  refine ⟨by omega, by omega, by omega, by omega, by omega, (by show w % 8 = hint.val; omega), ?_⟩
  unfold readVUX
  rw [fin_eq (by omega : w / 2 ^ 21 % 32 = vd.val), fin_eq (by omega : w / 2 ^ 16 % 32 = va.val), bitAt_eq (by omega : w / 2 ^ 5 % 2 = x.toNat), bitAt_eq (by omega : w / 2 ^ 4 % 2 = feA.toNat), fin_eq (by omega : w % 8 = hint.val)]

theorem VCmpForm_bits {w m fn : Nat} (hm : m < 64) (hn : fn < 16) {f : VCmpForm} (h : w = m * 2 ^ 26 + fn * 2 ^ 6 + writeVCmpForm f) :
    w < 2 ^ 32 ∧ w / 2 ^ 26 = m ∧ w / 2 ^ 6 % 16 = fn ∧ w / 2 ^ 5 % 2 = 0 ∧ w / 2 ^ 24 % 4 = 0 ∧ w % 8 = f.hint.val ∧ readVCmpForm w = some f := by
  obtain ⟨md, va, (⟨r, fe⟩ | r), feA, hint⟩ := f
  · simp only [writeVCmpForm, vsrcCode] at h
    have := md.isLt
    have := va.isLt
    have := Bool.toNat_le feA
    have := hint.isLt
    have := r.isLt
    have := Bool.toNat_le fe
    refine ⟨by omega, by omega, by omega, by omega, by omega, (by show w % 8 = hint.val; omega), ?_⟩
    unfold readVCmpForm
    rw [vsrcOf_vec (by omega : w / 2 ^ 11 % 32 = r.val) (by omega : w / 2 ^ 10 % 2 = 0) (by omega : w / 2 ^ 3 % 2 = fe.toNat), fin_eq (by omega : w / 2 ^ 21 % 8 = md.val), fin_eq (by omega : w / 2 ^ 16 % 32 = va.val), bitAt_eq (by omega : w / 2 ^ 4 % 2 = feA.toNat), fin_eq (by omega : w % 8 = hint.val)]
    rfl
  · simp only [writeVCmpForm, vsrcCode] at h
    have := md.isLt
    have := va.isLt
    have := Bool.toNat_le feA
    have := hint.isLt
    have := r.isLt
    refine ⟨by omega, by omega, by omega, by omega, by omega, (by show w % 8 = hint.val; omega), ?_⟩
    unfold readVCmpForm
    rw [vsrcOf_sca (by omega : w / 2 ^ 11 % 32 = r.val) (by omega : w / 2 ^ 10 % 2 = 1) (by omega : w / 2 ^ 3 % 2 = 0), fin_eq (by omega : w / 2 ^ 21 % 8 = md.val), fin_eq (by omega : w / 2 ^ 16 % 32 = va.val), bitAt_eq (by omega : w / 2 ^ 4 % 2 = feA.toNat), fin_eq (by omega : w % 8 = hint.val)]
    rfl

theorem M3_bits {w m fn : Nat} (hm : m < 64) (hn : fn < 16) {f : M3} (h : w = m * 2 ^ 26 + fn * 2 ^ 6 + writeM3 f) :
    w < 2 ^ 32 ∧ w / 2 ^ 26 = m ∧ w / 2 ^ 6 % 16 = fn ∧ w / 2 ^ 5 % 2 = 0 ∧ w / 2 ^ 10 % 2 = 0 ∧ w / 2 ^ 14 % 4 = 0 ∧ w / 2 ^ 19 % 4 = 0 ∧ w / 2 ^ 24 % 4 = 0 ∧ w % 8 = f.hint.val ∧ readM3 w = f := by
  obtain ⟨md, ma, mb, feA, feB, hint⟩ := f
  simp only [writeM3] at h
  have := md.isLt
  have := ma.isLt
  have := mb.isLt
  have := Bool.toNat_le feA
  have := Bool.toNat_le feB
  have := hint.isLt
  refine ⟨by omega, by omega, by omega, by omega, by omega, by omega, by omega, by omega, (by show w % 8 = hint.val; omega), ?_⟩
  unfold readM3
  rw [fin_eq (by omega : w / 2 ^ 21 % 8 = md.val), fin_eq (by omega : w / 2 ^ 16 % 8 = ma.val), fin_eq (by omega : w / 2 ^ 11 % 8 = mb.val), bitAt_eq (by omega : w / 2 ^ 4 % 2 = feA.toNat), bitAt_eq (by omega : w / 2 ^ 3 % 2 = feB.toNat), fin_eq (by omega : w % 8 = hint.val)]

theorem M2_bits {w m fn : Nat} (hm : m < 64) (hn : fn < 16) {f : M2} (h : w = m * 2 ^ 26 + fn * 2 ^ 6 + writeM2 f) :
    w < 2 ^ 32 ∧ w / 2 ^ 26 = m ∧ w / 2 ^ 6 % 16 = fn ∧ w / 2 ^ 3 % 2 = 0 ∧ w / 2 ^ 5 % 2 = 0 ∧ w / 2 ^ 10 % 64 = 0 ∧ w / 2 ^ 19 % 4 = 0 ∧ w / 2 ^ 24 % 4 = 0 ∧ w % 8 = f.hint.val ∧ readM2 w = f := by
  obtain ⟨md, ma, feA, hint⟩ := f
  simp only [writeM2] at h
  have := md.isLt
  have := ma.isLt
  have := Bool.toNat_le feA
  have := hint.isLt
  refine ⟨by omega, by omega, by omega, by omega, by omega, by omega, by omega, by omega, (by show w % 8 = hint.val; omega), ?_⟩
  unfold readM2
  rw [fin_eq (by omega : w / 2 ^ 21 % 8 = md.val), fin_eq (by omega : w / 2 ^ 16 % 8 = ma.val), bitAt_eq (by omega : w / 2 ^ 4 % 2 = feA.toNat), fin_eq (by omega : w % 8 = hint.val)]

theorem MS_bits {w m fn : Nat} (hm : m < 64) (hn : fn < 16) {f : MS} (h : w = m * 2 ^ 26 + fn * 2 ^ 6 + writeMS f) :
    w < 2 ^ 32 ∧ w / 2 ^ 26 = m ∧ w / 2 ^ 6 % 16 = fn ∧ w / 2 ^ 3 % 2 = 0 ∧ w / 2 ^ 5 % 2 = 0 ∧ w / 2 ^ 10 % 64 = 0 ∧ w / 2 ^ 19 % 4 = 0 ∧ w % 8 = f.hint.val ∧ readMS w = f := by
  obtain ⟨sd, ma, feA, hint⟩ := f
  simp only [writeMS] at h
  have := sd.isLt
  have := ma.isLt
  have := Bool.toNat_le feA
  have := hint.isLt
  refine ⟨by omega, by omega, by omega, by omega, by omega, by omega, by omega, (by show w % 8 = hint.val; omega), ?_⟩
  unfold readMS
  rw [fin_eq (by omega : w / 2 ^ 21 % 32 = sd.val), fin_eq (by omega : w / 2 ^ 16 % 8 = ma.val), bitAt_eq (by omega : w / 2 ^ 4 % 2 = feA.toNat), fin_eq (by omega : w % 8 = hint.val)]

theorem VS_bits {w m fn : Nat} (hm : m < 64) (hn : fn < 16) {f : VS} (h : w = m * 2 ^ 26 + fn * 2 ^ 6 + 1024 + writeVS f) :
    w < 2 ^ 32 ∧ w / 2 ^ 26 = m ∧ w / 2 ^ 6 % 16 = fn ∧ w / 2 ^ 3 % 2 = 0 ∧ w / 2 ^ 5 % 2 = 0 ∧ w / 2 ^ 10 % 2 = 1 ∧ w % 8 = f.hint.val ∧ readVS w = f := by
  obtain ⟨vd, va, sb, feA, hint⟩ := f
  simp only [writeVS] at h
  have := vd.isLt
  have := va.isLt
  have := sb.isLt
  have := Bool.toNat_le feA
  have := hint.isLt
  refine ⟨by omega, by omega, by omega, by omega, by omega, by omega, (by show w % 8 = hint.val; omega), ?_⟩
  unfold readVS
  rw [fin_eq (by omega : w / 2 ^ 21 % 32 = vd.val), fin_eq (by omega : w / 2 ^ 16 % 32 = va.val), fin_eq (by omega : w / 2 ^ 11 % 32 = sb.val), bitAt_eq (by omega : w / 2 ^ 4 % 2 = feA.toNat), fin_eq (by omega : w % 8 = hint.val)]

theorem VU_bits {w m fn : Nat} (hm : m < 64) (hn : fn < 16) {f : VU} (h : w = m * 2 ^ 26 + fn * 2 ^ 6 + writeVU f) :
    w < 2 ^ 32 ∧ w / 2 ^ 26 = m ∧ w / 2 ^ 6 % 16 = fn ∧ w / 2 ^ 3 % 2 = 0 ∧ w / 2 ^ 5 % 2 = 0 ∧ w / 2 ^ 10 % 64 = 0 ∧ w % 8 = f.hint.val ∧ readVU w = f := by
  obtain ⟨vd, va, feA, hint⟩ := f
  simp only [writeVU] at h
  have := vd.isLt
  have := va.isLt
  have := Bool.toNat_le feA
  have := hint.isLt
  refine ⟨by omega, by omega, by omega, by omega, by omega, by omega, (by show w % 8 = hint.val; omega), ?_⟩
  unfold readVU
  rw [fin_eq (by omega : w / 2 ^ 21 % 32 = vd.val), fin_eq (by omega : w / 2 ^ 16 % 32 = va.val), bitAt_eq (by omega : w / 2 ^ 4 % 2 = feA.toNat), fin_eq (by omega : w % 8 = hint.val)]

theorem VBrdForm_bits {w m fn : Nat} (hm : m < 64) (hn : fn < 16) {f : VBrdForm} (h : w = m * 2 ^ 26 + fn * 2 ^ 6 + 1024 + writeVBrdForm f) :
    w < 2 ^ 32 ∧ w / 2 ^ 26 = m ∧ w / 2 ^ 6 % 16 = fn ∧ w / 2 ^ 3 % 8 = 0 ∧ w / 2 ^ 10 % 2 = 1 ∧ w / 2 ^ 16 % 32 = 0 ∧ w % 8 = f.hint.val ∧ readVBrdForm w = f := by
  obtain ⟨vd, sb, hint⟩ := f
  simp only [writeVBrdForm] at h
  have := vd.isLt
  have := sb.isLt
  have := hint.isLt
  refine ⟨by omega, by omega, by omega, by omega, by omega, by omega, (by show w % 8 = hint.val; omega), ?_⟩
  unfold readVBrdForm
  rw [fin_eq (by omega : w / 2 ^ 21 % 32 = vd.val), fin_eq (by omega : w / 2 ^ 11 % 32 = sb.val), fin_eq (by omega : w % 8 = hint.val)]

theorem VD_bits {w m fn : Nat} (hm : m < 64) (hn : fn < 16) {f : VD} (h : w = m * 2 ^ 26 + fn * 2 ^ 6 + writeVD f) :
    w < 2 ^ 32 ∧ w / 2 ^ 26 = m ∧ w / 2 ^ 6 % 16 = fn ∧ w / 2 ^ 3 % 8 = 0 ∧ w / 2 ^ 10 % 2048 = 0 ∧ w % 8 = f.hint.val ∧ readVD w = f := by
  obtain ⟨vd, hint⟩ := f
  simp only [writeVD] at h
  have := vd.isLt
  have := hint.isLt
  refine ⟨by omega, by omega, by omega, by omega, by omega, (by show w % 8 = hint.val; omega), ?_⟩
  unfold readVD
  rw [fin_eq (by omega : w / 2 ^ 21 % 32 = vd.val), fin_eq (by omega : w % 8 = hint.val)]

theorem VV_bits {w m fn : Nat} (hm : m < 64) (hn : fn < 16) {f : VV} (h : w = m * 2 ^ 26 + fn * 2 ^ 6 + writeVV f) :
    w < 2 ^ 32 ∧ w / 2 ^ 26 = m ∧ w / 2 ^ 6 % 16 = fn ∧ w / 2 ^ 5 % 2 = 0 ∧ w / 2 ^ 10 % 2 = 0 ∧ w % 8 = f.hint.val ∧ readVV w = f := by
  obtain ⟨vd, va, vb, feA, feB, hint⟩ := f
  simp only [writeVV] at h
  have := vd.isLt
  have := va.isLt
  have := vb.isLt
  have := Bool.toNat_le feA
  have := Bool.toNat_le feB
  have := hint.isLt
  refine ⟨by omega, by omega, by omega, by omega, by omega, (by show w % 8 = hint.val; omega), ?_⟩
  unfold readVV
  rw [fin_eq (by omega : w / 2 ^ 21 % 32 = vd.val), fin_eq (by omega : w / 2 ^ 16 % 32 = va.val), fin_eq (by omega : w / 2 ^ 11 % 32 = vb.val), bitAt_eq (by omega : w / 2 ^ 4 % 2 = feA.toNat), bitAt_eq (by omega : w / 2 ^ 3 % 2 = feB.toNat), fin_eq (by omega : w % 8 = hint.val)]

theorem VU_bits2 {w m fn : Nat} (hm : m < 64) (hn : fn < 16) {f : VU} (h : w = m * 2 ^ 26 + fn * 2 ^ 6 + 1024 + writeVU f) :
    w < 2 ^ 32 ∧ w / 2 ^ 26 = m ∧ w / 2 ^ 6 % 16 = fn ∧ w / 2 ^ 3 % 2 = 0 ∧ w / 2 ^ 5 % 2 = 0 ∧ w / 2 ^ 10 % 64 = 1 ∧ w % 8 = f.hint.val ∧ readVU w = f := by
  obtain ⟨vd, va, feA, hint⟩ := f
  simp only [writeVU] at h
  have := vd.isLt
  have := va.isLt
  have := Bool.toNat_le feA
  have := hint.isLt
  refine ⟨by omega, by omega, by omega, by omega, by omega, by omega, (by show w % 8 = hint.val; omega), ?_⟩
  unfold readVU
  rw [fin_eq (by omega : w / 2 ^ 21 % 32 = vd.val), fin_eq (by omega : w / 2 ^ 16 % 32 = va.val), bitAt_eq (by omega : w / 2 ^ 4 % 2 = feA.toNat), fin_eq (by omega : w % 8 = hint.val)]

theorem VIdxForm_bits {w m : Nat} (hm : m < 64) {f : VIdxForm} (h : w = m * 2 ^ 26 + writeVIdxForm f) :
    w < 2 ^ 32 ∧ w / 2 ^ 26 = m ∧ w % 8 = f.hint.val ∧ readVIdxForm w = f := by
  obtain ⟨vd, si, vb, fn, x, feA, feB, hint⟩ := f
  simp only [writeVIdxForm] at h
  have := vd.isLt
  have := si.isLt
  have := vb.isLt
  have := fn.isLt
  have := Bool.toNat_le x
  have := Bool.toNat_le feA
  have := Bool.toNat_le feB
  have := hint.isLt
  refine ⟨by omega, by omega, (by show w % 8 = hint.val; omega), ?_⟩
  unfold readVIdxForm
  rw [fin_eq (by omega : w / 2 ^ 21 % 32 = vd.val), fin_eq (by omega : w / 2 ^ 16 % 32 = si.val), fin_eq (by omega : w / 2 ^ 11 % 32 = vb.val), fin_eq (by omega : w / 2 ^ 6 % 32 = fn.val), bitAt_eq (by omega : w / 2 ^ 5 % 2 = x.toNat), bitAt_eq (by omega : w / 2 ^ 4 % 2 = feA.toNat), bitAt_eq (by omega : w / 2 ^ 3 % 2 = feB.toNat), fin_eq (by omega : w % 8 = hint.val)]

theorem VCvtForm_bits {w m fn : Nat} (hm : m < 64) (hn : fn < 16) {f : VCvtForm} (h : w = m * 2 ^ 26 + fn * 2 ^ 6 + writeVCvtForm f) :
    w < 2 ^ 32 ∧ w / 2 ^ 26 = m ∧ w / 2 ^ 6 % 16 = fn ∧ w / 2 ^ 3 % 2 = 0 ∧ w / 2 ^ 15 % 2 = 0 ∧ w % 8 = f.hint.val ∧ readVCvtForm w = f := by
  obtain ⟨vd, va, ent, sat, x, feA, hint⟩ := f
  simp only [writeVCvtForm] at h
  have := vd.isLt
  have := va.isLt
  have := ent.isLt
  have := Bool.toNat_le sat
  have := Bool.toNat_le x
  have := Bool.toNat_le feA
  have := hint.isLt
  refine ⟨by omega, by omega, by omega, by omega, by omega, (by show w % 8 = hint.val; omega), ?_⟩
  unfold readVCvtForm
  rw [fin_eq (by omega : w / 2 ^ 21 % 32 = vd.val), fin_eq (by omega : w / 2 ^ 16 % 32 = va.val), fin_eq (by omega : w / 2 ^ 11 % 16 = ent.val), bitAt_eq (by omega : w / 2 ^ 10 % 2 = sat.toNat), bitAt_eq (by omega : w / 2 ^ 5 % 2 = x.toNat), bitAt_eq (by omega : w / 2 ^ 4 % 2 = feA.toNat), fin_eq (by omega : w % 8 = hint.val)]

theorem VQForm_bits {w m fn : Nat} (hm : m < 64) (hn : fn < 16) {f : VQForm} (h : w = m * 2 ^ 26 + fn * 2 ^ 6 + writeVQForm f) :
    w < 2 ^ 32 ∧ w / 2 ^ 26 = m ∧ w / 2 ^ 6 % 16 = fn ∧ w % 8 = f.hint.val ∧ readVQForm w = f := by
  obtain ⟨vd, va, vb, sat, x, feA, feB, hint⟩ := f
  simp only [writeVQForm] at h
  have := vd.isLt
  have := va.isLt
  have := vb.isLt
  have := Bool.toNat_le sat
  have := Bool.toNat_le x
  have := Bool.toNat_le feA
  have := Bool.toNat_le feB
  have := hint.isLt
  refine ⟨by omega, by omega, by omega, (by show w % 8 = hint.val; omega), ?_⟩
  unfold readVQForm
  rw [fin_eq (by omega : w / 2 ^ 21 % 32 = vd.val), fin_eq (by omega : w / 2 ^ 16 % 32 = va.val), fin_eq (by omega : w / 2 ^ 11 % 32 = vb.val), bitAt_eq (by omega : w / 2 ^ 10 % 2 = sat.toNat), bitAt_eq (by omega : w / 2 ^ 5 % 2 = x.toNat), bitAt_eq (by omega : w / 2 ^ 4 % 2 = feA.toNat), bitAt_eq (by omega : w / 2 ^ 3 % 2 = feB.toNat), fin_eq (by omega : w % 8 = hint.val)]

theorem VDQForm_bits {w m fn : Nat} (hm : m < 64) (hn : fn < 16) {f : VDQForm} (h : w = m * 2 ^ 26 + fn * 2 ^ 6 + writeVDQForm f) :
    w < 2 ^ 32 ∧ w / 2 ^ 26 = m ∧ w / 2 ^ 6 % 16 = fn ∧ w / 2 ^ 10 % 2 = 0 ∧ w % 8 = f.hint.val ∧ readVDQForm w = f := by
  obtain ⟨vd, va, vb, x, feA, feB, hint⟩ := f
  simp only [writeVDQForm] at h
  have := vd.isLt
  have := va.isLt
  have := vb.isLt
  have := Bool.toNat_le x
  have := Bool.toNat_le feA
  have := Bool.toNat_le feB
  have := hint.isLt
  refine ⟨by omega, by omega, by omega, by omega, (by show w % 8 = hint.val; omega), ?_⟩
  unfold readVDQForm
  rw [fin_eq (by omega : w / 2 ^ 21 % 32 = vd.val), fin_eq (by omega : w / 2 ^ 16 % 32 = va.val), fin_eq (by omega : w / 2 ^ 11 % 32 = vb.val), bitAt_eq (by omega : w / 2 ^ 5 % 2 = x.toNat), bitAt_eq (by omega : w / 2 ^ 4 % 2 = feA.toNat), bitAt_eq (by omega : w / 2 ^ 3 % 2 = feB.toNat), fin_eq (by omega : w % 8 = hint.val)]

theorem VA1_bits {w m fn : Nat} (hm : m < 64) (hn : fn < 16) {f : VA1} (h : w = m * 2 ^ 26 + fn * 2 ^ 6 + writeVA1 f) :
    w < 2 ^ 32 ∧ w / 2 ^ 26 = m ∧ w / 2 ^ 6 % 16 = fn ∧ w / 2 ^ 3 % 2 = 0 ∧ w / 2 ^ 5 % 2 = 0 ∧ w / 2 ^ 10 % 64 = 0 ∧ w / 2 ^ 21 % 32 = 0 ∧ w % 8 = f.hint.val ∧ readVA1 w = f := by
  obtain ⟨va, feA, hint⟩ := f
  simp only [writeVA1] at h
  have := va.isLt
  have := Bool.toNat_le feA
  have := hint.isLt
  refine ⟨by omega, by omega, by omega, by omega, by omega, by omega, by omega, (by show w % 8 = hint.val; omega), ?_⟩
  unfold readVA1
  rw [fin_eq (by omega : w / 2 ^ 16 % 32 = va.val), bitAt_eq (by omega : w / 2 ^ 4 % 2 = feA.toNat), fin_eq (by omega : w % 8 = hint.val)]

theorem VSclForm_bits {w m fn : Nat} (hm : m < 64) (hn : fn < 16) {f : VSclForm} (h : w = m * 2 ^ 26 + fn * 2 ^ 6 + writeVSclForm f) :
    w < 2 ^ 32 ∧ w / 2 ^ 26 = m ∧ w / 2 ^ 6 % 16 = fn ∧ w / 2 ^ 3 % 8 = 0 ∧ w / 2 ^ 10 % 2 = 0 ∧ w / 2 ^ 15 % 2 = 0 ∧ w / 2 ^ 20 % 2 = 0 ∧ w % 8 = f.hint.val ∧ readVSclForm w = f := by
  obtain ⟨sd, n, ent, hint⟩ := f
  simp only [writeVSclForm] at h
  have := sd.isLt
  have := n.isLt
  have := ent.isLt
  have := hint.isLt
  refine ⟨by omega, by omega, by omega, by omega, by omega, by omega, by omega, (by show w % 8 = hint.val; omega), ?_⟩
  unfold readVSclForm
  rw [fin_eq (by omega : w / 2 ^ 21 % 32 = sd.val), fin_eq (by omega : w / 2 ^ 16 % 16 = n.val), fin_eq (by omega : w / 2 ^ 11 % 16 = ent.val), fin_eq (by omega : w % 8 = hint.val)]

theorem VPkForm_bits {w m fn : Nat} (hm : m < 64) (hn : fn < 16) {f : VPkForm} (h : w = m * 2 ^ 26 + fn * 2 ^ 6 + writeVPkForm f) :
    w < 2 ^ 32 ∧ w / 2 ^ 26 = m ∧ w / 2 ^ 6 % 16 = fn ∧ w / 2 ^ 3 % 2 = 0 ∧ w / 2 ^ 5 % 2 = 0 ∧ w / 2 ^ 10 % 2 = 0 ∧ w / 2 ^ 15 % 2 = 0 ∧ w % 8 = f.hint.val ∧ readVPkForm w = f := by
  obtain ⟨vd, va, ent, feA, hint⟩ := f
  simp only [writeVPkForm] at h
  have := vd.isLt
  have := va.isLt
  have := ent.isLt
  have := Bool.toNat_le feA
  have := hint.isLt
  refine ⟨by omega, by omega, by omega, by omega, by omega, by omega, by omega, (by show w % 8 = hint.val; omega), ?_⟩
  unfold readVPkForm
  rw [fin_eq (by omega : w / 2 ^ 21 % 32 = vd.val), fin_eq (by omega : w / 2 ^ 16 % 32 = va.val), fin_eq (by omega : w / 2 ^ 11 % 16 = ent.val), bitAt_eq (by omega : w / 2 ^ 4 % 2 = feA.toNat), fin_eq (by omega : w % 8 = hint.val)]

theorem VLdForm_bits {w m fn : Nat} (hm : m < 64) (hn : fn < 64) {f : VLdForm} (h : w = m * 2 ^ 26 + fn * 2 ^ 11 + writeVLdForm f) :
    w < 2 ^ 32 ∧ w / 2 ^ 26 = m ∧ w / 2 ^ 11 % 64 = fn ∧ w / 2 ^ 3 % 256 = 0 ∧ w % 8 = f.hint.val ∧ readVLdForm w = f := by
  obtain ⟨vd, q, hint⟩ := f
  simp only [writeVLdForm] at h
  have := vd.isLt
  have := q.isLt
  have := hint.isLt
  refine ⟨by omega, by omega, by omega, by omega, (by show w % 8 = hint.val; omega), ?_⟩
  unfold readVLdForm
  rw [fin_eq (by omega : w / 2 ^ 21 % 32 = vd.val), fin_eq (by omega : w / 2 ^ 17 % 16 = q.val), fin_eq (by omega : w % 8 = hint.val)]

theorem VLdbForm_bits {w m fn : Nat} (hm : m < 64) (hn : fn < 64) {f : VLdbForm} (h : w = m * 2 ^ 26 + fn * 2 ^ 11 + writeVLdbForm f) :
    w < 2 ^ 32 ∧ w / 2 ^ 26 = m ∧ w / 2 ^ 11 % 64 = fn ∧ w / 2 ^ 3 % 4 = 0 ∧ w / 2 ^ 8 % 8 = 0 ∧ w % 8 = f.hint.val ∧ readVLdbForm w = f := by
  obtain ⟨vd, q, off, hint⟩ := f
  simp only [writeVLdbForm] at h
  have := vd.isLt
  have := q.isLt
  have := off.isLt
  have := hint.isLt
  refine ⟨by omega, by omega, by omega, by omega, by omega, (by show w % 8 = hint.val; omega), ?_⟩
  unfold readVLdbForm
  rw [fin_eq (by omega : w / 2 ^ 21 % 32 = vd.val), fin_eq (by omega : w / 2 ^ 17 % 16 = q.val), fin_eq (by omega : w / 2 ^ 5 % 8 = off.val), fin_eq (by omega : w % 8 = hint.val)]

theorem VSegForm_bits {w m fn : Nat} (hm : m < 64) (hn : fn < 64) {f : VSegForm} (h : w = m * 2 ^ 26 + fn * 2 ^ 11 + writeVSegForm f) :
    w < 2 ^ 32 ∧ w / 2 ^ 26 = m ∧ w / 2 ^ 11 % 64 = fn ∧ w / 2 ^ 3 % 4 = 0 ∧ w % 8 = f.hint.val ∧ readVSegForm w = f := by
  obtain ⟨vd, q, nf, fw, sx, hint⟩ := f
  simp only [writeVSegForm] at h
  have := vd.isLt
  have := q.isLt
  have := nf.isLt
  have := fw.isLt
  have := Bool.toNat_le sx
  have := hint.isLt
  refine ⟨by omega, by omega, by omega, by omega, (by show w % 8 = hint.val; omega), ?_⟩
  unfold readVSegForm
  rw [fin_eq (by omega : w / 2 ^ 21 % 32 = vd.val), fin_eq (by omega : w / 2 ^ 17 % 16 = q.val), fin_eq (by omega : w / 2 ^ 5 % 8 = nf.val), fin_eq (by omega : w / 2 ^ 8 % 4 = fw.val), bitAt_eq (by omega : w / 2 ^ 10 % 2 = sx.toNat), fin_eq (by omega : w % 8 = hint.val)]

theorem VStForm_bits {w m fn : Nat} (hm : m < 64) (hn : fn < 64) {f : VStForm} (h : w = m * 2 ^ 26 + fn * 2 ^ 11 + writeVStForm f) :
    w < 2 ^ 32 ∧ w / 2 ^ 26 = m ∧ w / 2 ^ 11 % 64 = fn ∧ w / 2 ^ 3 % 2 = 0 ∧ w / 2 ^ 5 % 64 = 0 ∧ w % 8 = f.hint.val ∧ readVStForm w = f := by
  obtain ⟨vs, q, fe, hint⟩ := f
  simp only [writeVStForm] at h
  have := vs.isLt
  have := q.isLt
  have := Bool.toNat_le fe
  have := hint.isLt
  refine ⟨by omega, by omega, by omega, by omega, by omega, (by show w % 8 = hint.val; omega), ?_⟩
  unfold readVStForm
  rw [fin_eq (by omega : w / 2 ^ 21 % 32 = vs.val), fin_eq (by omega : w / 2 ^ 17 % 16 = q.val), bitAt_eq (by omega : w / 2 ^ 4 % 2 = fe.toNat), fin_eq (by omega : w % 8 = hint.val)]

theorem VStSegForm_bits {w m fn : Nat} (hm : m < 64) (hn : fn < 64) {f : VStSegForm} (h : w = m * 2 ^ 26 + fn * 2 ^ 11 + writeVStSegForm f) :
    w < 2 ^ 32 ∧ w / 2 ^ 26 = m ∧ w / 2 ^ 11 % 64 = fn ∧ w / 2 ^ 3 % 2 = 0 ∧ w % 8 = f.hint.val ∧ readVStSegForm w = f := by
  obtain ⟨vs, q, nf, fw, sx, fe, hint⟩ := f
  simp only [writeVStSegForm] at h
  have := vs.isLt
  have := q.isLt
  have := nf.isLt
  have := fw.isLt
  have := Bool.toNat_le sx
  have := Bool.toNat_le fe
  have := hint.isLt
  refine ⟨by omega, by omega, by omega, by omega, (by show w % 8 = hint.val; omega), ?_⟩
  unfold readVStSegForm
  rw [fin_eq (by omega : w / 2 ^ 21 % 32 = vs.val), fin_eq (by omega : w / 2 ^ 17 % 16 = q.val), fin_eq (by omega : w / 2 ^ 5 % 8 = nf.val), fin_eq (by omega : w / 2 ^ 8 % 4 = fw.val), bitAt_eq (by omega : w / 2 ^ 10 % 2 = sx.toNat), bitAt_eq (by omega : w / 2 ^ 4 % 2 = fe.toNat), fin_eq (by omega : w % 8 = hint.val)]

theorem QAForm_bits {w m fn : Nat} (hm : m < 64) (hn : fn < 256) {f : QAForm} (h : w = m * 2 ^ 26 + fn * 2 ^ 3 + writeQAForm f) :
    w < 2 ^ 32 ∧ w / 2 ^ 26 = m ∧ w / 2 ^ 3 % 256 = fn ∧ w / 2 ^ 11 % 32 = 0 ∧ w / 2 ^ 25 % 2 = 0 ∧ w % 8 = f.hint.val ∧ readQAForm w = f := by
  obtain ⟨q, sa, hint⟩ := f
  simp only [writeQAForm] at h
  have := q.isLt
  have := sa.isLt
  have := hint.isLt
  refine ⟨by omega, by omega, by omega, by omega, by omega, (by show w % 8 = hint.val; omega), ?_⟩
  unfold readQAForm
  rw [fin_eq (by omega : w / 2 ^ 21 % 16 = q.val), fin_eq (by omega : w / 2 ^ 16 % 32 = sa.val), fin_eq (by omega : w % 8 = hint.val)]

theorem QForm_bits {w m fn : Nat} (hm : m < 64) (hn : fn < 256) {f : QForm} (h : w = m * 2 ^ 26 + fn * 2 ^ 3 + writeQForm f) :
    w < 2 ^ 32 ∧ w / 2 ^ 26 = m ∧ w / 2 ^ 3 % 256 = fn ∧ w / 2 ^ 11 % 1024 = 0 ∧ w / 2 ^ 25 % 2 = 0 ∧ w % 8 = f.hint.val ∧ readQForm w = f := by
  obtain ⟨q, hint⟩ := f
  simp only [writeQForm] at h
  have := q.isLt
  have := hint.isLt
  refine ⟨by omega, by omega, by omega, by omega, by omega, (by show w % 8 = hint.val; omega), ?_⟩
  unfold readQForm
  rw [fin_eq (by omega : w / 2 ^ 21 % 16 = q.val), fin_eq (by omega : w % 8 = hint.val)]

theorem QDForm_bits {w m fn : Nat} (hm : m < 64) (hn : fn < 256) {f : QDForm} (h : w = m * 2 ^ 26 + fn * 2 ^ 3 + writeQDForm f) :
    w < 2 ^ 32 ∧ w / 2 ^ 26 = m ∧ w / 2 ^ 3 % 256 = fn ∧ w / 2 ^ 11 % 32 = 0 ∧ w / 2 ^ 20 % 2 = 0 ∧ w % 8 = f.hint.val ∧ readQDForm w = f := by
  obtain ⟨sd, q, hint⟩ := f
  simp only [writeQDForm] at h
  have := sd.isLt
  have := q.isLt
  have := hint.isLt
  refine ⟨by omega, by omega, by omega, by omega, by omega, (by show w % 8 = hint.val; omega), ?_⟩
  unfold readQDForm
  rw [fin_eq (by omega : w / 2 ^ 21 % 32 = sd.val), fin_eq (by omega : w / 2 ^ 16 % 16 = q.val), fin_eq (by omega : w % 8 = hint.val)]

theorem MClaimForm_bits {w m fn : Nat} (hm : m < 64) (hn : fn < 16) {f : MClaimForm} (h : w = m * 2 ^ 26 + fn * 2 ^ 8 + writeMClaimForm f) :
    w < 2 ^ 32 ∧ w / 2 ^ 26 = m ∧ w / 2 ^ 8 % 16 = fn ∧ w / 2 ^ 3 % 32 = 0 ∧ w / 2 ^ 13 % 16 = 0 ∧ w / 2 ^ 22 % 16 = 0 ∧ w % 8 = f.hint.val ∧ readMClaimForm w = f := by
  obtain ⟨slot, dbl, hint⟩ := f
  simp only [writeMClaimForm] at h
  have := slot.isLt
  have := Bool.toNat_le dbl
  have := hint.isLt
  refine ⟨by omega, by omega, by omega, by omega, by omega, by omega, (by show w % 8 = hint.val; omega), ?_⟩
  unfold readMClaimForm
  rw [fin_eq (by omega : w / 2 ^ 17 % 32 = slot.val), bitAt_eq (by omega : w / 2 ^ 12 % 2 = dbl.toNat), fin_eq (by omega : w % 8 = hint.val)]

theorem MRelForm_bits {w m fn : Nat} (hm : m < 64) (hn : fn < 16) {f : MRelForm} (h : w = m * 2 ^ 26 + fn * 2 ^ 8 + writeMRelForm f) :
    w < 2 ^ 32 ∧ w / 2 ^ 26 = m ∧ w / 2 ^ 8 % 16 = fn ∧ w / 2 ^ 3 % 32 = 0 ∧ w / 2 ^ 12 % 32 = 0 ∧ w / 2 ^ 22 % 16 = 0 ∧ w % 8 = f.hint.val ∧ readMRelForm w = f := by
  obtain ⟨slot, hint⟩ := f
  simp only [writeMRelForm] at h
  have := slot.isLt
  have := hint.isLt
  refine ⟨by omega, by omega, by omega, by omega, by omega, by omega, (by show w % 8 = hint.val; omega), ?_⟩
  unfold readMRelForm
  rw [fin_eq (by omega : w / 2 ^ 17 % 32 = slot.val), fin_eq (by omega : w % 8 = hint.val)]

theorem MmaForm_bits {w m fn : Nat} (hm : m < 64) (hn : fn < 16) {f : MmaForm} (h : w = m * 2 ^ 26 + fn * 2 ^ 8 + writeMmaForm f) :
    w < 2 ^ 32 ∧ w / 2 ^ 26 = m ∧ w / 2 ^ 8 % 16 = fn ∧ w / 2 ^ 3 % 16 = 0 ∧ w % 8 = f.hint.val ∧ readMmaForm w = f := by
  obtain ⟨acc, slotA, slotB, p, hint⟩ := f
  simp only [writeMmaForm] at h
  have := acc.isLt
  have := slotA.isLt
  have := slotB.isLt
  have := Bool.toNat_le p
  have := hint.isLt
  refine ⟨by omega, by omega, by omega, by omega, (by show w % 8 = hint.val; omega), ?_⟩
  unfold readMmaForm
  rw [fin_eq (by omega : w / 2 ^ 22 % 16 = acc.val), fin_eq (by omega : w / 2 ^ 17 % 32 = slotA.val), fin_eq (by omega : w / 2 ^ 12 % 32 = slotB.val), bitAt_eq (by omega : w / 2 ^ 7 % 2 = p.toNat), fin_eq (by omega : w % 8 = hint.val)]

theorem MmaForm_bits2 {w m fn : Nat} (hm : m < 64) (hn : fn < 16) {f : MmaForm} (h : w = m * 2 ^ 26 + fn * 2 ^ 8 + 8 + writeMmaForm f) :
    w < 2 ^ 32 ∧ w / 2 ^ 26 = m ∧ w / 2 ^ 8 % 16 = fn ∧ w / 2 ^ 3 % 16 = 1 ∧ w % 8 = f.hint.val ∧ readMmaForm w = f := by
  obtain ⟨acc, slotA, slotB, p, hint⟩ := f
  simp only [writeMmaForm] at h
  have := acc.isLt
  have := slotA.isLt
  have := slotB.isLt
  have := Bool.toNat_le p
  have := hint.isLt
  refine ⟨by omega, by omega, by omega, by omega, (by show w % 8 = hint.val; omega), ?_⟩
  unfold readMmaForm
  rw [fin_eq (by omega : w / 2 ^ 22 % 16 = acc.val), fin_eq (by omega : w / 2 ^ 17 % 32 = slotA.val), fin_eq (by omega : w / 2 ^ 12 % 32 = slotB.val), bitAt_eq (by omega : w / 2 ^ 7 % 2 = p.toNat), fin_eq (by omega : w % 8 = hint.val)]

theorem MPromForm_bits {w m fn : Nat} (hm : m < 64) (hn : fn < 16) {f : MPromForm} (h : w = m * 2 ^ 26 + fn * 2 ^ 8 + writeMPromForm f) :
    w < 2 ^ 32 ∧ w / 2 ^ 26 = m ∧ w / 2 ^ 8 % 16 = fn ∧ w / 2 ^ 3 % 32 = 0 ∧ w % 8 = f.hint.val ∧ readMPromForm w = f := by
  obtain ⟨acc, slotA, slotB, hint⟩ := f
  simp only [writeMPromForm] at h
  have := acc.isLt
  have := slotA.isLt
  have := slotB.isLt
  have := hint.isLt
  refine ⟨by omega, by omega, by omega, by omega, (by show w % 8 = hint.val; omega), ?_⟩
  unfold readMPromForm
  rw [fin_eq (by omega : w / 2 ^ 22 % 16 = acc.val), fin_eq (by omega : w / 2 ^ 17 % 32 = slotA.val), fin_eq (by omega : w / 2 ^ 12 % 32 = slotB.val), fin_eq (by omega : w % 8 = hint.val)]

theorem MZeroForm_bits {w m fn : Nat} (hm : m < 64) (hn : fn < 16) {f : MZeroForm} (h : w = m * 2 ^ 26 + fn * 2 ^ 8 + writeMZeroForm f) :
    w < 2 ^ 32 ∧ w / 2 ^ 26 = m ∧ w / 2 ^ 8 % 16 = fn ∧ w / 2 ^ 3 % 32 = 0 ∧ w / 2 ^ 12 % 1024 = 0 ∧ w % 8 = f.hint.val ∧ readMZeroForm w = f := by
  obtain ⟨acc, hint⟩ := f
  simp only [writeMZeroForm] at h
  have := acc.isLt
  have := hint.isLt
  refine ⟨by omega, by omega, by omega, by omega, by omega, (by show w % 8 = hint.val; omega), ?_⟩
  unfold readMZeroForm
  rw [fin_eq (by omega : w / 2 ^ 22 % 16 = acc.val), fin_eq (by omega : w % 8 = hint.val)]

theorem MAccRdForm_bits {w m fn : Nat} (hm : m < 64) (hn : fn < 16) {f : MAccRdForm} (h : w = m * 2 ^ 26 + fn * 2 ^ 8 + writeMAccRdForm f) :
    w < 2 ^ 32 ∧ w / 2 ^ 26 = m ∧ w / 2 ^ 8 % 16 = fn ∧ w / 2 ^ 3 % 8 = 0 ∧ w / 2 ^ 7 % 2 = 0 ∧ w % 8 = f.hint.val ∧ readMAccRdForm w = f := by
  obtain ⟨acc, vd, blk, sat, hint⟩ := f
  simp only [writeMAccRdForm] at h
  have := acc.isLt
  have := vd.isLt
  have := blk.isLt
  have := Bool.toNat_le sat
  have := hint.isLt
  refine ⟨by omega, by omega, by omega, by omega, by omega, (by show w % 8 = hint.val; omega), ?_⟩
  unfold readMAccRdForm
  rw [fin_eq (by omega : w / 2 ^ 22 % 16 = acc.val), fin_eq (by omega : w / 2 ^ 17 % 32 = vd.val), fin_eq (by omega : w / 2 ^ 12 % 32 = blk.val), bitAt_eq (by omega : w / 2 ^ 6 % 2 = sat.toNat), fin_eq (by omega : w % 8 = hint.val)]

theorem MAccWrForm_bits {w m fn : Nat} (hm : m < 64) (hn : fn < 16) {f : MAccWrForm} (h : w = m * 2 ^ 26 + fn * 2 ^ 8 + writeMAccWrForm f) :
    w < 2 ^ 32 ∧ w / 2 ^ 26 = m ∧ w / 2 ^ 8 % 16 = fn ∧ w / 2 ^ 3 % 32 = 0 ∧ w % 8 = f.hint.val ∧ readMAccWrForm w = f := by
  obtain ⟨acc, vs, blk, hint⟩ := f
  simp only [writeMAccWrForm] at h
  have := acc.isLt
  have := vs.isLt
  have := blk.isLt
  have := hint.isLt
  refine ⟨by omega, by omega, by omega, by omega, (by show w % 8 = hint.val; omega), ?_⟩
  unfold readMAccWrForm
  rw [fin_eq (by omega : w / 2 ^ 22 % 16 = acc.val), fin_eq (by omega : w / 2 ^ 17 % 32 = vs.val), fin_eq (by omega : w / 2 ^ 12 % 32 = blk.val), fin_eq (by omega : w % 8 = hint.val)]

theorem MLdForm_bits {w m fn : Nat} (hm : m < 64) (hn : fn < 64) {f : MLdForm} (h : w = m * 2 ^ 26 + fn * 2 ^ 11 + writeMLdForm f) :
    w < 2 ^ 32 ∧ w / 2 ^ 26 = m ∧ w / 2 ^ 11 % 64 = fn ∧ w / 2 ^ 3 % 4 = 0 ∧ w % 8 = f.hint.val ∧ readMLdForm w = f := by
  obtain ⟨slot, q, l0, hint⟩ := f
  simp only [writeMLdForm] at h
  have := slot.isLt
  have := q.isLt
  have := l0.isLt
  have := hint.isLt
  refine ⟨by omega, by omega, by omega, by omega, (by show w % 8 = hint.val; omega), ?_⟩
  unfold readMLdForm
  rw [fin_eq (by omega : w / 2 ^ 21 % 32 = slot.val), fin_eq (by omega : w / 2 ^ 17 % 16 = q.val), fin_eq (by omega : w / 2 ^ 5 % 64 = l0.val), fin_eq (by omega : w % 8 = hint.val)]

theorem MLdsForm_bits {w m fn : Nat} (hm : m < 64) (hn : fn < 64) {f : MLdsForm} (h : w = m * 2 ^ 26 + fn * 2 ^ 11 + writeMLdsForm f) :
    w < 2 ^ 32 ∧ w / 2 ^ 26 = m ∧ w / 2 ^ 11 % 64 = fn ∧ w / 2 ^ 3 % 256 = 0 ∧ w % 8 = f.hint.val ∧ readMLdsForm w = f := by
  obtain ⟨slot, q, hint⟩ := f
  simp only [writeMLdsForm] at h
  have := slot.isLt
  have := q.isLt
  have := hint.isLt
  refine ⟨by omega, by omega, by omega, by omega, (by show w % 8 = hint.val; omega), ?_⟩
  unfold readMLdsForm
  rw [fin_eq (by omega : w / 2 ^ 21 % 32 = slot.val), fin_eq (by omega : w / 2 ^ 17 % 16 = q.val), fin_eq (by omega : w % 8 = hint.val)]

theorem FtwrForm_bits {w m fn : Nat} (hm : m < 64) (hn : fn < 256) {f : FtwrForm} (h : w = m * 2 ^ 26 + fn * 2 ^ 3 + writeFtwrForm f) :
    w < 2 ^ 32 ∧ w / 2 ^ 26 = m ∧ w / 2 ^ 3 % 256 = fn ∧ w / 2 ^ 11 % 32 = 0 ∧ w / 2 ^ 25 % 2 = 0 ∧ w % 8 = f.hint.val ∧ readFtwrForm w = f := by
  obtain ⟨n, sa, hint⟩ := f
  simp only [writeFtwrForm] at h
  have := n.isLt
  have := sa.isLt
  have := hint.isLt
  refine ⟨by omega, by omega, by omega, by omega, by omega, (by show w % 8 = hint.val; omega), ?_⟩
  unfold readFtwrForm
  rw [fin_eq (by omega : w / 2 ^ 21 % 16 = n.val), fin_eq (by omega : w / 2 ^ 16 % 32 = sa.val), fin_eq (by omega : w % 8 = hint.val)]

theorem FtrdForm_bits {w m fn : Nat} (hm : m < 64) (hn : fn < 256) {f : FtrdForm} (h : w = m * 2 ^ 26 + fn * 2 ^ 3 + writeFtrdForm f) :
    w < 2 ^ 32 ∧ w / 2 ^ 26 = m ∧ w / 2 ^ 3 % 256 = fn ∧ w / 2 ^ 11 % 32 = 0 ∧ w / 2 ^ 20 % 2 = 0 ∧ w % 8 = f.hint.val ∧ readFtrdForm w = f := by
  obtain ⟨sd, n, hint⟩ := f
  simp only [writeFtrdForm] at h
  have := sd.isLt
  have := n.isLt
  have := hint.isLt
  refine ⟨by omega, by omega, by omega, by omega, by omega, (by show w % 8 = hint.val; omega), ?_⟩
  unfold readFtrdForm
  rw [fin_eq (by omega : w / 2 ^ 21 % 32 = sd.val), fin_eq (by omega : w / 2 ^ 16 % 16 = n.val), fin_eq (by omega : w % 8 = hint.val)]

/-! The instructions. -/

theorem add (f : A3) : Statement (.add f) := by
  intro w hw he
  obtain ⟨hb, h1, h2, hh, hr⟩ := A3_bits (m := 1) (fn := 0) (by decide) (by decide) (Option.some.inj he).symm
  refine ⟨?_, hb⟩
  rw [decode_major (by rw [h1]; decide)]
  simp only [decodeMajor, h1, decodeSalu, h2]
  exact accept_ok (rfl) (hint_ok hh hw) (congrArg some hr) rfl

theorem sub (f : A3) : Statement (.sub f) := by
  intro w hw he
  obtain ⟨hb, h1, h2, hh, hr⟩ := A3_bits (m := 1) (fn := 1) (by decide) (by decide) (Option.some.inj he).symm
  refine ⟨?_, hb⟩
  rw [decode_major (by rw [h1]; decide)]
  simp only [decodeMajor, h1, decodeSalu, h2]
  exact accept_ok (rfl) (hint_ok hh hw) (congrArg some hr) rfl

theorem and (f : A3) : Statement (.and f) := by
  intro w hw he
  obtain ⟨hb, h1, h2, hh, hr⟩ := A3_bits (m := 1) (fn := 2) (by decide) (by decide) (Option.some.inj he).symm
  refine ⟨?_, hb⟩
  rw [decode_major (by rw [h1]; decide)]
  simp only [decodeMajor, h1, decodeSalu, h2]
  exact accept_ok (rfl) (hint_ok hh hw) (congrArg some hr) rfl

theorem or (f : A3) : Statement (.or f) := by
  intro w hw he
  obtain ⟨hb, h1, h2, hh, hr⟩ := A3_bits (m := 1) (fn := 3) (by decide) (by decide) (Option.some.inj he).symm
  refine ⟨?_, hb⟩
  rw [decode_major (by rw [h1]; decide)]
  simp only [decodeMajor, h1, decodeSalu, h2]
  exact accept_ok (rfl) (hint_ok hh hw) (congrArg some hr) rfl

theorem xor (f : A3) : Statement (.xor f) := by
  intro w hw he
  obtain ⟨hb, h1, h2, hh, hr⟩ := A3_bits (m := 1) (fn := 4) (by decide) (by decide) (Option.some.inj he).symm
  refine ⟨?_, hb⟩
  rw [decode_major (by rw [h1]; decide)]
  simp only [decodeMajor, h1, decodeSalu, h2]
  exact accept_ok (rfl) (hint_ok hh hw) (congrArg some hr) rfl

theorem sll (f : A3) : Statement (.sll f) := by
  intro w hw he
  obtain ⟨hb, h1, h2, hh, hr⟩ := A3_bits (m := 1) (fn := 5) (by decide) (by decide) (Option.some.inj he).symm
  refine ⟨?_, hb⟩
  rw [decode_major (by rw [h1]; decide)]
  simp only [decodeMajor, h1, decodeSalu, h2]
  exact accept_ok (rfl) (hint_ok hh hw) (congrArg some hr) rfl

theorem srl (f : A3) : Statement (.srl f) := by
  intro w hw he
  obtain ⟨hb, h1, h2, hh, hr⟩ := A3_bits (m := 1) (fn := 6) (by decide) (by decide) (Option.some.inj he).symm
  refine ⟨?_, hb⟩
  rw [decode_major (by rw [h1]; decide)]
  simp only [decodeMajor, h1, decodeSalu, h2]
  exact accept_ok (rfl) (hint_ok hh hw) (congrArg some hr) rfl

theorem sra (f : A3) : Statement (.sra f) := by
  intro w hw he
  obtain ⟨hb, h1, h2, hh, hr⟩ := A3_bits (m := 1) (fn := 7) (by decide) (by decide) (Option.some.inj he).symm
  refine ⟨?_, hb⟩
  rw [decode_major (by rw [h1]; decide)]
  simp only [decodeMajor, h1, decodeSalu, h2]
  exact accept_ok (rfl) (hint_ok hh hw) (congrArg some hr) rfl

theorem mul (f : A3) : Statement (.mul f) := by
  intro w hw he
  obtain ⟨hb, h1, h2, hh, hr⟩ := A3_bits (m := 1) (fn := 8) (by decide) (by decide) (Option.some.inj he).symm
  refine ⟨?_, hb⟩
  rw [decode_major (by rw [h1]; decide)]
  simp only [decodeMajor, h1, decodeSalu, h2]
  exact accept_ok (rfl) (hint_ok hh hw) (congrArg some hr) rfl

theorem mulh (f : A3) : Statement (.mulh f) := by
  intro w hw he
  obtain ⟨hb, h1, h2, hh, hr⟩ := A3_bits (m := 1) (fn := 9) (by decide) (by decide) (Option.some.inj he).symm
  refine ⟨?_, hb⟩
  rw [decode_major (by rw [h1]; decide)]
  simp only [decodeMajor, h1, decodeSalu, h2]
  exact accept_ok (rfl) (hint_ok hh hw) (congrArg some hr) rfl

theorem div (f : A3) : Statement (.div f) := by
  intro w hw he
  obtain ⟨hb, h1, h2, hh, hr⟩ := A3_bits (m := 1) (fn := 10) (by decide) (by decide) (Option.some.inj he).symm
  refine ⟨?_, hb⟩
  rw [decode_major (by rw [h1]; decide)]
  simp only [decodeMajor, h1, decodeSalu, h2]
  exact accept_ok (rfl) (hint_ok hh hw) (congrArg some hr) rfl

theorem divu (f : A3) : Statement (.divu f) := by
  intro w hw he
  obtain ⟨hb, h1, h2, hh, hr⟩ := A3_bits (m := 1) (fn := 11) (by decide) (by decide) (Option.some.inj he).symm
  refine ⟨?_, hb⟩
  rw [decode_major (by rw [h1]; decide)]
  simp only [decodeMajor, h1, decodeSalu, h2]
  exact accept_ok (rfl) (hint_ok hh hw) (congrArg some hr) rfl

theorem rem (f : A3) : Statement (.rem f) := by
  intro w hw he
  obtain ⟨hb, h1, h2, hh, hr⟩ := A3_bits (m := 1) (fn := 12) (by decide) (by decide) (Option.some.inj he).symm
  refine ⟨?_, hb⟩
  rw [decode_major (by rw [h1]; decide)]
  simp only [decodeMajor, h1, decodeSalu, h2]
  exact accept_ok (rfl) (hint_ok hh hw) (congrArg some hr) rfl

theorem remu (f : A3) : Statement (.remu f) := by
  intro w hw he
  obtain ⟨hb, h1, h2, hh, hr⟩ := A3_bits (m := 1) (fn := 13) (by decide) (by decide) (Option.some.inj he).symm
  refine ⟨?_, hb⟩
  rw [decode_major (by rw [h1]; decide)]
  simp only [decodeMajor, h1, decodeSalu, h2]
  exact accept_ok (rfl) (hint_ok hh hw) (congrArg some hr) rfl

theorem min (f : A3) : Statement (.min f) := by
  intro w hw he
  obtain ⟨hb, h1, h2, hh, hr⟩ := A3_bits (m := 1) (fn := 14) (by decide) (by decide) (Option.some.inj he).symm
  refine ⟨?_, hb⟩
  rw [decode_major (by rw [h1]; decide)]
  simp only [decodeMajor, h1, decodeSalu, h2]
  exact accept_ok (rfl) (hint_ok hh hw) (congrArg some hr) rfl

theorem max (f : A3) : Statement (.max f) := by
  intro w hw he
  obtain ⟨hb, h1, h2, hh, hr⟩ := A3_bits (m := 1) (fn := 15) (by decide) (by decide) (Option.some.inj he).symm
  refine ⟨?_, hb⟩
  rw [decode_major (by rw [h1]; decide)]
  simp only [decodeMajor, h1, decodeSalu, h2]
  exact accept_ok (rfl) (hint_ok hh hw) (congrArg some hr) rfl

theorem slt (f : A3) : Statement (.slt f) := by
  intro w hw he
  obtain ⟨hb, h1, h2, hh, hr⟩ := A3_bits (m := 1) (fn := 16) (by decide) (by decide) (Option.some.inj he).symm
  refine ⟨?_, hb⟩
  rw [decode_major (by rw [h1]; decide)]
  simp only [decodeMajor, h1, decodeSalu, h2]
  exact accept_ok (rfl) (hint_ok hh hw) (congrArg some hr) rfl

theorem sltu (f : A3) : Statement (.sltu f) := by
  intro w hw he
  obtain ⟨hb, h1, h2, hh, hr⟩ := A3_bits (m := 1) (fn := 17) (by decide) (by decide) (Option.some.inj he).symm
  refine ⟨?_, hb⟩
  rw [decode_major (by rw [h1]; decide)]
  simp only [decodeMajor, h1, decodeSalu, h2]
  exact accept_ok (rfl) (hint_ok hh hw) (congrArg some hr) rfl

theorem seq (f : A3) : Statement (.seq f) := by
  intro w hw he
  obtain ⟨hb, h1, h2, hh, hr⟩ := A3_bits (m := 1) (fn := 18) (by decide) (by decide) (Option.some.inj he).symm
  refine ⟨?_, hb⟩
  rw [decode_major (by rw [h1]; decide)]
  simp only [decodeMajor, h1, decodeSalu, h2]
  exact accept_ok (rfl) (hint_ok hh hw) (congrArg some hr) rfl

theorem clz (f : A2) : Statement (.clz f) := by
  intro w hw he
  obtain ⟨hb, h1, h2, z0, hh, hr⟩ := A2_bits (m := 1) (fn := 19) (by decide) (by decide) (Option.some.inj he).symm
  refine ⟨?_, hb⟩
  rw [decode_major (by rw [h1]; decide)]
  simp only [decodeMajor, h1, decodeSalu, h2]
  exact accept_ok (by simp only [z0]; rfl) (hint_ok hh hw) (congrArg some hr) rfl

theorem ctz (f : A2) : Statement (.ctz f) := by
  intro w hw he
  obtain ⟨hb, h1, h2, z0, hh, hr⟩ := A2_bits (m := 1) (fn := 20) (by decide) (by decide) (Option.some.inj he).symm
  refine ⟨?_, hb⟩
  rw [decode_major (by rw [h1]; decide)]
  simp only [decodeMajor, h1, decodeSalu, h2]
  exact accept_ok (by simp only [z0]; rfl) (hint_ok hh hw) (congrArg some hr) rfl

theorem popc (f : A2) : Statement (.popc f) := by
  intro w hw he
  obtain ⟨hb, h1, h2, z0, hh, hr⟩ := A2_bits (m := 1) (fn := 21) (by decide) (by decide) (Option.some.inj he).symm
  refine ⟨?_, hb⟩
  rw [decode_major (by rw [h1]; decide)]
  simp only [decodeMajor, h1, decodeSalu, h2]
  exact accept_ok (by simp only [z0]; rfl) (hint_ok hh hw) (congrArg some hr) rfl

theorem bext (f : A3) : Statement (.bext f) := by
  intro w hw he
  obtain ⟨hb, h1, h2, hh, hr⟩ := A3_bits (m := 1) (fn := 22) (by decide) (by decide) (Option.some.inj he).symm
  refine ⟨?_, hb⟩
  rw [decode_major (by rw [h1]; decide)]
  simp only [decodeMajor, h1, decodeSalu, h2]
  exact accept_ok (rfl) (hint_ok hh hw) (congrArg some hr) rfl

theorem bins (f : A3) : Statement (.bins f) := by
  intro w hw he
  obtain ⟨hb, h1, h2, hh, hr⟩ := A3_bits (m := 1) (fn := 23) (by decide) (by decide) (Option.some.inj he).symm
  refine ⟨?_, hb⟩
  rw [decode_major (by rw [h1]; decide)]
  simp only [decodeMajor, h1, decodeSalu, h2]
  exact accept_ok (rfl) (hint_ok hh hw) (congrArg some hr) rfl

theorem sel (f : A3) : Statement (.sel f) := by
  intro w hw he
  obtain ⟨hb, h1, h2, hh, hr⟩ := A3_bits (m := 1) (fn := 24) (by decide) (by decide) (Option.some.inj he).symm
  refine ⟨?_, hb⟩
  rw [decode_major (by rw [h1]; decide)]
  simp only [decodeMajor, h1, decodeSalu, h2]
  exact accept_ok (rfl) (hint_ok hh hw) (congrArg some hr) rfl

theorem addi (f : IForm) : Statement (.addi f) := by
  intro w hw he
  obtain ⟨hb, h1, hr⟩ := IForm_bits (m := 2) (by decide) (Option.some.inj he).symm
  refine ⟨?_, hb⟩
  rw [decode_major (by rw [h1]; decide)]
  simp only [decodeMajor, h1]
  exact accept_ok (rfl) (rfl) (congrArg some hr) rfl

theorem andi (f : IForm) : Statement (.andi f) := by
  intro w hw he
  obtain ⟨hb, h1, hr⟩ := IForm_bits (m := 3) (by decide) (Option.some.inj he).symm
  refine ⟨?_, hb⟩
  rw [decode_major (by rw [h1]; decide)]
  simp only [decodeMajor, h1]
  exact accept_ok (rfl) (rfl) (congrArg some hr) rfl

theorem ori (f : IForm) : Statement (.ori f) := by
  intro w hw he
  obtain ⟨hb, h1, hr⟩ := IForm_bits (m := 4) (by decide) (Option.some.inj he).symm
  refine ⟨?_, hb⟩
  rw [decode_major (by rw [h1]; decide)]
  simp only [decodeMajor, h1]
  exact accept_ok (rfl) (rfl) (congrArg some hr) rfl

theorem xori (f : IForm) : Statement (.xori f) := by
  intro w hw he
  obtain ⟨hb, h1, hr⟩ := IForm_bits (m := 5) (by decide) (Option.some.inj he).symm
  refine ⟨?_, hb⟩
  rw [decode_major (by rw [h1]; decide)]
  simp only [decodeMajor, h1]
  exact accept_ok (rfl) (rfl) (congrArg some hr) rfl

theorem slti (f : IForm) : Statement (.slti f) := by
  intro w hw he
  obtain ⟨hb, h1, hr⟩ := IForm_bits (m := 6) (by decide) (Option.some.inj he).symm
  refine ⟨?_, hb⟩
  rw [decode_major (by rw [h1]; decide)]
  simp only [decodeMajor, h1]
  exact accept_ok (rfl) (rfl) (congrArg some hr) rfl

theorem lui (f : LuiForm) : Statement (.lui f) := by
  intro w hw he
  obtain ⟨hb, h1, z0, hr⟩ := LuiForm_bits (m := 7) (by decide) (Option.some.inj he).symm
  refine ⟨?_, hb⟩
  rw [decode_major (by rw [h1]; decide)]
  simp only [decodeMajor, h1]
  exact accept_ok (by simp only [z0]; rfl) (rfl) (congrArg some hr) rfl

theorem slli (f : ShForm) : Statement (.slli f) := by
  intro w hw he
  obtain ⟨hb, h1, h2, z0, hr⟩ := ShForm_bits (m := 10) (fn := 0) (by decide) (by decide) (Option.some.inj he).symm
  refine ⟨?_, hb⟩
  rw [decode_major (by rw [h1]; decide)]
  simp only [decodeMajor, h1, decodeShi, h2]
  exact accept_ok (by simp only [z0]; rfl) (rfl) (congrArg some hr) rfl

theorem srli (f : ShForm) : Statement (.srli f) := by
  intro w hw he
  obtain ⟨hb, h1, h2, z0, hr⟩ := ShForm_bits (m := 10) (fn := 1) (by decide) (by decide) (Option.some.inj he).symm
  refine ⟨?_, hb⟩
  rw [decode_major (by rw [h1]; decide)]
  simp only [decodeMajor, h1, decodeShi, h2]
  exact accept_ok (by simp only [z0]; rfl) (rfl) (congrArg some hr) rfl

theorem srai (f : ShForm) : Statement (.srai f) := by
  intro w hw he
  obtain ⟨hb, h1, h2, z0, hr⟩ := ShForm_bits (m := 10) (fn := 2) (by decide) (by decide) (Option.some.inj he).symm
  refine ⟨?_, hb⟩
  rw [decode_major (by rw [h1]; decide)]
  simp only [decodeMajor, h1, decodeShi, h2]
  exact accept_ok (by simp only [z0]; rfl) (rfl) (congrArg some hr) rfl

theorem ld (f : LForm) : Statement (.ld f) := by
  intro w hw he
  obtain ⟨hb, h1, hr⟩ := LForm_bits (m := 8) (by decide) (Option.some.inj he).symm
  refine ⟨?_, hb⟩
  rw [decode_major (by rw [h1]; decide)]
  simp only [decodeMajor, h1]
  exact accept_ok (rfl) (rfl) hr rfl

theorem st (f : LForm) : Statement (.st f) := by
  intro w hw he
  obtain ⟨hb, h1, hr⟩ := LForm_bits (m := 9) (by decide) (Option.some.inj he).symm
  refine ⟨?_, hb⟩
  rw [decode_major (by rw [h1]; decide)]
  simp only [decodeMajor, h1]
  exact accept_ok (rfl) (rfl) hr hw

theorem br (f : BForm) : Statement (.br f) := by
  intro w hw he
  obtain ⟨hb, h1, hr⟩ := BForm_bits (m := 13) (by decide) (Option.some.inj he).symm
  refine ⟨?_, hb⟩
  rw [decode_major (by rw [h1]; decide)]
  simp only [decodeMajor, h1]
  exact accept_ok (rfl) (rfl) (congrArg some hr) hw

theorem jal (f : JForm) : Statement (.jal f) := by
  intro w hw he
  obtain ⟨hb, h1, hr⟩ := JForm_bits (m := 14) (by decide) (Option.some.inj he).symm
  refine ⟨?_, hb⟩
  rw [decode_major (by rw [h1]; decide)]
  simp only [decodeMajor, h1]
  exact accept_ok (rfl) (rfl) (congrArg some hr) rfl

theorem jalr (f : IForm) : Statement (.jalr f) := by
  intro w hw he
  obtain ⟨hb, h1, hr⟩ := IForm_bits (m := 15) (by decide) (Option.some.inj he).symm
  refine ⟨?_, hb⟩
  rw [decode_major (by rw [h1]; decide)]
  simp only [decodeMajor, h1]
  exact accept_ok (rfl) (rfl) (congrArg some hr) rfl

theorem strip (f : PForm) : Statement (.strip f) := by
  intro w hw he
  obtain ⟨hb, h1, hr⟩ := PForm_bits (m := 16) (by decide) (Option.some.inj he).symm
  refine ⟨?_, hb⟩
  rw [decode_major (by rw [h1]; decide)]
  simp only [decodeMajor, h1]
  exact accept_ok (rfl) (rfl) (congrArg some hr) hw

theorem csrr (f : CRForm) : Statement (.csrr f) := by
  intro w hw he
  obtain ⟨hb, h1, h2, z0, z1, hr⟩ := CRForm_bits (m := 17) (fn := 0) (by decide) (by decide) (Option.some.inj he).symm
  refine ⟨?_, hb⟩
  rw [decode_major (by rw [h1]; decide)]
  simp only [decodeMajor, h1, decodeCsr, h2]
  exact accept_ok (by simp only [z0, z1]; rfl) (rfl) (congrArg some hr) rfl

theorem csrw (f : CForm) : Statement (.csrw f) := by
  intro w hw he
  obtain ⟨hb, h1, h2, z0, hr⟩ := CForm_bits (m := 17) (fn := 1) (by decide) (by decide) (Option.some.inj he).symm
  refine ⟨?_, hb⟩
  rw [decode_major (by rw [h1]; decide)]
  simp only [decodeMajor, h1, decodeCsr, h2]
  exact accept_ok (by simp only [z0]; rfl) (rfl) (congrArg some hr) rfl

theorem csrs (f : CForm) : Statement (.csrs f) := by
  intro w hw he
  obtain ⟨hb, h1, h2, z0, hr⟩ := CForm_bits (m := 17) (fn := 2) (by decide) (by decide) (Option.some.inj he).symm
  refine ⟨?_, hb⟩
  rw [decode_major (by rw [h1]; decide)]
  simp only [decodeMajor, h1, decodeCsr, h2]
  exact accept_ok (by simp only [z0]; rfl) (rfl) (congrArg some hr) rfl

theorem csrc (f : CForm) : Statement (.csrc f) := by
  intro w hw he
  obtain ⟨hb, h1, h2, z0, hr⟩ := CForm_bits (m := 17) (fn := 3) (by decide) (by decide) (Option.some.inj he).symm
  refine ⟨?_, hb⟩
  rw [decode_major (by rw [h1]; decide)]
  simp only [decodeMajor, h1, decodeCsr, h2]
  exact accept_ok (by simp only [z0]; rfl) (rfl) (congrArg some hr) rfl

theorem amoadd (f : XForm) : Statement (.amoadd f) := by
  intro w hw he
  obtain ⟨hb, h1, h2, hh, hr⟩ := XForm_bits (m := 18) (fn := 0) (by decide) (by decide) (Option.some.inj he).symm
  refine ⟨?_, hb⟩
  rw [decode_major (by rw [h1]; decide)]
  simp only [decodeMajor, h1, decodeAmo, h2]
  exact accept_ok (rfl) (hint_ok hh hw) hr rfl

theorem amoswp (f : XForm) : Statement (.amoswp f) := by
  intro w hw he
  obtain ⟨hb, h1, h2, hh, hr⟩ := XForm_bits (m := 18) (fn := 1) (by decide) (by decide) (Option.some.inj he).symm
  refine ⟨?_, hb⟩
  rw [decode_major (by rw [h1]; decide)]
  simp only [decodeMajor, h1, decodeAmo, h2]
  exact accept_ok (rfl) (hint_ok hh hw) hr rfl

theorem amocas (f : XForm) : Statement (.amocas f) := by
  intro w hw he
  obtain ⟨hb, h1, h2, hh, hr⟩ := XForm_bits (m := 18) (fn := 2) (by decide) (by decide) (Option.some.inj he).symm
  refine ⟨?_, hb⟩
  rw [decode_major (by rw [h1]; decide)]
  simp only [decodeMajor, h1, decodeAmo, h2]
  exact accept_ok (rfl) (hint_ok hh hw) hr rfl

theorem amomin (f : XForm) : Statement (.amomin f) := by
  intro w hw he
  obtain ⟨hb, h1, h2, hh, hr⟩ := XForm_bits (m := 18) (fn := 3) (by decide) (by decide) (Option.some.inj he).symm
  refine ⟨?_, hb⟩
  rw [decode_major (by rw [h1]; decide)]
  simp only [decodeMajor, h1, decodeAmo, h2]
  exact accept_ok (rfl) (hint_ok hh hw) hr rfl

theorem amomax (f : XForm) : Statement (.amomax f) := by
  intro w hw he
  obtain ⟨hb, h1, h2, hh, hr⟩ := XForm_bits (m := 18) (fn := 4) (by decide) (by decide) (Option.some.inj he).symm
  refine ⟨?_, hb⟩
  rw [decode_major (by rw [h1]; decide)]
  simp only [decodeMajor, h1, decodeAmo, h2]
  exact accept_ok (rfl) (hint_ok hh hw) hr rfl

theorem amoand (f : XForm) : Statement (.amoand f) := by
  intro w hw he
  obtain ⟨hb, h1, h2, hh, hr⟩ := XForm_bits (m := 18) (fn := 5) (by decide) (by decide) (Option.some.inj he).symm
  refine ⟨?_, hb⟩
  rw [decode_major (by rw [h1]; decide)]
  simp only [decodeMajor, h1, decodeAmo, h2]
  exact accept_ok (rfl) (hint_ok hh hw) hr rfl

theorem amoor (f : XForm) : Statement (.amoor f) := by
  intro w hw he
  obtain ⟨hb, h1, h2, hh, hr⟩ := XForm_bits (m := 18) (fn := 6) (by decide) (by decide) (Option.some.inj he).symm
  refine ⟨?_, hb⟩
  rw [decode_major (by rw [h1]; decide)]
  simp only [decodeMajor, h1, decodeAmo, h2]
  exact accept_ok (rfl) (hint_ok hh hw) hr rfl

theorem amoxor (f : XForm) : Statement (.amoxor f) := by
  intro w hw he
  obtain ⟨hb, h1, h2, hh, hr⟩ := XForm_bits (m := 18) (fn := 7) (by decide) (by decide) (Option.some.inj he).symm
  refine ⟨?_, hb⟩
  rw [decode_major (by rw [h1]; decide)]
  simp only [decodeMajor, h1, decodeAmo, h2]
  exact accept_ok (rfl) (hint_ok hh hw) hr rfl

theorem trap (f : A1) : Statement (.trap f) := by
  intro w hw he
  obtain ⟨hb, h1, h2, z0, z1, hh, hr⟩ := A1_bits (m := 19) (fn := 0) (by decide) (by decide) (Option.some.inj he).symm
  refine ⟨?_, hb⟩
  rw [decode_major (by rw [h1]; decide)]
  simp only [decodeMajor, h1, decodeSys, h2]
  exact accept_ok (by simp only [z0, z1]; rfl) (hint_ok hh hw) (congrArg some hr) rfl

theorem eret (f : A0) : Statement (.eret f) := by
  intro w hw he
  obtain ⟨hb, h1, h2, z0, hh, hr⟩ := A0_bits (m := 19) (fn := 1) (by decide) (by decide) (Option.some.inj he).symm
  refine ⟨?_, hb⟩
  rw [decode_major (by rw [h1]; decide)]
  simp only [decodeMajor, h1, decodeSys, h2]
  exact accept_ok (by simp only [z0]; rfl) (hint_ok hh hw) (congrArg some hr) rfl

theorem fence (f : QualForm) : Statement (.fence f) := by
  intro w hw he
  obtain ⟨hb, h1, h2, z0, hh, hr⟩ := QualForm_bits (m := 19) (fn := 2) (by decide) (by decide) (Option.some.inj he).symm
  refine ⟨?_, hb⟩
  rw [decode_major (by rw [h1]; decide)]
  simp only [decodeMajor, h1, decodeSys, h2]
  exact accept_ok (by simp only [z0]; rfl) (hint_ok hh hw) hr rfl

theorem halt (f : A0) : Statement (.halt f) := by
  intro w hw he
  obtain ⟨hb, h1, h2, z0, hh, hr⟩ := A0_bits (m := 19) (fn := 3) (by decide) (by decide) (Option.some.inj he).symm
  refine ⟨?_, hb⟩
  rw [decode_major (by rw [h1]; decide)]
  simp only [decodeMajor, h1, decodeSys, h2]
  exact accept_ok (by simp only [z0]; rfl) (hint_ok hh hw) (congrArg some hr) rfl

theorem yield (f : A0) : Statement (.yield f) := by
  intro w hw he
  obtain ⟨hb, h1, h2, z0, hh, hr⟩ := A0_bits (m := 19) (fn := 4) (by decide) (by decide) (Option.some.inj he).symm
  refine ⟨?_, hb⟩
  rw [decode_major (by rw [h1]; decide)]
  simp only [decodeMajor, h1, decodeSys, h2]
  exact accept_ok (by simp only [z0]; rfl) (hint_ok hh hw) (congrArg some hr) rfl

theorem spawn (f : A2) : Statement (.spawn f) := by
  intro w hw he
  obtain ⟨hb, h1, h2, z0, hh, hr⟩ := A2_bits (m := 19) (fn := 5) (by decide) (by decide) (Option.some.inj he).symm
  refine ⟨?_, hb⟩
  rw [decode_major (by rw [h1]; decide)]
  simp only [decodeMajor, h1, decodeSys, h2]
  exact accept_ok (by simp only [z0]; rfl) (hint_ok hh hw) (congrArg some hr) rfl

theorem ndone (f : A0) : Statement (.ndone f) := by
  intro w hw he
  obtain ⟨hb, h1, h2, z0, hh, hr⟩ := A0_bits (m := 19) (fn := 6) (by decide) (by decide) (Option.some.inj he).symm
  refine ⟨?_, hb⟩
  rw [decode_major (by rw [h1]; decide)]
  simp only [decodeMajor, h1, decodeSys, h2]
  exact accept_ok (by simp only [z0]; rfl) (hint_ok hh hw) (congrArg some hr) rfl

theorem lease (f : A2) : Statement (.lease f) := by
  intro w hw he
  obtain ⟨hb, h1, h2, z0, hh, hr⟩ := A2_bits (m := 19) (fn := 7) (by decide) (by decide) (Option.some.inj he).symm
  refine ⟨?_, hb⟩
  rw [decode_major (by rw [h1]; decide)]
  simp only [decodeMajor, h1, decodeSys, h2]
  exact accept_ok (by simp only [z0]; rfl) (hint_ok hh hw) (congrArg some hr) rfl

theorem unlease (f : A0) : Statement (.unlease f) := by
  intro w hw he
  obtain ⟨hb, h1, h2, z0, hh, hr⟩ := A0_bits (m := 19) (fn := 8) (by decide) (by decide) (Option.some.inj he).symm
  refine ⟨?_, hb⟩
  rw [decode_major (by rw [h1]; decide)]
  simp only [decodeMajor, h1, decodeSys, h2]
  exact accept_ok (by simp only [z0]; rfl) (hint_ok hh hw) (congrArg some hr) rfl

theorem brkpt (f : A1) : Statement (.brkpt f) := by
  intro w hw he
  obtain ⟨hb, h1, h2, z0, z1, hh, hr⟩ := A1_bits (m := 19) (fn := 9) (by decide) (by decide) (Option.some.inj he).symm
  refine ⟨?_, hb⟩
  rw [decode_major (by rw [h1]; decide)]
  simp only [decodeMajor, h1, decodeSys, h2]
  exact accept_ok (by simp only [z0, z1]; rfl) (hint_ok hh hw) (congrArg some hr) rfl

theorem rdtime (f : AD) : Statement (.rdtime f) := by
  intro w hw he
  obtain ⟨hb, h1, h2, z0, hh, hr⟩ := AD_bits (m := 19) (fn := 10) (by decide) (by decide) (Option.some.inj he).symm
  refine ⟨?_, hb⟩
  rw [decode_major (by rw [h1]; decide)]
  simp only [decodeMajor, h1, decodeSys, h2]
  exact accept_ok (by simp only [z0]; rfl) (hint_ok hh hw) (congrArg some hr) rfl

theorem nop (f : A0) : Statement (.nop f) := by
  intro w hw he
  obtain ⟨hb, h1, h2, z0, hh, hr⟩ := A0_bits (m := 19) (fn := 11) (by decide) (by decide) (Option.some.inj he).symm
  refine ⟨?_, hb⟩
  rw [decode_major (by rw [h1]; decide)]
  simp only [decodeMajor, h1, decodeSys, h2]
  exact accept_ok (by simp only [z0]; rfl) (hint_ok hh hw) (congrArg some hr) rfl

theorem acq (f : QualA) : Statement (.acq f) := by
  intro w hw he
  obtain ⟨hb, h1, h2, z0, hh, hr⟩ := QualA_bits (m := 20) (fn := 0) (by decide) (by decide) (Option.some.inj he).symm
  refine ⟨?_, hb⟩
  rw [decode_major (by rw [h1]; decide)]
  simp only [decodeMajor, h1, decodeSync, h2]
  exact accept_ok (by simp only [z0]; rfl) (hint_ok hh hw) hr rfl

theorem rel (f : QualA) : Statement (.rel f) := by
  intro w hw he
  obtain ⟨hb, h1, h2, z0, hh, hr⟩ := QualA_bits (m := 20) (fn := 1) (by decide) (by decide) (Option.some.inj he).symm
  refine ⟨?_, hb⟩
  rw [decode_major (by rw [h1]; decide)]
  simp only [decodeMajor, h1, decodeSync, h2]
  exact accept_ok (by simp only [z0]; rfl) (hint_ok hh hw) hr rfl

theorem bind (f : A3) : Statement (.bind f) := by
  intro w hw he
  obtain ⟨hb, h1, h2, hh, hr⟩ := A3_bits (m := 20) (fn := 2) (by decide) (by decide) (Option.some.inj he).symm
  refine ⟨?_, hb⟩
  rw [decode_major (by rw [h1]; decide)]
  simp only [decodeMajor, h1, decodeSync, h2]
  exact accept_ok (rfl) (hint_ok hh hw) (congrArg some hr) rfl

theorem unbind (f : A1) : Statement (.unbind f) := by
  intro w hw he
  obtain ⟨hb, h1, h2, z0, z1, hh, hr⟩ := A1_bits (m := 20) (fn := 3) (by decide) (by decide) (Option.some.inj he).symm
  refine ⟨?_, hb⟩
  rw [decode_major (by rw [h1]; decide)]
  simp only [decodeMajor, h1, decodeSync, h2]
  exact accept_ok (by simp only [z0, z1]; rfl) (hint_ok hh hw) (congrArg some hr) rfl

theorem tlwait (f : AB) : Statement (.tlwait f) := by
  intro w hw he
  obtain ⟨hb, h1, h2, z0, hh, hr⟩ := AB_bits (m := 20) (fn := 4) (by decide) (by decide) (Option.some.inj he).symm
  refine ⟨?_, hb⟩
  rw [decode_major (by rw [h1]; decide)]
  simp only [decodeMajor, h1, decodeSync, h2]
  exact accept_ok (by simp only [z0]; rfl) (hint_ok hh hw) (congrArg some hr) rfl

theorem tlsig (f : A2) : Statement (.tlsig f) := by
  intro w hw he
  obtain ⟨hb, h1, h2, z0, hh, hr⟩ := A2_bits (m := 20) (fn := 5) (by decide) (by decide) (Option.some.inj he).symm
  refine ⟨?_, hb⟩
  rw [decode_major (by rw [h1]; decide)]
  simp only [decodeMajor, h1, decodeSync, h2]
  exact accept_ok (by simp only [z0]; rfl) (hint_ok hh hw) (congrArg some hr) rfl

theorem tlrd (f : A2) : Statement (.tlrd f) := by
  intro w hw he
  obtain ⟨hb, h1, h2, z0, hh, hr⟩ := A2_bits (m := 20) (fn := 6) (by decide) (by decide) (Option.some.inj he).symm
  refine ⟨?_, hb⟩
  rw [decode_major (by rw [h1]; decide)]
  simp only [decodeMajor, h1, decodeSync, h2]
  exact accept_ok (by simp only [z0]; rfl) (hint_ok hh hw) (congrArg some hr) rfl

theorem drinit (f : DrInitForm) : Statement (.drinit f) := by
  intro w hw he
  obtain ⟨hb, h1, h2, z0, hh, hr⟩ := DrInitForm_bits (m := 20) (fn := 7) (by decide) (by decide) (Option.some.inj he).symm
  refine ⟨?_, hb⟩
  rw [decode_major (by rw [h1]; decide)]
  simp only [decodeMajor, h1, decodeSync, h2]
  exact accept_ok (by simp only [z0]; rfl) (hint_ok hh hw) (congrArg some hr) rfl

theorem drawait (f : DrWaitForm) : Statement (.drawait f) := by
  intro w hw he
  obtain ⟨hb, h1, h2, z0, z1, hh, hr⟩ := DrWaitForm_bits (m := 20) (fn := 8) (by decide) (by decide) (Option.some.inj he).symm
  refine ⟨?_, hb⟩
  rw [decode_major (by rw [h1]; decide)]
  simp only [decodeMajor, h1, decodeSync, h2]
  exact accept_ok (by simp only [z0, z1]; rfl) (hint_ok hh hw) (congrArg some hr) rfl

theorem drrel (f : DrRelForm) : Statement (.drrel f) := by
  intro w hw he
  obtain ⟨hb, h1, h2, z0, z1, hh, hr⟩ := DrRelForm_bits (m := 20) (fn := 9) (by decide) (by decide) (Option.some.inj he).symm
  refine ⟨?_, hb⟩
  rw [decode_major (by rw [h1]; decide)]
  simp only [decodeMajor, h1, decodeSync, h2]
  exact accept_ok (by simp only [z0, z1]; rfl) (hint_ok hh hw) (congrArg some hr) rfl

theorem barw (f : BarwForm) : Statement (.barw f) := by
  intro w hw he
  obtain ⟨hb, h1, h2, z0, z1, hh, hr⟩ := BarwForm_bits (m := 20) (fn := 10) (by decide) (by decide) (Option.some.inj he).symm
  refine ⟨?_, hb⟩
  rw [decode_major (by rw [h1]; decide)]
  simp only [decodeMajor, h1, decodeSync, h2]
  exact accept_ok (by simp only [z0, z1]; rfl) (hint_ok hh hw) (congrArg some hr) rfl

theorem bara (f : BaraForm) : Statement (.bara f) := by
  intro w hw he
  obtain ⟨hb, h1, h2, z0, hh, hr⟩ := BaraForm_bits (m := 20) (fn := 11) (by decide) (by decide) (Option.some.inj he).symm
  refine ⟨?_, hb⟩
  rw [decode_major (by rw [h1]; decide)]
  simp only [decodeMajor, h1, decodeSync, h2]
  exact accept_ok (by simp only [z0]; rfl) (hint_ok hh hw) (congrArg some hr) rfl

theorem tagwany (f : A2) : Statement (.tagwany f) := by
  intro w hw he
  obtain ⟨hb, h1, h2, z0, hh, hr⟩ := A2_bits (m := 20) (fn := 12) (by decide) (by decide) (Option.some.inj he).symm
  refine ⟨?_, hb⟩
  rw [decode_major (by rw [h1]; decide)]
  simp only [decodeMajor, h1, decodeSync, h2]
  exact accept_ok (by simp only [z0]; rfl) (hint_ok hh hw) (congrArg some hr) rfl

theorem tagwall (f : A2) : Statement (.tagwall f) := by
  intro w hw he
  obtain ⟨hb, h1, h2, z0, hh, hr⟩ := A2_bits (m := 20) (fn := 13) (by decide) (by decide) (Option.some.inj he).symm
  refine ⟨?_, hb⟩
  rw [decode_major (by rw [h1]; decide)]
  simp only [decodeMajor, h1, decodeSync, h2]
  exact accept_ok (by simp only [z0]; rfl) (hint_ok hh hw) (congrArg some hr) rfl

theorem tagff (f : A2) : Statement (.tagff f) := by
  intro w hw he
  obtain ⟨hb, h1, h2, z0, hh, hr⟩ := A2_bits (m := 20) (fn := 14) (by decide) (by decide) (Option.some.inj he).symm
  refine ⟨?_, hb⟩
  rw [decode_major (by rw [h1]; decide)]
  simp only [decodeMajor, h1, decodeSync, h2]
  exact accept_ok (by simp only [z0]; rfl) (hint_ok hh hw) (congrArg some hr) rfl

theorem tcopy (f : TForm) : Statement (.tcopy f) := by
  intro w hw he
  obtain ⟨hb, h1, h2, hr⟩ := TForm_bits (m := 21) (fn := 0) (by decide) (by decide) (Option.some.inj he).symm
  refine ⟨?_, hb⟩
  rw [decode_major (by rw [h1]; decide)]
  simp only [decodeMajor, h1, decodeTug, h2]
  exact accept_ok (rfl) (rfl) (congrArg some hr) rfl

theorem tcopym (f : TForm) : Statement (.tcopym f) := by
  intro w hw he
  obtain ⟨hb, h1, h2, hr⟩ := TForm_bits (m := 21) (fn := 1) (by decide) (by decide) (Option.some.inj he).symm
  refine ⟨?_, hb⟩
  rw [decode_major (by rw [h1]; decide)]
  simp only [decodeMajor, h1, decodeTug, h2]
  exact accept_ok (rfl) (rfl) (congrArg some hr) rfl

theorem tqnt (f : TForm) : Statement (.tqnt f) := by
  intro w hw he
  obtain ⟨hb, h1, h2, hr⟩ := TForm_bits (m := 21) (fn := 2) (by decide) (by decide) (Option.some.inj he).symm
  refine ⟨?_, hb⟩
  rw [decode_major (by rw [h1]; decide)]
  simp only [decodeMajor, h1, decodeTug, h2]
  exact accept_ok (rfl) (rfl) (congrArg some hr) rfl

theorem tenc (f : TForm) : Statement (.tenc f) := by
  intro w hw he
  obtain ⟨hb, h1, h2, hr⟩ := TForm_bits (m := 21) (fn := 3) (by decide) (by decide) (Option.some.inj he).symm
  refine ⟨?_, hb⟩
  rw [decode_major (by rw [h1]; decide)]
  simp only [decodeMajor, h1, decodeTug, h2]
  exact accept_ok (rfl) (rfl) (congrArg some hr) rfl

theorem tdec (f : TForm) : Statement (.tdec f) := by
  intro w hw he
  obtain ⟨hb, h1, h2, hr⟩ := TForm_bits (m := 21) (fn := 4) (by decide) (by decide) (Option.some.inj he).symm
  refine ⟨?_, hb⟩
  rw [decode_major (by rw [h1]; decide)]
  simp only [decodeMajor, h1, decodeTug, h2]
  exact accept_ok (rfl) (rfl) (congrArg some hr) rfl

theorem tqsc (f : TForm) : Statement (.tqsc f) := by
  intro w hw he
  obtain ⟨hb, h1, h2, hr⟩ := TForm_bits (m := 21) (fn := 5) (by decide) (by decide) (Option.some.inj he).symm
  refine ⟨?_, hb⟩
  rw [decode_major (by rw [h1]; decide)]
  simp only [decodeMajor, h1, decodeTug, h2]
  exact accept_ok (rfl) (rfl) (congrArg some hr) rfl

theorem tstat (f : TForm) : Statement (.tstat f) := by
  intro w hw he
  obtain ⟨hb, h1, h2, hr⟩ := TForm_bits (m := 21) (fn := 6) (by decide) (by decide) (Option.some.inj he).symm
  refine ⟨?_, hb⟩
  rw [decode_major (by rw [h1]; decide)]
  simp only [decodeMajor, h1, decodeTug, h2]
  exact accept_ok (rfl) (rfl) (congrArg some hr) rfl

theorem tblk (f : TForm) : Statement (.tblk f) := by
  intro w hw he
  obtain ⟨hb, h1, h2, hr⟩ := TForm_bits (m := 21) (fn := 7) (by decide) (by decide) (Option.some.inj he).symm
  refine ⟨?_, hb⟩
  rw [decode_major (by rw [h1]; decide)]
  simp only [decodeMajor, h1, decodeTug, h2]
  exact accept_ok (rfl) (rfl) (congrArg some hr) rfl

theorem wbind (f : A3) : Statement (.wbind f) := by
  intro w hw he
  obtain ⟨hb, h1, h2, hh, hr⟩ := A3_bits (m := 22) (fn := 0) (by decide) (by decide) (Option.some.inj he).symm
  refine ⟨?_, hb⟩
  rw [decode_major (by rw [h1]; decide)]
  simp only [decodeMajor, h1, decodeAwl, h2]
  exact accept_ok (rfl) (hint_ok hh hw) (congrArg some hr) rfl

theorem wqry (f : A3) : Statement (.wqry f) := by
  intro w hw he
  obtain ⟨hb, h1, h2, hh, hr⟩ := A3_bits (m := 22) (fn := 1) (by decide) (by decide) (Option.some.inj he).symm
  refine ⟨?_, hb⟩
  rw [decode_major (by rw [h1]; decide)]
  simp only [decodeMajor, h1, decodeAwl, h2]
  exact accept_ok (rfl) (hint_ok hh hw) (congrArg some hr) rfl

theorem wapp (f : A3) : Statement (.wapp f) := by
  intro w hw he
  obtain ⟨hb, h1, h2, hh, hr⟩ := A3_bits (m := 22) (fn := 2) (by decide) (by decide) (Option.some.inj he).symm
  refine ⟨?_, hb⟩
  rw [decode_major (by rw [h1]; decide)]
  simp only [decodeMajor, h1, decodeAwl, h2]
  exact accept_ok (rfl) (hint_ok hh hw) (congrArg some hr) rfl

theorem wrefit (f : ADB) : Statement (.wrefit f) := by
  intro w hw he
  obtain ⟨hb, h1, h2, z0, hh, hr⟩ := ADB_bits (m := 22) (fn := 3) (by decide) (by decide) (Option.some.inj he).symm
  refine ⟨?_, hb⟩
  rw [decode_major (by rw [h1]; decide)]
  simp only [decodeMajor, h1, decodeAwl, h2]
  exact accept_ok (by simp only [z0]; rfl) (hint_ok hh hw) (congrArg some hr) rfl

theorem wdrain (f : ADB) : Statement (.wdrain f) := by
  intro w hw he
  obtain ⟨hb, h1, h2, z0, hh, hr⟩ := ADB_bits (m := 22) (fn := 4) (by decide) (by decide) (Option.some.inj he).symm
  refine ⟨?_, hb⟩
  rw [decode_major (by rw [h1]; decide)]
  simp only [decodeMajor, h1, decodeAwl, h2]
  exact accept_ok (by simp only [z0]; rfl) (hint_ok hh hw) (congrArg some hr) rfl

theorem emucall (f : EForm) : Statement (.emucall f) := by
  intro w hw he
  obtain ⟨hb, h1, hr⟩ := EForm_bits (m := 23) (by decide) (Option.some.inj he).symm
  refine ⟨?_, hb⟩
  rw [decode_major (by rw [h1]; decide)]
  simp only [decodeMajor, h1]
  exact accept_ok (rfl) (rfl) (congrArg some hr) rfl

theorem vsetl (f : A2) : Statement (.vsetl f) := by
  intro w hw he
  obtain ⟨hb, h1, h2, z0, hh, hr⟩ := A2_bits (m := 24) (fn := 0) (by decide) (by decide) (Option.some.inj he).symm
  refine ⟨?_, hb⟩
  rw [decode_major (by rw [h1]; decide)]
  simp only [decodeMajor, h1, decodeVset, h2]
  exact accept_ok (by simp only [z0]; rfl) (hint_ok hh hw) (congrArg some hr) rfl

theorem vshape (f : A3) : Statement (.vshape f) := by
  intro w hw he
  obtain ⟨hb, h1, h2, hh, hr⟩ := A3_bits (m := 24) (fn := 1) (by decide) (by decide) (Option.some.inj he).symm
  refine ⟨?_, hb⟩
  rw [decode_major (by rw [h1]; decide)]
  simp only [decodeMajor, h1, decodeVset, h2]
  exact accept_ok (rfl) (hint_ok hh hw) (congrArg some hr) rfl

theorem vtype (f : A2) : Statement (.vtype f) := by
  intro w hw he
  obtain ⟨hb, h1, h2, z0, hh, hr⟩ := A2_bits (m := 24) (fn := 2) (by decide) (by decide) (Option.some.inj he).symm
  refine ⟨?_, hb⟩
  rw [decode_major (by rw [h1]; decide)]
  simp only [decodeMajor, h1, decodeVset, h2]
  exact accept_ok (by simp only [z0]; rfl) (hint_ok hh hw) (congrArg some hr) rfl

theorem vsetm (f : A2) : Statement (.vsetm f) := by
  intro w hw he
  obtain ⟨hb, h1, h2, z0, hh, hr⟩ := A2_bits (m := 24) (fn := 3) (by decide) (by decide) (Option.some.inj he).symm
  refine ⟨?_, hb⟩
  rw [decode_major (by rw [h1]; decide)]
  simp only [decodeMajor, h1, decodeVset, h2]
  exact accept_ok (by simp only [z0]; rfl) (hint_ok hh hw) (congrArg some hr) rfl

theorem vsets (f : A2) : Statement (.vsets f) := by
  intro w hw he
  obtain ⟨hb, h1, h2, z0, hh, hr⟩ := A2_bits (m := 24) (fn := 4) (by decide) (by decide) (Option.some.inj he).symm
  refine ⟨?_, hb⟩
  rw [decode_major (by rw [h1]; decide)]
  simp only [decodeMajor, h1, decodeVset, h2]
  exact accept_ok (by simp only [z0]; rfl) (hint_ok hh hw) (congrArg some hr) rfl

theorem vdecl (f : A2) : Statement (.vdecl f) := by
  intro w hw he
  obtain ⟨hb, h1, h2, z0, hh, hr⟩ := A2_bits (m := 24) (fn := 5) (by decide) (by decide) (Option.some.inj he).symm
  refine ⟨?_, hb⟩
  rw [decode_major (by rw [h1]; decide)]
  simp only [decodeMajor, h1, decodeVset, h2]
  exact accept_ok (by simp only [z0]; rfl) (hint_ok hh hw) (congrArg some hr) rfl

theorem vlive (f : A2) : Statement (.vlive f) := by
  intro w hw he
  obtain ⟨hb, h1, h2, z0, hh, hr⟩ := A2_bits (m := 24) (fn := 6) (by decide) (by decide) (Option.some.inj he).symm
  refine ⟨?_, hb⟩
  rw [decode_major (by rw [h1]; decide)]
  simp only [decodeMajor, h1, decodeVset, h2]
  exact accept_ok (by simp only [z0]; rfl) (hint_ok hh hw) (congrArg some hr) rfl

theorem vadd (f : VB) : Statement (.vadd f) := by
  intro w hw he
  obtain ⟨hb, h1, h2, hh, hr⟩ := VB_bits (m := 25) (fn := 0) (by decide) (by decide) (Option.some.inj he).symm
  refine ⟨?_, hb⟩
  rw [decode_major (by rw [h1]; decide)]
  simp only [decodeMajor, h1, decodeVari, h2]
  exact accept_ok (rfl) (hint_ok hh hw) hr rfl

theorem vsub (f : VB) : Statement (.vsub f) := by
  intro w hw he
  obtain ⟨hb, h1, h2, hh, hr⟩ := VB_bits (m := 25) (fn := 1) (by decide) (by decide) (Option.some.inj he).symm
  refine ⟨?_, hb⟩
  rw [decode_major (by rw [h1]; decide)]
  simp only [decodeMajor, h1, decodeVari, h2]
  exact accept_ok (rfl) (hint_ok hh hw) hr rfl

theorem vmul (f : VB) : Statement (.vmul f) := by
  intro w hw he
  obtain ⟨hb, h1, h2, hh, hr⟩ := VB_bits (m := 25) (fn := 2) (by decide) (by decide) (Option.some.inj he).symm
  refine ⟨?_, hb⟩
  rw [decode_major (by rw [h1]; decide)]
  simp only [decodeMajor, h1, decodeVari, h2]
  exact accept_ok (rfl) (hint_ok hh hw) hr rfl

theorem vmulh (f : VB) : Statement (.vmulh f) := by
  intro w hw he
  obtain ⟨hb, h1, h2, hh, hr⟩ := VB_bits (m := 25) (fn := 3) (by decide) (by decide) (Option.some.inj he).symm
  refine ⟨?_, hb⟩
  rw [decode_major (by rw [h1]; decide)]
  simp only [decodeMajor, h1, decodeVari, h2]
  exact accept_ok (rfl) (hint_ok hh hw) hr rfl

theorem vmacc (f : VB) : Statement (.vmacc f) := by
  intro w hw he
  obtain ⟨hb, h1, h2, hh, hr⟩ := VB_bits (m := 25) (fn := 4) (by decide) (by decide) (Option.some.inj he).symm
  refine ⟨?_, hb⟩
  rw [decode_major (by rw [h1]; decide)]
  simp only [decodeMajor, h1, decodeVari, h2]
  exact accept_ok (rfl) (hint_ok hh hw) hr rfl

theorem vand (f : VB) : Statement (.vand f) := by
  intro w hw he
  obtain ⟨hb, h1, h2, hh, hr⟩ := VB_bits (m := 25) (fn := 5) (by decide) (by decide) (Option.some.inj he).symm
  refine ⟨?_, hb⟩
  rw [decode_major (by rw [h1]; decide)]
  simp only [decodeMajor, h1, decodeVari, h2]
  exact accept_ok (rfl) (hint_ok hh hw) hr rfl

theorem vor (f : VB) : Statement (.vor f) := by
  intro w hw he
  obtain ⟨hb, h1, h2, hh, hr⟩ := VB_bits (m := 25) (fn := 6) (by decide) (by decide) (Option.some.inj he).symm
  refine ⟨?_, hb⟩
  rw [decode_major (by rw [h1]; decide)]
  simp only [decodeMajor, h1, decodeVari, h2]
  exact accept_ok (rfl) (hint_ok hh hw) hr rfl

theorem vxor (f : VB) : Statement (.vxor f) := by
  intro w hw he
  obtain ⟨hb, h1, h2, hh, hr⟩ := VB_bits (m := 25) (fn := 7) (by decide) (by decide) (Option.some.inj he).symm
  refine ⟨?_, hb⟩
  rw [decode_major (by rw [h1]; decide)]
  simp only [decodeMajor, h1, decodeVari, h2]
  exact accept_ok (rfl) (hint_ok hh hw) hr rfl

theorem vsll (f : VB) : Statement (.vsll f) := by
  intro w hw he
  obtain ⟨hb, h1, h2, hh, hr⟩ := VB_bits (m := 25) (fn := 8) (by decide) (by decide) (Option.some.inj he).symm
  refine ⟨?_, hb⟩
  rw [decode_major (by rw [h1]; decide)]
  simp only [decodeMajor, h1, decodeVari, h2]
  exact accept_ok (rfl) (hint_ok hh hw) hr rfl

theorem vsrl (f : VB) : Statement (.vsrl f) := by
  intro w hw he
  obtain ⟨hb, h1, h2, hh, hr⟩ := VB_bits (m := 25) (fn := 9) (by decide) (by decide) (Option.some.inj he).symm
  refine ⟨?_, hb⟩
  rw [decode_major (by rw [h1]; decide)]
  simp only [decodeMajor, h1, decodeVari, h2]
  exact accept_ok (rfl) (hint_ok hh hw) hr rfl

theorem vsra (f : VB) : Statement (.vsra f) := by
  intro w hw he
  obtain ⟨hb, h1, h2, hh, hr⟩ := VB_bits (m := 25) (fn := 10) (by decide) (by decide) (Option.some.inj he).symm
  refine ⟨?_, hb⟩
  rw [decode_major (by rw [h1]; decide)]
  simp only [decodeMajor, h1, decodeVari, h2]
  exact accept_ok (rfl) (hint_ok hh hw) hr rfl

theorem vmin (f : VB) : Statement (.vmin f) := by
  intro w hw he
  obtain ⟨hb, h1, h2, hh, hr⟩ := VB_bits (m := 25) (fn := 11) (by decide) (by decide) (Option.some.inj he).symm
  refine ⟨?_, hb⟩
  rw [decode_major (by rw [h1]; decide)]
  simp only [decodeMajor, h1, decodeVari, h2]
  exact accept_ok (rfl) (hint_ok hh hw) hr rfl

theorem vmax (f : VB) : Statement (.vmax f) := by
  intro w hw he
  obtain ⟨hb, h1, h2, hh, hr⟩ := VB_bits (m := 25) (fn := 12) (by decide) (by decide) (Option.some.inj he).symm
  refine ⟨?_, hb⟩
  rw [decode_major (by rw [h1]; decide)]
  simp only [decodeMajor, h1, decodeVari, h2]
  exact accept_ok (rfl) (hint_ok hh hw) hr rfl

theorem vsadd (f : VB) : Statement (.vsadd f) := by
  intro w hw he
  obtain ⟨hb, h1, h2, hh, hr⟩ := VB_bits (m := 25) (fn := 13) (by decide) (by decide) (Option.some.inj he).symm
  refine ⟨?_, hb⟩
  rw [decode_major (by rw [h1]; decide)]
  simp only [decodeMajor, h1, decodeVari, h2]
  exact accept_ok (rfl) (hint_ok hh hw) hr rfl

theorem vssub (f : VB) : Statement (.vssub f) := by
  intro w hw he
  obtain ⟨hb, h1, h2, hh, hr⟩ := VB_bits (m := 25) (fn := 14) (by decide) (by decide) (Option.some.inj he).symm
  refine ⟨?_, hb⟩
  rw [decode_major (by rw [h1]; decide)]
  simp only [decodeMajor, h1, decodeVari, h2]
  exact accept_ok (rfl) (hint_ok hh hw) hr rfl

theorem vzsub (f : VZForm) : Statement (.vzsub f) := by
  intro w hw he
  obtain ⟨hb, h1, h2, z0, z1, z2, hh, hr⟩ := VZForm_bits (m := 25) (fn := 15) (by decide) (by decide) (Option.some.inj he).symm
  refine ⟨?_, hb⟩
  rw [decode_major (by rw [h1]; decide)]
  simp only [decodeMajor, h1, decodeVari, h2]
  exact accept_ok (by simp only [z0, z1, z2]; rfl) (hint_ok hh hw) (congrArg some hr) rfl

theorem vfadd (f : VB) : Statement (.vfadd f) := by
  intro w hw he
  obtain ⟨hb, h1, h2, hh, hr⟩ := VB_bits (m := 26) (fn := 0) (by decide) (by decide) (Option.some.inj he).symm
  refine ⟨?_, hb⟩
  rw [decode_major (by rw [h1]; decide)]
  simp only [decodeMajor, h1, decodeVfp, h2]
  exact accept_ok (rfl) (hint_ok hh hw) hr rfl

theorem vfsub (f : VB) : Statement (.vfsub f) := by
  intro w hw he
  obtain ⟨hb, h1, h2, hh, hr⟩ := VB_bits (m := 26) (fn := 1) (by decide) (by decide) (Option.some.inj he).symm
  refine ⟨?_, hb⟩
  rw [decode_major (by rw [h1]; decide)]
  simp only [decodeMajor, h1, decodeVfp, h2]
  exact accept_ok (rfl) (hint_ok hh hw) hr rfl

theorem vfmul (f : VB) : Statement (.vfmul f) := by
  intro w hw he
  obtain ⟨hb, h1, h2, hh, hr⟩ := VB_bits (m := 26) (fn := 2) (by decide) (by decide) (Option.some.inj he).symm
  refine ⟨?_, hb⟩
  rw [decode_major (by rw [h1]; decide)]
  simp only [decodeMajor, h1, decodeVfp, h2]
  exact accept_ok (rfl) (hint_ok hh hw) hr rfl

theorem vfma (f : VB) : Statement (.vfma f) := by
  intro w hw he
  obtain ⟨hb, h1, h2, hh, hr⟩ := VB_bits (m := 26) (fn := 3) (by decide) (by decide) (Option.some.inj he).symm
  refine ⟨?_, hb⟩
  rw [decode_major (by rw [h1]; decide)]
  simp only [decodeMajor, h1, decodeVfp, h2]
  exact accept_ok (rfl) (hint_ok hh hw) hr rfl

theorem vfnms (f : VB) : Statement (.vfnms f) := by
  intro w hw he
  obtain ⟨hb, h1, h2, hh, hr⟩ := VB_bits (m := 26) (fn := 4) (by decide) (by decide) (Option.some.inj he).symm
  refine ⟨?_, hb⟩
  rw [decode_major (by rw [h1]; decide)]
  simp only [decodeMajor, h1, decodeVfp, h2]
  exact accept_ok (rfl) (hint_ok hh hw) hr rfl

theorem vfdiv (f : VB) : Statement (.vfdiv f) := by
  intro w hw he
  obtain ⟨hb, h1, h2, hh, hr⟩ := VB_bits (m := 26) (fn := 5) (by decide) (by decide) (Option.some.inj he).symm
  refine ⟨?_, hb⟩
  rw [decode_major (by rw [h1]; decide)]
  simp only [decodeMajor, h1, decodeVfp, h2]
  exact accept_ok (rfl) (hint_ok hh hw) hr rfl

theorem vfsqrt (f : VUX) : Statement (.vfsqrt f) := by
  intro w hw he
  obtain ⟨hb, h1, h2, z0, z1, hh, hr⟩ := VUX_bits (m := 26) (fn := 6) (by decide) (by decide) (Option.some.inj he).symm
  refine ⟨?_, hb⟩
  rw [decode_major (by rw [h1]; decide)]
  simp only [decodeMajor, h1, decodeVfp, h2]
  exact accept_ok (by simp only [z0, z1]; rfl) (hint_ok hh hw) (congrArg some hr) rfl

theorem vfmin (f : VB) : Statement (.vfmin f) := by
  intro w hw he
  obtain ⟨hb, h1, h2, hh, hr⟩ := VB_bits (m := 26) (fn := 7) (by decide) (by decide) (Option.some.inj he).symm
  refine ⟨?_, hb⟩
  rw [decode_major (by rw [h1]; decide)]
  simp only [decodeMajor, h1, decodeVfp, h2]
  exact accept_ok (rfl) (hint_ok hh hw) hr rfl

theorem vfmax (f : VB) : Statement (.vfmax f) := by
  intro w hw he
  obtain ⟨hb, h1, h2, hh, hr⟩ := VB_bits (m := 26) (fn := 8) (by decide) (by decide) (Option.some.inj he).symm
  refine ⟨?_, hb⟩
  rw [decode_major (by rw [h1]; decide)]
  simp only [decodeMajor, h1, decodeVfp, h2]
  exact accept_ok (rfl) (hint_ok hh hw) hr rfl

theorem vfabs (f : VUX) : Statement (.vfabs f) := by
  intro w hw he
  obtain ⟨hb, h1, h2, z0, z1, hh, hr⟩ := VUX_bits (m := 26) (fn := 9) (by decide) (by decide) (Option.some.inj he).symm
  refine ⟨?_, hb⟩
  rw [decode_major (by rw [h1]; decide)]
  simp only [decodeMajor, h1, decodeVfp, h2]
  exact accept_ok (by simp only [z0, z1]; rfl) (hint_ok hh hw) (congrArg some hr) rfl

theorem vfneg (f : VUX) : Statement (.vfneg f) := by
  intro w hw he
  obtain ⟨hb, h1, h2, z0, z1, hh, hr⟩ := VUX_bits (m := 26) (fn := 10) (by decide) (by decide) (Option.some.inj he).symm
  refine ⟨?_, hb⟩
  rw [decode_major (by rw [h1]; decide)]
  simp only [decodeMajor, h1, decodeVfp, h2]
  exact accept_ok (by simp only [z0, z1]; rfl) (hint_ok hh hw) (congrArg some hr) rfl

theorem vfrec (f : VUX) : Statement (.vfrec f) := by
  intro w hw he
  obtain ⟨hb, h1, h2, z0, z1, hh, hr⟩ := VUX_bits (m := 26) (fn := 11) (by decide) (by decide) (Option.some.inj he).symm
  refine ⟨?_, hb⟩
  rw [decode_major (by rw [h1]; decide)]
  simp only [decodeMajor, h1, decodeVfp, h2]
  exact accept_ok (by simp only [z0, z1]; rfl) (hint_ok hh hw) (congrArg some hr) rfl

theorem vfrsq (f : VUX) : Statement (.vfrsq f) := by
  intro w hw he
  obtain ⟨hb, h1, h2, z0, z1, hh, hr⟩ := VUX_bits (m := 26) (fn := 12) (by decide) (by decide) (Option.some.inj he).symm
  refine ⟨?_, hb⟩
  rw [decode_major (by rw [h1]; decide)]
  simp only [decodeMajor, h1, decodeVfp, h2]
  exact accept_ok (by simp only [z0, z1]; rfl) (hint_ok hh hw) (congrArg some hr) rfl

theorem vfexp2 (f : VUX) : Statement (.vfexp2 f) := by
  intro w hw he
  obtain ⟨hb, h1, h2, z0, z1, hh, hr⟩ := VUX_bits (m := 26) (fn := 13) (by decide) (by decide) (Option.some.inj he).symm
  refine ⟨?_, hb⟩
  rw [decode_major (by rw [h1]; decide)]
  simp only [decodeMajor, h1, decodeVfp, h2]
  exact accept_ok (by simp only [z0, z1]; rfl) (hint_ok hh hw) (congrArg some hr) rfl

theorem vceq (f : VCmpForm) : Statement (.vceq f) := by
  intro w hw he
  obtain ⟨hb, h1, h2, z0, z1, hh, hr⟩ := VCmpForm_bits (m := 27) (fn := 0) (by decide) (by decide) (Option.some.inj he).symm
  refine ⟨?_, hb⟩
  rw [decode_major (by rw [h1]; decide)]
  simp only [decodeMajor, h1, decodeVcmp, h2]
  exact accept_ok (by simp only [z0, z1]; rfl) (hint_ok hh hw) hr rfl

theorem vcne (f : VCmpForm) : Statement (.vcne f) := by
  intro w hw he
  obtain ⟨hb, h1, h2, z0, z1, hh, hr⟩ := VCmpForm_bits (m := 27) (fn := 1) (by decide) (by decide) (Option.some.inj he).symm
  refine ⟨?_, hb⟩
  rw [decode_major (by rw [h1]; decide)]
  simp only [decodeMajor, h1, decodeVcmp, h2]
  exact accept_ok (by simp only [z0, z1]; rfl) (hint_ok hh hw) hr rfl

theorem vclt (f : VCmpForm) : Statement (.vclt f) := by
  intro w hw he
  obtain ⟨hb, h1, h2, z0, z1, hh, hr⟩ := VCmpForm_bits (m := 27) (fn := 2) (by decide) (by decide) (Option.some.inj he).symm
  refine ⟨?_, hb⟩
  rw [decode_major (by rw [h1]; decide)]
  simp only [decodeMajor, h1, decodeVcmp, h2]
  exact accept_ok (by simp only [z0, z1]; rfl) (hint_ok hh hw) hr rfl

theorem vcle (f : VCmpForm) : Statement (.vcle f) := by
  intro w hw he
  obtain ⟨hb, h1, h2, z0, z1, hh, hr⟩ := VCmpForm_bits (m := 27) (fn := 3) (by decide) (by decide) (Option.some.inj he).symm
  refine ⟨?_, hb⟩
  rw [decode_major (by rw [h1]; decide)]
  simp only [decodeMajor, h1, decodeVcmp, h2]
  exact accept_ok (by simp only [z0, z1]; rfl) (hint_ok hh hw) hr rfl

theorem vcltu (f : VCmpForm) : Statement (.vcltu f) := by
  intro w hw he
  obtain ⟨hb, h1, h2, z0, z1, hh, hr⟩ := VCmpForm_bits (m := 27) (fn := 4) (by decide) (by decide) (Option.some.inj he).symm
  refine ⟨?_, hb⟩
  rw [decode_major (by rw [h1]; decide)]
  simp only [decodeMajor, h1, decodeVcmp, h2]
  exact accept_ok (by simp only [z0, z1]; rfl) (hint_ok hh hw) hr rfl

theorem vfceq (f : VCmpForm) : Statement (.vfceq f) := by
  intro w hw he
  obtain ⟨hb, h1, h2, z0, z1, hh, hr⟩ := VCmpForm_bits (m := 27) (fn := 5) (by decide) (by decide) (Option.some.inj he).symm
  refine ⟨?_, hb⟩
  rw [decode_major (by rw [h1]; decide)]
  simp only [decodeMajor, h1, decodeVcmp, h2]
  exact accept_ok (by simp only [z0, z1]; rfl) (hint_ok hh hw) hr rfl

theorem vfclt (f : VCmpForm) : Statement (.vfclt f) := by
  intro w hw he
  obtain ⟨hb, h1, h2, z0, z1, hh, hr⟩ := VCmpForm_bits (m := 27) (fn := 6) (by decide) (by decide) (Option.some.inj he).symm
  refine ⟨?_, hb⟩
  rw [decode_major (by rw [h1]; decide)]
  simp only [decodeMajor, h1, decodeVcmp, h2]
  exact accept_ok (by simp only [z0, z1]; rfl) (hint_ok hh hw) hr rfl

theorem vfcle (f : VCmpForm) : Statement (.vfcle f) := by
  intro w hw he
  obtain ⟨hb, h1, h2, z0, z1, hh, hr⟩ := VCmpForm_bits (m := 27) (fn := 7) (by decide) (by decide) (Option.some.inj he).symm
  refine ⟨?_, hb⟩
  rw [decode_major (by rw [h1]; decide)]
  simp only [decodeMajor, h1, decodeVcmp, h2]
  exact accept_ok (by simp only [z0, z1]; rfl) (hint_ok hh hw) hr rfl

theorem vfcun (f : VCmpForm) : Statement (.vfcun f) := by
  intro w hw he
  obtain ⟨hb, h1, h2, z0, z1, hh, hr⟩ := VCmpForm_bits (m := 27) (fn := 8) (by decide) (by decide) (Option.some.inj he).symm
  refine ⟨?_, hb⟩
  rw [decode_major (by rw [h1]; decide)]
  simp only [decodeMajor, h1, decodeVcmp, h2]
  exact accept_ok (by simp only [z0, z1]; rfl) (hint_ok hh hw) hr rfl

theorem mand (f : M3) : Statement (.mand f) := by
  intro w hw he
  obtain ⟨hb, h1, h2, z0, z1, z2, z3, z4, hh, hr⟩ := M3_bits (m := 27) (fn := 9) (by decide) (by decide) (Option.some.inj he).symm
  refine ⟨?_, hb⟩
  rw [decode_major (by rw [h1]; decide)]
  simp only [decodeMajor, h1, decodeVcmp, h2]
  exact accept_ok (by simp only [z0, z1, z2, z3, z4]; rfl) (hint_ok hh hw) (congrArg some hr) rfl

theorem mor (f : M3) : Statement (.mor f) := by
  intro w hw he
  obtain ⟨hb, h1, h2, z0, z1, z2, z3, z4, hh, hr⟩ := M3_bits (m := 27) (fn := 10) (by decide) (by decide) (Option.some.inj he).symm
  refine ⟨?_, hb⟩
  rw [decode_major (by rw [h1]; decide)]
  simp only [decodeMajor, h1, decodeVcmp, h2]
  exact accept_ok (by simp only [z0, z1, z2, z3, z4]; rfl) (hint_ok hh hw) (congrArg some hr) rfl

theorem mxor (f : M3) : Statement (.mxor f) := by
  intro w hw he
  obtain ⟨hb, h1, h2, z0, z1, z2, z3, z4, hh, hr⟩ := M3_bits (m := 27) (fn := 11) (by decide) (by decide) (Option.some.inj he).symm
  refine ⟨?_, hb⟩
  rw [decode_major (by rw [h1]; decide)]
  simp only [decodeMajor, h1, decodeVcmp, h2]
  exact accept_ok (by simp only [z0, z1, z2, z3, z4]; rfl) (hint_ok hh hw) (congrArg some hr) rfl

theorem mnot (f : M2) : Statement (.mnot f) := by
  intro w hw he
  obtain ⟨hb, h1, h2, z0, z1, z2, z3, z4, hh, hr⟩ := M2_bits (m := 27) (fn := 12) (by decide) (by decide) (Option.some.inj he).symm
  refine ⟨?_, hb⟩
  rw [decode_major (by rw [h1]; decide)]
  simp only [decodeMajor, h1, decodeVcmp, h2]
  exact accept_ok (by simp only [z0, z1, z2, z3, z4]; rfl) (hint_ok hh hw) (congrArg some hr) rfl

theorem mpop (f : MS) : Statement (.mpop f) := by
  intro w hw he
  obtain ⟨hb, h1, h2, z0, z1, z2, z3, hh, hr⟩ := MS_bits (m := 27) (fn := 13) (by decide) (by decide) (Option.some.inj he).symm
  refine ⟨?_, hb⟩
  rw [decode_major (by rw [h1]; decide)]
  simp only [decodeMajor, h1, decodeVcmp, h2]
  exact accept_ok (by simp only [z0, z1, z2, z3]; rfl) (hint_ok hh hw) (congrArg some hr) rfl

theorem mfirst (f : MS) : Statement (.mfirst f) := by
  intro w hw he
  obtain ⟨hb, h1, h2, z0, z1, z2, z3, hh, hr⟩ := MS_bits (m := 27) (fn := 14) (by decide) (by decide) (Option.some.inj he).symm
  refine ⟨?_, hb⟩
  rw [decode_major (by rw [h1]; decide)]
  simp only [decodeMajor, h1, decodeVcmp, h2]
  exact accept_ok (by simp only [z0, z1, z2, z3]; rfl) (hint_ok hh hw) (congrArg some hr) rfl

theorem vslup (f : VS) : Statement (.vslup f) := by
  intro w hw he
  obtain ⟨hb, h1, h2, z0, z1, z2, hh, hr⟩ := VS_bits (m := 28) (fn := 0) (by decide) (by decide) (Option.some.inj he).symm
  refine ⟨?_, hb⟩
  rw [decode_major (by rw [h1]; decide)]
  simp only [decodeMajor, h1, decodeVperm, h2]
  exact accept_ok (by simp only [z0, z1, z2]; rfl) (hint_ok hh hw) (congrArg some hr) rfl

theorem vsldn (f : VS) : Statement (.vsldn f) := by
  intro w hw he
  obtain ⟨hb, h1, h2, z0, z1, z2, hh, hr⟩ := VS_bits (m := 28) (fn := 1) (by decide) (by decide) (Option.some.inj he).symm
  refine ⟨?_, hb⟩
  rw [decode_major (by rw [h1]; decide)]
  simp only [decodeMajor, h1, decodeVperm, h2]
  exact accept_ok (by simp only [z0, z1, z2]; rfl) (hint_ok hh hw) (congrArg some hr) rfl

theorem vcomp (f : VU) : Statement (.vcomp f) := by
  intro w hw he
  obtain ⟨hb, h1, h2, z0, z1, z2, hh, hr⟩ := VU_bits (m := 28) (fn := 2) (by decide) (by decide) (Option.some.inj he).symm
  refine ⟨?_, hb⟩
  rw [decode_major (by rw [h1]; decide)]
  simp only [decodeMajor, h1, decodeVperm, h2]
  exact accept_ok (by simp only [z0, z1, z2]; rfl) (hint_ok hh hw) (congrArg some hr) rfl

theorem vexpd (f : VU) : Statement (.vexpd f) := by
  intro w hw he
  obtain ⟨hb, h1, h2, z0, z1, z2, hh, hr⟩ := VU_bits (m := 28) (fn := 3) (by decide) (by decide) (Option.some.inj he).symm
  refine ⟨?_, hb⟩
  rw [decode_major (by rw [h1]; decide)]
  simp only [decodeMajor, h1, decodeVperm, h2]
  exact accept_ok (by simp only [z0, z1, z2]; rfl) (hint_ok hh hw) (congrArg some hr) rfl

theorem vreds (f : VS) : Statement (.vreds f) := by
  intro w hw he
  obtain ⟨hb, h1, h2, z0, z1, z2, hh, hr⟩ := VS_bits (m := 28) (fn := 4) (by decide) (by decide) (Option.some.inj he).symm
  refine ⟨?_, hb⟩
  rw [decode_major (by rw [h1]; decide)]
  simp only [decodeMajor, h1, decodeVperm, h2]
  exact accept_ok (by simp only [z0, z1, z2]; rfl) (hint_ok hh hw) (congrArg some hr) rfl

theorem vredmx (f : VS) : Statement (.vredmx f) := by
  intro w hw he
  obtain ⟨hb, h1, h2, z0, z1, z2, hh, hr⟩ := VS_bits (m := 28) (fn := 5) (by decide) (by decide) (Option.some.inj he).symm
  refine ⟨?_, hb⟩
  rw [decode_major (by rw [h1]; decide)]
  simp only [decodeMajor, h1, decodeVperm, h2]
  exact accept_ok (by simp only [z0, z1, z2]; rfl) (hint_ok hh hw) (congrArg some hr) rfl

theorem vredmn (f : VS) : Statement (.vredmn f) := by
  intro w hw he
  obtain ⟨hb, h1, h2, z0, z1, z2, hh, hr⟩ := VS_bits (m := 28) (fn := 6) (by decide) (by decide) (Option.some.inj he).symm
  refine ⟨?_, hb⟩
  rw [decode_major (by rw [h1]; decide)]
  simp only [decodeMajor, h1, decodeVperm, h2]
  exact accept_ok (by simp only [z0, z1, z2]; rfl) (hint_ok hh hw) (congrArg some hr) rfl

theorem vfreds (f : VS) : Statement (.vfreds f) := by
  intro w hw he
  obtain ⟨hb, h1, h2, z0, z1, z2, hh, hr⟩ := VS_bits (m := 28) (fn := 7) (by decide) (by decide) (Option.some.inj he).symm
  refine ⟨?_, hb⟩
  rw [decode_major (by rw [h1]; decide)]
  simp only [decodeMajor, h1, decodeVperm, h2]
  exact accept_ok (by simp only [z0, z1, z2]; rfl) (hint_ok hh hw) (congrArg some hr) rfl

theorem vmvs (f : VS) : Statement (.vmvs f) := by
  intro w hw he
  obtain ⟨hb, h1, h2, z0, z1, z2, hh, hr⟩ := VS_bits (m := 28) (fn := 8) (by decide) (by decide) (Option.some.inj he).symm
  refine ⟨?_, hb⟩
  rw [decode_major (by rw [h1]; decide)]
  simp only [decodeMajor, h1, decodeVperm, h2]
  exact accept_ok (by simp only [z0, z1, z2]; rfl) (hint_ok hh hw) (congrArg some hr) rfl

theorem vbrd (f : VBrdForm) : Statement (.vbrd f) := by
  intro w hw he
  obtain ⟨hb, h1, h2, z0, z1, z2, hh, hr⟩ := VBrdForm_bits (m := 28) (fn := 9) (by decide) (by decide) (Option.some.inj he).symm
  refine ⟨?_, hb⟩
  rw [decode_major (by rw [h1]; decide)]
  simp only [decodeMajor, h1, decodeVperm, h2]
  exact accept_ok (by simp only [z0, z1, z2]; rfl) (hint_ok hh hw) (congrArg some hr) rfl

theorem viota (f : VD) : Statement (.viota f) := by
  intro w hw he
  obtain ⟨hb, h1, h2, z0, z1, hh, hr⟩ := VD_bits (m := 28) (fn := 10) (by decide) (by decide) (Option.some.inj he).symm
  refine ⟨?_, hb⟩
  rw [decode_major (by rw [h1]; decide)]
  simp only [decodeMajor, h1, decodeVperm, h2]
  exact accept_ok (by simp only [z0, z1]; rfl) (hint_ok hh hw) (congrArg some hr) rfl

theorem vband (f : VCmpForm) : Statement (.vband f) := by
  intro w hw he
  obtain ⟨hb, h1, h2, z0, z1, hh, hr⟩ := VCmpForm_bits (m := 28) (fn := 11) (by decide) (by decide) (Option.some.inj he).symm
  refine ⟨?_, hb⟩
  rw [decode_major (by rw [h1]; decide)]
  simp only [decodeMajor, h1, decodeVperm, h2]
  exact accept_ok (by simp only [z0, z1]; rfl) (hint_ok hh hw) hr rfl

theorem vbpfx (f : VU) : Statement (.vbpfx f) := by
  intro w hw he
  obtain ⟨hb, h1, h2, z0, z1, z2, hh, hr⟩ := VU_bits (m := 28) (fn := 12) (by decide) (by decide) (Option.some.inj he).symm
  refine ⟨?_, hb⟩
  rw [decode_major (by rw [h1]; decide)]
  simp only [decodeMajor, h1, decodeVperm, h2]
  exact accept_ok (by simp only [z0, z1, z2]; rfl) (hint_ok hh hw) (congrArg some hr) rfl

theorem vencr (f : VU) : Statement (.vencr f) := by
  intro w hw he
  obtain ⟨hb, h1, h2, z0, z1, z2, hh, hr⟩ := VU_bits (m := 29) (fn := 0) (by decide) (by decide) (Option.some.inj he).symm
  refine ⟨?_, hb⟩
  rw [decode_major (by rw [h1]; decide)]
  simp only [decodeMajor, h1, decodeVenc, h2]
  exact accept_ok (by simp only [z0, z1, z2]; rfl) (hint_ok hh hw) (congrArg some hr) rfl

theorem vencd (f : VU) : Statement (.vencd f) := by
  intro w hw he
  obtain ⟨hb, h1, h2, z0, z1, z2, hh, hr⟩ := VU_bits (m := 29) (fn := 1) (by decide) (by decide) (Option.some.inj he).symm
  refine ⟨?_, hb⟩
  rw [decode_major (by rw [h1]; decide)]
  simp only [decodeMajor, h1, decodeVenc, h2]
  exact accept_ok (by simp only [z0, z1, z2]; rfl) (hint_ok hh hw) (congrArg some hr) rfl

theorem venct (f : VU) : Statement (.venct f) := by
  intro w hw he
  obtain ⟨hb, h1, h2, z0, z1, z2, hh, hr⟩ := VU_bits (m := 29) (fn := 2) (by decide) (by decide) (Option.some.inj he).symm
  refine ⟨?_, hb⟩
  rw [decode_major (by rw [h1]; decide)]
  simp only [decodeMajor, h1, decodeVenc, h2]
  exact accept_ok (by simp only [z0, z1, z2]; rfl) (hint_ok hh hw) (congrArg some hr) rfl

theorem vdec (f : VU) : Statement (.vdec f) := by
  intro w hw he
  obtain ⟨hb, h1, h2, z0, z1, z2, hh, hr⟩ := VU_bits (m := 29) (fn := 3) (by decide) (by decide) (Option.some.inj he).symm
  refine ⟨?_, hb⟩
  rw [decode_major (by rw [h1]; decide)]
  simp only [decodeMajor, h1, decodeVenc, h2]
  exact accept_ok (by simp only [z0, z1, z2]; rfl) (hint_ok hh hw) (congrArg some hr) rfl

theorem vrenc (f : VU) : Statement (.vrenc f) := by
  intro w hw he
  obtain ⟨hb, h1, h2, z0, z1, z2, hh, hr⟩ := VU_bits (m := 29) (fn := 4) (by decide) (by decide) (Option.some.inj he).symm
  refine ⟨?_, hb⟩
  rw [decode_major (by rw [h1]; decide)]
  simp only [decodeMajor, h1, decodeVenc, h2]
  exact accept_ok (by simp only [z0, z1, z2]; rfl) (hint_ok hh hw) (congrArg some hr) rfl

theorem vencq (f : VV) : Statement (.vencq f) := by
  intro w hw he
  obtain ⟨hb, h1, h2, z0, z1, hh, hr⟩ := VV_bits (m := 29) (fn := 5) (by decide) (by decide) (Option.some.inj he).symm
  refine ⟨?_, hb⟩
  rw [decode_major (by rw [h1]; decide)]
  simp only [decodeMajor, h1, decodeVenc, h2]
  exact accept_ok (by simp only [z0, z1]; rfl) (hint_ok hh hw) (congrArg some hr) rfl

theorem vdictExtract (f : VU) : Statement (.vdictExtract f) := by
  intro w hw he
  obtain ⟨hb, h1, h2, z0, z1, z2, hh, hr⟩ := VU_bits2 (m := 29) (fn := 6) (by decide) (by decide) (Option.some.inj he).symm
  refine ⟨?_, hb⟩
  rw [decode_major (by rw [h1]; decide)]
  have hx : bitAt w 10 = true := by simp only [bitAt, beq_iff_eq]; omega
  simp only [decodeMajor, h1, decodeVenc, h2, hx, if_true]
  exact accept_ok (by simp only [z0, z1, z2]; rfl) (hint_ok hh hw) (congrArg some hr) rfl

theorem vdictReplace (f : VV) : Statement (.vdictReplace f) := by
  intro w hw he
  obtain ⟨hb, h1, h2, z0, z1, hh, hr⟩ := VV_bits (m := 29) (fn := 6) (by decide) (by decide) (Option.some.inj he).symm
  refine ⟨?_, hb⟩
  rw [decode_major (by rw [h1]; decide)]
  have hx : bitAt w 10 = false := by simp only [bitAt, beq_eq_false_iff_ne]; omega
  simp only [decodeMajor, h1, decodeVenc, h2, hx, Bool.false_eq_true, if_false]
  exact accept_ok (by simp only [z0, z1]; rfl) (hint_ok hh hw) (congrArg some hr) rfl

theorem vidx (f : VIdxForm) : Statement (.vidx f) := by
  intro w hw he
  obtain ⟨hb, h1, hh, hr⟩ := VIdxForm_bits (m := 30) (by decide) (Option.some.inj he).symm
  refine ⟨?_, hb⟩
  rw [decode_major (by rw [h1]; decide)]
  simp only [wf, Bool.and_eq_true] at hw
  have hv := hw.1
  simp only [vidxOk, Bool.and_eq_true, decide_eq_true_eq] at hv
  simp only [decodeMajor, h1]
  have hf : w / 2 ^ 6 % 32 < 30 := by
    have e : (readVIdxForm w).fn.val = f.fn.val := by rw [hr]
    have e2 : (readVIdxForm w).fn.val = w / 2 ^ 6 % 32 := rfl
    omega
  rw [if_pos hf]
  exact accept_ok (rfl) (hint_ok hh hw.2) (congrArg some hr) hw.1

theorem vcvt (f : VCvtForm) : Statement (.vcvt f) := by
  intro w hw he
  obtain ⟨hb, h1, h2, z0, z1, hh, hr⟩ := VCvtForm_bits (m := 31) (fn := 0) (by decide) (by decide) (Option.some.inj he).symm
  refine ⟨?_, hb⟩
  rw [decode_major (by rw [h1]; decide)]
  simp only [decodeMajor, h1, decodeVcvt, h2]
  exact accept_ok (by simp only [z0, z1]; rfl) (hint_ok hh hw) (congrArg some hr) rfl

theorem vqnt (f : VQForm) : Statement (.vqnt f) := by
  intro w hw he
  obtain ⟨hb, h1, h2, hh, hr⟩ := VQForm_bits (m := 31) (fn := 1) (by decide) (by decide) (Option.some.inj he).symm
  refine ⟨?_, hb⟩
  rw [decode_major (by rw [h1]; decide)]
  simp only [decodeMajor, h1, decodeVcvt, h2]
  exact accept_ok (rfl) (hint_ok hh hw) (congrArg some hr) rfl

theorem vdqnt (f : VDQForm) : Statement (.vdqnt f) := by
  intro w hw he
  obtain ⟨hb, h1, h2, z0, hh, hr⟩ := VDQForm_bits (m := 31) (fn := 2) (by decide) (by decide) (Option.some.inj he).symm
  refine ⟨?_, hb⟩
  rw [decode_major (by rw [h1]; decide)]
  simp only [decodeMajor, h1, decodeVcvt, h2]
  exact accept_ok (by simp only [z0]; rfl) (hint_ok hh hw) (congrArg some hr) rfl

theorem vamax (f : VA1) : Statement (.vamax f) := by
  intro w hw he
  obtain ⟨hb, h1, h2, z0, z1, z2, z3, hh, hr⟩ := VA1_bits (m := 31) (fn := 3) (by decide) (by decide) (Option.some.inj he).symm
  refine ⟨?_, hb⟩
  rw [decode_major (by rw [h1]; decide)]
  simp only [decodeMajor, h1, decodeVcvt, h2]
  exact accept_ok (by simp only [z0, z1, z2, z3]; rfl) (hint_ok hh hw) (congrArg some hr) rfl

theorem vscl (f : VSclForm) : Statement (.vscl f) := by
  intro w hw he
  obtain ⟨hb, h1, h2, z0, z1, z2, z3, hh, hr⟩ := VSclForm_bits (m := 31) (fn := 4) (by decide) (by decide) (Option.some.inj he).symm
  refine ⟨?_, hb⟩
  rw [decode_major (by rw [h1]; decide)]
  simp only [decodeMajor, h1, decodeVcvt, h2]
  exact accept_ok (by simp only [z0, z1, z2, z3]; rfl) (hint_ok hh hw) (congrArg some hr) rfl

theorem vpack (f : VPkForm) : Statement (.vpack f) := by
  intro w hw he
  obtain ⟨hb, h1, h2, z0, z1, z2, z3, hh, hr⟩ := VPkForm_bits (m := 31) (fn := 5) (by decide) (by decide) (Option.some.inj he).symm
  refine ⟨?_, hb⟩
  rw [decode_major (by rw [h1]; decide)]
  simp only [decodeMajor, h1, decodeVcvt, h2]
  exact accept_ok (by simp only [z0, z1, z2, z3]; rfl) (hint_ok hh hw) (congrArg some hr) rfl

theorem vunpk (f : VPkForm) : Statement (.vunpk f) := by
  intro w hw he
  obtain ⟨hb, h1, h2, z0, z1, z2, z3, hh, hr⟩ := VPkForm_bits (m := 31) (fn := 6) (by decide) (by decide) (Option.some.inj he).symm
  refine ⟨?_, hb⟩
  rw [decode_major (by rw [h1]; decide)]
  simp only [decodeMajor, h1, decodeVcvt, h2]
  exact accept_ok (by simp only [z0, z1, z2, z3]; rfl) (hint_ok hh hw) (congrArg some hr) rfl

theorem vld (f : VLdForm) : Statement (.vld f) := by
  intro w hw he
  obtain ⟨hb, h1, h2, z0, hh, hr⟩ := VLdForm_bits (m := 32) (fn := 0) (by decide) (by decide) (Option.some.inj he).symm
  refine ⟨?_, hb⟩
  rw [decode_major (by rw [h1]; decide)]
  simp only [decodeMajor, h1, decodeVld, h2]
  exact accept_ok (by simp only [z0]; rfl) (hintVld_ok hh hw) (congrArg some hr) rfl

theorem vldb (f : VLdbForm) : Statement (.vldb f) := by
  intro w hw he
  obtain ⟨hb, h1, h2, z0, z1, hh, hr⟩ := VLdbForm_bits (m := 32) (fn := 1) (by decide) (by decide) (Option.some.inj he).symm
  refine ⟨?_, hb⟩
  rw [decode_major (by rw [h1]; decide)]
  simp only [decodeMajor, h1, decodeVld, h2]
  exact accept_ok (by simp only [z0, z1]; rfl) (hintVld_ok hh hw) (congrArg some hr) rfl

theorem vldseg (f : VSegForm) : Statement (.vldseg f) := by
  intro w hw he
  obtain ⟨hb, h1, h2, z0, hh, hr⟩ := VSegForm_bits (m := 32) (fn := 2) (by decide) (by decide) (Option.some.inj he).symm
  refine ⟨?_, hb⟩
  rw [decode_major (by rw [h1]; decide)]
  simp only [decodeMajor, h1, decodeVld, h2]
  exact accept_ok (by simp only [z0]; rfl) (hintVld_ok hh hw) (congrArg some hr) rfl

theorem vlde (f : VLdForm) : Statement (.vlde f) := by
  intro w hw he
  obtain ⟨hb, h1, h2, z0, hh, hr⟩ := VLdForm_bits (m := 32) (fn := 3) (by decide) (by decide) (Option.some.inj he).symm
  refine ⟨?_, hb⟩
  rw [decode_major (by rw [h1]; decide)]
  simp only [decodeMajor, h1, decodeVld, h2]
  exact accept_ok (by simp only [z0]; rfl) (hintVld_ok hh hw) (congrArg some hr) rfl

theorem vfil (f : VLdForm) : Statement (.vfil f) := by
  intro w hw he
  obtain ⟨hb, h1, h2, z0, hh, hr⟩ := VLdForm_bits (m := 32) (fn := 4) (by decide) (by decide) (Option.some.inj he).symm
  refine ⟨?_, hb⟩
  rw [decode_major (by rw [h1]; decide)]
  simp only [decodeMajor, h1, decodeVld, h2]
  exact accept_ok (by simp only [z0]; rfl) (hintVld_ok hh hw) (congrArg some hr) rfl

theorem vst (f : VStForm) : Statement (.vst f) := by
  intro w hw he
  obtain ⟨hb, h1, h2, z0, z1, hh, hr⟩ := VStForm_bits (m := 33) (fn := 0) (by decide) (by decide) (Option.some.inj he).symm
  refine ⟨?_, hb⟩
  rw [decode_major (by rw [h1]; decide)]
  simp only [decodeMajor, h1, decodeVst, h2]
  exact accept_ok (by simp only [z0, z1]; rfl) (hint_ok hh hw) (congrArg some hr) rfl

theorem vstseg (f : VStSegForm) : Statement (.vstseg f) := by
  intro w hw he
  obtain ⟨hb, h1, h2, z0, hh, hr⟩ := VStSegForm_bits (m := 33) (fn := 1) (by decide) (by decide) (Option.some.inj he).symm
  refine ⟨?_, hb⟩
  rw [decode_major (by rw [h1]; decide)]
  simp only [decodeMajor, h1, decodeVst, h2]
  exact accept_ok (by simp only [z0]; rfl) (hint_ok hh hw) (congrArg some hr) rfl

theorem vste (f : VStForm) : Statement (.vste f) := by
  intro w hw he
  obtain ⟨hb, h1, h2, z0, z1, hh, hr⟩ := VStForm_bits (m := 33) (fn := 2) (by decide) (by decide) (Option.some.inj he).symm
  refine ⟨?_, hb⟩
  rw [decode_major (by rw [h1]; decide)]
  simp only [decodeMajor, h1, decodeVst, h2]
  exact accept_ok (by simp only [z0, z1]; rfl) (hint_ok hh hw) (congrArg some hr) rfl

theorem vspl (f : VStForm) : Statement (.vspl f) := by
  intro w hw he
  obtain ⟨hb, h1, h2, z0, z1, hh, hr⟩ := VStForm_bits (m := 33) (fn := 3) (by decide) (by decide) (Option.some.inj he).symm
  refine ⟨?_, hb⟩
  rw [decode_major (by rw [h1]; decide)]
  simp only [decodeMajor, h1, decodeVst, h2]
  exact accept_ok (by simp only [z0, z1]; rfl) (hint_ok hh hw) (congrArg some hr) rfl

theorem vgath (f : VS) : Statement (.vgath f) := by
  intro w hw he
  obtain ⟨hb, h1, h2, z0, z1, z2, hh, hr⟩ := VS_bits (m := 34) (fn := 0) (by decide) (by decide) (Option.some.inj he).symm
  refine ⟨?_, hb⟩
  rw [decode_major (by rw [h1]; decide)]
  simp only [decodeMajor, h1, decodeVgs, h2]
  exact accept_ok (by simp only [z0, z1, z2]; rfl) (hint_ok hh hw) (congrArg some hr) rfl

theorem vscat (f : VS) : Statement (.vscat f) := by
  intro w hw he
  obtain ⟨hb, h1, h2, z0, z1, z2, hh, hr⟩ := VS_bits (m := 34) (fn := 1) (by decide) (by decide) (Option.some.inj he).symm
  refine ⟨?_, hb⟩
  rw [decode_major (by rw [h1]; decide)]
  simp only [decodeMajor, h1, decodeVgs, h2]
  exact accept_ok (by simp only [z0, z1, z2]; rfl) (hint_ok hh hw) (congrArg some hr) rfl

theorem vgathp (f : VS) : Statement (.vgathp f) := by
  intro w hw he
  obtain ⟨hb, h1, h2, z0, z1, z2, hh, hr⟩ := VS_bits (m := 34) (fn := 2) (by decide) (by decide) (Option.some.inj he).symm
  refine ⟨?_, hb⟩
  rw [decode_major (by rw [h1]; decide)]
  simp only [decodeMajor, h1, decodeVgs, h2]
  exact accept_ok (by simp only [z0, z1, z2]; rfl) (hint_ok hh hw) (congrArg some hr) rfl

theorem vltld (f : VU) : Statement (.vltld f) := by
  intro w hw he
  obtain ⟨hb, h1, h2, z0, z1, z2, hh, hr⟩ := VU_bits (m := 35) (fn := 0) (by decide) (by decide) (Option.some.inj he).symm
  refine ⟨?_, hb⟩
  rw [decode_major (by rw [h1]; decide)]
  simp only [decodeMajor, h1, decodeVlt, h2]
  exact accept_ok (by simp only [z0, z1, z2]; rfl) (hint_ok hh hw) (congrArg some hr) rfl

theorem vltst (f : VU) : Statement (.vltst f) := by
  intro w hw he
  obtain ⟨hb, h1, h2, z0, z1, z2, hh, hr⟩ := VU_bits (m := 35) (fn := 1) (by decide) (by decide) (Option.some.inj he).symm
  refine ⟨?_, hb⟩
  rw [decode_major (by rw [h1]; decide)]
  simp only [decodeMajor, h1, decodeVlt, h2]
  exact accept_ok (by simp only [z0, z1, z2]; rfl) (hint_ok hh hw) (congrArg some hr) rfl

theorem vltadd (f : VU) : Statement (.vltadd f) := by
  intro w hw he
  obtain ⟨hb, h1, h2, z0, z1, z2, hh, hr⟩ := VU_bits (m := 35) (fn := 2) (by decide) (by decide) (Option.some.inj he).symm
  refine ⟨?_, hb⟩
  rw [decode_major (by rw [h1]; decide)]
  simp only [decodeMajor, h1, decodeVlt, h2]
  exact accept_ok (by simp only [z0, z1, z2]; rfl) (hint_ok hh hw) (congrArg some hr) rfl

theorem qbind (f : QAForm) : Statement (.qbind f) := by
  intro w hw he
  obtain ⟨hb, h1, h2, z0, z1, hh, hr⟩ := QAForm_bits (m := 36) (fn := 0) (by decide) (by decide) (Option.some.inj he).symm
  refine ⟨?_, hb⟩
  rw [decode_major (by rw [h1]; decide)]
  simp only [decodeMajor, h1, decodeQctl, h2]
  exact accept_ok (by simp only [z0, z1]; rfl) (hint_ok hh hw) (congrArg some hr) rfl

theorem qfree (f : QForm) : Statement (.qfree f) := by
  intro w hw he
  obtain ⟨hb, h1, h2, z0, z1, hh, hr⟩ := QForm_bits (m := 36) (fn := 1) (by decide) (by decide) (Option.some.inj he).symm
  refine ⟨?_, hb⟩
  rw [decode_major (by rw [h1]; decide)]
  simp only [decodeMajor, h1, decodeQctl, h2]
  exact accept_ok (by simp only [z0, z1]; rfl) (hint_ok hh hw) (congrArg some hr) rfl

theorem qseek (f : QAForm) : Statement (.qseek f) := by
  intro w hw he
  obtain ⟨hb, h1, h2, z0, z1, hh, hr⟩ := QAForm_bits (m := 36) (fn := 2) (by decide) (by decide) (Option.some.inj he).symm
  refine ⟨?_, hb⟩
  rw [decode_major (by rw [h1]; decide)]
  simp only [decodeMajor, h1, decodeQctl, h2]
  exact accept_ok (by simp only [z0, z1]; rfl) (hint_ok hh hw) (congrArg some hr) rfl

theorem qstat (f : QDForm) : Statement (.qstat f) := by
  intro w hw he
  obtain ⟨hb, h1, h2, z0, z1, hh, hr⟩ := QDForm_bits (m := 36) (fn := 3) (by decide) (by decide) (Option.some.inj he).symm
  refine ⟨?_, hb⟩
  rw [decode_major (by rw [h1]; decide)]
  simp only [decodeMajor, h1, decodeQctl, h2]
  exact accept_ok (by simp only [z0, z1]; rfl) (hint_ok hh hw) (congrArg some hr) rfl

theorem vamoadd (f : VS) : Statement (.vamoadd f) := by
  intro w hw he
  obtain ⟨hb, h1, h2, z0, z1, z2, hh, hr⟩ := VS_bits (m := 37) (fn := 0) (by decide) (by decide) (Option.some.inj he).symm
  refine ⟨?_, hb⟩
  rw [decode_major (by rw [h1]; decide)]
  simp only [decodeMajor, h1, decodeVamo, h2]
  exact accept_ok (by simp only [z0, z1, z2]; rfl) (hint_ok hh hw) (congrArg some hr) rfl

theorem vamomax (f : VS) : Statement (.vamomax f) := by
  intro w hw he
  obtain ⟨hb, h1, h2, z0, z1, z2, hh, hr⟩ := VS_bits (m := 37) (fn := 1) (by decide) (by decide) (Option.some.inj he).symm
  refine ⟨?_, hb⟩
  rw [decode_major (by rw [h1]; decide)]
  simp only [decodeMajor, h1, decodeVamo, h2]
  exact accept_ok (by simp only [z0, z1, z2]; rfl) (hint_ok hh hw) (congrArg some hr) rfl

theorem vamocas (f : VS) : Statement (.vamocas f) := by
  intro w hw he
  obtain ⟨hb, h1, h2, z0, z1, z2, hh, hr⟩ := VS_bits (m := 37) (fn := 2) (by decide) (by decide) (Option.some.inj he).symm
  refine ⟨?_, hb⟩
  rw [decode_major (by rw [h1]; decide)]
  simp only [wf, Bool.and_eq_true] at hw
  simp only [decodeMajor, h1, decodeVamo, h2]
  exact accept_ok (by simp only [z0, z1, z2]; rfl) (hint_ok hh hw.2) (congrArg some hr) hw.1

theorem mclaim (f : MClaimForm) : Statement (.mclaim f) := by
  intro w hw he
  obtain ⟨hb, h1, h2, z0, z1, z2, hh, hr⟩ := MClaimForm_bits (m := 38) (fn := 0) (by decide) (by decide) (Option.some.inj he).symm
  refine ⟨?_, hb⟩
  rw [decode_major (by rw [h1]; decide)]
  simp only [wf, Bool.and_eq_true] at hw
  simp only [decodeMajor, h1, decodeMop, h2]
  exact accept_ok (by simp only [z0, z1, z2]; rfl) (hint_ok hh hw.2) (congrArg some hr) hw.1

theorem mrel (f : MRelForm) : Statement (.mrel f) := by
  intro w hw he
  obtain ⟨hb, h1, h2, z0, z1, z2, hh, hr⟩ := MRelForm_bits (m := 38) (fn := 1) (by decide) (by decide) (Option.some.inj he).symm
  refine ⟨?_, hb⟩
  rw [decode_major (by rw [h1]; decide)]
  simp only [decodeMajor, h1, decodeMop, h2]
  exact accept_ok (by simp only [z0, z1, z2]; rfl) (hint_ok hh hw) (congrArg some hr) rfl

theorem mma (f : MmaForm) : Statement (.mma f) := by
  intro w hw he
  obtain ⟨hb, h1, h2, z0, hh, hr⟩ := MmaForm_bits (m := 38) (fn := 2) (by decide) (by decide) (Option.some.inj he).symm
  refine ⟨?_, hb⟩
  rw [decode_major (by rw [h1]; decide)]
  simp only [decodeMajor, h1, decodeMop, h2]
  exact accept_ok (by simp only [z0]; rfl) (hint_ok hh hw) (congrArg some hr) rfl

theorem mmas (f : MmaForm) : Statement (.mmas f) := by
  intro w hw he
  obtain ⟨hb, h1, h2, z0, hh, hr⟩ := MmaForm_bits2 (m := 38) (fn := 3) (by decide) (by decide) (Option.some.inj he).symm
  refine ⟨?_, hb⟩
  rw [decode_major (by rw [h1]; decide)]
  simp only [decodeMajor, h1, decodeMop, h2]
  exact accept_ok (by simp only [z0]; rfl) (hint_ok hh hw) (congrArg some hr) rfl

theorem mslide (f : MmaForm) : Statement (.mslide f) := by
  intro w hw he
  obtain ⟨hb, h1, h2, z0, hh, hr⟩ := MmaForm_bits (m := 38) (fn := 4) (by decide) (by decide) (Option.some.inj he).symm
  refine ⟨?_, hb⟩
  rw [decode_major (by rw [h1]; decide)]
  simp only [decodeMajor, h1, decodeMop, h2]
  exact accept_ok (by simp only [z0]; rfl) (hint_ok hh hw) (congrArg some hr) rfl

theorem mprom (f : MPromForm) : Statement (.mprom f) := by
  intro w hw he
  obtain ⟨hb, h1, h2, z0, hh, hr⟩ := MPromForm_bits (m := 38) (fn := 5) (by decide) (by decide) (Option.some.inj he).symm
  refine ⟨?_, hb⟩
  rw [decode_major (by rw [h1]; decide)]
  simp only [decodeMajor, h1, decodeMop, h2]
  exact accept_ok (by simp only [z0]; rfl) (hint_ok hh hw) (congrArg some hr) rfl

theorem mzero (f : MZeroForm) : Statement (.mzero f) := by
  intro w hw he
  obtain ⟨hb, h1, h2, z0, z1, hh, hr⟩ := MZeroForm_bits (m := 38) (fn := 6) (by decide) (by decide) (Option.some.inj he).symm
  refine ⟨?_, hb⟩
  rw [decode_major (by rw [h1]; decide)]
  simp only [decodeMajor, h1, decodeMop, h2]
  exact accept_ok (by simp only [z0, z1]; rfl) (hint_ok hh hw) (congrArg some hr) rfl

theorem maccrd (f : MAccRdForm) : Statement (.maccrd f) := by
  intro w hw he
  obtain ⟨hb, h1, h2, z0, z1, hh, hr⟩ := MAccRdForm_bits (m := 38) (fn := 7) (by decide) (by decide) (Option.some.inj he).symm
  refine ⟨?_, hb⟩
  rw [decode_major (by rw [h1]; decide)]
  simp only [decodeMajor, h1, decodeMop, h2]
  exact accept_ok (by simp only [z0, z1]; rfl) (hint_ok hh hw) (congrArg some hr) rfl

theorem maccwr (f : MAccWrForm) : Statement (.maccwr f) := by
  intro w hw he
  obtain ⟨hb, h1, h2, z0, hh, hr⟩ := MAccWrForm_bits (m := 38) (fn := 8) (by decide) (by decide) (Option.some.inj he).symm
  refine ⟨?_, hb⟩
  rw [decode_major (by rw [h1]; decide)]
  simp only [decodeMajor, h1, decodeMop, h2]
  exact accept_ok (by simp only [z0]; rfl) (hint_ok hh hw) (congrArg some hr) rfl

theorem mld (f : MLdForm) : Statement (.mld f) := by
  intro w hw he
  obtain ⟨hb, h1, h2, z0, hh, hr⟩ := MLdForm_bits (m := 39) (fn := 0) (by decide) (by decide) (Option.some.inj he).symm
  refine ⟨?_, hb⟩
  rw [decode_major (by rw [h1]; decide)]
  simp only [decodeMajor, h1, decodeMld, h2]
  exact accept_ok (by simp only [z0]; rfl) (hint_ok hh hw) (congrArg some hr) rfl

theorem mlds (f : MLdsForm) : Statement (.mlds f) := by
  intro w hw he
  obtain ⟨hb, h1, h2, z0, hh, hr⟩ := MLdsForm_bits (m := 39) (fn := 1) (by decide) (by decide) (Option.some.inj he).symm
  refine ⟨?_, hb⟩
  rw [decode_major (by rw [h1]; decide)]
  simp only [decodeMajor, h1, decodeMld, h2]
  exact accept_ok (by simp only [z0]; rfl) (hint_ok hh hw) (congrArg some hr) rfl

theorem ftwr (f : FtwrForm) : Statement (.ftwr f) := by
  intro w hw he
  obtain ⟨hb, h1, h2, z0, z1, hh, hr⟩ := FtwrForm_bits (m := 40) (fn := 0) (by decide) (by decide) (Option.some.inj he).symm
  refine ⟨?_, hb⟩
  rw [decode_major (by rw [h1]; decide)]
  simp only [decodeMajor, h1, decodeFmt, h2]
  exact accept_ok (by simp only [z0, z1]; rfl) (hint_ok hh hw) (congrArg some hr) rfl

theorem ftrd (f : FtrdForm) : Statement (.ftrd f) := by
  intro w hw he
  obtain ⟨hb, h1, h2, z0, z1, hh, hr⟩ := FtrdForm_bits (m := 40) (fn := 1) (by decide) (by decide) (Option.some.inj he).symm
  refine ⟨?_, hb⟩
  rw [decode_major (by rw [h1]; decide)]
  simp only [decodeMajor, h1, decodeFmt, h2]
  exact accept_ok (by simp only [z0, z1]; rfl) (hint_ok hh hw) (congrArg some hr) rfl

theorem ftfence (f : A0) : Statement (.ftfence f) := by
  intro w hw he
  obtain ⟨hb, h1, h2, z0, hh, hr⟩ := A0_bits (m := 40) (fn := 2) (by decide) (by decide) (Option.some.inj he).symm
  refine ⟨?_, hb⟩
  rw [decode_major (by rw [h1]; decide)]
  simp only [decodeMajor, h1, decodeFmt, h2]
  exact accept_ok (by simp only [z0]; rfl) (hint_ok hh hw) (congrArg some hr) rfl

theorem vectorLaneAdmit : ∀ a0, Statement (.vectorLaneAdmit a0) := by
  intros; exact stepHas rfl

theorem slabFill : ∀ a0 a1 a2, Statement (.slabFill a0 a1 a2) := by
  intros; exact stepHas rfl

theorem laneGroupRetention : ∀ a0 a1, Statement (.laneGroupRetention a0 a1) := by
  intros; exact stepHas rfl

theorem laneGroupWake : ∀ a0 a1 a2, Statement (.laneGroupWake a0 a1 a2) := by
  intros; exact stepHas rfl

theorem valueLands : ∀ a0 a1, Statement (.valueLands a0 a1) := by
  intros; exact stepHas rfl

theorem streamWalkAhead : ∀ a0 a1, Statement (.streamWalkAhead a0 a1) := by
  intros; exact stepHas rfl

theorem peerGatherReturn : ∀ a0 a1, Statement (.peerGatherReturn a0 a1) := by
  intros; exact stepHas rfl

theorem tugCommandStart : ∀ a0 a1, Statement (.tugCommandStart a0 a1) := by
  intros; exact stepHas rfl

theorem tugBeatLands : ∀ a0 a1, Statement (.tugBeatLands a0 a1) := by
  intros; exact stepHas rfl

theorem tugCommandComplete : ∀ a0 a1, Statement (.tugCommandComplete a0 a1) := by
  intros; exact stepHas rfl

theorem followOnIssue : ∀ a0 a1, Statement (.followOnIssue a0 a1) := by
  intros; exact stepHas rfl

theorem arrayAccept : ∀ a0, Statement (.arrayAccept a0) := by
  intros; exact stepHas rfl

theorem arrayOpComplete : ∀ a0, Statement (.arrayOpComplete a0) := by
  intros; exact stepHas rfl

theorem slotFillLands : ∀ a0 a1, Statement (.slotFillLands a0 a1) := by
  intros; exact stepHas rfl

theorem awlOperationStart : ∀ a0, Statement (.awlOperationStart a0) := by
  intros; exact stepHas rfl

theorem awlLockGrant : ∀ a0, Statement (.awlLockGrant a0) := by
  intros; exact stepHas rfl

theorem awlSlotTake : ∀ a0, Statement (.awlSlotTake a0) := by
  intros; exact stepHas rfl

theorem awlOperationComplete : ∀ a0, Statement (.awlOperationComplete a0) := by
  intros; exact stepHas rfl

theorem waitRelease : ∀ a0, Statement (.waitRelease a0) := by
  intros; exact stepHas rfl

theorem codeFill : ∀ a0 a1 a2, Statement (.codeFill a0 a1 a2) := by
  intros; exact stepHas rfl

theorem poolClear : ∀ a0, Statement (.poolClear a0) := by
  intros; exact stepHas rfl

theorem nodeDispatch : ∀ a0, Statement (.nodeDispatch a0) := by
  intros; exact stepHas rfl

theorem priorityAge : ∀ a0, Statement (.priorityAge a0) := by
  intros; exact stepHas rfl

theorem priorityHold : ∀ a0, Statement (.priorityHold a0) := by
  intros; exact stepHas rfl

theorem admission : ∀ a0, Statement (.admission a0) := by
  intros; exact stepHas rfl

theorem boundOverrun : ∀ a0 a1, Statement (.boundOverrun a0 a1) := by
  intros; exact stepHas rfl

theorem deadlineWatch : ∀ a0, Statement (.deadlineWatch a0) := by
  intros; exact stepHas rfl

theorem completionRecordWrite : ∀ a0, Statement (.completionRecordWrite a0) := by
  intros; exact stepHas rfl

theorem commandFetch : ∀ a0, Statement (.commandFetch a0) := by
  intros; exact stepHas rfl

theorem fetchRetry : ∀ a0, Statement (.fetchRetry a0) := by
  intros; exact stepHas rfl

theorem sqtail : ∀ a0 a1, Statement (.sqtail a0 a1) := by
  intros; exact stepHas rfl

theorem cqhead : ∀ a0 a1, Statement (.cqhead a0 a1) := by
  intros; exact stepHas rfl

theorem sqcfg : ∀ a0 a1, Statement (.sqcfg a0 a1) := by
  intros; exact stepHas rfl

theorem cqcfg : ∀ a0 a1, Statement (.cqcfg a0 a1) := by
  intros; exact stepHas rfl

theorem registerWrite : ∀ a0 a1, Statement (.registerWrite a0 a1) := by
  intros; exact stepHas rfl

theorem hostCmdNop : ∀ a0, Statement (.hostCmdNop a0) := by
  intros; exact stepHas rfl

theorem submit : ∀ a0 a1 a2, Statement (.submit a0 a1 a2) := by
  intros; exact stepHas rfl

theorem regionInstall : ∀ a0 a1 a2, Statement (.regionInstall a0 a1 a2) := by
  intros; exact stepHas rfl

theorem regionRemove : ∀ a0 a1 a2, Statement (.regionRemove a0 a1 a2) := by
  intros; exact stepHas rfl

theorem fdtabSet : ∀ a0 a1, Statement (.fdtabSet a0 a1) := by
  intros; exact stepHas rfl

theorem nvmeQpair : ∀ a0 a1 a2, Statement (.nvmeQpair a0 a1 a2) := by
  intros; exact stepHas rfl

theorem hostMemAccess : ∀ a0 a1, Statement (.hostMemAccess a0 a1) := by
  intros; exact stepHas rfl

theorem park : ∀ a0, Statement (.park a0) := by
  intros; exact stepHas rfl

theorem moveout : ∀ a0, Statement (.moveout a0) := by
  intros; exact stepHas rfl

theorem resume : ∀ a0, Statement (.resume a0) := by
  intros; exact stepHas rfl

theorem kill : ∀ a0, Statement (.kill a0) := by
  intros; exact stepHas rfl

theorem invalidationRequest : ∀ a0, Statement (.invalidationRequest a0) := by
  intros; exact stepHas rfl

theorem dlgo : ∀ a0, Statement (.dlgo a0) := by
  intros; exact stepHas rfl

theorem firmwareVerify : ∀ a0 a1, Statement (.firmwareVerify a0 a1) := by
  intros; exact stepHas rfl

theorem powerUp : Statement .powerUp := stepHas rfl

theorem powerLoss : Statement .powerLoss := stepHas rfl

theorem driveDmaWrite : ∀ a0 a1 a2, Statement (.driveDmaWrite a0 a1 a2) := by
  intros; exact stepHas rfl

theorem memLinkCrcRetry : ∀ a0, Statement (.memLinkCrcRetry a0) := by
  intros; exact stepHas rfl

theorem memLinkRetrain : ∀ a0 a1, Statement (.memLinkRetrain a0 a1) := by
  intros; exact stepHas rfl

theorem balfinFlitReplay : ∀ a0 a1, Statement (.balfinFlitReplay a0 a1) := by
  intros; exact stepHas rfl

theorem balfinRetrain : ∀ a0 a1, Statement (.balfinRetrain a0 a1) := by
  intros; exact stepHas rfl

theorem fabricResend : ∀ a0 a1 a2, Statement (.fabricResend a0 a1 a2) := by
  intros; exact stepHas rfl

theorem fabricDelivery : ∀ a0 a1 a2, Statement (.fabricDelivery a0 a1 a2) := by
  intros; exact stepHas rfl

theorem homeModuleLost : ∀ a0, Statement (.homeModuleLost a0) := by
  intros; exact stepHas rfl

theorem unitFence : ∀ a0, Statement (.unitFence a0) := by
  intros; exact stepHas rfl

theorem sramScrub : ∀ a0 a1, Statement (.sramScrub a0 a1) := by
  intros; exact stepHas rfl

theorem cinchTick : ∀ a0 a1, Statement (.cinchTick a0 a1) := by
  intros; exact stepHas rfl

theorem sensorCrossCheck : ∀ a0 a1, Statement (.sensorCrossCheck a0 a1) := by
  intros; exact stepHas rfl

theorem floorLower : ∀ a0, Statement (.floorLower a0) := by
  intros; exact stepHas rfl

theorem ageingRead : ∀ a0, Statement (.ageingRead a0) := by
  intros; exact stepHas rfl

theorem leaseExpire : ∀ a0, Statement (.leaseExpire a0) := by
  intros; exact stepHas rfl

theorem decodeCause : ∀ a0 a1, Statement (.decodeCause a0 a1) := by
  intros; exact stepHas rfl

theorem fetchCause : ∀ a0 a1, Statement (.fetchCause a0 a1) := by
  intros; exact stepHas rfl

theorem fabricAcknowledgement : ∀ a0 a1, Statement (.fabricAcknowledgement a0 a1) := by
  intros; exact stepHas rfl

theorem flitAcknowledgement : ∀ a0 a1, Statement (.flitAcknowledgement a0 a1) := by
  intros; exact stepHas rfl

theorem resizableBarWrite : ∀ a0, Statement (.resizableBarWrite a0) := by
  intros; exact stepHas rfl

end Sys2Proof.Laws.Roundtrip
end

