-- ==== Sys2Proof/Laws/Trap.lean ====
section
/-! SUPPORT. Taking a trap: what Deliver of R335 does to a context in each of its cases, and a cause raised by the running context. -/

namespace Sys2Proof.Machine

theorem nbit_eq {w : Nat} (v : BitVec w) (i : Nat) : nbit v.toNat i = v.getLsbD i := by
  simp [nbit, BitVec.getLsbD, Nat.testBit, Nat.shiftRight_eq_div_pow, Nat.one_and_eq_mod_two]

theorem trapStatus_ppriv (st : Word) : wbits (trapStatus st) 2 2 = wbits st 0 2 := by
  have lt := wbits_lt st 0 2
  simp only [trapStatus]
  rw [wbits_setBits_ne _ _ _ _ _ _ (by omega), wbits_setBits_ne _ _ _ _ _ _ (by omega), wbits_setBits_self _ _ _ _ (by omega)]
  omega

theorem trapStatus_priv (st : Word) : wbits (trapStatus st) 0 2 = if wbits st 0 2 = 2 then 2 else 1 := by
  simp only [trapStatus]
  rw [wbits_setBits_ne _ _ _ _ _ _ (by omega), wbits_setBits_self _ _ _ _ (by omega)]
  split <;> rfl

theorem trapStatus_inh (st : Word) : (trapStatus st).getLsbD 4 = true := by simp [trapStatus, getLsbD_setBits]

theorem trapStatus_other (st : Word) (i : Nat) (h : 5 ≤ i) : (trapStatus st).getLsbD i = st.getLsbD i := by
  simp only [trapStatus, getLsbD_setBits]
  rw [if_neg (by omega), if_neg (by omega), if_neg (by omega)]

theorem trapTarget_eq (t : Word) (c : Nat) : trapTarget t c = BitVec.ofNat 64 (t.toNat / 64 * 64 + if t.toNat % 4 = 1 then 64 * c else 0) := by
  have h : setBits t 0 6 0 = BitVec.ofNat 64 (t.toNat / 64 * 64) := by
    simp only [setBits, wbits, nbits]; congr 1; omega
  simp only [trapTarget, h, wbits, nbits]
  by_cases h2 : t.toNat % 4 = 1 <;> simp [h2, BitVec.ofNat_add]

/-- A context that has taken a trap. -/
def Ctx.trapped (x : Ctx) (k : Cause) (epc tval : Word) (vec : Bool) : Ctx :=
  { x with
    waiting := false
    pc := trapTarget x.tr.tvec k.cls
    tr := { x.tr with cause := BitVec.ofNat 64 ((if vec then 1024 else 0) + k.code), epc, tval, status := trapStatus x.tr.status } }

theorem deliver_takes {s : State} {c : CtxId} {k : Cause} {epc tval : Word} {vec : Bool} (h1 : (s.ctx c).tr.status.getLsbD 4 = false)
    (h2 : (s.ctx c).tr.status.getLsbD (8 + k.cls) = false) : deliver s c k epc tval vec = s.modCtx c fun x => x.trapped k epc tval vec := by
  simp only [deliver]
  rw [if_neg (by simpa [Ctx.inh] using h1), if_neg (by simpa [nbit_eq] using h2)]
  rfl

theorem deliver_double {s : State} {c : CtxId} {k : Cause} {epc tval : Word} {vec : Bool} (h1 : (s.ctx c).tr.status.getLsbD 4 = true) :
    deliver s c k epc tval vec = stopCtx (ctxReport s c Cause.doubleTrap.code .stop epc (BitVec.ofNat 64 k.code) 0) c := by
  simp only [deliver]; rw [if_pos (by simpa [Ctx.inh] using h1)]

theorem deliver_redirected {s : State} {c : CtxId} {k : Cause} {epc tval : Word} {vec : Bool} (h1 : (s.ctx c).tr.status.getLsbD 4 = false)
    (h2 : (s.ctx c).tr.status.getLsbD (8 + k.cls) = true) : deliver s c k epc tval vec = stopCtx (ctxReport s c k.code .stop epc tval 0) c := by
  simp only [deliver]; rw [if_neg (by simpa [Ctx.inh] using h1), if_pos (by simpa [nbit_eq] using h2)]

theorem raise_trap {s : State} {c : CtxId} {k : Cause} {a epc tval aux : Word} {vec : Bool} (hk : k.delivery = .trap) (hr : (countRefault (s.ctx c) k a tval).2 = false) :
    raise s c k a epc tval aux vec = deliver ((leaveWait s c).setCtx c (countRefault (s.ctx c) k a tval).1) c k epc tval vec := by
  have e : (leaveWait s c).ctx c = s.ctx c := rfl
  simp only [raise, hk, e, hr, Bool.false_eq_true, if_false]

/-- A trap whose cause is no re-fault, outside a handler. -/
theorem raise_takes {s : State} {k : Cause} {a epc tval aux : Word} {vec : Bool} (hk : k.delivery = .trap) (hr : k.refault = false)
    (h1 : s.me.tr.status.getLsbD 4 = false) (h2 : s.me.tr.status.getLsbD (8 + k.cls) = false) :
    raise s s.cur k a epc tval aux vec = (leaveWait s s.cur).modMe fun x => x.trapped k epc tval vec := by
  have e : countRefault (s.ctx s.cur) k a tval = (s.ctx s.cur, false) := by simp [countRefault, hr]
  rw [raise_trap hk (by rw [e]), e, deliver_takes (by simpa [State.me] using h1) (by simpa [State.me] using h2)]
  simp [State.modCtx, State.modMe, leaveWait]; rfl

/-- A translation fault other than the previous one, outside a handler. -/
theorem raise_refault {s : State} {k : Cause} {a epc tval aux : Word} {vec : Bool} (hk : k.delivery = .trap) (hr : k.refault = true)
    (h1 : s.me.tr.status.getLsbD 4 = false) (h2 : s.me.tr.status.getLsbD (8 + k.cls) = false) (h3 : s.me.lastFault ≠ some (a, tval)) :
    raise s s.cur k a epc tval aux vec = (leaveWait s s.cur).modMe fun x => ({ x with lastFault := some (a, tval) } : Ctx).trapped k epc tval vec := by
  have h4 : ¬(s.ctx s.cur).lastFault = some (a, tval) := h3
  have hi : (s.ctx s.cur).inh = false := by simpa [Ctx.inh, State.me] using h1
  have e : countRefault (s.ctx s.cur) k a tval = ({ s.ctx s.cur with lastFault := some (a, tval) }, false) := by
    simp [countRefault, hr, hi, h4]
  rw [raise_trap hk (by rw [e]), e, deliver_takes (by simpa [State.me] using h1) (by simpa [State.me] using h2)]
  simp [State.modCtx, State.modMe, leaveWait]; rfl

end Sys2Proof.Machine
end

