-- ==== Sys2Proof/Laws/Vector.lean ====
section
/-! SUPPORT. How a vector or matrix instruction enters the queue and runs, and the checks and the end of an element-wise operation. -/

namespace Sys2Proof.Machine

theorem needRegs_ok {s : State} {regs : List Nat} {i : Instr} (h : ∀ r ∈ regs, r < s.me.count) : needRegs regs i s = .ok () s := by
  unfold needRegs
  rw [run_bind_ok (run_getMe s)]
  exact needN_true (by simpa using h) _ _ _

theorem awaitTrim_ok {s : State} (h : ∀ e ∈ s.me.queue, trims e.instr = true → e.noTrim = true) : awaitTrim s = .ok () s := by
  unfold awaitTrim
  rw [run_bind_ok (run_getMe s)]
  refine waitUnless_true ?_ _
  rw [Bool.not_eq_true', List.any_eq_false]
  intro e he
  have := h e he
  cases h1 : trims e.instr <;> simp_all

/-- An instruction enters the queue. -/
theorem enqueue_ok {s : State} {i : Instr} {u : Issue} (h1 : ∀ r ∈ u.regs, r < s.me.count) (h2 : ∀ r, u.reads = some r → s.me.isFull r = true)
    (h3 : ∀ r, u.writes = some r → s.me.isFull r = true) (h4 : s.me.queue.length < 64) (h5 : ∀ e ∈ s.me.queue, trims e.instr = true → e.noTrim = true) :
    enqueue i u s = .ok () (s.entered i u) := by
  obtain ⟨regs, reads, writes⟩ := u
  unfold enqueue
  rw [run_bind_ok (needRegs_ok h1), run_bind_ok (awaitTrim_ok h5)]
  have room := waitUnless_true (b := decide (s.me.queue.length < queueMax)) (by rw [decide_eq_true_eq]; exact h4) s
  cases reads with
  | none =>
    simp only
    rw [run_bind_ok (run_pure (0 : Word) s)]
    cases writes with
    | none =>
      simp only
      rw [run_bind_ok (run_getMe s), run_bind_ok room]
      rfl
    | some r =>
      simp only
      rw [run_bind_ok (awaitS_ok (h3 r rfl)), run_bind_ok (run_getMe s), run_bind_ok room]
      rfl
  | some q =>
    simp only
    rw [run_bind_ok (readS_ok (h2 q rfl))]
    cases writes with
    | none =>
      simp only
      rw [run_bind_ok (run_getMe s), run_bind_ok room]
      rfl
    | some r =>
      simp only
      rw [run_bind_ok (awaitS_ok (h3 r rfl)), run_bind_ok (run_getMe s), run_bind_ok room]
      rfl

theorem State.me_entered_queue (s : State) (i : Instr) (u : Issue) : (s.entered i u).me.queue = s.me.queue ++ [s.entryFor i u] := by
  simp only [State.entered, State.me_modMe]
  cases u.writes with
  | none => rfl
  | some r => simp only [Ctx.sclear]; split <;> rfl

/-- An instruction that waits behind others, or whose values are held back. -/
theorem vector_enters {s : State} {i : Instr} {u : Issue} {body : Lane → M Unit} (h : enqueue i u s = .ok () (s.entered i u))
    (hq : s.late = true ∨ s.me.queue ≠ []) : vector i u body s = .next (s.entered i u) := by
  simp only [vector, h]
  have : ((s.entered i u).late || s.me.queue.length != 0) = true := by
    rcases hq with hq | hq
    · simp [State.entered, hq]
    · simp [hq]
  rw [if_pos this]

/-- With no value held back a load has landed as it ran. -/
theorem noteLoads_now {s t : State} (h : t.late = false) : noteLoads s t = t := by simp [noteLoads, h]

/-- With every lane group awake nothing wakes. -/
theorem wakeGroups_awake {core : Fin 1024} {gs : BitVec 4} {lost : BitVec 128} {s : State} (h : (s.core core.val).retained = 0) : wakeGroups core gs lost s = s := by
  simp [wakeGroups, h]

/-- An instruction that runs at once. -/
theorem vector_runs {s t : State} {i : Instr} {u : Issue} {body : Lane → M Unit} (h : s.CanRun u) (hb : body (s.laneFor u) (s.entered i u) = .ok () t)
    (ht : t.late = false) : vector i u body s = .next (laneRetire t) := by
  obtain ⟨h1, h2, h3, h4, h5, h6⟩ := h
  have en := enqueue_ok (i := i) h3 h4 h5 (by simp [h2]) (by simp [h2])
  simp only [vector, en]
  have late : (s.entered i u).late = false := by simpa [State.entered] using h1
  rw [if_neg (by simp [late, h2])]
  have lane : laneOf (s.entered i u).me (s.entryFor i u) = s.laneFor u := by
    simp only [laneOf, State.entryFor, State.laneFor, State.entered, State.me_modMe]
    cases u.writes with
    | none => rfl
    | some r => simp only [Ctx.sclear]; split <;> rfl
  have run : onHead body (s.entered i u) = .ok () t := by
    unfold onHead
    rw [run_bind_ok (run_getMe _), s.me_entered_queue, h2]
    simp only [List.nil_append]
    rw [lane]; exact hb
  have awake : ((s.entered i u).core (s.entered i u).cur.core.val).retained = 0 := by simpa [State.entered, State.myCore] using h6
  simp only [runHead, wakeGroups_awake awake, run, noteLoads_now ht]

/-- One whose body changes the running context alone. -/
theorem vector_ran {s : State} {i : Instr} {u : Issue} {body : Lane → M Unit} {f : Ctx → Ctx} (h : s.CanRun u)
    (hb : body (s.laneFor u) (s.entered i u) = .ok () ((s.entered i u).modMe f)) : vector i u body s = .next (s.ran i u f) :=
  vector_runs h hb (by simpa [State.entered] using h.1)

/-! What entering the queue leaves alone. -/

theorem Ctx.sclear_v (c : Ctx) (r : Fin 32) : (c.sclear r).v = c.v := by unfold Ctx.sclear; split <;> rfl
theorem Ctx.sclear_m (c : Ctx) (r : Fin 32) : (c.sclear r).m = c.m := by unfold Ctx.sclear; split <;> rfl
theorem Ctx.sclear_vc (c : Ctx) (r : Fin 32) : (c.sclear r).vc = c.vc := by unfold Ctx.sclear; split <;> rfl
theorem Ctx.sclear_fc (c : Ctx) (r : Fin 32) : (c.sclear r).fc = c.fc := by unfold Ctx.sclear; split <;> rfl
theorem Ctx.sclear_ents (c : Ctx) (r : Fin 32) : (c.sclear r).ents = c.ents := by unfold Ctx.sclear; split <;> rfl

@[simp] theorem State.entered_v (s : State) (i : Instr) (u : Issue) : (s.entered i u).me.v = s.me.v := by
  simp only [State.entered, State.me_modMe]; cases u.writes <;> simp [Ctx.sclear_v]
@[simp] theorem State.entered_m (s : State) (i : Instr) (u : Issue) : (s.entered i u).me.m = s.me.m := by
  simp only [State.entered, State.me_modMe]; cases u.writes <;> simp [Ctx.sclear_m]
@[simp] theorem State.entered_vc (s : State) (i : Instr) (u : Issue) : (s.entered i u).me.vc = s.me.vc := by
  simp only [State.entered, State.me_modMe]; cases u.writes <;> simp [Ctx.sclear_vc]
@[simp] theorem State.entered_fc (s : State) (i : Instr) (u : Issue) : (s.entered i u).me.fc = s.me.fc := by
  simp only [State.entered, State.me_modMe]; cases u.writes <;> simp [Ctx.sclear_fc]
@[simp] theorem State.entered_ents (s : State) (i : Instr) (u : Issue) : (s.entered i u).me.ents = s.me.ents := by
  simp only [State.entered, State.me_modMe]; cases u.writes <;> simp [Ctx.sclear_ents]
@[simp] theorem State.entered_late (s : State) (i : Instr) (u : Issue) : (s.entered i u).late = s.late := by simp [State.entered]
@[simp] theorem State.entered_tick (s : State) (i : Instr) (u : Issue) : (s.entered i u).tick = s.tick := by simp [State.entered]

/-! DecodeOperands (R91). -/

theorem lazyCheck_ok {s : State} {r : Fin 32} (h : s.me.vc.vuse.getLsbD r.val = false) : lazyCheck r s = .ok () s := by
  unfold lazyCheck
  rw [run_bind_ok (run_getMe s)]
  simp only [h, Bool.false_eq_true, if_false, run_pure]

theorem decodeSource_ok {s : State} {r : Fin 32} {fe : Bool} (h : s.me.Readable r) : decodeSource r fe s = .ok () s := by
  obtain ⟨h1, h2, h3⟩ := h
  unfold decodeSource
  rw [run_bind_ok (lazyCheck_ok h1), run_bind_ok (run_getMe s)]
  simp only [h2, h3, Bool.not_true, Bool.false_eq_true, if_false, run_pure]

theorem decodeDest_ok {s : State} {r : Fin 32} {whole : Bool} (h : s.me.Writable r whole) : decodeDest r whole s = .ok () s := by
  obtain ⟨h1, h2⟩ := h
  unfold decodeDest
  cases whole
  · obtain ⟨h3, h4, h5⟩ := h2 rfl
    simp only [Bool.false_eq_true, if_false]
    rw [run_bind_ok (lazyCheck_ok h3), run_bind_ok (run_getMe s)]
    simp only [h1, h5, Bool.not_true, Bool.false_eq_true, if_false, run_pure]
  · simp only [if_true]
    rw [run_bind_ok (run_getMe s)]
    simp only [h1, Bool.not_true, Bool.false_eq_true, if_false, run_pure]

theorem forM'_decode {s : State} {l : List (Fin 32 × Bool)} (h : ∀ p ∈ l, s.me.Readable p.1) : forM' l (fun p => decodeSource p.1 p.2) s = .ok () s := by
  induction l with
  | nil => rfl
  | cons p l ih =>
    unfold forM'
    rw [run_bind_ok (decodeSource_ok (h p (by simp)))]
    exact ih fun q hq => h q (by simp [hq])

/-- An element-wise operation whose operands pass, with elements left to do. -/
theorem elementWise_ok {s : State} {l : Lane} {vd : Fin 32} {ssew sew : Nat} {x baseOnly : Bool} {sources : List (Fin 32 × Bool)} {prep : Ctx → List Src} {f : ElemFn}
    (h : s.EwReady l vd sew (sources.map (·.1))) (stop : l.stop = none) :
    elementWise l vd ssew sew x baseOnly sources prep f s = .ok () (s.modMe fun c => c.ewDone (s.ewOf l vd ssew sew baseOnly (prep s.me) f) vd x) := by
  obtain ⟨h1, h2, h3⟩ := h
  have am : activeMask l s = .ok s.me.m[l.mreg].toNat s := rfl
  have cut : l.cut = l := by simp [Lane.cut, stop]
  unfold elementWise
  simp only [cut]
  rw [run_bind_ok am]
  rw [run_bind_ok (forM'_decode fun p hp => h1 p.1 (List.mem_map_of_mem hp)), run_bind_ok (decodeDest_ok h2)]
  rw [if_neg (by omega), run_bind_ok (run_getMe s), run_bind_ok (run_modMe _ s)]
  simp only [splitEnd, stop]
  rfl

/-- A comparison whose sources pass, with elements left to do. -/
theorem maskWise_ok {s : State} {l : Lane} {md : Fin 8} {ssew : Nat} {sources : List (Fin 32 × Bool)} {prep : Ctx → List Src} {f : ElemFn}
    (h1 : ∀ p ∈ sources, s.me.Readable p.1) (h3 : l.vstart < l.vl) (stop : l.stop = none) :
    maskWise l md ssew sources prep f s = .ok () (s.modMe fun c => c.maskDone (s.maskEw l md ssew (prep s.me) f) md) := by
  have am : activeMask l s = .ok s.me.m[l.mreg].toNat s := rfl
  have cut : l.cut = l := by simp [Lane.cut, stop]
  unfold maskWise
  simp only [cut]
  rw [run_bind_ok am, run_bind_ok (forM'_decode h1)]
  rw [if_neg (by omega), run_bind_ok (run_getMe s), run_bind_ok (run_modMe _ s)]
  simp only [splitEnd, stop]
  rfl

/-! A view depends on the registers and the vector state alone. -/

theorem sourceView_congr {c d : Ctx} (h1 : c.vc = d.vc) (h2 : c.v = d.v) (r : Fin 32) (w : Nat) : sourceView c r w = sourceView d r w := by
  unfold sourceView Ctx.vlmax; rw [h1, h2]

theorem oldView_congr {c d : Ctx} (h1 : c.vc = d.vc) (h2 : c.v = d.v) (r : Fin 32) (w : Nat) : oldView c r w = oldView d r w := by
  unfold oldView Ctx.vlmax; rw [h1, h2]

theorem State.EwReady.entered {s : State} {l : Lane} {vd : Fin 32} {sew : Nat} {src : List (Fin 32)} (i : Instr) (u : Issue)
    (h : s.EwReady l vd sew src) : (s.entered i u).EwReady l vd sew src := by
  obtain ⟨h1, h2, h3⟩ := h
  unfold State.EwReady Ctx.Readable Ctx.Writable Ctx.Readable at *
  simp only [State.entered_v, State.entered_vc, State.entered_m]
  exact ⟨h1, h2, h3⟩

theorem State.ewOf_entered (s : State) (i : Instr) (u : Issue) (l : Lane) (vd : Fin 32) (ssew sew : Nat) (b : Bool) (srcs : List Src) (f : ElemFn) :
    (s.entered i u).ewOf l vd ssew sew b srcs f = s.ewOf l vd ssew sew b srcs f := by
  unfold State.ewOf
  simp only [State.entered_m]
  rw [oldView_congr (State.entered_vc s i u) (State.entered_v s i u)]

theorem needEntry_ok {s : State} {l : Lane} {n : Nat} (h : (fmtOf (l.ent n)).valid = true) : needEntry l n s = .ok (fmtOf (l.ent n)) s := by
  unfold needEntry
  rw [run_bind_ok (needN_true h _ _ s)]; rfl

theorem needVtypeEntry_ok {s : State} {l : Lane} (h : l.fmt.valid = true) : needVtypeEntry l s = .ok l.fmt s := needEntry_ok h

theorem needKind_ok {s : State} {b : Bool} (h : b = true) : needKind b s = .ok () s := needU_true h _ s

end Sys2Proof.Machine
end

