-- ==== Sys2Proof/Tests/Slice0.lean ====
section
/-! SUPPORT. Tests: ill-formed terms refused, words written out from the encodings, single steps, and for each statement about the model a state and operands that meet its hypotheses. -/

namespace Sys2Proof.Tests

set_option Elab.async false

open Sys2Proof Sys2Proof.Machine

/-- The state after power-up with the current context running, changed by `f`. -/
def wit (f : Ctx → Ctx) : State := State.reset.modMe fun c => f { c with st := .running, pc := 0x1000 }

/-- A context with some scalar registers set. -/
def regs (l : List (Fin 32 × Word)) (c : Ctx) : Ctx := { c with s := l.foldl (fun (v : Vector Word 32) (e : Fin 32 × Word) => v.set e.1.val e.2) c.s }

/-- A held translation of the low gigabyte to the one from 2^30 on, readable, writable and executable, its A and D set. -/
def tran : Trans := { asid := 0, glob := true, va := 0, log2 := 30, leaf := BitVec.ofNat 64 (2 ^ 63 + 2 ^ 60 + 2 ^ 30 + 0xE60), leafPa := 0, chunk := none }

/-- A state whose current core holds that translation. -/
def mapped (s : State) : State := s.modMyCore fun c => { c with tlb := [tran] }

def poolB (s : State) (a n : Nat) (acc : Acc) (off : Nat) : Bool :=
  a % n == 0 && decide (windowLoc s s.cur.core s.me.priv a n acc false = some (.ok (.pool s.cur.core.val off))) && !poolPoisoned s.myCore off n

theorem pool_of {s : State} {a n : Nat} {acc : Acc} {off : Nat} (h : poolB s a n acc off = true) : s.PoolAt a n acc off := by
  simp only [poolB, Bool.and_eq_true, beq_iff_eq, decide_eq_true_eq, Bool.not_eq_true'] at h
  exact ⟨h.1.1, h.1.2, h.2⟩

theorem pools_of {s : State} {es : List Nat} {a off : Nat → Nat} {n : Nat} {acc : Acc} (h : (es.all fun e => poolB s (a e) n acc (off e)) = true) :
    ∀ e ∈ es, s.PoolAt (a e) n acc (off e) := fun e he => pool_of (List.all_eq_true.1 h e he)

theorem mem_at {s : State} {a n : Nat} {acc : Acc} {pa : Nat}
    (h : (match scalarLoc a n acc s with
      | .ok (.mem p _) t => p == pa && decide (t = s)
      | _ => false) = true) : ∃ typ, scalarLoc a n acc s = .ok (.mem pa typ) s := by
  split at h
  · rename_i p typ t e
    simp only [Bool.and_eq_true, beq_iff_eq, decide_eq_true_eq] at h
    obtain ⟨rfl, rfl⟩ := h
    exact ⟨_, e⟩
  · cases h

/-! Hypotheses met: scalar instructions. -/

/-- s1 = −7, s2 = 3, s3 = 0, s4 = −2^63, s5 = −1; s6 in the pool, s7 in main memory, s8 no address, s9 in a peer's pool, s10 odd; s11 empty. -/
def w1 : State := mapped (wit fun c =>
  { regs [(1, -7), (2, 3), (4, BitVec.ofNat 64 (2 ^ 63)), (5, -1), (6, BitVec.ofNat 64 (ownBase + 64)), (7, 0x2000), (8, -16), (9, BitVec.ofNat 64 (peerBase + 8)), (10, 0x2001)] c with
    full := ~~~0x800#32 })

theorem quiet_of {s : State} (h : s.me.land = []) : s.Quiet := .inr (by rw [h]; intro l hl; cases hl)

theorem w1_quiet : w1.Quiet := quiet_of (by decide +kernel)

theorem full_of {s : State} {rs : List (Fin 32)} (h : (rs.all fun r => s.me.isFull r) = true) : s.Full rs := by
  intro r hr; exact List.all_eq_true.1 h r hr

theorem test_wit_ScalarResults : w1.Quiet ∧ w1.Full [1, 2, 3] ∧ w1.Full [0, 0, 0] ∧ w1.Full [1, 0] ∧ w1.Full [31] :=
  ⟨w1_quiet, full_of (by decide +kernel), full_of (by decide +kernel), full_of (by decide +kernel), full_of (by decide +kernel)⟩

/-- Every clause of division: a quotient, −2^63 by −1, 0 by 0, a negative and a positive number by 0. -/
theorem test_wit_DivisionResults : w1.Quiet ∧ w1.Full [1, 2, 3] ∧
    (w1.me.sget 2 ≠ 0 ∧ ¬(w1.me.sget 1 = BitVec.ofNat 64 (2 ^ 63) ∧ w1.me.sget 2 = -1)) ∧
    (w1.Full [4, 5, 3] ∧ w1.me.sget 4 = BitVec.ofNat 64 (2 ^ 63) ∧ w1.me.sget 5 = -1) ∧
    (w1.Full [3, 3, 3] ∧ w1.me.sget 3 = 0) ∧ (w1.me.sget 1).toInt < 0 ∧ 0 < (w1.me.sget 2).toInt :=
  ⟨w1_quiet, full_of (by decide +kernel), by decide +kernel, ⟨full_of (by decide +kernel), rfl, rfl⟩, ⟨full_of (by decide +kernel), rfl⟩, by decide +kernel⟩

/-- Every scalar register but s0 empty, a valid VTYPE entry, no barrier arrived at. -/
def w1e : State := wit fun c => { c with full := 1, vc := { c.vc with vtype := 1 } }

theorem test_wit_ScalarFrameAndWaits : w1.me.isFull 11 = false ∧ (5 : Fin 32) ≠ 0 ∧ (6 : Fin 32) ≠ 5 ∧ w1e.me.isFull 11 = false ∧ w1e.me.isFull 30 = false ∧
    w1e.me.vtFmt.valid = true ∧ (stripPointers ⟨4, 2, 3, 0x3FFF⟩).all (fun p => !w1e.me.isFull p) = true ∧ stripPointers ⟨4, 2, 3, 0x3FFF⟩ ≠ [] ∧ w1e.me.arrived = none ∧
    (Cond.eq ≠ .full ∧ Cond.eq ≠ .empty) ∧
    (∃ r, csrRow 0x010 = some r ∧ r.read ≤ w1e.me.priv.toNat ∧ r.write ≤ w1e.me.priv.toNat) ∧ (∃ r, csrRow 0x030 = some r ∧ r.read ≤ w1e.me.priv.toNat ∧ r.access = .ro) :=
  ⟨by decide +kernel, by decide +kernel, by decide +kernel, by decide +kernel, by decide +kernel, by decide +kernel, by decide +kernel, by decide +kernel, rfl, by decide +kernel,
    ⟨_, rfl, by decide +kernel, by decide +kernel⟩, ⟨_, rfl, by decide +kernel, rfl⟩⟩

/-- The tests of BR: registers full and one empty; equal, unequal, below and not below, signed and not. -/
theorem test_wit_BranchAndJumpResults : w1.Quiet ∧ w1.Full [1, 2] ∧ w1.Full [31] ∧ w1.me.lanesIdle = true ∧
    w1.me.full.getLsbD 11 = false ∧ w1.me.full.getLsbD 1 = true ∧
    w1.me.sget 1 ≠ w1.me.sget 2 ∧ (w1.me.sget 1).toInt < (w1.me.sget 2).toInt ∧ ¬(w1.me.sget 1).toNat < (w1.me.sget 2).toNat ∧
    (w1.me.sget 7 + (4 : BitVec 16).signExtend 64).toNat % 4 = 0 ∧ (w1.me.sget 10 + (0 : BitVec 16).signExtend 64).toNat % 4 ≠ 0 :=
  ⟨w1_quiet, full_of (by decide +kernel), full_of (by decide +kernel), by decide +kernel⟩

/-- LEASE granted at the edge of what it takes: 50,000 µs at 3,301 MHz under a plan that allows it and no current drawn; and refused. -/
def w2 : State := (wit (regs [(1, BitVec.ofNat 64 (50000 + 3301 * 2 ^ 16)), (2, 1)])).modCluster 0 fun k => { k with cinch := { k.cinch with limit := 1000 } }

theorem test_wit_SystemResults : w1.Quiet ∧ w1.Full [3] := ⟨w1_quiet, full_of (by decide +kernel)⟩

theorem test_wit_LeaseResults : w2.Quiet ∧ w2.Full [1, 3] ∧ w2.me.lease = none ∧
    (1 ≤ wbits (w2.me.sget 1) 0 16 ∧ wbits (w2.me.sget 1) 0 16 ≤ 50000 ∧ 3301 ≤ wbits (w2.me.sget 1) 16 12 ∧ wbits (w2.me.sget 1) 16 12 ≤ 3800 ∧ wbits (w2.me.sget 1) 28 36 = 0) ∧
    (wbits (w2.me.sget 1) 16 12 ≤ (w2.cluster 0).cinch.lmax ∧ (w2.cluster 0).cinch.gap = 0 ∧ wbits (w2.me.sget 1) 16 12 ≤ (w2.cluster 0).cinch.cap ∧
      (w2.cluster 0).cinch.milli.foldl (fun x y => x + y) 0 * 3301 * 1000 ≤ 95 * (10 * (w2.cluster 0).cinch.limit) * (w2.cluster 0).cinch.milli.length * coreClock w2 0) ∧
    ¬3301 ≤ wbits (w2.me.sget 2) 16 12 :=
  ⟨quiet_of (by decide +kernel), full_of (by decide +kernel), by decide +kernel⟩

/-- STRIP with two pointers of group 2, 20 elements left and 8 granted, under FP32; and with an invalid entry. -/
def w3 (ent : Word) : State := wit fun c => { regs [(4, 20), (8, 0x2000), (9, 0x4000)] c with vc := { c.vc with vl := 8, vs := 4, vtype := ent } }

def strip1 : PForm := ⟨4, 2, 3, 0x3FFF⟩

theorem test_wit_StripResults : (w3 1).Quiet ∧ stripOk strip1 = true ∧ (∀ e ∈ (w3 1).me.queue, trims e.instr = true → e.noTrim = true) ∧
    (w3 1).me.vtFmt.valid = true ∧ (w3 1).Full (4 :: stripPointers strip1) ∧ (w3 9).Quiet ∧ (w3 9).me.vtFmt.valid = false ∧ (w3 9).me.lanesIdle = true :=
  ⟨quiet_of (by decide +kernel), by decide +kernel, (by intro e he; cases he), by decide +kernel, full_of (by decide +kernel), quiet_of (by decide +kernel), by decide +kernel⟩

/-- A context in a handler, at S with PPRIV N; `vec` sets CAUSE.VEC, `st` the rest of STATUS. -/
def w4 (cause st : Word) : State := wit fun c => { c with tr := { c.tr with cause, status := st, epc := 0x3000, tvec := 0x4001 } }

theorem test_wit_TrapEntryAndReturn :
    ((w4 0 0).ctx w1.cur).tr.status.getLsbD 4 = false ∧ ((w4 0 0).ctx w1.cur).tr.status.getLsbD (8 + Cause.misaligned.code / 128) = false ∧
    (w4 0 0x11).Quiet ∧ 1 ≤ wbits (w4 0 0x11).me.tr.status 0 2 ∧ wbits (w4 0 0x11).me.tr.status 2 2 ≤ wbits (w4 0 0x11).me.tr.status 0 2 ∧
    (w4 0x400 0x11).me.tr.cause.getLsbD 10 = true ∧ (w4 0x400 0x11).me.queue = [] ∧ (w4 0x400 0x11).me.pendTraps = [] :=
  ⟨by decide +kernel, by decide +kernel, quiet_of (by decide +kernel), by decide +kernel⟩

/-- VIOTA at the head of a queue with nothing in flight, outside a handler and inside one; and a cause that is taken as a trap. -/
def w6 (st : Word) : State := (w4 0 st).modMe fun c =>
  { c with queue := [{ instr := .viota ⟨0, 0⟩, pc := 0x2000, cap := capture c, scalar := 0, priv := 0, noTrim := false, num := 1, stale := false }] }

theorem test_wit_QueueTrap :
    ([(0 : Word), 0x10].all fun st => ((w6 st).me.queue.length == 1 && (w6 st).me.st == .running && (w6 st).me.land.isEmpty &&
        (List.finRange 32).all (fun r => (w6 st).me.v[r].full && !(w6 st).myCore.slots[r].mld) && (w6 st).myCore.arr.ops.isEmpty)) = true ∧
    (w6 0).me.tr.status.getLsbD 4 = false ∧ (w6 0).me.tr.status.getLsbD (8 + Cause.misaligned.code / 128) = false ∧ (w6 0x10).me.tr.status.getLsbD 4 = true ∧
    Cause.misaligned.delivery = .trap := by decide +kernel

/-- A context that has faulted at its PC `n` times more. -/
def w5 (n : Nat) : State := wit fun c => { c with lastFault := some (0x1000, 0x5000), refaults := n }

/-- In a handler; class 1 redirected outside one; a fourth repeat of a fault, and an earlier one. -/
theorem test_wit_StopsWithoutDelivery :
    ((w4 0 0x11).ctx w1.cur).tr.status.getLsbD 4 = true ∧
    (((w4 0 0x200).ctx w1.cur).tr.status.getLsbD 4 = false ∧ ((w4 0 0x200).ctx w1.cur).tr.status.getLsbD (8 + Cause.misaligned.code / 128) = false ∧
      ((w4 0 0x400).ctx w1.cur).tr.status.getLsbD (8 + Cause.misaligned.code / 128) = true) ∧
    ((w5 3).ctx w1.cur).tr.status.getLsbD 4 = false ∧ ((w5 3).ctx w1.cur).lastFault = some (0x1000, 0x5000) ∧ 3 ≤ ((w5 3).ctx w1.cur).refaults ∧
    ((w5 2).ctx w1.cur).lastFault = some (0x1000, 0x5000) ∧ ((w5 2).ctx w1.cur).refaults < 3 := by decide +kernel

/-- At N; and at S with PPRIV F. -/
theorem test_wit_TrapsTakenAtOnce : w1.Full [1] ∧ w1.me.lanesIdle = true ∧ w1.me.tr.status.getLsbD 4 = false ∧ w1.me.tr.status.getLsbD 8 = false ∧
    wbits w1.me.tr.status 0 2 = 0 ∧ (w4 0 9).me.lanesIdle = true ∧ wbits (w4 0 9).me.tr.status 0 2 < wbits (w4 0 9).me.tr.status 2 2 :=
  ⟨full_of (by decide +kernel), by decide +kernel⟩

theorem test_wit_DecodeAndFetchTraps : w1.me.lanesIdle = true ∧ w1.me.tr.status.getLsbD 4 = false ∧ w1.me.tr.status.getLsbD 8 = false ∧
    w1.me.tr.status.getLsbD 10 = false ∧ w1.me.tr.status.getLsbD 13 = false ∧ w1.me.lastFault ≠ some (w1.me.pc, 0x5000) := by decide +kernel

/-- A pool address at which every width is aligned, one through a peer window, and one of main memory; values held back or not. -/
theorem test_wit_LoadAndStoreResults : w1.Quiet ∧ w1.Full [6, 12] ∧ w1.Full [9, 12] ∧ stOk ⟨12, 6, .d, .plain, 0⟩ = true ∧ w1.me.stores = [] ∧
    w1.PeerAt ((w1.me.sget 9 + (0 : BitVec 11).signExtend 64).toNat) 8 0 8 ∧
    w1.PoolAt ((w1.me.sget 6 + (0 : BitVec 11).signExtend 64).toNat) 8 .read 64 ∧ w1.PoolAt ((w1.me.sget 6).toNat) 1 .write 64 ∧
    w1.MemAt ((w1.me.sget 7 + (0 : BitVec 11).signExtend 64).toNat) 8 .read (2 ^ 30 + 0x2000) w1 ∧ w1.MemAt (w1.me.sget 7).toNat 8 .write (2 ^ 30 + 0x2000) w1 ∧
    w1.late = false ∧ ({ w1 with late := true } : State).late = true ∧ (12 : Fin 32) ≠ 0 :=
  ⟨w1_quiet, full_of (by decide +kernel), full_of (by decide +kernel), rfl, rfl, ⟨by decide +kernel, by decide +kernel⟩, ⟨by decide +kernel, by decide +kernel⟩,
    ⟨rfl, by decide +kernel⟩, ⟨mem_at (by decide +kernel), by decide +kernel⟩, ⟨mem_at (by decide +kernel), by decide +kernel⟩, by decide +kernel⟩

theorem test_wit_AtomicResults : w1.Quiet ∧ w1.Full [6, 1, 2] ∧ w1.Full [7, 1, 2] ∧ w1.me.stores = [] ∧ w1.PoolAt (w1.me.sget 6).toNat 8 .write 64 ∧ w1.late = false ∧
    w1.MemAt (w1.me.sget 7).toNat 8 .write (2 ^ 30 + 0x2000) w1 :=
  ⟨w1_quiet, full_of (by decide +kernel), full_of (by decide +kernel), rfl, ⟨by decide +kernel, by decide +kernel⟩, by decide +kernel,
    ⟨mem_at (by decide +kernel), by decide +kernel⟩⟩

/-- No address, a misaligned one, a peer's pool. -/
theorem test_wit_ScalarAccessCauses : w1.me.lanesIdle = true ∧ w1.Full [8, 1] ∧ 2 ^ 56 ≤ (w1.me.sget 8 + (0 : BitVec 11).signExtend 64).toNat ∧
    ((w1.me.sget 10).toNat < 2 ^ 56 ∧ (w1.me.sget 10).toNat % 8 ≠ 0 ∧ (w1.me.sget 10).toNat % 2 ≠ 0) ∧
    peerBase ≤ (w1.me.sget 9).toNat ∧ (w1.me.sget 9).toNat < peerBase + 8 * poolSize ∧ (w1.me.sget 9).toNat % 8 = 0 ∧ w1.me.isFull 2 = true :=
  ⟨by decide +kernel, full_of (by decide +kernel), by decide +kernel⟩

/-! Hypotheses met: control registers, synchronisation, streams and commands. -/

/-- A computation answers, and what it answers with its state is as asked. -/
def okThat {α : Type} (r : EStateM.Result Exc State α) (p : α → State → Bool) : Bool :=
  match r with
  | .ok a t => p a t
  | .error _ _ => false

/-- Bytes of the current core's pool set: offset, length, number. -/
def pooled (l : List (Nat × Nat × Nat)) (s : State) : State := s.modMyCore fun c => { c with pool := l.foldl (fun (m : Memory) (e : Nat × Nat × Nat) => memWrite m e.1 e.2.1 e.2.2) c.pool }

/-- A context at S. -/
def sup (c : Ctx) : Ctx := { c with tr := { c.tr with status := 1 } }

/-- A context with an entry in its queue, or with a vector register that has not landed. -/
def busy (c : Ctx) : Ctx := { c with v := c.v.set 0 { VReg.reset with full := false } }

def w10 : State := wit (fun c => sup (regs [(1, 5), (2, 3)] c))

/-- The first and the last control register of each range, those whose read waits with the lanes empty, and one that N may not read. -/
theorem test_wit_CsrReads : w10.Quiet ∧ w10.Full [3] ∧
    (∀ n ∈ [0x000, 0x00C, 0x010, 0x011, 0x020, 0x02F, 0x030, 0x040, 0x048, 0x04F, 0x050, 0x051, 0x100, 0x107, 0x110, 0x120, 0x130],
      ((csrRow n).any fun row => decide (row.read ≤ w10.me.priv.toNat)) = true) ∧ lanesDone w10 w10.cur = true ∧ w10.me.lease = none :=
  ⟨quiet_of (by decide +kernel), full_of (by decide +kernel), by decide +kernel⟩

/-- Every register number of the statement, the ends of AMAXH, at S with the lanes empty. -/
theorem test_wit_CsrWrites : w10.Quiet ∧ w10.Full [1, 3] ∧ 1 ≤ w10.me.priv.toNat ∧ lanesDone w10 w10.cur = true ∧
    (∀ f ∈ [(⟨3, 1, 0x003⟩ : CForm), ⟨3, 1, 0x005⟩, ⟨3, 1, 0x020⟩, ⟨3, 1, 0x02F⟩, ⟨3, 1, 0x100⟩, ⟨3, 1, 0x107⟩, ⟨3, 1, 0x110⟩], csrRow f.csr.toNat ≠ none) :=
  ⟨quiet_of (by decide +kernel), full_of (by decide +kernel), by decide +kernel⟩

/-- ERULE and VDECL taken and VDECL ignored; a VTYPE that holds fewer elements than VL. -/
def w10v : State := w10.modMe fun c => { c with vc := { c.vc with vl := 600, vtype := 2 } }

theorem test_wit_CsrVectorWrites : w10v.Quiet ∧ w10v.Full [1, 2, 3] ∧ wbits (w10v.me.sget 1) 0 2 ≠ 3 ∧ wbits (w10v.me.sget 1) 6 2 ≠ 3 ∧ wbits (w10v.me.sget 2) 0 2 = 3 ∧
    (∀ e ∈ w10v.me.queue, trims e.instr = true → e.noTrim = true) ∧ (fmtOf (entWord w10v.me.ents (wbits (0 : Word) 0 4))).valid = true ∧
    w10v.me.vlmax / (fmtOf (entWord w10v.me.ents (wbits (0 : Word) 0 4))).wid < w10v.me.vc.vl.toNat ∧
    (w10v.me.vc.vl.toNat ≤ w10v.me.vlmax / (fmtOf (entWord w10v.me.ents 3)).wid) ∧ lanesDone w10v w10v.cur = true :=
  ⟨quiet_of (by decide +kernel), full_of (by decide +kernel), by decide +kernel, by decide +kernel, by decide +kernel, (by intro e he; cases he), by decide +kernel⟩

/-- ERULE with each reserved field, a number not listed, and the ends of the supervisor's numbers at N. -/
theorem test_wit_CsrSpecialWrites : w10.Quiet ∧ w10.Full [1, 3] ∧ lanesDone w10 w10.cur = true ∧ 1 ≤ w10.me.priv.toNat ∧ w10.me.lanesIdle = true ∧
    wbits w10.me.vc.vl 0 2 = 0 ∧ wbits (w10.me.sget 2) 0 2 = 3 ∧ wbits (0xC0 : Word) 6 2 = 3 ∧ csrRow 0x00D = none ∧ csrRow 0x106 ≠ none ∧ csrRow 0x009 ≠ none ∧ csrRow 0x110 ≠ none ∧
    w1.me.priv = 0 ∧ w1.me.lanesIdle = true :=
  ⟨quiet_of (by decide +kernel), full_of (by decide +kernel), by decide +kernel⟩

/-- A region of every cluster and engine context, and the running context in it. -/
def reg1 : Region :=
  { va := 0x8000, asid := 0, lastDie := 7, spawned := 0
    block := BitVec.ofNat 2048 (0x1FF * 2 ^ 96 + (2 ^ 128 - 1) * 2 ^ 192 + 0xFFFF * 2 ^ 352 + 0xFF * 2 ^ 368 + 128 * 2 ^ 384) }

def inRegion (s : State) : State := ({ s with regions := [reg1] } : State).modMe fun c => { c with rcb := 0x8000 }

/-- s1 to s4: handles of a Tug context, the array, a walk context, and none; s5 = 0, s6 = 1. -/
def w11 : State := inRegion (wit (regs [(1, 15), (2, 0x1000), (3, 0x2007), (4, 0x3000), (6, 1)]))

def tug15 : TugId := { cluster := 0, t := 15 }

def walk7 : WalkId := { walker := 0, k := 7 }

theorem test_wit_TimelineResults : w11.Quiet ∧ w11.Full [1, 5, 6] ∧ w11.Full [2, 5] ∧ w11.Full [3, 5] ∧
    handleOf w11 (w11.me.sget 1) = some (.tug tug15) ∧ (w11.tug tug15).queue.length < 16 ∧
    handleOf w11 (w11.me.sget 2) = some .array ∧ handleOf w11 (w11.me.sget 3) = some (.walk walk7) ∧ (w11.walk walk7).queue.length < 8 ∧
    (w11.me.sget 5).toNat ≤ timelineOf w11 (.tug tug15) ∧ timelineOf w11 (.tug tug15) < (w11.me.sget 6).toNat ∧
    handleOf w11 (w11.me.sget 4) = none ∧ w11.me.lanesIdle = true :=
  ⟨quiet_of (by decide +kernel), full_of (by decide +kernel), full_of (by decide +kernel), full_of (by decide +kernel), by decide +kernel⟩

/-- Full engine contexts, and an array operation in the queue. -/
def w11full : State :=
  ((w11.modTug tug15 fun t => { t with queue := List.replicate 16 (tugSignal 1 w11.cur (sigNow w11 w11.cur)) }).modWalk walk7 fun k =>
    { k with queue := List.replicate 8 (newWalkOp w11 1 .signal w11.cur) }).modMe fun c =>
      { c with queue := [{ instr := .mzero { acc := 15, hint := 0 }, pc := 0, cap := capture c, scalar := 0, priv := 0, noTrim := false, num := 1, stale := false }] }

theorem test_wit_SignalsWait : w11full.Quiet ∧ w11full.Full [1, 2, 3, 5] ∧ handleOf w11full (w11full.me.sget 1) = some (.tug tug15) ∧ 16 ≤ (w11full.tug tug15).queue.length ∧
    handleOf w11full (w11full.me.sget 2) = some .array ∧ w11full.me.queue.any (fun e => arrayOp e.instr) = true ∧
    handleOf w11full (w11full.me.sget 3) = some (.walk walk7) ∧ 8 ≤ (w11full.walk walk7).queue.length :=
  ⟨quiet_of (by decide +kernel), full_of (by decide +kernel), by decide +kernel⟩

/-- Tags 3 and 63 recorded; s1 asks for both, s2 for none recorded, s3 for one recorded and one not; s4 to s7 are participants: 1, 32, 0, 33. -/
def w12 : State := wit fun c => { regs [(1, BitVec.ofNat 64 (2 ^ 63 + 8)), (2, 16), (3, 24), (4, 1), (5, 32), (7, 33)] c with tags := BitVec.ofNat 64 (2 ^ 63 + 8) }

/-- Two arrivals of three counted at barrier 15, which the context has arrived at. -/
def w13 (p : Nat) : State := (w12.modMe fun c => { c with arrived := some (15, p) }).modCluster 0 fun k => { k with bars := k.bars.set 15 { phase := 4, n := 3, count := 2 } }

theorem test_wit_TagAndBarrierResults : w12.Quiet ∧ (w13 3).Quiet ∧ w12.Full [1, 2, 3, 4, 5, 6, 7] ∧ w12.me.tags &&& w12.me.sget 1 ≠ 0 ∧
    w12.me.tags &&& w12.me.sget 1 = w12.me.sget 1 ∧ w12.me.tags &&& w12.me.sget 2 = 0 ∧ w12.me.tags &&& w12.me.sget 3 ≠ w12.me.sget 3 ∧
    ((w12.me.tags &&& w12.me.sget 1).getLsbD 3 = true ∧ ∀ j, j < 3 → (w12.me.tags &&& w12.me.sget 1).getLsbD j = false) ∧
    lanesDone w12 w12.cur = true ∧ w12.me.arrived = none ∧ (w12.me.sget 4).toNat = 1 ∧ (w12.me.sget 5).toNat = 32 ∧
    (w12.me.sget 6).toNat = 0 ∧ 32 < (w12.me.sget 7).toNat ∧ (w12.cluster 0).bars[(0 : Fin 16)].count = 0 ∧
    ((w13 4).cluster 0).bars[(15 : Fin 16)].count ≠ 0 ∧ ((w13 4).cluster 0).bars[(15 : Fin 16)].n ≠ 1 ∧
    lanesDone (w13 3) (w13 3).cur = true ∧ (w13 3).me.arrived = some (15, 3) ∧ 3 < ((w13 3).cluster 0).bars[(15 : Fin 16)].phase ∧
    (w13 4).me.arrived = some (15, 4) ∧ ((w13 4).cluster 0).bars[(15 : Fin 16)].phase ≤ 4 :=
  ⟨quiet_of (by decide +kernel), quiet_of (by decide +kernel), full_of (by decide +kernel), by decide +kernel⟩

/-- Ring 0 not initialised; ring 7 with its last slot full, or marked, or empty. -/
def w14 (fill flt : BitVec 64) : State :=
  (wit (regs [(1, 0x1000), (2, BitVec.ofNat 64 (64 * 2 ^ 32 + 64))])).modMyCore fun c =>
    { c with rings := c.rings.set 7 { Ring.reset with init := true, hdr := 0x1000, slotsz := 64, nslot := 64, ridx := 63, fill, flt, exps := List.replicate 64 0, lands := List.replicate 64 0 } }

theorem test_wit_RingResults : (w14 0 0).Quiet ∧ (w14 (BitVec.ofNat 64 (2 ^ 63)) 0).Quiet ∧ (w14 0 0).Full [1, 2] ∧ ringOk (w14 0 0).myCore.part ((w14 0 0).me.sget 1) ((w14 0 0).me.sget 2) = true ∧
    (w14 0 0).myCore.rings[(0 : Fin 8)].init = false ∧ (w14 0 0).myCore.rings[(7 : Fin 8)].init = true ∧
    (w14 0 0).myCore.rings[(7 : Fin 8)].taken &&& ~~~(w14 0 0).myCore.rings[(7 : Fin 8)].fill = 0 ∧
    (w14 0 0).myCore.rings[(7 : Fin 8)].fill.getLsbD 63 = false ∧
    (w14 (BitVec.ofNat 64 (2 ^ 63)) 0).myCore.rings[(7 : Fin 8)].fill.getLsbD 63 = true ∧ (w14 (BitVec.ofNat 64 (2 ^ 63)) 0).myCore.rings[(7 : Fin 8)].flt.getLsbD 63 = false ∧
    (w14 (BitVec.ofNat 64 (2 ^ 63)) (BitVec.ofNat 64 (2 ^ 63))).myCore.rings[(7 : Fin 8)].flt.getLsbD 63 = true ∧ (w14 0 0).me.lanesIdle = true :=
  ⟨quiet_of (by decide +kernel), quiet_of (by decide +kernel), full_of (by decide +kernel), by decide +kernel⟩

/-- Regions of 4 KiB and of 1 TiB, and one too small; an object in the pool and one misaligned; a full set; the object's word free, held by the context, and by another. -/
def w15 (n : Nat) (word : Nat) : State := pooled [(64, 8, word)] (wit fun c =>
  { regs [(1, BitVec.ofNat 64 (ownBase + 64)), (2, 12), (3, 40), (4, 11), (5, BitVec.ofNat 64 (ownBase + 65))] c with
    binds := (List.range n).map fun i => { idx := i, obj := 0, span := 12 } })

theorem test_wit_BindingAndLockResults : (w15 0 0).Quiet ∧ (w15 0 0).Full [1, 2, 3, 4, 5] ∧ (w15 0 0).PoolAt ((w15 0 0).me.sget 1).toNat 8 .write 64 ∧
    (w15 0 (2 ^ 63)).PoolAt ((w15 0 0).me.sget 1).toNat 8 .write 64 ∧ (w15 0 0).me.stores = [] ∧ ((w15 0 0).me.sget 1).toNat % 8 = 0 ∧ ((w15 0 0).me.sget 5).toNat % 8 ≠ 0 ∧
    (12 ≤ wbits ((w15 0 0).me.sget 2) 0 6 ∧ wbits ((w15 0 0).me.sget 2) 6 6 = 0) ∧ (wbits ((w15 0 0).me.sget 3) 0 6 ≤ 40 ∧ wbits ((w15 0 0).me.sget 3) 6 6 = 0) ∧
    ¬12 ≤ wbits ((w15 0 0).me.sget 4) 0 6 ∧ (w15 15 0).me.binds.length < 16 ∧ 16 ≤ (w15 16 0).me.binds.length ∧ (w15 0 0).me.lanesIdle = true ∧
    memRead (w15 0 0).myCore.pool 64 8 = 0 ∧ (∀ w ∈ (w15 0 0).acqs, w.2 ≠ 2 ^ 70 + 64) ∧ memRead (w15 0 (2 ^ 63)).myCore.pool 64 8 = 2 ^ 63 ∧
    lanesDone (w15 0 (2 ^ 63)) w1.cur = true ∧ enginesDone (w15 0 (2 ^ 63)) w1.cur = true ∧ memRead (w15 0 5).myCore.pool 64 8 ≠ 2 ^ 63 :=
  ⟨quiet_of (by decide +kernel), full_of (by decide +kernel), pool_of (by decide +kernel), pool_of (by decide +kernel), by decide +kernel⟩

/-- A queue entry that uses a replaced format entry. -/
def stale (c : Ctx) : Ctx :=
  { c with queue := [{ instr := .viota ⟨0, 0⟩, pc := 0, cap := { capture c with ents := c.ents.set 0 1 }, scalar := 0, priv := 0, noTrim := false, num := 1, stale := true }] }

theorem test_wit_FenceResults : w10.Quiet ∧ (wit stale).Quiet ∧ (wit fun c => sup (busy c)).Quiet ∧ lanesDone w10 w10.cur = true ∧ enginesDone w10 w10.cur = true ∧
    staleEntries w10 w10.cur = false ∧ w10.me.land = [] ∧ 1 ≤ w10.me.priv.toNat ∧ staleEntries (wit stale) w1.cur = true ∧
    lanesDone (wit fun c => sup (busy c)) w1.cur = false ∧ 1 ≤ (wit fun c => sup (busy c)).me.priv.toNat :=
  ⟨quiet_of (by decide +kernel), quiet_of (by decide +kernel), quiet_of (by decide +kernel), by decide +kernel⟩

/-- The running context is node 0 of a graph whose node 2 runs elsewhere; node 1 waits for node 0 alone, and node 3 for node 0 and another. It holds a binding and slot 5, context 1 slot 6. -/
def nodeAt (st : NodeState) (succs : List Nat) (preds : Nat) : GNode := { newNode 0 succs none with st, preds }

def endGraph1 : Graph :=
  { rcb := 0, asid := 0, header := 0, nodes := [nodeAt .running [1, 3] 0, nodeAt .waiting [] 1, nodeAt .running [] 0, nodeAt .waiting [] 2], st := .active, spawned := false, handle := 0, cq := 0, sq := 0, seq := 0
    reserved := [], breached := false }

def w15n : State := ({ wit (fun c => { c with node := some ⟨7, 0⟩, binds := [{ idx := 0, obj := 0, span := 12 }] }) with graphs := [(7, endGraph1)] } : State).modMyCore fun k =>
  { k with slots := (k.slots.set 5 { Slot.reset with st := .claimed, owner := 0 }).set 6 { Slot.reset with st := .claimed, owner := 1 } }

theorem test_wit_NodeEnds : w10.me.node = none ∧ w15n.me.node = some ⟨7, 0⟩ ∧ w15n.me.binds ≠ [] ∧ (w15n.myCore.slots[(5 : Fin 32)]).ownedBy w15n.cur.lc = true ∧
    (w15n.myCore.slots[(6 : Fin 32)]).ownedBy w15n.cur.lc = false ∧ tabFind w15n.graphs 7 = some endGraph1 ∧ endGraph1.nodes[0]? = some (nodeAt .running [1, 3] 0) ∧
    endGraph1.nodes[2]? = some (nodeAt .running [] 0) ∧ endGraph1.nodes[1]? = some (nodeAt .waiting [] 1) ∧ (1 ∈ (nodeAt .running [1, 3] 0).succs ∧ 1 - (nodeAt .running [1, 3] 0).succs.count 1 = 0) ∧
    endGraph1.nodes[3]? = some (nodeAt .waiting [] 2) ∧ ¬2 - (nodeAt .running [1, 3] 0).succs.count 3 = 0 := by decide +kernel

/-- A descriptor of 16 elements of entry 0 at pool offset 0x200, and one whose COUNT0 is 0 at 0x240; stream register 15 bound, at the end of its span and writing or not. -/
def w16 (bound : Bool) : State := pooled [(0x200, 64, ownBase + 16 * 2 ^ 128 + 4 * 2 ^ 256), (0x240, 64, ownBase)] (wit fun c =>
  { regs [(1, BitVec.ofNat 64 (ownBase + 0x200)), (2, BitVec.ofNat 64 (ownBase + 0x240)), (3, BitVec.ofNat 64 (ownBase + 0x201)), (4, 16)] c with
    q := c.q.set 15 (if bound then QReg.bind { Desc.reset with base := 0x2000, count := #v[16, 0, 0, 0], stride := #v[4, 0, 0, 0] } else QReg.reset) })

theorem test_wit_StreamRegisterResults : (w16 true).Quiet ∧ (w16 false).Quiet ∧ (w16 true).Full [1, 2, 3, 4] ∧ (∀ e ∈ (w16 true).me.queue, namesQ e.instr ≠ some 15) ∧
    (w16 true).myCore.arr.ops = [] ∧ ((w16 true).me.sget 3).toNat % 64 ≠ 0 ∧ ((w16 true).me.sget 1).toNat % 64 = 0 ∧ ((w16 true).me.sget 2).toNat % 64 = 0 ∧
    okThat (readWords ((w16 true).me.sget 1).toNat 8 (w16 true)) (fun v _ => descCheck (descOf v) 32 == 0) = true ∧
    okThat (readWords ((w16 true).me.sget 2).toNat 8 (w16 true)) (fun v _ => descCheck (descOf v) 32 != 0) = true ∧
    (w16 true).me.q[(15 : Fin 16)].bound = true ∧ wbits ((w16 true).me.sget 4) 48 16 = 0 ∧ (w16 true).me.q[(15 : Fin 16)].desc.lay = false ∧
    (w16 false).me.q[(15 : Fin 16)].bound = false ∧ (w16 true).me.lanesIdle = true ∧ (w16 false).me.lanesIdle = true :=
  ⟨quiet_of (by decide +kernel), quiet_of (by decide +kernel), full_of (by decide +kernel), (by intro e he; cases he), by decide +kernel⟩

/-- FTWR: a word that passes at both ends of the entries, one that fails, and an entry below 8. VSETL and VSHAPE: a count above Lim, rows of a given length, a length of 0. -/
def w17 (ent : Word) : State := wit fun c => { regs [(1, preset 7), (2, BitVec.ofNat 64 (2 ^ 63 + 1)), (3, 100000), (4, 12), (5, 40)] c with vc := { c.vc with vtype := ent } }

/-- The same with a declaration of 16 registers pending. -/
def w17dec : State := (w17 0).modMe fun c => { c with vc := { c.vc with cnt := 1, pend := true } }

theorem test_wit_FormatAndLengthResults : (w17 0).Quiet ∧ (w17 8).Quiet ∧ (w17 0).Full [1, 2, 3, 4, 5, 6, 7] ∧ (w17dec.Quiet ∧ w17dec.me.vtFmt.valid = true ∧
      w17dec.me.vc.pend = true ∧ lanesDone w17dec w17dec.cur = true) ∧ (∀ e ∈ (w17 0).me.queue, trims e.instr = true → e.noTrim = true) ∧ entryCheck 8 ((w17 0).me.sget 1) = 0 ∧ entryCheck 15 ((w17 0).me.sget 1) = 0 ∧
    entryCheck 9 ((w17 0).me.sget 2) ≠ 0 ∧ entryCheck 7 ((w17 0).me.sget 1) ≠ 0 ∧
    (w17 0).me.vtFmt.valid = true ∧ (w17 0).me.vc.pend = false ∧ (w17 0).me.vlmax / (w17 0).me.vtFmt.wid < ((w17 0).me.sget 3).toNat ∧
    ((w17 0).me.sget 4).toNat < (w17 0).me.vlmax / (w17 0).me.vtFmt.wid ∧ (w17 0).me.lanesIdle = true ∧ (w17 8).me.vtFmt.valid = false ∧ (w17 8).me.lanesIdle = true :=
  ⟨quiet_of (by decide +kernel), quiet_of (by decide +kernel), full_of (by decide +kernel), ⟨quiet_of (by decide +kernel), by decide +kernel⟩, (by intro e he; cases he),
    by decide +kernel⟩

/-- A VTYPE that holds fewer elements than VL, and one that holds them; a declaration and the reserved one. -/
def w18 : State := wit fun c => { regs [(2, 3), (3, 1), (4, 9)] c with vc := { c.vc with vl := 600, vtype := 2 } }

theorem test_wit_VectorStateWrites : w18.Quiet ∧ w18.Full [1, 2, 3, 4, 5] ∧ wbits (w18.me.sget 2) 0 2 = 3 ∧ wbits (w18.me.sget 3) 0 2 ≠ 3 ∧
    (∀ e ∈ w18.me.queue, trims e.instr = true → e.noTrim = true) ∧
    ((fmtOf (entWord w18.me.ents 0)).valid = true ∧ w18.me.vlmax / (fmtOf (entWord w18.me.ents 0)).wid < w18.me.vc.vl.toNat) ∧
    ((fmtOf (entWord w18.me.ents 3)).valid = true ∧ w18.me.vc.vl.toNat ≤ w18.me.vlmax / (fmtOf (entWord w18.me.ents 3)).wid) ∧
    (fmtOf (entWord w18.me.ents 9)).valid = false ∧ lanesDone w18 w18.cur = true :=
  ⟨quiet_of (by decide +kernel), full_of (by decide +kernel), by decide +kernel, by decide +kernel, (by intro e he; cases he), by decide +kernel⟩

/-- A TCOPY block of 64 bytes to slot 5 of core 0 at pool offset 0x400; s2 names context 15, the last. Slot 5 is the context's own. -/
def tcopyBlock : Nat := 1 * 2 ^ 48 + 1 * 2 ^ 34 + 8 + ownBase * 2 ^ 64 + 5 * 2 ^ 128 + 64 * 2 ^ 192

def w19 : State := inRegion (pooled [(0x400, 128, tcopyBlock)] ((wit (regs [(1, BitVec.ofNat 64 (ownBase + 0x400)), (2, 15)])).modMyCore fun c =>
  { c with slots := c.slots.set 5 { Slot.reset with st := .claimed, owner := 0 } }))

/-- A tree with a root, FP32 keys, sums and values, for descriptor and walk context; a query block. -/
def treeBlock : Nat :=
  1 * 2 ^ 32 + (ownBase + 0x1000) * 2 ^ 128 + 16 * 2 ^ 192 + (ownBase + 0x8000) * 2 ^ 256 + 16 * 2 ^ 320 + 4 * 2 ^ 384 + 4 * 2 ^ 400 + 2 * 2 ^ 440 + 2 * 2 ^ 448

def queryBlock : Nat := ownBase + 1 * 2 ^ 64 + 16 * 2 ^ 96

def w20 (tree : Option Tree) (closed : Bool) : State := inRegion (pooled [(0x400, 128, treeBlock), (0x500, 32, queryBlock)] (((wit (regs
  [(1, BitVec.ofNat 64 (ownBase + 0x400)), (2, 0x2007), (3, BitVec.ofNat 64 (ownBase + 0x500))])).modWalk walk7 fun w => { w with tree, closed }).modMyCore fun c =>
  { c with rings := c.rings.set 0 { Ring.reset with init := true, slotsz := 192, nslot := 4 } }))

def tree1 : Tree := treeOf (BitVec.ofNat 64 (ownBase + 0x400)) treeBlock

theorem test_wit_EngineCommandsQueue :
    (w19.Quiet ∧ w19.Full [1, 2, 3] ∧ (w19.me.sget 2).toNat < 16 ∧ tugShare w19 w19.me.rcb tug15 = true ∧
      okThat (readBlock 0 (w19.me.sget 1) w19) (fun raw u => decide ((u.tug tug15).queue.length < 16 ∧ cmdDkind raw = 1 ∧ cmdDst raw = 5 ∧ (u.myCore.slots[(5 : Fin 32)]).ownedBy 0 = true)) = true ∧
      okThat (readBlock 6 (w19.me.sget 1) w19) (fun _ u => decide ((u.tug tug15).queue.length < 16)) = true ∧
      (w19.me.kept ++ w19.me.queue).all (fun e => !claims 5 e) = true) ∧
    ((w20 none true).Quiet ∧ (w20 none true).Full [1, 2, 3, 4] ∧ handleOf (w20 none true) ((w20 none true).me.sget 2) = some (.walk walk7) ∧
      walk7.walker.val / 4 = w1.cur.core.val / 128 ∧ ((w20 none true).walk walk7).queue.length < 8 ∧ ((w20 none true).walk walk7).tree = none ∧ (w20 none true).me.lanesIdle = true ∧
      ((w20 none true).walk walk7).queue = [] ∧ (w20 none true).me.sget 1 ≠ 0 ∧ ((w20 none true).me.sget 1).toNat % 64 = 0 ∧
      okThat (readWords ((w20 none true).me.sget 1).toNat 16 (w20 none true)) (fun d u => okThat (checkTree ((w20 none true).me.sget 1) d (w20 none true).me.ents u) fun t _ => t == tree1) = true) ∧
    ((w20 (some tree1) false).Quiet ∧ ((w20 (some tree1) false).walk walk7).closed = false ∧ ((w20 (some tree1) false).walk walk7).tree = some tree1 ∧
      (∀ e ∈ [tree1.kent, tree1.sent, tree1.vent], (fmtOf (entWord (w20 (some tree1) false).me.ents e)).valid = true) ∧
      ((w20 (some tree1) false).me.sget 3).toNat % 8 = 0 ∧
      okThat (readWords ((w20 (some tree1) false).me.sget 3).toNat 4 (w20 (some tree1) false)) (fun q u =>
        okThat (checkQuery tree1 (w20 (some tree1) false).me.ents q (fun c => if c = 0 then some 0 else none) u) fun _ v => decide ((v.walk walk7).queue.length < 8)) = true) :=
  ⟨⟨quiet_of (by decide +kernel), full_of (by decide +kernel), by decide +kernel⟩,
    ⟨quiet_of (by decide +kernel), full_of (by decide +kernel), by decide +kernel⟩,
    ⟨quiet_of (by decide +kernel), by decide +kernel⟩⟩

/-- A V node's descriptor at pool offset 0x400; s2 is no multiple of 64. The routine table of an address space at 0x2000: two entries. -/
def w21 (top : Nat) : State := inRegion (pooled [(0x400, 128, 0x78 * 2 ^ 256), (0x7F8, 8, top)]
  (wit (regs [(1, BitVec.ofNat 64 (ownBase + 0x400)), (2, 65), (30, BitVec.ofNat 64 (ownBase + 0x800))])))

def w22 : State :=
  let s := mapped (w21 0)
  { s with mem := memWrite (memWrite (memWrite s.mem 0 8 (2 ^ 63)) 8 8 0x2000) (2 ^ 30 + 0x2000) 16 (2 + 0x3000 * 2 ^ 64) }

/-- The same with the slot below s30 in main memory, at 0x4000, and a page of the scratchpad where every word of a descriptor lies. -/
def w23 : State := w22.modMe (regs [(30, 0x4008)])

def same (s : State) (r : EStateM.Result Exc State AsidEntry) : Bool := okThat r fun e u => decide (u = s) && decide (e.codeBase = 0x2000)

theorem test_wit_SpawnAndEmulation :
    ((w21 0).Quiet ∧ (w21 0).Full [1, 2, 3] ∧ (∀ i ∈ List.range 16, (w21 0).PoolAt (((w21 0).me.sget 1).toNat + 8 * i) 8 .read (0x400 + 8 * i)) ∧ (w21 0).me.stores = [] ∧
      lanesDone (w21 0) (w21 0).cur = true ∧ enginesDone (w21 0) (w21 0).cur = true ∧ ((w21 0).me.sget 1).toNat % 64 = 0 ∧
      (let d := BitVec.ofNat 1024 (memRead (w21 0).myCore.pool 0x400 128)
       nodeZeros d && nodeShape d && nodePart (effPoolsl (w21 0) (w21 0).me.rcb) d && dNpred d == 0 && dNsucc d == 0 && ((w21 0).region (w21 0).me.rcb).any fun r => decide (r.spawned < 4096)) = true ∧
      ((w21 0).me.sget 2).toNat % 64 ≠ 0 ∧ lanesDone (wit busy) w1.cur = false) ∧
    ((w21 0).Full [30] ∧ (w21 0x3000).PoolAt ((w21 0).me.sget 30 - 8).toNat 8 .read 0x7F8 ∧ memRead (w21 0x3000).myCore.pool 0x7F8 8 % 4 = 0 ∧
      memRead (w21 0x3001).myCore.pool 0x7F8 8 % 4 ≠ 0 ∧ (w21 0x3001).me.lanesIdle = true) ∧
    (w22.Quiet ∧ w22.Full [30] ∧ w22.PoolAt (w22.me.sget 30 - 8).toNat 8 .write 0x7F8 ∧ w22.MemAt 0x2000 8 .read (2 ^ 30 + 0x2000) w22 ∧ w22.MemAt 0x2008 8 .read (2 ^ 30 + 0x2008) w22 ∧
      (1 : BitVec 26) ≠ 0 ∧ codeBaseOf w22 w22.me.asid = 0x2000 ∧ same w22 (asidEntry w22.me.asid 0x2000 w22) = true ∧ memRead w22.mem (2 ^ 30 + 0x2000) 8 = 2 ∧
      w22.me.stores = [] ∧ w22.me.lanesIdle = true) ∧
    (w23.Quiet ∧ w23.MemAt (w23.me.sget 30 - 8).toNat 8 .read (2 ^ 30 + 0x4000) w23 ∧ w23.MemAt (w23.me.sget 30 - 8).toNat 8 .write (2 ^ 30 + 0x4000) w23) :=
  ⟨⟨quiet_of (by decide +kernel), full_of (by decide +kernel), pools_of (by decide +kernel), by decide +kernel⟩,
    ⟨full_of (by decide +kernel), pool_of (by decide +kernel), by decide +kernel⟩,
    ⟨quiet_of (by decide +kernel), full_of (by decide +kernel), pool_of (by decide +kernel), ⟨mem_at (by decide +kernel), by decide +kernel⟩,
      ⟨mem_at (by decide +kernel), by decide +kernel⟩, by decide +kernel⟩,
    ⟨quiet_of (by decide +kernel), ⟨mem_at (by decide +kernel), by decide +kernel⟩, ⟨mem_at (by decide +kernel), by decide +kernel⟩⟩⟩

/-! Hypotheses met: vector instructions. -/

/-- The conditions of CanRun, as checks. -/
def canB (s : State) (u : Issue) : Bool :=
  !s.late && s.me.queue.isEmpty && u.regs.all (fun r => decide (r < s.me.count)) && u.reads.all s.me.isFull && u.writes.all s.me.isFull && s.myCore.retained == 0

theorem can_of {s : State} {u : Issue} (h : canB s u = true) : s.CanRun u := by
  simp only [canB, Bool.and_eq_true, Bool.not_eq_true', List.isEmpty_iff, List.all_eq_true, decide_eq_true_eq, beq_iff_eq] at h
  obtain ⟨⟨⟨⟨⟨h1, h2⟩, h3⟩, h4⟩, h5⟩, h6⟩ := h
  refine ⟨h1, h2, h3, fun r e => ?_, fun r e => ?_, h6⟩
  · rw [e] at h4; exact h4
  · rw [e] at h5; exact h5

def readB (c : Ctx) (r : Fin 32) : Bool := !c.vc.vuse.getLsbD r.val && c.v[r].full && !c.v[r].pois

theorem read_of {c : Ctx} {r : Fin 32} (h : readB c r = true) : c.Readable r := by
  simp only [readB, Bool.and_eq_true, Bool.not_eq_true'] at h
  exact ⟨h.1.1, h.1.2, h.2⟩

theorem write_of {c : Ctx} {r : Fin 32} {w : Bool} (h : readB c r = true) : c.Writable r w := ⟨(read_of h).2.1, fun _ => read_of h⟩

theorem ready_of {s : State} {l : Lane} {vd : Fin 32} {sew : Nat} {rs : List (Fin 32)} (h : ((vd :: rs).all (readB s.me)) = true) (hl : l.vstart < l.vl) : s.EwReady l vd sew rs := by
  rw [List.all_eq_true] at h
  exact ⟨fun r hr => read_of (h r (List.mem_cons_of_mem _ hr)), write_of (h vd List.mem_cons_self), hl⟩

/-- Eight elements under an entry, with VM NONE or the all-zero mask 0, and ERULE. -/
def w30 (ent vm : Word) : State := wit fun c => { regs [(1, 3), (2, 1)] c with vc := { c.vc with vl := 8, vtype := ent, vm } }

def vvv : VB := ⟨31, 30, .vec 29 true, true, false, 3⟩

def vvs : VB := ⟨0, 0, .sca 31, false, true, 0⟩

def isVB (f : VB) : Issue := { regs := [f.vd.val, f.va.val] ++ vsrcNums f.b, reads := vsrcScalar f.b, writes := none }

/-- A queue of `n` entries under a declaration, s31 empty. -/
def w31 (n : Nat) (eff : BitVec 2) : State := wit fun c =>
  let e : QEntry := { instr := .viota ⟨0, 0⟩, pc := 0, cap := capture c, scalar := 0, priv := 0, noTrim := false, num := 1, stale := false }
  { c with vc := { c.vc with eff }, queue := List.replicate n e, full := ~~~0x80000000#32 }

/-- A queue of 63 entries and of 64; v16 and v15 under 16 registers; an empty scalar source. -/
theorem test_wit_VectorIssue :
    (∀ e ∈ (w31 63 0).me.queue, trims e.instr = true → e.noTrim = true) ∧ (w31 63 0).me.queue.length < 64 ∧ (w31 63 0).me.queue ≠ [] ∧
    64 ≤ (w31 64 0).me.queue.length ∧ (∀ r ∈ (isVB vvv).regs, r < (w31 63 0).me.count) ∧ (∀ r, (isVB vvv).reads = some r ∨ (isVB vvv).writes = some r → (w31 63 0).me.isFull r = true) ∧
    ((∃ r ∈ (isVB ⟨16, 15, .vec 15 false, false, false, 0⟩).regs, (w31 0 1).me.count ≤ r) ∧ (w31 0 1).me.lanesIdle = true) ∧
    (∀ r ∈ (isVB ⟨15, 15, .vec 15 false, false, false, 0⟩).regs, r < (w31 0 1).me.count) ∧
    ((∀ r ∈ (isVB vvs).regs, r < (w31 0 0).me.count) ∧ (isVB vvs).reads = some 31 ∧ (w31 0 0).me.isFull 31 = false) := by decide +kernel

def is2 (vd va : Nat) : Issue := { regs := [vd, va], reads := none, writes := none }

/-- Under an integer and a floating-point entry, with a vector and with a scalar second source. -/
theorem test_wit_VectorArithmeticRuns :
    ((w30 6 8).CanRun (isVB vvv) ∧ ((w30 6 8).laneFor (isVB vvv)).fmt.valid = true ∧ (w30 6 8).EwReady ((w30 6 8).laneFor (isVB vvv)) 31 8 [30, 29, 31]) ∧
    ((w30 6 8).CanRun (isVB vvs) ∧ (w30 6 8).EwReady ((w30 6 8).laneFor (isVB vvs)) 0 8 [0, 0]) ∧
    ((w30 0 0).CanRun (isVB vvv) ∧ ((w30 0 0).laneFor (isVB vvv)).fmt.valid = true ∧ ((w30 0 0).laneFor (isVB vvv)).fmt.kind = 0 ∧
      (w30 0 0).EwReady ((w30 0 0).laneFor (isVB vvv)) 31 32 [30, 29, 31]) ∧
    ((w30 0 0).CanRun (is2 31 0) ∧ (w30 0 0).EwReady ((w30 0 0).laneFor (is2 31 0)) 31 32 [0]) ∧
    ((w30 6 8).CanRun (is2 31 0) ∧ ((w30 6 8).laneFor (is2 31 0)).fmt.kind ≠ 0 ∧ (w30 6 8).CanRun (isVB vvv) ∧ ((w30 6 8).laneFor (isVB vvv)).fmt.kind ≠ 0) :=
  ⟨⟨can_of (by decide +kernel), by decide +kernel, ready_of (by decide +kernel) (by decide +kernel)⟩,
    ⟨can_of (by decide +kernel), ready_of (by decide +kernel) (by decide +kernel)⟩,
    ⟨can_of (by decide +kernel), by decide +kernel, by decide +kernel, ready_of (by decide +kernel) (by decide +kernel)⟩,
    ⟨can_of (by decide +kernel), ready_of (by decide +kernel) (by decide +kernel)⟩,
    ⟨can_of (by decide +kernel), by decide +kernel, can_of (by decide +kernel), by decide +kernel⟩⟩

def is3 (vd va vb : Nat) : Issue := { regs := [vd, va, vb], reads := none, writes := none }

def is1s : Issue := { regs := [31], reads := some 1, writes := none }

/-- Entry 8 of the table set to a 6-bit format with an FP32 scale for each tile. -/
def w30b (ent : Word) : State := (w30 ent 8).modMe fun c => { c with ents := c.ents.set 0 0x890200A035000400 }

/-- To a wider entry, to a narrower one, with scales, and from a scalar; and from an entry of another kind. -/
theorem test_wit_ConversionRuns :
    ((w30 7 8).CanRun (is2 31 0) ∧ ((w30 7 8).laneFor (is2 31 0)).fmt.valid = true ∧ ((w30 7 8).laneFor (is2 31 0)).fmt.kind ≠ 0 ∧
      (fmtOf (((w30 7 8).laneFor (is2 31 0)).ent 6)).valid = true ∧ (fmtOf (((w30 7 8).laneFor (is2 31 0)).ent 6)).kind ≠ 0 ∧
      ((w30 7 8).laneFor (is2 31 0)).vl ≤ ((w30 7 8).laneFor (is2 31 0)).vlmax / (fmtOf (((w30 7 8).laneFor (is2 31 0)).ent 6)).wid ∧
      (w30 7 8).EwReady ((w30 7 8).laneFor (is2 31 0)) 31 8 [0]) ∧
    ((w30 0 8).CanRun (is2 31 0) ∧ ((w30 0 8).laneFor (is2 31 0)).fmt.valid = true ∧ ((w30 0 8).laneFor (is2 31 0)).fmt.bsk = 0 ∧
      (fmtOf (((w30 0 8).laneFor (is2 31 0)).ent 7)).valid = true ∧ (fmtOf (((w30 0 8).laneFor (is2 31 0)).ent 7)).bsk = 0 ∧
      ((w30 0 8).laneFor (is2 31 0)).vl ≤ ((w30 0 8).laneFor (is2 31 0)).vlmax / (fmtOf (((w30 0 8).laneFor (is2 31 0)).ent 7)).wid ∧
      (w30 0 8).EwReady ((w30 0 8).laneFor (is2 31 0)) 31 4 [0]) ∧
    ((w30 6 8).CanRun (is3 31 0 1) ∧ ((w30 6 8).laneFor (is3 31 0 1)).fmt.bsk ≠ 3 ∧ ((w30 6 8).laneFor (is3 31 0 1)).vl ≤ ((w30 6 8).laneFor (is3 31 0 1)).vlmax / 32 ∧
      (w30 6 8).EwReady ((w30 6 8).laneFor (is3 31 0 1)) 31 8 [0, 1] ∧ (w30 6 8).EwReady ((w30 6 8).laneFor (is3 31 0 1)) 31 32 [0, 1]) ∧
    ((w30 6 8).CanRun is1s ∧ (w30 6 8).EwReady ((w30 6 8).laneFor is1s) 31 8 []) ∧
    (((w30 0 8).laneFor (is2 31 0)).fmt.kind = 0 ∧ ((w30 5 8).CanRun (is2 31 0) ∧ ((w30 5 8).laneFor (is2 31 0)).fmt.bsk ≠ 0)) ∧
    ((w30b 8).CanRun (is3 31 0 1) ∧ ((w30b 8).laneFor (is3 31 0 1)).fmt.valid = true ∧ ((w30b 8).laneFor (is3 31 0 1)).fmt.bsk = 3) :=
  ⟨⟨can_of (by decide +kernel), by decide +kernel, by decide +kernel, by decide +kernel, by decide +kernel, by decide +kernel, ready_of (by decide +kernel) (by decide +kernel)⟩,
    ⟨can_of (by decide +kernel), by decide +kernel, by decide +kernel, by decide +kernel, by decide +kernel, by decide +kernel, ready_of (by decide +kernel) (by decide +kernel)⟩,
    ⟨can_of (by decide +kernel), by decide +kernel, by decide +kernel, ready_of (by decide +kernel) (by decide +kernel), ready_of (by decide +kernel) (by decide +kernel)⟩,
    ⟨can_of (by decide +kernel), ready_of (by decide +kernel) (by decide +kernel)⟩, ⟨by decide +kernel, can_of (by decide +kernel), by decide +kernel⟩,
    ⟨can_of (by decide +kernel), by decide +kernel⟩⟩

def vidxOf (fn : Fin 32) (vb : Fin 32) : VIdxForm := ⟨31, 1, vb, fn, true, false, false, 0⟩

def isVidx (f : VIdxForm) : Issue :=
  { regs := [f.vd.val] ++ (if f.fn.val = 15 ∨ vidxUnary f.fn.val = true then [] else [f.vb.val]) ++ [3], reads := some f.si, writes := none }

/-- The first and the last function index of each kind: 0, 14, 4, 15; 16, 24; 19, 20; 22, 25, 29; the register that si names is v3. -/
theorem test_wit_IndirectRuns :
    ((w30 6 8).me.isFull 1 = true ∧ wbits ((w30 6 8).me.sget 1) 0 5 = 3 ∧
      (∀ fn ∈ [(0 : Fin 32), 14, 4], vidxOk (vidxOf fn 2) = true ∧ canB (w30 6 8) (isVidx (vidxOf fn 2)) = true) ∧
      ((w30 6 8).laneFor (isVidx (vidxOf 0 2))).fmt.valid = true ∧ (w30 6 8).EwReady ((w30 6 8).laneFor (isVidx (vidxOf 0 2))) 31 8 [3, 2, 31]) ∧
    (vidxOk (vidxOf 15 7) = true ∧ (w30 6 8).CanRun (isVidx (vidxOf 15 7)) ∧ ((w30 6 8).laneFor (isVidx (vidxOf 15 7))).fmt.kind ≠ 0 ∧
      (fmtOf (((w30 6 8).laneFor (isVidx (vidxOf 15 7))).ent 7)).valid = true ∧ (fmtOf (((w30 6 8).laneFor (isVidx (vidxOf 15 7))).ent 7)).kind ≠ 0 ∧
      (w30 6 8).EwReady ((w30 6 8).laneFor (isVidx (vidxOf 15 7))) 31 4 [3]) ∧
    (∀ fn ∈ [(16 : Fin 32), 24, 19, 20], vidxOk (vidxOf fn 2) = true ∧ canB (w30 0 8) (isVidx (vidxOf fn 2)) = true) ∧
    (∀ fn ∈ [(22 : Fin 32), 25, 29], vidxOk (vidxOf fn 0) = true ∧ canB (w30 0 8) (isVidx (vidxOf fn 0)) = true) ∧
    (((w30 0 8).laneFor (isVidx (vidxOf 15 7))).fmt.kind = 0 ∧ canB (w30 0 8) (isVidx (vidxOf 15 7)) = true ∧ canB (w30 6 8) (isVidx (vidxOf 16 2)) = true ∧
      canB (w30 6 8) (isVidx (vidxOf 29 0)) = true ∧ ((w30 6 8).laneFor (isVidx (vidxOf 16 2))).fmt.kind ≠ 0) ∧
    (((w30 0 8).laneFor (isVidx (vidxOf 16 2))).fmt.kind = 0 ∧ (w30 0 8).EwReady ((w30 0 8).laneFor (isVidx (vidxOf 16 2))) 31 32 [3, 2, 31]) :=
  ⟨⟨by decide +kernel, by decide +kernel, by decide +kernel, by decide +kernel, ready_of (by decide +kernel) (by decide +kernel)⟩,
    ⟨by decide +kernel, can_of (by decide +kernel), by decide +kernel, by decide +kernel, by decide +kernel, ready_of (by decide +kernel) (by decide +kernel)⟩,
    by decide +kernel, by decide +kernel, by decide +kernel, ⟨by decide +kernel, ready_of (by decide +kernel) (by decide +kernel)⟩⟩

def cmpForm (b : VSrc) : VCmpForm := ⟨7, 30, b, false, 0⟩

def isCmp (f : VCmpForm) : Issue := { regs := [f.va.val] ++ vsrcNums f.b, reads := vsrcScalar f.b, writes := none }

def is0 : Issue := { regs := [], reads := none, writes := none }

/-- Masks 1 and 2 select element 1 and none. -/
def w32 (ent : Word) : State := (w30 ent 1).modMe fun c => { c with m := c.m.set 1 2 }

theorem test_wit_ComparisonAndMaskResults :
    ((w32 0).CanRun (isCmp (cmpForm (.vec 29 false))) ∧ ((w32 0).laneFor (isCmp (cmpForm (.vec 29 false)))).fmt.valid = true ∧ (w32 0).me.Readable 30 ∧ (w32 0).me.Readable 29 ∧
      ((w32 0).laneFor (isCmp (cmpForm (.vec 29 false)))).vstart < ((w32 0).laneFor (isCmp (cmpForm (.vec 29 false)))).vl ∧
      ((w32 0).laneFor (isCmp (cmpForm (.vec 29 false)))).vlmax / ((w32 0).laneFor (isCmp (cmpForm (.vec 29 false)))).fmt.wid ≤ 16384 ∧
      (sourceView (w32 0).me 30 32).kind = .plain ∧ ((w32 0).laneFor (isCmp (cmpForm (.vec 29 false)))).fmt.kind = 0) ∧
    ((w32 6).CanRun (isCmp (cmpForm (.sca 1))) ∧ ((w32 6).laneFor (isCmp (cmpForm (.sca 1)))).fmt.kind ≠ 0) ∧
    ((w32 0).CanRun is0 ∧ (w32 0).me.isFull 31 = true ∧ (w32 0).me.m[(1 : Fin 8)].getLsbD 0 = false ∧ (w32 0).me.m[(1 : Fin 8)].getLsbD 1 = true ∧ (w32 0).me.m[(2 : Fin 8)] = 0) :=
  ⟨⟨can_of (by decide +kernel), by decide +kernel, read_of (by decide +kernel), read_of (by decide +kernel), by decide +kernel⟩,
    ⟨can_of (by decide +kernel), by decide +kernel⟩, ⟨can_of (by decide +kernel), by decide +kernel⟩⟩

def isS (vd : Option (Fin 32)) (regs : List Nat) : Issue := { regs, reads := some 1, writes := vd }

/-- Under an integer entry of 8 bits and a floating-point one, plain registers. -/
theorem test_wit_MovementAndReductionResults :
    ((w30 6 8).CanRun (isS none [31, 30]) ∧ (w30 6 8).CanRun (is2 31 30) ∧ (w30 6 8).CanRun { regs := [31], reads := none, writes := none } ∧
      ((w30 6 8).laneFor (is2 31 30)).fmt.valid = true ∧ (w30 6 8).me.Readable 30 ∧ (w30 6 8).me.Writable 31 false ∧ (w30 6 8).me.Writable 31 true ∧
      ((w30 6 8).laneFor (is2 31 30)).fmt.kind ≠ 0 ∧ 8 ≤ ((w30 6 8).laneFor (is2 31 30)).fmt.wid ∧ ((w30 6 8).laneFor (is2 31 30)).mode ≠ 1) ∧
    ((w30 0 8).CanRun (isS (some 31) [30]) ∧ ((w30 0 8).laneFor (isS (some 31) [30])).fmt.valid = true ∧ (w30 0 8).me.Readable 30 ∧
      (sourceView (w30 0 8).me 30 32).kind = .plain ∧ ((w30 0 8).laneFor (isS (some 31) [30])).fmt.kind = 0) :=
  ⟨⟨can_of (by decide +kernel), can_of (by decide +kernel), can_of (by decide +kernel), by decide +kernel, read_of (by decide +kernel), write_of (by decide +kernel),
      write_of (by decide +kernel), by decide +kernel⟩,
    ⟨can_of (by decide +kernel), by decide +kernel, read_of (by decide +kernel), by decide +kernel⟩⟩

/-- v30 a dictionary of two FP32 values, its elements the first. -/
def w33 : State := (w30 0 8).modMe fun c =>
  { c with v := c.v.set 30 (mkDict 32 [0x3F800000, 0x40000000] (List.replicate 512 0) 5), vc := { c.vc with vlive := BitVec.allOnes 32 } }

theorem test_wit_EncodingResults :
    (w33.CanRun (is2 31 30) ∧ (w33.laneFor (is2 31 30)).fmt.valid = true ∧ w33.me.Readable 30 ∧ w33.me.Writable 31 false ∧ w33.me.v[(31 : Fin 32)].full = true ∧
      (sourceView w33.me 30 32).kind = .dictionary ∧ (sourceView w33.me 29 32).kind ≠ .dictionary) ∧
    ((w30 6 8).CanRun (is2 31 30) ∧ ((w30 6 8).laneFor (is2 31 30)).fmt.kind ≠ 0) ∧
    (w33.CanRun (is3 31 30 29) ∧ w33.CanRun (is3 31 29 30) ∧ w33.me.Readable 29) :=
  ⟨⟨can_of (by decide +kernel), by decide +kernel, read_of (by decide +kernel), write_of (by decide +kernel), by decide +kernel⟩,
    ⟨can_of (by decide +kernel), by decide +kernel⟩, ⟨can_of (by decide +kernel), can_of (by decide +kernel), read_of (by decide +kernel)⟩⟩

/-! Hypotheses met: vector memory and the matrix array. -/

def spanB (s : State) (port a n : Nat) (acc : Acc) (enc : Bool) (off : Nat) : Bool :=
  (spanWords a n).all fun w => decide (w.1 < 2 ^ 56) && portOk port w.1 &&
    decide (windowLoc s s.cur.core s.me.priv w.1 w.2 acc enc = some (.ok (.pool s.cur.core.val (off + (w.1 - a))))) && !poolPoisoned s.myCore (off + (w.1 - a)) w.2

theorem span_of {s : State} {port a n : Nat} {acc : Acc} {enc : Bool} {off : Nat} (h : spanB s port a n acc enc off = true) : s.PoolSpan port a n acc enc off := by
  intro w hw
  have k := List.all_eq_true.1 h w hw
  simp only [Bool.and_eq_true, decide_eq_true_eq, Bool.not_eq_true'] at k
  exact ⟨k.1.1.1, k.1.1.2, k.1.2, k.2⟩

def is1 (v : Nat) : Issue := { regs := [v], reads := none, writes := none }

/-- VUNPK of four narrow elements into four registers of FP32, and VPACK. -/
theorem test_wit_ScaleAndPackResults :
    ((w30 0 8).CanRun (is1 30) ∧ ((w30 0 8).laneFor (is1 30)).indivisible.fmt.valid = true ∧ (w30 0 8).me.Readable 30) ∧
    ((w30 0 8).CanRun { regs := [], reads := none, writes := some 31 } ∧ (fmtOf (((w30 0 8).laneFor { regs := [], reads := none, writes := some 31 }).ent 0)).valid = true ∧
      (((w30 0 8).me.fc.amax.toList.take 16).map fun a => ofF32 a.toNat) ≠ [] ∧ ∀ x ∈ ((w30 0 8).me.fc.amax.toList.take 16).map (fun a => ofF32 a.toNat), x.cls = .zero) ∧
    (packRatio (w30 0 8).me.vtFmt (fmtOf (entWord (w30 0 8).me.ents 6)) = some 4 ∧ (w30 0 8).me.vtFmt.valid = true ∧ (fmtOf (entWord (w30 0 8).me.ents 6)).valid = true ∧
      (w30 0 8).CanRun { regs := packRegs (w30 0 8).me 6 28 27, reads := none, writes := none } ∧ (w30 0 8).me.Readable 27 ∧
      (∀ d ∈ (groupRegs 28 4).zipIdx, ∀ w, (w30 0 8).me.Writable d.1 w) ∧ (∀ r ∈ groupRegs 28 4, (w30 0 8).me.Readable r) ∧ (w30 0 8).me.Writable 27 false) :=
  ⟨⟨can_of (by decide +kernel), by decide +kernel, read_of (by decide +kernel)⟩, ⟨can_of (by decide +kernel), by decide +kernel⟩,
    ⟨by decide +kernel, by decide +kernel, by decide +kernel, can_of (by decide +kernel), read_of (by decide +kernel),
      (fun d hd _ => write_of (List.all_eq_true.1 (by decide +kernel : ((groupRegs 28 4).zipIdx.all fun d => readB (w30 0 8).me d.1) = true) d hd)),
      (fun r hr => read_of (List.all_eq_true.1 (by decide +kernel : ((groupRegs 28 4).all fun r => readB (w30 0 8).me r) = true) r hr)), write_of (by decide +kernel)⟩⟩

/-- A stream of an entry in the pool at 0x1000, stream register 15; `ctl` adds to the control word, `stride` is in bytes. -/
def strm (ctl : Word) (stride : Word) (c : Ctx) : Ctx :=
  { c with q := c.q.set 15 { QReg.reset with
      bound := true, block := some (BitVec.ofNat 64 (ownBase + 0x1000))
      desc := { base := BitVec.ofNat 64 (ownBase + 0x1000), ctl, count := #v[10000, 0, 0, 0], stride := #v[stride, 0, 0, 0] } } }

/-- Eight elements, all written, of entry 0 or 6 and their stream; 7 is an entry of 4 bits. -/
def w40 (ent : Word) (ctl stride : Word) : State := (w30 ent 8).modMe (strm (ent ||| ctl) stride)

def els (s : State) : List Nat := streamElems (s.laneFor is0) s.me.q[(15 : Fin 16)] s.me.m[(s.laneFor is0).mreg].toNat

theorem test_wit_StreamLoadResults :
    (els (w40 0 0 4) = List.range 8 ∧ (w40 0 0 4).me.q[(15 : Fin 16)].prep = [] ∧ (w40 0 0 4).me.q[(15 : Fin 16)].early = [] ∧ (w40 0 0 4).me.q[(15 : Fin 16)].bound = true ∧ (w40 0 0 4).me.q[(15 : Fin 16)].desc.writes = false ∧ (w40 0 0 4).me.q[(15 : Fin 16)].desc.lay = false ∧
      ((w40 0 0 4).laneFor is0).fmt.valid = true ∧ ((w40 0 0 4).laneFor is0).vstart < ((w40 0 0 4).laneFor is0).vl ∧
      (∀ e ∈ els (w40 0 0 4), elemPos ((w40 0 0 4).laneFor is0) (w40 0 0 4).me.q[(15 : Fin 16)].desc 0 e < (w40 0 0 4).me.q[(15 : Fin 16)].desc.total) ∧
      (∀ e ∈ els (w40 0 0 4), portOk 0 (elemSpot (w40 0 0 4).me.q[(15 : Fin 16)].desc none 0 e 0).va = true)) ∧
    ((w40 0 0 4).CanRun (is1 31) ∧ (w40 0 0 4).me.Writable 31 false ∧ (w40 0 0 4).CanRun { regs := [24, 25, 26, 27, 28, 29, 30, 31], reads := none, writes := none } ∧
      (∀ e ∈ els (w40 0 0 4), (w40 0 0 4).PoolAt (elemSpot (w40 0 0 4).me.q[(15 : Fin 16)].desc none 0 e 0).va 4 .read (0x1000 + 4 * e))) ∧
    (((w40 7 0 0).laneFor is0).fmt.wid = 4 ∧ els (w40 7 0 0) = List.range 8 ∧ (w40 7 0 0).CanRun (is1 31) ∧
      ∀ e ∈ List.range 8, (w40 7 0 0).PoolAt (elemSpot (w40 7 0 0).me.q[(15 : Fin 16)].desc (some 4) 0 e 0).va 1 .read (0x1000 + e / 2)) ∧
    (okThat (tryElems (fun e => if e = 2 then throw (.cause .trNotmapped none) else Pure.pure [e]) [0, 1, 2, 3] (w40 0 0 4)) (fun r _ => (r.fault.map (·.1)) == some 2) = true ∧
      okThat (tryElems (fun e => if e = 2 then throw (.cause .trNotmapped none) else Pure.pure [e]) [2, 3] (w40 0 0 4)) (fun r _ => (r.fault.map (·.1)) == some 2) = true ∧
      ((w40 0 0 4).laneFor is0).noTrim = false ∧ ((w40 0 0 4).laneFor is0).stop = none) :=
  ⟨by decide +kernel, ⟨can_of (by decide +kernel), write_of (by decide +kernel), can_of (by decide +kernel), pools_of (by decide +kernel)⟩,
    ⟨by decide +kernel, by decide +kernel, can_of (by decide +kernel), pools_of (by decide +kernel)⟩, by decide +kernel⟩

theorem test_wit_StreamStoreResults :
    (els (w40 0 16 4) = List.range 8 ∧ (w40 0 16 4).me.q[(15 : Fin 16)].prep = [] ∧ (w40 0 16 4).me.q[(15 : Fin 16)].bound = true ∧ (w40 0 16 4).me.q[(15 : Fin 16)].desc.writes = true ∧ (w40 0 16 4).me.q[(15 : Fin 16)].desc.lay = false ∧
      ((w40 0 16 4).laneFor is0).fmt.valid = true ∧ ((w40 0 16 4).laneFor is0).vstart < ((w40 0 16 4).laneFor is0).vl) ∧
    ((w40 0 16 4).CanRun (is1 31) ∧ (w40 0 16 4).me.Readable 31 ∧
      (w40 0 16 4).CanRun { regs := [30, 31], reads := none, writes := none } ∧ (w40 0 16 4).me.Readable 30 ∧
      ∀ e ∈ els (w40 0 16 4), (w40 0 16 4).PoolAt (elemSpot (w40 0 16 4).me.q[(15 : Fin 16)].desc none 0 e 0).va 4 .write (0x1000 + 4 * e)) ∧
    (((w40 7 16 0).laneFor is0).fmt.wid = 4 ∧ els (w40 7 16 0) = List.range 8 ∧ (w40 7 16 0).CanRun (is1 31) ∧
      ∀ e ∈ List.range 8, (w40 7 16 0).PoolAt (elemSpot (w40 7 16 0).me.q[(15 : Fin 16)].desc (some 4) 0 e 0).va 1 .write (0x1000 + e / 2)) :=
  ⟨by decide +kernel, ⟨can_of (by decide +kernel), read_of (by decide +kernel), can_of (by decide +kernel), read_of (by decide +kernel), pools_of (by decide +kernel)⟩,
    ⟨by decide +kernel, by decide +kernel, can_of (by decide +kernel), pools_of (by decide +kernel)⟩⟩

/-- Indexes 0 to 7 of 32 bits, and 1024, the first past a lane table, under an integer entry of 32 bits; s4 the base in the pool. -/
def int32 : Word := 0x983E002000002000

def w41 (idx : List Nat) : State := (wit fun c =>
  { regs [(4, BitVec.ofNat 64 (ownBase + 0x1000))] c with
    vc := { c.vc with vl := 8, vtype := 8, vlive := BitVec.allOnes 32 }, ents := c.ents.set 0 int32, v := c.v.set 30 (mkPlain 32 idx) })

def isG (extra : List Nat) : Issue := { regs := [30, 28] ++ extra, reads := some 4, writes := none }

theorem test_wit_IndexedAccessResults :
    ((w41 (List.range 8)).CanRun (isG []) ∧ (w41 (List.range 8)).CanRun (isG [29]) ∧ ((w41 (List.range 8)).laneFor (isG [])).fmt.valid = true ∧
      ((w41 (List.range 8)).laneFor (isG [])).fmt.kind ≠ 0 ∧ ((w41 (List.range 8)).laneFor (isG [])).fmt.wid = 32 ∧ (w41 (List.range 8)).me.Readable 30 ∧
      (w41 (List.range 8)).me.Readable 28 ∧ (w41 (List.range 8)).me.Readable 29 ∧ (w41 (List.range 8)).me.Writable 28 false ∧
      ((w41 (List.range 8)).laneFor (isG [])).vstart < ((w41 (List.range 8)).laneFor (isG [])).vl ∧
      ((List.range ((w41 (List.range 8)).laneFor (isG [])).vl).filter (((w41 (List.range 8)).laneFor (isG [])).written 0)) = List.range 8 ∧
      (∀ e ∈ List.range 8, (w41 (List.range 8)).PoolAt ((w41 (List.range 8)).me.sget 4 + BitVec.ofNat 64 ((sourceView (w41 (List.range 8)).me 30 32).at e * 4)).toNat 4 .read (0x1000 + 4 * e)) ∧
      (∀ e ∈ List.range 8, (w41 (List.range 8)).PoolAt ((w41 (List.range 8)).me.sget 4 + BitVec.ofNat 64 ((sourceView (w41 (List.range 8)).me 30 32).at e * 4)).toNat 4 .write (0x1000 + 4 * e))) ∧
    ((w41 (List.range 8)).CanRun (is2 28 30) ∧ (w41 (List.range 8)).myCore.lanePoison = [] ∧ ∀ e ∈ List.range 8, (sourceView (w41 (List.range 8)).me 30 32).at e * 4 + 4 ≤ 4096) ∧
    ((w41 [1023]).CanRun (is2 28 30) ∧ (sourceView (w41 [1023]).me 30 32).at 0 * 4 + 4 ≤ 4096 ∧ (w41 [1024]).CanRun (is2 28 30) ∧ 4096 < (sourceView (w41 [1024]).me 30 32).at 0 * 4 + 4) :=
  ⟨⟨can_of (by decide +kernel), can_of (by decide +kernel), by decide +kernel, by decide +kernel, by decide +kernel, read_of (by decide +kernel), read_of (by decide +kernel),
      read_of (by decide +kernel), write_of (by decide +kernel), by decide +kernel, by decide +kernel, pools_of (by decide +kernel), pools_of (by decide +kernel)⟩,
    ⟨can_of (by decide +kernel), by decide +kernel⟩, ⟨can_of (by decide +kernel), by decide +kernel, can_of (by decide +kernel), by decide +kernel⟩⟩

/-- A plain block of eight FP32 elements at pool offset 0x1000; a frame of a plain register of eight elements of 32 bits there. -/
def blk8 : Nat := 8 * 2 ^ 64 + 32 * 2 ^ 96 + 128 * 2 ^ 128

def frame8 : Nat := 8 + 32 * 2 ^ 128

def w42 (ctl : Word) (bytes : Nat) : State := pooled [(0x1000, 64, bytes)] (w40 0 (32 ||| ctl) 0)

theorem test_wit_BlockResults :
    ((w42 0 blk8).me.q[(15 : Fin 16)].bound = true ∧ (w42 0 blk8).me.q[(15 : Fin 16)].desc.lay = true ∧ (w42 0 blk8).me.q[(15 : Fin 16)].atEnd = false ∧
      (w42 0 blk8).me.q[(15 : Fin 16)].prep = [] ∧ (w42 0 blk8).me.q[(15 : Fin 16)].early = [] ∧
      ((w42 0 blk8).laneFor is0).fmt.valid = true ∧ (w42 0 blk8).me.q[(15 : Fin 16)].desc.writes = false ∧ (w42 0 blk8).me.v[(31 : Fin 32)].full = true ∧
      (w42 0 blk8).me.q[(15 : Fin 16)].block = some (BitVec.ofNat 64 (ownBase + 0x1000)) ∧
      memRead (w42 0 blk8).myCore.pool 0x1000 64 = blk8 ∧ (blkOf blk8).ok blk8 8 false = true ∧ (blkOf blk8).sew = 32 ∧ (blkOf blk8).n = 8 ∧
      (blkOf blk8).idxOk ((blkOf blk8).idx 0 0) = true) ∧
    ((w42 0 blk8).CanRun (is1 31) ∧ (w42 0 blk8).PoolSpan 0 (ownBase + 0x1000) 64 .read true 0x1000 ∧ (w42 0 blk8).PoolSpan 0 (ownBase + 0x1040) (blkOf blk8).vb .read true 0x1040 ∧ (w42 0 blk8).PoolSpan 0 (ownBase + 0x1040 + (blkOf blk8).vb) (blkOf blk8).ib .read true (0x1040 + (blkOf blk8).vb)) ∧
    ((w42 16 0).me.q[(15 : Fin 16)].desc.writes = true ∧ (w42 16 0).CanRun (is1 31) ∧ (w42 16 0).me.Readable 31 ∧ (w42 16 0).me.q[(15 : Fin 16)].pos.toNat % 2 ^ 17 = 0 ∧
      ((w42 16 0).laneFor is0).vl ≠ 0 ∧ (w42 16 0).PoolSpan 0 (ownBase + 0x1000) (blockOf (View.plain (List.replicate 512 0)) 32 8).1.bytes .write true 0x1000 ∧
      (w42 16 0).PoolSpan 0 (ownBase + 0x1000) (64 + 32) .write false 0x1000) ∧
    (memRead (w42 0 frame8).myCore.pool 0x1000 64 = frame8 ∧ (w42 0 frame8).PoolSpan 0 (ownBase + 0x1000) 64 .read false 0x1000 ∧
      (w42 0 frame8).PoolSpan 0 (ownBase + 0x1040) 32 .read false 0x1040 ∧ nbits frame8 128 8 = 32 ∧ nbits frame8 136 8 = 0 ∧ savedOk (nbits frame8 64 64) 0 16384 false = true) :=
  ⟨by decide +kernel, ⟨can_of (by decide +kernel), span_of (by decide +kernel), span_of (by decide +kernel), span_of (by decide +kernel)⟩,
    ⟨by decide +kernel, can_of (by decide +kernel), read_of (by decide +kernel), by decide +kernel, by decide +kernel, span_of (by decide +kernel), span_of (by decide +kernel)⟩,
    ⟨by decide +kernel, span_of (by decide +kernel), span_of (by decide +kernel), by decide +kernel⟩⟩

/-- A partition of 100 scratchpad and 16 accumulator slices; slots 0 to 7 of the context, full and of entry 6; 4 and 6 doubles with 5 and 7; scales valid in 0 and 2. -/
def w43 : State := ((w40 6 0 1).modMyCore fun c =>
  let full (dbl : Bool) : Slot := { Slot.reset with st := .full, ent := 6, rows := 64, dbl, sw32 := true, svalid := true }
  { c with part := 100 + 16 * 2 ^ 8 + 8 * 2 ^ 16,
           slots := ((((c.slots.set 0 (full false)).set 2 (full false)).set 4 (full true)).set 5 { full true with rows := 0 }).set 6 (full true) |>.set 7 { full true with rows := 0 } })

def isMld (n : Nat) : List Nat := List.range n

/-- The same with slot 0 still filling by an MLD, and with slot 2 in use by an operation of the array. -/
def w43busy : State := w43.modMyCore fun c => { c with
  slots := c.slots.set 0 { c.slots[0] with mld := true }
  arr := { c.arr with ops := [{ num := 1, lc := 0, entry := some (qe0 w43.me), sig := none, fin := false }] } }
where
  qe0 (c : Ctx) : QEntry := { instr := .mma ⟨15, 2, 4, true, 0⟩, pc := 0, cap := capture c, scalar := 0, priv := 0, noTrim := false, num := 0, stale := false }

/-- Slot 8 free, 31 free, 0 the context's own, 3 no one's, 5 the odd member of a double; slots 0 and 2 free of earlier use and in use; MLD of the last line and MLDS of a side area from the stream. -/
theorem test_wit_SlotResults :
    (w43.CanRun is0 ∧ (∀ n ∈ claimSet 8 true, w43.myCore.slots[n].st = .free) ∧ (∀ n ∈ claimSet 31 false, w43.myCore.slots[n].st = .free) ∧
      (∃ n ∈ claimSet 0 false, w43.myCore.slots[n].st ≠ .free)) ∧
    (w43.myCore.slots[(0 : Fin 32)].ownedBy w43.cur.lc = true ∧ w43.myCore.slots[(0 : Fin 32)].dbl = false ∧ slotBusy w43 w43.cur 0 (.entry (w43.me.vIn + 1)) = false ∧
      awaitsRelease w43 w43.cur 0 = false ∧ slotBusy w43busy w43.cur 0 (.entry (w43.me.vIn + 1)) = true ∧ slotBusy w43busy w43.cur 2 (.entry (w43.me.vIn + 1)) = true ∧
      w43.myCore.slots[(3 : Fin 32)].ownedBy w43.cur.lc = false ∧ w43.myCore.slots[(5 : Fin 32)].dbl = true) ∧
    (slotView w43 w43.cur 0 (.entry (w43.me.vIn + 1)) ≠ .filling ∧ ctxCmds w43 w43.cur = [] ∧ w43.myCore.slots[(0 : Fin 32)].mld = false ∧ openFills w43 w43.cur 0 = [] ∧
      openScales w43 w43.cur 0 = [] ∧ w43.me.q[(15 : Fin 16)].prep = [] ∧
      w43.me.q[(15 : Fin 16)].bound = true ∧ w43.me.q[(15 : Fin 16)].desc.writes = false ∧ w43.me.q[(15 : Fin 16)].desc.lay = false ∧
      (fmtOf ((w43.laneFor is0).ent w43.me.q[(15 : Fin 16)].desc.ent)).valid = true ∧ (fmtOf ((w43.laneFor is0).ent w43.me.q[(15 : Fin 16)].desc.ent)).wid = 8 ∧
      w43.myCore.slots[(0 : Fin 32)].ent.val = w43.me.q[(15 : Fin 16)].desc.ent ∧ 8192 ≤ w43.me.q[(15 : Fin 16)].desc.total) ∧
    (∀ i ∈ isMld ((64 - 63) * 128), w43.PoolAt (elemSpot w43.me.q[(15 : Fin 16)].desc none 0 i 0).va 1 .read (0x1000 + i)) ∧
    (∀ i ∈ isMld 256, w43.PoolAt (elemSpot w43.me.q[(15 : Fin 16)].desc none 0 i 0).va 1 .read (0x1000 + i)) :=
  ⟨⟨can_of (by decide +kernel), by decide +kernel⟩, by decide +kernel, by decide +kernel, pools_of (by decide +kernel), pools_of (by decide +kernel)⟩

def mmaOf (a b : Fin 32) : MmaForm := ⟨15, a, b, true, 0⟩

/-- The last tile of the context, whose kinds are none. -/
def tile15 : Nat := 100 * 65536 + 15 * 32768

theorem clean_of {s : State} {acc : Fin 16} {plane : Bool} {off : Nat} (h : tileKind s s.cur acc plane = .none) : s.TileClean acc plane off := fun k => absurd h k

theorem test_wit_ArrayResults :
    w43.myCore.arr.ops = [] ∧ w43.CanRun is0 ∧ w43.TileAt 15 tile15 ∧ w43.TileClean 15 false tile15 ∧ w43.TileClean 15 true tile15 ∧
    w43.ProductOk (w43.laneFor is0) .mma (mmaOf 0 2) tile15 ∧ w43.ProductOk (w43.laneFor is0) .mslide (mmaOf 0 2) tile15 ∧ w43.ProductOk (w43.laneFor is0) .mmas (mmaOf 4 6) tile15 ∧
    (w43.SlotFull 0 ∧ w43.SlotFull 2 ∧ w43.myCore.slots[(0 : Fin 32)].svalid = true ∧ w43.myCore.slots[(0 : Fin 32)].sw32 = true ∧
      w43.myCore.slots[(0 : Fin 32)].stag = w43.myCore.slots[(0 : Fin 32)].dtag ∧ slotBad w43.myCore 0 false true = false ∧ tileKind w43 w43.cur 15 false ≠ .int32) ∧
    (w43.CanRun (is1 31) ∧ (w43.laneFor (is1 31)).fmt.valid = true ∧ (w43.laneFor (is1 31)).fmt.bsk = 0 ∧
      1 * min 64 ((w43.laneFor (is1 31)).vlmax / (w43.laneFor (is1 31)).fmt.wid / 64) < 64 ∧ w43.me.Readable 31 ∧ tileKind w43 w43.cur 15 false = .none ∧ w43.me.v[(31 : Fin 32)].full = true) := by
  have hv : (fmtOf ((w43.laneFor is0).ent 6)).valid = true := by decide +kernel
  have f : ∀ n ∈ [(0 : Fin 32), 2, 4, 6], w43.SlotFull n := by unfold State.SlotFull; decide +kernel
  have f0 := f 0 (by decide); have f2 := f 2 (by decide); have f4 := f 4 (by decide); have f6 := f 6 (by decide)
  have t : w43.TileAt 15 tile15 := ⟨by decide +kernel, by decide +kernel⟩
  have c0 : w43.TileClean 15 false tile15 := clean_of (by decide +kernel)
  have c1 : w43.TileClean 15 true tile15 := clean_of (by decide +kernel)
  refine ⟨by decide +kernel, can_of (by decide +kernel), t, c0, c1, ?_, ?_, ?_, ⟨f0, f2, by decide +kernel⟩,
    ⟨can_of (by decide +kernel), by decide +kernel, by decide +kernel, by decide +kernel, read_of (by decide +kernel), by decide +kernel⟩⟩
  · exact ⟨t, c1, ⟨f0, by decide +kernel⟩, ⟨f2, by decide +kernel⟩, by decide +kernel, by decide +kernel,
      by decide +kernel, by intro h; cases h⟩
  · exact ⟨t, c1, ⟨f0, by decide +kernel⟩, ⟨f2, by decide +kernel⟩, by decide +kernel, by decide +kernel,
      by decide +kernel, by intro h; cases h⟩
  · exact ⟨t, c1, ⟨f4, by decide +kernel⟩, ⟨f6, by decide +kernel⟩, by decide +kernel, by decide +kernel,
      by decide +kernel, fun _ => by decide +kernel⟩

/-! Hypotheses met: the steps of the units. -/

def ctx0 : CtxId := { core := 0, lc := 0 }

/-- A context with v31 and slab 7 free, or retained, or a core with 767 slabs held. -/
def w50 (f : Ctx → Ctx) : State := wit f

/-- A VGATHP into a register, with the elements still to come and their modules. -/
def gath (dst : Nat) (homes : List (Nat × Nat)) (c : Ctx) : Ctx :=
  { c with gather := [{ dst, old := VReg.reset, entry := { instr := .viota ⟨0, 0⟩, pc := 0, cap := capture c, scalar := 0, priv := 0, noTrim := false, num := 1, stale := false }, start := 0, homes }] }

def coming (s : State) : List (Nat × List (Nat × Nat)) := s.me.gather.map fun e => (e.dst, e.homes)

/-- A core whose 768 slabs are held by slabs of one register or mask of context 1. -/
def w58 (n : Nat) : State := (wit id).modMyCore fun c => { c with slabs := List.replicate 768 (1, n, 0) }

/-- A load in flight to v31, or to a slot, from 32 on. -/
def flying (dst : Nat) (poison : Option Nat) (trim : Option LandTrim) : VLanding :=
  { dst, pages := [], poison, trim, start := 0, first := 0, granted := 8, old := VReg.reset, pos := none
    entry := { instr := .viota ⟨0, 0⟩, pc := 0, cap := capture Ctx.reset, scalar := 0, priv := 0, noTrim := false, num := 1, stale := false } }

def trim3 : LandTrim := { elem := 3, reg := none, pos := some (15, 0, 3) }

/-- The four contexts of core 0 with 192 slabs each, three of them reserved. -/
def w58full : State :=
  let g : Graph := { rcb := 0, asid := 0, header := 0, nodes := [], st := .active, spawned := false, handle := 0, cq := 0, sq := 0, seq := 0, breached := false
                     reserved := [.ctx { core := 0, lc := 1 }, .ctx { core := 0, lc := 2 }, .ctx { core := 0, lc := 3 }, .ctx { core := 0, lc := 4 }] }
  { ((wit id).modMyCore fun c => { c with slabs := [1, 2, 3, 4].flatMap fun l => List.replicate 192 (l, 0, 0) }) with graphs := [(0, g)] }

/-- SLAB_FILL at the last slab of the last register and of the last mask, with room and in place of a clean slab and a dirty one, and where no slab may go; at a retained core; a group due and retained; a value in flight, clean and poisoned, a vector landed without poison, and with it, trimmed or not; a gather's only module, one of two, and none. -/
theorem test_wit_LaneStepResults :
    ([((31 : Fin 40), (7 : Fin 32)), (39, 1)].all fun e =>
      let x := (w50 id).me
      (if e.1.val < 32 then decide (e.1.val < x.count ∧ e.2.val < x.slabs) else decide (e.2.val < x.slabs / 4)) && [w50 id, w58 0, w58 32, w58full].all fun s => s.myCore.retained == 0 && !s.myCore.slabs.contains (0, e.1.val, e.2.val)) = true ∧
    ((w50 id).myCore.slabs.length < 768 ∧ 768 ≤ (w58 0).myCore.slabs.length ∧ (victim (w58 0) 0 0 (w58 0).myCore.slabs).map (evictClass (w58 0) 0) = some 0 ∧
      768 ≤ w58full.myCore.slabs.length ∧ victim w58full 0 0 w58full.myCore.slabs = none ∧ (victim (w58 32) 0 0 (w58 32).myCore.slabs).map (evictClass (w58 32) 0) = some 2 ∧
      ¬((w50 id).modMyCore fun c => { c with retained := 1 }).myCore.retained = 0 ∧ ¬31 < (w50 fun c => { c with vc := { c.vc with eff := 1 } }).me.count) ∧
    ((w50 fun c => { c with retDue := 8, retAt := 1 }).me.retDue.getLsbD 3 = true ∧
      ((w50 fun c => { c with retDue := 8, retAt := 1 }).me.kept ++ (w50 fun c => { c with retDue := 8, retAt := 1 }).me.queue).isEmpty = true ∧
      ((w50 id).modMyCore fun c => { c with retained := 8 }).myCore.retained.getLsbD 3 = true ∧ (w50 id).myCore.retained.getLsbD 3 = false ∧
      (w50 fun c => { c with vc := { c.vc with vlive := 1 }, v := c.v.set 0 { VReg.reset with dirty := true } }).me.v[(0 : Fin 32)].dirty = true) ∧
    (w50 fun c => { c with land := [{ dst := 31, value := 7, poison := none, src := none }] }).me.land.find? (fun k => k.dst == 31) = some { dst := 31, value := 7, poison := none, src := none } ∧
    ((w50 (gath 30 [(0, 2)])).me.gather.all (fun e => e.dst != 31) = true ∧ ((w50 id).me.vland.find? fun l => l.dst == 31).bind (·.poison) = none ∧
      ((w50 fun c => { c with vland := [flying 31 (some 64) none] }).me.vland.find? fun l => l.dst == 31) = some (flying 31 (some 64) none) ∧
      (let s := w50 fun c => { c with vc := { c.vc with vl := 8 }, vland := [flying 31 (some 64) (some trim3)] }
       s.me.vland.find? (fun l => l.dst == 31) = some (flying 31 (some 64) (some trim3)) ∧ s.me.retAt < (flying 31 (some 64) (some trim3)).entry.num ∧
         s.me.vc.vl.toNat = 8 ∧ (s.me.q[(15 : Fin 16)]).pos = 0)) ∧
    ((w50 fun c => { c with land := [{ dst := 31, value := 7, poison := some 64, src := none }] }).me.land.find? (fun k => k.dst == 31) = some { dst := 31, value := 7, poison := some 64, src := none } ∧
      ((w50 id).me.land.all fun l => l.dst != 31) = true) ∧
    (((w50 (gath 31 [(0, 143), (1, 2)])).me.gather.find? fun e => e.homes.any fun h => h.2 == 143).isSome = true ∧ coming (w50 (gath 31 [(0, 143), (1, 2)])) = [(31, [(0, 143), (1, 2)])] ∧
      coming (w50 (gath 31 [(0, 143)])) = [(31, [(0, 143)])] ∧ (w50 (gath 31 [(0, 143)])).me.vland = [] ∧ coming (w50 id) = []) := by
  refine ⟨?_, ?_, ?_, ?_, ?_, ?_, ?_⟩ <;> decide +kernel

/-- MXOR and a setting at the head of a queue; the array's operation; a waiting BARW and a waiting ADD; a stream that reads from 0x1000. -/
def qe (i : Instr) (c : Ctx) : QEntry := { instr := i, pc := 0, cap := capture c, scalar := 3, priv := 0, noTrim := false, num := 1, stale := false }

def mx : M3 := ⟨7, 6, 0, false, false, 0⟩

def w51 (i : Instr) : State := wit fun c => let d : Ctx := { c with vc := { c.vc with vl := 512, vlive := BitVec.allOnes 32 }, q := c.q.set 15 (QReg.bind { Desc.reset with base := 0x1000, count := #v[1024, 0, 0, 0], stride := #v[4, 0, 0, 0] }) }; { d with queue := [qe i d] }

def w52 (word : Nat) : State := (placeWord (wit id) 32 word).modMe fun c => { c with waiting := true }

def op1 : ArrOp := { num := 1, lc := 0, entry := none, sig := none, fin := false }

/-- The array with an operation, slot 31 filled by an MLD, and command 1 of tug15 landed with a follow-on. -/
def cmd0 : TugCmd :=
  { num := 1, fn := 0, block := 0, issuer := some ctx0, node := none, tag := 63, ents := Vector.replicate 8 0, asid := 0, priv := 0, after := 0, seq := 1, age := 7, stale := false, pages := [], started := false, out := [],
    ends := none, sats := 0, side := [], finished := false, fault := none, slot := none, landed := 0, before := none, followed := true, sig := none }

def w53 (k : TugCmd) : State := ((w51 (.mxor mx)).modMyCore fun c => { c with arr := { c.arr with ops := [op1, { op1 with num := 2, fin := true }] }, slots := c.slots.set 31 { Slot.reset with st := .filling, mld := true } }).modTug tug15
  fun t => { t with queue := [k] }

/-- The head is an array operation. -/
def w54 : State := w43.modMe fun c => { c with queue := [qe (.mzero { acc := 15, hint := 0 }) c] }

/-- What the fetch of the current context runs. -/
def runs (s : State) : Option Instr := match fetchDecode s with | .run i _ => some i | _ => none

theorem test_wit_QueueAndArrayStepResults :
    ((wit id).me.queue = [] ∧ (w51 (.mxor mx)).me.rels = [] ∧ (w51 (.mxor mx)).me.queue = [qe (.mxor mx) { (w51 (.mxor mx)).me with queue := [] }] ∧ (w51 (.mxor mx)).me.st = .running ∧ (w51 (.mxor mx)).late = false ∧
      okThat (laneBody (.mxor mx) (laneOf (w51 (.mxor mx)).me (qe (.mxor mx) (w51 (.mxor mx)).me)) (w51 (.mxor mx))) (fun _ t => !t.late) = true ∧
      (fmtOf (entWord (qe (.mxor mx) (w51 (.mxor mx)).me).cap.ents (wbits (qe (.mxor mx) (w51 (.mxor mx)).me).cap.vtype 0 4))).valid = true ∧
      511 < (qe (.mxor mx) (w51 (.mxor mx)).me).cap.vl.toNat ∧ 511 < vlmaxOf (w51 (.mxor mx)).me.vc.eff / 32) ∧
    ((w52 0x50032050).me.waiting = true ∧ runs (w52 0x50032050) = some (.barw { bar := 4, sa := 3, hint := 0 }) ∧ runs (w52 0x04221800) = some (.add ⟨1, 2, 3, 0⟩) ∧ (wit id).me.waiting = false) ∧
    ((wit id).me.q[(15 : Fin 16)].bound = false ∧ (w51 (.mxor mx)).me.q[(15 : Fin 16)].bound = true ∧ nextPages (w51 (.mxor mx)).me (w51 (.mxor mx)).me.q[(15 : Fin 16)] = [1] ∧
      ((w51 (.mxor mx)).me.q[(15 : Fin 16)].prep.any (transHit { asid := 0, priv := 0, holder := .core 0 } 4096)) = false) ∧
    ((w53 cmd0).myCore.arr.ops = [op1, { op1 with num := 2, fin := true }] ∧ op1.sig = none ∧ (wit id).myCore.arr.ops = [] ∧ (w53 cmd0).myCore.slots[(31 : Fin 32)].mld = true ∧ ((w53 cmd0).me.vland.all fun l => l.dst != 63) = true ∧
      (let s := (w53 cmd0).modMe fun c => { c with vland := [flying 63 (some 64) (some trim3)] }
       s.me.vland.find? (fun l => l.dst == 63) = some (flying 63 (some 64) (some trim3)) ∧ openFills s { core := 0, lc := s.myCore.slots[(31 : Fin 32)].owner } 31 = []) ∧
      openFills (w53 cmd0) { core := 0, lc := (w53 cmd0).myCore.slots[(31 : Fin 32)].owner } 31 = [] ∧
      ((w53 { cmd0 with finished := true, followed := false }).tug tug15).queue.find? (fun k => k.num == 1) = some { cmd0 with finished := true, followed := false } ∧
      (TugId.key tug15, 1) ∉ (w53 cmd0).myCore.arr.pend ∧ w54.myCore.arr.pend = [] ∧ arrayHead w54 0 = some ctx0 ∧ okThat (laneBody (.mzero { acc := 15, hint := 0 }) (laneOf w54.me (qe (.mzero { acc := 15, hint := 0 }) w54.me)) w54) (fun _ t => !t.late) = true ∧ arrayHead (wit id) 0 = none) := by
  refine ⟨?_, ?_, ?_, ?_⟩ <;> decide +kernel

/-- A copy of a row of 64 bytes from pool offset 0x600, read through port 8, to 0x700 of core 0. -/
def rowBlock : BitVec 1024 := BitVec.ofNat 1024 (8 + 0x600 * 2 ^ 64 + 0x700 * 2 ^ 128 + 64 * 2 ^ 192)

def w55 (k : TugCmd) : State := (wit id).modTug tug15 fun t => { t with queue := [k] }

/-- tug15 and tug14 with a command each that needs port 8; the one of tug14 issued earlier, or later with its context reserved. -/
def tug14 : TugId := { tug15 with t := 14 }

def byPort (age : Nat) : TugCmd := { cmd0 with block := rowBlock, age }

def w59 (age : Nat) (held : List RUnit) : State :=
  let g : Graph := { rcb := 0, asid := 0, header := 0, nodes := [], st := .active, spawned := false, handle := 0, cq := 0, sq := 0, seq := 0, reserved := held, breached := false }
  let s := (w55 (byPort 7)).modTug tug14 fun t => { t with queue := [byPort age] }
  { s with graphs := [(0, g)] }

def landing : TugCmd := { cmd0 with started := true, block := rowBlock, out := [[(0x700, List.replicate 64 7)]] }

/-- A tree of one empty leaf, its descriptor at 0x1000 of main memory, its lock free; an append of a key of four FP32 numbers, the identifier and the value before it. -/
def memTree : Nat :=
  1 * 2 ^ 32 + 0x2000 * 2 ^ 128 + 16 * 2 ^ 192 + 1 * 2 ^ 224 + 0x4000 * 2 ^ 256 + 16 * 2 ^ 320 + 4 * 2 ^ 384 + 4 * 2 ^ 400 + 2 * 2 ^ 440 + 2 * 2 ^ 448

def tree2 : Tree := treeOf 0x1000 memTree

def oper (kind : WalkKind) : WalkOp :=
  { num := 1, kind, issuer := some ctx0, node := none, asid := 0, priv := 0, ents := Vector.replicate 8 0, stale := false, fdom := 0, gtag := 0, started := false, locking := false, lock := none, data := [],
    records := [], slot := none, finished := false, fault := none, sig := none }

def appending : WalkOp := { oper (.append 0x6000) with started := true, locking := true, data := List.replicate 40 0 }

def walker (o : WalkOp) : Walker := { w := walk7, op := o, l := layOf tree2 o.ents }

def w56 (o : WalkOp) : State :=
  let s := (wit id).modWalk walk7 fun w => { w with tree := some tree2, closed := false, queue := [o], tlb := [tran] }
  { s with mem := memWrite (memWrite [] (2 ^ 30 + 0x1000) 128 memTree) (2 ^ 30 + 0x2000) 64 (2 ^ 128 + 0x4000 * 2 ^ 192) }

/-- A query with two records for a ring whose slots take one. -/
def emitting : WalkOp := { oper (.query 0 1 64 0 0 7) with started := true, records := [List.replicate 64 1, List.replicate 64 2] }

def w57 (r : Ring) (o : WalkOp) : State := (w56 o).modMyCore fun c => { c with rings := c.rings.set 7 r }

def ring7 (n : Nat) : Ring := { Ring.reset with init := true, slotsz := 64, nslot := n, hdr := 0x100, exps := List.replicate 64 0, lands := List.replicate 64 0 }

theorem test_wit_EngineStepResults :
    (canStart (w55 { cmd0 with started := true }) tug15 { cmd0 with started := true } = false ∧ canStart (w55 { cmd0 with fn := 6 }) tug15 { cmd0 with fn := 6 } = true ∧
      (tblkOf rowBlock).ndim = 1 ∧ (tblkOf rowBlock).dkind = 0 ∧ (tblkOf rowBlock).sport = 8 ∧ (tblkOf rowBlock).dport = 0 ∧ (tblkOf rowBlock).row * (tblkOf rowBlock).esz = 64 ∧
      (∀ p ∈ pieces64 (tblkOf rowBlock).src.toNat 64, p.1 + p.2 ≤ 0x800000 ∧ poolCheck (w55 landing) 0 .node p.1 p.2 = none ∧ poolPoisoned ((w55 landing).core 0) p.1 p.2 = false) ∧
      ((w55 landing).tug tug15).queue.find? (fun k => k.num == 1) = some landing ∧ poolCheck (w55 landing) 0 .node 0x700 64 = none ∧
      ([w59 6 [], w59 8 [.tug tug14]].all fun s => (clusterTugs 0).contains tug14 && sharePort (byPort 6) (byPort 7) && (s.tug tug14).queue.all (startable s tug14)) = true ∧
      tugReserved (w59 6 []) tug14 = tugReserved (w59 6 []) tug15 ∧ tugReserved (w59 8 [.tug tug14]) tug14 = true ∧ tugReserved (w59 8 [.tug tug14]) tug15 = false ∧
      ((w55 cmd0).tug tug15).completed = [] ∧ 1 = ((w55 cmd0).tug tug15).timeline + 1) ∧
    (walk7.walker.val ∉ (w56 (oper .drain)).walkerFenced ∧ ((w56 (oper .drain)).walk walk7).queue = [oper .drain] ∧ (0 : Word).toNat % 64 = 0 ∧ (65 : Word).toNat % 64 ≠ 0 ∧
      ((w56 appending).walk walk7).tree = some tree2 ∧
      okThat ((walker appending).lockPa (w56 appending)) (fun pa s => pa == 2 ^ 30 + 0x1008 && decide (s = w56 appending)) = true ∧
      okThat (lockFree (w56 appending) walk7 (2 ^ 30 + 0x1008) (w56 appending)) (fun b s => b && decide (s = w56 appending)) = true ∧
      okThat (takeLock walk7 (2 ^ 30 + 0x1008) (w56 appending)) (fun _ s1 =>
        okThat ((walker appending).append (w56 appending).transfers.length ((walker appending).l.heldKey appending.data) s1) fun _ u => (u.walk walk7).queue == [appending]) = true) ∧
    ([w57 (ring7 64) emitting, w57 (ringTake (ring7 64) 0 64) { emitting with slot := some 0 }].all fun s => (s.walk walk7).tree == some tree2 && s.myCore.rings[(7 : Fin 8)].init) = true ∧
    (emitting.records ≠ [] ∧ ringNext (ring7 64) = some 0 ∧ (ring7 64).slotsz / (layOf tree2 emitting.ents).rl = 1 ∧
      (ringTake (ring7 64) 0 64).taken.getLsbD 0 = true ∧ (ringTake (ring7 64) 0 64).fill.getLsbD 0 = false ∧
      ([1, 64].map fun n => ringNext { ringTake (ring7 n) 0 64 with fill := 1 }) = [none, some 1]) := by
  refine ⟨?_, ?_, ?_, ?_⟩ <;> decide +kernel

/-! Hypotheses met: the host interface and supervisor requests. -/

/-- The module after power-up, READY, with queue 63 as given and a window that reaches the last 16 bytes of memory. -/
def ready (k : HQueue) : State := { State.reset with dl := { State.reset.dl with st := 4 }, queues := State.reset.queues.set 63 k, memOff := BitVec.ofNat 64 (96 * 2 ^ 38 - 16), memWin := 30 }

def w60 : State := ready HQueue.reset

def w60on : State := ready { HQueue.reset with sqcfg := 0x10C, cqcfg := 0x10C }

theorem test_wit_HostRegisterResults :
    State.reset.dl.st ≠ 4 ∧ w60.dl.st = 4 ∧ (w60.queue 63).tries = 0 ∧ ((1 : BitVec 32) - (w60.queue 63).sqhead).toNat ≤ 2 ^ wbits (w60.queue 63).sqcfg 0 4 ∧
    ¬((2 : BitVec 32) - (w60.queue 63).sqhead).toNat ≤ 2 ^ wbits (w60.queue 63).sqcfg 0 4 ∧ (w60.queue 63).sqcfg.getLsbD 8 = false ∧ (w60on.queue 63).sqcfg.getLsbD 8 = true ∧
    (w60on.queue 63).cqcfg.getLsbD 8 = true ∧ (0x10C : Word).getLsbD 8 = true ∧ wbits (0x10C : Word) 0 4 = 12 ∧ wbits (0x101 : Word) 0 4 = 1 ∧ wbits (0x100 : Word) 0 4 = 0 ∧
    wbits (0x10D : Word) 0 4 = 13 ∧ (30 ≤ 30 ∧ 30 ≤ 45) ∧ ¬(30 ≤ 46 ∧ 46 ≤ 45) ∧
    (2 ^ 30 - 32 + 32 ≤ 2 ^ w60.memWin ∧ w60.memOff.toNat + 15 < w60.memSize ∧ physKind w60 (w60.local (w60.memOff.toNat + 15)) = .memory ∧
      poisoned w60 (w60.local (w60.memOff.toNat + 15)) 1 = false ∧ physKind w60 (w60.local aperture) = .absent ∧
      ¬(w60.fwBase ≤ w60.memOff.toNat + 15 ∧ w60.memOff.toNat + 15 < w60.fwBase + w60.fwSize) ∧ ¬w60.memOff.toNat + 16 < w60.memSize) ∧
    ((tabGet Drive.reset ({ w60 with drives := [(127, { Drive.reset with present := true })] } : State).drives 127).present = true ∧ physKind w60 (w60.local 7) = .memory ∧
      (tabGet Drive.reset w60.drives 127).present = false) := by
  decide +kernel

/-- A NOP for completion queue 62, its CRC right (0xed80) or not, in host memory at 0x1000; queue 63 has fetched none of it. -/
def nopHead (crc : Nat) : Nat := 62 * 2 ^ 16 + 0xFFFF * 2 ^ 160 + crc * 2 ^ 176

def w61 (crc tries : Nat) : State := { ready { HQueue.reset with sqcfg := 0x102, cqcfg := 0x102, sqbase := 0x1000, sqtail := 1, tries, waiting := [{ status := 0, sq := 0, check := 0, tag := 5, time := 0, seq := 0 }] } with
  host0 := memWrite [] 0x1000 64 (nopHead crc) }

def goodHead (s : State) : Bool :=
  let h := memBytes s.host0 0x1000 64
  crc16 (h.take 0x16 ++ [0, 0] ++ h.drop 0x18) == byteField h 0x16 2 && byteField h 4 4 == 0

/-- An address space that maps its low gigabyte to the one from 2^30; a region's block at 0x8000, a graph's header at 0x9000 with one V node at 0xA000, and a header that names no region at 0xB000. -/
def region2 : Nat := 1 * 2 ^ 80 + 0x1FF * 2 ^ 96 + (2 ^ 128 - 1) * 2 ^ 192 + 4 * 2 ^ 320 + 128 * 2 ^ 384

def header2 : Nat := 0x8000 + 0xA000 * 2 ^ 64 + 1 * 2 ^ 128 + 63 * 2 ^ 160 + 1 * 2 ^ 168 + 1 * 2 ^ 176 + 1000 * 2 ^ 192

def node2 : Nat := 0x1000 * 2 ^ 64 + 100 * 2 ^ 192 + 0x80070 * 2 ^ 256

def space (s : State) : State :=
  let m := memWrite (memWrite (memWrite s.mem 0 8 (2 ^ 63 + 2 ^ 20)) (2 ^ 20) 8 (2 ^ 63 + 2 ^ 21)) (2 ^ 21) 8 (2 ^ 63 + 2 ^ 60 + 2 ^ 30 + 0xE60)
  { s with mem := memWrite (memWrite (memWrite m (2 ^ 30 + 0x8000) 256 region2) (2 ^ 30 + 0x9000) 64 header2) (2 ^ 30 + 0xA000) 128 node2 }

def reg2 : Region := { va := 0x8000, asid := 0, lastDie := 7, spawned := 0, block := BitVec.ofNat 2048 region2 }

def w62 : State := { space w60 with regions := [reg2] }

def isOk {α β : Type} : Except α β → Bool
  | .ok _ => true
  | .error _ => false

def errIs {α : Type} (n : Nat) : Except Nat α → Bool
  | .ok _ => false
  | .error m => m == n

/-- The graph with a best-effort header. -/
def headerBe : Nat := 0x8000 + 0xA000 * 2 ^ 64 + 1 * 2 ^ 128 + 63 * 2 ^ 160

def w62be : State := { w62 with mem := memWrite w62.mem (2 ^ 30 + 0x9000) 64 headerBe }

theorem test_wit_HostCommandResults :
    ((w61 0xed80 0).dl.st = 4 ∧ ((w61 0xed80 0).queue 63).sqcfg.getLsbD 8 = true ∧ ((w61 0xed80 0).queue 63).sqtail ≠ ((w61 0xed80 0).queue 63).sqhead ∧ goodHead (w61 0xed80 0) = true ∧
      headOk (memBytes (w61 0xed80 0).host0 0x1000 64) = true ∧ goodHead (w61 0 0) = false ∧ ((w61 0 15).queue 63).tries < 16 ∧ ((w61 0 16).queue 63).tries = 16 ∧
      (Fin.ofNat 64 (byteField (memBytes (w61 0 16).host0 0x1000 64) 2 1)) ≠ (63 : Fin 64)) ∧
    (((w61 0 0).queue 63).waiting = [{ status := 0, sq := 0, check := 0, tag := 5, time := 0, seq := 0 }] ∧ ((w61 0 0).queue 63).cqcfg.getLsbD 8 = true ∧
      (((w61 0 0).queue 63).cqtail - ((w61 0 0).queue 63).cqhead).toNat < 2 ^ wbits ((w61 0 0).queue 63).cqcfg 0 4) ∧
    ((0x9001 : BitVec 64).toNat % 64 ≠ 0 ∧ nbit header2 168 = true ∧
      okThat (tryRead 0 0x9000 64 w62) (fun v u => v == some header2 && okThat (checkGraph 0 (BitVec.ofNat 512 header2) u) fun r _ => isOk r) = true ∧
      okThat (tryRead 0 0x9000 64 (space w60)) (fun v u => v == some header2 && okThat (checkGraph 0 (BitVec.ofNat 512 header2) u) fun r _ => errIs 1 r) = true) ∧
    (w62.region 0x8000 = some reg2 ∧ reg2.asid = 0 ∧ regionBusy w62 0x8000 = false ∧ (space w60).region 0x8000 = none ∧
      okThat (readRegion 0 0x8000 (space w60)) (fun b u => b == some (BitVec.ofNat 2048 region2) && regionOk { u with regions := [reg2] } reg2) = true) ∧
    (nbit headerBe 168 = false ∧
      okThat (tryRead 0 0x9000 64 w62be) (fun v u => v == some headerBe && okThat (checkGraph 0 (BitVec.ofNat 512 headerBe) u) fun r _ => match r with
        | .ok l => l.any (fun n => n.preds == 0 && decide (n.st = .waiting))
        | .error _ => false) = true ∧
      okThat (tryRead 0 0x80000000 64 w62) (fun v _ => v == none) = true ∧ w62.region 0x8000 = some reg2 ∧ reg2.asid ≠ 1) ∧
    w60.regions = [] ∧ (0 < 128 ∧ (tabGet Drive.reset ({ w60 with drives := [(0, { Drive.reset with present := true })] } : State).drives 0).present = true) := by
  refine ⟨?_, ?_, ?_, ?_, ?_, ?_⟩ <;> decide +kernel

/-- A request block at module-local 2^25: the operation, FLAGS, context 3 of core 1023, its image. -/
def reqBlock (op image : Nat) : Nat := op + 3 * 2 ^ 16 + 1023 * 2 ^ 32 + image * 2 ^ 64

def ctxTop : CtxId := { core := 1023, lc := 3 }

def w63 (op image : Nat) (st : CtxStatus) : State :=
  ({ State.reset with ctrls := [2 ^ 25], mem := memWrite [] (2 ^ 25) 64 (reqBlock op image) } : State).modCtx ctxTop fun x => { x with st }

/-- An invalidation of a page of address space 1, or with a reserved flag. -/
def w64 (flags : Nat) : State := { State.reset with invals := [2 ^ 25], mem := memWrite [] (2 ^ 25) 64 (1 + flags * 2 ^ 16 + 12 * 2 ^ 32 + 0x7000 * 2 ^ 64) }

/-- An idle walk context, and one in the middle of an append, that holds a translation of the span. -/
def holding (o : List WalkOp) : State := (w64 0).modWalk walk7 fun w => { w with queue := o, tlb := [{ tran with asid := 1, glob := false }] }

def heldBy (s : State) : Bool :=
  s.walks.any fun w => w.2.busy && w.2.tlb.any ({ asid := 1, allVa := false, allAsid := false, global := false, span := 12, va := 0x7000 } : Inval).hits

/-- A store of address space 1 that has yet to be performed. -/
def storing : State := (w64 0).modMe fun c => { c with asid := 1, stores := [{ loc := .mem (2 ^ 30) 0, bytes := 8, value := 1, rel := false }] }

theorem test_wit_RequestResults :
    ((w63 0 0 .running).ctrls = [2 ^ 25] ∧ ctlOf { w63 0 0 .running with ctrls := [] } (2 ^ 25) = some { op := 0, lazy := false, hold := false, ctx := ctxTop, image := 0 } ∧
      ctlOp (w63 0 0 .running) (2 ^ 25) = 0 ∧ ((w63 0 0 .running).ctx ctxTop).resident = true ∧ ((w63 0 0 .free).ctx ctxTop).resident = false) ∧
    (ctlOf { w63 1 65536 .running with ctrls := [] } (2 ^ 25) = some { op := 1, lazy := false, hold := false, ctx := ctxTop, image := 65536 } ∧ ctlOp (w63 1 65536 .running) (2 ^ 25) = 1) ∧
    (ctlOf { w63 2 0 .parked with ctrls := [] } (2 ^ 25) = some { op := 2, lazy := false, hold := false, ctx := ctxTop, image := 0 } ∧ ctlOp (w63 2 0 .parked) (2 ^ 25) = 2 ∧
      ((w63 2 0 .parked).ctx ctxTop).st = .parked ∧ ((w63 2 0 .running).ctx ctxTop).st = .running ∧
      ctlOf { w63 2 65536 .free with ctrls := [] } (2 ^ 25) = some { op := 2, lazy := false, hold := false, ctx := ctxTop, image := 65536 }) ∧
    (ctlOf { w63 3 0 .halted with ctrls := [] } (2 ^ 25) = some { op := 3, lazy := false, hold := false, ctx := ctxTop, image := 0 } ∧ ctlOp (w63 3 0 .halted) (2 ^ 25) = 3 ∧
      ctlOf { w63 4 0 .halted with ctrls := [] } (2 ^ 25) = none ∧ ctlOp (w63 4 0 .halted) (2 ^ 25) = 0) ∧
    ((w64 0).invals = [2 ^ 25] ∧ invalOf { w64 0 with invals := [] } (2 ^ 25) = some { asid := 1, allVa := false, allAsid := false, global := false, span := 12, va := 0x7000 } ∧
      invalOf { w64 8 with invals := [] } (2 ^ 25) = none ∧ ∀ t ∈ (w64 0).tugs, ∀ k ∈ t.2.queue, k.started = false ∨ k.finished = true) ∧
    (heldBy (holding []) = false ∧ heldBy (holding [appending]) = true ∧ (holding [appending]).invals = [2 ^ 25]) ∧
    (storing.invals = [2 ^ 25] ∧ storing.ctxs.any (fun c => c.2.asid == 1 && c.2.stores.any fun p => match p.loc with | .mem _ _ => true | _ => false) = true) := by
  refine ⟨?_, ?_, ?_, ?_, ?_, ?_, ?_⟩ <;> decide +kernel

/-- A context with v31 dirty, a lease and a binding, slot 5 its own, 16 slices of ACC, its node 0 of a graph whose node 2 runs elsewhere; and one with nothing. -/
def w65 : State := (w15n.modMe fun c => { c with lease := some { micros := 5, clock := 3600 }, v := c.v.set 31 { VReg.reset with dirty := true } }).modMyCore fun k => { k with part := 100 + 16 * 2 ^ 8 + 8 * 2 ^ 16 }

/-- An image whose VLIVE has v0, with slot 5 and tiles, or with ring 7. -/
def img65 (rings : Bool) : Memory :=
  memWrite (memWrite (memWrite (memWrite (memWrite [] 0x14858 8 1) 0x2000C 4 32) 0x20030 8 1) 0x20000 8 (100 + 16 * 2 ^ 8 + 8 * 2 ^ 16)) (0x2A40C + 0x240 * 7) 1 rings.toNat

theorem test_wit_ContextImages :
    (w65.me.land = [] ∧ w65.me.queue = [] ∧ w65.me.gather = [] ∧ w65.me.rels = [] ∧ w65.me.stores = [] ∧ (∀ r : Fin 32, w65.me.v[r].full = true) ∧ (∀ n : Fin 32, w65.myCore.slots[n].mld = false) ∧
      w65.myCore.arr.ops = [] ∧ w65.myCore.retained = 0 ∧ w65.me.vc.erule.getLsbD 4 = false ∧ 31 < w65.me.count ∧ w65.me.v[(31 : Fin 32)].dirty = true ∧ w65.me.vc.eff.toNat < 3 ∧
      w65.me.vc.vuse.getLsbD 31 = false ∧ (w65.me.binds.map (·.idx)).Nodup ∧ w65.me.binds ≠ []) ∧
    (w65.me.lease = some { micros := 5, clock := 3600 } ∧ (wit id).me.lease = none ∧ 8 * (w65.cur.lc.val % 4) + 8 ≤ partAcc w65.myCore.part ∧ partAcc w65.myCore.part < 8 * ((3 : Fin 8).val % 4) + 8 ∧
      [(tug15, { tugSignal 1 ctxTop (sigNow State.reset ctxTop) with block := 7 })].length ≤ 256 ∧ (w65.myCore.slots[(5 : Fin 32)]).ownedBy w65.cur.lc = true ∧
      (let r := (w14 0 0).myCore.rings[(7 : Fin 8)]; r.init = true ∧ r.owner = 0) ∧ imageInMem w65 (2 ^ 26) = true) ∧
    (w65.me.node = some ⟨7, 0⟩ ∧ tabFind w65.graphs 7 = some endGraph1 ∧ endGraph1.nodes[0]? = some (nodeAt .running [1, 3] 0) ∧ endGraph1.nodes[2]? = some (nodeAt .running [] 0)) ∧
    (w65.me.st ≠ .free ∧ (nbit (memRead (img65 false) 0x2000C 4) 5 = true ∧ w65.myCore.slots[(5 : Fin 32)].st ≠ .free) ∧
      (memRead (img65 true) (0x2A40C + 0x240 * 7) 1 ≠ 0 ∧ (w14 0 0).myCore.rings[(7 : Fin 8)].init = true) ∧ w65.cur ∈ residents w65 0 ∧ w65.myCore.part ≠ BitVec.ofNat 64 (memRead [] 0x20000 8)) ∧
    (heldRegions State.reset 0 = [] ∧ memRead (img65 false) (0x2A40C + 0x240 * 7) 1 = 0 ∧ nbit (memRead (img65 false) 0x20030 8) 0 = true ∧ nbit (memRead [] 0x20030 8) 0 = false ∧
      (let t := loadSaved State.reset ctx0 (img65 false) false true
       (t.ctx ctx0).vc.vlive.getLsbD 0 = true ∧ 0 < countOf (t.ctx ctx0).vc.eff ∧ memRead (img65 false) (bookOff + 288) 1 = 0 ∧ 8 ≤ partAcc (t.core 0).part)) := by
  refine ⟨?_, ?_, ?_, ?_, ?_⟩ <;> decide +kernel

/-! Hypotheses met: the schedulers, the links, repair, power. -/

/-- A graph of node2 in region 0x8000 that has reserved context 0, its node in the state given; a best-effort one after it. -/
def gnode2 (st : NodeState) : GNode := { newNode (BitVec.ofNat 1024 node2) [] (some 0) with st, ran := if st = .running then some (.ctx ctx0) else none }

def graph2 (st : GraphState) (reserved : List RUnit) (node : GNode) : Graph :=
  { rcb := 0x8000, asid := 0, header := BitVec.ofNat 512 header2, nodes := [node], st, spawned := false, handle := 0, cq := 63, sq := 63, seq := 0, reserved, breached := false }

def w70 (st : GraphState) (reserved : List RUnit) (node : GNode) : State := { w62 with graphs := [(0, graph2 st reserved node)] }

def cand2 : Cand := { ref := ⟨0, 0⟩, graph := graph2 .active [.ctx ctx0] (gnode2 .ready), node := gnode2 .ready }

def w71 : State := w70 .active [.ctx ctx0] (gnode2 .ready)

/-- The reserved context running another node of the graph under the node's word, so that the node is handed to its core ahead; and the core free again, with the node handed to it. -/
def cand4 : Cand := { cand2 with graph := { cand2.graph with nodes := [gnode2 .ready, gnode2 .running] } }

def w77 : State :=
  (({ w71 with graphs := [(0, cand4.graph)] } : State).modCore 0 fun k => { k with part := dPart cand2.node.desc }).modCtx ctx0 fun x => { x with st := .running, rcb := 0x8000, node := some ⟨0, 1⟩ }

def w78 : State := w71.modCore 0 fun k => { k with next := some cand2.ref }

/-- A best-effort graph of one node that is ready. -/
def cand3 : Cand := { cand2 with graph := { graph2 .active [] (gnode2 .ready) with header := BitVec.ofNat 512 (header2 - 2 ^ 168) } }

def w79 : State := { w62 with graphs := [(0, cand3.graph)] }

/-- The die's commons hold the node's code from its entry point on. -/
def w71code : State := { w71 with code := (List.range 17).map fun i => { die := 0, asid := 0, page := i + 1, bytes := [] } }

/-- A page of code at 0x1000 that may be fetched, of an address space without hashes and of one whose code lies at 0x1000, hashed at 2^22. -/
def w72 (cflags : Nat) : State := { w62 with mem := memWrite w62.mem 8 24 (0x1000 + 1 * 2 ^ 64 + cflags * 2 ^ 96 + 2 ^ 22 * 2 ^ 128) }

def sched : Who := { asid := 0, priv := 2, holder := .nobody }

/-- An address in this module's main memory. -/
def inOwn (s : State) (pa : Nat) : Bool := decide (physKind s pa = .memory) && paHome pa == s.modId.val

theorem test_wit_DispatchAndCodeResults :
    (dieChoice w60 0 = none ∧ ((sortCands (poolOf w71 0)).filter fun c => c.graph.admitted) = [cand2] ∧ findFree w71 [] 0 cand2 = some (.ctx ctx0) ∧
      dieChoice w71 0 = some (.start cand2 (.ctx ctx0)) ∧ partOk (dPart cand2.node.desc) = true ∧ w71.gnode cand2.ref = some cand2.node ∧
      (dEntry cand2.node.desc < ownBase ∧ dEntry cand2.node.desc / 4096 = 1 ∧ (dEntry cand2.node.desc + aheadBytes) / 4096 = 17 ∧
        ((List.range 17).all fun i => (findCode w71code (dieOf 0) (nodeAsid w71code cand2.graph) (i + 1)).isSome) = true) ∧
      handOver w60 0 = none ∧ dieChoice w77 0 = none ∧ handOver w77 0 = some (cand4, 0) ∧ (w77.ctx ctx0).st = .running ∧
      heldRegions w71 1023 = [] ∧ heldRegions (wit id) 0 ≠ [] ∧ clearFor w71 0 = some cand2 ∧ heldRegions w71 0 = []) ∧
    (w78.myCore.next = some cand2.ref ∧ readyCand w78 cand2.ref = some cand2 ∧ (w78.ctx ctx0).resident = false ∧ w78.myCore.service = .inService ∧
      ctx0 ∈ wordCtxs (dPart cand2.node.desc) 0 ∧ joins w78 0 (dPart cand2.node.desc) 0x8000 = true ∧ allowed w78 cand2 (.ctx ctx0) = true) ∧
    (((sortCands (poolOf w79 0)).filter fun c => c.graph.admitted) = [] ∧ resumeLent w79 0 w79.lent = none ∧ ((sortCands (poolOf w79 0)).filter fun c => !c.graph.admitted) = [cand3] ∧
      (findFree w79 [] 0 cand3).isSome = true) ∧
    (okThat (walkVa sched 0x1000 (w72 0)) (fun t u => leafCause u sched 0x1000 .fetch t == none && decide (physKind u (transPa t 0x1000) = .memory) &&
        !poisoned u (transPa t 0x1000 / 4096 * 4096) 4096 && okThat (asidEntry 0 0x1000 u) fun e v => !nbit e.cflags 0 && inOwn v (transPa t 0x1000 / 4096 * 4096)) = true ∧
      okThat (walkVa sched 0x1000 (w72 1)) (fun t u => leafCause u sched 0x1000 .fetch t == none && decide (physKind u (transPa t 0x1000) = .memory) &&
        !poisoned u (transPa t 0x1000 / 4096 * 4096) 4096 && okThat (asidEntry 0 0x1000 u) fun e v => nbit e.cflags 0 && decide (e.codeBase ≤ 0x1000 ∧ 0x1000 < e.codeBase + 4096 * e.codePages) &&
          inOwn v (transPa t 0x1000 / 4096 * 4096) && okThat (tableRead 0x1000 (e.hashBase + 32 * ((0x1000 - e.codeBase) / 4096)) 32 v) fun _ _ => true) = true) := by
  refine ⟨?_, ?_, ?_, ?_, ?_⟩ <;> decide +kernel

/-- Admission with a unit to be had, and with a region of no cluster; a running node within and past its time, and past the deadline. -/
def w73 (time : Nat) (past : Bool) : State := { w70 .active [.ctx ctx0] { gnode2 .running with overrun := past } with time }

theorem test_wit_DeadlineResults :
    (tabFind (w70 .admitting [] (gnode2 .waiting)).graphs 0 = some (graph2 .admitting [] (gnode2 .waiting)) ∧
      (findUnits (w70 .admitting [] (gnode2 .waiting)) 0x8000 false 1 0 0).isSome = true ∧
      ((planOf (w70 .admitting [] (gnode2 .waiting)) (graph2 .admitting [] (gnode2 .waiting)) [.ctx ctx0]).times [gnode2 .waiting]).isSome = true ∧
      findUnits { w70 .admitting [] (gnode2 .waiting) with regions := [{ reg2 with block := 0 }] } 0x8000 false 1 0 0 = none ∧
      (graph2 .admitting [] (gnode2 .waiting)).spawned = false ∧ (graph2 .admitting [] (gnode2 .waiting)).reserved = []) ∧
    (tabFind (w73 0 false).graphs 0 = some (graph2 .active [.ctx ctx0] (gnode2 .running)) ∧ (graph2 .active [.ctx ctx0] (gnode2 .running)).nodes[0]? = some (gnode2 .running) ∧
      ((planOf (w73 0 false) (graph2 .active [.ctx ctx0] (gnode2 .running)) [.ctx ctx0]).time (gnode2 .running)).any (fun t =>
        let u := (planOf (w73 0 false) (graph2 .active [.ctx ctx0] (gnode2 .running)) [.ctx ctx0]).unit
        (w73 0 false).time * u < t * 1000 && t * 1000 ≤ (w73 1000000000 false).time * u) = true ∧
      (gnode2 .running).overrun = false ∧ (graph2 .active [.ctx ctx0] (gnode2 .running)).breached = false) ∧
    (tabFind (w73 1001 true).graphs 0 = some (graph2 .active [.ctx ctx0] { gnode2 .running with overrun := true }) ∧
      (planOf (w73 1001 true) (graph2 .active [.ctx ctx0] { gnode2 .running with overrun := true }) [.ctx ctx0]).within (w73 1001 true).time 0 1000 = false ∧
      (planOf (w73 1000 true) (graph2 .active [.ctx ctx0] { gnode2 .running with overrun := true }) [.ctx ctx0]).within (w73 1000 true).time 0 1000 = true ∧
      (∃ n ∈ (graph2 .active [.ctx ctx0] (gnode2 .running)).nodes, n.st = .running) ∧ (w73 0 false).fdTable = none) := by
  refine ⟨?_, ?_, ?_⟩ <;> decide +kernel

/-- Port 35 with flits 3 and 4 held, after seven failed replays and after eight; link 95 after 15 retries and after 16, with one retraining failed within the hour and with two; an acknowledged sequence number. -/
def w74 (failed retries : Nat) (failures : List Nat) : State :=
  { State.reset with ports := [(35, { Port.reset with replay := [3, 4], bad := some 4, failed })], links := [(95, { MemLink.reset with retries, failures })], applied := [(143, 9)], transfers := [{ dst := 1, seq := 9, plane := some 0, sent := 0 }] }

/-- A module with modules 1 and 2 in its domain, the second out of reach; and one with no live plane. -/
def domain : State := { State.reset with members := [1, 2], unreachable := [2] }

def noPlane : State := { domain with ports := (List.range 36).map fun p => (p, { Port.reset with live := false }) }

theorem test_wit_LinkAndFenceResults :
    (paHome 0 = State.reset.modId.val ∧ paHome (96 * 2 ^ 38 - 1) = State.reset.modId.val ∧ physKind State.reset (96 * 2 ^ 38 - 1) = .memory ∧ (143, 9) ∉ State.reset.applied ∧ (143, 9) ∈ (w74 0 0 []).applied ∧
      physKind State.reset 0 = .memory ∧ physKind State.reset 7 = .memory) ∧
    (paHome (2 ^ 52) ≠ domain.modId.val ∧ livePlane domain = some 0 ∧ livePlane noPlane = none ∧ (∃ m ∈ domain.members, m.val = paHome (2 ^ 52)) ∧ (∀ m ∈ domain.unreachable, m.val ≠ paHome (2 ^ 52)) ∧
      (∃ m ∈ domain.unreachable, m.val = paHome (2 * 2 ^ 52)) ∧ (∀ m ∈ domain.members, m.val ≠ paHome (3 * 2 ^ 52)) ∧ physKind domain (2 ^ 52) ≠ .absent) ∧
    (BitVec.ofNat 64 (memRead State.reset.mem 0 8) = 0 ∧ (0 : BitVec 64) ≠ 1) ∧
    ((w74 0 0 []).transfers.any (fun t => t.plane != some 35 && t.sent + 10000 ≤ 10000) = true ∧ (w74 0 0 []).transfers.all (fun t => !decide (t.sent + 10000 ≤ (w74 0 0 []).time)) = true) ∧
    (((w74 1 0 []).port 35).bad = some 4 ∧ 4 ≤ 4) ∧
    ((w74 7 0 []).port 35).live = true ∧ 4 ∈ ((w74 7 0 []).port 35).replay ∧ ((w74 7 0 []).port 35).failed < 8 ∧ 8 ≤ ((w74 8 0 []).port 35).failed ∧ ((w74 8 0 []).port 35).fenced = false ∧
    (State.reset.port 35).bad = none ∧ ((w74 0 15 []).memLink 95).fenced = false ∧ ((w74 0 15 []).memLink 95).retries < 16 ∧ 16 ≤ ((w74 0 16 []).memLink 95).retries ∧
    ((((w74 0 16 [0]).memLink 95).failures.filter fun t => (w74 0 16 [0]).time < t + 3600000000000).length < 2 ∧
      2 ≤ (((w74 0 16 [0, 0]).memLink 95).failures.filter fun t => (w74 0 16 [0, 0]).time < t + 3600000000000).length) ∧
    (143 < 144 ∧ 143 ≠ State.reset.modId.val) ∧ (State.reset.cluster (1023 / 8)).spareUsed = false := by
  refine ⟨?_, ?_, ?_, ?_, ?_, ?_⟩ <;> decide +kernel

/-- Cluster 127 with a limit of 10: seven pairs withdrawn, all of them with the gap at 1, and at 2 with CAP at the floor; seven quiet microseconds with CAP at 3,700, at 3,800 with a gap, and with nothing left to undo. -/
def w75 (k : Cinch) : State := State.reset.modCluster 127 fun x => { x with cinch := { k with limit := 10 } }

def quiet (cap gap : Nat) : Cinch := { Cinch.reset with recent := List.replicate 7 8, quiet := 7, cap, gap }

def cinch (s : State) : Cinch := (s.cluster 127).cinch

/-- A current where the leakage table has none. -/
def hot : SensorReading := { milliamps := 1, celsius := 25, millivolts := 600 }

theorem test_wit_PowerAndBringUpResults :
    (10 * (cinch (w75 Cinch.reset)).limit < 10 * 11 ∧ (cinch (w75 { Cinch.reset with wd := 0x7F })).wd.getLsbD 7 = false ∧
      (∀ j : Fin 8, j.val < 7 → (cinch (w75 { Cinch.reset with wd := 0x7F })).wd.getLsbD j.val = true) ∧
      (cinch (w75 { Cinch.reset with wd := 255, gap := 1 })).gap < 2 ∧
      (let k := cinch (w75 { Cinch.reset with wd := 255, gap := 2 })
       k.wd = 255 ∧ k.gap = 2 ∧ max k.floor (min k.cap (topClock (w75 { Cinch.reset with wd := 255, gap := 2 }) 127) - 100) < k.cap) ∧
      ((cinch (w75 { Cinch.reset with wd := 255, gap := 2, cap := 3300 })).cap = (cinch (w75 { Cinch.reset with wd := 255, gap := 2, cap := 3300 })).floor)) ∧
    (10 * 8 ≤ 10 * (cinch (w75 (quiet 3700 0))).limit ∧ 7 ≤ (cinch (w75 (quiet 3700 0))).recent.length ∧ 7 ≤ (cinch (w75 (quiet 3700 0))).quiet ∧
      (∀ x ∈ (8 :: (cinch (w75 (quiet 3700 0))).recent).take 8, 100 * x < 9 * (10 * (cinch (w75 (quiet 3700 0))).limit)) ∧ (cinch (w75 (quiet 3700 0))).cap < 3800 ∧
      3800 ≤ (cinch (w75 (quiet 3800 1))).cap ∧ 0 < (cinch (w75 (quiet 3800 1))).gap ∧ (cinch (w75 (quiet 3800 0))).gap = 0 ∧ (cinch (w75 (quiet 3800 0))).wd = 0 ∧
      (let k := cinch (w75 { quiet 3800 0 with wd := 0x81 })
       3800 ≤ k.cap ∧ k.gap = 0 ∧ k.wd.getLsbD 7 = true ∧ ∀ j : Fin 8, 7 < j.val → k.wd.getLsbD j.val = false)) ∧
    (poolSize / 8 - 1 < poolSize / 8 ∧ physKind State.reset (64 * (96 * 2 ^ 32 - 1)) = .memory) ∧
    (((wit fun c => { c with lease := some { micros := 0, clock := 3600 } }).me.lease = some { micros := 0, clock := 3600 })) ∧
    (readsOff Cinch.reset.leakage hot = true ∧ readsOff Cinch.reset.leakage { hot with milliamps := 0 } = false ∧ (cinch (w75 { Cinch.reset with drift := 1 })).drift + 1 < 3 ∧
      3 ≤ (cinch (w75 { Cinch.reset with drift := 2 })).drift + 1 ∧ (cinch (w75 { Cinch.reset with drift := 2 })).drifting = false ∧ (cinch (w75 { Cinch.reset with drift := 2, drifting := true })).drifting = true) ∧
    (clusterIdle (wit id) 0 = false ∧ clusterIdle State.reset 127 = true ∧ (cinch (w75 { Cinch.reset with overs := 99 })).overs < 100 ∧ 100 ≤ (cinch (w75 { Cinch.reset with overs := 100, floor := 2001 })).overs ∧
      2000 < (cinch (w75 { Cinch.reset with overs := 100, floor := 2001 })).floor ∧ (cinch (w75 { Cinch.reset with overs := 100, floor := 2000 })).floor ≤ 2000 ∧ (w75 Cinch.reset).graphs = []) := by
  refine ⟨?_, ?_, ?_, ?_, ?_, ?_⟩ <;> decide +kernel

/-- An image without payload, its digest SHA-384 of nothing; its version is 1, the fuse's or one below it. What its signatures are worth is `Config`'s (log 10): the two checks have no value here. -/
def imageHead : Nat :=
  1 * 2 ^ 32 + ofBytes ((List.range 48).map fun i => BitVec.ofNat 8 (0x38b060a751ac96384cd9327eb1b1e36a21fdb71114be07434c0cc7bf63f6e1da274edebfe76f65fbd51ad2f14898b95b / 256 ^ (47 - i))) * 2 ^ 128

def w76 (fuse len : Nat) : State := { State.reset with dl := { State.reset.dl with st := 1, addr := 0x4000, len := BitVec.ofNat 64 len }, fuse, host0 := memWrite [] 0x4000 64 imageHead }

def imageOk (s : State) : Bool :=
  let img := memBytes s.host0 s.dl.addr.toNat s.dl.len.toNat
  byteField img 8 8 + 0x2000 == s.dl.len.toNat && sha384Digest (img.drop 0x2000) == (img.drop 0x10).take 48

/-- A plan for every cluster, FLOOR 2,000 and LMAX 3,800, at the 8.5 kW: 66 W for each and 52 W for the I/O dies; one milliwatt more is none. -/
def plans (days ioDraw : Nat) : PowerPlan := { ioDraw, clusters := (List.finRange 128).map fun cluster => { cluster, volts := 1000, floor := 2000, lmax := 3800, limit := 66000, marginDays := days, leakage := Vector.replicate 64 0 } }

theorem test_wit_PlansOk : plansOk State.reset (plans 89 52000) = true ∧ plansOk State.reset (plans 89 52001) = false ∧ plansOk State.reset { clusters := [], ioDraw := 0 } = false ∧
    (∃ p ∈ (plans 89 0).clusters, p.marginDays < 90) ∧ ((plans 90 0).clusters.all fun p => 90 ≤ p.marginDays) = true ∧ plansOk (w76 1 0x2000) (plans 90 0) = true := by
  refine ⟨?_, ?_, ?_, ⟨_, List.mem_map.2 ⟨0, List.mem_finRange _, rfl⟩, by decide⟩, ?_, ?_⟩ <;> decide +kernel

theorem test_wit_BringUpResults :
    State.reset.dl.st ≠ 1 ∧ (w76 1 0x2000).dl.st = 1 ∧ imageOk (w76 1 0x2000) = true ∧ (w76 1 0x2000).fuse ≤ byteField (memBytes (w76 1 0x2000).host0 0x4000 64) 4 4 ∧
    byteField (memBytes (w76 2 0x2000).host0 0x4000 64) 4 4 < (w76 2 0x2000).fuse ∧ ¬0x2000 ≤ (w76 1 0x1FFF).dl.len.toNat ∧ State.reset.graphs = [] := by
  decide +kernel

/-! Hypotheses met: decoding, the step, the memories. -/

theorem test_wit_DecodeOfEncode : wf (.add ⟨31, 31, 31, 0⟩) = true ∧ encode (.add ⟨31, 31, 31, 0⟩) = some 0x07FFF800 ∧ wf (.codeFill 7 0 0) = true := ⟨rfl, rfl, rfl⟩

theorem test_wit_EncodeOfDecode : 0x07FFF800 < 2 ^ 32 ∧ decode 0x07FFF800 = .ok (.add ⟨31, 31, 31, 0⟩) := ⟨by decide, rfl⟩

theorem test_wit_ReservedWordsRefused : (2 ^ 32 - 1 : Nat) < 2 ^ 32 ∧ (2 ^ 32 - 1 : Nat) / 2 ^ 26 = 0x3F := ⟨by decide, by decide⟩

/-- ADD placed at the PC of the context; a word of no instruction; a turn of the hardware; the fetch at a page that is held, and at an odd address. -/
def w80 (word : Nat) : State := placeWord (wit id) 32 word

def here (s : State) : State := State.modMe { passTime s with agenda := [], cur := ctx0, late := false } requeue

def w81 : State := { w80 0x04221800 with code := [{ die := 0, asid := 0, page := 1, bytes := memWrite [] 0 4 0x04221800 }] }

theorem test_wit_StepRunsTheDecodedInstruction :
    (passTime (w80 0x04221800)).agenda = [.ctx ctx0 false] ∧ (here (w80 0x04221800)).me.st = .running ∧ (here (w80 0x04221800)).me.pendTraps = [] ∧ (here (w80 0x04221800)).me.queue = [] ∧
    (here (w80 0x04221800)).me.laneHeld = false ∧ okThat (fetchWord 0x1000 (here (w80 0x04221800))) (fun w _ => w == 0x04221800) = true ∧ decodeTableWord 32 0x04221800 = some (.add ⟨1, 2, 3, 0⟩) ∧
    okThat (fetchWord 0x1000 (here (w80 0))) (fun w _ => w == 0) = true ∧ decodeTableWord 32 0 = none ∧
    (passTime { State.reset with agenda := [.event .powerLoss] }).agenda = [.event .powerLoss] ∧
    (findCode w81 (dieOf 0) 0 1).isSome = true ∧
    okThat (coreLoc 0 { asid := 0, priv := w81.me.priv, holder := .core 0 } 0x1000 4 1 .fetch true w81) (fun l _ => match l with | .mem _ _ => true | _ => false) = true ∧ (0x1001 : Nat) % 4 ≠ 0 := by
  refine ⟨?_, ?_, ?_, ?_, ?_, ?_, ?_, ?_, ?_, ?_, ?_, ?_, ?_⟩ <;> decide +kernel

theorem test_wit_MemoryReadsBack : physKind State.reset (96 * 2 ^ 38 - 1) = .memory ∧ paHome (96 * 2 ^ 38 - 1) = State.reset.modId.val := by decide +kernel

/-- A step of a module whose memory has the canonical form: a turn of the hardware, at power-up. -/
theorem test_wit_StepKeepsMemory : State.reset.MemOk ∧ ∃ t, step { State.reset with agenda := [.event .powerLoss] } = .next t := by
  refine ⟨?_, _, rfl⟩
  exact ⟨by decide, by decide, by decide, (by intro e h; cases h), (by intro l h; cases h)⟩


/-! Words written out from the encodings: the fixed bits of each row of the opcode table, and every operand in the place its format gives it (R124 to R135). One word of every instruction. -/

theorem test_words_salu : ([
    (0x07B67800, .add ⟨29, 22, 15, 0⟩),
    (0x07957009, .sub ⟨28, 21, 14, 1⟩),
    (0x07746812, .and ⟨27, 20, 13, 2⟩),
    (0x0753601B, .or ⟨26, 19, 12, 3⟩),
    (0x07325820, .xor ⟨25, 18, 11, 0⟩),
    (0x07115029, .sll ⟨24, 17, 10, 1⟩),
    (0x06F04832, .srl ⟨23, 16, 9, 2⟩),
    (0x06CF403B, .sra ⟨22, 15, 8, 3⟩),
    (0x06AE3840, .mul ⟨21, 14, 7, 0⟩),
    (0x068D3049, .mulh ⟨20, 13, 6, 1⟩),
    (0x066C2852, .div ⟨19, 12, 5, 2⟩),
    (0x064B205B, .divu ⟨18, 11, 4, 3⟩),
    (0x062A1860, .rem ⟨17, 10, 3, 0⟩),
    (0x06091069, .remu ⟨16, 9, 2, 1⟩),
    (0x05E80872, .min ⟨15, 8, 1, 2⟩),
    (0x05C7007B, .max ⟨14, 7, 0, 3⟩)] : List (Nat × Instr)).all (fun p => decodeTableWord 32 p.1 == some p.2) = true := by decide +kernel

theorem test_words_salu2 : ([
    (0x05A6F880, .slt ⟨13, 6, 31, 0⟩),
    (0x0585F089, .sltu ⟨12, 5, 30, 1⟩),
    (0x0564E892, .seq ⟨11, 4, 29, 2⟩),
    (0x0543009B, .clz ⟨10, 3, 3⟩),
    (0x052200A0, .ctz ⟨9, 2, 0⟩),
    (0x050100A9, .popc ⟨8, 1, 1⟩),
    (0x04E0C8B2, .bext ⟨7, 0, 25, 2⟩),
    (0x04DFC0BB, .bins ⟨6, 31, 24, 3⟩),
    (0x04BEB8C0, .sel ⟨5, 30, 23, 0⟩)] : List (Nat × Instr)).all (fun p => decodeTableWord 32 p.1 == some p.2) = true := by decide +kernel

theorem test_words_imm : ([
    (0x089DFFD6, .addi ⟨4, 29, 65494⟩),
    (0x0C7CFFD5, .andi ⟨3, 28, 65493⟩),
    (0x105BFFD4, .ori ⟨2, 27, 65492⟩),
    (0x143AFFD3, .xori ⟨1, 26, 65491⟩),
    (0x1819FFD2, .slti ⟨0, 25, 65490⟩),
    (0x1FE0FFD8, .lui ⟨31, 65496⟩),
    (0x2BD71000, .slli ⟨30, 23, 16⟩),
    (0x2BB64F00, .srli ⟨29, 22, 15⟩),
    (0x2B958E00, .srai ⟨28, 21, 14⟩)] : List (Nat × Instr)).all (fun p => decodeTableWord 32 p.1 == some p.2) = true := by decide +kernel

theorem test_words_mem : ([
    (0x2374AC07, .ld ⟨27, 20, .wu, .relaxed, 1031⟩),
    (0x2753D408, .st ⟨26, 19, .d, .sync, 1032⟩)] : List (Nat × Instr)).all (fun p => decodeTableWord 32 p.1 == some p.2) = true := by decide +kernel

theorem test_words_branch : ([
    (0x3732B009, .br ⟨25, 18, .geu, 4105⟩),
    (0x3A00000A, .jal ⟨33554442⟩),
    (0x3EF0FFC9, .jalr ⟨23, 16, 65481⟩),
    (0x43FA200C, .strip ⟨31, 6, 8, 8204⟩)] : List (Nat × Instr)).all (fun p => decodeTableWord 32 p.1 == some p.2) = true := by decide +kernel

theorem test_words_csr : ([
    (0x46A00FCE, .csrr ⟨21, 4046⟩),
    (0x468D4FC6, .csrw ⟨20, 13, 4038⟩),
    (0x466C8FC5, .csrs ⟨19, 12, 4037⟩),
    (0x464BCFC4, .csrc ⟨18, 11, 4036⟩)] : List (Nat × Instr)).all (fun p => decodeTableWord 32 p.1 == some p.2) = true := by decide +kernel

theorem test_words_amo : ([
    (0x4A2A1890, .amoadd ⟨17, 10, 3, .dom, .release, 0⟩),
    (0x4A091101, .amoswp ⟨16, 9, 2, .core, .relaxed, 1⟩),
    (0x49E80A2A, .amocas ⟨15, 8, 1, .clu, .acquire, 2⟩),
    (0x49C70353, .amomin ⟨14, 7, 0, .die, .release, 3⟩),
    (0x49A6FC60, .amomax ⟨13, 6, 31, .mod, .relaxed, 0⟩),
    (0x4985F589, .amoand ⟨12, 5, 30, .dom, .acquire, 1⟩),
    (0x4964EE12, .amoor ⟨11, 4, 29, .core, .release, 2⟩),
    (0x4943E723, .amoxor ⟨10, 3, 28, .clu, .relaxed, 3⟩)] : List (Nat × Instr)).all (fun p => decodeTableWord 32 p.1 == some p.2) = true := by decide +kernel

theorem test_words_sys : ([
    (0x4C090000, .trap ⟨9, 0⟩),
    (0x4C000009, .eret ⟨1⟩),
    (0x4C008812, .fence ⟨.dom, false, true, 2⟩),
    (0x4C00001B, .halt ⟨3⟩),
    (0x4C000020, .yield ⟨0⟩),
    (0x4C9D0029, .spawn ⟨4, 29, 1⟩),
    (0x4C000032, .ndone ⟨2⟩),
    (0x4C5B003B, .lease ⟨2, 27, 3⟩),
    (0x4C000040, .unlease ⟨0⟩),
    (0x4C000049, .brkpt ⟨0, 1⟩),
    (0x4FE00052, .rdtime ⟨31, 2⟩),
    (0x4C00005B, .nop ⟨3⟩)] : List (Nat × Instr)).all (fun p => decodeTableWord 32 p.1 == some p.2) = true := by decide +kernel

theorem test_words_sync : ([
    (0x501D9000, .acq ⟨29, .dom, true, false, 0⟩),
    (0x501C0809, .rel ⟨28, .core, false, true, 1⟩),
    (0x53746812, .bind ⟨27, 20, 13, 2⟩),
    (0x501A001B, .unbind ⟨26, 3⟩),
    (0x50199020, .tlwait ⟨25, 18, 0⟩),
    (0x53110029, .tlsig ⟨24, 17, 1⟩),
    (0x52F00032, .tlrd ⟨23, 16, 2⟩),
    (0x50CF403B, .drinit ⟨6, 15, 8, 3⟩),
    (0x52A60040, .drawait ⟨21, 6, 0⟩),
    (0x50040049, .drrel ⟨4, 1⟩),
    (0x50136052, .barw ⟨19, 12, 2⟩),
    (0x524B205B, .bara ⟨18, 11, 4, 3⟩),
    (0x522A0060, .tagwany ⟨17, 10, 0⟩),
    (0x52090069, .tagwall ⟨16, 9, 1⟩),
    (0x51E80072, .tagff ⟨15, 8, 2⟩)] : List (Nat × Instr)).all (fun p => decodeTableWord 32 p.1 == some p.2) = true := by decide +kernel

theorem test_words_tug : ([
    (0x55C70019, .tcopy ⟨14, 7, 0, 25⟩),
    (0x55A6F858, .tcopym ⟨13, 6, 31, 24⟩),
    (0x5585F097, .tqnt ⟨12, 5, 30, 23⟩),
    (0x5564E8D6, .tenc ⟨11, 4, 29, 22⟩),
    (0x5543E115, .tdec ⟨10, 3, 28, 21⟩),
    (0x5522D954, .tqsc ⟨9, 2, 27, 20⟩),
    (0x5501D193, .tstat ⟨8, 1, 26, 19⟩),
    (0x54E0C9D2, .tblk ⟨7, 0, 25, 18⟩)] : List (Nat × Instr)).all (fun p => decodeTableWord 32 p.1 == some p.2) = true := by decide +kernel

theorem test_words_awl : ([
    (0x58DFC003, .wbind ⟨6, 31, 24, 3⟩),
    (0x58BEB808, .wqry ⟨5, 30, 23, 0⟩),
    (0x589DB011, .wapp ⟨4, 29, 22, 1⟩),
    (0x5860E01A, .wrefit ⟨3, 28, 2⟩),
    (0x5840D823, .wdrain ⟨2, 27, 3⟩)] : List (Nat × Instr)).all (fun p => decodeTableWord 32 p.1 == some p.2) = true := by decide +kernel

theorem test_words_emu : ([
    (0x5FFFFFA1, .emucall ⟨67108769⟩)] : List (Nat × Instr)).all (fun p => decodeTableWord 32 p.1 == some p.2) = true := by decide +kernel

theorem test_words_vset : ([
    (0x60190001, .vsetl ⟨0, 25, 1⟩),
    (0x63F8880A, .vshape ⟨31, 24, 17, 2⟩),
    (0x63D70013, .vtype ⟨30, 23, 3⟩),
    (0x63B60018, .vsetm ⟨29, 22, 0⟩),
    (0x63950021, .vsets ⟨28, 21, 1⟩),
    (0x6374002A, .vdecl ⟨27, 20, 2⟩),
    (0x63530033, .vlive ⟨26, 19, 3⟩)] : List (Nat × Instr)).all (fun p => decodeTableWord 32 p.1 == some p.2) = true := by decide +kernel

theorem test_words_vari : ([
    (0x6732A818, .vadd ⟨25, 18, .vec 21 true, false, true, 0⟩),
    (0x6711B471, .vsub ⟨24, 17, .sca 22, true, true, 1⟩),
    (0x66F0B89A, .vmul ⟨23, 16, .vec 23 true, false, true, 2⟩),
    (0x66CFC4F3, .vmulh ⟨22, 15, .sca 24, true, true, 3⟩),
    (0x66AEC918, .vmacc ⟨21, 14, .vec 25 true, false, true, 0⟩),
    (0x668DD571, .vand ⟨20, 13, .sca 26, true, true, 1⟩),
    (0x666CD99A, .vor ⟨19, 12, .vec 27 true, false, true, 2⟩),
    (0x664BE5F3, .vxor ⟨18, 11, .sca 28, true, true, 3⟩),
    (0x662AEA18, .vsll ⟨17, 10, .vec 29 true, false, true, 0⟩),
    (0x6609F671, .vsrl ⟨16, 9, .sca 30, true, true, 1⟩),
    (0x65E8FA9A, .vsra ⟨15, 8, .vec 31 true, false, true, 2⟩),
    (0x65C706F3, .vmin ⟨14, 7, .sca 0, true, true, 3⟩),
    (0x65A60B18, .vmax ⟨13, 6, .vec 1 true, false, true, 0⟩),
    (0x65851771, .vsadd ⟨12, 5, .sca 2, true, true, 1⟩),
    (0x65641B9A, .vssub ⟨11, 4, .vec 3 true, false, true, 2⟩),
    (0x654363F3, .vzsub ⟨10, 3, 12, true, true, 3⟩)] : List (Nat × Instr)).all (fun p => decodeTableWord 32 p.1 == some p.2) = true := by decide +kernel

theorem test_words_vfp : ([
    (0x69222818, .vfadd ⟨9, 2, .vec 5 true, false, true, 0⟩),
    (0x69013471, .vfsub ⟨8, 1, .sca 6, true, true, 1⟩),
    (0x68E0389A, .vfmul ⟨7, 0, .vec 7 true, false, true, 2⟩),
    (0x68DF44F3, .vfma ⟨6, 31, .sca 8, true, true, 3⟩),
    (0x68BE4918, .vfnms ⟨5, 30, .vec 9 true, false, true, 0⟩),
    (0x689D5571, .vfdiv ⟨4, 29, .sca 10, true, true, 1⟩),
    (0x687C01B2, .vfsqrt ⟨3, 28, true, true, 2⟩),
    (0x685B65F3, .vfmin ⟨2, 27, .sca 12, true, true, 3⟩),
    (0x683A6A18, .vfmax ⟨1, 26, .vec 13 true, false, true, 0⟩),
    (0x68190251, .vfabs ⟨0, 25, false, true, 1⟩),
    (0x6BF802B2, .vfneg ⟨31, 24, true, true, 2⟩),
    (0x6BD702D3, .vfrec ⟨30, 23, false, true, 3⟩),
    (0x6BB60330, .vfrsq ⟨29, 22, true, true, 0⟩),
    (0x6B950351, .vfexp2 ⟨28, 21, false, true, 1⟩)] : List (Nat × Instr)).all (fun p => decodeTableWord 32 p.1 == some p.2) = true := by decide +kernel

theorem test_words_vcmp : ([
    (0x6C74981A, .vceq ⟨3, 20, .vec 19 true, true, 2⟩),
    (0x6C53A453, .vcne ⟨2, 19, .sca 20, true, 3⟩),
    (0x6C32A898, .vclt ⟨1, 18, .vec 21 true, true, 0⟩),
    (0x6C11B4D1, .vcle ⟨0, 17, .sca 22, true, 1⟩),
    (0x6CF0B91A, .vcltu ⟨7, 16, .vec 23 true, true, 2⟩),
    (0x6CCFC553, .vfceq ⟨6, 15, .sca 24, true, 3⟩),
    (0x6CAEC998, .vfclt ⟨5, 14, .vec 25 true, true, 0⟩),
    (0x6C8DD5D1, .vfcle ⟨4, 13, .sca 26, true, 1⟩),
    (0x6C6CDA1A, .vfcun ⟨3, 12, .vec 27 true, true, 2⟩),
    (0x6C432253, .mand ⟨2, 3, 4, true, false, 3⟩),
    (0x6C221A98, .mor ⟨1, 2, 3, true, true, 0⟩),
    (0x6C0112D1, .mxor ⟨0, 1, 2, true, false, 1⟩),
    (0x6CE00312, .mnot ⟨7, 0, true, 2⟩),
    (0x6DC70353, .mpop ⟨14, 7, true, 3⟩),
    (0x6DA60390, .mfirst ⟨13, 6, true, 0⟩)] : List (Nat × Instr)).all (fun p => decodeTableWord 32 p.1 == some p.2) = true := by decide +kernel

theorem test_words_vperm : ([
    (0x7185F411, .vslup ⟨12, 5, 30, true, 1⟩),
    (0x7164EC52, .vsldn ⟨11, 4, 29, true, 2⟩),
    (0x71430093, .vcomp ⟨10, 3, true, 3⟩),
    (0x712200D0, .vexpd ⟨9, 2, true, 0⟩),
    (0x7101D511, .vreds ⟨8, 1, 26, true, 1⟩),
    (0x70E0CD52, .vredmx ⟨7, 0, 25, true, 2⟩),
    (0x70DFC593, .vredmn ⟨6, 31, 24, true, 3⟩),
    (0x70BEBDD0, .vfreds ⟨5, 30, 23, true, 0⟩),
    (0x709DB611, .vmvs ⟨4, 29, 22, true, 1⟩),
    (0x7060E642, .vbrd ⟨3, 28, 2⟩),
    (0x70400283, .viota ⟨2, 3⟩),
    (0x703A6AD8, .vband ⟨1, 26, .vec 13 true, true, 0⟩),
    (0x70190311, .vbpfx ⟨0, 25, true, 1⟩)] : List (Nat × Instr)).all (fun p => decodeTableWord 32 p.1 == some p.2) = true := by decide +kernel

theorem test_words_venc : ([
    (0x77F80012, .vencr ⟨31, 24, true, 2⟩),
    (0x77D70053, .vencd ⟨30, 23, true, 3⟩),
    (0x77B60090, .venct ⟨29, 22, true, 0⟩),
    (0x779500D1, .vdec ⟨28, 21, true, 1⟩),
    (0x77740112, .vrenc ⟨27, 20, true, 2⟩),
    (0x77536153, .vencq ⟨26, 19, 12, true, false, 3⟩),
    (0x77320590, .vdictExtract ⟨25, 18, true, 0⟩),
    (0x77115191, .vdictReplace ⟨24, 17, 10, true, false, 1⟩)] : List (Nat × Instr)).all (fun p => decodeTableWord 32 p.1 == some p.2) = true := by decide +kernel

theorem test_words_vidx : ([
    (0x7AF04CBA, .vidx ⟨23, 16, 9, 18, true, true, true, 2⟩)] : List (Nat × Instr)).all (fun p => decodeTableWord 32 p.1 == some p.2) = true := by decide +kernel

theorem test_words_vcvt : ([
    (0x7ECF4413, .vcvt ⟨22, 15, 8, true, false, true, 3⟩),
    (0x7EAE3878, .vqnt ⟨21, 14, 7, false, true, true, true, 0⟩),
    (0x7E8D30B1, .vdqnt ⟨20, 13, 6, true, true, false, 1⟩),
    (0x7C1300D2, .vamax ⟨19, true, 2⟩),
    (0x7E4B2103, .vscl ⟨18, 11, 4, 3⟩),
    (0x7E2A1950, .vpack ⟨17, 10, 3, true, 0⟩),
    (0x7E091191, .vunpk ⟨16, 9, 2, true, 1⟩)] : List (Nat × Instr)).all (fun p => decodeTableWord 32 p.1 == some p.2) = true := by decide +kernel

theorem test_words_vld : ([
    (0x81F00002, .vld ⟨15, 8, 2⟩),
    (0x81CE0803, .vldb ⟨14, 7, 0, 3⟩),
    (0x81AC14E4, .vldseg ⟨13, 6, 7, 0, true, 4⟩),
    (0x818A1801, .vlde ⟨12, 5, 1⟩),
    (0x81682002, .vfil ⟨11, 4, 2⟩)] : List (Nat × Instr)).all (fun p => decodeTableWord 32 p.1 == some p.2) = true := by decide +kernel

theorem test_words_vst : ([
    (0x85460003, .vst ⟨10, 3, false, 3⟩),
    (0x85240C60, .vstseg ⟨9, 2, 3, 0, true, false, 0⟩),
    (0x85021001, .vste ⟨8, 1, false, 1⟩),
    (0x84E01812, .vspl ⟨7, 0, true, 2⟩)] : List (Nat × Instr)).all (fun p => decodeTableWord 32 p.1 == some p.2) = true := by decide +kernel

theorem test_words_vgs : ([
    (0x88DFC413, .vgath ⟨6, 31, 24, true, 3⟩),
    (0x88BEBC50, .vscat ⟨5, 30, 23, true, 0⟩),
    (0x889DB491, .vgathp ⟨4, 29, 22, true, 1⟩)] : List (Nat × Instr)).all (fun p => decodeTableWord 32 p.1 == some p.2) = true := by decide +kernel

theorem test_words_vlt : ([
    (0x8C7C0012, .vltld ⟨3, 28, true, 2⟩),
    (0x8C5B0053, .vltst ⟨2, 27, true, 3⟩),
    (0x8C3A0090, .vltadd ⟨1, 26, true, 0⟩)] : List (Nat × Instr)).all (fun p => decodeTableWord 32 p.1 == some p.2) = true := by decide +kernel

theorem test_words_qctl : ([
    (0x90190001, .qbind ⟨0, 25, 1⟩),
    (0x91E0000A, .qfree ⟨15, 2⟩),
    (0x91D70013, .qseek ⟨14, 23, 3⟩),
    (0x93A60018, .qstat ⟨29, 6, 0⟩)] : List (Nat × Instr)).all (fun p => decodeTableWord 32 p.1 == some p.2) = true := by decide +kernel

theorem test_words_vamo : ([
    (0x97957411, .vamoadd ⟨28, 21, 14, true, 1⟩),
    (0x97746C52, .vamomax ⟨27, 20, 13, true, 2⟩),
    (0x97536493, .vamocas ⟨26, 19, 12, true, 3⟩)] : List (Nat × Instr)).all (fun p => decodeTableWord 32 p.1 == some p.2) = true := by decide +kernel

theorem test_words_mop : ([
    (0x98301000, .mclaim ⟨24, true, 0⟩),
    (0x98300101, .mrel ⟨24, 1⟩),
    (0x99E09202, .mma ⟨7, 16, 9, false, 2⟩),
    (0x999E838B, .mmas ⟨6, 15, 8, true, 3⟩),
    (0x995C7400, .mslide ⟨5, 14, 7, false, 0⟩),
    (0x991A6501, .mprom ⟨4, 13, 6, 1⟩),
    (0x98C00602, .mzero ⟨3, 2⟩),
    (0x98964743, .maccrd ⟨2, 11, 4, true, 3⟩),
    (0x98543800, .maccwr ⟨1, 10, 3, 0⟩)] : List (Nat × Instr)).all (fun p => decodeTableWord 32 p.1 == some p.2) = true := by decide +kernel

theorem test_words_mld : ([
    (0x9E120441, .mld ⟨16, 9, 34, 1⟩),
    (0x9DF00802, .mlds ⟨15, 8, 2⟩)] : List (Nat × Instr)).all (fun p => decodeTableWord 32 p.1 == some p.2) = true := by decide +kernel

theorem test_words_fmt : ([
    (0xA1C70003, .ftwr ⟨14, 7, 3⟩),
    (0xA1A60008, .ftrd ⟨13, 6, 0⟩),
    (0xA0000011, .ftfence ⟨1⟩)] : List (Nat × Instr)).all (fun p => decodeTableWord 32 p.1 == some p.2) = true := by decide +kernel


/-! The chapters' own example words. -/

theorem test_words_examples_scalar : ([
    (0x04221858, .divu ⟨1, 2, 3, 0⟩),
    (0x08A5FFF8, .addi ⟨5, 5, 0xFFF8⟩),
    (0x1CC01234, .lui ⟨6, 0x1234⟩),
    (0x28E88300, .srai ⟨7, 8, 3⟩),
    (0x252A97FC, .st ⟨9, 10, .w, .sync, 0x7FC⟩),
    (0x3580C005, .br ⟨12, 0, .full, 5⟩),
    (0x38000100, .jal ⟨0x100⟩),
    (0x3C1F0000, .jalr ⟨0, 31, 0⟩),
    (0x4068FFFA, .strip ⟨3, 2, 3, 0x3FFA⟩),
    (0x44800000, .csrr ⟨4, 0⟩),
    (0x44054040, .csrw ⟨0, 5, 0x040⟩),
    (0x48A63A90, .amocas ⟨5, 6, 7, .dom, .release, 0⟩)] : List (Nat × Instr)).all (fun p => decodeTableWord 32 p.1 == some p.2) = true := by decide +kernel

theorem test_words_examples_system : ([
    (0x50063000, .acq ⟨6, .clu, true, false, 0⟩),
    (0x50032050, .barw ⟨3, 4, 0⟩),
    (0x58606020, .wdrain ⟨3, 12, 0⟩),
    (0x4C050000, .trap ⟨5, 0⟩),
    (0x4CC70028, .spawn ⟨6, 7, 0⟩),
    (0x4C000030, .ndone ⟨0⟩),
    (0x4C430038, .lease ⟨2, 3, 0⟩),
    (0x4D200050, .rdtime ⟨9, 0⟩),
    (0x4C000058, .nop ⟨0⟩),
    (0x5C000011, .emucall ⟨17⟩),
    (0x90680000, .qbind ⟨3, 8, 0⟩),
    (0x90830018, .qstat ⟨4, 3, 0⟩),
    (0xA1240000, .ftwr ⟨9, 4, 0⟩),
    (0xA0A90008, .ftrd ⟨5, 9, 0⟩),
    (0xA0000010, .ftfence ⟨0⟩)] : List (Nat × Instr)).all (fun p => decodeTableWord 32 p.1 == some p.2) = true := by decide +kernel

theorem test_words_examples_vector : ([
    (0x60620000, .vsetl ⟨3, 2, 0⟩),
    (0x60642808, .vshape ⟨3, 4, 5, 0⟩),
    (0x66811000, .vadd ⟨20, 1, .vec 2 false, false, false, 0⟩),
    (0x64611360, .vsadd ⟨3, 1, .vec 2 false, true, false, 0⟩),
    (0x64C24BC0, .vzsub ⟨6, 2, 9, false, false, 0⟩),
    (0x690950C0, .vfma ⟨8, 9, .vec 10 false, false, false, 0⟩),
    (0x68470190, .vfsqrt ⟨2, 7, false, true, 0⟩),
    (0x6C242880, .vclt ⟨1, 4, .vec 5 false, false, 0⟩),
    (0x6CE20340, .mpop ⟨7, 2, false, 0⟩),
    (0x70834D00, .vreds ⟨4, 3, 9, false, 0⟩),
    (0x74A60000, .vencr ⟨5, 6, false, 0⟩),
    (0x75240580, .vdictExtract ⟨9, 4, false, 0⟩),
    (0x78874C80, .vidx ⟨4, 7, 9, 18, false, false, false, 0⟩),
    (0x7C821C00, .vcvt ⟨4, 2, 3, true, false, false, 0⟩),
    (0x7D241900, .vscl ⟨9, 4, 3, 0⟩)] : List (Nat × Instr)).all (fun p => decodeTableWord 32 p.1 == some p.2) = true := by decide +kernel

theorem test_words_examples_memory : ([
    (0x80A20860, .vldb ⟨5, 1, 3, 0⟩),
    (0x81041240, .vldseg ⟨8, 2, 2, 2, false, 0⟩),
    (0x808A1800, .vlde ⟨4, 5, 0⟩),
    (0x84680010, .vst ⟨3, 4, true, 0⟩),
    (0x88225400, .vgath ⟨1, 2, 10, false, 0⟩),
    (0x8C640000, .vltld ⟨3, 4, false, 0⟩),
    (0x94C75C00, .vamoadd ⟨6, 7, 11, false, 0⟩),
    (0x980C1000, .mclaim ⟨6, true, 0⟩),
    (0x98488308, .mmas ⟨1, 4, 8, false, 0⟩),
    (0x988E1740, .maccrd ⟨2, 7, 1, true, 0⟩),
    (0x9CA60180, .mld ⟨5, 3, 12, 0⟩)] : List (Nat × Instr)).all (fun p => decodeTableWord 32 p.1 == some p.2) = true := by decide +kernel

/-! Ill-formed terms, one for each check of WellFormed, refused by the check and by the encoder. -/

theorem test_ill_hint : wf (.add ⟨1, 2, 3, 4⟩) = false ∧ wf (.add ⟨1, 2, 3, 3⟩) = true := by decide +kernel

theorem test_ill_hint_vld : wf (.vld ⟨1, 2, 5⟩) = false ∧ wf (.vld ⟨1, 2, 4⟩) = true := by decide +kernel

/-- sn s0; group 0; sn one of the pointers selected. -/
theorem test_ill_strip : wf (.strip ⟨0, 2, 1, 0⟩) = false ∧ wf (.strip ⟨3, 0, 1, 0⟩) = false ∧ wf (.strip ⟨9, 2, 2, 0⟩) = false ∧ wf (.strip ⟨9, 2, 13, 0⟩) = true := by decide +kernel

theorem test_ill_st : wf (.st ⟨1, 2, .bu, .plain, 0⟩) = false ∧ wf (.st ⟨1, 2, .b, .plain, 0⟩) = true := by decide +kernel

theorem test_ill_br : wf (.br ⟨1, 2, .full, 0⟩) = false ∧ wf (.br ⟨1, 0, .full, 0⟩) = true := by decide +kernel

theorem test_ill_mclaim : wf (.mclaim ⟨5, true, 0⟩) = false ∧ wf (.mclaim ⟨5, false, 0⟩) = true := by decide +kernel

theorem test_ill_vamocas : wf (.vamocas ⟨5, 2, 3, false, 0⟩) = false ∧ wf (.vamocas ⟨4, 2, 3, false, 0⟩) = true := by decide +kernel

/-- An index that is not assigned; VZSUB's entry above 15; a unary function with a second vector, or with fe[3]. -/
theorem test_ill_vidx : wf (.vidx ⟨1, 2, 3, 30, false, false, false, 0⟩) = false ∧ wf (.vidx ⟨1, 2, 16, 15, false, false, false, 0⟩) = false ∧
    wf (.vidx ⟨1, 2, 3, 22, false, false, false, 0⟩) = false ∧ wf (.vidx ⟨1, 2, 0, 29, false, false, true, 0⟩) = false := by decide +kernel

theorem test_ill_encode : encode (.powerLoss) = none ∧ encode (.cinchTick 0 ⟨0, 0, 0⟩) = none := by decide +kernel

/-- Words that are no instructions: the widths of ST, kind 3 of SH, bits of C, an order of L, scope 5 and order 3 of X, a bit of VST's unused field, and the hints 4 to 7. -/
theorem test_words_refused : ([0x24006000, 0x2800C000, 0x44001000, 0x20001800, 0x480000A0, 0x48000018, 0x84000020, 0x04000004, 0x80000005, 0x4C000807, 0x40000000, 0xA8000000] : List Nat).all
    (fun w => decodeTableWord 32 w == none) = true := by decide +kernel

/-! Single steps: values worked out by hand from the rules. -/

/-- What a step of the context leaves. -/
def after (i : Instr) (s : State) (p : Ctx → Bool) : Bool := match exec i s with | .next t => p t.me | .fault _ => false | .refused _ => false

def arith : State := wit (regs [(1, BitVec.ofNat 64 (2 ^ 64 - 1)), (2, 2), (3, BitVec.ofNat 64 (2 ^ 63)), (4, 0)])

/-- R141: the sum wraps; the product's high half is signed. -/
theorem test_add_wraps : after (.add ⟨5, 1, 2, 0⟩) arith (fun c => c.sget 5 == 1 && c.pc == 0x1004) = true := by decide +kernel

theorem test_mulh_signed : after (.mulh ⟨5, 1, 2, 0⟩) arith (fun c => c.sget 5 == BitVec.ofNat 64 (2 ^ 64 - 1)) = true := by decide +kernel

/-- R142: a positive number divided by zero, and the most negative number by −1, give the greatest number. -/
theorem test_div_zero : after (.div ⟨5, 2, 4, 0⟩) arith (fun c => c.sget 5 == BitVec.ofNat 64 (2 ^ 63 - 1)) = true := by decide +kernel

theorem test_div_min : after (.div ⟨5, 3, 1, 0⟩) arith (fun c => c.sget 5 == BitVec.ofNat 64 (2 ^ 63 - 1)) = true := by decide +kernel

/-- R25: a write to s0 is discarded. -/
theorem test_s0_discards : after (.addi ⟨0, 2, 0xFFFF⟩) arith (fun c => c.sget 0 == 0 && c.pc == 0x1004) = true := by decide +kernel

/-- R149: a branch three words back, taken and not. -/
theorem test_br_back : after (.br ⟨2, 2, .eq, 0x1FFD⟩) arith (fun c => c.pc == 0xFF4) = true ∧ after (.br ⟨1, 2, .ltu, 0x1FFD⟩) arith (fun c => c.pc == 0x1004) = true := by decide +kernel

/-- R141: arithmetic and logical shift of a negative number. -/
theorem test_shifts : after (.srai ⟨5, 3, 63⟩) arith (fun c => c.sget 5 == BitVec.ofNat 64 (2 ^ 64 - 1)) = true ∧ after (.srli ⟨5, 3, 63⟩) arith (fun c => c.sget 5 == 1) = true := by decide +kernel

/-- A store of a word and a load of its byte 3 with its sign, in the own pool. -/
theorem test_store_load :
    (match exec (.st ⟨3, 6, .w, .plain, 0⟩) (wit (regs [(3, 0x80FF0102), (6, BitVec.ofNat 64 (ownBase + 64))])) with
      | .next t => after (.ld ⟨5, 6, .b, .plain, 3⟩) t (fun c => c.sget 5 == BitVec.ofNat 64 (2 ^ 64 - 128))
      | .fault _ => false
      | .refused _ => false) = true := by decide +kernel

/-- R67: 1 + 2^-24 is a tie and goes to the even 1; 1 + 3 × 2^-24 is a tie and goes up to 1 + 2^-22. -/
theorem test_fp32_ties : (fromWide ((ofF32 0x3F800000).add (ofF32 0x33800000)) (fmtOf (preset 0)) .rne 0).code = 0x3F800000 ∧
    (fromWide ((ofF32 0x3F800000).add (ofF32 0x34400000)) (fmtOf (preset 0)) .rne 0).code = 0x3F800002 := by decide +kernel


end Sys2Proof.Tests
end

section
/-! PROOF. Main memory: what a write leaves and a read gives back (O58). -/

namespace Sys2Proof.Machine

/-- A write to main memory of this module, poisoned or not. -/
theorem physWrite_memory_heals {s : State} {pa : Nat} (n v : Nat) (hk : physKind s pa = .memory) (hh : paHome pa = s.modId.val) :
    physWrite pa n v s = .ok () { s with mem := memWrite s.mem pa n v, poison := unpoison s.poison pa n } := by
  rw [physWrite, run_bind_ok (transfer_home hh)]
  simp only [physPut, run_bind, run_get, hk]
  rfl

/-- A unit that a write covers whole is not poisoned after it (R348). -/
theorem not_mem_unpoison {p : List Nat} {pa n u : Nat} (h1 : pa ≤ u * 64) (h2 : u * 64 + 64 ≤ pa + n) : u ∉ unpoison p pa n := by
  simp [unpoison, h1, h2]

theorem State.MemOk.memWritten {s : State} (h : s.MemOk) (pa n v : Nat) (p : List Nat) :
    State.MemOk { s with mem := memWrite s.mem pa n v, poison := p } := by
  obtain ⟨hmem, hrest⟩ := h
  exact ⟨memWrite_wf hmem _ _ _, hrest⟩

/-- Settles O58: the write puts the number's bytes at the address and heals the units it covers, and the read gives them back. -/
theorem memoryReadsBack : Obligations.MemoryReadsBack := by
  intro s pa n v hk hh
  refine ⟨_, physWrite_memory_heals n v hk hh, ?_, fun a => memGet_write _ _ _ _ _, fun u => not_mem_unpoison, rfl, fun h => h.memWritten _ _ _ _⟩
  have hr := physRead_memory (s := { s with mem := memWrite s.mem pa n v, poison := unpoison s.poison pa n }) n hk hh
  rwa [memRead_write] at hr

end Sys2Proof.Machine
end

section
/-! PROOF. A turn of a loop context as its fetch and the instruction it decodes to (O56). -/

namespace Sys2Proof.Machine

/-- Settling the waiting MRELs touches the contexts' lists of them alone. -/
theorem settleRels_ctx (s : State) (c k : CtxId) : ∃ r, (settleRels s c).ctx k = { s.ctx k with rels := r } := by
  unfold settleRels
  refine List.foldlRecOn (motive := fun t : State => ∃ r, t.ctx k = { s.ctx k with rels := r }) _ _ ⟨_, rfl⟩ fun t ⟨r, hr⟩ e _ => ?_
  dsimp only
  split
  · exact ⟨r, hr⟩
  · by_cases hk : k = c
    · subst hk
      exact ⟨_, by rw [State.ctx_modCtx_self, State.ctx_modCore, hr]⟩
    · exact ⟨r, by rw [State.ctx_modCtx_ne _ _ hk, State.ctx_modCore, hr]⟩

theorem settleRels_cur (s : State) (c : CtxId) : (settleRels s c).cur = s.cur := by
  unfold settleRels
  refine List.foldlRecOn (motive := fun t : State => t.cur = s.cur) _ _ rfl fun t ht e _ => ?_
  dsimp only
  split <;> exact ht

theorem settleRels_me (s : State) (c : CtxId) : ∃ r, (settleRels s c).me = { s.me with rels := r } := by
  rw [State.me, settleRels_cur]
  exact settleRels_ctx s c s.cur

@[simp] theorem requeue_st (x : Ctx) : (requeue x).st = x.st := by unfold requeue; split <;> rfl
@[simp] theorem requeue_pendTraps (x : Ctx) : (requeue x).pendTraps = x.pendTraps := by unfold requeue; split <;> rfl

/-- With nothing ahead of the instruction at the PC, a running context's turn fetches it. -/
theorem nextTodo_fetches {s u : State} (hu : u = settleRels (s.modMe requeue) s.cur) (hst : u.me.st = .running)
    (ht : u.me.pendTraps = []) (hq : u.me.queue = []) (hl : u.me.laneHeld = false) : nextTodo s = fetchDecode u := by
  obtain ⟨r, hr⟩ := settleRels_me (s.modMe requeue) s.cur
  rw [← hu, State.me_modMe] at hr
  have hrun : s.me.st = .running := by simpa [hr] using hst
  have hnone : (s.ctx s.cur).pendTraps = [] := by
    rw [hr] at ht
    exact (requeue_pendTraps s.me).symm.trans ht
  simp [nextTodo, hrun, pendingTrap, hnone, ← hu, hq, hl]

/-- A fetched word that decodes is its instruction; a word that does not is the step of its cause. -/
theorem decoded_ofNat (w : Nat) :
    (∀ i, decode (w % 2 ^ 32) = .ok i → decoded (BitVec.ofNat 32 w) = i) ∧
    ∀ c, decode (w % 2 ^ 32) = .error c → decoded (BitVec.ofNat 32 w) = .decodeCause c (BitVec.ofNat 32 w) := by
  constructor <;> intro _ h <;> simp only [decoded, BitVec.toNat_ofNat, h]

/-- The step of a running context whose turn it is, once its fetch has answered. -/
theorem step_fetched {s u t : State} {c : CtxId} {late : Bool} {rest : List Turn} {w : Nat} (ha : (passTime s).agenda = .ctx c late :: rest)
    (hu : u = settleRels (State.modMe { passTime s with agenda := rest, cur := c, late } requeue) c)
    (hst : u.me.st = .running) (ht : u.me.pendTraps = []) (hq : u.me.queue = []) (hl : u.me.laneHeld = false)
    (hw : fetchWord u.me.pc.toNat u = .ok w t) :
    step s = exec (decoded (BitVec.ofNat 32 w)) (t.modMe fun x => { x with lost := x.lost.filter fun g => g != u.me.pc.toNat / 4096 }) := by
  have hn : nextTodo { passTime s with agenda := rest, cur := c, late } = fetchDecode u := nextTodo_fetches hu hst ht hq hl
  simp only [step, ha, runTurn, stepCtx, hn, fetchDecode, hw]

/-- A word's bytes are those it was read from (R1). -/
theorem memRead_byte (m : Memory) (a n : Nat) {i : Nat} (hi : i < n) : memRead m a n / 256 ^ i % 256 = (memGet m (a + i)).toNat := by
  induction n generalizing a i with
  | zero => omega
  | succ n ih =>
    have hb : (memGet m a).toNat < 256 := (memGet m a).isLt
    cases i with
    | zero => simp only [memRead, Nat.pow_zero, Nat.div_one, Nat.add_zero]; omega
    | succ i =>
      have hd : ((memGet m a).toNat + 256 * memRead m (a + 1) n) / 256 = memRead m (a + 1) n := by omega
      rw [memRead, Nat.pow_succ', ← Nat.div_div_eq_div_mul, hd, ih (a + 1) (by omega), Nat.add_right_comm, Nat.add_assoc]

theorem dieOf_lt (c : Fin 1024) : dieOf c.val < 8 := by unfold dieOf; omega

/-- The die a core fetches through. -/
theorem ofNat_dieOf (c : Fin 1024) : (Fin.ofNat 8 (dieOf c.val)).val = dieOf c.val := Nat.mod_eq_of_lt (dieOf_lt c)

theorem fetchWord_misaligned {s : State} {va : Nat} (h : va % 4 ≠ 0) : fetchWord va s = .error (.cause .pcAlign (BitVec.ofNat 64 va)) s :=
  run_bind_error (needN_false (by simpa using h) _ _ _)

section
variable {s t : State} {va pa typ : Nat} (ha : va % 4 = 0)
  (hl : coreLoc s.cur.core { asid := s.me.asid, priv := s.me.priv, holder := .core s.cur.core.val } va 4 1 .fetch true s = .ok (.mem pa typ) t)
include ha hl

/-- A fetch from the core's decoded operations. -/
theorem fetchWord_findOp {o : DecOp} (ho : findOp t va = some o) : fetchWord va s = .ok o.word.toNat t := by
  unfold fetchWord
  rw [run_bind_ok (needN_true (by simpa using ha) _ _ _), run_bind_ok (run_get s), run_bind_ok (show meWho s = .ok _ s from rfl), run_bind_ok hl]
  simp only [run_bind, run_get, ho, run_pure]

/-- A fetch from the die's commons, which the core then holds. -/
theorem fetchWord_findCode {p : CodePage} (ho : findOp t va = none) (hp : findCode t (dieOf s.cur.core.val) s.me.asid (va / 4096) = some p) :
    fetchWord va s = .ok (memRead p.bytes (va % 4096) 4) (t.modMyCore fun k =>
      { k with ops := { asid := t.me.asid, eff := t.me.vc.eff, va, word := BitVec.ofNat 32 (memRead p.bytes (va % 4096) 4) } :: k.ops }) := by
  unfold fetchWord
  rw [run_bind_ok (needN_true (by simpa using ha) _ _ _), run_bind_ok (run_get s), run_bind_ok (show meWho s = .ok _ s from rfl), run_bind_ok hl]
  simp only [run_bind, run_get, ho, ofNat_dieOf, hp, run_pure, keepOp, run_modify]

end

/-- Settles O56: the turn of a context with nothing ahead of its PC is its fetch (`step_fetched`), and a fetch is answered by the decoded operations, then by the commons. -/
theorem stepRunsTheDecodedInstruction : Obligations.StepRunsTheDecodedInstruction := by
  refine ⟨fun s rest => ⟨?_, ?_⟩, fun s va => ⟨fetchWord_misaligned, fun pa typ t ha hl => ⟨?_, ?_⟩⟩⟩
  · intro c late ha u hst ht hq hl w t hw
    have hs := step_fetched ha rfl hst ht hq hl hw
    obtain ⟨hok, herr⟩ := decoded_ofNat w
    exact ⟨fun i hi => by rw [hs, hok i hi], fun e he => by rw [hs, herr e he]⟩
  · intro i ha
    simp only [step, ha, runTurn]
  · exact fun o ho => fetchWord_findOp ha hl ho
  · exact fun p ho hp => ⟨_, fetchWord_findCode ha hl ho hp, fun i => memRead_byte _ _ _ i.isLt⟩

end Sys2Proof.Machine
end

section
/-! PROOF. The host interface: configuration words, the registers, the MEM window and the writes of drives (O45). -/

namespace Sys2Proof.Machine

/-! Configuration words (R382). -/

/-- LOG2N. -/
def cfgLog (w : Word) : Nat := wbits w 0 4

theorem cfgSlots_eq (w : Word) : cfgSlots w = 2 ^ cfgLog w := rfl

theorem cfgEn_eq (w : Word) : cfgEn w = w.getLsbD 8 := by
  rw [cfgEn, nbit, BitVec.getLsbD, Nat.testBit_eq_decide_div_mod_eq]; rfl

/-- LOG2N is among the fields that a write keeps. -/
theorem cfgLog_and {f : Word} (hf : ∀ i, i < 4 → f.getLsbD i = true) (v : Word) : cfgLog (v &&& f) = cfgLog v :=
  wbits_congr fun i hi => by simp [hf i hi]

theorem cfgPut_of_log {f v : Word} (hf : ∀ i, i < 4 → f.getLsbD i = true) (h1 : 1 ≤ cfgLog v) (h2 : cfgLog v ≤ 12) : cfgPut f v = v &&& f := by
  have hl : wbits (v &&& f) 0 4 = cfgLog v := cfgLog_and hf v
  simp only [cfgPut, hl]
  rw [if_neg (by simp; omega)]

theorem cfgPut_of_bad_log {f v : Word} (hf : ∀ i, i < 4 → f.getLsbD i = true) (h : cfgLog v = 0 ∨ 12 < cfgLog v) : cfgPut f v = v &&& f &&& ~~~256 := by
  have hl : wbits (v &&& f) 0 4 = cfgLog v := cfgLog_and hf v
  simp only [cfgPut, hl]
  rw [if_pos (by simp; omega)]

/-- With EN written 0 nothing is left to clear. -/
theorem cfgPut_of_not_en {f v : Word} (h : cfgEn v = false) : cfgPut f v = v &&& f := by
  have hv : v &&& ~~~256 = v := by
    rw [cfgEn_eq] at h
    ext i hi
    by_cases h8 : i = 8
    · subst h8; simpa [BitVec.getLsbD_eq_getElem hi] using h
    · have : (256#64) = BitVec.twoPow 64 8 := rfl
      simp [this, BitVec.getElem_twoPow, h8]
  simp only [cfgPut]
  split
  · rw [BitVec.and_assoc, BitVec.and_comm f, ← BitVec.and_assoc, hv]
  · rfl

theorem cfgEn_and {f v : Word} (hf : cfgEn f = true) : cfgEn (v &&& f) = cfgEn v := by
  rw [cfgEn_eq] at *; rw [cfgEn_eq, BitVec.getLsbD_and, hf, Bool.and_true]

theorem sqcfg_fields : (∀ i, i < 4 → (0x11F : Word).getLsbD i = true) ∧ cfgEn 0x11F = true := by decide
theorem cqcfg_fields : (∀ i, i < 4 → (0x3FFF1F : Word).getLsbD i = true) ∧ cfgEn 0x3FFF1F = true := by decide

/-! The registers of the host's windows before READY and from READY on (R381, R382, R386, R388, R408). -/

theorem isReady_true {s : State} (h : s.dl.st = 4) : isReady s = true := by simp [isReady, h]
theorem isReady_false {s : State} (h : s.dl.st ≠ 4) : isReady s = false := by simp [isReady, h]

/-- A queue page rewritten. -/
def State.putQueue (s : State) (q : Fin 64) (k : HQueue) : State := { s with queues := s.queues.set q k }

theorem State.modQueue_eq (s : State) (q : Fin 64) (f : HQueue → HQueue) : s.modQueue q f = s.putQueue q (f (s.queue q)) := rfl

@[simp] theorem State.putQueue_self (s : State) (q : Fin 64) : s.putQueue q (s.queue q) = s := by
  have : s.queues.set q (s.queue q) = s.queues := Vector.set_getElem_self _
  simp [State.putQueue, this]

theorem queRead_off {s : State} {q : Fin 64} {off : Nat} (h : off ∉ [0, 8, 0x10, 0x18, 0x800, 0x808, 0x810, 0x818]) : queRead s q off = 0 := by
  simp only [List.mem_cons, List.not_mem_nil, or_false, not_or] at h
  obtain ⟨h0, h1, h2, h3, h4, h5, h6, h7⟩ := h
  simp [queRead]

section
variable {s : State} {q : Fin 64}

theorem windowRead_notReady (h : s.dl.st ≠ 4) (off n : Nat) : windowRead s off n = List.replicate n 0 := by
  simp [windowRead, isReady_false h]

theorem hostWrites_notReady (h : s.dl.st ≠ 4) (v : Word) (n : BitVec 32) :
    execSqtail q n s = .next s ∧ execCqhead q n s = .next s ∧ execSqcfg q v s = .next s ∧ execCqcfg q v s = .next s ∧
      execRegisterWrite (.sqbase q) v s = .next s ∧ execRegisterWrite (.cqbase q) v s = .next s ∧ execRegisterWrite .memoff v s = .next s ∧
      execRegisterWrite .dladdr v s = .next { s with dl := { s.dl with addr := v } } ∧ execRegisterWrite .dllen v s = .next { s with dl := { s.dl with len := v } } := by
  simp [execSqtail, execCqhead, execSqcfg, execCqcfg, execRegisterWrite, isReady_false h]

theorem hostReads_notReady (h : s.dl.st ≠ 4) :
    ctlRead s 0x1000 = s.dl.addr.toNat ∧ ctlRead s 0x1008 = s.dl.len.toNat ∧ ctlRead s 0x1018 = s.dl.reason % 256 * 256 + s.dl.st % 256 ∧
      (∀ off, off ≠ 0x1000 → off ≠ 0x1008 → off ≠ 0x1018 → ctlRead s off = 0) ∧ ∀ off, queRead s q off = 0 := by
  refine ⟨?_, ?_, ?_, fun off h0 h1 h2 => ?_, fun off => ?_⟩
  · simp [ctlRead, isReady_false h]
  · simp [ctlRead, isReady_false h]
  · simp [ctlRead, dlStat, isReady_false h]
  · simp [ctlRead, isReady_false h]
  · simp [queRead, isReady_false h]

theorem execResizableBarWrite_eq (n : Nat) (s : State) :
    execResizableBarWrite n s =
      .next (if 30 ≤ n ∧ n ≤ 45 then { s with memWin := n, memOff := BitVec.ofNat 64 (s.memOff.toNat / 2 ^ n * 2 ^ n) } else s) := by
  by_cases h : 30 ≤ n ∧ n ≤ 45 <;> simp [execResizableBarWrite, windowBase, h]

section
variable (h : s.dl.st = 4)
include h

theorem execRegisterWrite_ready (v : Word) :
    execRegisterWrite .memoff v s = .next { s with memOff := BitVec.ofNat 64 (v.toNat / 2 ^ s.memWin * 2 ^ s.memWin) } ∧
      execRegisterWrite .dladdr v s = .next s ∧ execRegisterWrite .dllen v s = .next s := by
  simp [execRegisterWrite, windowBase, isReady_true h]

theorem execRegisterWrite_sqbase (v : Word) :
    execRegisterWrite (.sqbase q) v s = .next (if (s.queue q).sqcfg.getLsbD 8 then s else s.putQueue q { s.queue q with sqbase := v }) := by
  simp only [execRegisterWrite, isReady_true h, if_true, State.modQueue_eq, cfgEn_eq]
  split <;> simp

theorem execRegisterWrite_cqbase (v : Word) :
    execRegisterWrite (.cqbase q) v s = .next (if (s.queue q).cqcfg.getLsbD 8 then s else s.putQueue q { s.queue q with cqbase := v }) := by
  simp only [execRegisterWrite, isReady_true h, if_true, State.modQueue_eq, cfgEn_eq]
  split <;> simp

theorem ctlRead_ready : ctlRead s 0 = s.modId.val ∧ ctlRead s 8 = s.memOff.toNat ∧ ∀ off, off ≠ 0 → off ≠ 8 → ctlRead s off = 0 := by
  refine ⟨?_, ?_, fun off h0 h1 => ?_⟩
  · simp [ctlRead, isReady_true h]
  · simp [ctlRead, isReady_true h]
  · simp [ctlRead, isReady_true h]

theorem queRead_ready :
    queRead s q 0 = (s.queue q).sqbase.toNat ∧ queRead s q 8 = (s.queue q).sqcfg.toNat ∧ queRead s q 0x10 = (s.queue q).sqtail.toNat ∧
      queRead s q 0x18 = (s.queue q).sqhead.toNat ∧ queRead s q 0x800 = (s.queue q).cqbase.toNat ∧ queRead s q 0x808 = (s.queue q).cqcfg.toNat ∧
      queRead s q 0x810 = (s.queue q).cqhead.toNat ∧ queRead s q 0x818 = (s.queue q).cqtail.toNat := by
  simp [queRead, isReady_true h]

theorem execSqtail_ready (n : BitVec 32) (ht : (s.queue q).tries = 0) :
    execSqtail q n s =
      .next (if (n - (s.queue q).sqhead).toNat ≤ 2 ^ wbits (s.queue q).sqcfg 0 4 then s.putQueue q { s.queue q with sqtail := n } else s) := by
  simp only [execSqtail, isReady_true h, if_true, State.modQueue_eq, ht, cfgSlots_eq, cfgLog]
  generalize (n - (s.queue q).sqhead).toNat = ahead
  by_cases hn : ahead ≤ 2 ^ wbits (s.queue q).sqcfg 0 4
  · simp [hn, Nat.not_lt.mpr hn]
  · simp [hn, Nat.lt_of_not_le hn]

theorem execCqhead_ready (n : BitVec 32) : execCqhead q n s = .next (s.putQueue q { s.queue q with cqhead := n }) := by
  simp [execCqhead, isReady_true h, State.modQueue_eq]

theorem execSqcfg_ready (v : Word) :
    execSqcfg q v s = .next (s.putQueue q (if cfgTaken (s.queue q).sqcfg v then
      (if cfgEn (cfgPut 0x11F v) then { s.queue q with sqcfg := cfgPut 0x11F v, sqhead := 0, sqtail := 0, tries := 0 }
        else { s.queue q with sqcfg := cfgPut 0x11F v, tries := 0 }) else s.queue q)) := by
  simp [execSqcfg, isReady_true h, State.modQueue_eq]

theorem execCqcfg_ready (v : Word) :
    execCqcfg q v s = .next (s.putQueue q (if cfgTaken (s.queue q).cqcfg v then
      (if cfgEn (cfgPut 0x3FFF1F v) then { s.queue q with cqcfg := cfgPut 0x3FFF1F v, cqhead := 0, cqtail := 0 }
        else { s.queue q with cqcfg := cfgPut 0x3FFF1F v }) else s.queue q)) := by
  simp [execCqcfg, isReady_true h, State.modQueue_eq]

/-- SQCFG: refused while enabled, enabled with counts of zero, disabled, and not enabled for a LOG2N out of range. -/
theorem execSqcfg_cases (v : Word) :
    ((s.queue q).sqcfg.getLsbD 8 = true → v.getLsbD 8 = true → execSqcfg q v s = .next s) ∧
    (¬(s.queue q).sqcfg.getLsbD 8 = true → v.getLsbD 8 = true → 1 ≤ wbits v 0 4 → wbits v 0 4 ≤ 12 →
      execSqcfg q v s = .next (s.putQueue q { s.queue q with sqcfg := v &&& 0x11F, sqhead := 0, sqtail := 0, tries := 0 })) ∧
    (¬v.getLsbD 8 = true → execSqcfg q v s = .next (s.putQueue q { s.queue q with sqcfg := v &&& 0x11F, tries := 0 })) ∧
    (¬(s.queue q).sqcfg.getLsbD 8 = true → wbits v 0 4 = 0 ∨ 12 < wbits v 0 4 →
      execSqcfg q v s = .next (s.putQueue q { s.queue q with sqcfg := v &&& 0x1F, tries := 0 })) := by
  obtain ⟨hf, he⟩ := sqcfg_fields
  simp only [execSqcfg_ready h, cfgTaken, ← cfgEn_eq, Bool.not_eq_true]
  refine ⟨fun h1 h2 => ?_, fun h1 h2 h3 h4 => ?_, fun h2 => ?_, fun h1 h3 => ?_⟩
  · simp [h1, h2]
  · rw [cfgPut_of_log hf h3 h4, cfgEn_and he, h1, h2]; rfl
  · rw [cfgPut_of_not_en h2, cfgEn_and he, h2]; simp
  · have hw : v &&& 0x11F &&& ~~~256 = v &&& 0x1F := BitVec.and_assoc _ _ _
    have hn : cfgEn (v &&& 0x1F) = false := by simp [cfgEn_eq]
    rw [cfgPut_of_bad_log hf h3, hw, hn, h1]; rfl

/-- CQCFG: enabled with counts of zero, and refused while enabled. -/
theorem execCqcfg_cases (v : Word) :
    (¬(s.queue q).cqcfg.getLsbD 8 = true → v.getLsbD 8 = true → 1 ≤ wbits v 0 4 → wbits v 0 4 ≤ 12 →
      execCqcfg q v s = .next (s.putQueue q { s.queue q with cqcfg := v &&& 0x3FFF1F, cqhead := 0, cqtail := 0 })) ∧
    ((s.queue q).cqcfg.getLsbD 8 = true → v.getLsbD 8 = true → execCqcfg q v s = .next s) := by
  obtain ⟨hf, he⟩ := cqcfg_fields
  simp only [execCqcfg_ready h, cfgTaken, ← cfgEn_eq, Bool.not_eq_true]
  refine ⟨fun h1 h2 h3 h4 => ?_, fun h1 h2 => ?_⟩
  · rw [cfgPut_of_log hf h3 h4, cfgEn_and he, h1, h2]; rfl
  · simp [h1, h2]

end
end

/-! The MEM window and a drive's writes (R389, R391). -/

/-- A byte of fitted memory outside firmware space. -/
def State.Reached (s : State) (l : Nat) : Prop := l < s.memSize ∧ physKind s (s.local l) = .memory ∧ ¬(s.fwBase ≤ l ∧ l < s.fwBase + s.fwSize)

/-- A byte of a drive's BAR. -/
def State.OfDrive (s : State) (l : Nat) : Prop := ∃ d off, physKind s (s.local l) = .drive d off

theorem memReach_iff (s : State) (l : Nat) : memReach s l = true ↔ s.Reached l := by
  simp only [memReach, State.Reached, Bool.and_eq_true, decide_eq_true_eq, beq_iff_eq, Bool.not_eq_true', Bool.and_eq_false_iff,
    decide_eq_false_iff_not, not_and_or, and_assoc]

theorem memReach_eq_false (s : State) (l : Nat) : memReach s l = false ↔ ¬s.Reached l := by
  rw [← memReach_iff, Bool.not_eq_true]

theorem windowGet_reached {s : State} {l : Nat} (h : s.Reached l) (hp : poisoned s (s.local l) 1 = false) : windowGet s l = s.byte (s.local l) := by
  simp [windowGet, (memReach_iff s l).mpr h, hp, State.byte]

theorem windowGet_nothing {s : State} {l : Nat} (h : ¬s.Reached l) (hd : ¬s.OfDrive l) : windowGet s l = 0 := by
  simp only [windowGet, (memReach_eq_false s l).mpr h, Bool.false_eq_true, if_false]
  split
  · exact absurd ⟨_, _, ‹_›⟩ hd
  · rfl

theorem windowRead_getD {s : State} (h : s.dl.st = 4) {off n i : Nat} (hi : i < n) :
    (windowRead s off n).getD i 0 = if off + i < 2 ^ s.memWin then windowGet s (s.memOff.toNat + off + i) else 0 := by
  simp [windowRead, isReady_true h, hi]

/-- What a physical address reaches does not depend on the bytes of memory, on what is poisoned, or on the bytes of a drive's BAR. -/
theorem physKind_bytes (s : State) (m : Memory) (p : List Nat) (ds : Table Drive)
    (hd : ∀ d, (tabGet Drive.reset ds d).present = (tabGet Drive.reset s.drives d).present) (pa : Nat) :
    physKind { s with mem := m, poison := p, drives := ds } pa = physKind s pa := by
  simp only [physKind, linkGone, hd]; rfl

/-- A table keeps the drives that are present when one's BAR is rewritten. -/
theorem tabSet_bar_present (ds : Table Drive) (n : Nat) (b : List (Nat × Byte)) (d : Nat) :
    (tabGet Drive.reset (tabSet ds n { tabGet Drive.reset ds n with bar := b }) d).present = (tabGet Drive.reset ds d).present := by
  by_cases h : d = n
  · subst h; simp
  · rw [tabGet_tabSet_ne _ _ _ h]

theorem State.local_inj {s : State} {a b : Nat} (h : s.local a = s.local b) : a = b := Nat.add_left_cancel h

/-- What writing bytes through MEM from `l` on leaves: memory and drives alone change, the memory that is reached takes the bytes, and drives stay where none is addressed. -/
structure WindowWritten (s : State) (l : Nat) (data : List Byte) (t : State) : Prop where
  frame : t = { s with mem := t.mem, drives := t.drives }
  present : ∀ d, (tabGet Drive.reset t.drives d).present = (tabGet Drive.reset s.drives d).present
  drives : (∀ i, i < data.length → s.Reached (l + i) ∨ ¬s.OfDrive (l + i)) → t.drives = s.drives
  taken : ∀ i, i < data.length → s.Reached (l + i) → t.byte (s.local (l + i)) = data.getD i 0
  kept : ∀ a, (∀ i, i < data.length → s.Reached (l + i) → a ≠ s.local (l + i)) → t.byte a = s.byte a

theorem windowByte_written (s : State) (l : Nat) (b : Byte) : WindowWritten s l [b] (windowByte s l b) := by
  have one : ∀ {p : Nat → Prop}, (∀ i, i < [b].length → p i) ↔ p 0 := fun {p} =>
    ⟨fun h => h 0 (by simp), fun h i hi => by simp at hi; exact hi ▸ h⟩
  unfold windowByte
  split
  · have hr : s.Reached l := (memReach_iff s l).mp ‹_›
    refine ⟨rfl, fun _ => rfl, fun _ => rfl, one.mpr fun _ => ?_, fun a ha => ?_⟩
    · simp [State.byte, memGet_set]
    · have : a ≠ s.local l := one.mp ha hr
      simp [State.byte, memGet_set, this]
  · have hr : ¬s.Reached l := fun h => ‹¬_› ((memReach_iff s l).mpr h)
    split
    · rename_i d off hk
      exact ⟨rfl, tabSet_bar_present _ _ _, fun h => ((one.mp h).elim hr fun h => h ⟨_, _, hk⟩).elim, one.mpr fun h => absurd h hr, fun _ _ => rfl⟩
    · exact ⟨rfl, fun _ => rfl, fun _ => rfl, one.mpr fun h => absurd h hr, fun _ _ => rfl⟩

section
variable {s t : State} {l : Nat} {data : List Byte} (h : WindowWritten s l data t)
include h

theorem WindowWritten.local (a : Nat) : t.local a = s.local a := by rw [h.frame]; rfl

theorem WindowWritten.kind (pa : Nat) : physKind t pa = physKind s pa := by
  rw [h.frame]; exact physKind_bytes s _ s.poison _ h.present pa

theorem WindowWritten.reached (a : Nat) : t.Reached a ↔ s.Reached a := by
  simp only [State.Reached, h.kind, h.local]; rw [h.frame]

theorem WindowWritten.ofDrive (a : Nat) : t.OfDrive a ↔ s.OfDrive a := by
  simp only [State.OfDrive, h.kind, h.local]

end

/-- A byte written, and the rest of the bytes after it. -/
theorem WindowWritten.cons {u s t : State} {l : Nat} {b : Byte} {data : List Byte} (hb : WindowWritten u l [b] s) (hl : WindowWritten s (l + 1) data t) : WindowWritten u l (b :: data) t where
  frame := hl.frame.trans (by rw [hb.frame])
  present d := (hl.present d).trans (hb.present d)
  drives hd := by
    have hs : s.drives = u.drives := hb.drives fun i hi => hd i (by simp at hi ⊢; omega)
    rw [hl.drives fun i hi => ?_, hs]
    rw [hb.reached, hb.ofDrive, Nat.add_right_comm]
    exact hd (i + 1) (by simpa using hi)
  taken i hi hr := by
    cases i with
    | zero =>
      rw [hl.kept _ fun i _ _ he => ?_, hb.taken 0 (by simp) hr]
      · rfl
      · rw [hb.local] at he
        have := State.local_inj he
        omega
    | succ i =>
      have e : l + (i + 1) = l + 1 + i := by omega
      rw [e] at hr ⊢
      have ht := hl.taken i (by simpa using hi) ((hb.reached _).mpr hr)
      rw [hb.local] at ht
      simpa using ht
  kept a ha := by
    rw [hl.kept a fun i hi hr => ?_, hb.kept a fun i hi => ha i (by simp at hi ⊢; omega)]
    rw [hb.local, Nat.add_right_comm]
    rw [hb.reached, Nat.add_right_comm] at hr
    exact ha (i + 1) (by simpa using hi) hr

theorem windowPut_written (s : State) (l : Nat) (data : List Byte) : WindowWritten s l data (windowPut s l data) := by
  induction data generalizing s l with
  | nil => exact ⟨rfl, fun _ => rfl, fun _ => rfl, fun i hi => by simp at hi, fun _ _ => rfl⟩
  | cons b bs ih => exact (windowByte_written s l b).cons (ih _ _)

theorem execHostMemAccess_write {s : State} (h : s.dl.st = 4) {off : Nat} {data : List Byte} (hw : off + data.length ≤ 2 ^ s.memWin) :
    ∃ p, execHostMemAccess off (.write data) s = .next { windowPut s (s.memOff.toNat + off) data with poison := p } :=
  ⟨_, by simp only [execHostMemAccess, isReady_true h, hw, decide_true, Bool.and_self, if_true]; rfl⟩

theorem execHostMemAccess_notReady {s : State} (h : s.dl.st ≠ 4) (off : Nat) (data : List Byte) : execHostMemAccess off (.write data) s = .next s := by
  simp [execHostMemAccess, isReady_false h]

/-- Whether a drive's write reaches module memory alone. -/
theorem execDriveDmaWrite_eq (d : Fin 128) (pa : Nat) (data : List Byte) (s : State) :
    let fits := (tabGet Drive.reset s.drives d.val).present = true ∧ ∀ i, i < data.length → physKind s (s.local (pa + i)) = .memory ∧ pa + i < 2 ^ 52
    (fits → execDriveDmaWrite d pa data s = .next { s with mem := memPut s.mem (s.local pa) data, poison := unpoison s.poison (s.local pa) data.length }) ∧
      (¬fits → execDriveDmaWrite d pa data s = .next s) := by
  intro fits
  have hf : ((tabGet Drive.reset s.drives d.val).present &&
      (List.range data.length).all fun i => physKind s (s.local (pa + i)) == .memory && pa + i < 2 ^ 52) = true ↔ fits := by
    simp [fits]
  simp only [execDriveDmaWrite]
  exact ⟨fun h => by rw [if_pos (hf.mpr h)], fun h => by rw [if_neg (mt hf.mp h)]⟩

/-- What a host write of a READY module reaches. -/
theorem hostMemAccess_written {s : State} (h : s.dl.st = 4) {off : Nat} {data : List Byte} (hw : off + data.length ≤ 2 ^ s.memWin) :
    ∃ t : State, execHostMemAccess off (.write data) s = .next t ∧ t = { s with mem := t.mem, poison := t.poison, drives := t.drives } ∧
      ((∀ i, i < data.length → s.Reached (s.memOff.toNat + off + i) ∨ ¬s.OfDrive (s.memOff.toNat + off + i)) → t.drives = s.drives) ∧
      (∀ i, i < data.length → s.Reached (s.memOff.toNat + off + i) → t.byte (s.local (s.memOff.toNat + off + i)) = data.getD i 0) ∧
      ∀ a, (∀ i, i < data.length → s.Reached (s.memOff.toNat + off + i) → a ≠ s.local (s.memOff.toNat + off + i)) → t.byte a = s.byte a := by
  obtain ⟨p, hp⟩ := execHostMemAccess_write h hw
  obtain ⟨hframe, -, hdrives, htaken, hkept⟩ := windowPut_written s (s.memOff.toNat + off) data
  exact ⟨_, hp, by rw [hframe], hdrives, htaken, hkept⟩

/-- A byte of what a host reads through MEM. -/
theorem windowRead_byte {s : State} (h : s.dl.st = 4) {off n i : Nat} (hi : i < n) :
    (off + i < 2 ^ s.memWin → s.Reached (s.memOff.toNat + off + i) → poisoned s (s.local (s.memOff.toNat + off + i)) 1 = false →
      (windowRead s off n).getD i 0 = s.byte (s.local (s.memOff.toNat + off + i))) ∧
    (2 ^ s.memWin ≤ off + i ∨ ¬s.Reached (s.memOff.toNat + off + i) ∧ ¬s.OfDrive (s.memOff.toNat + off + i) → (windowRead s off n).getD i 0 = 0) := by
  rw [windowRead_getD h hi]
  refine ⟨fun hin hr hp => by rw [if_pos hin, windowGet_reached hr hp], fun hout => ?_⟩
  split
  · obtain hle | ⟨hr, hd⟩ := hout
    · omega
    · exact windowGet_nothing hr hd
  · rfl

/-- Settles O45: the registers before and after READY, the MEM window byte by byte, and a drive's writes. -/
theorem hostRegisterResults : Obligations.HostRegisterResults := by
  intro s q
  refine ⟨fun h => ?_, fun n => execResizableBarWrite_eq n s, fun h => ?_, fun off n => rfl, fun d pa data => execDriveDmaWrite_eq d pa data s⟩
  · obtain ⟨h1, h2, h3, h4, h5⟩ := hostReads_notReady (q := q) h
    exact ⟨fun v n => hostWrites_notReady h v n, h1, h2, h3, h4, h5, execHostMemAccess_notReady h, windowRead_notReady h⟩
  · obtain ⟨hc0, hc8, hc⟩ := ctlRead_ready h
    obtain ⟨h1, h2, h3, h4, h5, h6, h7, h8⟩ := queRead_ready (q := q) h
    refine ⟨execRegisterWrite_ready h, hc0, hc8, hc, h1, h2, h3, h4, h5, h6, h7, h8, fun off => queRead_off, fun off n i hi => windowRead_byte h hi,
      execSqtail_ready h, execCqhead_ready h, fun v => ?_, fun off data => hostMemAccess_written h⟩
    obtain ⟨hs1, hs2, hs3, hs4⟩ := execSqcfg_cases (q := q) h v
    obtain ⟨hq1, hq2⟩ := execCqcfg_cases (q := q) h v
    exact ⟨hs1, hs2, hs3, hs4, hq1, hq2, execRegisterWrite_sqbase h v, execRegisterWrite_cqbase h v⟩

end Sys2Proof.Machine
end

section
/-! PROOF. Every step keeps the canonical form of every byte memory (O60): the rules, one for each way states and computations are put together. -/

namespace Sys2Proof.Machine

/-! Rules for the invariant: one for each way states and computations are put together. -/

/-- Canonical form of a core's byte memories. -/
def Core.MemOk (k : Core) : Prop := memWf k.pool = true ∧ memWf k.lanes = true

/-- The byte memories the form speaks of. -/
def State.memories (s : State) : Memory × Memory × Memory × Table Core × List Lent := (s.mem, s.host0, s.host1, s.cores, s.lent)

def Core.memories (k : Core) : Memory × Memory := (k.pool, k.lanes)

/-- The form is of the memories alone. -/
theorem State.MemOk.same {s t : State} (h : s.MemOk) (e : t.memories = s.memories) : t.MemOk := by
  simp only [State.memories, Prod.mk.injEq] at e
  obtain ⟨hmem, hhost0, hhost1, hcores, hlent⟩ := e
  simpa only [State.MemOk, hmem, hhost0, hhost1, hcores, hlent] using h

theorem Core.MemOk.same {k l : Core} (h : k.MemOk) (e : l.memories = k.memories) : l.MemOk := by
  simp only [Core.memories, Prod.mk.injEq] at e
  obtain ⟨hpool, hlanes⟩ := e
  simpa only [Core.MemOk, hpool, hlanes] using h

/-- The form after a change of main memory. -/
theorem State.MemOk.of_mem {s t : State} (h : s.MemOk) (hm : memWf t.mem = true) (e : (t.host0, t.host1, t.cores, t.lent) = (s.host0, s.host1, s.cores, s.lent)) : t.MemOk := by
  simp only [Prod.mk.injEq] at e
  obtain ⟨hhost0, hhost1, hcores, hlent⟩ := e
  obtain ⟨-, h⟩ := h
  simpa only [State.MemOk, hhost0, hhost1, hcores, hlent] using And.intro hm h

/-- The form after a change of the list of displaced work. -/
theorem State.MemOk.of_lent {s t : State} (h : s.MemOk) (hl : ∀ l ∈ t.lent, memWf l.tiles = true ∧ memWf l.image = true)
    (e : (t.mem, t.host0, t.host1, t.cores) = (s.mem, s.host0, s.host1, s.cores)) : t.MemOk := by
  simp only [Prod.mk.injEq] at e
  obtain ⟨hmem, hhost0, hhost1, hcores⟩ := e
  obtain ⟨h0, h1, h2, h3, -⟩ := h
  simpa only [State.MemOk, hmem, hhost0, hhost1, hcores] using ⟨h0, h1, h2, h3, hl⟩

/-- The form after a change of the table of cores. -/
theorem State.MemOk.of_cores {s t : State} (h : s.MemOk) (hc : ∀ e ∈ t.cores, e.2.MemOk)
    (e : (t.mem, t.host0, t.host1, t.lent) = (s.mem, s.host0, s.host1, s.lent)) : t.MemOk := by
  simp only [Prod.mk.injEq] at e
  obtain ⟨hmem, hhost0, hhost1, hlent⟩ := e
  obtain ⟨h0, h1, h2, -, h4⟩ := h
  simpa only [State.MemOk, hmem, hhost0, hhost1, hlent] using ⟨h0, h1, h2, hc, h4⟩

theorem State.MemOk.main {s : State} (h : s.MemOk) : memWf s.mem = true := h.1

theorem State.MemOk.listed {s : State} (h : s.MemOk) : ∀ e ∈ s.cores, e.2.MemOk := by
  obtain ⟨-, -, -, hcores, -⟩ := h
  exact hcores

theorem State.MemOk.displaced {s : State} (h : s.MemOk) : ∀ l ∈ s.lent, memWf l.tiles = true ∧ memWf l.image = true := by
  obtain ⟨-, -, -, -, hlent⟩ := h
  exact hlent

/-- What a step answers keeps the form. -/
def OutOk : Out → Prop
  | .next t => t.MemOk
  | .fault _ => True
  | .refused _ => True

theorem Core.MemOk.reset : Core.reset.MemOk := ⟨rfl, rfl⟩

theorem State.MemOk.reset : State.reset.MemOk := ⟨rfl, rfl, rfl, by simp [State.reset], by simp [State.reset]⟩

section
variable {s t u : State}

theorem State.MemOk.ite {c : Prop} [Decidable c] (ht : t.MemOk) (hu : u.MemOk) : (if c then t else u).MemOk := by
  split
  · exact ht
  · exact hu

theorem State.MemOk.foldl {α : Type} {f : State → α → State} {l : List α} (h : s.MemOk) (hf : ∀ t a, t.MemOk → (f t a).MemOk) : (l.foldl f s).MemOk :=
  List.foldlRecOn l f h fun t ht a _ => hf t a ht

/-- An entry of a table: one listed, or the default. -/
theorem tabGet_of_forall {α : Type} {p : α → Prop} {d : α} (hd : p d) {m : Table α} (hm : ∀ e ∈ m, p e.2) (n : Nat) : p (tabGet d m n) := by
  induction m with
  | nil => exact hd
  | cons e m ih =>
    simp only [tabGet]
    split
    · exact hm e (by simp)
    · exact ih fun a ha => hm a (by simp [ha])

theorem forall_tabSet {α : Type} {p : α → Prop} {v : α} (hv : p v) {m : Table α} (hm : ∀ e ∈ m, p e.2) (n : Nat) : ∀ e ∈ tabSet m n v, p e.2 := by
  induction m with
  | nil => simpa [tabSet] using hv
  | cons e m ih =>
    have hrest : ∀ a ∈ m, p a.2 := fun a ha => hm a (by simp [ha])
    have he := hm e (by simp)
    simp only [tabSet]
    split
    · simpa [hv] using hrest
    · split
      · simpa [hv, he] using hrest
      · simpa [he] using ih hrest

theorem State.MemOk.core (h : s.MemOk) {i : Nat} : (s.core i).MemOk := by
  obtain ⟨-, -, -, hcores, -⟩ := h
  exact tabGet_of_forall (p := Core.MemOk) Core.MemOk.reset hcores i

theorem State.MemOk.myCore (h : s.MemOk) : s.myCore.MemOk := h.core

theorem State.MemOk.setCore {i : Nat} {k : Core} (h : s.MemOk) (hk : k.MemOk) : (s.setCore i k).MemOk := by
  obtain ⟨hmem, hhost0, hhost1, hcores, hlent⟩ := h
  exact ⟨hmem, hhost0, hhost1, forall_tabSet (p := Core.MemOk) hk hcores i, hlent⟩

theorem State.MemOk.modCore {i : Nat} {f : Core → Core} (h : s.MemOk) (hf : ∀ k : Core, k.MemOk → (f k).MemOk) : (s.modCore i f).MemOk :=
  h.setCore (hf _ h.core)

theorem State.MemOk.modMyCore {f : Core → Core} (h : s.MemOk) (hf : ∀ k : Core, k.MemOk → (f k).MemOk) : (s.modMyCore f).MemOk :=
  h.modCore hf

end

section
variable {α β γ : Type} {P : State → Prop}

theorem Keeps.attempt {x : M α} (hx : Keeps P x) : Keeps P (attempt x) := by
  intro s hs
  rw [run_attempt]
  have h := hx s hs
  cases e : x s <;> simpa [e, endState] using h

theorem Keeps.discard {x : M α} (hx : Keeps P x) : Keeps P (discard x) := hx.map _

theorem Keeps.mapM' {f : γ → M β} (l : List γ) (h : ∀ a, Keeps P (f a)) : Keeps P (mapM' l f) := by
  induction l with
  | nil => exact Keeps.pure _
  | cons a l ih => exact (h a).bind fun _ => ih.bind fun _ => Keeps.pure _

theorem Keeps.foldM' {f : β → γ → M β} (b : β) (l : List γ) (h : ∀ b a, Keeps P (f b a)) : Keeps P (foldM' f b l) := by
  induction l generalizing b with
  | nil => exact Keeps.pure _
  | cons a l ih => exact (h b a).bind fun _ => ih _

end

theorem modMe_memOk {f : Ctx → Ctx} : Keeps State.MemOk (modMe f) := fun _ hs => hs

theorem modCore_memOk {f : Core → Core} (hf : ∀ k : Core, k.MemOk → (f k).MemOk) : Keeps State.MemOk (modCore f) := fun _ hs => hs.modMyCore hf

end Sys2Proof.Machine
end

section
/-! PROOF. Every step keeps the canonical form of every byte memory (O60): the operations on byte memories, on displaced work and on a core. -/

namespace Sys2Proof.Machine

/-! The canonical form through the model's own operations on byte memories. -/

theorem memSlice_range {m : Memory} {a n b : Nat} : ∀ c ∈ memSlice m a n b, b ≤ c.1 ∧ c.1 < b + n := by
  intro c hc
  simp only [memSlice, List.mem_map, List.mem_filter, Bool.and_eq_true, decide_eq_true_eq] at hc
  obtain ⟨d, ⟨-, hlo, hhi⟩, rfl⟩ := hc
  constructor <;> simp only <;> omega

/-- A range replaced by a slice of the range's length. -/
theorem memReplace_slice_wf {m p : Memory} (hm : memWf m = true) (hp : memWf p = true) (a n b : Nat) : memWf (memReplace m b n (memSlice p a n b)) = true :=
  memReplace_wf hm (memSlice_wf hp a n b) b n memSlice_range

theorem ite_wf {c : Prop} [Decidable c] {m p : Memory} (hm : memWf m = true) (hp : memWf p = true) : memWf (if c then m else p) = true := by
  split
  · exact hm
  · exact hp

theorem numBytes_length (n v : Nat) : (numBytes n v).length = n := by
  induction n generalizing v with
  | zero => rfl
  | succ n ih => simp [numBytes, ih]

/-- The bytes of a list that are not zero, each at its place from `off` on, the first at index `k`. -/
def listedBytes (off : Nat) (bs : List Byte) (k : Nat) : Memory := (bs.zipIdx k).filterMap fun b => if b.1 = 0 then none else some (off + b.2, b.1)

theorem listedBytes_cons (off : Nat) (b : Byte) (bs : List Byte) (k : Nat) :
    listedBytes off (b :: bs) k = if b = 0 then listedBytes off bs (k + 1) else (off + k, b) :: listedBytes off bs (k + 1) := by
  unfold listedBytes
  rw [List.zipIdx_cons, List.filterMap_cons]
  by_cases hb : b = 0#8 <;> simp [hb]

theorem listedBytes_memFrom (off : Nat) (bs : List Byte) (k : Nat) : memFrom (off + k) (listedBytes off bs k) := by
  induction bs generalizing k with
  | nil => trivial
  | cons b bs ih =>
    rw [listedBytes_cons]
    split
    next hb => exact (ih (k + 1)).mono (by omega)
    next hb => exact ⟨Nat.le_refl _, hb, ih (k + 1)⟩

theorem listedBytes_range {off : Nat} {bs : List Byte} {k : Nat} : ∀ c ∈ listedBytes off bs k, off + k ≤ c.1 ∧ c.1 < off + k + bs.length := by
  induction bs generalizing k with
  | nil => simp [listedBytes]
  | cons b bs ih =>
    intro c hc
    rw [listedBytes_cons] at hc
    simp only [List.length_cons]
    split at hc
    · have := ih c hc
      omega
    · rcases List.mem_cons.mp hc with rfl | hc
      · simp only
        omega
      · have := ih c hc
        omega

theorem cellsOf_wf (a n v : Nat) : memWf (cellsOf a n v) = true :=
  (memWf_iff _).mpr ((listedBytes_memFrom a (numBytes n v) 0).mono (Nat.zero_le _))

theorem cellsOf_range {a n v : Nat} : ∀ c ∈ cellsOf a n v, a ≤ c.1 ∧ c.1 < a + n := by
  intro c hc
  have := listedBytes_range c hc
  rwa [numBytes_length] at this

theorem putNum_wf {m : Memory} (h : memWf m = true) (p : Nat × Nat × Nat) : memWf (putNum m p) = true :=
  memReplace_wf h (cellsOf_wf _ _ _) _ _ cellsOf_range

theorem wordBytes_range {off : Nat} {ws : List Nat} : ∀ c ∈ wordBytes off ws, off ≤ c.1 ∧ c.1 < off + 4 * ws.length := by
  induction ws generalizing off with
  | nil => simp [wordBytes]
  | cons w ws ih =>
    intro c hc
    simp only [wordBytes, List.mem_append] at hc
    rw [List.length_cons]
    rcases hc with hc | hc
    · have := cellsOf_range (v := w) c hc
      omega
    · have := ih c hc
      omega

theorem wordBytes_memFrom (off : Nat) (ws : List Nat) : memFrom off (wordBytes off ws) := by
  induction ws generalizing off with
  | nil => trivial
  | cons w ws ih =>
    exact (listedBytes_memFrom off (numBytes 4 w) 0).append (ih (off + 4)) (by omega) fun c hc => (cellsOf_range (v := w) c hc).2

/-- The words of a tile, over the tile's bytes. -/
theorem tilePut_wf {m : Memory} (h : memWf m = true) (off : Nat) {ws : List Nat} (hws : ws.length = 4096) :
    memWf (memReplace m off 16384 (wordBytes off ws)) = true := by
  refine memReplace_wf h ((memWf_iff _).mpr ((wordBytes_memFrom off ws).mono (Nat.zero_le _))) _ _ fun c hc => ?_
  have := wordBytes_range c hc
  omega

theorem zeroTile_length : zeroTile.length = 4096 := List.length_replicate

theorem putTiles_wf {pool tiles : Memory} (hp : memWf pool = true) (ht : memWf tiles = true) (part : Word) (lc : Nat) : memWf (putTiles pool part lc tiles) = true :=
  memReplace_slice_wf hp ht _ _ _

theorem foldl_wf {α : Type} {f : Memory → α → Memory} (hf : ∀ m a, memWf m = true → memWf (f m a) = true) {m : Memory} (h : memWf m = true) (l : List α) :
    memWf (l.foldl f m) = true :=
  List.foldlRecOn l f h fun m hm a _ => hf m a hm

theorem ringImage_wf {pool : Memory} (h : memWf pool = true) (r : Ring) (hdr : Nat) : memWf (ringImage r pool hdr) = true := by
  unfold ringImage
  refine foldl_wf (fun m _ hm => memWrite_wf (memWrite_wf hm _ _ _) _ _ _) ?_ _
  iterate 10 apply memWrite_wf
  exact h

theorem putRings_wf {m : Memory} (h : memWf m = true) (img : Nat) (k : Core) (lc : Fin 8) : memWf (putRings m img k lc) = true := by
  unfold putRings
  refine foldl_wf (fun m d hm => ?_) h _
  simp only
  split
  · exact ringImage_wf (memClear_wf hm _ _) _ _
  · exact memClear_wf hm _ _

theorem buildImage_wf {s : State} (h : s.MemOk) {m : Memory} (hm : memWf m = true) (c : CtxId) (cmds : List (TugId × TugCmd)) :
    memWf (buildImage s c cmds m) = true := by
  have hpool : memWf (s.core c.core.val).pool = true := h.core.1
  have hfields := foldl_wf (fun _ p hm => putNum_wf hm p) (memReplace_slice_wf hm hpool (areaBase (s.core c.core.val).part c.lc.val) 131072 0) (imageFields s c cmds)
  unfold buildImage
  refine putRings_wf ?_ _ _ _
  split
  · exact memReplace_slice_wf hfields hpool _ _ _
  · exact hfields

theorem imageOf_wf {s : State} (h : s.MemOk) (img : Nat) : memWf (imageOf s img) = true := by
  unfold imageOf
  split
  · exact memSlice_wf h.main _ _ _
  · exact foldl_wf (fun _ _ hm => memWrite_wf hm _ _ _) rfl _

/-- The dirty bytes of a line over memory. -/
theorem lineBytes_wf {m : Memory} (h : memWf m = true) (l : DLine) :
    memWf ((List.range 64).foldl (fun m i => if l.dirty.getLsbD i then memSet m (l.pa + i) (memGet l.bytes i) else m) m) = true := by
  refine foldl_wf (fun m i hm => ?_) h _
  split
  · exact memSet_wf hm _ _
  · exact hm

/-! The list of displaced work. -/

theorem State.MemOk.lentAdded {s : State} {l : Lent} (h : s.MemOk) (hl : memWf l.tiles = true ∧ memWf l.image = true) : State.MemOk { s with lent := s.lent ++ [l] } := by
  refine h.of_lent (fun m hm => ?_) rfl
  rcases List.mem_append.mp hm with hm | hm
  · exact h.displaced m hm
  · rw [List.mem_singleton.mp hm]
    exact hl

theorem State.MemOk.lentFiltered {s : State} {p : Lent → Bool} (h : s.MemOk) : State.MemOk { s with lent := s.lent.filter p } :=
  h.of_lent (fun l hl => h.displaced l (List.mem_of_mem_filter hl)) rfl

/-! A core after a write of its pool or lanes. -/

section
variable {k l : Core}

theorem Core.MemOk.of_pool (h : k.MemOk) (hp : memWf l.pool = true) (e : l.lanes = k.lanes) : l.MemOk := ⟨hp, e ▸ h.2⟩

theorem Core.MemOk.poolWritten {a n v : Nat} (h : k.MemOk) : Core.MemOk { k with pool := memWrite k.pool a n v } := ⟨memWrite_wf h.1 a n v, h.2⟩

theorem Core.MemOk.of_lanes (h : k.MemOk) (hl : memWf l.lanes = true) (e : l.pool = k.pool) : l.MemOk := ⟨e ▸ h.1, hl⟩

end
end Sys2Proof.Machine
end

section
/-! PROOF. Every step keeps the canonical form of every byte memory (O60): the state, memory and translation. -/

namespace Sys2Proof.Machine

variable {s : State}

theorem State.MemOk.setCtx {c : CtxId} {x : Ctx} (h : s.MemOk) : (s.setCtx c x).MemOk := h
theorem State.MemOk.modCtx {c : CtxId} {f : Ctx → Ctx} (h : s.MemOk) : (State.modCtx s c f).MemOk := h.setCtx
theorem State.MemOk.setCluster {i : Nat} {x : Cluster} (h : s.MemOk) : (State.setCluster s i x).MemOk := h
theorem State.MemOk.modCluster {i : Nat} {f : Cluster → Cluster} (h : s.MemOk) : (State.modCluster s i f).MemOk := h.setCluster
theorem State.MemOk.setTug {t : TugId} {x : Tug} (h : s.MemOk) : (State.setTug s t x).MemOk := h
theorem State.MemOk.modTug {t : TugId} {f : Tug → Tug} (h : s.MemOk) : (State.modTug s t f).MemOk := h.setTug
theorem State.MemOk.setWalk {w : WalkId} {x : Walk} (h : s.MemOk) : (State.setWalk s w x).MemOk := h
theorem State.MemOk.modWalk {w : WalkId} {f : Walk → Walk} (h : s.MemOk) : (State.modWalk s w f).MemOk := h.setWalk
theorem State.MemOk.modMe {f : Ctx → Ctx} (h : s.MemOk) : (State.modMe s f).MemOk := h.modCtx
theorem waitM_memOk {α : Type} : Keeps State.MemOk (waitM : M α) := Keeps.throw _
theorem getMe_memOk : Keeps State.MemOk getMe := Keeps.get.bind fun _ => Keeps.pure _
theorem getCore_memOk : Keeps State.MemOk getCore := Keeps.get.bind fun _ => Keeps.pure _
theorem State.MemOk.putFlit {p : Nat} (h : s.MemOk) : (putFlit s p).MemOk := h
theorem State.MemOk.noteTransfer {pa : Nat} {plane : Option Nat} (h : s.MemOk) : (noteTransfer s pa plane).MemOk := h
theorem State.MemOk.sendOn {pa p : Nat} (h : s.MemOk) : (sendOn s pa p).MemOk := h.noteTransfer.putFlit

theorem State.MemOk.sendTo {pa : Nat} (h : s.MemOk) : (sendTo s pa).MemOk := by
  unfold Machine.sendTo
  split
  · exact h
  · split
    · exact h.sendOn
    · exact h.noteTransfer

theorem transfer_memOk {pa : Nat} : Keeps State.MemOk (transfer pa) := by
  unfold transfer
  refine Keeps.get_bind fun s h => ?_
  split
  · exact Keeps.pure ()
  · split
    · exact Keeps.trapU _
    · exact Keeps.trapN _ _
    all_goals
      split
      · exact Keeps.set h.sendOn
      · exact waitM_memOk

theorem poolRead_memOk {c off n : Nat} : Keeps State.MemOk (poolRead c off n) := Keeps.get.bind fun _ => Keeps.ite (fun _ => Keeps.throw _) fun _ => Keeps.pure _

theorem poolWrite_memOk {c off n v : Nat} : Keeps State.MemOk (poolWrite c off n v) := by
  unfold poolWrite
  refine Keeps.get_bind fun s h => ?_
  refine Keeps.ite (fun _ => Keeps.throw _) fun _ => ?_
  exact Keeps.set (h.modCore fun k hk => hk.of_pool (memWrite_wf hk.1 _ _ _) rfl)

theorem physGet_memOk {pa n : Nat} : Keeps State.MemOk (physGet pa n) := by
  unfold physGet
  refine Keeps.get.bind fun _ => ?_
  split
  iterate 4 exact Keeps.pure _
  · exact poolRead_memOk
  · exact Keeps.trapU _
  · exact Keeps.trapN _ _

theorem physPut_memOk {pa n v : Nat} : Keeps State.MemOk (physPut pa n v) := by
  unfold physPut
  refine Keeps.get_bind fun s h => ?_
  split
  · exact Keeps.set (h.of_mem (memWrite_wf h.main _ _ _) rfl)
  · exact Keeps.ite (fun _ => Keeps.set h) fun _ => Keeps.pure _
  · exact Keeps.ite (fun _ => Keeps.set h) fun _ => Keeps.pure _
  · exact Keeps.set h
  · exact poolWrite_memOk
  · exact Keeps.trapU _
  · exact Keeps.trapN _ _

theorem physRead_memOk {pa n : Nat} : Keeps State.MemOk (physRead pa n) := transfer_memOk.bind fun _ => physGet_memOk
theorem physWrite_memOk {pa n v : Nat} : Keeps State.MemOk (physWrite pa n v) := transfer_memOk.bind fun _ => physPut_memOk
theorem tableRead_memOk {va pa n : Nat} : Keeps State.MemOk (tableRead va pa n) := Keeps.get.bind fun _ => (Keeps.needN _ _ _).bind fun _ => physRead_memOk

theorem State.MemOk.mapTlb {holder : Holder} {f : List Trans → List Trans} (h : s.MemOk) : (mapTlb s holder f).MemOk := by
  unfold Machine.mapTlb
  split
  next => exact h
  next i => exact (h.modCore (i := i) (f := fun c => { c with tlb := f c.tlb }) fun _ hk => hk).same rfl
  next => exact h
  next => exact h

theorem asidEntry_memOk {asid : BitVec 16} {va : Nat} : Keeps State.MemOk (asidEntry asid va) :=
  Keeps.get.bind fun _ => (Keeps.needN _ _ _).bind fun _ => physRead_memOk.bind fun _ => physRead_memOk.bind fun _ => physRead_memOk.bind fun _ =>
    physRead_memOk.bind fun _ => physRead_memOk.bind fun _ => (Keeps.needN _ _ _).bind fun _ => Keeps.pure _

theorem walkFrom_memOk {va n n1 : Nat} : Keeps State.MemOk (walkFrom va n n1) := by
  induction n generalizing va n1 with
  | zero =>
    rw [walkFrom]
    exact tableRead_memOk.bind fun _ => (Keeps.needN _ _ _).bind fun _ => (Keeps.needN _ _ _).bind fun _ => Keeps.pure _
  | succ n ih =>
    rw [walkFrom]
    exact tableRead_memOk.bind fun _ => (Keeps.needN _ _ _).bind fun _ => (Keeps.needN _ _ _).bind fun _ => Keeps.ite (fun _ => ih) fun _ => Keeps.pure _

theorem contEntry_memOk {va : Nat} {l : Leaf} : Keeps State.MemOk (contEntry va l) :=
  Keeps.ite (fun _ => Keeps.get.bind fun _ => tableRead_memOk.bind fun _ => (Keeps.needN _ _ _).bind fun _ => (Keeps.needN _ _ _).bind fun _ =>
    Keeps.pure _) fun _ => Keeps.pure _

theorem walkVa_memOk {w : Who} {va : Nat} : Keeps State.MemOk (walkVa w va) :=
  asidEntry_memOk.bind fun _ => walkFrom_memOk.bind fun _ => contEntry_memOk.bind fun _ => Keeps.pure _

theorem markLeaf_memOk {holder : Holder} {acc : Acc} {t : Trans} : Keeps State.MemOk (markLeaf holder acc t) :=
  Keeps.ite (fun _ => Keeps.pure ()) fun _ => transfer_memOk.bind fun _ => physGet_memOk.bind fun _ => physPut_memOk.bind fun _ => Keeps.modify fun _ h => h.mapTlb

theorem findLeaf_memOk {w : Who} {va : Nat} {acc : Acc} : Keeps State.MemOk (findLeaf w va acc) := by
  unfold findLeaf
  refine Keeps.get.bind fun _ => ?_
  split
  · exact Keeps.pure _
  · refine Keeps.bind (Keeps.modify fun _ h1 => h1.mapTlb) fun _ => walkVa_memOk.bind fun _ => Keeps.get.bind fun _ => ?_
    split
    · exact Keeps.trapN _ _
    · exact Keeps.bind (Keeps.modify fun _ h2 => h2.mapTlb) fun _ => Keeps.pure _

theorem readPool_memOk {va pa : Nat} : Keeps State.MemOk (readPool va pa) :=
  tableRead_memOk.bind fun _ => tableRead_memOk.bind fun _ => tableRead_memOk.bind fun _ => tableRead_memOk.bind fun _ => tableRead_memOk.bind fun _ => Keeps.pure _

theorem State.MemOk.spoil {pa : Nat} (h : s.MemOk) : (spoil s pa).MemOk := by
  unfold Machine.spoil
  split
  · exact h
  · exact h.modCore fun _ h1 => h1
  all_goals exact h

theorem copyUnit_memOk {src dst : Nat} : Keeps State.MemOk (copyUnit src dst) :=
  Keeps.get.bind fun _ => physRead_memOk.bind fun _ => physWrite_memOk.bind fun _ => Keeps.ite (fun _ => Keeps.modify fun _ h1 => h1.spoil) fun _ => Keeps.pure ()

theorem copyPage_memOk {src dst : Nat} : Keeps State.MemOk (copyPage src dst) := by
  unfold copyPage
  refine Keeps.get.bind fun _ => Keeps.ite (fun _ => ?_) fun _ => Keeps.forM' _ fun _ => copyUnit_memOk
  refine (Keeps.forM' _ fun _ => transfer_memOk.bind fun _ => transfer_memOk).bind fun _ => Keeps.modify fun s h => ?_
  exact h.of_mem (memReplace_slice_wf h.main h.main _ _ _) rfl

theorem reach_memOk {w : Who} {va pa : Nat} : Keeps State.MemOk (reach w va pa) := by
  unfold reach
  refine Keeps.get.bind fun _ => ?_
  split
  · exact Keeps.trapN _ _
  · exact (Keeps.needU _ _).bind fun _ => Keeps.waitUnless _

theorem blockEntry_memOk {t : Trans} {va : Nat} : Keeps State.MemOk (blockEntry t va) :=
  tableRead_memOk.bind fun _ => (Keeps.needN _ _ _).bind fun _ => tableRead_memOk.bind fun _ => readPool_memOk.bind fun _ => Keeps.pure _

theorem findBlock_memOk {w : Who} {t : Trans} {va : Nat} {acc : Acc} : Keeps State.MemOk (findBlock w t va acc) := by
  unfold findBlock
  refine blockEntry_memOk.bind fun _ => ?_
  split
  exact reach_memOk.bind fun _ => Keeps.ite (fun _ => tableRead_memOk.bind fun _ =>
    Keeps.ite (fun _ => (Keeps.needN _ _ _).bind fun _ => tableRead_memOk.bind fun _ =>
    Keeps.bind (Keeps.forM' _ fun _ => reach_memOk.bind fun _ => reach_memOk) fun _ => Keeps.get.bind fun _ => (Keeps.waitUnless _).bind fun _ =>
    Keeps.pure _) fun _ => Keeps.pure _) fun _ => Keeps.pure _

theorem copyBlock_memOk {b : BlockUse} : Keeps State.MemOk (copyBlock b) := Keeps.ite (fun _ => Keeps.forM' _ fun _ => copyPage_memOk) fun _ => Keeps.pure ()

theorem useBlock_memOk {b : BlockUse} : Keeps State.MemOk (useBlock b) := by
  unfold useBlock
  split
  · exact physWrite_memOk.bind fun _ => physWrite_memOk.bind fun _ => physWrite_memOk.bind fun _ => physWrite_memOk.bind fun _ => physWrite_memOk.bind fun _ =>
      Keeps.pure _
  · exact Keeps.pure _

theorem translate_memOk {w : Who} {va : Nat} {acc : Acc} {enc : Bool} : Keeps State.MemOk (translate w va acc enc) :=
  findLeaf_memOk.bind fun _ => (Keeps.needN _ _ _).bind fun _ => Keeps.ite (fun _ => findBlock_memOk.bind fun _ => copyBlock_memOk.bind fun _ =>
    markLeaf_memOk.bind fun _ => useBlock_memOk.bind fun _ => Keeps.pure _) fun _ => markLeaf_memOk.bind fun _ => Keeps.pure _

theorem coreLoc_memOk {core : Fin 1024} {w : Who} {va n align : Nat} {acc : Acc} {enc : Bool} : Keeps State.MemOk (coreLoc core w va n align acc enc) := by
  unfold coreLoc
  refine (Keeps.needN _ _ _).bind fun _ => (Keeps.needN _ _ _).bind fun _ => Keeps.get.bind fun _ => ?_
  split
  · exact Keeps.trapN _ _
  · exact Keeps.pure _
  · exact translate_memOk.bind fun _ => Keeps.get.bind fun _ => (Keeps.needU _ _).bind fun _ => Keeps.pure _

theorem locRead_memOk {l : Loc} {n : Nat} : Keeps State.MemOk (locRead l n) := by
  unfold locRead
  split
  · exact poolRead_memOk
  · exact poolRead_memOk
  · exact physRead_memOk

theorem locWrite_memOk {l : Loc} {n v : Nat} : Keeps State.MemOk (locWrite l n v) := by
  unfold locWrite
  split
  · exact poolWrite_memOk
  · exact poolWrite_memOk
  · exact physWrite_memOk

theorem State.MemOk.flushLine {l : DLine} (h : s.MemOk) : (flushLine s l).MemOk := by
  unfold Machine.flushLine
  split
  · exact h
  · refine State.MemOk.sendTo ?_
    exact h.of_mem (lineBytes_wf h.main l) rfl

theorem State.MemOk.flushLines {core : Nat} {p : DLine → Bool} {drop : Bool} (h : s.MemOk) : (flushLines s core p drop).MemOk :=
  State.MemOk.modCore (h.foldl fun _ _ h1 => h1.flushLine) fun _ h1 => h1

theorem State.MemOk.evictFor {core : Nat} (h : s.MemOk) : (evictFor s core).MemOk := by
  unfold Machine.evictFor
  extract_lets _
  split
  · exact h
  · split
    · exact h.flushLines
    · exact h

theorem fillLine_memOk {core va pa : Nat} : Keeps State.MemOk (fillLine core va pa) :=
  Keeps.bind (Keeps.modify fun _ h => h.evictFor) fun _ => Keeps.get_bind fun _ h => Keeps.bind (Keeps.set (h.modCore fun _ h1 => h1)) fun _ => Keeps.pure _

theorem lineOf_memOk {core va pa : Nat} : Keeps State.MemOk (lineOf core va pa) := by
  unfold lineOf
  refine Keeps.get.bind fun _ => ?_
  split
  · exact Keeps.pure _
  · exact transfer_memOk.bind fun _ => fillLine_memOk

theorem State.MemOk.putLine {core : Nat} {l : DLine} (h : s.MemOk) : (putLine s core l).MemOk := h.modCore fun _ h1 => h1

theorem State.MemOk.dropLine {core : Nat} {l : Loc} (h : s.MemOk) : (dropLine s core l).MemOk := by
  unfold Machine.dropLine
  split
  · exact State.MemOk.ite h.flushLines h
  · exact h
  · exact h

theorem strongPrep_memOk {core : Nat} {l : Loc} : Keeps State.MemOk (strongPrep core l) := Keeps.modify fun _ h => h.dropLine

theorem cachedRead_memOk {core : Fin 1024} {va : Nat} {l : Loc} {n : Nat} : Keeps State.MemOk (cachedRead core va l n) := by
  unfold cachedRead
  refine Keeps.get.bind fun _ => ?_
  split
  · exact Keeps.ite (fun _ => lineOf_memOk.bind fun _ => Keeps.ite (fun _ => Keeps.get.bind fun _ => Keeps.bind (Keeps.modify fun _ h2 => h2.putLine) fun _ =>
      Keeps.pure _) fun _ => Keeps.pure _) fun _ => strongPrep_memOk.bind fun _ => locRead_memOk
  · exact locRead_memOk
  · exact locRead_memOk

theorem cachedWrite_memOk {core : Fin 1024} {va : Nat} {l : Loc} {n v : Nat} : Keeps State.MemOk (cachedWrite core va l n v) := by
  unfold cachedWrite
  refine Keeps.get.bind fun _ => ?_
  split
  · exact Keeps.ite (fun _ => lineOf_memOk.bind fun _ => Keeps.modify fun _ h1 => h1.putLine) fun _ => strongPrep_memOk.bind fun _ => locWrite_memOk
  · exact locWrite_memOk
  · exact locWrite_memOk

theorem locGet_memOk {l : Loc} {n : Nat} : Keeps State.MemOk (locGet l n) := by
  unfold locGet
  split
  · exact poolRead_memOk
  · exact poolRead_memOk
  · exact physGet_memOk

theorem locPut_memOk {l : Loc} {n v : Nat} : Keeps State.MemOk (locPut l n v) := by
  unfold locPut
  split
  · exact poolWrite_memOk
  · exact poolWrite_memOk
  · exact physPut_memOk

theorem cachedAmoRead_memOk {core va pa n : Nat} : Keeps State.MemOk (cachedAmoRead core va pa n) := by
  unfold cachedAmoRead
  refine transfer_memOk.bind fun _ => Keeps.get.bind fun _ => ?_
  extract_lets jp
  have hjp : ∀ x, Keeps State.MemOk (jp x) := fun _ => Keeps.get.bind fun _ => Keeps.bind (Keeps.modify fun _ h2 => h2.putLine) fun _ => Keeps.pure _
  split
  · exact (Keeps.pure _).bind hjp
  · exact fillLine_memOk.bind hjp

theorem cachedAmoWrite_memOk {core va pa n v : Nat} : Keeps State.MemOk (cachedAmoWrite core va pa n v) := by
  unfold cachedAmoWrite
  refine Keeps.get.bind fun _ => ?_
  extract_lets _ jp
  have hjp : ∀ x, Keeps State.MemOk (jp x) := fun _ => Keeps.bind (Keeps.modify fun _ h1 => h1.putLine) fun _ => physPut_memOk
  split
  · exact (Keeps.pure _).bind hjp
  · exact fillLine_memOk.bind hjp

theorem awaitAcks_memOk {l : Loc} : Keeps State.MemOk (awaitAcks l) := Keeps.get.bind fun _ => Keeps.waitUnless _
theorem meWho_memOk : Keeps State.MemOk meWho := Keeps.get.bind fun _ => Keeps.pure _

end Sys2Proof.Machine
end

section
/-! PROOF. Every step keeps the canonical form of every byte memory (O60): graphs, operations and traps. -/

namespace Sys2Proof.Machine

variable {s : State}

theorem State.MemOk.modQueue {q : Fin 64} {f : HQueue → HQueue} (h : s.MemOk) : (State.modQueue s q f).MemOk := h
theorem State.MemOk.pushRecord {cq : Fin 64} {r : CRec} (h : s.MemOk) : (pushRecord s cq r).MemOk := h.modQueue
theorem State.MemOk.poolPut {c off n v : Nat} (h : s.MemOk) : (poolPut s c off n v).MemOk := h.modCore fun _ hk => hk.of_pool (memWrite_wf hk.1 _ _ _) rfl

theorem State.MemOk.ownWrite {pa n v : Nat} (h : s.MemOk) : (ownWrite s pa n v).MemOk := by
  unfold Machine.ownWrite
  split
  · refine State.MemOk.sendTo ?_
    exact h.of_mem (memWrite_wf h.main _ _ _) rfl
  · exact h.poolPut
  all_goals exact h

theorem State.MemOk.landStore {core : Nat} {p : PStore} (h : s.MemOk) : (landStore core s p).MemOk := by
  unfold Machine.landStore
  split
  · exact h.poolPut
  · exact h.poolPut
  · exact h.dropLine.ownWrite

theorem State.MemOk.landStores {c : CtxId} {k : Nat} (h : s.MemOk) : (landStores s c k).MemOk := State.MemOk.modCtx (h.foldl fun _ _ h1 => h1.landStore)
theorem State.MemOk.performStores {c : CtxId} (h : s.MemOk) : (performStores s c).MemOk := State.MemOk.ite h h.landStores
theorem State.MemOk.notice {cq : Nat} (h : s.MemOk) : (notice s cq).MemOk := h.pushRecord

theorem State.MemOk.report {fdom : Nat} {r : Report} (h : s.MemOk) : (report s fdom r).MemOk := by
  unfold Machine.report
  split
  · exact h
  · extract_lets e ring nslot widx ridx cq a w1 w2 w3 w4 w5 w6 w7 w8 w9 w10 w11 s1
    have hrow : w11.MemOk := h.ownWrite.ownWrite.ownWrite.ownWrite.ownWrite.ownWrite.ownWrite.ownWrite.ownWrite.ownWrite.ownWrite
    have h1 : s1.MemOk := State.MemOk.ite hrow.ownWrite h.ownWrite
    exact h1.notice.ite h1

theorem State.MemOk.modGraph {g : Nat} {f : Graph → Graph} (h : s.MemOk) : (State.modGraph s g f).MemOk := by
  unfold State.modGraph
  split <;> exact h

theorem State.MemOk.modNode {r : NodeRef} {f : GNode → GNode} (h : s.MemOk) : (State.modNode s r f).MemOk := h.modGraph

theorem State.MemOk.quietly {x : M Unit} (hx : Keeps State.MemOk x) (h : s.MemOk) : (quietly x s).MemOk := by
  unfold Machine.quietly
  split
  next e => exact hx.ok h e
  next e => exact hx.error h e

theorem State.MemOk.writeHeld {r : Region} (h : s.MemOk) : (writeHeld s r).MemOk :=
  h.quietly (Keeps.bind (translate_memOk.bind fun _ => physWrite_memOk) fun _ => Keeps.bind (translate_memOk.bind fun _ => physWrite_memOk) fun _ =>
    Keeps.bind (translate_memOk.bind fun _ => physWrite_memOk) fun _ => translate_memOk.bind fun _ => physWrite_memOk)

theorem State.MemOk.writeHelds {rcb : Word} (h : s.MemOk) : (writeHelds s rcb).MemOk := h.foldl fun _ _ h1 => h1.writeHeld

theorem State.MemOk.endGraph {g status check : Nat} (h : s.MemOk) : (endGraph s g status check).MemOk := by
  unfold Machine.endGraph
  split
  next => exact h
  next x _ =>
    extract_lets s1 had s2 s3
    have h1 : s1.MemOk := h.ite h.pushRecord
    have h3 : s3.MemOk := State.MemOk.ite (h1.same rfl) (h1.same rfl)
    exact h3.writeHelds.ite h3

theorem State.MemOk.settleGraph {g : Nat} (h : s.MemOk) : (settleGraph s g).MemOk := by
  unfold Machine.settleGraph
  split
  · exact h
  · split
    · exact h
    · split
      · exact h.endGraph
      · exact h.endGraph
      · exact State.MemOk.ite h.endGraph h
      · exact h
      · exact h

theorem State.MemOk.enqueueNode {r : NodeRef} (h : s.MemOk) : (enqueueNode s r).MemOk := by
  unfold Machine.enqueueNode
  split
  · exact h.modNode.same rfl
  · exact h

theorem State.MemOk.retireNode {r : NodeRef} (h : s.MemOk) : (retireNode s r).MemOk := by
  unfold Machine.retireNode
  split
  · extract_lets _ s1 s2 s3
    have hs1 : s1.MemOk := h.modNode
    have hs2 : s2.MemOk := hs1.foldl fun _ _ h1 => h1.modNode
    have hs3 : s3.MemOk := by
      simp only [s3]
      split
      · refine hs2.foldl ?_
        intro t a h1
        split
        · exact State.MemOk.ite h1.enqueueNode h1
        · exact h1
      · exact hs2
    exact hs3.settleGraph
  · exact h

theorem State.MemOk.freeNodeWalk {r : NodeRef} (h : s.MemOk) : (freeNodeWalk s r).MemOk := by
  unfold Machine.freeNodeWalk
  split
  · exact h.modWalk
  all_goals exact h

theorem State.MemOk.failNode {r : NodeRef} (h : s.MemOk) : (failNode s r).MemOk := h.freeNodeWalk.modNode.modGraph.settleGraph

theorem State.MemOk.modRing {core : Nat} {d : Fin 8} {f : Ring → Ring} (h : s.MemOk) : (State.modRing s core d f).MemOk := by
  refine h.modCore fun k hk => hk.of_pool ?_ rfl
  simp only
  split
  · exact ringImage_wf hk.1 _ _
  · exact hk.1

theorem State.MemOk.quiesceTug {t : TugId} {p : TugCmd → Bool} (h : s.MemOk) : (quiesceTug s t p).MemOk := by
  unfold Machine.quiesceTug
  extract_lets _ _ s1
  have hs1 : s1.MemOk := by
    simp only [s1]
    refine h.foldl ?_
    intro t1 a h1
    split
    · exact h1
    · split
      · refine State.MemOk.modCore ?_ ?_
        · refine State.MemOk.modCore ?_ fun _ h2 => h2
          split
          · exact h1.modRing
          · exact h1
        · intro k h2
          split <;> exact h2
      · refine State.MemOk.modCore ?_ fun _ h2 => h2
        split
        · exact h1.modRing
        · exact h1
  exact hs1.modTug

theorem State.MemOk.quiesceCtx {c : CtxId} (h : s.MemOk) : (quiesceCtx s c).MemOk := h.foldl fun _ _ h1 => h1.quiesceTug
theorem Core.MemOk.freeSlots {c : Core} {lc : Fin 8} (h : c.MemOk) : (freeSlots c lc).MemOk := h
theorem Core.MemOk.dropRings {c : Core} {lc : Fin 8} (h : c.MemOk) : (dropRings c lc).MemOk := h
theorem State.MemOk.dropBinds {c : CtxId} (h : s.MemOk) : (dropBinds s c).MemOk := State.MemOk.ite h h.flushLines.modCtx

theorem State.MemOk.vacate {c : CtxId} (h : s.MemOk) : (vacate s c).MemOk := by
  unfold Machine.vacate
  extract_lets s1 s2 s3
  have h2 : s2.MemOk := h.performStores.dropBinds.modCore fun _ hk => hk.freeSlots (lc := c.lc)
  exact (h2.same rfl : s3.MemOk).modCtx

theorem State.MemOk.killCtx {c : CtxId} (h : s.MemOk) : (killCtx s c).MemOk := by
  unfold Machine.killCtx
  extract_lets n s1 s2 s3
  have h2 : s2.MemOk := h.quiesceCtx.modCore fun _ hk => hk.dropRings (lc := c.lc)
  clear_value n
  split
  · exact h2.vacate.failNode
  · exact h2.vacate

theorem State.MemOk.cancelWalk {w : WalkId} {p : WalkOp → Bool} (h : s.MemOk) : (cancelWalk s w p).MemOk := by
  unfold Machine.cancelWalk
  extract_lets _ _ s0 s1
  have hs0 : s0.MemOk := by
    simp only [s0]
    refine h.foldl ?_
    intro t a h1
    split
    · exact h1.ownWrite
    · exact h1
  have hs1 : s1.MemOk := hs0
  exact hs1.modWalk

theorem State.MemOk.endDomain {fdom : Nat} (h : s.MemOk) : (endDomain s fdom).MemOk := by
  unfold Machine.endDomain
  extract_lets gs mine cs issued s1 s2 s3 s4
  have h1 : s1.MemOk := h.foldl fun _ _ h => h.modGraph
  have h2 : s2.MemOk := h1.foldl fun _ _ h => h.quiesceTug
  have h3 : s3.MemOk := h2.foldl fun _ _ h => h.cancelWalk.foldl fun _ _ h => h.freeNodeWalk
  have hlent : State.MemOk { s3 with lent := s3.lent.filter fun l => l.ctx.fdom != fdom } := h3.of_lent (fun l hl => h3.displaced l (List.mem_of_mem_filter hl)) rfl
  have h4 : s4.MemOk := hlent.foldl fun _ _ h => h.killCtx
  exact h4.foldl fun _ _ h => h.modGraph.settleGraph

theorem readS_memOk {r : Fin 32} : Keeps State.MemOk (readS r) := getMe_memOk.bind fun _ => Keeps.ite (fun _ => Keeps.pure _) fun _ => waitM_memOk
theorem writeS_memOk {r : Fin 32} {v : Word} : Keeps State.MemOk (writeS r v) := getMe_memOk.bind fun _ => Keeps.ite (fun _ => modMe_memOk) fun _ => waitM_memOk
theorem awaitS_memOk {r : Fin 32} : Keeps State.MemOk (awaitS r) := getMe_memOk.bind fun _ => Keeps.waitUnless _

theorem landAt_memOk {r : Fin 32} {v : Word} {src : Option Nat} : Keeps State.MemOk (landAt r v src) :=
  Keeps.get.bind fun _ => Keeps.ite (fun _ => modMe_memOk) fun _ => Keeps.ite (fun _ => Keeps.pure ()) fun _ => modMe_memOk

theorem landS_memOk {r : Fin 32} {v : Word} : Keeps State.MemOk (landS r v) := landAt_memOk
theorem landPoison_memOk {r : Fin 32} {pa : Nat} : Keeps State.MemOk (landPoison r pa) := modMe_memOk
theorem State.MemOk.ctxReport {c : CtxId} {code : Nat} {disp : Disp} {epc tval aux : Word} (h : s.MemOk) : (ctxReport s c code disp epc tval aux).MemOk := h.report
theorem State.MemOk.stopCtx {c : CtxId} (h : s.MemOk) : (stopCtx s c).MemOk := h.modCtx

theorem State.MemOk.deliver {c : CtxId} {cause : Cause} {epc tval : Word} {vec : Bool} (h : s.MemOk) : (deliver s c cause epc tval vec).MemOk :=
  State.MemOk.ite h.ctxReport.stopCtx (State.MemOk.ite h.ctxReport.stopCtx h.modCtx)

theorem State.MemOk.leaveWait {c : CtxId} (h : s.MemOk) : (leaveWait s c).MemOk := h

theorem State.MemOk.raise {c : CtxId} {cause : Cause} {at' epc tval aux : Word} {vec : Bool} (h : s.MemOk) : (raise s c cause at' epc tval aux vec).MemOk := by
  unfold Machine.raise
  extract_lets s1 _
  have hs1 : s1.MemOk := h.leaveWait
  split
  · exact State.MemOk.ite hs1.ctxReport.stopCtx hs1.setCtx.deliver
  · exact hs1.ctxReport
  · exact hs1.ctxReport.stopCtx
  · exact hs1.ctxReport.killCtx
  · exact hs1.ctxReport.endDomain

theorem State.MemOk.retire (h : s.MemOk) : (retire s).MemOk := h.modMe

theorem State.MemOk.poisonStop {c : CtxId} (h : s.MemOk) : (poisonStop s c).MemOk := by
  unfold Machine.poisonStop
  split
  · exact h
  · exact h.modCtx.raise

theorem State.MemOk.boundary (h : s.MemOk) : (boundary s).MemOk := State.MemOk.ite h h.poisonStop
theorem State.MemOk.hold (h : s.MemOk) : (hold s).MemOk := h.modMe

theorem scalarExc_memOk {e : Exc} (h : s.MemOk) : OutOk (scalarExc e s) := by
  unfold scalarExc
  split
  · exact h.hold
  · exact h.hold
  · split
    · exact h.raise
    · exact h.hold
  · split
    · exact h.raise
    · exact h.hold

theorem complete_memOk {inh : Bool} {pc : Word} (h : s.MemOk) : OutOk (complete inh pc s) := (State.MemOk.ite h.modMe.modMe h.modMe.retire).boundary

theorem scalar_memOk {x : M Unit} (hx : Keeps State.MemOk x) (h : s.MemOk) : OutOk (scalar x s) := by
  unfold scalar
  split
  next e => exact (hx.ok h e).modMe.retire.boundary
  next e => exact scalarExc_memOk (hx.error h e)

theorem scalarTo_memOk {x : M Word} (hx : Keeps State.MemOk x) (h : s.MemOk) : OutOk (scalarTo x s) := by
  unfold scalarTo
  split
  next e => exact (hx.ok h e).modMe.retire.boundary
  next e => exact scalarExc_memOk (hx.error h e)

theorem event_memOk {x : M Unit} (hx : Keeps State.MemOk x) (h : s.MemOk) : OutOk (event x s) := by
  unfold event
  split
  next e => exact hx.ok h e
  next => exact h
  next e => exact hx.error h e

theorem needPriv_memOk {lvl : Nat} {i : Instr} : Keeps State.MemOk (needPriv lvl i) := getMe_memOk.bind fun _ => Keeps.needN _ _ _

theorem pendingTrap_memOk {s t : State} {c : CtxId} (h : s.MemOk) (e : pendingTrap s c = some t) : t.MemOk := by
  unfold pendingTrap at e
  simp only at e
  split at e
  · cases e
  · split at e
    · cases e
    · cases e
      exact h.modCtx.deliver

end Sys2Proof.Machine
end

section
/-! PROOF. Every step keeps the canonical form of every byte memory (O60): operands, registers and what is in flight. -/

namespace Sys2Proof.Machine

variable {s : State}

theorem readMask_memOk {m : Fin 8} : Keeps State.MemOk (readMask m) := getMe_memOk.bind fun _ => Keeps.pure _
theorem activeMask_memOk {l : Lane} : Keeps State.MemOk (activeMask l) := readMask_memOk

theorem lazyCheck_memOk {r : Fin 32} : Keeps State.MemOk (lazyCheck r) :=
  getMe_memOk.bind fun _ => Keeps.ite (fun _ => modMe_memOk.bind fun _ => Keeps.trapN _ _) fun _ => Keeps.pure ()

theorem decodeSource_memOk {r : Fin 32} {fe : Bool} : Keeps State.MemOk (decodeSource r fe) := by
  unfold decodeSource
  refine lazyCheck_memOk.bind fun _ => getMe_memOk.bind fun _ => ?_
  extract_lets jp
  have hjp : ∀ x, Keeps State.MemOk (jp x) := fun _ => Keeps.ite (fun _ => Keeps.trapU _) fun _ => Keeps.pure ()
  exact Keeps.ite (fun _ => Keeps.ite (fun _ => (Keeps.trapU _).bind hjp) fun _ => waitM_memOk.bind hjp) fun _ => hjp ()

theorem decodeDest_memOk {r : Fin 32} {whole : Bool} : Keeps State.MemOk (decodeDest r whole) := by
  unfold decodeDest
  split
  · exact getMe_memOk.bind fun _ => Keeps.ite (fun _ => waitM_memOk) fun _ => Keeps.pure ()
  · refine lazyCheck_memOk.bind fun _ => getMe_memOk.bind fun _ => ?_
    extract_lets jp
    have hjp : ∀ x, Keeps State.MemOk (jp x) := fun _ => Keeps.ite (fun _ => Keeps.trapU _) fun _ => Keeps.pure ()
    exact Keeps.ite (fun _ => waitM_memOk.bind hjp) fun _ => hjp ()

theorem branchHolds_memOk {f : BForm} : Keeps State.MemOk (branchHolds f) := by
  unfold branchHolds
  refine getMe_memOk.bind fun _ => ?_
  split
  · exact Keeps.pure _
  · exact Keeps.pure _
  · refine readS_memOk.bind fun _ => readS_memOk.bind fun _ => ?_
    split <;> exact Keeps.pure _

theorem execJalr_memOk {f : IForm} (h : s.MemOk) : OutOk (execJalr f s) :=
  scalarTo_memOk (readS_memOk.bind fun _ => (Keeps.need _ _ _).bind fun _ => getMe_memOk.bind fun _ => writeS_memOk.bind fun _ => Keeps.pure _) h

theorem awaitTrim_memOk : Keeps State.MemOk awaitTrim := getMe_memOk.bind fun _ => Keeps.waitUnless _
theorem needLim_memOk : Keeps State.MemOk needLim := getMe_memOk.bind fun _ => (Keeps.needN _ _ _).bind fun _ => Keeps.pure _

theorem execStrip_memOk {f : PForm} (h : s.MemOk) : OutOk (execStrip f s) :=
  scalarTo_memOk (awaitTrim_memOk.bind fun _ => needLim_memOk.bind fun _ => readS_memOk.bind fun _ => Keeps.bind (Keeps.forM' _ fun _ => awaitS_memOk) fun _ =>
    getMe_memOk.bind fun _ => Keeps.bind (Keeps.forM' _ fun _ => readS_memOk.bind fun _ => writeS_memOk) fun _ => writeS_memOk.bind fun _ =>
    modMe_memOk.bind fun _ => Keeps.pure _) h

theorem clearVstart_memOk : Keeps State.MemOk clearVstart := modMe_memOk
theorem setVstart_memOk {e : Nat} : Keeps State.MemOk (setVstart e) := modMe_memOk

theorem splitEnd_memOk {l : Lane} : Keeps State.MemOk (splitEnd l) := by
  unfold splitEnd
  split
  · exact Keeps.pure ()
  · exact setVstart_memOk.bind fun _ => Keeps.throw _

theorem elementWise_memOk {l : Lane} {vd : Fin 32} {ssew sew : Nat} {x baseOnly : Bool} {sources : List (Fin 32 × Bool)} {prep : Ctx → List Src} {f : ElemFn} :
    Keeps State.MemOk (elementWise l vd ssew sew x baseOnly sources prep f) :=
  activeMask_memOk.bind fun _ => Keeps.bind (Keeps.forM' _ fun _ => decodeSource_memOk) fun _ => decodeDest_memOk.bind fun _ =>
    Keeps.ite (fun _ => clearVstart_memOk) fun _ => getMe_memOk.bind fun _ => modMe_memOk.bind fun _ => splitEnd_memOk

theorem maskWise_memOk {l : Lane} {md : Fin 8} {ssew : Nat} {sources : List (Fin 32 × Bool)} {prep : Ctx → List Src} {f : ElemFn} :
    Keeps State.MemOk (maskWise l md ssew sources prep f) :=
  activeMask_memOk.bind fun _ => Keeps.bind (Keeps.forM' _ fun _ => decodeSource_memOk) fun _ => Keeps.ite (fun _ => clearVstart_memOk) fun _ =>
    getMe_memOk.bind fun _ => modMe_memOk.bind fun _ => splitEnd_memOk

theorem State.MemOk.landScalar {c : CtxId} {r : Fin 32} (h : s.MemOk) : (landScalar c r s).MemOk := by
  unfold Machine.landScalar
  extract_lets _
  split
  · exact h
  · extract_lets s1
    have hs1 : s1.MemOk := h.modCtx
    split
    · exact hs1.modCtx
    · exact hs1.raise

theorem State.MemOk.landVector {c : CtxId} {r : Fin 32} (h : s.MemOk) : (landVector c r s).MemOk := by
  unfold Machine.landVector
  extract_lets _ s1
  have hs1 : s1.MemOk := h.modCtx
  split
  · exact hs1.modCtx
  · split
    · exact hs1.modCtx
    · exact hs1.modCtx
    · exact hs1.raise

theorem State.MemOk.settleFills {c : CtxId} {n : Fin 32} (h : s.MemOk) : (settleFills s c n).MemOk := State.MemOk.ite h h
theorem Core.MemOk.freeThese {ns : List (Fin 32)} {c : Core} (h : c.MemOk) : (freeThese ns c).MemOk := h

theorem State.MemOk.settleRels {c : CtxId} (h : s.MemOk) : (settleRels s c).MemOk :=
  h.foldl fun _ _ h1 => State.MemOk.ite h1 (State.MemOk.modCtx (h1.modCore fun _ h2 => Core.MemOk.freeThese h2))

theorem State.MemOk.landSlot {core : Fin 1024} {n : Fin 32} (h : s.MemOk) : (landSlot core n s).MemOk := by
  unfold Machine.landSlot
  extract_lets _ _ _ _ put
  have hput : ∀ s1 k1 st1, s1.MemOk → (put s1 k1 st1).MemOk := fun _ _ _ h1 => State.MemOk.settleFills (h1.modCore fun _ h2 => h2)
  split
  · split
    · exact hput _ _ _ h
    · extract_lets s1
      have hs1 : s1.MemOk := h.modCtx
      split
      · exact hput _ _ _ hs1
      · exact hput _ _ _ hs1.modCtx
      · exact (hput _ _ _ hs1).raise
  · exact h

theorem State.MemOk.arrayNext {core : Fin 1024} (h : s.MemOk) : (arrayNext core s).MemOk := by
  unfold Machine.arrayNext
  extract_lets _
  split
  · exact h
  · exact State.MemOk.ite (h.modCore fun _ h1 => h1) h

theorem State.MemOk.drainArray {c : CtxId} {n : Nat} (h : s.MemOk) : (drainArray c n s).MemOk := by
  induction n generalizing s with
  | zero => exact h
  | succ n ih =>
    rw [Machine.drainArray]
    split
    · exact ih h.arrayNext
    · exact h

theorem State.MemOk.landCtx {c : CtxId} (h : s.MemOk) : (landCtx s c).MemOk :=
  State.MemOk.drainArray (State.MemOk.foldl (State.MemOk.modCtx (State.MemOk.foldl (h.foldl fun _ _ h1 => h1.landScalar) fun _ _ h1 =>
    State.MemOk.ite h1 h1.landVector)) fun _ _ h1 => State.MemOk.ite h1.landSlot h1)

theorem State.MemOk.wakeGroups {core : Fin 1024} {gs : BitVec 4} {lost : BitVec 128} (h : s.MemOk) : (wakeGroups core gs lost s).MemOk :=
  State.MemOk.ite h (State.MemOk.foldl (h.modCore fun _ h1 => h1) fun _ _ h1 => h1.modCtx)

theorem State.MemOk.wakeAll {core : Fin 1024} (h : s.MemOk) : (wakeAll s core).MemOk := h.wakeGroups

theorem State.MemOk.evictSlab {core : Fin 1024} {b : Nat × Nat × Nat} (h : s.MemOk) : (evictSlab core s b).MemOk := by
  unfold Machine.evictSlab
  split
  · exact h.wakeAll.modCore fun _ hk => hk.poolWritten
  · exact h

theorem State.MemOk.useSlab {core : Fin 1024} {b : Nat × Nat × Nat} (h : s.MemOk) : (useSlab core s b).MemOk := by
  unfold Machine.useSlab
  extract_lets _
  split
  · exact h.modCore fun _ h1 => h1
  · split
    · exact h.evictSlab.modCore fun _ h1 => h1
    · exact h.modCore fun _ h1 => h1

theorem State.MemOk.freeTails (h : s.MemOk) : (freeTails s).MemOk := State.MemOk.ite h (h.modMyCore fun _ h1 => h1)
theorem needRegs_memOk {regs : List Nat} {i : Instr} : Keeps State.MemOk (needRegs regs i) := getMe_memOk.bind fun _ => Keeps.needN _ _ _

theorem enqueue_memOk {i : Instr} {u : Issue} : Keeps State.MemOk (enqueue i u) := by
  unfold enqueue
  refine needRegs_memOk.bind fun _ => awaitTrim_memOk.bind fun _ => ?_
  extract_lets jp
  have hjp : ∀ x, Keeps State.MemOk (jp x) := by
    intro x
    simp only [jp]
    split
    · exact awaitS_memOk.bind fun _ => getMe_memOk.bind fun _ => (Keeps.waitUnless _).bind fun _ => modMe_memOk
    · exact getMe_memOk.bind fun _ => (Keeps.waitUnless _).bind fun _ => modMe_memOk
  split
  · exact readS_memOk.bind hjp
  · exact (Keeps.pure _).bind hjp

theorem State.MemOk.laneRetire (h : s.MemOk) : (laneRetire s).MemOk := h.modMe.freeTails.retire
theorem State.MemOk.laneHold (h : s.MemOk) : (laneHold s).MemOk := h.modMe

theorem State.MemOk.laneTrap {c : Cause} {tval aux : Word} (h : s.MemOk) : (laneTrap s c tval aux).MemOk := by
  unfold Machine.laneTrap
  split
  · exact h
  · exact State.MemOk.ite h.landCtx (State.MemOk.ite h.landCtx.modMe.raise h.landCtx.raise)

theorem State.MemOk.noteLoads {s t : State} (h : t.MemOk) : (noteLoads s t).MemOk := by
  unfold Machine.noteLoads
  split
  · exact h
  · split
    · exact h
    · exact h.modMe

theorem runHead_memOk {body : M Unit} (hb : Keeps State.MemOk body) (h : s.MemOk) : OutOk (runHead body s) := by
  unfold runHead
  have hw : (wakeGroups s.cur.core (headGroups s.me) (Config.wakeLost s.tick) s).MemOk := h.wakeGroups
  generalize wakeGroups s.cur.core (headGroups s.me) (Config.wakeLost s.tick) s = w at hw
  simp only
  split
  next e => exact (hb.ok hw e).noteLoads.laneRetire
  next => exact hw.laneHold
  next => exact hw.laneHold
  next e => exact (hb.error hw e).laneTrap
  next e =>
    refine State.MemOk.laneTrap ?_
    exact State.MemOk.ite (hb.error hw e) hw
  next e => exact (hb.error hw e).laneTrap

theorem onHead_memOk {body : Lane → M Unit} (h : ∀ a, Keeps State.MemOk (body a)) : Keeps State.MemOk (onHead body) := by
  unfold onHead
  refine getMe_memOk.bind fun _ => ?_
  split
  · exact h _
  · exact Keeps.pure ()

theorem vector_memOk {i : Instr} {u : Issue} {body : Lane → M Unit} (hb : ∀ l, Keeps State.MemOk (body l)) (h : s.MemOk) : OutOk (vector i u body s) := by
  unfold vector
  split
  next e => exact scalarExc_memOk (enqueue_memOk.error h e)
  next e =>
    have ht := enqueue_memOk.ok h e
    split
    · exact ht
    · exact runHead_memOk (onHead_memOk hb) ht

theorem needEntry_memOk {l : Lane} {n : Nat} : Keeps State.MemOk (needEntry l n) := (Keeps.needN _ _ _).bind fun _ => Keeps.pure _
theorem needVtypeEntry_memOk {l : Lane} : Keeps State.MemOk (needVtypeEntry l) := needEntry_memOk
theorem needKind_memOk {ok : Bool} : Keeps State.MemOk (needKind ok) := Keeps.needU _ _

end Sys2Proof.Machine
end

section
/-! PROOF. Every step keeps the canonical form of every byte memory (O60): vector arithmetic, loads, stores and streams. -/

namespace Sys2Proof.Machine

variable {s : State}

theorem variRun_memOk {op : VariOp} {vd va : Fin 32} {feA : Bool} {b : VSrc} {x : Bool} {l : Lane} : Keeps State.MemOk (variRun op vd va feA b x l) :=
  needVtypeEntry_memOk.bind fun _ => elementWise_memOk

theorem vzRun_memOk {vd va : Fin 32} {feA : Bool} {ent : Nat} {x : Bool} {l : Lane} : Keeps State.MemOk (vzRun vd va feA ent x l) :=
  needVtypeEntry_memOk.bind fun _ => needEntry_memOk.bind fun _ => needKind_memOk.bind fun _ => (Keeps.needU _ _).bind fun _ => elementWise_memOk

theorem vfpRun_memOk {op : VfpOp} {vd va : Fin 32} {feA : Bool} {b : Option VSrc} {x : Bool} {l : Lane} : Keeps State.MemOk (vfpRun op vd va feA b x l) :=
  needVtypeEntry_memOk.bind fun _ => needKind_memOk.bind fun _ => elementWise_memOk

theorem laneVidx_memOk {f : VIdxForm} {l : Lane} : Keeps State.MemOk (laneVidx f l) := by
  unfold laneVidx
  extract_lets _ _
  split
  iterate 15 exact variRun_memOk
  · exact vzRun_memOk
  iterate 14 exact vfpRun_memOk
  · exact Keeps.pure ()

theorem cmpRun_memOk {f : VCmpForm} {float : Bool} {rel : Relation} {l : Lane} : Keeps State.MemOk (cmpRun f float rel l) :=
  needVtypeEntry_memOk.bind fun _ => needKind_memOk.bind fun _ => maskWise_memOk

theorem maskLogic_memOk {md : Fin 8} {new : Ctx → Nat} {l : Lane} : Keeps State.MemOk (maskLogic md new l) := needVtypeEntry_memOk.bind fun _ => modMe_memOk

theorem maskScalar_memOk {f : MS} {g : Nat → Word} {l : Lane} : Keeps State.MemOk (maskScalar f g l) :=
  activeMask_memOk.bind fun _ => readMask_memOk.bind fun _ => clearVstart_memOk.bind fun _ => landS_memOk

theorem laneMpop_memOk {f : MS} {a : Lane} : Keeps State.MemOk (laneMpop f a) := maskScalar_memOk
theorem laneMfirst_memOk {f : MS} {a : Lane} : Keeps State.MemOk (laneMfirst f a) := maskScalar_memOk
theorem scalarLoc_memOk {a n : Nat} {acc : Acc} : Keeps State.MemOk (scalarLoc a n acc) := Keeps.get.bind fun _ => meWho_memOk.bind fun _ => coreLoc_memOk

theorem poisonAt_memOk {l : Loc} {n : Nat} : Keeps State.MemOk (poisonAt l n) := by
  unfold poisonAt
  refine Keeps.get.bind fun _ => ?_
  split <;> exact Keeps.pure _

theorem landFrom_memOk {l : Loc} {r : Fin 32} {v : Word} : Keeps State.MemOk (landFrom l r v) := by
  unfold landFrom
  split
  · exact writeS_memOk
  · exact landAt_memOk
  · exact landS_memOk

theorem scalarRead_memOk {a : Nat} {l : Loc} {n : Nat} {plain : Bool} : Keeps State.MemOk (scalarRead a l n plain) :=
  Keeps.get.bind fun _ => Keeps.ite (fun _ => cachedRead_memOk) fun _ => strongPrep_memOk.bind fun _ => locRead_memOk

theorem scalarWrite_memOk {a : Nat} {l : Loc} {n v : Nat} {plain : Bool} : Keeps State.MemOk (scalarWrite a l n v plain) :=
  Keeps.get.bind fun _ => Keeps.ite (fun _ => cachedWrite_memOk) fun _ => strongPrep_memOk.bind fun _ => locWrite_memOk

theorem drainFor_memOk {l : Loc} {n : Nat} : Keeps State.MemOk (drainFor l n) := Keeps.modify fun _ h => State.MemOk.ite h h.landStores
theorem drainAll_memOk : Keeps State.MemOk drainAll := Keeps.modify fun _ h => h.performStores

theorem execLd_memOk {f : LForm} (h : s.MemOk) : OutOk (execLd f s) := by
  unfold execLd
  refine scalar_memOk ?_ h
  refine readS_memOk.bind fun _ => awaitS_memOk.bind fun _ => ?_
  extract_lets _ _
  refine scalarLoc_memOk.bind fun _ => drainFor_memOk.bind fun _ => poisonAt_memOk.bind fun _ => ?_
  split
  · exact landPoison_memOk
  · exact scalarRead_memOk.bind fun _ => landFrom_memOk

theorem execSt_memOk {f : LForm} (h : s.MemOk) : OutOk (execSt f s) := by
  unfold execSt
  refine scalar_memOk ?_ h
  refine readS_memOk.bind fun _ => readS_memOk.bind fun _ => ?_
  extract_lets _ _
  refine scalarLoc_memOk.bind fun _ => Keeps.get.bind fun _ => ?_
  extract_lets jp
  have hjp : ∀ x, Keeps State.MemOk (jp x) := fun _ => Keeps.get.bind fun _ => Keeps.ite (fun _ => modMe_memOk) fun _ => drainFor_memOk.bind fun _ =>
    scalarWrite_memOk
  exact Keeps.ite (fun _ => drainAll_memOk.bind fun _ => awaitAcks_memOk.bind hjp) fun _ => hjp ()

theorem amo_memOk {f : XForm} {op : AmoOp} : Keeps State.MemOk (amo f op) := by
  unfold amo
  refine readS_memOk.bind fun _ => readS_memOk.bind fun _ => readS_memOk.bind fun _ => scalarLoc_memOk.bind fun _ => ?_
  extract_lets jp
  have hjp : ∀ x, Keeps State.MemOk (jp x) := by
    intro x
    simp only [jp]
    refine drainFor_memOk.bind fun _ => poisonAt_memOk.bind fun _ => ?_
    split
    · exact landPoison_memOk
    · refine Keeps.get.bind fun _ => ?_
      split
      · refine cachedAmoRead_memOk.bind fun _ => ?_
        split
        · exact cachedAmoWrite_memOk.bind fun _ => landFrom_memOk
        · exact locPut_memOk.bind fun _ => landFrom_memOk
        · exact landFrom_memOk
      · refine scalarRead_memOk.bind fun _ => ?_
        split
        · exact cachedAmoWrite_memOk.bind fun _ => landFrom_memOk
        · exact locPut_memOk.bind fun _ => landFrom_memOk
        · exact landFrom_memOk
  exact Keeps.ite (fun _ => drainAll_memOk.bind fun _ => awaitAcks_memOk.bind hjp) fun _ => hjp ()

theorem awaitQ_memOk {q : Fin 16} : Keeps State.MemOk (awaitQ q) := Keeps.get.bind fun _ => Keeps.waitUnless _
theorem putQ_memOk {q : Fin 16} {r : QReg} : Keeps State.MemOk (putQ q r) := modMe_memOk
theorem getQ_memOk {q : Fin 16} : Keeps State.MemOk (getQ q) := getMe_memOk.bind fun _ => Keeps.pure _

theorem readWords_memOk {a n : Nat} : Keeps State.MemOk (readWords a n) := by
  induction n generalizing a with
  | zero =>
    rw [readWords]
    exact Keeps.pure _
  | succ n ih =>
    rw [readWords]
    refine scalarLoc_memOk.bind fun _ => drainFor_memOk.bind fun _ => poisonAt_memOk.bind fun _ => ?_
    split
    · exact Keeps.throw _
    · exact scalarRead_memOk.bind fun _ => ih.bind fun _ => Keeps.pure _

theorem readDesc_memOk {a : Nat} : Keeps State.MemOk (readDesc a) := by
  unfold readDesc
  refine (Keeps.needN _ _ _).bind fun _ => (Keeps.attempt readWords_memOk).bind fun _ => ?_
  split
  · exact Keeps.pure _
  · exact Keeps.ite (fun _ => Keeps.trapN _ _) fun _ => Keeps.throw _
  · exact Keeps.throw _

theorem execQbind_memOk {f : QAForm} (h : s.MemOk) : OutOk (execQbind f s) :=
  scalar_memOk (awaitQ_memOk.bind fun _ => readS_memOk.bind fun _ => readDesc_memOk.bind fun _ => getMe_memOk.bind fun _ => (Keeps.needN _ _ _).bind fun _ =>
    putQ_memOk) h

theorem execQseek_memOk {f : QAForm} (h : s.MemOk) : OutOk (execQseek f s) :=
  scalar_memOk (awaitQ_memOk.bind fun _ => readS_memOk.bind fun _ => getQ_memOk.bind fun _ => (Keeps.needU _ _).bind fun _ => (Keeps.needN _ _ _).bind fun _ =>
    putQ_memOk) h

theorem needStream_memOk {q : Fin 16} {writes lay : Bool} : Keeps State.MemOk (needStream q writes lay) :=
  getQ_memOk.bind fun _ => (Keeps.needU _ _).bind fun _ => (Keeps.needU _ _).bind fun _ => (Keeps.needU _ _).bind fun _ => Keeps.pure _

theorem laneWho_memOk {l : Lane} : Keeps State.MemOk (laneWho l) := Keeps.get.bind fun _ => Keeps.pure _

theorem elemCheck_memOk {port va align : Nat} {ended : Bool} : Keeps State.MemOk (elemCheck port va align ended) :=
  (Keeps.needN _ _ _).bind fun _ => (Keeps.needN _ _ _).bind fun _ => (Keeps.needN _ _ _).bind fun _ => Keeps.needN _ _ _

theorem elemLoc_memOk {l : Lane} {port va n align : Nat} {ended : Bool} {acc : Acc} {enc : Bool} : Keeps State.MemOk (elemLoc l port va n align ended acc enc) :=
  elemCheck_memOk.bind fun _ => Keeps.get.bind fun _ => laneWho_memOk.bind fun _ => coreLoc_memOk

theorem notePage_memOk {p : Loc} : Keeps State.MemOk (notePage p) := by
  unfold notePage
  refine Keeps.modify ?_
  intro s h
  split
  · exact State.MemOk.ite h.modMe h
  · exact h
  · exact h

theorem stampPages_memOk {e : Nat} : Keeps State.MemOk (stampPages e) := Keeps.modify fun _ h => State.MemOk.ite h.modMe h

theorem laneRead_memOk {p : Loc} {n : Nat} : Keeps State.MemOk (laneRead p n) := by
  unfold laneRead
  refine poisonAt_memOk.bind fun _ => ?_
  split
  · exact Keeps.throw _
  · exact notePage_memOk.bind fun _ => locRead_memOk

theorem streamBytes_memOk {l : Lane} {r : QReg} {key va : Nat} {enc : Bool} {l1 : List Nat} : Keeps State.MemOk (streamBytes l r key va enc l1) := by
  induction l1 generalizing l r key va enc with
  | nil =>
    rw [streamBytes]
    exact Keeps.pure _
  | cons a l' ih =>
    rw [streamBytes]
    split
    · exact (Keeps.pure _).bind fun _ => ih.bind fun _ => Keeps.pure _
    · exact elemLoc_memOk.bind fun _ => laneRead_memOk.bind fun _ => ih.bind fun _ => Keeps.pure _

theorem streamRead_memOk {l : Lane} {r : QReg} {key va n align : Nat} {ended enc : Bool} : Keeps State.MemOk (streamRead l r key va n align ended enc) :=
  Keeps.ite (fun _ => elemCheck_memOk.bind fun _ => streamBytes_memOk) fun _ => elemLoc_memOk.bind fun _ => laneRead_memOk

theorem elemTry_memOk {α : Type} {x : M α} (h : Keeps State.MemOk x) : Keeps State.MemOk (elemTry x) := by
  unfold elemTry
  refine (Keeps.attempt h).bind fun _ => ?_
  split
  · exact Keeps.pure _
  · exact Keeps.throw _
  · exact Keeps.throw _
  · exact Keeps.pure _

theorem tryElems_memOk {α : Type} {f : Nat → M α} {l : List Nat} (h : ∀ a, Keeps State.MemOk (f a)) : Keeps State.MemOk (tryElems f l) := by
  induction l generalizing α f with
  | nil =>
    rw [tryElems]
    exact Keeps.pure _
  | cons a l ih =>
    rw [tryElems]
    refine (elemTry_memOk (h _)).bind fun _ => ?_
    split
    · exact Keeps.pure _
    · exact stampPages_memOk.bind fun _ => (ih h).bind fun _ => Keeps.pure _

theorem usePrepared_memOk {r : QReg} : Keeps State.MemOk (usePrepared r) := Keeps.ite (fun _ => Keeps.pure ()) fun _ => modCore_memOk fun _ h => h

theorem readParts_memOk {l : Lane} {r : QReg} {enc : Bool} {blk : Nat} {l1 : List (Nat × Nat)} : Keeps State.MemOk (readParts l r enc blk l1) := by
  induction l1 generalizing l r enc blk with
  | nil =>
    rw [readParts]
    exact Keeps.pure _
  | cons a l' ih =>
    rw [readParts]
    refine (elemTry_memOk streamRead_memOk).bind fun _ => ?_
    split
    · exact Keeps.pure _
    · exact ih.bind fun _ => Keeps.pure _

theorem readSpan_memOk {l : Lane} {r : QReg} {enc : Bool} {blk va n : Nat} : Keeps State.MemOk (readSpan l r enc blk va n) := readParts_memOk

theorem writeSpan_memOk {l : Lane} {port : Nat} {enc : Bool} {l1 : List (Nat × Nat)} {n : Nat} : Keeps State.MemOk (writeSpan l port enc l1 n) := by
  induction l1 generalizing l port enc n with
  | nil =>
    rw [writeSpan]
    exact Keeps.pure _
  | cons a l' ih =>
    rw [writeSpan]
    refine Keeps.bind (elemTry_memOk (elemLoc_memOk.bind fun _ => locWrite_memOk)) fun _ => ?_
    split
    · exact Keeps.pure _
    · exact ih.bind fun _ => Keeps.pure _

theorem readEarly_memOk {l : Lane} {enc : Bool} {l1 : List Early} {a : QReg} : Keeps State.MemOk (readEarly l enc l1 a) := by
  induction l1 generalizing l enc a with
  | nil =>
    rw [readEarly]
    exact Keeps.pure _
  | cons a l' ih =>
    rw [readEarly]
    split
    · exact ih
    · extract_lets x
      have hx : Keeps State.MemOk x := elemLoc_memOk.bind fun _ => laneRead_memOk
      refine (Keeps.attempt hx).bind fun _ => ?_
      split
      · exact Keeps.throw _
      · exact ih
      · exact ih

theorem streamFmt_memOk {l : Lane} {d : Desc} : Keeps State.MemOk (streamFmt l d) := needEntry_memOk
theorem convCode_memOk {l : Lane} {src dst c : Nat} : Keeps State.MemOk (convCode l src dst c) := getMe_memOk.bind fun _ => modMe_memOk.bind fun _ => Keeps.pure _
theorem moveCode_memOk {l : Lane} {src dst c : Nat} : Keeps State.MemOk (moveCode l src dst c) := Keeps.ite (fun _ => Keeps.pure _) fun _ => convCode_memOk

theorem loadWrite_memOk {l : Lane} {sew vl : Nat} {td : Bool} {regs : List (Fin 32)} {vals : List (Nat × List Nat)} :
    Keeps State.MemOk (loadWrite l sew vl td regs vals) :=
  Keeps.get.bind fun _ => Keeps.forM' _ fun _ => modMe_memOk

theorem trimVl_memOk {e : Nat} : Keeps State.MemOk (trimVl e) := modMe_memOk

theorem unlessStopped_memOk {α : Type} {l : Lane} {f : Nat → M α} {e : Nat} (h : ∀ a, Keeps State.MemOk (f a)) : Keeps State.MemOk (unlessStopped l f e) := by
  unfold unlessStopped
  split
  · exact h _
  · exact Keeps.ite (fun _ => Keeps.throw _) fun _ => h _

theorem loadRun_memOk {l : Lane} {sew : Nat} {regs : List (Fin 32)} {elems : List Nat} {trims : Bool} {fetch : Nat → M (List Nat)} {advance : Nat → M Unit}
    (h : ∀ a, Keeps State.MemOk (fetch a)) (h2 : ∀ a, Keeps State.MemOk (advance a)) :
    Keeps State.MemOk (loadRun l sew regs elems trims fetch advance) := by
  unfold loadRun
  refine Keeps.bind (tryElems_memOk fun _ => unlessStopped_memOk h) fun _ => ?_
  split
  · exact loadWrite_memOk.bind fun _ => (h2 _).bind fun _ => clearVstart_memOk
  · split
    · exact loadWrite_memOk.bind fun _ => trimVl_memOk.bind fun _ => (h2 _).bind fun _ => clearVstart_memOk
    · extract_lets jp
      have hjp : ∀ x, Keeps State.MemOk (jp x) := fun _ => setVstart_memOk.bind fun _ => Keeps.throw _
      exact Keeps.ite (fun _ => loadWrite_memOk.bind hjp) fun _ => hjp ()

theorem storeRun_memOk {l : Lane} {elems : List Nat} {put : Nat → M Unit} {advance : M Unit} (h : ∀ a, Keeps State.MemOk (put a)) (h2 : Keeps State.MemOk advance) :
    Keeps State.MemOk (storeRun l elems put advance) := by
  unfold storeRun
  refine Keeps.bind (tryElems_memOk fun _ => unlessStopped_memOk h) fun _ => ?_
  split
  · exact h2.bind fun _ => clearVstart_memOk
  · exact setVstart_memOk.bind fun _ => Keeps.throw _

theorem movePos_memOk {q : Fin 16} {pos : Nat} {used : List Nat} : Keeps State.MemOk (movePos q pos used) := getQ_memOk.bind fun _ => putQ_memOk

theorem loadAdvance_memOk {l : Lane} {q : Fin 16} {hint : Fin 8} {packed : Option Nat} {accesses : Nat → List Access} {g : Nat} :
    Keeps State.MemOk (loadAdvance l q hint packed accesses g) :=
  getQ_memOk.bind fun _ => movePos_memOk.bind fun _ => Keeps.ite (fun _ => getQ_memOk.bind fun _ => readEarly_memOk.bind fun _ => putQ_memOk) fun _ => Keeps.pure ()

theorem streamLoad_memOk {l : Lane} {q : Fin 16} {hint : Fin 8} {sew : Nat} {packed : Option Nat} {regs : List (Fin 32)} {accesses : Nat → List Access}
    {fill : Nat → List Nat → M (List Nat)} (h : ∀ a a1, Keeps State.MemOk (fill a a1)) :
    Keeps State.MemOk (streamLoad l q hint sew packed regs accesses fill) :=
  getQ_memOk.bind fun _ => activeMask_memOk.bind fun _ => Keeps.bind (Keeps.forM' _ fun _ => decodeDest_memOk) fun _ =>
    Keeps.ite (fun _ => clearVstart_memOk) fun _ => usePrepared_memOk.bind fun _ =>
    loadRun_memOk (fun _ => Keeps.bind (Keeps.mapM' _ fun _ => streamRead_memOk) fun _ => h _ _) fun _ => loadAdvance_memOk

theorem laneVld_memOk {f : VLdForm} {l : Lane} : Keeps State.MemOk (laneVld f l) :=
  needStream_memOk.bind fun _ => needVtypeEntry_memOk.bind fun _ => streamFmt_memOk.bind fun _ => (Keeps.needU _ _).bind fun _ => streamLoad_memOk fun _ _ =>
    moveCode_memOk.bind fun _ => Keeps.pure _

theorem laneVldb_memOk {f : VLdbForm} {l : Lane} : Keeps State.MemOk (laneVldb f l) :=
  needStream_memOk.bind fun _ => needVtypeEntry_memOk.bind fun _ => streamFmt_memOk.bind fun _ => (Keeps.needU _ _).bind fun _ => streamLoad_memOk fun _ _ =>
    moveCode_memOk.bind fun _ => Keeps.pure _

theorem laneVldseg_memOk {f : VSegForm} {l : Lane} : Keeps State.MemOk (laneVldseg f l) :=
  needStream_memOk.bind fun _ => needVtypeEntry_memOk.bind fun _ => (Keeps.needU _ _).bind fun _ => streamLoad_memOk fun _ _ => Keeps.pure _

theorem streamStore_memOk {l : Lane} {q : Fin 16} {put : Nat → Nat → M Unit} (h : ∀ a a1, Keeps State.MemOk (put a a1)) : Keeps State.MemOk (streamStore l q put) :=
  getQ_memOk.bind fun _ => activeMask_memOk.bind fun _ => Keeps.ite (fun _ => clearVstart_memOk) fun _ => usePrepared_memOk.bind fun _ =>
    storeRun_memOk (fun _ => h _ _) movePos_memOk

theorem putPacked_memOk {ps : List (Loc × Nat)} {bit w c : Nat} : Keeps State.MemOk (putPacked ps bit w c) := Keeps.forM' _ fun _ => locWrite_memOk

theorem laneVst_memOk {f : VStForm} {l : Lane} : Keeps State.MemOk (laneVst f l) :=
  needStream_memOk.bind fun _ => needVtypeEntry_memOk.bind fun _ => streamFmt_memOk.bind fun _ => decodeSource_memOk.bind fun _ => getMe_memOk.bind fun _ =>
    streamStore_memOk fun _ _ => Keeps.ite (fun _ => Keeps.bind (Keeps.mapM' _ fun _ => elemLoc_memOk.bind fun _ => laneRead_memOk.bind fun _ =>
    Keeps.pure _) fun _ => convCode_memOk.bind fun _ => putPacked_memOk) fun _ => elemLoc_memOk.bind fun _ => convCode_memOk.bind fun _ => locWrite_memOk

theorem laneVstseg_memOk {f : VStSegForm} {l : Lane} : Keeps State.MemOk (laneVstseg f l) :=
  needStream_memOk.bind fun _ => needVtypeEntry_memOk.bind fun _ => (Keeps.needU _ _).bind fun _ => Keeps.bind (Keeps.forM' _ fun _ => decodeSource_memOk) fun _ =>
    getMe_memOk.bind fun _ => streamStore_memOk fun _ _ => Keeps.bind (Keeps.mapM' _ fun _ => elemLoc_memOk) fun _ => Keeps.forM' _ fun _ => locWrite_memOk

end Sys2Proof.Machine
end

section
/-! PROOF. Every step keeps the canonical form of every byte memory (O60): the matrix unit, the vector state, CSRs and synchronization. -/

namespace Sys2Proof.Machine

variable {s : State}

theorem modSlot_memOk {core : Nat} {n : Fin 32} {f : Slot → Slot} : Keeps State.MemOk (modSlot core n f) := Keeps.modify fun _ h => h.modCore fun _ h1 => h1

theorem healSlot_memOk {core : Nat} {n : Fin 32} {off len : Nat} : Keeps State.MemOk (healSlot core n off len) :=
  Keeps.modify fun _ h => State.MemOk.ite h (h.modCore fun _ h1 => h1)

theorem laneMclaim_memOk {f : MClaimForm} {x : Lane} : Keeps State.MemOk (laneMclaim f x) :=
  Keeps.get.bind fun _ => (Keeps.waitUnless _).bind fun _ => (Keeps.needU _ _).bind fun _ => Keeps.forM' _ fun _ => modSlot_memOk

theorem headPlace_memOk : Keeps State.MemOk headPlace := getMe_memOk.bind fun _ => Keeps.pure _

theorem laneMrel_memOk {f : MRelForm} {x : Lane} : Keeps State.MemOk (laneMrel f x) :=
  Keeps.get.bind fun _ => (Keeps.needU _ _).bind fun _ => (Keeps.waitUnless _).bind fun _ => headPlace_memOk.bind fun _ => Keeps.ite (fun _ => modMe_memOk) fun _ =>
    modCore_memOk fun _ h1 => Core.MemOk.freeThese h1

theorem needFillable_memOk {n : Fin 32} : Keeps State.MemOk (needFillable n) :=
  Keeps.get.bind fun _ => (Keeps.waitUnless _).bind fun _ => (Keeps.needU _ _).bind fun _ => headPlace_memOk.bind fun _ => (Keeps.waitUnless _).bind fun _ =>
    (Keeps.needU _ _).bind fun _ => Keeps.pure _

theorem needReadStream_memOk {q : Fin 16} : Keeps State.MemOk (needReadStream q) :=
  getQ_memOk.bind fun _ => (Keeps.needU _ _).bind fun _ => (Keeps.needU _ _).bind fun _ => Keeps.pure _

theorem fillCode1_memOk {l : Lane} {r : QReg} {w p : Nat} : Keeps State.MemOk (fillCode1 l r w p) :=
  Keeps.ite (fun _ => Keeps.bind (Keeps.mapM' _ fun _ => elemLoc_memOk.bind fun _ => laneRead_memOk) fun _ => Keeps.pure _) fun _ => elemLoc_memOk.bind fun _ =>
    laneRead_memOk

theorem fillCodes_memOk {l : Lane} {r : QReg} {w p n : Nat} : Keeps State.MemOk (fillCodes l r w p n) := Keeps.mapM' _ fun _ => fillCode1_memOk
theorem setMrows_memOk {n : Nat} : Keeps State.MemOk (setMrows n) := modMe_memOk

theorem laneMld_memOk {f : MLdForm} {l : Lane} : Keeps State.MemOk (laneMld f l) := by
  unfold laneMld
  refine needFillable_memOk.bind fun _ => needReadStream_memOk.bind fun _ => needEntry_memOk.bind fun _ => ?_
  extract_lets _ _ _ _
  refine (Keeps.needU _ _).bind fun _ => (Keeps.needU _ _).bind fun _ => usePrepared_memOk.bind fun _ =>
    Keeps.bind (tryElems_memOk fun _ => fillCodes_memOk) fun _ => ?_
  split
  · exact Keeps.throw _
  · extract_lets _ _ jp
    have hjp : ∀ x, Keeps State.MemOk (jp x) := fun _ => setMrows_memOk.bind fun _ => putQ_memOk
    exact Keeps.get.bind fun _ => modSlot_memOk.bind fun _ => healSlot_memOk.bind fun _ =>
      Keeps.ite (fun _ => Keeps.bind (Keeps.modify fun _ h1 => h1.settleFills) hjp) fun _ => hjp ()

theorem laneMlds_memOk {f : MLdsForm} {l : Lane} : Keeps State.MemOk (laneMlds f l) := by
  unfold laneMlds
  refine needFillable_memOk.bind fun _ => needReadStream_memOk.bind fun _ => needEntry_memOk.bind fun _ => (Keeps.needU _ _).bind fun _ =>
    usePrepared_memOk.bind fun _ => getCore_memOk.bind fun _ => ?_
  extract_lets _ _ jp
  have hjp : ∀ x, Keeps State.MemOk (jp x) := fun _ => setMrows_memOk.bind fun _ => putQ_memOk
  exact fillCodes_memOk.bind fun _ => Keeps.get.bind fun _ => modSlot_memOk.bind fun _ => healSlot_memOk.bind fun _ =>
    Keeps.ite (fun _ => modSlot_memOk.bind fun _ => healSlot_memOk.bind hjp) fun _ => hjp ()

theorem tileBase_memOk {c : CtxId} {acc : Fin 16} : Keeps State.MemOk (tileBase c acc) := Keeps.get.bind fun _ => (Keeps.needN _ _ _).bind fun _ => Keeps.pure _
theorem tileRead_memOk {core off : Nat} : Keeps State.MemOk (tileRead core off) := Keeps.get.bind fun _ => Keeps.ite (fun _ => Keeps.throw _) fun _ => Keeps.pure _

theorem tileWrite_memOk {core off : Nat} {ws : List Nat} (hws : ws.length = 4096) : Keeps State.MemOk (tileWrite core off ws) :=
  Keeps.modify fun _ h => h.modCore fun _ hk => hk.of_pool (tilePut_wf hk.1 off hws) rfl

theorem setKind_memOk {c : CtxId} {acc : Fin 16} {plane : Bool} {k : TileKind} : Keeps State.MemOk (setKind c acc plane k) := Keeps.modify fun _ h => h.modCtx

theorem kindRead_memOk {c : CtxId} {acc : Fin 16} {plane : Bool} {off : Nat} : Keeps State.MemOk (kindRead c acc plane off) :=
  Keeps.get.bind fun _ => Keeps.ite (fun _ => Keeps.pure _) fun _ => tileRead_memOk

theorem arrayTake_memOk {c : CtxId} {e : Option QEntry} {late : Bool} : Keeps State.MemOk (arrayTake c e late) := by
  unfold arrayTake
  refine Keeps.modify ?_
  intro s h
  refine h.modCore ?_
  intro k h1
  extract_lets _ _
  split <;> exact h1

theorem arrayTrap_memOk {c : CtxId} : Keeps State.MemOk (arrayTrap c) := by
  unfold arrayTrap
  refine Keeps.modify ?_
  intro s h
  refine h.modCore ?_
  intro k h1
  extract_lets _ _
  split <;> exact h1

theorem arrayRun_memOk {α : Type} {check : M α} {effect : α → M Unit} (h : Keeps State.MemOk check) (h2 : ∀ a, Keeps State.MemOk (effect a)) :
    Keeps State.MemOk (arrayRun check effect) := by
  unfold arrayRun
  refine Keeps.get.bind fun _ => ?_
  extract_lets _
  refine (Keeps.attempt (h.bind h2)).bind fun _ => ?_
  split
  · exact arrayTake_memOk
  · exact Keeps.throw _
  · exact arrayTrap_memOk.bind fun _ => Keeps.throw _

theorem zeroEffect_memOk {c : CtxId} {acc : Fin 16} {off : Nat} : Keeps State.MemOk (zeroEffect c acc off) :=
  (tileWrite_memOk zeroTile_length).bind fun _ => (tileWrite_memOk zeroTile_length).bind fun _ => setKind_memOk.bind fun _ => setKind_memOk

theorem needSlots_memOk {c : CtxId} {p : Place} {a b : Fin 32} : Keeps State.MemOk (needSlots c p a b) :=
  Keeps.get.bind fun _ => Keeps.bind (Keeps.forM' _ fun _ => Keeps.needN _ _ _) fun _ => Keeps.bind (Keeps.forM' _ fun _ => Keeps.needN _ _ _) fun _ =>
    Keeps.waitUnless _

theorem needSound_memOk {c : CtxId} {ns : List (Fin 32)} {data side : Bool} : Keeps State.MemOk (needSound c ns data side) :=
  Keeps.get.bind fun _ => Keeps.ite (fun _ => Keeps.throw _) fun _ => Keeps.pure ()

theorem awaitRels_memOk {ns : List (Fin 32)} : Keeps State.MemOk (awaitRels ns) := Keeps.get.bind fun _ => Keeps.waitUnless _

theorem productPlan_memOk {fn : MxFn} {c : CtxId} {pl : Place} {ents : Vector Word 8} {acc : Fin 16} {a b : Fin 32} {plane : Bool} :
    Keeps State.MemOk (productPlan fn c pl ents acc a b plane) := by
  unfold productPlan
  refine tileBase_memOk.bind fun _ => needSlots_memOk.bind fun _ => Keeps.get_bind fun s h => ?_
  extract_lets k _ _ _ _ _ _ _ _ _ jp jp1 jp2
  have hk : k.MemOk := h.core
  have hjp : ∀ x, Keeps State.MemOk (jp x) := fun _ => needSound_memOk.bind fun _ => needSound_memOk.bind fun _ =>
    Keeps.bind (Keeps.forM' _ fun _ => needSound_memOk) fun _ => Keeps.pure _
  have hjp1 : ∀ x, Keeps State.MemOk (jp1 x) := fun _ => (Keeps.needU _ _).bind fun _ =>
    Keeps.bind (Keeps.forM' _ fun _ => Keeps.ite (fun _ => (Keeps.needN _ _ _).bind fun _ => (Keeps.needN _ _ _).bind fun _ => Keeps.needN _ _ _) fun _ =>
    Keeps.pure ()) fun _ => Keeps.ite (fun _ => Keeps.bind (Keeps.forM' _ fun _ => Keeps.needN _ _ _) hjp) fun _ => hjp ()
  have hjp2 : ∀ x, Keeps State.MemOk (jp2 x) := fun _ => Keeps.ite (fun _ => (Keeps.waitUnless _).bind fun _ =>
    Keeps.bind (Keeps.forM' _ fun _ => Keeps.needN _ _ _) fun _ => (Keeps.needN _ _ _).bind hjp1) fun _ => hjp1 ()
  exact Keeps.bind (Keeps.forM' _ fun _ => Keeps.needN _ _ _) fun _ => Keeps.bind (Keeps.forM' _ fun _ => Keeps.needN _ _ _) fun _ =>
    (Keeps.needN _ _ _).bind fun _ => Keeps.ite (fun _ => (Keeps.needN _ _ _).bind hjp2) fun _ => hjp2 ()

theorem productEffect_memOk {fn : MxFn} {c : CtxId} {acc : Fin 16} {a b : Fin 32} {plane : Bool} {p : MxPlan} :
    Keeps State.MemOk (productEffect fn c acc a b plane p) :=
  kindRead_memOk.bind fun _ => Keeps.get.bind fun _ => (tileWrite_memOk (by simp)).bind fun _ => setKind_memOk

theorem productRun_memOk {fn : MxFn} {f : MmaForm} {l : Lane} : Keeps State.MemOk (productRun fn f l) :=
  Keeps.get.bind fun _ => headPlace_memOk.bind fun _ => arrayRun_memOk (awaitRels_memOk.bind fun _ => productPlan_memOk) fun _ => productEffect_memOk

theorem promoteCheck_memOk {c : CtxId} {pl : Place} {acc : Fin 16} {a b : Fin 32} : Keeps State.MemOk (promoteCheck c pl acc a b) :=
  tileBase_memOk.bind fun _ => needSlots_memOk.bind fun _ => Keeps.get.bind fun _ => Keeps.bind (Keeps.forM' _ fun _ => Keeps.needN _ _ _) fun _ =>
    Keeps.bind (Keeps.forM' _ fun _ => Keeps.needN _ _ _) fun _ => (Keeps.needU _ _).bind fun _ => needSound_memOk.bind fun _ => Keeps.pure _

theorem promoteEffect_memOk {c : CtxId} {acc : Fin 16} {a b : Fin 32} {off : Nat} : Keeps State.MemOk (promoteEffect c acc a b off) :=
  kindRead_memOk.bind fun _ => kindRead_memOk.bind fun _ => Keeps.get.bind fun _ => (tileWrite_memOk (by simp)).bind fun _ =>
    (tileWrite_memOk zeroTile_length).bind fun _ => setKind_memOk.bind fun _ => setKind_memOk

theorem laneMprom_memOk {f : MPromForm} {x : Lane} : Keeps State.MemOk (laneMprom f x) :=
  Keeps.get.bind fun _ => headPlace_memOk.bind fun _ => arrayRun_memOk (awaitRels_memOk.bind fun _ => promoteCheck_memOk) fun _ => promoteEffect_memOk

theorem needBlock_memOk {l : Lane} {blk : Fin 32} : Keeps State.MemOk (needBlock l blk) :=
  needVtypeEntry_memOk.bind fun _ => (Keeps.needU _ _).bind fun _ => needKind_memOk.bind fun _ => Keeps.pure _

theorem laneMaccrd_memOk {f : MAccRdForm} {l : Lane} : Keeps State.MemOk (laneMaccrd f l) :=
  needBlock_memOk.bind fun _ => Keeps.get.bind fun _ => tileBase_memOk.bind fun _ => decodeDest_memOk.bind fun _ => kindRead_memOk.bind fun _ => modMe_memOk

theorem laneMaccwr_memOk {f : MAccWrForm} {l : Lane} : Keeps State.MemOk (laneMaccwr f l) :=
  Keeps.get.bind fun _ => arrayRun_memOk (needBlock_memOk.bind fun _ => tileBase_memOk.bind fun _ => decodeSource_memOk.bind fun _ => Keeps.get.bind fun _ =>
    (Keeps.needU _ _).bind fun _ => kindRead_memOk.bind fun _ => Keeps.pure _) fun _ => getMe_memOk.bind fun _ => (tileWrite_memOk (by simp)).bind fun _ =>
    setKind_memOk.bind fun _ => modMe_memOk

theorem awaitLanes_memOk : Keeps State.MemOk awaitLanes := Keeps.get.bind fun _ => Keeps.waitUnless _
theorem Core.MemOk.dropSlabs {lc : Nat} {p : Nat → Bool} {c : Core} (h : c.MemOk) : (dropSlabs lc p c).MemOk := h

theorem applyDecl_memOk : Keeps State.MemOk applyDecl :=
  getMe_memOk.bind fun _ => Keeps.ite (fun _ => awaitLanes_memOk.bind fun _ => modMe_memOk.bind fun _ => Keeps.modify fun _ h => h.modMyCore fun _ h1 =>
    Core.MemOk.dropSlabs h1) fun _ => Keeps.pure ()

theorem needVtype_memOk : Keeps State.MemOk needVtype := getMe_memOk.bind fun _ => Keeps.needN _ _ _

theorem setLive_memOk {v : Word} : Keeps State.MemOk (setLive v) :=
  awaitLanes_memOk.bind fun _ => getMe_memOk.bind fun _ => modMe_memOk.bind fun _ => Keeps.modify fun _ h => h.modMyCore fun _ h1 => Core.MemOk.dropSlabs h1

theorem setVtype_memOk {v : Word} : Keeps State.MemOk (setVtype v) := awaitTrim_memOk.bind fun _ => modMe_memOk
theorem setVdecl_memOk {v : Word} : Keeps State.MemOk (setVdecl v) := Keeps.ite (fun _ => Keeps.pure ()) fun _ => modMe_memOk

theorem execVsetl_memOk {f : A2} (h : s.MemOk) : OutOk (execVsetl f s) :=
  scalar_memOk (awaitTrim_memOk.bind fun _ => readS_memOk.bind fun _ => awaitS_memOk.bind fun _ => needVtype_memOk.bind fun _ => applyDecl_memOk.bind fun _ =>
    getMe_memOk.bind fun _ => modMe_memOk.bind fun _ => writeS_memOk) h

theorem execVshape_memOk {f : A3} (h : s.MemOk) : OutOk (execVshape f s) :=
  scalar_memOk (awaitTrim_memOk.bind fun _ => readS_memOk.bind fun _ => readS_memOk.bind fun _ => awaitS_memOk.bind fun _ => needVtype_memOk.bind fun _ =>
    applyDecl_memOk.bind fun _ => getMe_memOk.bind fun _ => modMe_memOk.bind fun _ => writeS_memOk) h

theorem execVtype_memOk {f : A2} (h : s.MemOk) : OutOk (execVtype f s) :=
  scalar_memOk (readS_memOk.bind fun _ => awaitS_memOk.bind fun _ => getMe_memOk.bind fun _ => setVtype_memOk.bind fun _ => writeS_memOk) h

theorem execVsetm_memOk {f : A2} (h : s.MemOk) : OutOk (execVsetm f s) :=
  scalar_memOk (readS_memOk.bind fun _ => awaitS_memOk.bind fun _ => getMe_memOk.bind fun _ => modMe_memOk.bind fun _ => writeS_memOk) h

theorem execVsets_memOk {f : A2} (h : s.MemOk) : OutOk (execVsets f s) :=
  scalar_memOk (readS_memOk.bind fun _ => awaitS_memOk.bind fun _ => getMe_memOk.bind fun _ => modMe_memOk.bind fun _ => writeS_memOk) h

theorem execVdecl_memOk {f : A2} (h : s.MemOk) : OutOk (execVdecl f s) :=
  scalar_memOk (readS_memOk.bind fun _ => awaitS_memOk.bind fun _ => getMe_memOk.bind fun _ => setVdecl_memOk.bind fun _ => writeS_memOk) h

theorem execVlive_memOk {f : A2} (h : s.MemOk) : OutOk (execVlive f s) :=
  scalar_memOk (readS_memOk.bind fun _ => awaitS_memOk.bind fun _ => awaitLanes_memOk.bind fun _ => getMe_memOk.bind fun _ => setLive_memOk.bind fun _ =>
    writeS_memOk) h

theorem csrPut_memOk {n : Nat} {v : Word} : Keeps State.MemOk (csrPut n v) := by
  unfold csrPut
  extract_lets vc fc tr
  have hvc : ∀ f, Keeps State.MemOk (vc f) := fun _ => modMe_memOk
  have hfc : ∀ f, Keeps State.MemOk (fc f) := fun _ => modMe_memOk
  have htr : ∀ f, Keeps State.MemOk (tr f) := fun _ => modMe_memOk
  clear_value vc fc tr
  refine Keeps.ite (fun _ => setVtype_memOk) fun _ => Keeps.ite (fun _ => hvc _) fun _ => Keeps.ite (fun _ => hvc _) fun _ =>
    Keeps.ite (fun _ => hvc _) fun _ => Keeps.ite (fun _ => hvc _) fun _ => Keeps.ite (fun _ => (Keeps.needU _ _).bind fun _ => hvc _) fun _ =>
    Keeps.ite (fun _ => awaitLanes_memOk.bind fun _ => hvc _) fun _ => Keeps.ite (fun _ => setLive_memOk) fun _ => Keeps.ite (fun _ => setVdecl_memOk) fun _ =>
    Keeps.ite (fun _ => hfc _) fun _ => Keeps.ite (fun _ => hfc _) fun _ => Keeps.ite (fun _ => hfc _) fun _ =>
    Keeps.ite (fun _ => awaitLanes_memOk.bind fun _ => modMe_memOk) fun _ => Keeps.ite (fun _ => htr _) fun _ => Keeps.ite (fun _ => htr _) fun _ =>
    Keeps.ite (fun _ => htr _) fun _ => Keeps.ite (fun _ => htr _) fun _ => Keeps.ite (fun _ => htr _) fun _ => Keeps.ite (fun _ => htr _) fun _ =>
    Keeps.ite (fun _ => htr _) fun _ => modMe_memOk

theorem csrClear_memOk {n : Nat} {v : Word} : Keeps State.MemOk (csrClear n v) := Keeps.ite (fun _ => modMe_memOk) fun _ => modMe_memOk

theorem csrCheck_memOk {n : Nat} {write : Bool} {i : Instr} : Keeps State.MemOk (csrCheck n write i) := by
  unfold csrCheck
  refine getMe_memOk.bind fun _ => ?_
  extract_lets _
  split
  · exact Keeps.trapN _ _
  · exact (Keeps.needN _ _ _).bind fun _ => Keeps.pure _

theorem csrOp_memOk {f : CForm} {op : CsrOp} {i : Instr} : Keeps State.MemOk (csrOp f op i) := by
  unfold csrOp
  extract_lets _
  refine csrCheck_memOk.bind fun _ => readS_memOk.bind fun _ => awaitS_memOk.bind fun _ => ?_
  extract_lets jp
  have hjp : ∀ x, Keeps State.MemOk (jp x) := by
    intro x
    simp only [jp]
    refine Keeps.get.bind fun _ => ?_
    split
    · exact writeS_memOk
    · exact writeS_memOk
    · exact csrClear_memOk.bind fun _ => writeS_memOk
    all_goals exact csrPut_memOk.bind fun _ => writeS_memOk
  exact Keeps.ite (fun _ => awaitLanes_memOk.bind hjp) fun _ => hjp ()

theorem execCsrr_memOk {f : CRForm} (h : s.MemOk) : OutOk (execCsrr f s) := by
  unfold execCsrr
  refine scalar_memOk ?_ h
  extract_lets _ jp
  have hjp : ∀ x, Keeps State.MemOk (jp x) := fun _ => Keeps.get.bind fun _ => writeS_memOk
  exact csrCheck_memOk.bind fun _ => awaitS_memOk.bind fun _ => Keeps.ite (fun _ => awaitLanes_memOk.bind hjp) fun _ => hjp ()

theorem State.MemOk.flushAll (h : s.MemOk) : (flushAll s).MemOk := h.flushLines

theorem awaitQual_memOk {v e : Bool} : Keeps State.MemOk (awaitQual v e) := by
  unfold awaitQual
  refine drainAll_memOk.bind fun _ => ?_
  extract_lets jp
  have hjp : ∀ x, Keeps State.MemOk (jp x) := fun _ => Keeps.get.bind fun _ => (Keeps.waitUnless _).bind fun _ =>
    Keeps.ite (fun _ => Keeps.modify fun _ h1 => h1.flushAll) fun _ => Keeps.pure ()
  exact Keeps.ite (fun _ => awaitLanes_memOk.bind hjp) fun _ => hjp ()

theorem release_memOk : Keeps State.MemOk release := drainAll_memOk.bind fun _ => Keeps.modify fun _ h => h.flushAll

theorem needHandle_memOk {hdr : Word} : Keeps State.MemOk (needHandle hdr) := by
  unfold needHandle
  refine Keeps.get.bind fun _ => ?_
  split
  · exact Keeps.pure _
  · exact Keeps.trapU _

theorem execTlwait_memOk {f : AB} (h : s.MemOk) : OutOk (execTlwait f s) :=
  scalar_memOk (readS_memOk.bind fun _ => readS_memOk.bind fun _ => needHandle_memOk.bind fun _ => Keeps.get.bind fun _ => Keeps.waitUnless _) h

theorem execTlrd_memOk {f : A2} (h : s.MemOk) : OutOk (execTlrd f s) :=
  scalar_memOk (readS_memOk.bind fun _ => awaitS_memOk.bind fun _ => needHandle_memOk.bind fun _ => Keeps.get.bind fun _ => writeS_memOk) h

theorem execTlsig_memOk {f : A2} (h : s.MemOk) : OutOk (execTlsig f s) := by
  unfold execTlsig
  refine scalar_memOk ?_ h
  refine readS_memOk.bind fun _ => awaitS_memOk.bind fun _ => needHandle_memOk.bind fun _ => Keeps.get.bind fun _ => (Keeps.waitUnless _).bind fun _ =>
    release_memOk.bind fun _ => Keeps.get_bind fun s2 h2 => ?_
  extract_lets _ _ _
  split
  · exact (Keeps.waitUnless _).bind fun _ => (Keeps.set h2.setTug).bind fun _ => writeS_memOk
  · exact Keeps.bind (Keeps.set (h2.modMyCore fun _ h3 => h3)) fun _ => writeS_memOk
  · exact (Keeps.waitUnless _).bind fun _ => (Keeps.set h2.setWalk).bind fun _ => writeS_memOk

theorem execTagwany_memOk {f : A2} (h : s.MemOk) : OutOk (execTagwany f s) :=
  scalar_memOk (readS_memOk.bind fun _ => awaitS_memOk.bind fun _ => getMe_memOk.bind fun _ => (Keeps.waitUnless _).bind fun _ => modMe_memOk.bind fun _ =>
    writeS_memOk) h

theorem execTagwall_memOk {f : A2} (h : s.MemOk) : OutOk (execTagwall f s) :=
  scalar_memOk (readS_memOk.bind fun _ => awaitS_memOk.bind fun _ => getMe_memOk.bind fun _ => (Keeps.waitUnless _).bind fun _ => modMe_memOk.bind fun _ =>
    writeS_memOk) h

theorem execTagff_memOk {f : A2} (h : s.MemOk) : OutOk (execTagff f s) :=
  scalar_memOk (readS_memOk.bind fun _ => awaitS_memOk.bind fun _ => getMe_memOk.bind fun _ => modMe_memOk.bind fun _ => writeS_memOk) h

theorem getRing_memOk {d : Fin 8} : Keeps State.MemOk (getRing d) := getCore_memOk.bind fun _ => Keeps.pure _
theorem modRingM_memOk {d : Fin 8} {f : Ring → Ring} : Keeps State.MemOk (modRingM d f) := Keeps.modify fun _ h => h.modRing

theorem execDrinit_memOk {f : DrInitForm} (h : s.MemOk) : OutOk (execDrinit f s) :=
  scalar_memOk (readS_memOk.bind fun _ => readS_memOk.bind fun _ => getCore_memOk.bind fun _ => getRing_memOk.bind fun _ => (Keeps.needN _ _ _).bind fun _ =>
    Keeps.get.bind fun _ => modRingM_memOk) h

theorem execDrawait_memOk {f : DrWaitForm} (h : s.MemOk) : OutOk (execDrawait f s) :=
  scalar_memOk (awaitS_memOk.bind fun _ => getRing_memOk.bind fun _ => (Keeps.needN _ _ _).bind fun _ => (Keeps.waitUnless _).bind fun _ =>
    (Keeps.needN _ _ _).bind fun _ => writeS_memOk) h

theorem execBind_memOk {f : A3} (h : s.MemOk) : OutOk (execBind f s) :=
  scalar_memOk (readS_memOk.bind fun _ => readS_memOk.bind fun _ => awaitS_memOk.bind fun _ => (Keeps.need _ _ _).bind fun _ => (Keeps.need _ _ _).bind fun _ =>
    getMe_memOk.bind fun _ => (Keeps.needU _ _).bind fun _ => modMe_memOk.bind fun _ => writeS_memOk) h

theorem execUnbind_memOk {f : A1} (h : s.MemOk) : OutOk (execUnbind f s) :=
  scalar_memOk (readS_memOk.bind fun _ => Keeps.get_bind fun _ h1 => (Keeps.set h1.flushLines).bind fun _ => modMe_memOk) h

theorem execAcq_memOk {f : QualA} (h : s.MemOk) : OutOk (execAcq f s) := by
  unfold execAcq
  refine scalar_memOk (readS_memOk.bind fun _ => scalarLoc_memOk.bind fun _ => ?_) h
  extract_lets key
  refine drainFor_memOk.bind fun _ => scalarRead_memOk.bind fun _ => Keeps.get_bind fun _ h1 => ?_
  extract_lets take
  have htake : ∀ r, Keeps State.MemOk (take r) := by
    intro r
    simp only [take]
    refine Keeps.get.bind fun _ => (Keeps.waitUnless _).bind fun _ => locPut_memOk.bind fun _ => ?_
    refine Keeps.bind (Keeps.modify fun _ h => h) fun _ => Keeps.bind (Keeps.modify fun _ h => h.flushLines) fun _ => ?_
    exact Keeps.ite (fun _ => Keeps.bind (Keeps.modify fun _ h => h.flushAll) fun _ => modMe_memOk) fun _ => modMe_memOk
  exact Keeps.ite (fun _ => Keeps.bind (Keeps.set h1) htake) fun _ => htake ()

theorem execRel_memOk {f : QualA} (h : s.MemOk) : OutOk (execRel f s) :=
  scalar_memOk (readS_memOk.bind fun _ => scalarLoc_memOk.bind fun _ => drainFor_memOk.bind fun _ => strongPrep_memOk.bind fun _ => locGet_memOk.bind fun _ =>
    Keeps.get.bind fun _ => (Keeps.need _ _ _).bind fun _ => awaitQual_memOk.bind fun _ => Keeps.bind (Keeps.modify fun _ h2 => h2.flushLines) fun _ =>
    awaitAcks_memOk.bind fun _ => locWrite_memOk.bind fun _ => modMe_memOk) h

theorem execFence_memOk {f : QualForm} (h : s.MemOk) : OutOk (execFence f s) := scalar_memOk awaitQual_memOk h
theorem modBarrier_memOk {b : Fin 16} {f : Barrier → Barrier} : Keeps State.MemOk (modBarrier b f) := Keeps.modify fun _ h => h.modCluster
theorem getBarrier_memOk {b : Fin 16} : Keeps State.MemOk (getBarrier b) := Keeps.get.bind fun _ => Keeps.pure _

theorem arriveAt_memOk {bar : Fin 16} {n : Word} : Keeps State.MemOk (arriveAt bar n) :=
  getBarrier_memOk.bind fun _ => (Keeps.needU _ _).bind fun _ => release_memOk.bind fun _ => modBarrier_memOk.bind fun _ => Keeps.pure _

theorem execBara_memOk {f : BaraForm} (h : s.MemOk) : OutOk (execBara f s) :=
  scalar_memOk (readS_memOk.bind fun _ => awaitS_memOk.bind fun _ => awaitLanes_memOk.bind fun _ => arriveAt_memOk.bind fun _ => writeS_memOk) h

theorem execBarw_memOk {f : BarwForm} (h : s.MemOk) : OutOk (execBarw f s) := by
  unfold execBarw
  refine scalar_memOk ?_ h
  refine getMe_memOk.bind fun _ => ?_
  extract_lets jp
  have hjp : ∀ x, Keeps State.MemOk (jp x) := fun _ => getBarrier_memOk.bind fun _ => (Keeps.waitUnless _).bind fun _ => modMe_memOk
  split
  · exact (Keeps.pure _).bind hjp
  · exact readS_memOk.bind fun _ => awaitLanes_memOk.bind fun _ => arriveAt_memOk.bind fun _ => modMe_memOk.bind fun _ => (Keeps.pure _).bind hjp

end Sys2Proof.Machine
end

section
/-! PROOF. Every step keeps the canonical form of every byte memory (O60): permutation, encoding, blocks and conversion. -/

namespace Sys2Proof.Machine

variable {s : State}

theorem permKeep_memOk {keeps : Bool} {vd : Fin 32} {src : Option (Fin 32 × Bool)} {image : Lane → Nat → Nat → View → View → List Nat} {l : Lane} :
    Keeps State.MemOk (permKeep keeps vd src image l) :=
  needVtypeEntry_memOk.bind fun _ => activeMask_memOk.bind fun _ => Keeps.bind (Keeps.forM' _ fun _ => decodeSource_memOk) fun _ => decodeDest_memOk.bind fun _ =>
    getMe_memOk.bind fun _ => modMe_memOk

theorem permRun_memOk {a : Fin 32} {a1 : Option (Fin 32 × Bool)} {a2 : Lane → Nat → Nat → View → View → List Nat} {a3 : Lane} :
    Keeps State.MemOk (permRun a a1 a2 a3) :=
  permKeep_memOk

theorem laneVslup_memOk {f : VS} {l : Lane} : Keeps State.MemOk (laneVslup f l) := permKeep_memOk
theorem laneVsldn_memOk {f : VS} {l : Lane} : Keeps State.MemOk (laneVsldn f l) := permRun_memOk
theorem laneVcomp_memOk {f : VU} {l : Lane} : Keeps State.MemOk (laneVcomp f l) := permRun_memOk
theorem laneVexpd_memOk {f : VU} {l : Lane} : Keeps State.MemOk (laneVexpd f l) := permRun_memOk
theorem laneVbpfx_memOk {f : VU} {l : Lane} : Keeps State.MemOk (laneVbpfx f l) := permRun_memOk

theorem laneViota_memOk {f : VD} {l : Lane} : Keeps State.MemOk (laneViota f l) :=
  needVtypeEntry_memOk.bind fun _ => activeMask_memOk.bind fun _ => Keeps.ite (fun _ => decodeDest_memOk.bind fun _ => modMe_memOk) fun _ => permRun_memOk

theorem reduceRun_memOk {f : VS} {float : Bool} {g : Fmt → Nat → View → Word × Nat × Bool} {l : Lane} : Keeps State.MemOk (reduceRun f float g l) :=
  needVtypeEntry_memOk.bind fun _ => needKind_memOk.bind fun _ => activeMask_memOk.bind fun _ => decodeSource_memOk.bind fun _ => getMe_memOk.bind fun _ =>
    modMe_memOk.bind fun _ => landS_memOk

theorem laneVreds_memOk {f : VS} {l : Lane} : Keeps State.MemOk (laneVreds f l) := reduceRun_memOk
theorem extremeRun_memOk {f : VS} {larger : Bool} {l : Lane} : Keeps State.MemOk (extremeRun f larger l) := reduceRun_memOk
theorem laneVfreds_memOk {f : VS} {l : Lane} : Keeps State.MemOk (laneVfreds f l) := reduceRun_memOk
theorem laneVmvs_memOk {f : VS} {l : Lane} : Keeps State.MemOk (laneVmvs f l) := reduceRun_memOk

theorem encRun_memOk {f : VU} {int : Bool} {enc : Ctx → Lane → Fmt → List Nat → VReg} {l : Lane} : Keeps State.MemOk (encRun f int enc l) :=
  needVtypeEntry_memOk.bind fun _ => needKind_memOk.bind fun _ => activeMask_memOk.bind fun _ => decodeSource_memOk.bind fun _ => decodeDest_memOk.bind fun _ =>
    getMe_memOk.bind fun _ => modMe_memOk

theorem laneVencr_memOk {f : VU} {a : Lane} : Keeps State.MemOk (laneVencr f a) := encRun_memOk
theorem laneVencd_memOk {f : VU} {a : Lane} : Keeps State.MemOk (laneVencd f a) := encRun_memOk
theorem laneVenct_memOk {f : VU} {a : Lane} : Keeps State.MemOk (laneVenct f a) := encRun_memOk
theorem laneVdec_memOk {f : VU} {a : Lane} : Keeps State.MemOk (laneVdec f a) := encRun_memOk
theorem laneVrenc_memOk {f : VU} {a : Lane} : Keeps State.MemOk (laneVrenc f a) := encRun_memOk

theorem laneVencq_memOk {f : VV} {l : Lane} : Keeps State.MemOk (laneVencq f l) :=
  needVtypeEntry_memOk.bind fun _ => decodeSource_memOk.bind fun _ => decodeSource_memOk.bind fun _ => decodeDest_memOk.bind fun _ => getMe_memOk.bind fun _ =>
    (Keeps.needU _ _).bind fun _ => modMe_memOk

theorem laneVdictExtract_memOk {f : VU} {l : Lane} : Keeps State.MemOk (laneVdictExtract f l) :=
  needVtypeEntry_memOk.bind fun _ => decodeSource_memOk.bind fun _ => decodeDest_memOk.bind fun _ => getMe_memOk.bind fun _ => (Keeps.needU _ _).bind fun _ =>
    modMe_memOk

theorem laneVdictReplace_memOk {f : VV} {l : Lane} : Keeps State.MemOk (laneVdictReplace f l) :=
  needVtypeEntry_memOk.bind fun _ => decodeSource_memOk.bind fun _ => decodeSource_memOk.bind fun _ => decodeDest_memOk.bind fun _ => getMe_memOk.bind fun _ =>
    (Keeps.needU _ _).bind fun _ => modMe_memOk

theorem preciseExc_memOk {α : Type} {x : Exc} : Keeps State.MemOk (preciseExc x : M α) := clearVstart_memOk.bind fun _ => Keeps.throw _

theorem readWhole_memOk {l : Lane} {r : QReg} {enc : Bool} {blk va n : Nat} : Keeps State.MemOk (readWhole l r enc blk va n) := by
  unfold readWhole
  refine readSpan_memOk.bind fun _ => ?_
  split
  · exact preciseExc_memOk
  · exact Keeps.pure _

theorem walkBlocks_memOk {l : Lane} {r : QReg} {n n1 : Nat} : Keeps State.MemOk (walkBlocks l r n n1) := by
  induction n generalizing l r n1 with
  | zero =>
    rw [walkBlocks]
    exact Keeps.pure _
  | succ n ih =>
    rw [walkBlocks]
    refine readSpan_memOk.bind fun _ => ?_
    split
    · exact preciseExc_memOk
    · exact (Keeps.needU _ _).bind fun _ => ih

theorem blockVa_memOk {l : Lane} {r : QReg} : Keeps State.MemOk (blockVa l r) := by
  unfold blockVa
  split
  · exact Keeps.pure _
  · exact walkBlocks_memOk

theorem needIndex_memOk {r : QReg} : Keeps State.MemOk (needIndex r) := Keeps.ite (fun _ => preciseExc_memOk) fun _ => Keeps.pure ()

theorem blockEarly_memOk {l : Lane} {q : Fin 16} {g : Nat} : Keeps State.MemOk (blockEarly l q g) := by
  unfold blockEarly
  refine getQ_memOk.bind fun _ => ?_
  split
  · extract_lets _
    refine readEarly_memOk.bind fun _ => ?_
    split
    · exact putQ_memOk
    · exact readEarly_memOk.bind fun _ => readEarly_memOk.bind fun _ => putQ_memOk
  · exact Keeps.pure ()

theorem laneVlde_memOk {f : VLdForm} {l : Lane} : Keeps State.MemOk (laneVlde f l) := by
  unfold laneVlde
  refine needStream_memOk.bind fun _ => needVtypeEntry_memOk.bind fun _ => needIndex_memOk.bind fun _ => decodeDest_memOk.bind fun _ =>
    usePrepared_memOk.bind fun _ => ?_
  extract_lets _ _
  refine blockVa_memOk.bind fun _ => readWhole_memOk.bind fun _ => ?_
  extract_lets _
  refine (Keeps.needU _ _).bind fun _ => readWhole_memOk.bind fun _ => readSpan_memOk.bind fun _ => ?_
  extract_lets _ _ _
  refine (Keeps.needU _ _).bind fun _ => ?_
  split
  · exact preciseExc_memOk
  · exact Keeps.get.bind fun _ => modMe_memOk.bind fun _ => trimVl_memOk.bind fun _ => clearVstart_memOk.bind fun _ => putQ_memOk.bind fun _ =>
      Keeps.ite (fun _ => blockEarly_memOk) fun _ => Keeps.pure ()

theorem laneVste_memOk {f : VStForm} {l : Lane} : Keeps State.MemOk (laneVste f l) := by
  unfold laneVste
  refine needStream_memOk.bind fun _ => needVtypeEntry_memOk.bind fun _ => needIndex_memOk.bind fun _ => (Keeps.needU _ _).bind fun _ =>
    decodeSource_memOk.bind fun _ => ?_
  split
  · exact clearVstart_memOk
  · refine usePrepared_memOk.bind fun _ => getMe_memOk.bind fun _ => ?_
    extract_lets _
    refine blockVa_memOk.bind fun _ => writeSpan_memOk.bind fun _ => ?_
    split
    · exact setVstart_memOk.bind fun _ => Keeps.throw _
    · exact putQ_memOk.bind fun _ => clearVstart_memOk

theorem frameVa_memOk {l : Lane} {r : QReg} : Keeps State.MemOk (frameVa l r) := needIndex_memOk.bind fun _ => (Keeps.needU _ _).bind fun _ => Keeps.pure _
theorem nextFrame_memOk {q : Fin 16} {r : QReg} : Keeps State.MemOk (nextFrame q r) := putQ_memOk

theorem laneVspl_memOk {f : VStForm} {l : Lane} : Keeps State.MemOk (laneVspl f l) := by
  unfold laneVspl
  refine needStream_memOk.bind fun _ => needVtypeEntry_memOk.bind fun _ => frameVa_memOk.bind fun _ => decodeSource_memOk.bind fun _ =>
    usePrepared_memOk.bind fun _ => getMe_memOk.bind fun _ => ?_
  extract_lets _ _ _ _
  refine writeSpan_memOk.bind fun _ => ?_
  split
  · exact preciseExc_memOk
  · exact nextFrame_memOk.bind fun _ => clearVstart_memOk

theorem frameEarly_memOk {l : Lane} {q : Fin 16} {wid : Nat} : Keeps State.MemOk (frameEarly l q wid) := by
  unfold frameEarly
  refine getQ_memOk.bind fun _ => ?_
  split
  · extract_lets _
    refine readEarly_memOk.bind fun _ => ?_
    split
    · exact putQ_memOk
    · exact readEarly_memOk.bind fun _ => putQ_memOk
  · exact Keeps.pure ()

theorem laneVfil_memOk {f : VLdForm} {l : Lane} : Keeps State.MemOk (laneVfil f l) :=
  needStream_memOk.bind fun _ => needVtypeEntry_memOk.bind fun _ => frameVa_memOk.bind fun _ => decodeDest_memOk.bind fun _ => usePrepared_memOk.bind fun _ =>
    readWhole_memOk.bind fun _ => (Keeps.needU _ _).bind fun _ => readWhole_memOk.bind fun _ => (Keeps.needU _ _).bind fun _ => Keeps.get.bind fun _ =>
    modMe_memOk.bind fun _ => nextFrame_memOk.bind fun _ => clearVstart_memOk.bind fun _ => Keeps.ite (fun _ => frameEarly_memOk) fun _ => Keeps.pure ()

theorem laneVcvt_memOk {f : VCvtForm} {l : Lane} : Keeps State.MemOk (laneVcvt f l) :=
  needVtypeEntry_memOk.bind fun _ => needEntry_memOk.bind fun _ => needKind_memOk.bind fun _ => (Keeps.needU _ _).bind fun _ => elementWise_memOk

theorem laneVamax_memOk {f : VA1} {l : Lane} : Keeps State.MemOk (laneVamax f l) :=
  needVtypeEntry_memOk.bind fun _ => activeMask_memOk.bind fun _ => decodeSource_memOk.bind fun _ => getMe_memOk.bind fun _ => modMe_memOk

theorem needRatio_memOk {wide narrow : Fmt} : Keeps State.MemOk (needRatio wide narrow) := by
  unfold needRatio
  split
  · exact Keeps.pure _
  · exact Keeps.trapU _

theorem packInto_memOk {l : Lane} {mask sew n : Nat} {src : Nat → Nat} {conv : Nat → BitVec 32 → Coded} {l1 : List (Fin 32 × Nat)} :
    Keeps State.MemOk (packInto l mask sew n src conv l1) := by
  induction l1 generalizing l mask sew n src conv with
  | nil =>
    rw [packInto]
    exact Keeps.pure ()
  | cons a l' ih =>
    rw [packInto]
    exact getMe_memOk.bind fun _ => modMe_memOk.bind fun _ => ih

theorem laneVunpk_memOk {f : VPkForm} {l : Lane} : Keeps State.MemOk (laneVunpk f l) :=
  needVtypeEntry_memOk.bind fun _ => needEntry_memOk.bind fun _ => needRatio_memOk.bind fun _ => activeMask_memOk.bind fun _ => decodeSource_memOk.bind fun _ =>
    Keeps.bind (Keeps.forM' _ fun _ => decodeDest_memOk) fun _ => getMe_memOk.bind fun _ => packInto_memOk.bind fun _ => clearVstart_memOk

theorem laneVpack_memOk {f : VPkForm} {l : Lane} : Keeps State.MemOk (laneVpack f l) :=
  needVtypeEntry_memOk.bind fun _ => needEntry_memOk.bind fun _ => needRatio_memOk.bind fun _ => activeMask_memOk.bind fun _ =>
    Keeps.bind (Keeps.forM' _ fun _ => decodeSource_memOk) fun _ => decodeDest_memOk.bind fun _ => getMe_memOk.bind fun _ => packInto_memOk.bind fun _ =>
    clearVstart_memOk

end Sys2Proof.Machine
end

section
/-! PROOF. Every step keeps the canonical form of every byte memory (O60): the Tug. -/

namespace Sys2Proof.Machine

variable {s : State}

theorem tugCheck_memOk {fn : Nat} {core : Option (Fin 1024)} {raw : BitVec 1024} {ents : Vector Word 8} : Keeps State.MemOk (tugCheck fn core raw ents) :=
  Keeps.get.bind fun _ => (Keeps.needN _ _ _).bind fun _ => (Keeps.needN _ _ _).bind fun _ => (Keeps.needN _ _ _).bind fun _ => (Keeps.needN _ _ _).bind fun _ =>
    (Keeps.needN _ _ _).bind fun _ => (Keeps.needN _ _ _).bind fun _ => Keeps.needN _ _ _

theorem tblkCheck_memOk {raw : BitVec 1024} : Keeps State.MemOk (tblkCheck raw) := (Keeps.needN _ _ _).bind fun _ => Keeps.needU _ _
theorem needTugSlot_memOk {n : Fin 32} : Keeps State.MemOk (needTugSlot n) := Keeps.get.bind fun _ => (Keeps.waitUnless _).bind fun _ => Keeps.needN _ _ _

theorem beginFill_memOk {core : Nat} {k : TugCmd} : Keeps State.MemOk (beginFill core k) := by
  unfold beginFill
  split
  · exact Keeps.pure _
  · exact Keeps.get.bind fun _ => modSlot_memOk.bind fun _ => Keeps.pure _

theorem needTugCtx_memOk {b : Word} : Keeps State.MemOk (needTugCtx b) := Keeps.get.bind fun _ => (Keeps.needU _ _).bind fun _ => Keeps.pure _

theorem readBlock_memOk {fn : Nat} {a : Word} : Keeps State.MemOk (readBlock fn a) := by
  unfold readBlock
  refine (Keeps.needN _ _ _).bind fun _ => ?_
  split
  · exact Keeps.pure _
  · refine readWords_memOk.bind fun _ => ?_
    extract_lets _ jp
    have hjp : ∀ x, Keeps State.MemOk (jp x) := fun _ => Keeps.pure _
    exact Keeps.get.bind fun _ => Keeps.ite (fun _ => tblkCheck_memOk.bind hjp) fun _ => tugCheck_memOk.bind hjp

theorem tugIssue_memOk {fn : Nat} {f : TForm} : Keeps State.MemOk (tugIssue fn f) := by
  unfold tugIssue
  refine readS_memOk.bind fun _ => readS_memOk.bind fun _ => awaitS_memOk.bind fun _ => needTugCtx_memOk.bind fun _ => readBlock_memOk.bind fun _ => ?_
  extract_lets jp
  have hjp : ∀ x, Keeps State.MemOk (jp x) := fun _ => Keeps.get.bind fun _ => (Keeps.waitUnless _).bind fun _ => beginFill_memOk.bind fun _ =>
    Keeps.bind (Keeps.modify fun _ h1 => h1.modTug) fun _ => modMe_memOk.bind fun _ => writeS_memOk
  exact Keeps.ite (fun _ => needTugSlot_memOk.bind hjp) fun _ => hjp ()

theorem State.MemOk.tugReport {t : TugId} {k : TugCmd} {origin who place : Nat} {x : TugFault} (h : s.MemOk) : (tugReport s t k origin who place x).MemOk :=
  h.modTug.report

theorem tugTry_memOk {α : Type} {addr : Nat} {x : M α} (h : Keeps State.MemOk x) : Keeps State.MemOk (tugTry addr x) := by
  unfold tugTry
  refine (Keeps.attempt h).bind fun _ => ?_
  split
  · exact Keeps.pure _
  · refine Keeps.get.bind fun _ => ?_
    split
    · exact Keeps.pure _
    · exact Keeps.throw _

theorem tugLoc_memOk {w : Who} {p : TugPath} {a n : Nat} {acc : Acc} : Keeps State.MemOk (tugLoc w p a n acc) := by
  unfold tugLoc
  refine Keeps.get.bind fun _ => ?_
  split
  · refine (Keeps.needN _ _ _).bind fun _ => ?_
    split
    · exact Keeps.trapN _ _
    · exact Keeps.pure _
  · exact (Keeps.needN _ _ _).bind fun _ => (Keeps.needN _ _ _).bind fun _ => translate_memOk.bind fun _ => (Keeps.needN _ _ _).bind fun _ => Keeps.pure _
  · exact (Keeps.needN _ _ _).bind fun _ => (Keeps.needN _ _ _).bind fun _ => translate_memOk.bind fun _ => (Keeps.needN _ _ _).bind fun _ => Keeps.pure _
  · refine (Keeps.needN _ _ _).bind fun _ => ?_
    split
    · split
      · exact Keeps.trapN _ _
      · exact Keeps.pure _
      · exact translate_memOk.bind fun _ => Keeps.pure _
    · exact (Keeps.needN _ _ _).bind fun _ => translate_memOk.bind fun _ => Keeps.pure _

theorem noteRead_memOk {w : Who} {pa : Nat} : Keeps State.MemOk (noteRead w pa) := by
  unfold noteRead
  refine Keeps.modify ?_
  intro s h
  split
  · exact h.modTug
  all_goals exact h

theorem tugRead_memOk {w : Who} {p : TugPath} {a n : Nat} : Keeps State.MemOk (tugRead w p a n) := by
  unfold tugRead
  refine tugLoc_memOk.bind fun _ => Keeps.get.bind fun _ => ?_
  split
  · exact poolRead_memOk
  · exact poolRead_memOk
  · exact Keeps.ite (fun _ => Keeps.throw _) fun _ => noteRead_memOk.bind fun _ => physRead_memOk

theorem tugWrite_memOk {l : Loc} {b : List Byte} : Keeps State.MemOk (tugWrite l b) := by
  unfold tugWrite
  split
  · exact Keeps.modify fun _ h => h.modCore fun _ hk => hk.of_pool (memPut_wf hk.1 _ _) rfl
  · exact Keeps.modify fun _ h => h.modCore fun _ hk => hk.of_pool (memPut_wf hk.1 _ _) rfl
  · exact physPut_memOk

theorem beatTransfer_memOk {ls : List (Loc × List Byte)} : Keeps State.MemOk (beatTransfer ls) := by
  unfold beatTransfer
  split
  · exact transfer_memOk
  · exact Keeps.pure ()

theorem readPieces_memOk {w : Who} {p : TugPath} {l : List (Nat × Nat)} : Keeps State.MemOk (readPieces w p l) := by
  induction l generalizing w p with
  | nil =>
    rw [readPieces]
    exact Keeps.pure _
  | cons a l ih =>
    rw [readPieces]
    refine (tugTry_memOk tugRead_memOk).bind fun _ => ?_
    split
    · exact Keeps.pure _
    · exact ih.bind fun _ => Keeps.pure _

theorem scaleAt_memOk {w : Who} {p : TugPath} {fd : Fmt} {aux j : Nat} {a : TugAcc} : Keeps State.MemOk (scaleAt w p fd aux j a) := by
  unfold scaleAt
  split
  · exact Keeps.pure _
  · extract_lets _
    refine (tugTry_memOk tugRead_memOk).bind fun _ => ?_
    split <;> exact Keeps.pure _

theorem quantRow_memOk {w : Who} {p : TugPath} {fs fd : Fmt} {b : TBlk} {r : Nat} {l : List (Nat × Nat)} {a : TugAcc} :
    Keeps State.MemOk (quantRow w p fs fd b r l a) := by
  induction l generalizing w p fs fd b r a with
  | nil =>
    rw [quantRow]
    exact Keeps.pure _
  | cons a l ih =>
    rw [quantRow]
    refine scaleAt_memOk.bind fun _ => ?_
    split
    · exact Keeps.pure _
    · exact ih.bind fun _ => Keeps.pure _

theorem elemRows_memOk {w : Who} {src scales : TugPath} {k : TugCmd} {n : Nat} {l : List (List Nat)} {a : TugAcc} :
    Keeps State.MemOk (elemRows w src scales k n l a) := by
  induction l generalizing w src scales k n a with
  | nil =>
    rw [elemRows]
    exact Keeps.pure _
  | cons a l ih =>
    rw [elemRows]
    refine readPieces_memOk.bind fun _ => ?_
    extract_lets _ jp
    have hjp : ∀ x, Keeps State.MemOk (jp x) := by
      intro x
      simp only [jp]
      split
      · exact Keeps.pure _
      · exact Keeps.pure _
      · exact ih.bind fun _ => Keeps.pure _
    exact Keeps.ite (fun _ => quantRow_memOk.bind hjp) fun _ => (Keeps.pure _).bind hjp

theorem codeRows_memOk {w : Who} {src : TugPath} {k : TugCmd} {l : List (List Nat)} : Keeps State.MemOk (codeRows w src k l) := by
  induction l generalizing w src k with
  | nil =>
    rw [codeRows]
    exact Keeps.pure _
  | cons a l ih =>
    rw [codeRows]
    refine readPieces_memOk.bind fun _ => ?_
    extract_lets _
    split
    · exact Keeps.pure _
    · exact ih.bind fun _ => Keeps.pure _

theorem readEncoded_memOk {w : Who} {p : TugPath} {fs : Fmt} {a : Nat} : Keeps State.MemOk (readEncoded w p fs a) := by
  unfold readEncoded
  refine Keeps.get.bind fun _ => ?_
  extract_lets _
  refine readPieces_memOk.bind fun _ => ?_
  split
  · exact Keeps.pure _
  · extract_lets _
    split
    · exact Keeps.pure _
    · refine readPieces_memOk.bind fun _ => ?_
      split
      · exact Keeps.pure _
      · exact Keeps.ite (fun _ => Keeps.pure _) fun _ => Keeps.pure _

theorem decodeRun_memOk {w : Who} {p : TugPath} {fs : Fmt} {n n1 n2 : Nat} : Keeps State.MemOk (decodeRun w p fs n n1 n2) := by
  induction n generalizing w p fs n1 n2 with
  | zero =>
    rw [decodeRun]
    exact Keeps.pure _
  | succ n ih =>
    rw [decodeRun]
    split
    · exact Keeps.pure _
    · refine readEncoded_memOk.bind fun _ => ?_
      split
      · exact Keeps.pure _
      · exact ih.bind fun _ => Keeps.pure _

theorem elemPlan_memOk {t : TugId} {k : TugCmd} : Keeps State.MemOk (elemPlan t k) := elemRows_memOk.bind fun _ => Keeps.get.bind fun _ => Keeps.pure _
theorem encPlan_memOk {t : TugId} {k : TugCmd} : Keeps State.MemOk (encPlan t k) := codeRows_memOk.bind fun _ => Keeps.get.bind fun _ => Keeps.pure _
theorem decPlan_memOk {t : TugId} {k : TugCmd} : Keeps State.MemOk (decPlan t k) := decodeRun_memOk.bind fun _ => Keeps.get.bind fun _ => Keeps.pure _

theorem tableWord_memOk {w : Who} {p : TugPath} {a n : Nat} {acc : Acc} : Keeps State.MemOk (tableWord w p a n acc) := by
  unfold tableWord
  refine tugLoc_memOk.bind fun _ => ?_
  split
  · exact Keeps.pure _
  · exact Keeps.trapN _ _
  · exact Keeps.trapN _ _

theorem tableHead_memOk {w : Who} {p : TugPath} {a : Nat} : Keeps State.MemOk (tableHead w p a) :=
  tableWord_memOk.bind fun _ => tableRead_memOk.bind fun _ => tableRead_memOk.bind fun _ => readPool_memOk.bind fun _ => Keeps.pure _

theorem tableEntries_memOk {w : Who} {p : TugPath} {tab i n nent : Nat} : Keeps State.MemOk (tableEntries w p tab i n nent) :=
  Keeps.mapM' _ fun _ => (Keeps.needN _ _ _).bind fun _ => tableWord_memOk

theorem refOf_memOk {va pool blk : Nat} : Keeps State.MemOk (refOf va pool blk) := readPool_memOk.bind fun _ => tableRead_memOk.bind fun _ => Keeps.pure _

theorem lowerRef_memOk {p : BlockPool} {blk cw : Nat} : Keeps State.MemOk (lowerRef p blk cw) :=
  Keeps.ite (fun _ => physWrite_memOk.bind fun _ => physWrite_memOk.bind fun _ => physWrite_memOk) fun _ => physWrite_memOk

theorem awaitEntry_memOk {table : Nat} {p : BlockPool} {blk : Nat} : Keeps State.MemOk (awaitEntry table p blk) := Keeps.get.bind fun _ => Keeps.waitUnless _

theorem dropEntry_memOk {va table pool a : Nat} : Keeps State.MemOk (dropEntry va table pool a) := by
  unfold dropEntry
  refine tableRead_memOk.bind fun _ => ?_
  split
  · refine refOf_memOk.bind fun _ => ?_
    split
    exact awaitEntry_memOk.bind fun _ => physWrite_memOk.bind fun _ => lowerRef_memOk
  · exact Keeps.pure ()

theorem shareEntry_memOk {va table pool dpool blk a : Nat} : Keeps State.MemOk (shareEntry va table pool dpool blk a) := by
  unfold shareEntry
  refine refOf_memOk.bind fun _ => ?_
  split
  refine tableRead_memOk.bind fun _ => ?_
  extract_lets jp
  have hjp : ∀ x, Keeps State.MemOk (jp x) := by
    intro x
    simp only [jp]
    exact physWrite_memOk.bind fun _ => physWrite_memOk.bind fun _ => Keeps.ite (fun _ => refOf_memOk.bind fun _ => lowerRef_memOk) fun _ => Keeps.pure ()
  split
  · refine refOf_memOk.bind fun _ => ?_
    split
    exact awaitEntry_memOk.bind hjp
  · exact hjp ()

theorem refRoom_memOk {va : Nat} {p : BlockPool} {blks : List Nat} : Keeps State.MemOk (refRoom va p blks) :=
  Keeps.bind (Keeps.mapM' _ fun _ => tableRead_memOk.bind fun _ => Keeps.pure _) fun _ => Keeps.pure _

theorem blockTable_memOk {t : TugId} {k : TugCmd} : Keeps State.MemOk (blockTable t k) :=
  tableHead_memOk.bind fun _ => Keeps.ite (fun _ => tableEntries_memOk.bind fun _ => Keeps.forM' _ fun _ => dropEntry_memOk) fun _ => tableHead_memOk.bind fun _ =>
    tableEntries_memOk.bind fun _ => Keeps.bind (Keeps.mapM' _ fun _ => (Keeps.needN _ _ _).bind fun _ => tableWord_memOk.bind fun _ =>
    tableRead_memOk.bind fun _ => (Keeps.needN _ _ _).bind fun _ => Keeps.pure _) fun _ => refRoom_memOk.bind fun _ => (Keeps.needN _ _ _).bind fun _ =>
    Keeps.forM' _ fun _ => shareEntry_memOk

theorem tugPlan_memOk {t : TugId} {k : TugCmd} : Keeps State.MemOk (tugPlan t k) := by
  unfold tugPlan
  split
  · exact encPlan_memOk
  · exact decPlan_memOk
  · exact Keeps.get.bind fun _ => Keeps.pure _
  · refine (tugTry_memOk blockTable_memOk).bind fun _ => ?_
    split <;> exact Keeps.pure _
  · exact elemPlan_memOk

theorem putSide_memOk {core : Nat} {n : Fin 32} {off : Nat} {b : List Byte} : Keeps State.MemOk (putSide core n off b) := modSlot_memOk.bind fun _ => healSlot_memOk

theorem fillSide_memOk {core : Nat} {n : Fin 32} {b : List Byte} : Keeps State.MemOk (fillSide core n b) :=
  Keeps.get.bind fun _ => modSlot_memOk.bind fun _ => healSlot_memOk.bind fun _ => Keeps.ite (fun _ => modSlot_memOk.bind fun _ => healSlot_memOk) fun _ =>
    Keeps.pure ()

theorem endFill_memOk {k : TugCmd} {fault : Bool} : Keeps State.MemOk (endFill k fault) := by
  unfold endFill
  split
  · exact Keeps.pure ()
  · extract_lets _ _ _ jp jp1
    have hjp : ∀ x, Keeps State.MemOk (jp x) := fun _ => Keeps.ite (fun _ => modSlot_memOk) fun _ => Keeps.pure ()
    have hjp1 : ∀ x, Keeps State.MemOk (jp1 x) := fun _ => Keeps.ite (fun _ => fillSide_memOk.bind fun _ => modSlot_memOk.bind hjp) fun _ => hjp ()
    exact Keeps.ite (fun _ => Keeps.get.bind fun _ => modSlot_memOk.bind hjp1) fun _ => hjp1 ()

theorem modCmd_memOk {t : TugId} {n : Nat} {f : TugCmd → TugCmd} : Keeps State.MemOk (modCmd t n f) := Keeps.modify fun _ h => h.modTug

theorem finishCmd_memOk {t : TugId} {k : TugCmd} {fault : Option TugFault} : Keeps State.MemOk (finishCmd t k fault) := by
  unfold finishCmd
  refine endFill_memOk.bind fun _ => modCmd_memOk.bind fun _ => ?_
  extract_lets jp
  have hjp : ∀ x, Keeps State.MemOk (jp x) := by
    intro x
    simp only [jp]
    split
    · exact Keeps.modify fun _ h => h.tugReport
    · exact Keeps.pure ()
  split
  · exact Keeps.bind (Keeps.modify fun _ h => h.settleFills) hjp
  · exact hjp ()

theorem setWindow_memOk {k : TugCmd} {stop : Nat} : Keeps State.MemOk (setWindow k stop) := by
  unfold setWindow
  split
  · refine Keeps.get.bind fun _ => ?_
    extract_lets _
    split
    · exact Keeps.modify fun _ h1 => h1.modCtx
    · exact Keeps.pure ()
  · exact Keeps.pure ()

theorem takeSlot_memOk {k : TugCmd} : Keeps State.MemOk (takeSlot k) := by
  unfold takeSlot
  split
  · split
    · refine Keeps.get_bind fun s h => ?_
      split
      · exact (Keeps.set h.modRing).bind fun _ => Keeps.pure _
      · exact Keeps.pure _
    · exact Keeps.pure _
  · exact Keeps.pure _

theorem execTugCommandStart_memOk {t : TugId} {n : Nat} (h : s.MemOk) : OutOk (execTugCommandStart t n s) := by
  unfold execTugCommandStart
  refine event_memOk ?_ h
  split
  · exact Keeps.pure ()
  · exact Keeps.ite (fun _ => takeSlot_memOk.bind fun _ => modCmd_memOk.bind fun _ => Keeps.get.bind fun _ => setWindow_memOk.bind fun _ =>
      Keeps.bind (Keeps.modify fun _ h2 => h2.modTug) fun _ => tugPlan_memOk.bind fun _ => Keeps.get.bind fun _ =>
      Keeps.bind (Keeps.modify fun _ h3 => h3.modTug) fun _ => modCmd_memOk.bind fun _ => Keeps.ite (fun _ => finishCmd_memOk) fun _ => Keeps.pure ()) fun _ =>
      Keeps.pure ()

theorem landBeat_memOk {t : TugId} {k : TugCmd} {beat : Beat} : Keeps State.MemOk (landBeat t k beat) :=
  Keeps.ite (fun _ => Keeps.forM' _ fun _ => putSide_memOk) fun _ => Keeps.ite (fun _ => Keeps.forM' _ fun _ => modSlot_memOk.bind fun _ => healSlot_memOk) fun _ =>
    Keeps.bind (Keeps.mapM' _ fun _ => tugLoc_memOk.bind fun _ => Keeps.pure _) fun _ => beatTransfer_memOk.bind fun _ => Keeps.forM' _ fun _ => tugWrite_memOk

theorem landRing_memOk {k : TugCmd} {n : Nat} : Keeps State.MemOk (landRing k n) := by
  unfold landRing
  split
  · exact Keeps.modify fun _ h => h.modRing
  · exact Keeps.pure ()

theorem notePlaced_memOk {t : TugId} {k : TugCmd} {beat : Beat} : Keeps State.MemOk (notePlaced t k beat) := by
  unfold notePlaced
  split
  · exact Keeps.ite (fun _ => Keeps.modify fun _ h => h.modNode) fun _ => Keeps.pure ()
  · exact Keeps.pure ()

theorem nextBeat_memOk {t : TugId} {k : TugCmd} : Keeps State.MemOk (nextBeat t k) := by
  unfold nextBeat
  split
  · exact Keeps.pure ()
  · refine (tugTry_memOk landBeat_memOk).bind fun _ => ?_
    split
    · exact finishCmd_memOk
    · exact modCmd_memOk.bind fun _ => landRing_memOk.bind fun _ => notePlaced_memOk.bind fun _ => setWindow_memOk.bind fun _ =>
        Keeps.ite (fun _ => finishCmd_memOk) fun _ => Keeps.pure ()

theorem execTugBeatLands_memOk {t : TugId} {n : Nat} (h : s.MemOk) : OutOk (execTugBeatLands t n s) := by
  unfold execTugBeatLands
  refine event_memOk ?_ h
  split
  · exact Keeps.ite (fun _ => nextBeat_memOk) fun _ => Keeps.pure ()
  · exact Keeps.pure ()

theorem takeBlock_memOk {t : TugId} {r : NodeRef} : Keeps State.MemOk (takeBlock t r) := by
  unfold takeBlock
  refine Keeps.get_bind fun s h => ?_
  split
  · split
    · exact Keeps.set h.retireNode
    · extract_lets _ _ _ read _ _
      have hread : Keeps State.MemOk read := (Keeps.needN _ _ _).bind fun _ => tugRead_memOk.bind fun _ => tugRead_memOk.bind fun _ => tugCheck_memOk.bind fun _ =>
        Keeps.pure _
      refine (tugTry_memOk hread).bind fun _ => Keeps.bind (Keeps.modify fun _ h1 => h1.modNode) fun _ => ?_
      split
      · exact Keeps.modify fun _ h1 => h1.modTug
      · exact Keeps.modify fun _ h1 => h1.tugReport.failNode
  · exact Keeps.pure ()

theorem State.MemOk.completeCmd {t : TugId} {k : TugCmd} (h : s.MemOk) : (completeCmd s t k).MemOk := by
  unfold Machine.completeCmd
  extract_lets s1 s2
  have hs1 : s1.MemOk := by
    simp only [s1]
    split
    · exact h.modRing
    · exact h
  have hs2 : s2.MemOk := by
    simp only [s2]
    split
    · exact hs1.modCtx
    · exact hs1
  exact hs2.modTug

theorem execTugCommandComplete_memOk {t : TugId} {n : Nat} (h : s.MemOk) : OutOk (execTugCommandComplete t n s) := by
  unfold execTugCommandComplete
  refine event_memOk ?_ h
  split
  · exact Keeps.pure ()
  · split
    · refine Keeps.bind (Keeps.modify fun _ h1 => h1.completeCmd) fun _ => ?_
      split
      · exact Keeps.pure ()
      · exact Keeps.ite (fun _ => Keeps.modify fun _ h1 => h1.failNode) fun _ => takeBlock_memOk
    · exact Keeps.pure ()

theorem execFollowOnIssue_memOk {t : TugId} {n : Nat} (h : s.MemOk) : OutOk (execFollowOnIssue t n s) := by
  unfold execFollowOnIssue
  refine event_memOk ?_ h
  split
  · exact Keeps.pure ()
  · split
    · exact Keeps.pure ()
    · exact Keeps.ite (fun _ => Keeps.modify fun _ h1 => h1.modCore fun _ h2 => h2) fun _ => Keeps.pure ()

end Sys2Proof.Machine
end

section
/-! PROOF. Every step keeps the canonical form of every byte memory (O60): the Walker. -/

namespace Sys2Proof.Machine

variable {s : State}

theorem needTreeEnts_memOk {t : Tree} {ents : Vector Word 8} : Keeps State.MemOk (needTreeEnts t ents) := Keeps.forM' _ fun _ => Keeps.needN _ _ _

theorem checkTree_memOk {desc : Word} {d : Nat} {ents : Vector Word 8} : Keeps State.MemOk (checkTree desc d ents) :=
  needTreeEnts_memOk.bind fun _ => (Keeps.needN _ _ _).bind fun _ => Keeps.pure _

theorem Walker.read_memOk {k : Walker} {a n : Nat} : Keeps State.MemOk (Walker.read k a n) := by
  unfold Walker.read
  refine Keeps.bind ?_ fun a1 => ?_
  · refine Keeps.mapM' _ ?_
    intro a1
    refine (tugTry_memOk tugRead_memOk).bind fun _ => ?_
    split
    · exact Keeps.pure _
    · exact Keeps.ite (fun _ => Keeps.throw _) fun _ => Keeps.throw _
  · exact Keeps.pure _

theorem Walker.readNat_memOk {k : Walker} {a n : Nat} : Keeps State.MemOk (Walker.readNat k a n) := Walker.read_memOk.bind fun _ => Keeps.pure _

theorem Walker.places_memOk {k : Walker} {a : Nat} {b : List Byte} : Keeps State.MemOk (Walker.places k a b) :=
  Keeps.mapM' _ fun _ => tugLoc_memOk.bind fun _ => Keeps.pure _

theorem Walker.commit_memOk {k : Walker} {ws : List (Nat × List Byte)} : Keeps State.MemOk (Walker.commit k ws) :=
  Keeps.bind (Keeps.mapM' _ fun _ => Walker.places_memOk) fun _ => Keeps.bind (Keeps.forM' _ fun _ => beatTransfer_memOk) fun _ => Keeps.forM' _ fun _ =>
    tugWrite_memOk

theorem Walker.release_memOk {k : Walker} {n a : Nat} : Keeps State.MemOk (Walker.release k n a) :=
  tugLoc_memOk.bind fun _ => Keeps.get_bind fun _ h => Keeps.ite (fun _ => Keeps.pure ()) fun _ => (Keeps.waitUnless _).bind fun _ => Keeps.set h

theorem Walker.used_memOk {k : Walker} : Keeps State.MemOk (Walker.used k) := Walker.readNat_memOk

theorem Walker.node_memOk {k : Walker} {locked : Bool} {i : Nat} : Keeps State.MemOk (Walker.node k locked i) :=
  Walker.readNat_memOk.bind fun _ => (Keeps.waitUnless _).bind fun _ => Walker.used_memOk.bind fun _ => (Keeps.needN _ _ _).bind fun _ => Keeps.pure _

theorem Walker.leafCount_memOk {k : Walker} {va : Nat} : Keeps State.MemOk (Walker.leafCount k va) :=
  Walker.readNat_memOk.bind fun _ => (Keeps.needN _ _ _).bind fun _ => Keeps.pure _

theorem needFinite_memOk {f : Fmt} {va : Nat} {codes : List Nat} : Keeps State.MemOk (needFinite f va codes) :=
  Keeps.bind (Keeps.forM' _ fun _ => Keeps.needN _ _ _) fun _ => Keeps.pure _

theorem Walker.leaf_memOk {k : Walker} {va : Nat} : Keeps State.MemOk (Walker.leaf k va) :=
  Walker.leafCount_memOk.bind fun _ => Keeps.bind (Keeps.mapM' _ fun _ => Walker.readNat_memOk.bind fun _ => Walker.readNat_memOk.bind fun _ =>
    Walker.readNat_memOk.bind fun _ => (Keeps.discard needFinite_memOk).bind fun _ => (Keeps.discard needFinite_memOk).bind fun _ => Keeps.pure _) fun _ =>
    Keeps.pure _

theorem Walker.visit_memOk {k : Walker} {locked : Bool} {q : List Num} {nq qi i : Nat} : Keeps State.MemOk (Walker.visit k locked q nq qi i) := by
  unfold Walker.visit
  refine Walker.node_memOk.bind fun _ => ?_
  split
  · exact Keeps.pure _
  · split
    · exact Keeps.pure _
    · exact Keeps.ite (fun _ => Walker.leafCount_memOk.bind fun _ => Keeps.pure _) fun _ => Keeps.pure _

theorem Walker.descend_memOk {k : Walker} {locked : Bool} {q : List Num} {nq qi n : Nat} {is : List Nat} {cov : Nat} :
    Keeps State.MemOk (Walker.descend k locked q nq qi n is cov) := by
  induction n generalizing is cov with
  | zero => exact Keeps.pure _
  | succ n ih =>
    cases is with
    | nil => exact Keeps.pure _
    | cons i st =>
      rw [Walker.descend]
      refine (tugTry_memOk Walker.visit_memOk).bind fun r => ?_
      split
      · exact Keeps.pure _
      · exact ih.bind fun _ => Keeps.pure _

theorem Walker.query_memOk {k : Walker} {a : Nat} : Keeps State.MemOk (Walker.query k a) := Walker.readNat_memOk.bind fun _ => needFinite_memOk

theorem Walker.queries_memOk {k : Walker} {locked : Bool} {root qbase qstride qidx0 : Nat} {l : List Nat} :
    Keeps State.MemOk (Walker.queries k locked root qbase qstride qidx0 l) := by
  induction l generalizing k locked root qbase qstride qidx0 with
  | nil =>
    rw [Walker.queries]
    exact Keeps.pure _
  | cons a l ih =>
    rw [Walker.queries]
    refine (tugTry_memOk Walker.query_memOk).bind fun _ => ?_
    split
    · exact Keeps.pure _
    · extract_lets _
      refine Walker.descend_memOk.bind fun _ => ?_
      split
      · exact Keeps.pure _
      · exact ih.bind fun _ => Keeps.pure _

theorem Walker.walk_memOk {k : Walker} {locked : Bool} {qbase nq qstride qidx0 : Nat} : Keeps State.MemOk (Walker.walk k locked qbase nq qstride qidx0) := by
  unfold Walker.walk
  refine (tugTry_memOk Walker.readNat_memOk).bind fun _ => ?_
  split
  · exact Keeps.pure _
  · exact Walker.queries_memOk.bind fun _ => Keeps.pure _

theorem Lay.fitNode_memOk {l : Lay} {a : Nat} {pts : List (Nat × List Num)} {rad : List Num → Nat} {vs : List (List Num)} :
    Keeps State.MemOk (Lay.fitNode l a pts rad vs) :=
  Keeps.ite (fun _ => Keeps.pure _) fun _ => (Keeps.needN _ _ _).bind fun _ => Keeps.pure _

theorem Lay.fitKeys_memOk {l : Lay} {a : Nat} {keys : List TKey} : Keeps State.MemOk (Lay.fitKeys l a keys) := by
  unfold Lay.fitKeys
  exact Lay.fitNode_memOk

theorem Lay.fitKids_memOk {l : Lay} {a : Nat} {kids : List TNode} : Keeps State.MemOk (Lay.fitKids l a kids) := by
  unfold Lay.fitKids
  exact Lay.fitNode_memOk

theorem Lay.grow_memOk {l : Lay} {x : TNode} {key val : List Num} : Keeps State.MemOk (Lay.grow l x key val) := (Keeps.needN _ _ _).bind fun _ => Keeps.pure _

theorem Walker.path_memOk {k : Walker} {key : List Num} {n n1 : Nat} : Keeps State.MemOk (Walker.path k key n n1) := by
  induction n generalizing k key n1 with
  | zero =>
    rw [Walker.path]
    exact Keeps.pure _
  | succ n ih =>
    rw [Walker.path]
    exact Walker.node_memOk.bind fun _ => Keeps.ite (fun _ => Keeps.pure _) fun _ => Keeps.bind (Keeps.mapM' _ fun _ => Walker.node_memOk) fun _ => ih.bind fun _ =>
      Keeps.pure _

theorem Walker.live_memOk {k : Walker} : Keeps State.MemOk (Walker.live k) := Walker.readNat_memOk.bind fun _ => Keeps.pure _

theorem Walker.splitUp_memOk {k : Walker} {first : Nat} {l : List TNode} {n : Nat} {a : SplitRun} : Keeps State.MemOk (Walker.splitUp k first l n a) := by
  induction l generalizing k first n a with
  | nil =>
    rw [Walker.splitUp]
    exact Keeps.pure _
  | cons a l ih =>
    rw [Walker.splitUp]
    refine Keeps.bind (Keeps.mapM' _ fun _ => Keeps.ite (fun _ => Keeps.pure _) fun _ => Walker.node_memOk.bind fun _ => Keeps.pure _) fun _ => ?_
    extract_lets _ _ _ mk
    have hmk : ∀ i1 js1, Keeps State.MemOk (mk i1 js1) := fun _ _ => Lay.fitKids_memOk.bind fun _ => Keeps.pure _
    exact (hmk _ _).bind fun _ => (hmk _ _).bind fun _ => ih

theorem Walker.plainWrites_memOk {k : Walker} {path : List TNode} {va s : Nat} {x : TKey} : Keeps State.MemOk (Walker.plainWrites k path va s x) :=
  Keeps.bind (Keeps.mapM' _ fun _ => Lay.grow_memOk) fun _ => Keeps.pure _

theorem Walker.splitLeaf_memOk {k : Walker} {v : Live} {leaf : TNode} {keys : List TKey} : Keeps State.MemOk (Walker.splitLeaf k v leaf keys) := by
  unfold Walker.splitLeaf
  extract_lets _ _ mk
  have hmk : ∀ i1 b1 js1, Keeps State.MemOk (mk i1 b1 js1) := fun _ _ _ => Lay.fitKeys_memOk.bind fun _ => Keeps.pure _
  exact (hmk _ _ _).bind fun _ => (hmk _ _ _).bind fun _ => Keeps.pure _

theorem Walker.splitWrites_memOk {k : Walker} {v : Live} {d : Nat} {path : List TNode} {lf : TLeaf} {x : TKey} :
    Keeps State.MemOk (Walker.splitWrites k v d path lf x) := by
  unfold Walker.splitWrites
  simp only
  split
  · exact Keeps.pure _
  · refine Walker.splitLeaf_memOk.bind fun _ => Walker.splitUp_memOk.bind fun _ => ?_
    split
    · exact Lay.fitKids_memOk.bind fun _ => (Keeps.pure _).bind fun _ => Keeps.pure _
    · exact (Keeps.mapM' _ fun _ => Lay.grow_memOk).bind fun _ => (Keeps.pure _).bind fun _ => Keeps.pure _

theorem Walker.append_memOk {k : Walker} {n : Nat} {x : TKey} : Keeps State.MemOk (Walker.append k n x) := by
  unfold Walker.append
  refine Walker.live_memOk.bind fun _ => Walker.path_memOk.bind fun down => ?_
  extract_lets path
  clear_value path
  split
  · exact Keeps.pure _
  · refine Walker.leafCount_memOk.bind fun _ => (Keeps.needU _ _).bind fun _ => Keeps.ite (fun _ => ?_) fun _ => ?_
    · exact Walker.leaf_memOk.bind fun _ => Walker.splitWrites_memOk.bind fun _ => Walker.commit_memOk
    · refine Walker.plainWrites_memOk.bind fun _ => (Keeps.mapM' _ fun _ => Walker.places_memOk).discard.bind fun _ => ?_
      exact Walker.commit_memOk.bind fun _ => Walker.release_memOk.bind fun _ => Walker.commit_memOk

theorem Walker.refit_memOk {k : Walker} {n n1 : Nat} : Keeps State.MemOk (Walker.refit k n n1) := by
  induction n generalizing k n1 with
  | zero =>
    rw [Walker.refit]
    exact Walker.node_memOk
  | succ n ih =>
    rw [Walker.refit]
    refine Walker.node_memOk.bind fun _ => Keeps.bind (Keeps.mapM' _ fun _ => ih) fun _ => ?_
    split
    · exact Keeps.pure _
    · extract_lets _ jp
      have hjp : ∀ x, Keeps State.MemOk (jp x) := fun _ => Walker.commit_memOk.bind fun _ => Keeps.pure _
      exact Keeps.ite (fun _ => Walker.leaf_memOk.bind fun _ => Lay.fitKeys_memOk.bind hjp) fun _ => Lay.fitKids_memOk.bind hjp

theorem State.MemOk.walkReport {w : WalkId} {o : WalkOp} {f : TugFault} (h : s.MemOk) : (walkReport s w o f).MemOk := h.report
theorem modHead_memOk {w : WalkId} {f : WalkOp → WalkOp} : Keeps State.MemOk (modHead w f) := Keeps.modify fun _ h => h.modWalk

theorem Walker.lockPa_memOk {k : Walker} : Keeps State.MemOk (Walker.lockPa k) := by
  unfold Walker.lockPa
  extract_lets _
  refine tugLoc_memOk.bind fun _ => ?_
  split
  · exact Keeps.pure _
  · exact Keeps.trapN _ _
  · exact Keeps.trapN _ _

theorem lockFree_memOk {w : WalkId} {pa : Nat} : Keeps State.MemOk (lockFree s w pa) := physRead_memOk.bind fun _ => Keeps.pure _
theorem takeLock_memOk {w : WalkId} {pa : Nat} : Keeps State.MemOk (takeLock w pa) := physPut_memOk.bind fun _ => Keeps.modify fun _ h => h

theorem Walker.underLock_memOk {k : Walker} {pa : Nat} {x : M Unit} (h : Keeps State.MemOk x) : Keeps State.MemOk (Walker.underLock k pa x) := by
  unfold Walker.underLock
  refine takeLock_memOk.bind fun _ => (tugTry_memOk h).bind fun _ => ?_
  split
  · exact modHead_memOk
  · exact physWrite_memOk.bind fun _ => modHead_memOk

theorem walkTake_memOk {core : Fin 1024} {ring : Fin 8} : Keeps State.MemOk (walkTake core ring) := by
  unfold walkTake
  refine Keeps.get_bind fun s h => ?_
  extract_lets _
  split
  · exact Keeps.pure _
  · exact (Keeps.set h.modRing).bind fun _ => Keeps.pure _

theorem headTake_memOk {w : WalkId} : Keeps State.MemOk (headTake w) := by
  unfold headTake
  refine Keeps.get.bind fun _ => ?_
  split
  · exact walkTake_memOk.bind fun _ => modHead_memOk
  · exact Keeps.pure ()

theorem emitSlot_memOk {w : WalkId} {rl : Nat} : Keeps State.MemOk (emitSlot w rl) := by
  unfold emitSlot
  refine Keeps.get.bind fun _ => ?_
  split
  · exact Keeps.ite (fun _ => tugWrite_memOk.bind fun _ => Keeps.bind (Keeps.modify fun _ h1 => h1.modRing) fun _ => modHead_memOk.bind fun _ =>
      Keeps.ite (fun _ => headTake_memOk) fun _ => Keeps.pure ()) fun _ => Keeps.ite (fun _ => modHead_memOk) fun _ => Keeps.pure ()
  · exact headTake_memOk

theorem needTree_memOk {w : WalkId} {o : WalkOp} : Keeps State.MemOk (needTree w o) := by
  unfold needTree
  refine Keeps.get.bind fun _ => ?_
  split
  · exact Keeps.pure _
  · exact Keeps.trapU _

theorem faultHead_memOk {w : WalkId} {f : TugFault} : Keeps State.MemOk (faultHead w f) := modHead_memOk
theorem askLock_memOk {w : WalkId} {pa : Nat} : Keeps State.MemOk (askLock w pa) := Keeps.bind (Keeps.modify fun _ h => h) fun _ => modHead_memOk
theorem Walker.walked_memOk {k : Walker} {r : WalkRun} : Keeps State.MemOk (Walker.walked k r) := modHead_memOk

theorem Walker.lockTry_memOk {k : Walker} : Keeps State.MemOk (Walker.lockTry k) :=
  Walker.lockPa_memOk.bind fun _ => Keeps.get.bind fun _ => lockFree_memOk.bind fun _ => Keeps.ite (fun _ => Keeps.pure _) fun _ => askLock_memOk.bind fun _ =>
    Keeps.pure _

theorem Walker.lockFault_memOk {k : Walker} {f : TugFault} : Keeps State.MemOk (Walker.lockFault k f) := Walker.walked_memOk

theorem Walker.startQuery_memOk {k : Walker} {granted : Bool} {qbase : Word} {nq qstride qidx0 : Nat} :
    Keeps State.MemOk (Walker.startQuery k granted qbase nq qstride qidx0) := by
  unfold Walker.startQuery
  refine (Keeps.attempt Walker.walk_memOk).bind fun _ => ?_
  split
  · exact Walker.walked_memOk
  · split
    · exact waitM_memOk
    · refine (tugTry_memOk Walker.lockTry_memOk).bind fun _ => ?_
      split
      · exact Walker.lockFault_memOk
      · exact Keeps.pure ()
      · exact Walker.walk_memOk.bind fun _ => Walker.walked_memOk
  · exact Keeps.throw _

theorem Walker.readAppend_memOk {k : Walker} {rec : Word} : Keeps State.MemOk (Walker.readAppend k rec) :=
  Walker.readNat_memOk.bind fun _ => Walker.readNat_memOk.bind fun _ => (Keeps.discard needFinite_memOk).bind fun _ => Walker.readNat_memOk.bind fun _ =>
    (Keeps.discard needFinite_memOk).bind fun _ => Keeps.pure _

theorem Walker.lockOr_memOk {k : Walker} {x : M Unit} (h : Keeps State.MemOk x) : Keeps State.MemOk (Walker.lockOr k x) :=
  Walker.lockPa_memOk.bind fun _ => Keeps.get.bind fun _ => lockFree_memOk.bind fun _ => Keeps.ite (fun _ => Walker.underLock_memOk h) fun _ => askLock_memOk

theorem unbindTree_memOk {w : WalkId} : Keeps State.MemOk (unbindTree w) := Keeps.modify fun _ h => h.modWalk

theorem startOp_memOk {w : WalkId} {o : WalkOp} : Keeps State.MemOk (startOp w o) := by
  unfold startOp
  split
  · extract_lets _ check
    have hcheck : Keeps State.MemOk check := (Keeps.needN _ _ _).bind fun _ => tugRead_memOk.bind fun _ => tugRead_memOk.bind fun _ => checkTree_memOk
    refine (Keeps.attempt hcheck).bind fun _ => ?_
    split
    · exact Keeps.bind (Keeps.modify fun _ h => h.modWalk) fun _ => modHead_memOk
    · extract_lets jp
      have hjp : ∀ x, Keeps State.MemOk (jp x) := fun _ => Keeps.throw _
      exact Keeps.ite (fun _ => unbindTree_memOk.bind hjp) fun _ => hjp ()
  · exact needTree_memOk.bind fun _ => headTake_memOk.bind fun _ => Walker.startQuery_memOk
  · exact needTree_memOk.bind fun _ => Keeps.get.bind fun _ => Walker.readAppend_memOk.bind fun _ => modHead_memOk.bind fun _ =>
      Walker.lockOr_memOk Walker.append_memOk
  · exact needTree_memOk.bind fun _ => Walker.readNat_memOk.bind fun _ => Walker.lockOr_memOk (Keeps.discard Walker.refit_memOk)
  · exact modHead_memOk
  · exact modHead_memOk

theorem fenceHead_memOk {w : WalkId} : Keeps State.MemOk (fenceHead w) := by
  unfold fenceHead
  refine Keeps.get.bind fun _ => ?_
  extract_lets jp
  have hjp : ∀ x, Keeps State.MemOk (jp x) := fun _ => modHead_memOk.bind fun _ => faultHead_memOk
  split
  · exact modHead_memOk.bind fun _ => headTake_memOk.bind fun _ => emitSlot_memOk.bind hjp
  · exact hjp ()

theorem execAwlOperationStart_memOk {w : WalkId} (h : s.MemOk) : OutOk (execAwlOperationStart w s) := by
  unfold execAwlOperationStart
  refine event_memOk ?_ h
  split
  · exact Keeps.pure ()
  · split
    · exact fenceHead_memOk
    · split
      · refine (tugTry_memOk startOp_memOk).bind fun _ => ?_
        split
        · exact Keeps.pure ()
        · exact faultHead_memOk
      · exact Keeps.pure ()

theorem grantedOp_memOk {w : WalkId} {o : WalkOp} : Keeps State.MemOk (grantedOp w o) := by
  unfold grantedOp
  refine Keeps.get.bind fun _ => ?_
  extract_lets _
  refine needTree_memOk.bind fun _ => ?_
  extract_lets found
  have hfound : Keeps State.MemOk found := Walker.lockPa_memOk.bind fun _ => Keeps.get.bind fun _ => lockFree_memOk.bind fun _ => Keeps.pure _
  refine (tugTry_memOk hfound).bind fun _ => ?_
  split
  · exact Keeps.pure ()
  · split
    · exact Walker.underLock_memOk Walker.append_memOk
    · exact Walker.readNat_memOk.bind fun _ => Walker.underLock_memOk (Keeps.discard Walker.refit_memOk)
    · exact Keeps.bind (Keeps.modify fun _ h1 => h1) fun _ => Walker.startQuery_memOk
    all_goals exact Keeps.pure ()
  · refine Keeps.bind (Keeps.modify fun _ h1 => h1) fun _ => ?_
    split
    · exact Walker.lockFault_memOk
    all_goals exact faultHead_memOk

theorem execAwlLockGrant_memOk {w : WalkId} (h : s.MemOk) : OutOk (execAwlLockGrant w s) := by
  unfold execAwlLockGrant
  refine event_memOk ?_ h
  split
  · exact Keeps.pure ()
  · split
    · refine (tugTry_memOk grantedOp_memOk).bind fun _ => ?_
      split
      · exact Keeps.pure ()
      · exact Keeps.bind (Keeps.modify fun _ h1 => h1) fun _ => faultHead_memOk
    · exact Keeps.pure ()

theorem execAwlSlotTake_memOk {w : WalkId} (h : s.MemOk) : OutOk (execAwlSlotTake w s) := by
  unfold execAwlSlotTake
  refine event_memOk ?_ h
  split
  · exact Keeps.ite (fun _ => emitSlot_memOk) fun _ => Keeps.pure ()
  · exact Keeps.pure ()

theorem checkQuery_memOk {t : Tree} {ents : Vector Word 8} {b : Nat} {core : Nat → Option (Fin 1024)} : Keeps State.MemOk (checkQuery t ents b core) :=
  (Keeps.needN _ _ _).bind fun _ => Keeps.get.bind fun _ => (Keeps.needU _ _).bind fun _ => (Keeps.needU _ _).bind fun _ => Keeps.pure _

theorem orderKind_memOk {w : WalkId} {who : Who} {code arg : Nat} : Keeps State.MemOk (orderKind w who code arg) := by
  unfold orderKind
  refine Keeps.get.bind fun _ => ?_
  extract_lets _ bound
  have hbound : Keeps State.MemOk bound := by
    simp only [bound]
    split
    · exact Keeps.pure _
    · exact Keeps.trapU _
  split
  · exact Keeps.pure _
  · exact hbound.bind fun _ => needTreeEnts_memOk.bind fun _ => (Keeps.needN _ _ _).bind fun _ =>
      Keeps.bind (Keeps.mapM' _ fun _ => tugRead_memOk.bind fun _ => Keeps.pure _) fun _ => checkQuery_memOk
  · exact hbound.bind fun _ => needTreeEnts_memOk.bind fun _ => Keeps.pure _
  · exact hbound.bind fun _ => needTreeEnts_memOk.bind fun _ => Keeps.pure _
  · exact Keeps.trapU _

theorem pushOp_memOk {w : WalkId} {mk : State → Nat → WalkOp} : Keeps State.MemOk (pushOp w mk) := Keeps.modify fun _ h => h.modWalk

theorem takeOrder_memOk {w : WalkId} {r : NodeRef} : Keeps State.MemOk (takeOrder w r) := by
  unfold takeOrder
  refine Keeps.get_bind fun s h => ?_
  split
  · extract_lets _ _ _ read
    have hread : Keeps State.MemOk read := tugRead_memOk.bind fun _ => tugRead_memOk.bind fun _ => orderKind_memOk
    split
    · exact Keeps.set h.retireNode
    · split
      · exact Keeps.bind (Keeps.modify fun _ h1 => h1.modNode.modWalk) fun _ => pushOp_memOk
      · refine (tugTry_memOk hread).bind fun _ => Keeps.bind (Keeps.modify fun _ h1 => h1.modNode) fun _ => ?_
        split
        · exact pushOp_memOk
        · exact Keeps.modify fun _ h1 => h1.walkReport.failNode
  · exact Keeps.pure ()

theorem execAwlOperationComplete_memOk {w : WalkId} (h : s.MemOk) : OutOk (execAwlOperationComplete w s) := by
  unfold execAwlOperationComplete
  refine event_memOk ?_ h
  split
  · exact Keeps.pure ()
  · split
    · extract_lets jp jp1
      have hjp : ∀ x, Keeps State.MemOk (jp x) := by
        intro x
        simp only [jp]
        refine Keeps.bind (Keeps.modify fun _ h1 => h1.modWalk) fun _ => ?_
        split
        · exact Keeps.pure ()
        · exact Keeps.ite (fun _ => Keeps.modify fun _ h1 => h1.failNode) fun _ => takeOrder_memOk
      have hjp1 : ∀ x, Keeps State.MemOk (jp1 x) := by
        intro x
        simp only [jp1]
        split
        · exact Keeps.bind (Keeps.modify fun _ h1 => h1.walkReport) hjp
        · exact hjp ()
      split
      · exact awaitAcks_memOk.bind fun _ => Keeps.bind (Keeps.modify fun _ h1 => h1.ownWrite) hjp1
      · exact hjp1 ()
    · exact Keeps.pure ()

theorem needWalk_memOk {b : Word} : Keeps State.MemOk (needWalk b) := by
  unfold needWalk
  refine Keeps.get.bind fun _ => ?_
  split
  · exact (Keeps.needU _ _).bind fun _ => Keeps.pure _
  · exact Keeps.trapU _

theorem needBound_memOk {w : WalkId} : Keeps State.MemOk (needBound w) := by
  unfold needBound
  refine Keeps.get.bind fun _ => ?_
  split
  · exact needTreeEnts_memOk.bind fun _ => Keeps.pure _
  · exact Keeps.trapU _

theorem queueOp_memOk {w : WalkId} {kind : WalkKind} {sd : Fin 32} : Keeps State.MemOk (queueOp w kind sd) :=
  Keeps.get.bind fun _ => (Keeps.waitUnless _).bind fun _ => pushOp_memOk.bind fun _ => writeS_memOk

theorem execWbind_memOk {f : A3} (h : s.MemOk) : OutOk (execWbind f s) := by
  unfold execWbind
  refine scalar_memOk ?_ h
  refine readS_memOk.bind fun _ => readS_memOk.bind fun _ => awaitS_memOk.bind fun _ => needWalk_memOk.bind fun _ => Keeps.get.bind fun _ =>
    (Keeps.waitUnless _).bind fun _ => ?_
  extract_lets check _
  have hcheck : Keeps State.MemOk check := (Keeps.needN _ _ _).bind fun _ => readWords_memOk.bind fun _ => checkTree_memOk
  refine (Keeps.attempt hcheck).bind fun _ => ?_
  split
  · exact Keeps.bind (Keeps.modify fun _ h2 => h2.modWalk) fun _ => writeS_memOk
  · extract_lets jp
    have hjp : ∀ x, Keeps State.MemOk (jp x) := fun _ => Keeps.throw _
    exact Keeps.ite (fun _ => unbindTree_memOk.bind hjp) fun _ => hjp ()

theorem execWqry_memOk {f : A3} (h : s.MemOk) : OutOk (execWqry f s) :=
  scalar_memOk (readS_memOk.bind fun _ => readS_memOk.bind fun _ => awaitS_memOk.bind fun _ => needWalk_memOk.bind fun _ => needBound_memOk.bind fun _ =>
    (Keeps.needN _ _ _).bind fun _ => readWords_memOk.bind fun _ => Keeps.get.bind fun _ => checkQuery_memOk.bind fun _ => queueOp_memOk) h

theorem execWapp_memOk {f : A3} (h : s.MemOk) : OutOk (execWapp f s) :=
  scalar_memOk (readS_memOk.bind fun _ => readS_memOk.bind fun _ => awaitS_memOk.bind fun _ => needWalk_memOk.bind fun _ =>
    (Keeps.discard needBound_memOk).bind fun _ => queueOp_memOk) h

theorem execWrefit_memOk {f : ADB} (h : s.MemOk) : OutOk (execWrefit f s) :=
  scalar_memOk (readS_memOk.bind fun _ => awaitS_memOk.bind fun _ => needWalk_memOk.bind fun _ => (Keeps.discard needBound_memOk).bind fun _ => queueOp_memOk) h

theorem execWdrain_memOk {f : ADB} (h : s.MemOk) : OutOk (execWdrain f s) :=
  scalar_memOk (readS_memOk.bind fun _ => awaitS_memOk.bind fun _ => needWalk_memOk.bind fun _ => queueOp_memOk.bind fun _ => Keeps.modify fun _ h1 => h1.modWalk) h

end Sys2Proof.Machine
end

section
/-! PROOF. Every step keeps the canonical form of every byte memory (O60): fetch, launch, supervisor instructions, gathers and the lanes. -/

namespace Sys2Proof.Machine

variable {s : State}

theorem fillCode_memOk {die : Fin 8} {asid : BitVec 16} {va base : Nat} : Keeps State.MemOk (fillCode die asid va base) := by
  unfold fillCode
  refine asidEntry_memOk.bind fun _ => ?_
  extract_lets _
  refine (Keeps.needN _ _ _).bind fun _ => transfer_memOk.bind fun _ => Keeps.get.bind fun _ => (Keeps.needU _ _).bind fun _ => ?_
  extract_lets _ jp
  have hjp : ∀ x, Keeps State.MemOk (jp x) := fun _ => Keeps.bind (Keeps.modify fun _ h1 => h1) fun _ => Keeps.pure _
  exact Keeps.ite (fun _ => tableRead_memOk.bind fun _ => (Keeps.needN _ _ _).bind hjp) fun _ => hjp ()

theorem keepOp_memOk {va w : Nat} : Keeps State.MemOk (keepOp va w) := Keeps.modify fun _ h => h.modMyCore fun _ h1 => h1

theorem fetchWord_memOk {va : Nat} : Keeps State.MemOk (fetchWord va) := by
  unfold fetchWord
  refine (Keeps.needN _ _ _).bind fun _ => Keeps.get.bind fun _ => meWho_memOk.bind fun _ => coreLoc_memOk.bind fun _ => ?_
  split
  · exact Keeps.trapN _ _
  · exact Keeps.trapN _ _
  · refine Keeps.get.bind fun _ => ?_
    split
    · exact Keeps.pure _
    · extract_lets _ jp jp1
      have hjp : ∀ x, Keeps State.MemOk (jp x) := fun _ => keepOp_memOk.bind fun _ => Keeps.pure _
      have hjp1 : ∀ x, Keeps State.MemOk (jp1 x) := fun _ => fillCode_memOk.bind fun _ => modMe_memOk.bind fun _ => (Keeps.pure _).bind hjp
      refine Keeps.get.bind fun _ => ?_
      split
      · exact (Keeps.pure _).bind hjp
      · exact Keeps.get.bind fun _ => Keeps.get.bind fun _ => Keeps.ite (fun _ => (Keeps.throw _).bind hjp1) fun _ => hjp1 ()

/-- Whatever comes next of a context, from a state of the form. -/
def TodoOk : Todo → Prop
  | .idle t => t.MemOk
  | .run _ t => t.MemOk
  | .ended _ t => t.MemOk

theorem fetchDecode_memOk (h : s.MemOk) : TodoOk (fetchDecode s) := by
  unfold fetchDecode
  simp only
  split
  next e => exact (fetchWord_memOk.ok h e).modMe
  next e =>
    have ht := fetchWord_memOk.error h e
    split
    · exact ht
    · exact ht
  next e => exact fetchWord_memOk.error h e

theorem nextTodo_memOk (h : s.MemOk) : TodoOk (nextTodo s) := by
  unfold nextTodo
  split
  · exact h
  · split
    next e => exact pendingTrap_memOk h e
    next =>
      have hs : (settleRels (s.modMe requeue) s.cur).MemOk := h.modMe.settleRels
      simp only
      split
      · exact hs
      · exact fetchDecode_memOk (hs.modMe.ite hs)

theorem State.MemOk.passTime (h : s.MemOk) : (passTime s).MemOk := h
theorem Core.MemOk.cleared {k : Core} : (Core.cleared k).MemOk := ⟨rfl, rfl⟩

theorem Core.MemOk.prepare {k : Core} {word rcb : Word} (h : k.MemOk) : (Core.prepare k word rcb).MemOk := by
  unfold Core.prepare
  split
  · exact Core.MemOk.cleared (k := k)
  · exact h

theorem Core.MemOk.clearTiles {k : Core} {lc : Nat} (h : k.MemOk) : (clearTiles k lc).MemOk := h.of_pool (memClear_wf h.1 _ _) rfl

theorem State.MemOk.runNode {c : Cand} {u : RUnit} {left : Nat} (h : s.MemOk) : (runNode s c u left).MemOk := by
  unfold Machine.runNode
  refine State.MemOk.modNode (h.of_cores (fun e he => ?_) rfl)
  obtain ⟨e, hm, rfl⟩ := List.mem_map.mp he
  have hk := h.listed e hm
  split
  · exact hk
  · exact hk

theorem State.MemOk.partReport {c : Cand} {x : CtxId} (h : s.MemOk) : (partReport s c x).MemOk := h.report

theorem State.MemOk.startV {c : Cand} {x : CtxId} (h : s.MemOk) : (startV s c x).MemOk :=
  State.MemOk.ite h.partReport.failNode (State.MemOk.runNode (State.MemOk.setCtx (h.modCore fun _ h1 => Core.MemOk.clearTiles (Core.MemOk.prepare h1))))

theorem State.MemOk.startNext {x : CtxId} (h : s.MemOk) : (startNext s x).MemOk := by
  unfold Machine.startNext
  split
  · exact State.MemOk.ite h.startV h
  · exact h

theorem eretTo_memOk {f : A0} : Keeps State.MemOk (eretTo f) :=
  needPriv_memOk.bind fun _ => getMe_memOk.bind fun _ => (Keeps.needN _ _ _).bind fun _ => (Keeps.waitUnless _).bind fun _ => modMe_memOk.bind fun _ => Keeps.pure _

theorem execEret_memOk {f : A0} (h : s.MemOk) : OutOk (execEret f s) := by
  unfold execEret
  split
  next e => exact complete_memOk (eretTo_memOk.ok h e)
  next e => exact scalarExc_memOk (eretTo_memOk.error h e)

theorem awaitAll_memOk : Keeps State.MemOk awaitAll := awaitLanes_memOk.bind fun _ => getMe_memOk.bind fun _ => Keeps.waitUnless _

theorem execHalt_memOk {f : A0} (h : s.MemOk) : OutOk (execHalt f s) :=
  scalar_memOk (needPriv_memOk.bind fun _ => awaitAll_memOk.bind fun _ => drainAll_memOk.bind fun _ => modMe_memOk) h

theorem State.MemOk.leaveNode {c : CtxId} (h : s.MemOk) : (leaveNode s c).MemOk := by
  unfold Machine.leaveNode
  simp only
  split
  · exact h.vacate.retireNode
  · exact h.vacate

theorem execNdone_memOk {f : A0} (h : s.MemOk) : OutOk (execNdone f s) := by
  unfold execNdone
  extract_lets wait
  have hwait : Keeps State.MemOk wait := awaitAll_memOk.bind fun _ => Keeps.get.bind fun _ => (Keeps.waitUnless _).bind fun _ => release_memOk
  clear_value wait
  split
  next e => exact (hwait.ok h e).leaveNode.startNext
  next e => exact scalarExc_memOk (hwait.error h e)

theorem execLease_memOk {f : A2} (h : s.MemOk) : OutOk (execLease f s) :=
  scalar_memOk (readS_memOk.bind fun _ => awaitS_memOk.bind fun _ => Keeps.get.bind fun _ => Keeps.ite (fun _ => modMe_memOk.bind fun _ => writeS_memOk) fun _ =>
    writeS_memOk) h

theorem loadD_memOk {a : Nat} : Keeps State.MemOk (loadD a) := by
  unfold loadD
  refine scalarLoc_memOk.bind fun _ => drainFor_memOk.bind fun _ => poisonAt_memOk.bind fun _ => ?_
  split
  · exact Keeps.throw _
  · exact scalarRead_memOk

theorem execEmucall_memOk {f : EForm} (h : s.MemOk) : OutOk (execEmucall f s) :=
  scalarTo_memOk (readS_memOk.bind fun _ => getMe_memOk.bind fun _ => Keeps.ite (fun _ => loadD_memOk.bind fun _ => (Keeps.needN _ _ _).bind fun _ =>
    Keeps.pure _) fun _ => Keeps.get.bind fun _ => asidEntry_memOk.bind fun _ => loadD_memOk.bind fun _ => (Keeps.needN _ _ _).bind fun _ =>
    loadD_memOk.bind fun _ => scalarLoc_memOk.bind fun _ => drainFor_memOk.bind fun _ => scalarWrite_memOk.bind fun _ => Keeps.pure _) h

theorem execFetchCause_memOk {c : FetchCause} {addr : BitVec 64} (h : s.MemOk) : OutOk (execFetchCause c addr s) :=
  scalar_memOk (getMe_memOk.bind fun _ => (Keeps.waitUnless _).bind fun _ => modMe_memOk.bind fun _ => Keeps.trapV _ _) h

theorem needByteEntry_memOk {l : Lane} : Keeps State.MemOk (needByteEntry l) := needVtypeEntry_memOk.bind fun _ => (Keeps.needU _ _).bind fun _ => Keeps.pure _

theorem peerRead_memOk {l : Lane} {va n : Nat} : Keeps State.MemOk (peerRead l va n) := by
  unfold peerRead
  refine Keeps.get.bind fun _ => ?_
  extract_lets _ _
  refine (Keeps.attempt elemLoc_memOk).bind fun _ => ?_
  split
  · exact Keeps.ite (fun _ => Keeps.trapN _ _) fun _ => Keeps.throw _
  · split
    · exact Keeps.trapN _ _
    · refine (Keeps.attempt laneRead_memOk).bind fun _ => ?_
      split
      · exact Keeps.ite (fun _ => Keeps.trapN _ _) fun _ => Keeps.throw _
      · exact Keeps.pure _

theorem noteGather_memOk {l : Lane} {v : Fin 32} {old : VReg} {es : List Nat} {addr : Nat → Nat} : Keeps State.MemOk (noteGather l v old es addr) :=
  Keeps.get.bind fun _ => modMe_memOk

theorem gatherRun_memOk {f : VS} {peer : Bool} {l : Lane} : Keeps State.MemOk (gatherRun f peer l) :=
  needByteEntry_memOk.bind fun _ => activeMask_memOk.bind fun _ => decodeSource_memOk.bind fun _ => decodeDest_memOk.bind fun _ =>
    Keeps.ite (fun _ => clearVstart_memOk) fun _ => getMe_memOk.bind fun _ => Keeps.bind (loadRun_memOk (fun _ =>
    Keeps.ite (fun _ => peerRead_memOk.bind fun _ => Keeps.pure _) fun _ => elemLoc_memOk.bind fun _ => laneRead_memOk.bind fun _ => Keeps.pure _) fun _ =>
    Keeps.pure ()) fun _ => Keeps.get.bind fun _ => Keeps.ite (fun _ => noteGather_memOk) fun _ => Keeps.pure ()

theorem laneVscat_memOk {f : VS} {l : Lane} : Keeps State.MemOk (laneVscat f l) :=
  needByteEntry_memOk.bind fun _ => activeMask_memOk.bind fun _ => decodeSource_memOk.bind fun _ => decodeDest_memOk.bind fun _ =>
    Keeps.ite (fun _ => clearVstart_memOk) fun _ => getMe_memOk.bind fun _ => storeRun_memOk (fun _ => elemLoc_memOk.bind fun _ => locWrite_memOk) (Keeps.pure ())

theorem tableSpot_memOk {n : Nat} {idx : View} {e : Nat} : Keeps State.MemOk (tableSpot n idx e) := (Keeps.needN _ _ _).bind fun _ => Keeps.pure _
theorem needTable_memOk {a n : Nat} : Keeps State.MemOk (needTable a n) := Keeps.get.bind fun _ => Keeps.ite (fun _ => Keeps.throw _) fun _ => Keeps.pure ()
theorem readTable_memOk {a n : Nat} : Keeps State.MemOk (readTable a n) := needTable_memOk.bind fun _ => getCore_memOk.bind fun _ => Keeps.pure _

theorem writeTable_memOk {a n v : Nat} : Keeps State.MemOk (writeTable a n v) :=
  needTable_memOk.bind fun _ => modCore_memOk fun _ hk => hk.of_lanes (memWrite_wf hk.2 _ _ _) rfl

theorem laneVltld_memOk {f : VU} {l : Lane} : Keeps State.MemOk (laneVltld f l) :=
  needByteEntry_memOk.bind fun _ => activeMask_memOk.bind fun _ => decodeSource_memOk.bind fun _ => decodeDest_memOk.bind fun _ =>
    Keeps.ite (fun _ => clearVstart_memOk) fun _ => getMe_memOk.bind fun _ => loadRun_memOk (fun _ => tableSpot_memOk.bind fun _ => readTable_memOk.bind fun _ =>
    Keeps.pure _) fun _ => Keeps.pure ()

theorem tableRun_memOk {f : VU} {put : Fmt → Nat → Nat → M Nat} {l : Lane} (h : ∀ a a1 a2, Keeps State.MemOk (put a a1 a2)) : Keeps State.MemOk (tableRun f put l) :=
  needByteEntry_memOk.bind fun _ => activeMask_memOk.bind fun _ => decodeSource_memOk.bind fun _ => decodeDest_memOk.bind fun _ =>
    Keeps.ite (fun _ => clearVstart_memOk) fun _ => getMe_memOk.bind fun _ => storeRun_memOk (fun _ => tableSpot_memOk.bind fun _ => readTable_memOk.bind fun _ =>
    (h _ _ _).bind fun _ => writeTable_memOk) (Keeps.pure ())

theorem tableAdd_memOk {rmo : BitVec 3} {k : Fmt} {old d : Nat} : Keeps State.MemOk (tableAdd rmo k old d) :=
  Keeps.ite (fun _ => Keeps.pure _) fun _ => getMe_memOk.bind fun _ => modMe_memOk.bind fun _ => Keeps.pure _

theorem vamoRun_memOk {f : VS} {second : Bool} {new : Fmt → Nat → Nat → Nat → Option Nat} {l : Lane} : Keeps State.MemOk (vamoRun f second new l) := by
  unfold vamoRun
  refine needVtypeEntry_memOk.bind fun _ => needKind_memOk.bind fun _ => activeMask_memOk.bind fun _ => decodeSource_memOk.bind fun _ =>
    decodeDest_memOk.bind fun _ => ?_
  extract_lets _ jp
  have hjp : ∀ x, Keeps State.MemOk (jp x) := by
    intro x
    simp only [jp]
    split
    · exact clearVstart_memOk
    · refine getMe_memOk.bind fun _ => loadRun_memOk ?_ fun _ => Keeps.pure ()
      intro a6
      refine elemLoc_memOk.bind fun _ => laneRead_memOk.bind fun _ => ?_
      split
      · exact locPut_memOk.bind fun _ => Keeps.pure _
      · exact Keeps.pure _
  exact Keeps.ite (fun _ => decodeSource_memOk.bind hjp) fun _ => hjp ()

theorem laneVamoadd_memOk {f : VS} {a : Lane} : Keeps State.MemOk (laneVamoadd f a) := vamoRun_memOk
theorem laneVamomax_memOk {f : VS} {a : Lane} : Keeps State.MemOk (laneVamomax f a) := vamoRun_memOk
theorem laneVamocas_memOk {f : VS} {a : Lane} : Keeps State.MemOk (laneVamocas f a) := vamoRun_memOk

theorem asCtx_memOk {c : CtxId} {x : State → Out} (hx : ∀ t, t.MemOk → OutOk (x t)) (h : s.MemOk) : OutOk (asCtx c x s) := by
  have ht := hx { s with cur := c } h
  unfold asCtx
  split
  next e => rw [e] at ht; exact ht
  next => trivial
  next => trivial

theorem laneBody_memOk {i : Instr} {l : Lane} : Keeps State.MemOk (laneBody i l) := by
  cases i with
  | vadd | vsub | vmul | vmulh | vmacc | vand | vor | vxor | vsll | vsrl | vsra | vmin | vmax | vsadd | vssub => exact variRun_memOk
  | vzsub => exact vzRun_memOk
  | vfadd | vfsub | vfmul | vfma | vfnms | vfdiv | vfsqrt | vfmin | vfmax | vfabs | vfneg | vfrec | vfrsq | vfexp2 => exact vfpRun_memOk
  | vidx => exact laneVidx_memOk
  | vceq | vcne | vclt | vcle | vcltu | vfceq | vfclt | vfcle | vfcun | vband => exact cmpRun_memOk
  | mand | mor | mxor | mnot => exact maskLogic_memOk
  | mpop => exact laneMpop_memOk
  | mfirst => exact laneMfirst_memOk
  | vcvt => exact laneVcvt_memOk
  | vqnt | vdqnt => exact needVtypeEntry_memOk.bind fun _ => needKind_memOk.bind fun _ => (Keeps.needU _ _).bind fun _ => elementWise_memOk
  | vamax => exact laneVamax_memOk
  | vscl => exact needEntry_memOk.bind fun _ => Keeps.get.bind fun _ => clearVstart_memOk.bind fun _ => landS_memOk
  | vunpk => exact laneVunpk_memOk
  | vpack => exact laneVpack_memOk
  | vencr => exact laneVencr_memOk
  | vencd => exact laneVencd_memOk
  | venct => exact laneVenct_memOk
  | vdec => exact laneVdec_memOk
  | vrenc => exact laneVrenc_memOk
  | vencq => exact laneVencq_memOk
  | vdictExtract => exact laneVdictExtract_memOk
  | vdictReplace => exact laneVdictReplace_memOk
  | vslup => exact laneVslup_memOk
  | vsldn => exact laneVsldn_memOk
  | vcomp => exact laneVcomp_memOk
  | vexpd => exact laneVexpd_memOk
  | vbpfx => exact laneVbpfx_memOk
  | vbrd => exact needVtypeEntry_memOk.bind fun _ => elementWise_memOk
  | viota => exact laneViota_memOk
  | vreds => exact laneVreds_memOk
  | vredmx | vredmn => exact extremeRun_memOk
  | vfreds => exact laneVfreds_memOk
  | vmvs => exact laneVmvs_memOk
  | vgath | vgathp => exact gatherRun_memOk
  | vscat => exact laneVscat_memOk
  | vltld => exact laneVltld_memOk
  | vltst => exact tableRun_memOk fun _ _ _ => Keeps.pure _
  | vltadd => exact tableRun_memOk fun _ _ _ => tableAdd_memOk
  | vamoadd => exact laneVamoadd_memOk
  | vamomax => exact laneVamomax_memOk
  | vamocas => exact laneVamocas_memOk
  | vld => exact laneVld_memOk
  | vldb => exact laneVldb_memOk
  | vldseg => exact laneVldseg_memOk
  | vst => exact laneVst_memOk
  | vstseg => exact laneVstseg_memOk
  | vlde => exact laneVlde_memOk
  | vste => exact laneVste_memOk
  | vspl => exact laneVspl_memOk
  | vfil => exact laneVfil_memOk
  | mclaim => exact laneMclaim_memOk (x := l)
  | mrel => exact laneMrel_memOk (x := l)
  | mld => exact laneMld_memOk
  | mlds => exact laneMlds_memOk
  | mzero => exact Keeps.get.bind fun _ => arrayRun_memOk tileBase_memOk fun _ => zeroEffect_memOk
  | mma | mmas | mslide => exact productRun_memOk
  | mprom => exact laneMprom_memOk (x := l)
  | maccrd => exact laneMaccrd_memOk
  | maccwr => exact laneMaccwr_memOk
  | _ => exact Keeps.pure _

theorem runWith_memOk {e : QEntry} (h : s.MemOk) : OutOk (runWith e s) := runHead_memOk (onHead_memOk fun _ => laneBody_memOk) (h.foldl fun _ _ h1 => h1.useSlab)

theorem admitHead_memOk (h : s.MemOk) : OutOk (admitHead s) := by
  unfold admitHead
  extract_lets s1 _
  have hs1 : s1.MemOk := h.settleRels
  split
  · exact hs1
  · split
    · exact hs1
    · split
      · split
        · exact hs1.laneHold
        · split
          · exact runWith_memOk hs1
          · exact hs1.laneHold
      · exact runWith_memOk hs1

theorem execLaneGroupRetention_memOk {c : CtxId} {g : Fin 4} (h : s.MemOk) : OutOk (execLaneGroupRetention c g s) :=
  event_memOk (Keeps.modify fun _ h1 => State.MemOk.ite (State.MemOk.modCtx (h1.modCore fun _ h2 => h2)) h1) h

theorem execValueLands_memOk {c : CtxId} {i : Nat} (h : s.MemOk) : OutOk (execValueLands c i s) :=
  event_memOk (Keeps.modify fun _ h1 => State.MemOk.ite h1.landScalar (State.MemOk.ite h1.landVector h1)) h

theorem execPeerGatherReturn_memOk {c : CtxId} {m : Nat} (h : s.MemOk) : OutOk (execPeerGatherReturn c m s) := by
  unfold execPeerGatherReturn
  refine event_memOk ?_ h
  refine Keeps.modify ?_
  intro s1 h1
  split
  · exact h1
  · exact State.MemOk.ite h1.modCtx.landVector h1.modCtx

theorem preparePage_memOk {w : Who} {acc : Acc} {r : QReg} {page : Nat} : Keeps State.MemOk (preparePage w acc r page) := by
  unfold preparePage
  extract_lets _ _
  split
  · exact Keeps.pure _
  · refine Keeps.get.bind fun _ => (Keeps.attempt walkVa_memOk).bind fun _ => ?_
    split
    · exact Keeps.ite (fun _ => Keeps.pure _) fun _ => Keeps.pure _
    · exact Keeps.pure _

theorem execStreamWalkAhead_memOk {c : CtxId} {q : Fin 16} (h : s.MemOk) : OutOk (execStreamWalkAhead c q s) :=
  event_memOk (Keeps.ite (fun _ => Keeps.bind (Keeps.foldM' _ _ fun _ _ => preparePage_memOk) fun _ => Keeps.modify fun _ h1 => h1.modCtx) fun _ => Keeps.pure ()) h

theorem followRun_memOk {c : CtxId} {k : TugCmd} : Keeps State.MemOk (followRun c k) := by
  unfold followRun
  extract_lets _ prod
  have hprod : ∀ fn1 f1, Keeps State.MemOk (prod fn1 f1) := fun _ _ => productPlan_memOk.bind fun _ => productEffect_memOk
  split
  · exact hprod _ _
  · exact hprod _ _
  · exact hprod _ _
  · exact promoteCheck_memOk.bind fun _ => promoteEffect_memOk
  · exact Keeps.pure ()
  · exact Keeps.pure ()

theorem onTiles_memOk {c : CtxId} {x : M Unit} (hx : Keeps State.MemOk x) : Keeps State.MemOk (onTiles c x) := by
  unfold onTiles
  refine Keeps.get_bind fun s h => ?_
  split
  next => exact hx
  next l hl =>
    obtain ⟨htiles, himage⟩ := h.displaced l (List.mem_of_find?_eq_some hl)
    extract_lets k lo n
    have hk : k.MemOk := h.core
    have hput : (s.modCore c.core.val fun k => { k with pool := putTiles k.pool k.part c.lc.val l.tiles }).MemOk :=
      h.modCore fun _ hz => ⟨putTiles_wf hz.1 htiles _ _, hz.2⟩
    refine (Keeps.set hput).bind fun _ => hx.bind fun _ => Keeps.modify fun t ht => ?_
    have hback : (t.modCore c.core.val fun z => { z with pool := putTiles z.pool z.part c.lc.val (memSlice k.pool lo n 0) }).MemOk :=
      ht.modCore fun _ hz => ⟨putTiles_wf hz.1 (memSlice_wf hk.1 _ _ _) _ _, hz.2⟩
    refine hback.of_lent (fun m hm => ?_) rfl
    obtain ⟨m, hmem, rfl⟩ := List.mem_map.mp hm
    split
    · exact ⟨memSlice_wf ht.core.1 _ _ _, himage⟩
    · exact ht.displaced m hmem

theorem tryFollow_memOk {core : Fin 1024} {e : Nat × Nat} : Keeps State.MemOk (tryFollow core e) := by
  unfold tryFollow
  refine Keeps.get_bind fun s h => ?_
  split
  · exact Keeps.pure _
  · split
    · exact Keeps.pure _
    · split
      · exact Keeps.pure _
      · extract_lets taken jp
        have htaken : Keeps State.MemOk taken := Keeps.modify fun _ h1 => h1.modTug.modCore fun _ h2 => h2
        have hjp : ∀ x, Keeps State.MemOk (jp x) := fun _ => Keeps.pure _
        refine (Keeps.attempt (onTiles_memOk followRun_memOk)).bind fun _ => ?_
        split
        · exact arrayTake_memOk.bind fun _ => htaken.bind hjp
        · exact (Keeps.set h).bind fun _ => Keeps.pure _
        · refine (Keeps.set h).bind fun _ => arrayTrap_memOk.bind fun _ => htaken.bind fun _ => Keeps.get_bind fun s1 h1 => ?_
          split
          · exact (Keeps.set h1.tugReport).bind hjp
          · exact hjp ()

theorem tryFollows_memOk {core : Fin 1024} {l : List (Nat × Nat)} : Keeps State.MemOk (tryFollows core l) := by
  induction l generalizing core with
  | nil =>
    rw [tryFollows]
    exact Keeps.pure _
  | cons a l ih =>
    rw [tryFollows]
    exact tryFollow_memOk.bind fun _ => Keeps.ite (fun _ => Keeps.pure _) fun _ => ih

theorem execArrayAccept_memOk {core : Fin 1024} (h : s.MemOk) : OutOk (execArrayAccept core s) := by
  unfold execArrayAccept
  split
  next e => exact tryFollows_memOk.error h e
  next e => exact tryFollows_memOk.ok h e
  next t e =>
    have ht : t.MemOk := tryFollows_memOk.ok h e
    split
    · exact ht
    · refine asCtx_memOk (fun u hu => ?_) ht
      split
      · exact runHead_memOk (onHead_memOk fun _ => laneBody_memOk) hu
      · exact hu

theorem releaseOf_memOk {i : Instr} (h : s.MemOk) : OutOk (releaseOf i s) := by
  unfold releaseOf
  split
  · exact execTlwait_memOk h
  · exact execDrawait_memOk h
  · exact execBarw_memOk h
  · exact execAcq_memOk h
  · exact execTagwany_memOk h
  · exact execTagwall_memOk h
  · exact execFence_memOk h
  · exact execNdone_memOk h
  · exact h.modMe

theorem execWaitRelease_memOk {c : CtxId} (h : s.MemOk) : OutOk (execWaitRelease c s) := by
  unfold execWaitRelease
  split
  · refine asCtx_memOk (fun t ht => ?_) h
    have hd := fetchDecode_memOk ht
    split
    next e => rw [e] at hd; exact releaseOf_memOk hd
    next e => rw [e] at hd; exact hd
    next => exact ht
  · exact h

end Sys2Proof.Machine
end

section
/-! PROOF. Every step keeps the canonical form of every byte memory (O60): control, admission, the die scheduler and entries. -/

namespace Sys2Proof.Machine

variable {s : State}

theorem State.MemOk.codeHashEnd {die : Fin 8} {asid : BitVec 16} {va : Nat} (h : s.MemOk) : (codeHashEnd s die asid va).MemOk := by
  unfold Machine.codeHashEnd
  extract_lets _ _
  split
  · exact h.raise
  · split
    · exact h.report.endDomain
    · exact h

theorem State.MemOk.fillPage {die : Fin 8} {asid : BitVec 16} {a : Nat} (h : s.MemOk) : (fillPage die asid a s).MemOk := by
  -- Unfolded as a function, not at its arguments: there the kernel would run `walkVa` to compare the two sides.
  suffices key : ∀ f, f = @Machine.fillPage → (f die asid a s).MemOk from key _ rfl
  intro f hf
  delta Machine.fillPage at hf
  subst hf
  beta_reduce
  extract_lets w fill
  have hfill : Keeps State.MemOk fill :=
    walkVa_memOk.bind fun _ => Keeps.get.bind fun _ => Keeps.ite (fun _ => fillCode_memOk.discard) fun _ => Keeps.pure _
  clear_value fill
  split
  next e => exact hfill.ok h e
  next e => exact (hfill.error h e).codeHashEnd
  next e => exact hfill.error h e

theorem State.MemOk.dropSpan {q : Inval} (h : s.MemOk) : (dropSpan s q).MemOk := by
  unfold Machine.dropSpan
  extract_lets keep s1
  have h1 : s1.MemOk := h.foldl fun _ _ h => h.modCtx
  refine h1.of_cores (fun e he => ?_) rfl
  obtain ⟨e, hm, rfl⟩ := List.mem_map.mp he
  exact h1.listed e hm

theorem landAll_memOk {t : TugId} {n n1 : Nat} : Keeps State.MemOk (landAll t n n1) := by
  induction n1 generalizing t n with
  | zero =>
    rw [landAll]
    exact Keeps.pure ()
  | succ m ih =>
    rw [landAll]
    refine Keeps.get.bind fun _ => ?_
    split
    · exact Keeps.ite (fun _ => nextBeat_memOk.bind fun _ => ih) fun _ => Keeps.pure ()
    · exact Keeps.pure ()

theorem landCommands_memOk {q : Inval} : Keeps State.MemOk (landCommands q) :=
  Keeps.get.bind fun _ => Keeps.forM' _ fun _ => Keeps.forM' _ fun _ => Keeps.ite (fun _ => landAll_memOk) fun _ => Keeps.pure ()

theorem execInvalidationRequest_memOk {pa : Nat} (h : s.MemOk) : OutOk (execInvalidationRequest pa s) := by
  unfold execInvalidationRequest
  refine event_memOk (Keeps.get.bind fun s => Keeps.ite (fun _ => ?_) fun _ => Keeps.pure _) h
  have hdone : ∀ v, Keeps State.MemOk (modify fun s => ownWrite { s with invals := s.invals.tail } (pa + 0x10) 8 v : M Unit) :=
    fun v => Keeps.modify fun t ht => State.MemOk.ownWrite (s := { t with invals := t.invals.tail }) ht
  split
  · exact hdone 2
  · refine (Keeps.modify fun _ h => h.dropSpan).bind fun _ => landCommands_memOk.bind fun _ => Keeps.get.bind fun _ => ?_
    exact Keeps.ite (fun _ => Keeps.pure _) fun _ => hdone 1

theorem State.MemOk.putArea {c : CtxId} {fs : List (Nat × Nat × Nat)} (h : s.MemOk) : (putArea s c fs).MemOk :=
  h.modCore fun _ hk => hk.of_pool (foldl_wf (fun _ _ hm => putNum_wf hm _) hk.1 _) rfl

theorem State.MemOk.writeBack {c : CtxId} (h : s.MemOk) : (writeBack s c).MemOk := h.putArea
theorem State.MemOk.withHead {e e' : QEntry} (h : s.MemOk) : (withHead e e' s).MemOk := h.modMe

theorem State.MemOk.splitHead {c : CtxId} (h : s.MemOk) : (splitHead s c).MemOk := by
  unfold Machine.splitHead
  extract_lets s0
  have h0 : s0.MemOk := h
  clear_value s0
  split
  · exact h
  · extract_lets e' w k s1
    have h1 : s1.MemOk := (h0.foldl fun _ _ h => h.useSlab).withHead
    clear_value s1
    split
    · exact h
    · split
      next e => exact (laneBody_memOk.ok h1 e).laneRetire.same rfl
      next e => exact (laneBody_memOk.error h1 e).same rfl
      next => exact h

theorem State.MemOk.stopGather {c : CtxId} (h : s.MemOk) : (stopGather s c).MemOk := by
  unfold Machine.stopGather
  split
  · exact h
  next g _ =>
    split
    · exact h
    · extract_lets w low k dst _ _ finish back
      have hback : Keeps State.MemOk back := by
        refine getMe_memOk.bind fun _ => activeMask_memOk.bind fun _ => modMe_memOk.bind fun _ => ?_
        exact Keeps.ite (fun _ => loadWrite_memOk.bind fun _ => setVstart_memOk) fun _ => setVstart_memOk
      clear_value back
      have h0 : State.MemOk { s with cur := c, late := false } := h
      split
      next e => exact (hback.ok h0 e).same rfl
      next => exact h

theorem State.MemOk.preempt {c : CtxId} (h : s.MemOk) : (preempt s c).MemOk :=
  (((((State.MemOk.ite h.leaveWait.performStores.stopGather.landCtx.splitHead h.leaveWait.performStores.stopGather.landCtx).settleRels).wakeAll).modCtx).writeBack).modCtx

theorem State.MemOk.writeArea {c : CtxId} (h : s.MemOk) : (writeArea s c).MemOk := by
  unfold Machine.writeArea
  extract_lets a x t
  have ht : t.MemOk := h.putArea.modCore fun _ hk => hk
  exact State.MemOk.ite ht (ht.same rfl)

theorem State.MemOk.writeImage {img : Nat} {m : Memory} (hm : memWf m = true) (h : s.MemOk) : (writeImage s img m).MemOk := by
  unfold Machine.writeImage
  split
  · have ht : State.MemOk { s with mem := memReplace s.mem img imageSize (memSlice m 0 imageSize img), poison := unpoison s.poison img imageSize } :=
      h.of_mem (memReplace_slice_wf h.main hm _ _ _) rfl
    exact ht.ite (ht.foldl fun _ _ h => h.sendTo)
  · exact h.foldl fun _ _ h => h.ownWrite

theorem State.MemOk.leaveCore {c : CtxId} (h : s.MemOk) : (leaveCore s c).MemOk := by
  unfold Machine.leaveCore
  refine State.MemOk.modCtx (h.dropBinds.modCore fun _ hk => ?_)
  exact (hk.freeSlots (lc := c.lc)).dropRings (lc := c.lc)

theorem State.MemOk.moveOut {c : CtxId} {img : Nat} (h : s.MemOk) : (moveOut s c img).MemOk := by
  unfold Machine.moveOut
  extract_lets s1 cmds s2 binds s3 s4
  have h2 : s2.MemOk := h.preempt.quiesceCtx.settleRels
  have h3 : s3.MemOk := h2.ite h2.flushLines
  have h4 : s4.MemOk := h3.writeArea
  exact (h4.writeImage (buildImage_wf h4 (imageOf_wf h4 _) _ _)).leaveCore

theorem State.MemOk.loadSaved {c : CtxId} {m : Memory} {lazy hold : Bool} (hm : memWf m = true) (h : s.MemOk) : (loadSaved s c m lazy hold).MemOk := by
  unfold Machine.loadSaved
  extract_lets word alone x s1 from' s2 s3 s4
  have h1 : s1.MemOk := State.MemOk.ite (h.modCore fun _ hk => hk.prepare) h
  have h2 : s2.MemOk := by
    refine h1.modCore fun k hk => hk.of_pool ?_ rfl
    have harea := memReplace_slice_wf hk.1 hm from' (131072 - from') (areaBase k.part c.lc.val + from')
    exact ite_wf (memReplace_slice_wf harea hm _ _ _) harea
  have h3 : s3.MemOk := h2.foldl fun _ _ h => State.MemOk.ite h.modRing h
  have h4 : s4.MemOk := h3.flushLines.setCtx
  split
  · exact h4.modNode
  · exact h4

theorem controlStep_memOk {op pa : Nat} {act : State → CtlReq → Option State} (hact : ∀ t r u, t.MemOk → act t r = some u → u.MemOk) (h : s.MemOk) :
    OutOk (controlStep op pa act s) := by
  have h0 : State.MemOk { s with ctrls := s.ctrls.tail } := h
  unfold controlStep
  split
  · simp only
    split
    · exact h0.ownWrite
    · split
      next e => exact (hact _ _ _ h0 e).ownWrite
      next => exact h0.ownWrite
  · exact h

theorem execPark_memOk {pa : Nat} (h : s.MemOk) : OutOk (execPark pa s) := by
  refine controlStep_memOk (fun t r u ht e => ?_) h
  split at e
  · cases e
    exact ht.preempt.modCtx
  · cases e

theorem execMoveout_memOk {pa : Nat} (h : s.MemOk) : OutOk (execMoveout pa s) := by
  refine controlStep_memOk (fun t r u ht e => ?_) h
  split at e
  · cases e
    exact ht.moveOut
  · cases e

theorem execResume_memOk {pa : Nat} (h : s.MemOk) : OutOk (execResume pa s) := by
  refine controlStep_memOk (fun t r u ht e => ?_) h
  split at e
  · split at e <;> cases e <;> exact ht.modCtx
  · simp only at e
    split at e
    · obtain rfl := Option.some.inj e
      exact ht.loadSaved (imageOf_wf ht _)
    · cases e

theorem execKill_memOk {pa : Nat} (h : s.MemOk) : OutOk (execKill pa s) := by
  refine controlStep_memOk (fun t r u ht e => ?_) h
  split at e
  · cases e
    exact ht.killCtx
  · cases e

theorem schedRead_memOk {asid : BitVec 16} {a n : Nat} : Keeps State.MemOk (schedRead asid a n) := by
  unfold schedRead
  extract_lets _
  refine Keeps.bind ?_ fun a1 => ?_
  · refine Keeps.mapM' _ ?_
    intro a1
    refine (Keeps.needN _ _ _).bind fun _ => translate_memOk.bind fun _ => Keeps.get.bind fun _ => ?_
    extract_lets jp
    have hjp : ∀ x, Keeps State.MemOk (jp x) := fun _ => physRead_memOk.bind fun _ => Keeps.pure _
    exact Keeps.ite (fun _ => (Keeps.throw _).bind hjp) fun _ => hjp ()
  · exact Keeps.pure _

theorem tryRead_memOk {asid : BitVec 16} {a n : Nat} : Keeps State.MemOk (tryRead asid a n) := by
  unfold tryRead
  refine (Keeps.attempt schedRead_memOk).bind fun _ => ?_
  split <;> exact Keeps.pure _

theorem readSuccs_memOk {asid : BitVec 16} {d : BitVec 1024} : Keeps State.MemOk (readSuccs asid d) := by
  unfold readSuccs
  split
  · exact Keeps.pure _
  · split
    · exact Keeps.pure _
    · refine tryRead_memOk.bind fun _ => ?_
      split <;> exact Keeps.pure _

theorem readTraffic_memOk {asid : BitVec 16} {d : BitVec 1024} : Keeps State.MemOk (readTraffic asid d) := by
  unfold readTraffic
  split
  · exact Keeps.pure _
  · refine Keeps.foldM' _ _ ?_
    intro b a
    split
    · exact Keeps.pure _
    · refine tryRead_memOk.bind fun _ => ?_
      split <;> exact Keeps.pure _

theorem allM_memOk {α β : Type} {f : α → M (Option β)} {l : List α} (hf : ∀ a, Keeps State.MemOk (f a)) : Keeps State.MemOk (allM f l) := by
  induction l with
  | nil => exact Keeps.pure _
  | cons a l ih =>
    rw [allM]
    refine (hf a).bind fun b => ?_
    split
    · exact Keeps.pure _
    · refine ih.bind fun bs => ?_
      split <;> exact Keeps.pure _

theorem checkGraph_memOk {asid : BitVec 16} {hdr : BitVec 512} : Keeps State.MemOk (checkGraph asid hdr) := by
  unfold checkGraph
  refine Keeps.get.bind fun _ => ?_
  extract_lets _ _ _
  split
  · exact Keeps.pure _
  · split
    · exact Keeps.pure _
    · refine Keeps.bind (allM_memOk fun _ => tryRead_memOk) fun a => ?_
      split
      · exact Keeps.pure _
      · extract_lets _
        refine Keeps.bind (allM_memOk fun _ => readSuccs_memOk) fun a => ?_
        split
        · exact Keeps.pure _
        · extract_lets _ _
          split
          · exact Keeps.pure _
          · split
            · exact Keeps.pure _
            · split
              · exact Keeps.pure _
              · split
                · exact Keeps.pure _
                · split
                  · exact Keeps.pure _
                  · split
                    · exact Keeps.pure _
                    · split
                      · exact Keeps.pure _
                      · refine Keeps.bind ?_ fun a => ?_
                        · refine allM_memOk ?_
                          intro a
                          split
                          · refine readTraffic_memOk.bind fun _ => ?_
                            split <;> exact Keeps.pure _
                          · exact Keeps.pure _
                        · split <;> exact Keeps.pure _

theorem addGraph_memOk {g : Graph} (h : s.MemOk) : (addGraph s g).1.MemOk := h

theorem State.MemOk.enqueueReady {g : Nat} (h : s.MemOk) : (enqueueReady s g).MemOk := by
  unfold Machine.enqueueReady
  split
  · exact h
  · refine h.foldl ?_
    intro t a h1
    split
    · exact State.MemOk.ite h1.enqueueNode h1
    · exact h1

theorem State.MemOk.acceptGraph {head : CmdHead} {asid : BitVec 16} {hd : BitVec 512} {nodes : List GNode} (h : s.MemOk) :
    (acceptGraph s head asid hd nodes).MemOk :=
  State.MemOk.ite (addGraph_memOk h) (State.MemOk.enqueueReady (addGraph_memOk h))

theorem execSubmit_memOk {hdr : CmdHead} {asid : BitVec 16} {va : BitVec 64} (h : s.MemOk) : OutOk (execSubmit hdr asid va s) := by
  unfold execSubmit
  refine event_memOk ?_ h
  extract_lets jp
  have hjp : ∀ x, Keeps State.MemOk (jp x) := by
    intro x
    simp only [jp]
    split
    · exact Keeps.modify fun _ h1 => h1.pushRecord
    · refine checkGraph_memOk.bind fun _ => ?_
      split
      · exact Keeps.modify fun _ h1 => h1.pushRecord
      · exact Keeps.modify fun _ h1 => h1.acceptGraph
  exact Keeps.ite (fun _ => tryRead_memOk.bind hjp) fun _ => (Keeps.pure _).bind hjp

theorem checkSpawn_memOk {a : Word} : Keeps State.MemOk (checkSpawn a) := by
  unfold checkSpawn
  refine (Keeps.needN _ _ _).bind fun _ => (Keeps.attempt readWords_memOk).bind fun _ => ?_
  split
  · exact waitM_memOk
  · exact Keeps.trapN _ _
  · extract_lets _ jp
    have hjp : ∀ x, Keeps State.MemOk (jp x) := fun _ => Keeps.pure _
    refine Keeps.get.bind fun _ => (Keeps.needN _ _ _).bind fun _ => (Keeps.needN _ _ _).bind fun _ => (Keeps.needN _ _ _).bind fun _ =>
      (Keeps.needN _ _ _).bind fun _ => ?_
    split
    · exact (Keeps.needN _ _ _).bind hjp
    · exact hjp ()

theorem execSpawn_memOk {f : A2} (h : s.MemOk) : OutOk (execSpawn f s) := by
  unfold execSpawn
  refine scalar_memOk (readS_memOk.bind fun _ => awaitS_memOk.bind fun _ => awaitQual_memOk.bind fun _ => checkSpawn_memOk.bind fun _ => Keeps.get_bind fun _ h1 =>
    ?_) h
  refine (Keeps.set (State.MemOk.enqueueReady ?_)).bind fun _ => writeS_memOk
  exact h1

theorem execAdmission_memOk {g : Nat} (h : s.MemOk) : OutOk (execAdmission g s) := by
  unfold execAdmission
  refine event_memOk ?_ h
  refine Keeps.modify ?_
  intro s1 h1
  split
  · exact h1
  · split
    · exact h1
    · extract_lets _ _ _ refused
      have hrefused : refused.MemOk := h1.endGraph
      split
      · exact hrefused
      · extract_lets _
        split
        · exact hrefused
        · exact State.MemOk.ite h1.modGraph.enqueueReady.writeHelds hrefused

theorem State.MemOk.saddlerReport {fdom : Nat} {c : Cause} {disp : Disp} {u : FenceUnit} {gtag aux : Word} (h : s.MemOk) :
    (saddlerReport s fdom c disp u gtag aux).MemOk :=
  h.report

theorem State.MemOk.breach {g : Nat} {u : FenceUnit} (h : s.MemOk) : (breach s g u).MemOk := by
  unfold Machine.breach
  split
  · exact h
  · exact h.pushRecord.saddlerReport.modGraph.settleGraph

theorem State.MemOk.replan {g : Nat} {gone : RUnit → Bool} {u : FenceUnit} (h : s.MemOk) : (replan s g gone u).MemOk := by
  unfold Machine.replan
  split
  · exact h
  · split
    · exact h
    · extract_lets _ _ _ s1
      have hs1 : s1.MemOk := h.modGraph
      split
      · exact hs1.breach.writeHelds
      · exact State.MemOk.ite hs1.modGraph hs1.modGraph.breach

theorem State.MemOk.replanAll {p : Graph → Bool} {gone : RUnit → Bool} {u : FenceUnit} (h : s.MemOk) : (replanAll s p gone u).MemOk :=
  h.foldl fun _ _ h1 => h1.replan

theorem execBoundOverrun_memOk {g node : Nat} (h : s.MemOk) : OutOk (execBoundOverrun g node s) := by
  unfold execBoundOverrun
  refine event_memOk ?_ h
  refine Keeps.modify ?_
  intro s1 h1
  split
  · extract_lets _ s11 s2
    have hs11 : s11.MemOk := h1.saddlerReport
    have hs2 : s2.MemOk := hs11.modNode
    split
    · exact h1
    · split
      · exact h1
      · split
        · exact State.MemOk.ite hs2 hs2.breach
        · exact hs2
  · exact h1

theorem execDeadlineWatch_memOk {g : Nat} (h : s.MemOk) : OutOk (execDeadlineWatch g s) := by
  refine event_memOk (Keeps.modify fun s h => ?_) h
  split
  · exact h
  · split
    · exact h
    · simp only
      split
      · exact h
      · split
        · exact h.breach
        · exact h

theorem State.MemOk.ageDie {die : Nat} (h : s.MemOk) : (ageDie s die).MemOk := h.foldl fun _ _ h1 => h1.modNode
theorem State.MemOk.holdDie {die : Nat} (h : s.MemOk) : (holdDie s die).MemOk := h.foldl fun _ _ h1 => h1.modNode

theorem State.MemOk.moveWork {a b : CtxId} (h : s.MemOk) : (moveWork s a b).MemOk := by
  unfold Machine.moveWork
  extract_lets x s1 s2
  have h1 : s1.MemOk := h.modCore fun _ hk => ⟨hk.1, hk.2⟩
  have h2 : s2.MemOk := h1.same rfl
  exact h2.setCtx.setCtx

theorem State.MemOk.lendHere {c : CtxId} (h : s.MemOk) : (lendHere s c).MemOk := by
  unfold Machine.lendHere
  extract_lets s1 s2 was s3 k l
  have h2 : s2.MemOk := h.preempt.ite h.preempt.flushLines
  have h3 : s3.MemOk := h2.modCtx
  have hl : memWf l.tiles = true ∧ memWf l.image = true := ⟨memSlice_wf h3.core.1 _ _ _, rfl⟩
  clear_value l
  exact State.MemOk.moveWork (h3.lentAdded hl)

theorem State.MemOk.lendOut {c : CtxId} (h : s.MemOk) : (lendOut s c).MemOk := by
  unfold Machine.lendOut
  extract_lets s1 cmds s2 s3 s4 l
  have h2 : s2.MemOk := h.preempt.quiesceCtx
  have h3 : s3.MemOk := h2.ite h2.flushLines
  have h4 : s4.MemOk := h3.writeArea
  have himage : memWf (buildImage s4 c cmds []) = true := buildImage_wf h4 rfl _ _
  have hl : memWf l.tiles = true ∧ memWf l.image = true := by
    simp only [l]
    exact ⟨rfl, himage⟩
  clear_value l s4
  exact h4.leaveCore.of_lent (h4.lentAdded hl).displaced rfl

theorem State.MemOk.returnHere {l : Lent} (hl : memWf l.tiles = true) (h : s.MemOk) : (returnHere s l).MemOk := by
  unfold Machine.returnHere
  extract_lets s1
  have h1 : s1.MemOk := h.modCore fun _ hk => ⟨putTiles_wf hk.1 hl _ _, hk.2⟩
  exact (State.MemOk.moveWork h1.lentFiltered).modCtx

theorem State.MemOk.moveAllOut {core : Fin 1024} (h : s.MemOk) : (moveAllOut s core).MemOk := by
  unfold Machine.moveAllOut
  extract_lets t
  have ht : t.MemOk := h.foldl fun _ _ h => h.lendOut
  refine List.foldlRecOn (motive := State.MemOk) _ _ ht fun s hs l hl => ?_
  obtain ⟨htiles, -⟩ := ht.displaced l (List.mem_of_mem_filter hl)
  exact (hs.returnHere htiles).lendOut

theorem makeWay_memOk {w : Way} (h : s.MemOk) : (makeWay s w).1.MemOk := by
  unfold makeWay
  split
  · exact h.lendHere
  · exact h.lendOut
  · exact h.moveAllOut

theorem resumeLent_memOk {s t : State} {die : Nat} {ls : List Lent} (h : s.MemOk) (hl : ∀ l ∈ ls, memWf l.tiles = true ∧ memWf l.image = true)
    (e : resumeLent s die ls = some t) :
    t.MemOk := by
  induction ls with
  | nil => cases e
  | cons l ls ih =>
    obtain ⟨htiles, himage⟩ := hl l (by simp)
    have hrest := ih fun k hk => hl k (by simp [hk])
    simp only [resumeLent] at e
    split at e
    · split at e
      · obtain rfl := Option.some.inj e
        exact h.returnHere htiles
      · exact hrest e
    · split at e
      · obtain rfl := Option.some.inj e
        exact (State.MemOk.loadSaved himage h.lentFiltered).modCtx
      · exact hrest e

theorem startNode_memOk {c : Cand} {u : RUnit} : Keeps State.MemOk (startNode c u) := by
  unfold startNode
  split
  · exact Keeps.modify fun _ h => h.startV
  · exact Keeps.bind (Keeps.modify fun _ h => h.runNode) fun _ => takeBlock_memOk
  · exact Keeps.bind (Keeps.modify fun _ h => h.runNode) fun _ => takeOrder_memOk

theorem State.MemOk.shareTrans {die : Fin 8} {t : State} {e : Trans} (h : t.MemOk) : (shareTrans die t e).MemOk := h

theorem State.MemOk.aheadPage {core : Fin 1024} {asid : BitVec 16} {eff : BitVec 2} {va : Nat} (h : s.MemOk) : (aheadPage core asid eff s va).MemOk := by
  -- Unfolded as a function, not at its arguments: there the kernel would run `walkVa` to compare the two sides.
  suffices key : ∀ f, f = @Machine.aheadPage → (f core asid eff s va).MemOk from key _ rfl
  intro f hf
  delta Machine.aheadPage at hf
  subst hf
  beta_reduce
  extract_lets die t1 t2
  have h1 : t1.MemOk := h.ite h.fillPage
  have h2 : t2.MemOk := by
    simp only [t2]
    split
    · exact h1.shareTrans
    · exact h1
  -- A variable in the place of `t2`, so that the split does not compute it.
  obtain ⟨u, hu⟩ : ∃ u, u = t2 := ⟨t2, rfl⟩
  rw [← hu] at h2 ⊢
  split
  · exact h2.modCore fun _ hk => ⟨hk.1, hk.2⟩
  · exact h2

theorem State.MemOk.fillAhead {c : Cand} {core : Fin 1024} (h : s.MemOk) : (fillAhead s c core).MemOk := h.foldl fun _ _ h1 => h1.aheadPage
theorem State.MemOk.handNode {c : Cand} {core : Fin 1024} (h : s.MemOk) : (handNode s c core).MemOk := (State.MemOk.ite h.fillAhead h).modCore fun _ h1 => h1

theorem execNodeDispatch_memOk {die : Fin 8} (h : s.MemOk) : OutOk (execNodeDispatch die s) := by
  unfold execNodeDispatch
  refine event_memOk (Keeps.bind (Keeps.modify fun _ h => h.ageDie.holdDie) fun _ => Keeps.get_bind fun s h => ?_) h
  split
  · split
    · exact Keeps.set h.handNode
    · exact Keeps.pure _
  · exact startNode_memOk
  · exact (Keeps.set (makeWay_memOk h)).bind fun _ => startNode_memOk
  · split
    next e => exact Keeps.set (resumeLent_memOk h h.displaced e)
    next => exact Keeps.pure _

theorem execPoolClear_memOk {core : Fin 1024} (h : s.MemOk) : OutOk (execPoolClear core s) := by
  unfold execPoolClear
  show State.MemOk _
  split
  · split
    · exact h.modCore fun _ h1 => Core.MemOk.prepare h1
    · exact h
  · exact h

theorem State.MemOk.replaceEntry {c : CtxId} {n : Nat} (h : s.MemOk) : (replaceEntry s c n).MemOk := by
  unfold Machine.replaceEntry
  extract_lets s0 mark s1 cmd op
  have h1 : s1.MemOk := h.modCtx.modCore fun _ hk => ⟨hk.1, hk.2⟩
  exact h1.same rfl

theorem execFtwr_memOk {f : FtwrForm} (h : s.MemOk) : OutOk (execFtwr f s) :=
  scalar_memOk (readS_memOk.bind fun _ => (Keeps.needN _ _ _).bind fun _ => Keeps.bind (Keeps.modify fun _ h1 => h1.replaceEntry) fun _ => modMe_memOk) h

end Sys2Proof.Machine
end

section
/-! PROOF. Every step keeps the canonical form of every byte memory (O60): the host interface and repair. -/

namespace Sys2Proof.Machine

variable {s : State}

theorem State.MemOk.hostPut {link : Bool} {a : Nat} {b : List Byte} (h : s.MemOk) : (hostPut s link a b).MemOk := by
  obtain ⟨hmem, hhost0, hhost1, hrest⟩ := h
  exact State.MemOk.ite ⟨hmem, hhost0, memPut_wf hhost1 a b, hrest⟩ ⟨hmem, memPut_wf hhost0 a b, hhost1, hrest⟩

theorem execRegisterWrite_memOk {r : HostReg} {v : BitVec 64} (h : s.MemOk) : OutOk (execRegisterWrite r v s) := by
  unfold execRegisterWrite
  show State.MemOk _
  split
  · exact State.MemOk.ite h.modQueue h
  · exact State.MemOk.ite h.modQueue h
  · exact State.MemOk.ite h h
  · exact State.MemOk.ite h h
  · exact State.MemOk.ite h h
  · exact h

theorem State.MemOk.windowByte {l : Nat} {b : Byte} (h : s.MemOk) : (windowByte s l b).MemOk := by
  unfold Machine.windowByte
  split
  · exact h.of_mem (memSet_wf h.main _ _) rfl
  · split
    · exact h.same rfl
    · exact h

theorem State.MemOk.windowPut {l : Nat} {bs : List Byte} (h : s.MemOk) : (windowPut s l bs).MemOk := by
  induction bs generalizing s l with
  | nil => exact h
  | cons b bs ih => exact ih h.windowByte

theorem execHostMemAccess_memOk {off : Nat} {a : HostAccess} (h : s.MemOk) : OutOk (execHostMemAccess off a s) := by
  unfold execHostMemAccess
  show State.MemOk _
  split
  · exact h
  · exact State.MemOk.ite (h.windowPut.same rfl) h

theorem State.MemOk.answer {hdr : CmdHead} {status check : Nat} (h : s.MemOk) : (answer s hdr status check).MemOk := h.pushRecord
theorem State.MemOk.settleCmd {q : Fin 64} (h : s.MemOk) : (settleCmd s q).MemOk := h.modQueue

theorem State.MemOk.fetchTry {q : Fin 64} {try' : Nat} (h : s.MemOk) : (fetchTry s q try').MemOk := by
  unfold Machine.fetchTry
  split
  · exact (h.settleCmd (q := q)).same rfl
  · exact h.answer.settleCmd
  · exact h.modQueue.ite h.answer.settleCmd

theorem execCompletionRecordWrite_memOk {q : Fin 64} (h : s.MemOk) : OutOk (execCompletionRecordWrite q s) := by
  unfold execCompletionRecordWrite
  extract_lets _ _
  show State.MemOk _
  split
  · exact h
  · exact State.MemOk.ite h.hostPut.modQueue h

theorem readRegion_memOk {asid : BitVec 16} {va : Nat} : Keeps State.MemOk (readRegion asid va) := by
  unfold readRegion
  split
  · exact Keeps.pure _
  · extract_lets _
    refine Keeps.bind (Keeps.attempt (Keeps.mapM' _ fun _ => (Keeps.needN _ _ _).bind fun _ => translate_memOk.bind fun _ => physRead_memOk.bind fun _ =>
      Keeps.pure _)) fun _ => ?_
    split <;> exact Keeps.pure _

theorem execRegionInstall_memOk {head : CmdHead} {asid : BitVec 16} {va : BitVec 64} (h : s.MemOk) : OutOk (execRegionInstall head asid va s) := by
  unfold execRegionInstall
  refine event_memOk (Keeps.get.bind fun _ => Keeps.ite (fun _ => Keeps.modify fun _ h => h.answer) fun _ => readRegion_memOk.bind fun block => ?_) h
  split
  · exact Keeps.modify fun _ h => h.answer
  · refine Keeps.get_bind fun s h => ?_
    extract_lets t
    have ht : t.MemOk := h.same rfl
    exact Keeps.ite (fun _ => Keeps.set ht.writeHeld.answer) fun _ => Keeps.set h.answer

theorem execRegionRemove_memOk {head : CmdHead} {asid : BitVec 16} {va : BitVec 64} (h : s.MemOk) : OutOk (execRegionRemove head asid va s) := by
  unfold execRegionRemove
  simp only [OutOk]
  split
  · exact h.answer
  · refine State.MemOk.ite h.answer (h.answer.ite (State.MemOk.answer ?_))
    exact h.same rfl

theorem execFdtabSet_memOk {head : CmdHead} {pa : BitVec 64} (h : s.MemOk) : OutOk (execFdtabSet head pa s) := by
  refine State.MemOk.ite (State.MemOk.answer ?_) h.answer
  exact h.same rfl

theorem execNvmeQpair_memOk {head : CmdHead} {p : QPair} {got : Option (BitVec 32)} (h : s.MemOk) : OutOk (execNvmeQpair head p got s) := by
  unfold execNvmeQpair
  simp only [OutOk]
  split
  · exact h.answer
  · refine State.MemOk.ite (State.MemOk.answer ?_) h.answer
    exact h.same rfl

theorem execDriveDmaWrite_memOk {drive : Fin 128} {pa : Nat} {data : List (BitVec 8)} (h : s.MemOk) : OutOk (execDriveDmaWrite drive pa data s) := by
  refine State.MemOk.ite ?_ h
  exact h.of_mem (memPut_wf h.main _ _) rfl

theorem State.MemOk.powerOff (h : s.MemOk) : (powerOff s).MemOk := by
  obtain ⟨-, hhost0, hhost1, -⟩ := h
  obtain ⟨hmem, -, -, hrest⟩ := State.MemOk.reset
  exact ⟨hmem, hhost0, hhost1, hrest⟩

theorem State.MemOk.planClusters {now : Nat} {p : PowerPlan} (h : s.MemOk) : (planClusters now s p).MemOk := by
  refine State.MemOk.foldl ?_ fun _ _ h => h.modCluster
  exact h.same rfl

theorem State.MemOk.askService {b : Bool} (h : s.MemOk) : (askService s b).MemOk := State.MemOk.ite h h

theorem State.MemOk.bringUp {p : BringUp} (h : s.MemOk) : (bringUp s p).MemOk := by
  unfold Machine.bringUp
  extract_lets _ _ _ s1 s2 s3 s4
  have h1 : s1.MemOk := h.same rfl
  have h3 : s3.MemOk := by
    refine (h1.planClusters (now := 0) (p := p.power)).of_cores (fun e he => ?_) rfl
    obtain ⟨e, -, rfl⟩ := List.mem_map.mp he
    exact ⟨rfl, rfl⟩
  have h4 : s4.MemOk := h3.askService.askService.askService
  exact h4.same rfl

theorem State.MemOk.fenceNode {u : FenceUnit} {r : NodeRef} (h : s.MemOk) : (fenceNode s u r).MemOk := by
  unfold Machine.fenceNode
  split
  · exact h
  · exact h.saddlerReport.failNode

theorem State.MemOk.fenceCtx {u : FenceUnit} {c : CtxId} (h : s.MemOk) : (fenceCtx s u c).MemOk := h.report.killCtx

theorem State.MemOk.killCore {u : FenceUnit} {core : Fin 1024} (h : s.MemOk) : (killCore u s core).MemOk := by
  unfold Machine.killCore
  extract_lets s1 here s2
  have h1 : s1.MemOk := State.MemOk.foldl (h.modCore fun _ hk => hk) fun _ _ h => h.fenceCtx
  have h2 : s2.MemOk := h1.lentFiltered
  exact h2.foldl fun _ _ h => h.fenceCtx

theorem State.MemOk.killTug {cl : Fin 128} {u : FenceUnit} (h : s.MemOk) : (killTug s cl u).MemOk :=
  h.foldl fun _ _ h1 => h1.quiesceTug.foldl fun _ _ h2 => h2.fenceNode

theorem State.MemOk.fenceCluster {cl : Fin 128} (h : s.MemOk) : (fenceCluster s cl).MemOk := by
  unfold Machine.fenceCluster
  exact State.MemOk.replanAll (State.MemOk.modCluster (State.MemOk.killTug (h.foldl fun _ _ h1 => h1.killCore)))

theorem State.MemOk.fenceCore {i : Fin 1024} (h : s.MemOk) : (fenceCore s i).MemOk :=
  State.MemOk.ite h.killCore.fenceCluster ((((h.killCore.setCore Core.MemOk.reset).modCluster).replanAll).askService)

theorem endOps_memOk {w : WalkId} {n : Nat} : Keeps State.MemOk (endOps w n) := by
  induction n with
  | zero => exact Keeps.pure _
  | succ n ih =>
    rw [endOps]
    refine Keeps.get.bind fun s => ?_
    split
    · exact Keeps.pure _
    · refine fenceHead_memOk.bind fun _ => Keeps.bind (Keeps.modify fun _ h => ?_) fun _ => Keeps.bind (Keeps.modify fun _ h => h.walkReport) fun _ =>
        Keeps.bind (Keeps.modify fun _ h => h.same rfl) fun _ => ?_
      · split
        · exact h.ownWrite
        · exact h
      · split
        · exact Keeps.bind (Keeps.modify fun _ h => h.failNode) fun _ => ih
        · exact ih

theorem State.MemOk.fenceWalker {i : Fin 32} (h : s.MemOk) : (fenceWalker s i).MemOk := by
  unfold Machine.fenceWalker
  extract_lets s1 s2 held
  have h1 : s1.MemOk := h.same rfl
  have h2 : s2.MemOk := h1.foldl fun _ _ h => State.MemOk.quietly endOps_memOk h
  exact h2.replanAll

theorem State.MemOk.modLink {l : Fin 96} {f : MemLink → MemLink} (h : s.MemOk) : (State.modLink s l f).MemOk := h

theorem State.MemOk.poisonCmds {l : Fin 96} (h : s.MemOk) : (poisonCmds l s).MemOk := by
  unfold Machine.poisonCmds
  refine h.foldl ?_
  intro t a h1
  refine h1.foldl ?_
  intro t1 a1 h2
  split
  · exact State.MemOk.ite (h2.quietly finishCmd_memOk) h2
  · exact h2

theorem State.MemOk.fenceLink {l : Fin 96} (h : s.MemOk) : (fenceLink s l).MemOk :=
  State.MemOk.ite h (State.MemOk.askService (State.MemOk.replanAll (State.MemOk.foldl (State.MemOk.modLink (State.MemOk.poisonCmds (h.foldl fun _ _ h1 =>
    h1.modCtx))) fun _ _ h1 => h1.saddlerReport)))

theorem State.MemOk.modPort {p : Fin 36} {f : Port → Port} (h : s.MemOk) : (State.modPort s p f).MemOk := h
theorem State.MemOk.fencePort {p : Fin 36} (h : s.MemOk) : (fencePort s p).MemOk := State.MemOk.ite h h.modPort.askService

theorem execFabricResend_memOk {dst seq : Nat} {plane : Fin 36} (h : s.MemOk) : OutOk (execFabricResend dst seq plane s) := by
  refine State.MemOk.ite (State.MemOk.putFlit ?_) h
  exact h.same rfl

theorem homeAccess_memOk {a : FabricAccess} : Keeps State.MemOk (homeAccess a) := by
  unfold homeAccess
  refine Keeps.get.bind fun _ => ?_
  split
  · exact Keeps.pure ()
  · exact Keeps.ite (fun _ => physPut_memOk) fun _ => Keeps.pure ()
  · split
    · refine physGet_memOk.bind fun _ => ?_
      split
      · exact physPut_memOk
      · exact Keeps.pure ()
    · exact Keeps.pure ()

theorem State.MemOk.applyAccess {a : FabricAccess} (h : s.MemOk) : (applyAccess s a).MemOk := by
  unfold Machine.applyAccess
  split
  next e => exact homeAccess_memOk.ok h e
  next => exact h

theorem execFabricDelivery_memOk {src seq : Nat} {a : FabricAccess} (h : s.MemOk) : OutOk (execFabricDelivery src seq a s) := by
  unfold execFabricDelivery
  show State.MemOk _
  split
  · exact h
  · exact State.MemOk.ite h (h.applyAccess.same rfl)
  · exact State.MemOk.ite h (h.applyAccess.same rfl)

theorem execUnitFence_memOk {u : FenceUnit} (h : s.MemOk) : OutOk (execUnitFence u s) := by
  unfold execUnitFence
  show State.MemOk _
  split
  · exact h.fenceCore
  · exact h.fenceCluster
  · exact h.fenceCluster
  · exact h.fenceWalker
  · exact h.fenceLink
  · exact h.fencePort

theorem State.MemOk.logCorrected {unit : Nat} (h : s.MemOk) : (logCorrected s unit).MemOk := by
  refine State.MemOk.askService ?_
  exact h.same rfl

theorem State.MemOk.largeError {u : ErrorUnit} (h : s.MemOk) : (largeError s u).MemOk := by
  unfold Machine.largeError
  split
  · exact State.MemOk.ite (h.modCore fun _ h1 => h1) h
  · exact State.MemOk.ite (h.modCore fun _ h1 => h1) h
  · exact State.MemOk.ite (h.modCore fun _ h1 => h1) h
  · exact h.modCore fun _ h1 => h1
  · exact h
  · exact State.MemOk.ite h h

theorem State.MemOk.findError {u : ErrorUnit} {large : Bool} (h : s.MemOk) : (findError s u large).MemOk := State.MemOk.ite h.largeError h.logCorrected

theorem execSensorCrossCheck_memOk {cl : Fin 128} {reading : SensorReading} (h : s.MemOk) : OutOk (execSensorCrossCheck cl reading s) := by
  unfold execSensorCrossCheck
  extract_lets k put
  have hput : ∀ k, (put k).MemOk := fun k => h.modCluster
  exact State.MemOk.ite h (State.MemOk.ite (hput _) (State.MemOk.ite (hput _) ((hput { k with drift := k.drift + 1, drifting := true }).same rfl)))

theorem State.MemOk.replanFloor {cl : Fin 128} (h : s.MemOk) : (replanFloor s cl).MemOk := h.replanAll

end Sys2Proof.Machine
end

section
/-! PROOF. Every step keeps the canonical form of every byte memory (O60): scalar instructions, the instruction table and the step. -/

namespace Sys2Proof.Machine

variable {s : State}

theorem salu_memOk {f : A3} {op : Word → Word → Word} : Keeps State.MemOk (salu f op) := readS_memOk.bind fun _ => readS_memOk.bind fun _ => writeS_memOk
theorem salu1_memOk {f : A2} {op : Word → Word} : Keeps State.MemOk (salu1 f op) := readS_memOk.bind fun _ => writeS_memOk
theorem immediate_memOk {f : IForm} {op : Word → BitVec 16 → Word} : Keeps State.MemOk (immediate f op) := readS_memOk.bind fun _ => writeS_memOk
theorem shiftImm_memOk {f : ShForm} {op : Word → Nat → Word} : Keeps State.MemOk (shiftImm f op) := readS_memOk.bind fun _ => writeS_memOk

theorem execBins_memOk {f : A3} (h : s.MemOk) : OutOk (execBins f s) :=
  scalar_memOk (readS_memOk.bind fun _ => readS_memOk.bind fun _ => readS_memOk.bind fun _ => writeS_memOk) h

theorem execSel_memOk {f : A3} (h : s.MemOk) : OutOk (execSel f s) :=
  scalar_memOk (readS_memOk.bind fun _ => readS_memOk.bind fun _ => readS_memOk.bind fun _ => writeS_memOk) h

/-- A vector instruction is issued, and its body runs in the lanes. -/
theorem issue_memOk {i : Instr} {u : Issue} (h : s.MemOk) : OutOk (vector i u (laneBody i) s) := vector_memOk (fun _ => laneBody_memOk) h

theorem exec_memOk {i : Instr} (h : s.MemOk) : OutOk (exec i s) := by
  cases i with
  | add | sub | and | or | xor | sll | srl | sra | mul | mulh | div | divu | rem | remu | min | max | slt | sltu | seq | bext => exact scalar_memOk salu_memOk h
  | clz | ctz | popc => exact scalar_memOk salu1_memOk h
  | bins => exact execBins_memOk h
  | sel => exact execSel_memOk h
  | addi | andi | ori | xori | slti => exact scalar_memOk immediate_memOk h
  | lui => exact scalar_memOk writeS_memOk h
  | slli | srli | srai => exact scalar_memOk shiftImm_memOk h
  | ld => exact execLd_memOk h
  | st => exact execSt_memOk h
  | br => exact scalarTo_memOk (branchHolds_memOk.bind fun _ => getMe_memOk.bind fun _ => Keeps.pure _) h
  | jal => exact scalarTo_memOk (getMe_memOk.bind fun _ => writeS_memOk.bind fun _ => Keeps.pure _) h
  | jalr => exact execJalr_memOk h
  | strip => exact execStrip_memOk h
  | csrr => exact execCsrr_memOk h
  | csrw | csrs | csrc => exact scalar_memOk csrOp_memOk h
  | amoadd | amoswp | amocas | amomin | amomax | amoand | amoor | amoxor => exact scalar_memOk amo_memOk h
  | trap | brkpt => exact scalar_memOk (readS_memOk.bind fun _ => Keeps.trapV _ _) h
  | eret => exact execEret_memOk h
  | fence => exact execFence_memOk h
  | halt => exact execHalt_memOk h
  | yield | nop => exact scalar_memOk (Keeps.pure ()) h
  | spawn => exact execSpawn_memOk h
  | ndone f => exact execNdone_memOk (f := f) h
  | lease => exact execLease_memOk h
  | unlease => exact scalar_memOk modMe_memOk h
  | rdtime => exact scalar_memOk (Keeps.get.bind fun _ => writeS_memOk) h
  | acq => exact execAcq_memOk h
  | rel => exact execRel_memOk h
  | bind => exact execBind_memOk h
  | unbind => exact execUnbind_memOk h
  | tlwait => exact execTlwait_memOk h
  | tlsig => exact execTlsig_memOk h
  | tlrd => exact execTlrd_memOk h
  | drinit => exact execDrinit_memOk h
  | drawait => exact execDrawait_memOk h
  | drrel => exact scalar_memOk (getRing_memOk.bind fun _ => (Keeps.needN _ _ _).bind fun _ => modRingM_memOk) h
  | barw => exact execBarw_memOk h
  | bara => exact execBara_memOk h
  | tagwany => exact execTagwany_memOk h
  | tagwall => exact execTagwall_memOk h
  | tagff => exact execTagff_memOk h
  | tcopy | tcopym | tqnt | tenc | tdec | tqsc | tstat | tblk => exact scalar_memOk tugIssue_memOk h
  | wbind => exact execWbind_memOk h
  | wqry => exact execWqry_memOk h
  | wapp => exact execWapp_memOk h
  | wrefit => exact execWrefit_memOk h
  | wdrain => exact execWdrain_memOk h
  | emucall => exact execEmucall_memOk h
  | vsetl => exact execVsetl_memOk h
  | vshape => exact execVshape_memOk h
  | vtype => exact execVtype_memOk h
  | vsetm => exact execVsetm_memOk h
  | vsets => exact execVsets_memOk h
  | vdecl => exact execVdecl_memOk h
  | vlive => exact execVlive_memOk h
  | vadd | vsub | vmul | vmulh | vmacc | vand | vor | vxor | vsll | vsrl | vsra | vmin | vmax | vsadd | vssub | vzsub | vfadd | vfsub | vfmul | vfma
  | vfnms | vfdiv | vfsqrt | vfmin | vfmax | vfabs | vfneg | vfrec | vfrsq | vfexp2 | vceq | vcne | vclt | vcle | vcltu | vfceq | vfclt | vfcle
  | vfcun | mand | mor | mxor | mnot | mpop | mfirst | vslup | vsldn | vcomp | vexpd | vreds | vredmx | vredmn | vfreds | vmvs | vbrd | viota | vband
  | vbpfx | vencr | vencd | venct | vdec | vrenc | vencq | vdictExtract | vdictReplace | vidx | vcvt | vqnt | vdqnt | vamax | vscl | vpack | vunpk
  | vld | vldb | vldseg | vlde | vfil | vst | vstseg | vste | vspl | vgath | vscat | vgathp | vltld | vltst | vltadd | vamoadd | vamomax | vamocas
  | mclaim | mrel | mma | mmas | mslide | mprom | mzero | maccrd | maccwr | mld | mlds => exact issue_memOk h
  | qbind => exact execQbind_memOk h
  | qfree => exact scalar_memOk (awaitQ_memOk.bind fun _ => putQ_memOk) h
  | qseek => exact execQseek_memOk h
  | qstat => exact scalar_memOk (awaitQ_memOk.bind fun _ => getQ_memOk.bind fun _ => writeS_memOk) h
  | ftwr => exact execFtwr_memOk h
  | ftrd => exact scalar_memOk (getMe_memOk.bind fun _ => writeS_memOk) h
  | ftfence => exact scalar_memOk (Keeps.get.bind fun _ => Keeps.waitUnless _) h
  | decodeCause => exact scalar_memOk (Keeps.trapV _ _) h
  | fetchCause => exact execFetchCause_memOk h
  | park => exact execPark_memOk h
  | moveout => exact execMoveout_memOk h
  | resume => exact execResume_memOk h
  | kill => exact execKill_memOk h
  | invalidationRequest => exact execInvalidationRequest_memOk h
  | commandFetch | fetchRetry => exact State.MemOk.ite h.fetchTry h
  | completionRecordWrite => exact execCompletionRecordWrite_memOk h
  | hostCmdNop => exact h.answer
  | submit => exact execSubmit_memOk h
  | regionInstall => exact execRegionInstall_memOk h
  | regionRemove => exact execRegionRemove_memOk h
  | fdtabSet => exact execFdtabSet_memOk h
  | nvmeQpair => exact execNvmeQpair_memOk h
  | fabricAcknowledgement => exact h
  | vectorLaneAdmit => exact asCtx_memOk (fun _ h1 => admitHead_memOk h1) h
  | valueLands => exact execValueLands_memOk h
  | peerGatherReturn => exact execPeerGatherReturn_memOk h
  | tugCommandStart => exact execTugCommandStart_memOk h
  | tugBeatLands => exact execTugBeatLands_memOk h
  | tugCommandComplete => exact execTugCommandComplete_memOk h
  | followOnIssue => exact execFollowOnIssue_memOk h
  | arrayAccept => exact execArrayAccept_memOk h
  | arrayOpComplete => exact event_memOk (Keeps.modify fun _ h1 => h1.arrayNext) h
  | slotFillLands => exact event_memOk (Keeps.modify fun _ h1 => h1.landSlot) h
  | awlOperationStart => exact execAwlOperationStart_memOk h
  | awlLockGrant => exact execAwlLockGrant_memOk h
  | awlSlotTake => exact execAwlSlotTake_memOk h
  | awlOperationComplete => exact execAwlOperationComplete_memOk h
  | waitRelease => exact execWaitRelease_memOk h
  | nodeDispatch => exact execNodeDispatch_memOk h
  | admission => exact execAdmission_memOk h
  | boundOverrun => exact execBoundOverrun_memOk h
  | streamWalkAhead => exact execStreamWalkAhead_memOk h
  | codeFill => exact h.fillPage
  | poolClear => exact execPoolClear_memOk h
  | priorityAge => exact h.ageDie
  | priorityHold => exact h.holdDie
  | laneGroupRetention => exact execLaneGroupRetention_memOk h
  | laneGroupWake => exact event_memOk (Keeps.modify fun _ h1 => State.MemOk.ite h1.wakeGroups.modCtx h1) h
  | slabFill => exact event_memOk (Keeps.ite (fun _ => Keeps.set h.useSlab.modCtx) fun _ => Keeps.pure ()) h
  | deadlineWatch => exact execDeadlineWatch_memOk h
  | sqtail | cqhead | sqcfg | cqcfg => exact State.MemOk.ite h.modQueue h
  | registerWrite => exact execRegisterWrite_memOk h
  | hostMemAccess => exact execHostMemAccess_memOk h
  | dlgo | homeModuleLost => exact State.MemOk.ite h h
  | firmwareVerify => exact State.MemOk.ite h (State.MemOk.ite (State.MemOk.ite h.bringUp h) h)
  | powerUp | powerLoss => exact h.powerOff
  | driveDmaWrite => exact execDriveDmaWrite_memOk h
  | memLinkCrcRetry => exact h.modLink
  | memLinkRetrain => exact State.MemOk.ite h (State.MemOk.ite h.modLink (State.MemOk.ite h.modLink.fenceLink h.modLink))
  | balfinFlitReplay | flitAcknowledgement => exact h.modPort
  | balfinRetrain => exact State.MemOk.ite h (State.MemOk.ite h.modPort h.fencePort)
  | fabricResend => exact execFabricResend_memOk h
  | fabricDelivery => exact execFabricDelivery_memOk h
  | unitFence => exact execUnitFence_memOk h
  | sramScrub => exact State.MemOk.ite h.logCorrected h
  | cinchTick => exact h.modCluster.foldl fun _ _ h1 => h1.modCtx
  | sensorCrossCheck => exact execSensorCrossCheck_memOk h
  | floorLower => exact State.MemOk.ite h (State.MemOk.ite h.fenceCluster h.modCluster.replanFloor)
  | ageingRead => exact State.MemOk.ite (State.MemOk.askService (h.planClusters.foldl fun _ _ h1 => h1.replanFloor)) h
  | leaseExpire => exact h.modCtx
  | resizableBarWrite => exact State.MemOk.ite (h.same rfl) h

theorem State.MemOk.evict {core : Fin 1024} {pa : Nat} (h : s.MemOk) : (evict s core pa).MemOk := h.flushLines
theorem State.MemOk.dropHeld {core : Fin 1024} {va : Nat} (h : s.MemOk) : (dropHeld s core va).MemOk := h.modCore fun _ h1 => h1
theorem State.MemOk.dropPage {die : Fin 8} {page : Nat} (h : s.MemOk) : (dropPage s die page).MemOk := h
theorem State.MemOk.dropShared {die : Fin 8} {va : Nat} (h : s.MemOk) : (dropShared s die va).MemOk := h
theorem State.MemOk.dropOp {core : Fin 1024} {va : Nat} (h : s.MemOk) : (dropOp s core va).MemOk := h.modCore fun _ h1 => h1

theorem State.MemOk.storeLands {c : CtxId} {i : Nat} (h : s.MemOk) : (storeLands s c i).MemOk := by
  unfold Machine.storeLands
  extract_lets _
  split
  · exact State.MemOk.ite h.landStore.modCtx h
  · exact h

theorem stepCtx_memOk (h : s.MemOk) : OutOk (stepCtx s) := by
  have hn := nextTodo_memOk h
  unfold stepCtx
  split
  next e => rw [e] at hn; exact exec_memOk hn
  next e => rw [e] at hn; exact hn
  next e => rw [e] at hn; exact scalarExc_memOk hn

theorem runTurn_memOk {t : Turn} (h : s.MemOk) : OutOk (runTurn t s) := by
  unfold runTurn
  split
  · exact stepCtx_memOk h
  · exact exec_memOk h
  · exact h.evict
  · exact h.dropHeld
  · exact h.dropShared
  · exact h.storeLands
  · exact h.dropPage
  · exact h.dropOp
  · exact h.findError

theorem step_memOk (h : s.MemOk) : OutOk (step s) := by
  unfold step
  extract_lets s1
  have hs1 : s1.MemOk := h.passTime
  split <;> exact runTurn_memOk hs1

/-- Settles O60: a rule for every function a step runs, from the operations on byte memories up to `step`. -/
theorem stepKeepsMemory : Obligations.StepKeepsMemory := by
  intro s t hs e
  have h := step_memOk hs
  rw [e] at h
  exact h

end Sys2Proof.Machine
end

section
/-! PROOF. What a release leaves alone (O18). -/

namespace Sys2Proof.Machine

/-- Two states that differ at most in what performing stores and writing lines back changes: engines, the array and whose turn it is are as before, and of a context its pending stores alone. -/
structure State.StoresSent (s t : State) : Prop where
  tugs : t.tugs = s.tugs
  walks : t.walks = s.walks
  walkerFenced : t.walkerFenced = s.walkerFenced
  cur : t.cur = s.cur
  late : t.late = s.late
  ctx : ∀ c, t.ctx c = { s.ctx c with stores := (t.ctx c).stores }
  arr : ∀ i, (t.core i).arr = (s.core i).arr

/-- A field of a core that an update does not change. -/
theorem State.core_modCore_field {α : Type} (g : Core → α) {f : Core → Core} (hf : ∀ k, g (f k) = g k) (s : State) (c i : Nat) :
    g ((s.modCore c f).core i) = g (s.core i) := by
  by_cases h : i = c
  · rw [h, State.core_modCore_self, hf]
  · rw [State.core_modCore_ne s f h]

namespace State.StoresSent

variable {s t : State}

theorem refl (s : State) : s.StoresSent s := ⟨rfl, rfl, rfl, rfl, rfl, fun _ => rfl, fun _ => rfl⟩

/-- A change of anything else. -/
theorem same (h : s.StoresSent t) {u : State} (e : (u.tugs, u.walks, u.walkerFenced, u.cur, u.late, u.ctxs, u.cores) =
    (t.tugs, t.walks, t.walkerFenced, t.cur, t.late, t.ctxs, t.cores)) : s.StoresSent u := by
  simp only [Prod.mk.injEq] at e
  obtain ⟨etugs, ewalks, efenced, ecur, elate, ectxs, ecores⟩ := e
  have hctx : ∀ c, u.ctx c = t.ctx c := fun c => by rw [State.ctx, ectxs]; rfl
  have hcore : ∀ i, u.core i = t.core i := fun i => by rw [State.core, ecores]; rfl
  exact ⟨etugs.trans h.tugs, ewalks.trans h.walks, efenced.trans h.walkerFenced, ecur.trans h.cur, elate.trans h.late,
    fun c => by rw [hctx, ← h.ctx], fun i => by rw [hcore, h.arr]⟩

theorem modCore (h : s.StoresSent t) (c : Nat) {f : Core → Core} (hf : ∀ k, (f k).arr = k.arr) : s.StoresSent (t.modCore c f) :=
  ⟨h.tugs, h.walks, h.walkerFenced, h.cur, h.late, h.ctx, fun i => (State.core_modCore_field Core.arr hf t c i).trans (h.arr i)⟩

theorem foldl {α : Type} {f : State → α → State} (hf : ∀ u a, s.StoresSent u → s.StoresSent (f u a)) (l : List α) (h : s.StoresSent t) :
    s.StoresSent (l.foldl f t) :=
  List.foldlRecOn l f h fun u hu a _ => hf u a hu

theorem sendTo (h : s.StoresSent t) (pa : Nat) : s.StoresSent (sendTo t pa) := by
  unfold Machine.sendTo
  split
  · exact h
  · split <;> exact h.same rfl

theorem poolPut (h : s.StoresSent t) (c off n v : Nat) : s.StoresSent (poolPut t c off n v) := h.modCore c fun _ => rfl

theorem ownWrite (h : s.StoresSent t) (pa n v : Nat) : s.StoresSent (ownWrite t pa n v) := by
  unfold Machine.ownWrite
  split
  · exact sendTo (t := { t with mem := memWrite t.mem pa n v, poison := unpoison t.poison pa n }) (h.same rfl) pa
  · exact h.poolPut _ _ _ _
  all_goals exact h

theorem flushLine (h : s.StoresSent t) (l : DLine) : s.StoresSent (flushLine t l) := by
  unfold Machine.flushLine
  split
  · exact h
  · refine sendTo ?_ _
    exact h.same rfl

theorem flushLines (h : s.StoresSent t) (core : Nat) (p : DLine → Bool) (drop : Bool) : s.StoresSent (flushLines t core p drop) := by
  unfold Machine.flushLines
  exact modCore (h.foldl (fun _ l hu => hu.flushLine l) _) core fun _ => rfl

theorem dropLine (h : s.StoresSent t) (core : Nat) (l : Loc) : s.StoresSent (dropLine t core l) := by
  unfold Machine.dropLine
  split
  · split
    · exact h.flushLines _ _ _
    · exact h
  all_goals exact h

theorem landStore (h : s.StoresSent t) (core : Nat) (p : PStore) : s.StoresSent (landStore core t p) := by
  unfold Machine.landStore
  split
  · exact h.poolPut _ _ _ _
  · exact h.poolPut _ _ _ _
  · exact (h.dropLine _ _).ownWrite _ _ _

/-- Taking stores off a context's list. -/
theorem setStores (h : s.StoresSent t) (c : CtxId) (g : List PStore → List PStore) :
    s.StoresSent (t.modCtx c fun x => { x with stores := g x.stores }) := by
  refine ⟨h.tugs, h.walks, h.walkerFenced, h.cur, h.late, fun d => ?_, h.arr⟩
  by_cases e : d = c
  · rw [e, State.ctx_modCtx_self, h.ctx c]
  · rw [State.ctx_modCtx_ne t _ e, h.ctx d]

theorem landStores (h : s.StoresSent t) (c : CtxId) (k : Nat) : s.StoresSent (landStores t c k) :=
  setStores (h.foldl (fun _ p hu => hu.landStore _ p) _) c _

theorem performStores (h : s.StoresSent t) (c : CtxId) : s.StoresSent (performStores t c) := by
  unfold Machine.performStores
  split
  · exact h
  · exact h.landStores _ _

theorem me (h : s.StoresSent t) : t.me = { s.me with stores := t.me.stores } := by
  rw [State.me, h.cur]
  exact h.ctx s.cur

theorem myCore_arr (h : s.StoresSent t) : t.myCore.arr = s.myCore.arr := by
  rw [State.myCore, h.cur]
  exact h.arr _

theorem tug (h : s.StoresSent t) (i : TugId) : t.tug i = s.tug i := by rw [State.tug, h.tugs]; rfl
theorem walk (h : s.StoresSent t) (i : WalkId) : t.walk i = s.walk i := by rw [State.walk, h.walks]; rfl

theorem full (h : s.StoresSent t) {rs : List (Fin 32)} (hf : s.Full rs) : t.Full rs := by
  intro r hr
  rw [h.me]
  exact hf r hr

theorem quiet (h : s.StoresSent t) (hq : s.Quiet) : t.Quiet := by
  rw [State.Quiet, h.late, h.me]
  exact hq

end State.StoresSent

theorem released_sent (s : State) : s.StoresSent s.released := ((State.StoresSent.refl s).performStores _).flushLines _ _ _

/-- A release does not wait (R247). -/
theorem run_release (s : State) : release s = .ok () s.released := by
  have hc : (performStores s s.cur).cur = s.cur := ((State.StoresSent.refl s).performStores _).cur
  simp only [release, drainAll, run_bind, run_modify, flushAll, hc, State.released]

end Sys2Proof.Machine
end

section
/-! PROOF. The timeline instructions (O18). -/

namespace Sys2Proof.Machine

/-! Handles (R247). -/

theorem needHandle_ok {s : State} {h : Word} {e : Engine} (hh : handleOf s h = some e) : needHandle h s = .ok e s := by
  simp only [needHandle, run_bind, run_get, hh, run_pure]

theorem needHandle_none {s : State} {h : Word} (hh : handleOf s h = none) : needHandle h s = .error (.cause .tlHandle none) s := by
  simp only [needHandle, run_bind, run_get, hh, run_trapU]

/-! TLWAIT and TLRD. -/

section
variable {s : State} (hq : s.Quiet)

theorem tlwait_run {f : AB} (hf : s.Full [f.sa, f.sb]) {e : Engine} (hh : handleOf s (s.me.sget f.sa) = some e) :
    exec (.tlwait f) s = scalar (waitUnless ((s.me.sget f.sb).toNat ≤ timelineOf s e)) s := by
  show scalar _ s = _
  unfold scalar
  rw [run_bind_ok (readS_ok (hf.get (by simp))), run_bind_ok (readS_ok (hf.get (by simp))), run_bind_ok (needHandle_ok hh), run_bind_ok (run_get s)]

theorem tlwait_handle {f : AB} (hf : s.Full [f.sa, f.sb]) (hh : handleOf s (s.me.sget f.sa) = none) (hl : s.me.lanesIdle = true) :
    exec (.tlwait f) s = .next (raise s s.cur .tlHandle s.me.pc s.me.pc (Config.tval s.tick) 0 false) := by
  refine scalar_cause (v := none) ?_ hl
  rw [run_bind_ok (readS_ok (hf.get (by simp))), run_bind_ok (readS_ok (hf.get (by simp))), run_bind_error (needHandle_none hh)]

/-- An instruction whose handle, in sa, is not valid, with no vector or matrix instruction ahead of it. -/
theorem handle_refused {f : A2} (hf : s.Full [f.sa, f.sd]) (hh : handleOf s (s.me.sget f.sa) = none) (hl : s.me.lanesIdle = true) (k : Engine → M Unit) :
    scalar (do
      let a ← readS f.sa
      awaitS f.sd
      let e ← needHandle a
      k e) s = .next (raise s s.cur .tlHandle s.me.pc s.me.pc (Config.tval s.tick) 0 false) := by
  refine scalar_cause (v := none) ?_ hl
  rw [run_bind_ok (readS_ok (hf.get (by simp))), run_bind_ok (awaitS_ok (hf.get (by simp))), run_bind_error (needHandle_none hh)]

include hq

theorem tlrd_ok {f : A2} (hf : s.Full [f.sa, f.sd]) {e : Engine} (hh : handleOf s (s.me.sget f.sa) = some e) :
    exec (.tlrd f) s = .next (s.wrote f.sd (BitVec.ofNat 64 (timelineOf s e))) := by
  refine scalar_write ?_ hq
  rw [run_bind_ok (readS_ok (hf.get (by simp))), run_bind_ok (awaitS_ok (hf.get (by simp))), run_bind_ok (needHandle_ok hh), run_bind_ok (run_get s),
    writeS_ok _ (hf.get (by simp))]

end

/-! TLSIG. -/

section
variable {s : State} {f : A2} (hf : s.Full [f.sa, f.sd])
include hf

/-- TLSIG up to its release, with a valid handle: a signal of the array has no operation of the array ahead of it in the queue. -/
theorem run_signalled {α : Type} {e : Engine} (hh : handleOf s (s.me.sget f.sa) = some e)
    (hw : e = .array → ∀ q ∈ s.me.queue, arrayOp q.instr = false) (k : Engine → M α) :
    (do
      let a ← readS f.sa
      awaitS f.sd
      let e ← needHandle a
      let s ← get
      waitUnless (e != Engine.array || !s.me.queue.any fun q => arrayOp q.instr)
      release
      k e) s = k e s.released := by
  have hw' : (e != Engine.array || !s.me.queue.any fun q => arrayOp q.instr) = true := by
    by_cases he : e = .array
    · simpa using Or.inr (hw he)
    · simp [he]
  rw [run_bind_ok (readS_ok (hf.get (by simp))), run_bind_ok (awaitS_ok (hf.get (by simp))), run_bind_ok (needHandle_ok hh), run_bind_ok (run_get s),
    run_bind_ok (waitUnless_true hw' s), run_bind_ok (run_release s)]

/-- The signal of a Tug command context takes its next number. -/
theorem tlsig_tug (hq : s.Quiet) {t : TugId} (hh : handleOf s (s.me.sget f.sa) = some (.tug t)) (hn : (s.tug t).queue.length < 16) :
    exec (.tlsig f) s = .next ((s.released.modTug t fun x =>
      { x with queue := x.queue ++ [tugSignal ((s.tug t).issued + 1) s.cur (sigNow s.released s.cur)], issued := (s.tug t).issued + 1 }).wrote f.sd
        (BitVec.ofNat 64 ((s.tug t).issued + 1))) := by
  have hs := released_sent s
  refine scalar_write ?_ (t := s.released.modTug t _) (hs.quiet hq)
  rw [run_signalled hf hh (by simp)]
  have hd : ∀ x v, writeS f.sd v (s.released.setTug t x) = _ := fun x v => writeS_ok v (hs.full hf f.sd (by simp))
  simp only [run_bind, run_get, hs.tug, hs.cur, waitUnless_true (decide_eq_true hn), run_set, hd, State.modTug]

/-- The signal of the array takes the array's next number. -/
theorem tlsig_array (hq : s.Quiet) (hh : handleOf s (s.me.sget f.sa) = some .array) (hw : ∀ e ∈ s.me.queue, arrayOp e.instr = false) :
    exec (.tlsig f) s = .next ((s.released.modMyCore fun c => { c with arr := { c.arr with
      issued := s.myCore.arr.issued + 1
      ops := c.arr.ops ++ [{ num := s.myCore.arr.issued + 1, lc := s.cur.lc, entry := none, sig := some (sigNow s.released s.cur), fin := false }] } }).wrote f.sd
        (BitVec.ofNat 64 (s.myCore.arr.issued + 1))) := by
  have hs := released_sent s
  refine scalar_write ?_ (t := s.released.modMyCore _) (hs.quiet hq)
  rw [run_signalled hf hh fun _ => hw]
  have hd : ∀ x v, writeS f.sd v (s.released.modMyCore x) = _ := fun x v => writeS_ok v (hs.full hf f.sd (by simp))
  simp only [run_bind, run_get, hs.myCore_arr, hs.cur, run_set, hd]
  simp only [State.modMyCore, State.modCore, hs.cur, hs.arr]
  rfl

/-- The signal of a walk context takes its next number. -/
theorem tlsig_walk (hq : s.Quiet) {k : WalkId} (hh : handleOf s (s.me.sget f.sa) = some (.walk k)) (hn : (s.walk k).queue.length < 8) :
    exec (.tlsig f) s = .next ((s.released.modWalk k fun x => { x with
      queue := x.queue ++ [{ newWalkOp s.released ((s.walk k).issued + 1) .signal s.cur with started := true, finished := true, sig := some (sigNow s.released s.cur) }]
      issued := (s.walk k).issued + 1 }).wrote f.sd (BitVec.ofNat 64 ((s.walk k).issued + 1))) := by
  have hs := released_sent s
  refine scalar_write ?_ (t := s.released.modWalk k _) (hs.quiet hq)
  rw [run_signalled hf hh (by simp)]
  have hd : ∀ x v, writeS f.sd v (s.released.setWalk k x) = _ := fun x v => writeS_ok v (hs.full hf f.sd (by simp))
  simp only [run_bind, run_get, hs.walk, hs.cur, waitUnless_true (decide_eq_true hn), run_set, hd, State.modWalk]

theorem tlsig_tug_waits {t : TugId} (hh : handleOf s (s.me.sget f.sa) = some (.tug t)) (hn : 16 ≤ (s.tug t).queue.length) :
    exec (.tlsig f) s = .next (hold s.released) := by
  refine scalar_wait ?_
  rw [run_signalled hf hh (by simp)]
  simp only [run_bind, run_get, (released_sent s).tug, waitUnless_false (decide_eq_false (Nat.not_lt.2 hn))]

theorem tlsig_walk_waits {k : WalkId} (hh : handleOf s (s.me.sget f.sa) = some (.walk k)) (hn : 8 ≤ (s.walk k).queue.length) :
    exec (.tlsig f) s = .next (hold s.released) := by
  refine scalar_wait ?_
  rw [run_signalled hf hh (by simp)]
  simp only [run_bind, run_get, (released_sent s).walk, waitUnless_false (decide_eq_false (Nat.not_lt.2 hn))]

theorem tlsig_array_waits (hh : handleOf s (s.me.sget f.sa) = some .array) (hw : ∃ e ∈ s.me.queue, arrayOp e.instr = true) :
    exec (.tlsig f) s = .next (hold s) := by
  have hb : (Engine.array != .array || !s.me.queue.any fun q => arrayOp q.instr) = false := by simpa using hw
  refine scalar_wait ?_
  rw [run_bind_ok (readS_ok (hf.get (by simp))), run_bind_ok (awaitS_ok (hf.get (by simp))), run_bind_ok (needHandle_ok hh), run_bind_ok (run_get s),
    run_bind_error (waitUnless_false hb s)]

end

/-- A context that waits after stores were sent is where it was. -/
theorem State.StoresSent.hold_stands {s u : State} (h : s.StoresSent u) :
    (hold u).me.waiting = true ∧ (hold u).me.pc = s.me.pc ∧ (hold u).me.s = s.me.s := by
  rw [hold, State.me_modMe, h.me]
  exact ⟨rfl, rfl, rfl⟩

/-- Settles O18: each handle kind by the run of its instruction, a TLSIG up to its release first (`run_signalled`), and what a release leaves alone (`released_sent`). -/
theorem timelineResults : Obligations.TimelineResults := by
  refine ⟨fun s hq => ⟨fun f hf => ⟨fun e hh => ?_, tlwait_handle hf⟩, fun f hf => ⟨fun e hh => tlrd_ok hq hf hh, fun hh hl => handle_refused hf hh hl _⟩⟩, fun f s hq hf => ?_⟩
  · rw [tlwait_run hf hh]
    refine ⟨fun hn => scalar_same (waitUnless_true (decide_eq_true hn) s) hq, fun hn => scalar_wait (waitUnless_false (decide_eq_false (Nat.not_le.2 hn)) s)⟩
  · have hs := released_sent s
    refine ⟨fun t hh hn => ?_, fun t hh hn => ?_, fun hh hw => ?_, fun hh hw => ?_, fun k hh hn => ?_, fun k hh hn => ?_, fun hh hl => handle_refused hf hh hl _⟩
    · exact tlsig_tug hf hq hh hn
    · exact ⟨_, tlsig_tug_waits hf hh hn, hs.hold_stands⟩
    · exact tlsig_array hf hq hh hw
    · exact ⟨_, tlsig_array_waits hf hh hw, (State.StoresSent.refl s).hold_stands⟩
    · exact ⟨_, rfl, rfl, rfl, rfl, rfl, rfl, tlsig_walk hf hq hh hn⟩
    · exact ⟨_, tlsig_walk_waits hf hh hn, hs.hold_stands⟩

end Sys2Proof.Machine
end

section
/-! PROOF. A Tug command that names a slot which an MREL is still to free waits, although it meets what O26 asks of it. -/

namespace Sys2Proof.Machine

theorem needTugCtx_ok {s : State} {b : Word} (hb : b.toNat < 16)
    (ht : tugShare s s.me.rcb { cluster := Fin.ofNat 128 (clusterOf s.cur.core.val), t := Fin.ofNat 16 b.toNat } = true) :
    needTugCtx b s = .ok { cluster := Fin.ofNat 128 (clusterOf s.cur.core.val), t := Fin.ofNat 16 b.toNat } s := by
  have h : (b.toNat < 16 && tugShare s s.me.rcb { cluster := Fin.ofNat 128 (clusterOf s.cur.core.val), t := Fin.ofNat 16 b.toNat }) = true := by
    rw [decide_eq_true hb, ht, Bool.and_self]
  rw [needTugCtx, run_bind_ok (run_get s), run_bind_ok (needU_true h _ s), run_pure]

theorem needTugSlot_waits {s : State} {n : Fin 32} (h : s.me.unrun.any (claims n) = true) : needTugSlot n s = .error .wait s := by
  rw [needTugSlot, run_bind_ok (run_get s), run_bind_error (waitUnless_false (by simp [h]) s)]

/-- A command that fills a slot waits while an MCLAIM or MREL of the slot has not run, one that has stepped aside (R209) among them. -/
theorem tugIssue_waits {fn : Nat} {f : TForm} {s u : State} {t : TugId} {raw : BitVec 1024} (hf : s.Full [f.sa, f.sb, f.sd])
    (ht : needTugCtx (s.me.sget f.sb) s = .ok t s) (hr : readBlock fn (s.me.sget f.sa) s = .ok raw u)
    (hk : (fn = 5 || (fn < 6 && cmdDkind raw = 1)) = true) (hn : u.me.unrun.any (claims (Fin.ofNat 32 (cmdDst raw))) = true) :
    tugIssue fn f s = .error .wait u := by
  rw [tugIssue, run_bind_ok (readS_ok (hf.get (by simp))), run_bind_ok (readS_ok (hf.get (by simp))), run_bind_ok (awaitS_ok (hf.get (by simp))),
    run_bind_ok ht, run_bind_ok hr]
  simp only [hk, if_true]
  exact run_bind_error (needTugSlot_waits hn)

theorem exec_tcopy (f : TForm) (s : State) : exec (.tcopy f) s = scalar (tugIssue 0 f) s := rfl

/-! The counterexample. -/

/-- A TCOPY block (R231): 64 bytes from offset 0 of the own pool to slot 5. -/
def slotBlock : Nat := 2 ^ 48 + 2 ^ 34 + 8 + ownBase * 2 ^ 64 + 5 * 2 ^ 128 + 64 * 2 ^ 192

/-- A region of all 128 clusters and all 16 Tug command contexts (R295). -/
def slotRegion : Region :=
  { va := 0x8000, asid := 0, lastDie := 7, spawned := 0
    block := BitVec.ofNat 2048 (0x1FF * 2 ^ 96 + (2 ^ 128 - 1) * 2 ^ 192 + 0xFFFF * 2 ^ 352) }

/-- An MREL of slot 5 that has stepped aside. -/
def slotRelease : QEntry :=
  { instr := .mrel { slot := 5, hint := 0 }, pc := 0, cap := capture Ctx.reset, scalar := 0, priv := 0, noTrim := false, num := 1, stale := false }

/-- Core 0, whose running context owns slot 5; an MLD is filling the slot, and an MREL of it has stepped aside for the MLD (R209). s1 holds the address of the block, s2 the number of a command context. -/
def slotReleasing : State :=
  let s := State.reset.modMyCore fun c => { c with
    pool := memWrite c.pool 0x400 128 slotBlock
    slots := c.slots.set 5 { Slot.reset with st := .filling, owner := 0, mld := true } }
  ({ s with regions := [slotRegion] } : State).modMe fun c => { c with
    st := .running, rcb := 0x8000, s := (c.s.set 1 (BitVec.ofNat 64 (ownBase + 0x400))).set 2 15, rels := [slotRelease], vIn := 1 }

/-- The command context that s2 names: the last of the core's cluster. -/
def slotTug : TugId := { cluster := Fin.ofNat 128 (slotReleasing.cur.core.val / 8), t := Fin.ofNat 16 (slotReleasing.me.sget 2).toNat }

/-- A computation answers, and its answer and state pass a test. -/
def answersWith {α : Type} (r : EStateM.Result Exc State α) (p : α → State → Bool) : Bool :=
  match r with
  | .ok a t => p a t
  | .error _ _ => false

theorem exists_of_answersWith {α : Type} {r : EStateM.Result Exc State α} {p : α → State → Bool} (h : answersWith r p = true) :
    ∃ a t, r = .ok a t ∧ p a t = true := by
  cases r with
  | ok a t => exact ⟨a, t, rfl, h⟩
  | error e t => cases h

/-- What O26 asks of a command that fills a slot, and an MREL of the slot that has stepped aside. -/
def releaseAhead (s : State) (raw : BitVec 1024) (u : State) : Bool :=
  let n := Fin.ofNat 32 (cmdDst raw)
  (u.tug slotTug).queue.length < 16 && cmdDkind raw = 1 && ((s.me.kept ++ s.me.queue).all (fun e => !claims n e) && (u.myCore.slots[n]).ownedBy s.cur.lc) &&
    u.me.unrun.any (claims n)

theorem slotReleasing_reads : ∃ raw u, readBlock 0 (slotReleasing.me.sget 1) slotReleasing = .ok raw u ∧ releaseAhead slotReleasing raw u = true :=
  exists_of_answersWith (by decide +kernel)

/-- Refutes O26: TCOPY to slot 5 of `slotReleasing` waits for the MREL that has stepped aside (R209), whose absence the statement does not ask for; so no command is queued. -/
theorem not_engineCommandsQueue : ¬ Obligations.EngineCommandsQueue := by
  rintro ⟨h, -⟩
  obtain ⟨raw, u, hr, hp⟩ := slotReleasing_reads
  simp only [releaseAhead, Bool.and_eq_true, decide_eq_true_eq] at hp
  obtain ⟨⟨⟨hlen, hkind⟩, hslot⟩, hrel⟩ := hp
  have hf : slotReleasing.Full [1, 2, 3] := by
    show ∀ r ∈ [1, 2, 3], slotReleasing.me.isFull r = true
    decide +kernel
  have hq : slotReleasing.Quiet := .inr (by decide +kernel)
  have hshare : tugShare slotReleasing slotReleasing.me.rcb slotTug = true := by decide +kernel
  have hnum : (slotReleasing.me.sget 2).toNat < 16 := by decide +kernel
  have hw : tugIssue 0 ⟨3, 1, 2, 0⟩ slotReleasing = .error .wait u := tugIssue_waits hf (needTugCtx_ok hnum hshare) hr (by simp [hkind]) hrel
  obtain ⟨v, hv, ⟨k, hk, -⟩, -⟩ := h ⟨3, 1, 2, 0⟩ slotReleasing u 0 (.tcopy ⟨3, 1, 2, 0⟩) raw hq hf (by simp) hnum hshare hr hlen fun _ => hslot
  rw [exec_tcopy, scalar_wait hw] at hv
  obtain rfl : hold u = v := by injection hv
  exact absurd (congrArg List.length hk) (by simp [hold])

end Sys2Proof.Machine
end

section
/-! PROOF. What the module's own writes and re-planning leave alone, and which contexts a fence leaves resident (O50). -/

namespace Sys2Proof.Machine

/-! Accesses to memory, as `State.SameCtx` follows them for the contexts: here the other units matter. The Saddler's own accesses go through no unit's translations. -/

/-- Two states of equal units: contexts, clusters, memory links and fenced walkers are as before, and a core differs at most in the bytes of its pool and their poison. -/
structure State.SameUnits (s t : State) : Prop where
  ctxs : t.ctxs = s.ctxs
  clusters : t.clusters = s.clusters
  links : t.links = s.links
  walkerFenced : t.walkerFenced = s.walkerFenced
  core : ∀ i, t.core i = { s.core i with pool := (t.core i).pool, poison := (t.core i).poison }

namespace State.SameUnits

variable {s t : State}

theorem refl (s : State) : s.SameUnits s := ⟨rfl, rfl, rfl, rfl, fun _ => rfl⟩

/-- A change of anything else. -/
theorem same (h : s.SameUnits t) {u : State} (e : (u.ctxs, u.clusters, u.links, u.walkerFenced, u.cores) =
    (t.ctxs, t.clusters, t.links, t.walkerFenced, t.cores)) : s.SameUnits u := by
  simp only [Prod.mk.injEq] at e
  obtain ⟨ectxs, eclusters, elinks, efenced, ecores⟩ := e
  have hcore : ∀ i, u.core i = t.core i := fun i => by rw [State.core, ecores]; rfl
  exact ⟨ectxs.trans h.ctxs, eclusters.trans h.clusters, elinks.trans h.links, efenced.trans h.walkerFenced, fun i => by rw [hcore]; exact h.core i⟩

theorem modPool (h : s.SameUnits t) (c : Nat) {f : Core → Core} (hf : ∀ k, ∃ m p, f k = { k with pool := m, poison := p }) :
    s.SameUnits (t.modCore c f) := by
  refine ⟨h.ctxs, h.clusters, h.links, h.walkerFenced, fun i => ?_⟩
  by_cases e : i = c
  · obtain ⟨m, p, ef⟩ := hf (t.core c)
    rw [e, State.core_modCore_self, ef, h.core c]
  · rw [State.core_modCore_ne t f e]
    exact h.core i

theorem foldl {α : Type} {f : State → α → State} (hf : ∀ u a, s.SameUnits u → s.SameUnits (f u a)) (l : List α) (h : s.SameUnits t) :
    s.SameUnits (l.foldl f t) :=
  List.foldlRecOn l f h fun u hu a _ => hf u a hu

theorem sendTo (h : s.SameUnits t) (pa : Nat) : s.SameUnits (sendTo t pa) := by
  unfold Machine.sendTo
  split
  · exact h
  · split <;> exact h.same rfl

theorem poolPut (h : s.SameUnits t) (c off n v : Nat) : s.SameUnits (poolPut t c off n v) := h.modPool c fun _ => ⟨_, _, rfl⟩

theorem ownWrite (h : s.SameUnits t) (pa n v : Nat) : s.SameUnits (ownWrite t pa n v) := by
  unfold Machine.ownWrite
  split
  · exact sendTo (t := { t with mem := memWrite t.mem pa n v, poison := unpoison t.poison pa n }) (h.same rfl) pa
  · exact h.poolPut _ _ _ _
  all_goals exact h

theorem spoil (h : s.SameUnits t) (pa : Nat) : s.SameUnits (spoil t pa) := by
  unfold Machine.spoil
  split
  · exact h.same rfl
  · exact h.modPool _ fun _ => ⟨_, _, rfl⟩
  all_goals exact h

end State.SameUnits

section
variable {s : State}

theorem transfer_units (pa : Nat) : Keeps s.SameUnits (transfer pa) := by
  unfold transfer
  refine Keeps.get_bind fun u hu => Keeps.ite (fun _ => Keeps.pure _) fun _ => ?_
  split
  · exact Keeps.trapU _
  · exact Keeps.trapN _ _
  all_goals
    split
    · exact Keeps.set (hu.same rfl)
    · exact Keeps.throw _

theorem poolWrite_units (c off n v : Nat) : Keeps s.SameUnits (poolWrite c off n v) := by
  unfold poolWrite
  exact Keeps.get_bind fun u hu => Keeps.ite (fun _ => Keeps.throw _) fun _ => Keeps.set (hu.modPool _ fun _ => ⟨_, _, rfl⟩)

theorem physPut_units (pa n v : Nat) : Keeps s.SameUnits (physPut pa n v) := by
  unfold physPut
  refine Keeps.get_bind fun u hu => ?_
  split
  · exact Keeps.set (hu.same rfl)
  · exact Keeps.ite (fun _ => Keeps.set (hu.same rfl)) fun _ => Keeps.pure _
  · exact Keeps.ite (fun _ => Keeps.set (hu.same rfl)) fun _ => Keeps.pure _
  · exact Keeps.set (hu.same rfl)
  · exact poolWrite_units _ _ _ _
  · exact Keeps.trapU _
  · exact Keeps.trapN _ _

theorem physRead_units (pa n : Nat) : Keeps s.SameUnits (physRead pa n) := (transfer_units pa).bind fun _ => physGet_same _ _
theorem physWrite_units (pa n v : Nat) : Keeps s.SameUnits (physWrite pa n v) := (transfer_units pa).bind fun _ => physPut_units _ _ _

theorem tableRead_units (va pa n : Nat) : Keeps s.SameUnits (tableRead va pa n) :=
  Keeps.get.bind fun _ => (Keeps.needN _ _ _).bind fun _ => physRead_units _ _

theorem asidEntry_units (asid : BitVec 16) (va : Nat) : Keeps s.SameUnits (asidEntry asid va) :=
  Keeps.get.bind fun _ => (Keeps.needN _ _ _).bind fun _ => (physRead_units _ _).bind fun _ => (physRead_units _ _).bind fun _ =>
    (physRead_units _ _).bind fun _ => (physRead_units _ _).bind fun _ => (physRead_units _ _).bind fun _ => (Keeps.needN _ _ _).bind fun _ => Keeps.pure _

theorem walkFrom_units (va lvl table : Nat) : Keeps s.SameUnits (walkFrom va lvl table) := by
  induction lvl generalizing table with
  | zero => exact (tableRead_units _ _ _).bind fun _ => (Keeps.needN _ _ _).bind fun _ => (Keeps.needN _ _ _).bind fun _ => Keeps.pure _
  | succ n ih =>
    exact (tableRead_units _ _ _).bind fun _ => (Keeps.needN _ _ _).bind fun _ => (Keeps.needN _ _ _).bind fun _ =>
      Keeps.ite (fun _ => ih _) fun _ => Keeps.pure _

theorem contEntry_units (va : Nat) (l : Leaf) : Keeps s.SameUnits (contEntry va l) :=
  Keeps.ite (fun _ => Keeps.get.bind fun _ => (tableRead_units _ _ _).bind fun _ => (Keeps.needN _ _ _).bind fun _ => (Keeps.needN _ _ _).bind fun _ =>
    Keeps.pure _) fun _ => Keeps.pure _

theorem walkVa_units (w : Who) (va : Nat) : Keeps s.SameUnits (walkVa w va) :=
  (asidEntry_units _ _).bind fun _ => (walkFrom_units _ _ _).bind fun _ => (contEntry_units _ _).bind fun _ => Keeps.pure _

theorem readPool_units (va pa : Nat) : Keeps s.SameUnits (readPool va pa) :=
  (tableRead_units _ _ _).bind fun _ => (tableRead_units _ _ _).bind fun _ => (tableRead_units _ _ _).bind fun _ =>
    (tableRead_units _ _ _).bind fun _ => (tableRead_units _ _ _).bind fun _ => Keeps.pure _

theorem copyUnit_units (src dst : Nat) : Keeps s.SameUnits (copyUnit src dst) :=
  Keeps.get.bind fun _ => (physRead_units _ _).bind fun _ => (physWrite_units _ _ _).bind fun _ =>
    Keeps.ite (fun _ => Keeps.modify fun _ h => h.spoil _) fun _ => Keeps.pure ()

theorem copyPage_units (src dst : Nat) : Keeps s.SameUnits (copyPage src dst) := by
  unfold copyPage
  refine Keeps.get.bind fun _ => Keeps.ite (fun _ => ?_) fun _ => Keeps.forM' _ fun _ => copyUnit_units _ _
  exact (Keeps.forM' _ fun _ => (transfer_units _).bind fun _ => transfer_units _).bind fun _ => Keeps.modify fun _ h => h.same rfl

theorem reach_keeps {P : State → Prop} (w : Who) (va pa : Nat) : Keeps P (reach w va pa) := by
  unfold reach
  refine Keeps.get.bind fun _ => ?_
  split
  · exact Keeps.trapN _ _
  · exact (Keeps.needU _ _).bind fun _ => Keeps.waitUnless _

theorem blockEntry_units (t : Trans) (va : Nat) : Keeps s.SameUnits (blockEntry t va) :=
  (tableRead_units _ _ _).bind fun _ => (Keeps.needN _ _ _).bind fun _ => (tableRead_units _ _ _).bind fun _ => (readPool_units _ _).bind fun _ => Keeps.pure _

theorem findBlock_units (w : Who) (t : Trans) (va : Nat) (acc : Acc) : Keeps s.SameUnits (findBlock w t va acc) := by
  unfold findBlock
  refine (blockEntry_units _ _).bind fun _ => (reach_keeps _ _ _).bind fun _ => Keeps.ite (fun _ => (tableRead_units _ _ _).bind fun _ => ?_) fun _ => Keeps.pure _
  refine Keeps.ite (fun _ => (Keeps.needN _ _ _).bind fun _ => (tableRead_units _ _ _).bind fun _ => ?_) fun _ => Keeps.pure _
  exact (Keeps.forM' _ fun _ => (reach_keeps _ _ _).bind fun _ => reach_keeps _ _ _).bind fun _ => Keeps.get.bind fun _ => (Keeps.waitUnless _).bind fun _ => Keeps.pure _

theorem copyBlock_units (b : BlockUse) : Keeps s.SameUnits (copyBlock b) :=
  Keeps.ite (fun _ => Keeps.forM' _ fun _ => copyPage_units _ _) fun _ => Keeps.pure ()

theorem useBlock_units (b : BlockUse) : Keeps s.SameUnits (useBlock b) := by
  unfold useBlock
  split
  · exact (physWrite_units _ _ _).bind fun _ => (physWrite_units _ _ _).bind fun _ => (physWrite_units _ _ _).bind fun _ =>
      (physWrite_units _ _ _).bind fun _ => (physWrite_units _ _ _).bind fun _ => Keeps.pure _
  · exact Keeps.pure _

/-! Translation on behalf of no unit: no list of held translations changes. -/

theorem markLeaf_units (acc : Acc) (t : Trans) : Keeps s.SameUnits (markLeaf .nobody acc t) :=
  Keeps.ite (fun _ => Keeps.pure ()) fun _ => (transfer_units _).bind fun _ => (physGet_same _ _).bind fun _ =>
    (physPut_units _ _ _).bind fun _ => Keeps.modify fun _ h => h

theorem findLeaf_units {w : Who} (hw : w.holder = .nobody) (va : Nat) (acc : Acc) : Keeps s.SameUnits (findLeaf w va acc) := by
  unfold findLeaf
  rw [hw]
  refine Keeps.get.bind fun _ => ?_
  split
  · exact Keeps.pure _
  · refine (Keeps.modify fun _ h => h).bind fun _ => (walkVa_units _ _).bind fun _ => Keeps.get.bind fun _ => ?_
    split
    · exact Keeps.trapN _ _
    · exact (Keeps.modify fun _ h => h).bind fun _ => Keeps.pure _

theorem translate_units {w : Who} (hw : w.holder = .nobody) (va : Nat) (acc : Acc) (enc : Bool) : Keeps s.SameUnits (translate w va acc enc) := by
  unfold translate
  rw [hw]
  exact (findLeaf_units hw _ _).bind fun _ => (Keeps.needN _ _ _).bind fun _ => Keeps.ite
    (fun _ => (findBlock_units _ _ _ _).bind fun _ => (copyBlock_units _).bind fun _ => (markLeaf_units _ _).bind fun _ => (useBlock_units _).bind fun _ => Keeps.pure _)
    fun _ => (markLeaf_units _ _).bind fun _ => Keeps.pure _

end

/-! Reports, the end of a graph and re-planning (R301, R311, R339). -/

namespace State.SameUnits

variable {s t : State}

theorem pushRecord (h : s.SameUnits t) (cq : Fin 64) (r : CRec) : s.SameUnits (pushRecord t cq r) := h.same rfl
theorem notice (h : s.SameUnits t) (cq : Nat) : s.SameUnits (notice t cq) := h.pushRecord _ _

theorem report (h : s.SameUnits t) (fdom : Nat) (r : Report) : s.SameUnits (report t fdom r) := by
  unfold Machine.report
  split
  · exact h
  · extract_lets e ring nslot widx ridx cq a w1 w2 w3 w4 w5 w6 w7 w8 w9 w10 w11 s1
    have h4 : s.SameUnits w4 := (((h.ownWrite _ _ _).ownWrite _ _ _).ownWrite _ _ _).ownWrite _ _ _
    have h8 : s.SameUnits w8 := (((h4.ownWrite _ _ _).ownWrite _ _ _).ownWrite _ _ _).ownWrite _ _ _
    have h11 : s.SameUnits w11 := ((h8.ownWrite _ _ _).ownWrite _ _ _).ownWrite _ _ _
    have h1 : s.SameUnits s1 := by
      simp only [s1]
      split
      · exact h11.ownWrite _ _ _
      · exact h.ownWrite _ _ _
    clear_value s1
    split
    · exact h1.notice _
    · exact h1

theorem saddlerReport (h : s.SameUnits t) (fdom : Nat) (c : Cause) (d : Disp) (u : FenceUnit) (g a : Word) :
    s.SameUnits (saddlerReport t fdom c d u g a) := h.report _ _

theorem modGraph (h : s.SameUnits t) (g : Nat) (f : Graph → Graph) : s.SameUnits (t.modGraph g f) := by
  unfold State.modGraph
  split
  · exact h.same rfl
  · exact h

theorem quietly (h : s.SameUnits t) {x : M Unit} (hx : Keeps s.SameUnits x) : s.SameUnits (quietly x t) := by
  unfold Machine.quietly
  split
  next e => exact hx.ok h e
  next e => exact hx.error h e

theorem writeHeld (h : s.SameUnits t) (r : Region) : s.SameUnits (writeHeld t r) := by
  unfold Machine.writeHeld
  extract_lets k w put
  have hput : ∀ i v, Keeps s.SameUnits (put i v) := fun _ _ => (translate_units rfl _ _ _).bind fun _ => physWrite_units _ _ _
  exact h.quietly ((hput _ _).bind fun _ => (hput _ _).bind fun _ => (hput _ _).bind fun _ => hput _ _)

theorem writeHelds (h : s.SameUnits t) (rcb : Word) : s.SameUnits (writeHelds t rcb) := h.foldl (fun _ r hu => hu.writeHeld r) _

theorem endGraph (h : s.SameUnits t) (g status check : Nat) : s.SameUnits (endGraph t g status check) := by
  unfold Machine.endGraph
  split
  · exact h
  · extract_lets s1 had s2 s3
    have h1 : s.SameUnits s1 := by
      simp only [s1]
      split
      · exact h
      · exact h.pushRecord _ _
    have h3 : s.SameUnits s3 := by
      simp only [s3]
      split <;> exact h1.same rfl
    split
    · exact h3.writeHelds _
    · exact h3

theorem settleGraph (h : s.SameUnits t) (g : Nat) : s.SameUnits (settleGraph t g) := by
  unfold Machine.settleGraph
  split
  · exact h
  · split
    · exact h
    · split
      · exact h.endGraph _ _ _
      · exact h.endGraph _ _ _
      · split
        · exact h.endGraph _ _ _
        · exact h
      · exact h
      · exact h

theorem breach (h : s.SameUnits t) (g : Nat) (u : FenceUnit) : s.SameUnits (breach t g u) := by
  unfold Machine.breach
  split
  · exact h
  · exact (((h.pushRecord _ _).saddlerReport _ _ _ _ _ _).modGraph _ _).settleGraph _

theorem replan (h : s.SameUnits t) (g : Nat) (gone : RUnit → Bool) (u : FenceUnit) : s.SameUnits (replan t g gone u) := by
  unfold Machine.replan
  split
  · exact h
  · split
    · exact h
    · extract_lets _ _ _ s1
      have hs1 : s.SameUnits s1 := h.modGraph _ _
      split
      · exact (hs1.breach _ _).writeHelds _
      · extract_lets s2
        have hs2 : s.SameUnits s2 := hs1.modGraph _ _
        split
        · exact hs2
        · exact hs2.breach _ _

theorem replanAll (h : s.SameUnits t) (p : Graph → Bool) (gone : RUnit → Bool) (u : FenceUnit) : s.SameUnits (replanAll t p gone u) :=
  h.foldl (fun _ _ hu => hu.replan _ _ _) _

theorem askService (h : s.SameUnits t) (b : Bool) : s.SameUnits (askService t b) := by
  unfold Machine.askService
  split
  · exact h.same rfl
  · exact h

theorem ctx (h : s.SameUnits t) (c : CtxId) : t.ctx c = s.ctx c := by rw [State.ctx, h.ctxs]; rfl
theorem cluster (h : s.SameUnits t) (i : Nat) : t.cluster i = s.cluster i := by rw [State.cluster, h.clusters]; rfl
theorem memLink (h : s.SameUnits t) (l : Fin 96) : t.memLink l = s.memLink l := by rw [State.memLink, h.links]; rfl

end State.SameUnits

end Sys2Proof.Machine
end

section
/-! PROOF. A Kill leaves its context without a node and starts none (O50). -/

namespace Sys2Proof.Machine

/-- Every context that is resident after a change was so before it, and the fenced walkers are as before. -/
structure State.NoneStarts (s t : State) : Prop where
  walkerFenced : t.walkerFenced = s.walkerFenced
  resident : ∀ c, (t.ctx c).resident = true → (s.ctx c).resident = true

namespace State.NoneStarts

variable {s t u : State}

theorem refl (s : State) : s.NoneStarts s := ⟨rfl, fun _ h => h⟩

theorem trans (h : s.NoneStarts t) (g : t.NoneStarts u) : s.NoneStarts u :=
  ⟨g.walkerFenced.trans h.walkerFenced, fun c hc => h.resident c (g.resident c hc)⟩

/-- A change of anything else. -/
theorem same (h : s.NoneStarts t) (e : (u.walkerFenced, u.ctxs) = (t.walkerFenced, t.ctxs)) : s.NoneStarts u := by
  simp only [Prod.mk.injEq] at e
  obtain ⟨efenced, ectxs⟩ := e
  refine ⟨efenced.trans h.walkerFenced, fun c hc => h.resident c ?_⟩
  rwa [State.ctx, ectxs] at hc

theorem modCore (h : s.NoneStarts t) (i : Nat) (f : Core → Core) : s.NoneStarts (t.modCore i f) := h.same rfl
theorem modRing (h : s.NoneStarts t) (i : Nat) (d : Fin 8) (f : Ring → Ring) : s.NoneStarts (t.modRing i d f) := h.modCore _ _

theorem units (h : s.NoneStarts t) (g : t.SameUnits u) : s.NoneStarts u := h.same (by rw [g.walkerFenced, g.ctxs])

theorem stores (h : s.NoneStarts t) (g : t.StoresSent u) : s.NoneStarts u :=
  ⟨g.walkerFenced.trans h.walkerFenced, fun c hc => h.resident c (by rw [g.ctx c] at hc; exact hc)⟩

theorem modCtx (h : s.NoneStarts t) (c : CtxId) {f : Ctx → Ctx} (hf : ∀ x, (f x).resident = true → x.resident = true) : s.NoneStarts (t.modCtx c f) := by
  refine ⟨h.walkerFenced, fun d hd => ?_⟩
  by_cases e : d = c
  · rw [e, State.ctx_modCtx_self] at hd
    exact e ▸ h.resident c (hf _ hd)
  · rw [State.ctx_modCtx_ne t f e] at hd
    exact h.resident d hd

theorem foldl {α : Type} {f : State → α → State} (hf : ∀ u a, s.NoneStarts u → s.NoneStarts (f u a)) (l : List α) (h : s.NoneStarts t) :
    s.NoneStarts (l.foldl f t) :=
  List.foldlRecOn l f h fun u hu a _ => hf u a hu

theorem not_resident (h : s.NoneStarts t) {c : CtxId} (hc : (s.ctx c).resident = false) : (t.ctx c).resident = false :=
  Bool.eq_false_iff.2 fun ht => Bool.eq_false_iff.1 hc (h.resident c ht)

/-! The parts of a Kill (R332, R343). -/

theorem freeNodeWalk (h : s.NoneStarts t) (r : NodeRef) : s.NoneStarts (freeNodeWalk t r) := by
  unfold Machine.freeNodeWalk
  split
  · exact h.same rfl
  all_goals exact h

theorem failNode (h : s.NoneStarts t) (r : NodeRef) : s.NoneStarts (failNode t r) :=
  (h.freeNodeWalk r).units ((((SameUnits.refl _).modGraph _ _).modGraph _ _).settleGraph _)

theorem quiesceTug (h : s.NoneStarts t) (i : TugId) (p : TugCmd → Bool) : s.NoneStarts (quiesceTug t i p) := by
  unfold Machine.quiesceTug
  extract_lets x gone s1
  have h1 : s.NoneStarts s1 := by
    refine h.foldl (fun v k hv => ?_) _
    split
    · exact hv
    · extract_lets v1 v2
      have h1 : s.NoneStarts v1 := by
        simp only [v1]
        split
        · exact hv.modRing _ _ _
        · exact hv
      have h2 : s.NoneStarts v2 := h1.modCore _ _
      split
      · exact h2.modCore _ _
      · exact h2
  exact h1.same rfl

theorem quiesceCtx (h : s.NoneStarts t) (c : CtxId) : s.NoneStarts (quiesceCtx t c) := h.foldl (fun _ _ hu => hu.quiesceTug _ _) _

theorem dropBinds (h : s.NoneStarts t) (c : CtxId) : s.NoneStarts (dropBinds t c) := by
  unfold Machine.dropBinds
  extract_lets bs
  split
  · exact h
  · exact (h.stores ((StoresSent.refl t).flushLines _ _ _)).modCtx c fun _ hx => hx

theorem vacate (h : s.NoneStarts t) (c : CtxId) : s.NoneStarts (vacate t c) := by
  unfold Machine.vacate
  extract_lets s1 s2 s3
  have h1 : s.NoneStarts s1 := (h.stores ((StoresSent.refl t).performStores c)).dropBinds c
  have h2 : s.NoneStarts s2 := h1.modCore _ _
  have h3 : s.NoneStarts s3 := h2.same rfl
  exact h3.modCtx c fun _ hx => absurd hx (by simp [Ctx.left, Ctx.resident])

theorem killCtx (h : s.NoneStarts t) (c : CtxId) : s.NoneStarts (killCtx t c) := by
  unfold Machine.killCtx
  extract_lets n s1 s2 s3
  have h2 : s.NoneStarts s2 := (h.quiesceCtx c).modCore _ _
  have h3 : s.NoneStarts s3 := h2.vacate c
  clear_value n
  split
  · exact h3.failNode _
  · exact h3

theorem fenceCtx (h : s.NoneStarts t) (u : FenceUnit) (c : CtxId) : s.NoneStarts (fenceCtx t u c) :=
  (h.units ((SameUnits.refl t).report _ _)).killCtx c

end State.NoneStarts

theorem vacate_frees (s : State) (c : CtxId) : ((vacate s c).ctx c).resident = false := by
  unfold vacate
  simp [Ctx.left, Ctx.resident]

theorem killCtx_frees (s : State) (c : CtxId) : ((killCtx s c).ctx c).resident = false := by
  unfold killCtx
  extract_lets n s1 s2 s3
  have h3 : (s3.ctx c).resident = false := vacate_frees s2 c
  clear_value n
  split
  · exact ((State.NoneStarts.refl s3).failNode _).not_resident h3
  · exact h3

theorem fenceCtx_frees (s : State) (u : FenceUnit) (c : CtxId) : ((fenceCtx s u c).ctx c).resident = false := killCtx_frees _ c

/-- Killing the nodes of a list of contexts frees each of them. -/
theorem fenceCtxs_free (u : FenceUnit) (l : List CtxId) (s : State) {c : CtxId} (hc : c ∈ l) :
    ((l.foldl (fun s c => fenceCtx s u c) s).ctx c).resident = false := by
  induction l generalizing s with
  | nil => cases hc
  | cons d l ih =>
    rw [List.foldl_cons]
    rcases List.mem_cons.1 hc with rfl | hc
    · exact ((State.NoneStarts.refl _).foldl (fun _ d hu => hu.fenceCtx u d) l).not_resident (fenceCtx_frees s u c)
    · exact ih _ hc

theorem mem_coreCtxs (core : Fin 1024) {lc : Fin 8} (h : lc.val < 4) : (⟨core, lc⟩ : CtxId) ∈ coreCtxs core := by
  have hlc : lc = 0 ∨ lc = 1 ∨ lc = 2 ∨ lc = 3 := by omega
  rcases hlc with rfl | rfl | rfl | rfl <;> simp [coreCtxs]

/-- A core whose nodes are killed holds none (R350). -/
theorem killCore_frees (u : FenceUnit) (s : State) (core : Fin 1024) {c : CtxId} (hc : c ∈ coreCtxs core) : ((killCore u s core).ctx c).resident = false := by
  unfold killCore
  extract_lets s1 here s2
  have h1 : (s1.ctx c).resident = false := by
    by_cases hr : (s.ctx c).resident = true
    · exact fenceCtxs_free u _ _ (List.mem_filter.2 ⟨hc, hr⟩)
    · refine State.NoneStarts.not_resident (s := s) ?_ (Bool.eq_false_iff.2 hr)
      exact ((State.NoneStarts.refl s).modCore _ _).foldl (fun _ d hu => hu.fenceCtx u d) _
  have h2 : s1.NoneStarts s2 := (State.NoneStarts.refl s1).same rfl
  exact (h2.foldl (fun _ _ hu => hu.fenceCtx u _) _).not_resident h1

/-! Walkers: a failed walker ends its operations (R350). -/

section
variable {s : State}

theorem modHead_noneStarts (w : WalkId) (f : WalkOp → WalkOp) : Keeps s.NoneStarts (modHead w f) := Keeps.modify fun _ h => h.same rfl

theorem headTake_noneStarts (w : WalkId) : Keeps s.NoneStarts (headTake w) := by
  have hwalk : ∀ core ring, Keeps s.NoneStarts (walkTake core ring) := fun core ring => by
    unfold walkTake
    refine Keeps.get_bind fun u hu => ?_
    extract_lets r
    split
    · exact Keeps.pure _
    · exact (Keeps.set (hu.modRing _ _ _)).bind fun _ => Keeps.pure _
  unfold headTake
  refine Keeps.get.bind fun _ => ?_
  split
  · exact (hwalk _ _).bind fun _ => modHead_noneStarts _ _
  · exact Keeps.pure ()

theorem tugWrite_noneStarts (l : Loc) (b : List Byte) : Keeps s.NoneStarts (tugWrite l b) := by
  unfold tugWrite
  split
  · exact Keeps.modify fun _ h => h.modCore _ _
  · exact Keeps.modify fun _ h => h.modCore _ _
  · exact fun u hu => hu.units (physPut_units _ _ _ u (State.SameUnits.refl u))

theorem emitSlot_noneStarts (w : WalkId) (rl : Nat) : Keeps s.NoneStarts (emitSlot w rl) := by
  unfold emitSlot
  refine Keeps.get.bind fun _ => ?_
  split
  · exact Keeps.ite
      (fun _ => (tugWrite_noneStarts _ _).bind fun _ => (Keeps.modify fun _ h => h.modRing _ _ _).bind fun _ => (modHead_noneStarts _ _).bind fun _ =>
        Keeps.ite (fun _ => headTake_noneStarts _) fun _ => Keeps.pure ())
      fun _ => Keeps.ite (fun _ => modHead_noneStarts _ _) fun _ => Keeps.pure ()
  · exact headTake_noneStarts _

theorem fenceHead_noneStarts (w : WalkId) : Keeps s.NoneStarts (fenceHead w) := by
  unfold fenceHead
  refine Keeps.get.bind fun _ => ?_
  extract_lets jp
  have hjp : ∀ x, Keeps s.NoneStarts (jp x) := fun _ => (modHead_noneStarts _ _).bind fun _ => modHead_noneStarts _ _
  split
  · exact (modHead_noneStarts _ _).bind fun _ => (headTake_noneStarts _).bind fun _ => (emitSlot_noneStarts _ _).bind hjp
  · exact hjp ()

theorem endOps_noneStarts (w : WalkId) (n : Nat) : Keeps s.NoneStarts (endOps w n) := by
  induction n with
  | zero => exact Keeps.pure _
  | succ n ih =>
    rw [endOps]
    refine Keeps.get.bind fun _ => ?_
    split
    · exact Keeps.pure _
    · refine (fenceHead_noneStarts _).bind fun _ => (Keeps.modify fun v h => ?_).bind fun _ =>
        (Keeps.modify fun v h => h.units ((State.SameUnits.refl v).report _ _)).bind fun _ => (Keeps.modify fun _ h => h.same rfl).bind fun _ => ?_
      · split
        · exact h.units ((State.SameUnits.refl v).ownWrite _ _ _)
        · exact h
      · split
        · exact (Keeps.modify fun _ h => h.failNode _).bind fun _ => ih
        · exact ih

theorem State.NoneStarts.quietly {t : State} (h : s.NoneStarts t) {x : M Unit} (hx : Keeps s.NoneStarts x) : s.NoneStarts (quietly x t) := by
  unfold Machine.quietly
  split
  next e => exact hx.ok h e
  next e => exact hx.error h e

end

end Sys2Proof.Machine
end

section
/-! PROOF. The fabric: transfers to other modules and what their accesses do here (O50). -/

namespace Sys2Proof.Machine

variable {s : State}

/-! Transfers (R291, R349, R393, R394). -/

/-- A module that is no member of the domain, or that is lost. -/
def State.Gone (s : State) (m : Nat) : Prop := (∀ k ∈ s.members, k.val ≠ m) ∨ ∃ k ∈ s.unreachable, k.val = m

theorem reachable_iff (m : Nat) : (s.members.any (fun k => k.val == m) && !s.unreachable.any fun k => k.val == m) = true ↔ ¬s.Gone m := by
  simp [State.Gone, not_or]

section
variable {pa : Nat} (hh : paHome pa ≠ s.modId.val)
include hh

theorem physKind_gone (hg : s.Gone (paHome pa)) : physKind s pa = .lost := by
  simp only [physKind, if_neg hh, if_neg fun h => (reachable_iff _).1 h hg]

/-- Of a module that is not lost there is memory or nothing. -/
theorem physKind_other (hg : ¬s.Gone (paHome pa)) : physKind s pa = .memory ∨ physKind s pa = .absent := by
  simp only [physKind, if_neg hh, if_pos ((reachable_iff _).2 hg)]
  split
  · exact .inl rfl
  · exact .inr rfl

theorem physKind_lost_iff : physKind s pa = .lost ↔ s.Gone (paHome pa) := by
  refine ⟨fun hk => by_contra fun hg => ?_, physKind_gone hh⟩
  rcases physKind_other hh hg with h | h <;> simp [hk] at h

theorem transfer_gone (hg : s.Gone (paHome pa)) : transfer pa s = .error (.cause .moduleLost none) s := by
  simp only [transfer, run_bind, run_get, if_neg hh, physKind_gone hh hg, run_trapU]

theorem transfer_noPlane (hg : ¬s.Gone (paHome pa)) (hk : physKind s pa ≠ .absent) (hp : livePlane s = none) : transfer pa s = .error .wait s := by
  simp only [transfer, run_bind, run_get, if_neg hh, (physKind_other hh hg).resolve_right hk, hp, run_waitM]

theorem transfer_sent {p : Nat} (hg : ¬s.Gone (paHome pa)) (hk : physKind s pa ≠ .absent) (hp : livePlane s = some p) :
    transfer pa s = .ok () (sendOn s pa p) := by
  simp only [transfer, run_bind, run_get, if_neg hh, (physKind_other hh hg).resolve_right hk, hp, run_set]

end

theorem mem_acknowledged (dst seq : Nat) (x : Transfer) :
    x ∈ (s.transfers.filter fun t => !(t.dst = dst && t.seq = seq && t.plane.isSome)) ↔ x ∈ s.transfers ∧ ¬(x.dst = dst ∧ x.seq = seq ∧ x.plane.isSome = true) := by
  simp only [List.mem_filter, Bool.not_eq_true', Bool.eq_false_iff, ne_eq, Bool.and_eq_true, decide_eq_true_eq, and_assoc]

/-- A transfer that has been unacknowledged for 10 µs on another plane (R393). -/
theorem resends_iff (dst seq p : Nat) (t : Transfer) :
    resends s dst seq p t = true ↔ t.dst = dst ∧ t.seq = seq ∧ t.plane ≠ some p ∧ t.sent + 10000 ≤ s.time := by
  simp [resends, and_assoc]

theorem fabricResend_none {dst seq : Nat} {p : Fin 36} (h : ∀ t ∈ s.transfers, ¬resends s dst seq p.val t = true) : exec (.fabricResend dst seq p) s = .next s := by
  have ha : s.transfers.any (resends s dst seq p.val) = false := List.any_eq_false.2 h
  show execFabricResend dst seq p s = _
  simp [execFabricResend, ha]

theorem fabricResend_due {dst seq : Nat} {p : Fin 36} (hl : (s.port p).live = true) (h : ∃ t ∈ s.transfers, resends s dst seq p.val t = true) :
    exec (.fabricResend dst seq p) s = .next (putFlit { s with
      transfers := s.transfers.map fun t => if resends s dst seq p.val t then { t with plane := some p.val, sent := s.time } else t } p.val) := by
  show execFabricResend dst seq p s = _
  rw [execFabricResend, if_pos (by rw [hl, List.any_eq_true.2 h, Bool.and_self])]

/-! Accesses of another module (R157, R291). -/

/-- Writing bytes as the number they make. -/
theorem memWrite_pack (m : Memory) (a : Nat) (data : List Byte) : memWrite m a data.length (pack 8 (data.map (·.toNat))) = memPut m a data := by
  induction data generalizing m a with
  | nil => rfl
  | cons b bs ih =>
    have hb : b.toNat < 256 := b.isLt
    have hlow : BitVec.ofNat 8 (pack 8 ((b :: bs).map (·.toNat))) = b := by
      apply BitVec.eq_of_toNat_eq
      simp only [List.map_cons, pack, BitVec.toNat_ofNat]
      omega
    have hhigh : pack 8 ((b :: bs).map (·.toNat)) / 256 = pack 8 (bs.map (·.toNat)) := by
      simp only [List.map_cons, pack]
      omega
    rw [List.length_cons, memWrite, hlow, hhigh, ih, memPut]

/-- A write of 8 bytes covers no unit of 64 whole. -/
theorem unpoison_word (p : List Nat) (pa : Nat) : unpoison p pa 8 = p := by
  rw [unpoison, List.filter_eq_self]
  intro u _
  simp only [Bool.not_eq_true', Bool.and_eq_false_iff, decide_eq_false_iff_not]
  omega

theorem physPut_mem {pa : Nat} (n v : Nat) (hk : physKind s pa = .memory) :
    physPut pa n v s = .ok () { s with mem := memWrite s.mem pa n v, poison := unpoison s.poison pa n } := by
  simp only [physPut, run_bind, run_get, hk, run_set]

theorem applyAccess_write {pa : Nat} {data : List Byte} (hd : data ≠ [])
    (h : ∀ i, i < data.length → paHome (pa + i) = s.modId.val ∧ physKind s (pa + i) = .memory) :
    applyAccess s (.write pa data) = { s with mem := memPut s.mem pa data, poison := unpoison s.poison pa data.length } := by
  have hpos : 0 < data.length := List.length_pos_iff.2 hd
  obtain ⟨hhome, hk⟩ := h 0 hpos
  have hlast : physKind s (pa + data.length - 1) = .memory := by
    rw [Nat.add_sub_assoc hpos]
    exact (h (data.length - 1) (by omega)).2
  have hput := physPut_mem data.length (pack 8 (data.map (·.toNat))) hk
  rw [memWrite_pack] at hput
  simp only [applyAccess, homeAccess, run_bind, run_get, show paHome pa = s.modId.val from hhome, hlast]
  simp [show physPut pa _ _ s = _ from hput]

theorem amoApply_cas (old b c : Word) : (amoOfCode 2).apply old b c = if old = c then some b else none := rfl

section
variable {pa : Nat} (hhome : paHome pa = s.modId.val) (hk : physKind s pa = .memory) (hk' : physKind s (pa + 7) = .memory)
include hhome hk hk'

theorem applyAccess_amo (op : Fin 8) (b c : BitVec 64) : applyAccess s (.amo pa op b c) =
    match (amoOfCode op).apply (BitVec.ofNat 64 (memRead s.mem pa 8)) b c with
    | some v => { s with mem := memWrite s.mem pa 8 v.toNat }
    | none => s := by
  have hget : physGet pa 8 s = .ok (memRead s.mem pa 8) s := by simp only [physGet, run_bind, run_get, hk, run_pure]
  simp only [applyAccess, homeAccess, run_bind, run_get, hhome, hk']
  simp only [BEq.rfl, Bool.true_and, show (PaKind.memory != PaKind.absent) = true from rfl, if_true, run_bind, hget]
  cases (amoOfCode op).apply (BitVec.ofNat 64 (memRead s.mem pa 8)) b c with
  | some v => simp only [physPut_mem 8 v.toNat hk, unpoison_word]
  | none => rfl

variable {src seq : Nat} (hn : (src, seq) ∉ s.applied)
include hn

/-- An atomic that writes. -/
theorem delivery_amo_writes {op : Fin 8} {b c v : BitVec 64} (hv : (amoOfCode op).apply (BitVec.ofNat 64 (memRead s.mem pa 8)) b c = some v) :
    exec (.fabricDelivery src seq (.amo pa op b c)) s = .next { s with mem := memWrite s.mem pa 8 v.toNat, applied := s.applied ++ [(src, seq)] } := by
  show execFabricDelivery src seq (.amo pa op b c) s = _
  simp [execFabricDelivery, hn, applyAccess_amo hhome hk hk', hv]

/-- One that does not: CAS with another value than its comparand. -/
theorem delivery_amo_none {op : Fin 8} {b c : BitVec 64} (hv : (amoOfCode op).apply (BitVec.ofNat 64 (memRead s.mem pa 8)) b c = none) :
    exec (.fabricDelivery src seq (.amo pa op b c)) s = .next { s with applied := s.applied ++ [(src, seq)] } := by
  show execFabricDelivery src seq (.amo pa op b c) s = _
  simp [execFabricDelivery, hn, applyAccess_amo hhome hk hk', hv]

end

theorem delivery_write {src seq pa : Nat} {data : List Byte} (hd : data ≠ [])
    (h : ∀ i, i < data.length → paHome (pa + i) = s.modId.val ∧ physKind s (pa + i) = .memory) (hn : (src, seq) ∉ s.applied) :
    exec (.fabricDelivery src seq (.write pa data)) s =
      .next { s with mem := memPut s.mem pa data, poison := unpoison s.poison pa data.length, applied := s.applied ++ [(src, seq)] } := by
  show execFabricDelivery src seq (.write pa data) s = _
  simp [execFabricDelivery, hn, applyAccess_write hd h]

theorem delivery_again {src seq : Nat} (a : FabricAccess) (h : (src, seq) ∈ s.applied) : exec (.fabricDelivery src seq a) s = .next s := by
  show execFabricDelivery src seq a s = _
  cases a <;> simp [execFabricDelivery, h]

end Sys2Proof.Machine
end

section
/-! PROOF. Links and ports, and the fencing of units (O50). -/

namespace Sys2Proof.Machine

variable {s : State}

/-! Balfin ports (R392). -/

@[simp] theorem State.port_modPort_self (s : State) (p : Fin 36) (f : Port → Port) : (s.modPort p f).port p = f (s.port p) := by
  simp [State.port, State.modPort]

theorem State.port_modPort_ne (s : State) {p r : Fin 36} (f : Port → Port) (h : r ≠ p) : (s.modPort p f).port r = s.port r :=
  tabGet_tabSet_ne _ _ _ fun e => h (Fin.ext e)

theorem askService_eq (s : State) (b : Bool) : askService s b = { s with service := (askService s b).service } := by
  unfold askService
  split <;> rfl

/-- A port fenced. -/
def Port.cut (k : Port) : Port := { k with live := false, fenced := true }

/-- Fencing a port changes that port, and what R352 counts. -/
theorem fencePort_eq {p : Fin 36} (h : (s.port p).fenced = false) :
    fencePort s p = { s.modPort p Port.cut with service := (fencePort s p).service } := by
  rw [fencePort, if_neg (by simp [h])]
  exact askService_eq _ _

theorem fencePort_port_self {p : Fin 36} (h : (s.port p).fenced = false) : (fencePort s p).port p = (s.port p).cut := by
  rw [fencePort_eq h]
  exact State.port_modPort_self s p Port.cut

theorem fencePort_port_ne {p r : Fin 36} (h : (s.port p).fenced = false) (hr : r ≠ p) : (fencePort s p).port r = s.port r := by
  rw [fencePort_eq h]
  exact State.port_modPort_ne s Port.cut hr

theorem fencePort_fenced (p : Fin 36) : ((fencePort s p).port p).fenced = true := by
  by_cases h : (s.port p).fenced = true
  · rw [fencePort, if_pos h, h]
  · rw [fencePort_port_self (Bool.eq_false_iff.2 h), Port.cut]

section
variable {p : Fin 36}

theorem flitReplay_counts {seq : Nat} (hl : (s.port p).live = true) (hs : seq ∈ (s.port p).replay) (hf : (s.port p).failed < 8) :
    exec (.balfinFlitReplay p seq) s = .next (s.modPort p fun k =>
      { k with bad := some seq, failed := if k.bad = some seq then k.failed + 1 else 1 }) := by
  show execBalfinFlitReplay p seq s = _
  simp [execBalfinFlitReplay, State.modPort, hl, hs, Nat.not_le.2 hf]

theorem balfinRetrain_early (h : (s.port p).failed < 8) (ok : Bool) : exec (.balfinRetrain p ok) s = .next s := by
  show execBalfinRetrain p ok s = _
  simp [execBalfinRetrain, h]

theorem flitAcknowledged_clean {seq : Nat} (hb : (s.port p).bad = none) :
    exec (.flitAcknowledgement p seq) s = .next (s.modPort p fun k => { k with replay := k.replay.filter fun n => seq < n }) := by
  show execFlitAcknowledgement p seq s = _
  simp [execFlitAcknowledgement, State.modPort, hb]

/-- An acknowledgement that reaches the flit being replayed ends its count of failures. -/
theorem flitAcknowledged_past {seq b : Nat} (hb : (s.port p).bad = some b) (h : b ≤ seq) :
    exec (.flitAcknowledgement p seq) s = .next (s.modPort p fun k => { k with replay := k.replay.filter fun n => seq < n, bad := none, failed := 0 }) := by
  show execFlitAcknowledgement p seq s = _
  simp [execFlitAcknowledgement, State.modPort, hb, h]

variable (hl : (s.port p).live = true) (hf : 8 ≤ (s.port p).failed)
include hl hf

theorem balfinRetrain_ok : exec (.balfinRetrain p true) s = .next (s.modPort p fun k => { k with bad := none, failed := 0 }) := by
  show execBalfinRetrain p true s = _
  simp [execBalfinRetrain, hl, Nat.not_lt.2 hf]

theorem balfinRetrain_failed : exec (.balfinRetrain p false) s = .next (fencePort s p) := by
  show execBalfinRetrain p false s = _
  simp [execBalfinRetrain, hl, Nat.not_lt.2 hf]

end

/-! Memory links (R349). -/

@[simp] theorem State.memLink_modLink_self (s : State) (l : Fin 96) (f : MemLink → MemLink) : (s.modLink l f).memLink l = f (s.memLink l) := by
  simp [State.memLink, State.modLink]

theorem fenceLink_fenced (l : Fin 96) : ((fenceLink s l).memLink l).fenced = true := by
  unfold fenceLink
  split
  · assumption
  · extract_lets aux s1 s2 s3 s4
    have h2 : (s2.memLink l).fenced = true := congrArg MemLink.fenced (State.memLink_modLink_self s1 l _)
    have h3 : s2.SameUnits s3 := (State.SameUnits.refl s2).foldl (fun _ _ hu => hu.saddlerReport _ _ _ _ _ _) _
    rw [((h3.replanAll _ _ _).askService _).memLink, h2]

section
variable {l : Fin 96} (hf : (s.memLink l).fenced = false)
include hf

theorem crcRetry_counts (hr : (s.memLink l).retries < 16) :
    exec (.memLinkCrcRetry l) s = .next (s.modLink l fun k => { k with retries := k.retries + 1 }) := by
  show execMemLinkCrcRetry l s = _
  simp [execMemLinkCrcRetry, State.modLink, hf, Nat.not_le.2 hr]

omit hf in
theorem linkRetrain_early (hr : (s.memLink l).retries < 16) (ok : Bool) : exec (.memLinkRetrain l ok) s = .next s := by
  show execMemLinkRetrain l ok s = _
  simp [execMemLinkRetrain, hr]

variable (hr : 16 ≤ (s.memLink l).retries)
include hr

theorem linkRetrain_ok : exec (.memLinkRetrain l true) s = .next (s.modLink l fun k => { k with retries := 0 }) := by
  show execMemLinkRetrain l true s = _
  simp [execMemLinkRetrain, hf, Nat.not_lt.2 hr]

/-- A failure before the third of an hour is noted, the third fences the link. -/
theorem linkRetrain_failed : exec (.memLinkRetrain l false) s =
    let recent := (s.memLink l).failures.filter fun t => s.time < t + 3600000000000
    let t := s.modLink l fun k => { k with failures := s.time :: recent }
    .next (if 2 ≤ recent.length then fenceLink t l else t) := by
  show execMemLinkRetrain l false s = _
  simp [execMemLinkRetrain, hf, Nat.not_lt.2 hr]

end

/-! Lost modules (R349). -/

theorem moduleLost_unreachable {m : Nat} (hm : m < 144) :
    ∃ u ∈ (if s.unreachable.any (fun u => u.val == m) then s.unreachable else s.unreachable ++ [Fin.ofNat 144 m]), u.val = m := by
  split
  next h => simpa using h
  next => exact ⟨Fin.ofNat 144 m, by simp, Nat.mod_eq_of_lt hm⟩

theorem moduleLost_eq {m : Nat} (hm : m < 144) (hs : m ≠ s.modId.val) : exec (.homeModuleLost m) s = .next { s with
    unreachable := if s.unreachable.any (fun u => u.val == m) then s.unreachable else s.unreachable ++ [Fin.ofNat 144 m]
    transfers := s.transfers.filter fun t => t.dst != m } := by
  show execHomeModuleLost m s = _
  simp [execHomeModuleLost, hm, hs]

/-! Units (R14, R350). -/

/-- A spare takes a core's index over as at READY (R14): what follows its fence writes pool bytes alone. -/
theorem fenceCore_spare {i : Fin 1024} (h : (s.cluster (i.val / 8)).spareUsed = false) :
    ((fenceCore s i).cluster (i.val / 8)).spareUsed = true ∧
      (fenceCore s i).core i.val = { Core.reset with pool := ((fenceCore s i).core i.val).pool, poison := ((fenceCore s i).core i.val).poison } ∧
      ∀ lc : Fin 8, lc.val < 4 → ((fenceCore s i).ctx { core := i, lc }).resident = false := by
  rw [fenceCore, if_neg (by simp [clusterOf, h])]
  extract_lets s1 s2 held
  have hu : s2.SameUnits (askService (replanAll s2 (fun g => g.reserved.any held) (fun _ => false) (.core i)) true) :=
    ((State.SameUnits.refl s2).replanAll _ _ _).askService _
  refine ⟨?_, ?_, fun lc hlc => ?_⟩
  · rw [hu.cluster]
    exact congrArg Cluster.spareUsed (State.cluster_modCluster_self _ _ _)
  · have hc : s2.core i.val = Core.reset := State.core_setCore_self s1 i.val Core.reset
    have hk := hu.core i.val
    rwa [hc] at hk
  · rw [hu.ctx]
    exact killCore_frees (.core i) s i (mem_coreCtxs i hlc)

theorem fenceCluster_fenced (i : Fin 128) : ((fenceCluster s i).cluster i.val).service = .fenced := by
  unfold fenceCluster
  extract_lets u s1 s2 s3
  rw [((State.SameUnits.refl s3).replanAll _ _ _).cluster]
  exact congrArg Cluster.service (State.cluster_modCluster_self _ _ _)

theorem fenceWalker_fenced (i : Fin 32) : i.val ∈ (fenceWalker s i).walkerFenced := by
  unfold fenceWalker
  extract_lets s1 s2 held
  have h1 : i.val ∈ s1.walkerFenced := by
    simp only [s1]
    split
    · simpa using ‹s.walkerFenced.contains i.val = true›
    · simp
  have h2 : s1.NoneStarts s2 := (State.NoneStarts.refl s1).foldl (fun _ _ hu => hu.quietly (endOps_noneStarts _ _)) _
  rw [((State.SameUnits.refl s2).replanAll _ _ _).walkerFenced, h2.walkerFenced]
  exact h1

/-- Settles O50: each clause is the run of its step; what follows a fence by re-planning leaves every unit as it is (`State.SameUnits`), and a Kill starts no node (`State.NoneStarts`). -/
theorem linkAndFenceResults : Obligations.LinkAndFenceResults := by
  refine ⟨fun s => ⟨fun pa hh => ?_, fun src seq pa data h hd hn => delivery_write hd h hn, fun src seq pa b c hhome hk hk' hn => ?_, fun src seq a h => delivery_again a h,
    fun dst seq => ⟨_, rfl, rfl, mem_acknowledged dst seq⟩, fun dst seq p hl => ?_, fun p seq => ?_, fun l => ?_, fun m hm hs => ?_⟩, fun s => ?_⟩
  case refine_1 =>
    exact ⟨physKind_lost_iff hh, transfer_gone hh, transfer_noPlane hh, fun p => transfer_sent hh⟩
  case refine_2 =>
    have writes (op : Fin 8) {v : BitVec 64} := delivery_amo_writes hhome hk hk' hn (op := op) (b := b) (c := c) (v := v)
    exact ⟨writes 0 rfl, writes 1 rfl, fun h => writes 2 ((amoApply_cas _ b c).trans (if_pos h)),
      fun h => delivery_amo_none hhome hk hk' hn ((amoApply_cas _ b c).trans (if_neg h)), writes 3 rfl, writes 4 rfl, writes 5 rfl, writes 6 rfl, writes 7 rfl⟩
  case refine_3 =>
    simp only [← resends_iff]
    exact ⟨fabricResend_none, fabricResend_due hl⟩
  case refine_4 =>
    refine ⟨flitReplay_counts, balfinRetrain_ok, fun hl hf hn => ?_, balfinRetrain_early, flitAcknowledged_clean, fun b => flitAcknowledged_past⟩
    refine ⟨_, balfinRetrain_failed hl hf, fencePort_port_self hn, ?_, ?_, fun r hr => fencePort_port_ne hn hr⟩
    all_goals
      rw [fencePort_eq hn]
      rfl
  case refine_5 =>
    refine ⟨fun hf hr => ⟨crcRetry_counts hf hr, linkRetrain_early hr⟩, fun hf hr => ⟨linkRetrain_ok hf hr, fun h => ?_, fun h => ?_⟩⟩
    · rw [linkRetrain_failed hf hr]
      exact congrArg _ (if_neg (Nat.not_le.2 h))
    · exact ⟨_, (linkRetrain_failed hf hr).trans (congrArg _ (if_pos h)), fenceLink_fenced l⟩
  case refine_6 =>
    refine ⟨_, moduleLost_eq hm hs, rfl, moduleLost_unreachable hm, fun x => ?_⟩
    simp only [List.mem_filter, bne_iff_ne]
  case refine_7 =>
    exact ⟨fun i h => ⟨_, rfl, fenceCore_spare h⟩, fun i => ⟨_, rfl, fenceCluster_fenced i⟩, fun i => rfl, fun i => ⟨_, rfl, fenceWalker_fenced i⟩,
      fun l => ⟨_, rfl, fenceLink_fenced l⟩, fun p => ⟨_, rfl, fencePort_fenced p⟩, by decide⟩

end Sys2Proof.Machine
end

section
/-! PROOF. What performing the stores of a context, and giving up its bindings, leave alone (O22). -/

namespace Sys2Proof.Machine

/-- Two states that differ at most in memory and its poison, in pools, in scalar data caches and in what transfers note: every context is as before, and a core but for those. -/
structure State.Drained (s t : State) : Prop where
  ctxs : t.ctxs = s.ctxs
  core : ∀ i, t.core i = { s.core i with pool := (t.core i).pool, poison := (t.core i).poison, dcache := (t.core i).dcache }

namespace State.Drained

variable {s t u : State}

theorem refl (s : State) : s.Drained s := ⟨rfl, fun _ => rfl⟩

theorem trans (h : s.Drained t) (g : t.Drained u) : s.Drained u :=
  ⟨g.ctxs.trans h.ctxs, fun i => by rw [g.core i, h.core i]⟩

theorem units (h : s.Drained t) (g : t.SameUnits u) : s.Drained u :=
  h.trans ⟨g.ctxs, fun i => by rw [g.core i]⟩

/-- A change of memory, or of what transfers note. -/
theorem same (h : s.Drained t) (e : (u.ctxs, u.cores) = (t.ctxs, t.cores)) : s.Drained u := by
  simp only [Prod.mk.injEq] at e
  obtain ⟨ectxs, ecores⟩ := e
  have hcore : ∀ i, u.core i = t.core i := fun i => by rw [State.core, ecores]; rfl
  exact ⟨ectxs.trans h.ctxs, fun i => by rw [hcore]; exact h.core i⟩

theorem setCache (h : s.Drained t) (c : Nat) (ls : List DLine) : s.Drained (t.modCore c fun k => { k with dcache := ls }) := by
  refine ⟨h.ctxs, fun i => ?_⟩
  by_cases e : i = c
  · rw [e, State.core_modCore_self, h.core c]
  · rw [State.core_modCore_ne t _ e]
    exact h.core i

theorem foldl {α : Type} {f : State → α → State} (hf : ∀ u a, s.Drained u → s.Drained (f u a)) (l : List α) (h : s.Drained t) :
    s.Drained (l.foldl f t) :=
  List.foldlRecOn l f h fun u hu a _ => hf u a hu

theorem flushLine (h : s.Drained t) (l : DLine) : s.Drained (flushLine t l) := by
  unfold Machine.flushLine
  split
  · exact h
  · refine (h.trans ?_).units ((SameUnits.refl _).sendTo _)
    exact (refl t).same rfl

theorem flushLines (h : s.Drained t) (core : Nat) (p : DLine → Bool) (drop : Bool) : s.Drained (flushLines t core p drop) :=
  (h.foldl (fun _ l hu => hu.flushLine l) _).setCache core _

theorem dropLine (h : s.Drained t) (core : Nat) (l : Loc) : s.Drained (dropLine t core l) := by
  unfold Machine.dropLine
  split
  · split
    · exact h.flushLines _ _ _
    · exact h
  all_goals exact h

theorem landStore (h : s.Drained t) (core : Nat) (p : PStore) : s.Drained (landStore core t p) := by
  unfold Machine.landStore
  split
  · exact h.units ((SameUnits.refl _).poolPut _ _ _ _)
  · exact h.units ((SameUnits.refl _).poolPut _ _ _ _)
  · exact (h.dropLine _ _).units ((SameUnits.refl _).ownWrite _ _ _)

theorem ctx (h : s.Drained t) (c : CtxId) : t.ctx c = s.ctx c := by rw [State.ctx, h.ctxs]; rfl

theorem slots (h : s.Drained t) (i : Nat) : (t.core i).slots = (s.core i).slots := by rw [h.core i]

end State.Drained

/-- Performing the stores of a context changes no other context, and of a core what draining changes (R281). -/
theorem performStores_drained (s : State) (c : CtxId) :
    ∃ u, s.Drained u ∧ (∀ d, (performStores s c).ctx d = if d = c then { s.ctx d with stores := [] } else s.ctx d) ∧ (performStores s c).cores = u.cores := by
  unfold performStores
  by_cases he : (s.ctx c).stores.isEmpty = true
  · have hn : (s.ctx c).stores = [] := List.isEmpty_iff.1 he
    refine ⟨s, .refl s, fun d => ?_, by rw [if_pos he]⟩
    rw [if_pos he]
    split
    · subst d
      rw [← hn]
    · rfl
  · rw [if_neg he]
    have hd := (State.Drained.refl s).foldl (fun u p hu => hu.landStore c.core.val p) ((s.ctx c).stores.take (s.ctx c).stores.length)
    refine ⟨_, hd, fun d => ?_, rfl⟩
    unfold landStores
    split
    · subst d
      rw [State.ctx_modCtx_self, hd.ctx, List.drop_length]
    · rw [State.ctx_modCtx_ne _ _ ‹_›, hd.ctx]

theorem performStores_ctx_self (s : State) (c : CtxId) : (performStores s c).ctx c = { s.ctx c with stores := [] } := by
  obtain ⟨_, _, hctx, _⟩ := performStores_drained s c
  rw [hctx, if_pos rfl]

theorem performStores_ctx_ne (s : State) {c d : CtxId} (h : d ≠ c) : (performStores s c).ctx d = s.ctx d := by
  obtain ⟨_, _, hctx, _⟩ := performStores_drained s c
  rw [hctx, if_neg h]

theorem performStores_slots (s : State) (c : CtxId) (i : Nat) : ((performStores s c).core i).slots = (s.core i).slots := by
  obtain ⟨u, hu, _, hcores⟩ := performStores_drained s c
  rw [State.core, hcores]
  exact hu.slots i

end Sys2Proof.Machine
end

section
/-! PROOF. How a node that retires leaves the nodes of its graph (O22). -/

namespace Sys2Proof.Machine

theorem tabFind_tabSet_self {α : Type} (t : Table α) (n : Nat) (v : α) : tabFind (tabSet t n v) n = some v := by
  induction t with
  | nil => simp [tabSet, tabFind]
  | cons p t ih =>
    obtain ⟨k, w⟩ := p
    by_cases h : k = n
    · simp [tabSet, tabFind, h]
    · by_cases g : n < k
      · simp [tabSet, tabFind, h, g]
      · simp [tabSet, tabFind, h, g, ih]

section
variable {s : State} {g : Graph}

theorem graph_modNode {r : NodeRef} (h : tabFind s.graphs r.graph = some g) (f : GNode → GNode) :
    tabFind (s.modNode r f).graphs r.graph = some { g with nodes := g.nodes.modify r.node f } := by
  unfold State.modNode State.modGraph
  simp only [h, tabFind_tabSet_self]

theorem gnode_eq {r : NodeRef} (h : tabFind s.graphs r.graph = some g) : s.gnode r = g.nodes[r.node]? := by
  unfold State.gnode
  simp only [h]

/-- A node that enters a ready pool is ready; its graph's other nodes stand (R302). -/
theorem graph_enqueueNode {r : NodeRef} {n : GNode} (h : tabFind s.graphs r.graph = some g) (hn : g.nodes[r.node]? = some n) :
    ∃ f : GNode → GNode, (∀ m, (f m).desc = m.desc ∧ (f m).preds = m.preds ∧ (f m).st = .ready) ∧
      tabFind (enqueueNode s r).graphs r.graph = some { g with nodes := g.nodes.modify r.node f } := by
  have hg := (gnode_eq h).trans hn
  unfold enqueueNode
  simp only [h, hg]
  refine ⟨_, ?_, graph_modNode h _⟩
  exact fun m => ⟨rfl, rfl, rfl⟩

end

/-- A predecessor of node `i` has retired: the count falls (R275). -/
def predsFall (k : Nat) (wrote : List (Nat × Nat × Nat)) (s : State) (i : Nat) : State :=
  s.modNode ⟨k, i⟩ fun m => { m with preds := m.preds - 1, placed := if blkField m.desc 0 1 = 0 then m.placed ++ wrote else m.placed }

/-- A waiting node whose count is zero enters a ready pool (R275, R302). -/
def readyAtZero (k : Nat) (s : State) (i : Nat) : State :=
  match s.gnode ⟨k, i⟩ with
  | some m => if m.preds = 0 && m.st == .waiting then enqueueNode s ⟨k, i⟩ else s
  | none => s

/-- The graph of a node that retires, before it is settled. -/
def retiring (s : State) (r : NodeRef) (g : Graph) (n : GNode) : State :=
  let s1 := n.succs.foldl (predsFall r.graph (nodeWrote n)) (s.modNode r fun n => { n with st := .retired })
  if g.st == .active then n.succs.eraseDups.foldl (readyAtZero r.graph) s1 else s1

theorem retireNode_eq {s : State} {r : NodeRef} {g : Graph} {n : GNode} (hg : tabFind s.graphs r.graph = some g) (hn : g.nodes[r.node]? = some n) :
    retireNode s r = settleGraph (retiring s r g n) r.graph := by
  unfold retireNode
  simp only [hg, (gnode_eq hg).trans hn]
  rfl

/-- Counts fall by once for each time a node is named. -/
theorem foldl_predsFall (k : Nat) (wrote : List (Nat × Nat × Nat)) (l : List Nat) {s : State} {g : Graph} (h : tabFind s.graphs k = some g) :
    ∃ g', tabFind (l.foldl (predsFall k wrote) s).graphs k = some g' ∧
      ∀ (i : Nat) (m : GNode), g.nodes[i]? = some m → ∃ p, g'.nodes[i]? = some { m with preds := m.preds - l.count i, placed := p } := by
  induction l generalizing s g with
  | nil => exact ⟨g, h, fun i m hm => ⟨m.placed, hm⟩⟩
  | cons a l ih =>
    obtain ⟨g', hg', hp⟩ := ih (graph_modNode (r := ⟨k, a⟩) h _)
    refine ⟨g', hg', fun i m hm => ?_⟩
    by_cases e : a = i
    · subst e
      obtain ⟨p, hp⟩ := hp a _ (by rw [List.getElem?_modify_eq, hm]; rfl)
      refine ⟨p, hp.trans ?_⟩
      simp only [List.count_cons_self, Nat.sub_sub, Nat.add_comm 1]
    · obtain ⟨p, hp⟩ := hp i m (by rw [List.getElem?_modify_ne _ _ e, hm])
      refine ⟨p, ?_⟩
      rw [List.count_cons_of_ne e]
      exact hp

/-- The node named, and no other, may become ready. -/
theorem graph_readyAtZero (k a : Nat) {s : State} {g : Graph} (h : tabFind s.graphs k = some g) :
    ∃ g1, tabFind (readyAtZero k s a).graphs k = some g1 ∧ ∀ (i : Nat) (m : GNode), g.nodes[i]? = some m → ∃ m', g1.nodes[i]? = some m' ∧
      m'.desc = m.desc ∧ m'.preds = m.preds ∧ m'.st = if i = a ∧ m.preds = 0 ∧ m.st = .waiting then .ready else m.st := by
  unfold readyAtZero
  rw [gnode_eq (r := ⟨k, a⟩) h]
  cases hn : g.nodes[a]? with
  | none => exact ⟨g, h, fun i m hm => ⟨m, hm, rfl, rfl, by rw [if_neg fun c => by simp [c.1, hn] at hm]⟩⟩
  | some n =>
    by_cases hw : n.preds = 0 ∧ n.st = .waiting
    · obtain ⟨f, hf, hg⟩ := graph_enqueueNode (r := ⟨k, a⟩) h hn
      simp only [hw, decide_true, beq_self_eq_true, Bool.and_self, if_true]
      refine ⟨_, hg, fun i m hm => ?_⟩
      by_cases e : i = a
      · subst e
        obtain rfl : n = m := Option.some.inj (hn.symm.trans hm)
        refine ⟨f n, by rw [List.getElem?_modify_eq, hm]; rfl, (hf n).1, (hf n).2.1, ?_⟩
        rw [if_pos ⟨rfl, hw⟩, (hf n).2.2]
      · exact ⟨m, by rw [List.getElem?_modify_ne _ _ (Ne.symm e), hm], rfl, rfl, by rw [if_neg fun c => e c.1]⟩
    · have hb : (decide (n.preds = 0) && n.st == .waiting) = false := by simpa using hw
      simp only [hb, Bool.false_eq_true, if_false]
      refine ⟨g, h, fun i m hm => ⟨m, hm, rfl, rfl, ?_⟩⟩
      rw [if_neg]
      rintro ⟨rfl, c⟩
      obtain rfl : n = m := Option.some.inj (hn.symm.trans hm)
      exact hw c

/-- Of the nodes named, those that wait with a count of zero become ready. -/
theorem foldl_readyAtZero (k : Nat) (l : List Nat) {s : State} {g : Graph} (h : tabFind s.graphs k = some g) :
    ∃ g', tabFind (l.foldl (readyAtZero k) s).graphs k = some g' ∧
      ∀ (i : Nat) (m : GNode), g.nodes[i]? = some m → ∃ m', g'.nodes[i]? = some m' ∧ m'.desc = m.desc ∧ m'.preds = m.preds ∧
        m'.st = if i ∈ l ∧ m.preds = 0 ∧ m.st = .waiting then .ready else m.st := by
  induction l generalizing s g with
  | nil => exact ⟨g, h, fun i m hm => ⟨m, hm, rfl, rfl, by simp⟩⟩
  | cons a l ih =>
    obtain ⟨g1, h1, hs⟩ := graph_readyAtZero k a h
    obtain ⟨g', hg', hp⟩ := ih h1
    refine ⟨g', hg', fun i m hm => ?_⟩
    obtain ⟨m1, hm1, hd1, hp1, hs1⟩ := hs i m hm
    obtain ⟨m2, hm2, hd2, hp2, hs2⟩ := hp i m1 hm1
    refine ⟨m2, hm2, hd2.trans hd1, hp2.trans hp1, ?_⟩
    rw [hs2, hs1, hp1]
    by_cases e : i = a <;> by_cases hw : m.preds = 0 ∧ m.st = .waiting <;> simp_all

/-- A graph with a node that runs is not settled (R301). -/
theorem settleGraph_live {s : State} {k i : Nat} {g : Graph} {m : GNode} (h : tabFind s.graphs k = some g) (hm : g.nodes[i]? = some m) (hl : m.st.live = true) :
    settleGraph s k = s := by
  have live : g.nodes.any (fun n => n.st.live) = true := List.any_eq_true.2 ⟨m, List.mem_of_getElem? hm, hl⟩
  unfold settleGraph
  simp only [h, live, if_true]

/-- The graph of a node that retires: that node retired, its successors' counts lower, and those that wait with none left ready (R275). -/
theorem retiring_nodes {s : State} {r : NodeRef} {g : Graph} {n : GNode} (hg : tabFind s.graphs r.graph = some g) (hn : g.nodes[r.node]? = some n) :
    ∃ g', tabFind (retiring s r g n).graphs r.graph = some g' ∧ (∃ m, g'.nodes[r.node]? = some m ∧ m.st = .retired) ∧
      ∀ (i : Nat) (m : GNode), i ≠ r.node → g.nodes[i]? = some m → ∃ m', g'.nodes[i]? = some m' ∧ m'.desc = m.desc ∧ m'.preds = m.preds - n.succs.count i ∧
        m'.st = if i ∈ n.succs ∧ m.preds - n.succs.count i = 0 ∧ m.st = .waiting ∧ g.st = .active then .ready else m.st := by
  obtain ⟨g1, h1, fall⟩ := foldl_predsFall r.graph (nodeWrote n) n.succs (graph_modNode hg fun n => { n with st := .retired })
  obtain ⟨p, own⟩ := fall r.node { n with st := .retired } (by rw [List.getElem?_modify_eq, hn]; rfl)
  have other (i : Nat) (m : GNode) (hi : i ≠ r.node) (hm : g.nodes[i]? = some m) := fall i m (by rw [List.getElem?_modify_ne _ _ hi.symm, hm])
  unfold retiring
  by_cases ha : g.st = .active
  · obtain ⟨g2, h2, ready⟩ := foldl_readyAtZero r.graph n.succs.eraseDups h1
    refine ⟨g2, by simpa only [ha, beq_self_eq_true, if_true] using h2, ?_, fun i m hi hm => ?_⟩
    · obtain ⟨m, hm, _, _, hst⟩ := ready _ _ own
      exact ⟨m, hm, by simpa using hst⟩
    · obtain ⟨q, hq⟩ := other i m hi hm
      obtain ⟨m', hm', hd, hp, hst⟩ := ready i _ hq
      exact ⟨m', hm', hd, hp, by simpa [ha] using hst⟩
  · refine ⟨g1, by simpa [ha] using h1, ⟨_, own, rfl⟩, fun i m hi hm => ?_⟩
    obtain ⟨q, hq⟩ := other i m hi hm
    exact ⟨_, hq, rfl, rfl, by simp [ha]⟩

/-- A node of a graph that has another node running retires (R275). -/
theorem retireNode_nodes {s : State} {r : NodeRef} {g : Graph} {n : GNode} (hg : tabFind s.graphs r.graph = some g) (hn : g.nodes[r.node]? = some n)
    (hrun : ∃ (i : Nat) (m : GNode), i ≠ r.node ∧ g.nodes[i]? = some m ∧ m.st = .running) :
    (∃ m, (retireNode s r).gnode r = some m ∧ m.st = .retired) ∧
      ∀ (i : Nat) (m : GNode), i ≠ r.node → g.nodes[i]? = some m →
        ∃ m', (retireNode s r).gnode ⟨r.graph, i⟩ = some m' ∧ m'.desc = m.desc ∧ m'.preds = m.preds - n.succs.count i ∧
          m'.st = if i ∈ n.succs ∧ m.preds - n.succs.count i = 0 ∧ m.st = .waiting ∧ g.st = .active then .ready else m.st := by
  obtain ⟨g', hg', own, other⟩ := retiring_nodes hg hn
  obtain ⟨i, m, hi, hm, hst⟩ := hrun
  obtain ⟨m', hm', _, _, hst'⟩ := other i m hi hm
  have hl : m'.st.live = true := by simp [hst', hst, NodeState.live]
  rw [retireNode_eq hg hn, settleGraph_live hg' hm' hl]
  have node (j : Nat) : (retiring s r g n).gnode ⟨r.graph, j⟩ = g'.nodes[j]? := gnode_eq (r := ⟨r.graph, j⟩) hg'
  refine ⟨by rw [gnode_eq hg']; exact own, fun j => ?_⟩
  rw [node]
  exact other j

end Sys2Proof.Machine
end

section
/-! PROOF. The fences, and the ends of a node and of a context's work (O22). -/

namespace Sys2Proof.Machine

/-! What a fence waits for stands while stores are performed. -/

theorem State.StoresSent.enginesDone {s t : State} (h : s.StoresSent t) (c : CtxId) : enginesDone t c = enginesDone s c := by
  have hc := h.ctx c
  simp only [Machine.enginesDone, issuedTugs, issuedWalks, h.tugs, h.walks, h.arr]
  rw [hc]

theorem lanesDone_performStores (s : State) (c : CtxId) : lanesDone (performStores s c) c = lanesDone s c := by
  have hs := (State.StoresSent.refl s).performStores c
  simp only [lanesDone, hs.arr, performStores_slots, performStores_ctx_self]
  rfl

theorem performStores_cur (s : State) (c : CtxId) : (performStores s c).cur = s.cur := ((State.StoresSent.refl s).performStores c).cur

theorem awaitLanes_ok {s : State} (h : lanesDone s s.cur = true) : awaitLanes s = .ok () s := by
  unfold awaitLanes
  rw [run_bind_ok (run_get s), waitUnless_true h]

theorem awaitLanes_wait {s : State} (h : lanesDone s s.cur = false) : awaitLanes s = .error .wait s := by
  unfold awaitLanes
  rw [run_bind_ok (run_get s), waitUnless_false h]

section
variable {s : State}

/-! FENCE and FTFENCE. -/

/-- What a qualifier covers is complete: the stores are performed, and, where it covers anything, the dirty lines written back (R250, R270). -/
theorem awaitQual_ok {v e : Bool} (hv : v = true → lanesDone s s.cur = true) (he : e = true → enginesDone s s.cur = true) :
    awaitQual v e s = .ok () (if v || e then s.released else performStores s s.cur) := by
  have hcur := performStores_cur s s.cur
  have hl := lanesDone_performStores s s.cur
  have hd := ((State.StoresSent.refl s).performStores s.cur).enginesDone s.cur
  have lanes : v = true → awaitLanes (performStores s s.cur) = .ok () (performStores s s.cur) := fun h => awaitLanes_ok (by rw [hcur, hl, hv h])
  have engines : (!e || enginesDone (performStores s s.cur) (performStores s s.cur).cur) = true := by
    cases e
    · rfl
    · rw [hcur, hd, he rfl]; rfl
  have flush : flushAll (performStores s s.cur) = s.released := by rw [flushAll, hcur]; rfl
  unfold awaitQual
  rw [run_bind_ok (show drainAll s = .ok () (performStores s s.cur) from rfl)]
  cases v
  · simp only [Bool.false_eq_true, if_false, Bool.false_or, run_bind, run_get, waitUnless_true engines]
    cases e
    · rfl
    · simp only [if_true, run_modify, flush]
  · simp only [if_true, Bool.true_or, run_bind, lanes, run_get, waitUnless_true engines, run_modify, flush]

/-- Something a qualifier covers is not complete: the stores are performed all the same. -/
theorem awaitQual_wait {v e : Bool} (h : v = true ∧ lanesDone s s.cur = false ∨ e = true ∧ enginesDone s s.cur = false) :
    awaitQual v e s = .error .wait (performStores s s.cur) := by
  have hcur := performStores_cur s s.cur
  have hl := lanesDone_performStores s s.cur
  have hd := ((State.StoresSent.refl s).performStores s.cur).enginesDone s.cur
  unfold awaitQual
  rw [run_bind_ok (show drainAll s = .ok () (performStores s s.cur) from rfl)]
  have engines (he : e = true ∧ enginesDone s s.cur = false) :
      waitUnless (!e || enginesDone (performStores s s.cur) (performStores s s.cur).cur) (performStores s s.cur) = .error .wait (performStores s s.cur) :=
    waitUnless_false (by rw [he.1, hcur, hd, he.2]; rfl) _
  cases v
  · simp only [Bool.false_eq_true, if_false, run_bind, run_get, engines (h.resolve_left fun c => nomatch c.1)]
  · cases hb : lanesDone s s.cur
    · have lanes : awaitLanes (performStores s s.cur) = .error .wait (performStores s s.cur) := awaitLanes_wait (by rw [hcur, hl, hb])
      simp only [if_true, run_bind, lanes]
    · have lanes : awaitLanes (performStores s s.cur) = .ok () (performStores s s.cur) := awaitLanes_ok (by rw [hcur, hl, hb])
      simp only [if_true, run_bind, lanes, run_get, engines (h.resolve_left fun c => by simp [hb] at c)]

/-! HALT and NDONE. -/

/-- Every earlier vector and matrix instruction and every load is complete. -/
def State.AllDone (s : State) : Prop := lanesDone s s.cur = true ∧ s.me.land = []

theorem awaitAll_ok (h : s.AllDone) : awaitAll s = .ok () s := by
  unfold awaitAll
  rw [run_bind_ok (awaitLanes_ok h.1), run_bind_ok (run_getMe s)]
  exact waitUnless_true (by rw [h.2]; rfl) s

theorem awaitAll_wait (h : lanesDone s s.cur = false ∨ s.me.land ≠ []) : awaitAll s = .error .wait s := by
  unfold awaitAll
  cases hb : lanesDone s s.cur
  · exact run_bind_error (awaitLanes_wait hb)
  · rw [run_bind_ok (awaitLanes_ok hb), run_bind_ok (run_getMe s)]
    exact waitUnless_false (by simpa using h.resolve_left (by simp [hb])) s

theorem needPriv_ok {lvl : Nat} {i : Instr} (h : lvl ≤ s.me.priv.toNat) : needPriv lvl i s = .ok () s := by
  unfold needPriv
  rw [run_bind_ok (run_getMe s)]
  exact needN_true (by simpa using h) _ _ _

theorem halt_ok (f : A0) (hq : s.Quiet) (hp : 1 ≤ s.me.priv.toNat) (h : s.AllDone) :
    exec (.halt f) s = .next ((performStores s s.cur).went fun c => { c with st := .halted, pendTraps := if c.inh then [] else c.pendTraps }) := by
  have he (c : Ctx) : ({ c.endTraps with st := .halted } : Ctx) = { c with st := .halted, pendTraps := if c.inh then [] else c.pendTraps } := by
    unfold Ctx.endTraps
    split <;> rfl
  simp only [← he]
  refine scalar_modMe ?_ (((State.StoresSent.refl s).performStores _).quiet hq) ?_
  · rw [run_bind_ok (needPriv_ok hp), run_bind_ok (awaitAll_ok h), run_bind_ok (show drainAll s = .ok () (performStores s s.cur) from rfl)]
    rfl
  · unfold Ctx.endTraps
    split <;> rfl

theorem halt_wait (f : A0) (hp : 1 ≤ s.me.priv.toNat) (h : lanesDone s s.cur = false ∨ s.me.land ≠ []) : exec (.halt f) s = .next (hold s) := by
  refine scalar_wait (t := s) ?_
  rw [run_bind_ok (needPriv_ok hp), run_bind_error (awaitAll_wait h)]

/-- What NDONE waits for, and its release (R257, R275). -/
def ndoneWait : M Unit := do
  awaitAll
  let s ← get
  waitUnless (enginesDone s s.cur)
  release

theorem exec_ndone (f : A0) (s : State) : exec (.ndone f) s = match ndoneWait s with
    | .ok _ t => .next (startNext (leaveNode t t.cur) t.cur)
    | .error e t => scalarExc e t := rfl

theorem ndone_ok (f : A0) (h : s.AllDone) (he : enginesDone s s.cur = true) :
    exec (.ndone f) s = .next (startNext (leaveNode s.released s.cur) s.cur) := by
  have hw : ndoneWait s = .ok () s.released := by
    unfold ndoneWait
    rw [run_bind_ok (awaitAll_ok h), run_bind_ok (run_get s), run_bind_ok (waitUnless_true he s), run_release]
  have hcur : s.released.cur = s.cur := (released_sent s).cur
  rw [exec_ndone, hw]
  simp only [hcur]

theorem ndone_wait (f : A0) (h : lanesDone s s.cur = false ∨ s.me.land ≠ [] ∨ enginesDone s s.cur = false) : exec (.ndone f) s = .next (hold s) := by
  have hw : ndoneWait s = .error .wait s := by
    unfold ndoneWait
    by_cases ha : lanesDone s s.cur = false ∨ s.me.land ≠ []
    · exact run_bind_error (awaitAll_wait ha)
    · simp only [not_or, Bool.not_eq_false, not_not] at ha
      have he : enginesDone s s.cur = false := by simpa [ha] using h
      rw [run_bind_ok (awaitAll_ok ha), run_bind_ok (run_get s), run_bind_error (waitUnless_false he s)]
  rw [exec_ndone, hw]
  rfl

end

/-! The end of a node. -/

section
variable (s : State) (c : CtxId)

theorem dropBinds_ctx (d : CtxId) : (dropBinds s c).ctx d = if d = c ∧ (s.ctx c).binds ≠ [] then { s.ctx d with binds := [], held := [] } else s.ctx d := by
  unfold dropBinds
  by_cases hb : (s.ctx c).binds = []
  · simp [hb]
  · have hf := (State.Drained.refl s).flushLines c.core.val (fun _ => true) true
    simp only [List.isEmpty_iff, hb, if_false, ne_eq, not_false_eq_true, and_true]
    split
    · subst d
      rw [State.ctx_modCtx_self, hf.ctx]
    · rw [State.ctx_modCtx_ne _ _ ‹_›, hf.ctx]

theorem dropBinds_slots (i : Nat) : ((dropBinds s c).core i).slots = (s.core i).slots := by
  unfold dropBinds
  extract_lets bs
  split
  · rfl
  · exact ((State.Drained.refl s).flushLines c.core.val (fun _ => true) true).slots i

theorem dropBinds_dcache (h : (s.ctx c).binds ≠ []) : ((dropBinds s c).core c.core.val).dcache = [] := by
  unfold dropBinds
  simp only [List.isEmpty_iff, h, if_false]
  simp [flushLines]

/-- Only what R257 and R425 name of the context that gives its node up, and of no other context. -/
theorem vacate_ctx_self : ∃ b h, (vacate s c).ctx c = Ctx.left { s.ctx c with stores := [], binds := b, held := h } := by
  unfold vacate
  simp only [State.ctx_modCtx_self]
  show ∃ b h, Ctx.left ((dropBinds (performStores s c) c).ctx c) = _
  rw [dropBinds_ctx, performStores_ctx_self]
  split
  · exact ⟨_, _, rfl⟩
  · exact ⟨_, _, rfl⟩

theorem vacate_ctx_ne {d : CtxId} (h : d ≠ c) : (vacate s c).ctx d = s.ctx d := by
  unfold vacate
  rw [State.ctx_modCtx_ne _ _ h]
  show (dropBinds (performStores s c) c).ctx d = _
  rw [dropBinds_ctx, if_neg fun e => h e.1, performStores_ctx_ne s h]

/-- The core a context leaves: its slots free, its resident slabs gone (R257). -/
def Core.vacated (k : Core) (lc : Fin 8) (rcb : Word) : Core :=
  { freeSlots k lc with last := some rcb, slabs := k.slabs.filter fun b => b.1 != lc.val }

theorem vacate_core : (vacate s c).core c.core.val = ((dropBinds (performStores s c) c).core c.core.val).vacated c.lc (s.ctx c).rcb :=
  State.core_modCore_self _ _ fun k => k.vacated c.lc (s.ctx c).rcb

theorem vacate_slots (n : Fin 32) : ((vacate s c).core c.core.val).slots[n] =
    if ((s.core c.core.val).slots[n]).ownedBy c.lc = true then { (s.core c.core.val).slots[n] with st := .free, dbl := false, mld := false }
    else (s.core c.core.val).slots[n] := by
  rw [vacate_core]
  simp only [Core.vacated, freeSlots, dropBinds_slots, performStores_slots, Slot.ownedBy, Fin.getElem_fin, Vector.getElem_map]
  rfl

theorem vacate_dcache (h : (s.ctx c).binds ≠ []) : ((vacate s c).core c.core.val).dcache = [] := by
  rw [vacate_core]
  refine dropBinds_dcache (performStores s c) c ?_
  rwa [performStores_ctx_self]

theorem leaveNode_none (h : (s.ctx c).node = none) : leaveNode s c = vacate s c := by
  simp only [leaveNode, h]

theorem leaveNode_some {r : NodeRef} (h : (s.ctx c).node = some r) : leaveNode s c = retireNode (vacate s c) r := by
  simp only [leaveNode, h]

end

/-- Settles O22: FENCE by what its qualifier waits for (`awaitQual_ok`, `awaitQual_wait`), the ends of a node by what `vacate` leaves of a context and its core, and a retired node's graph by the nodes it names (`retireNode_nodes`). -/
theorem fenceResults : Obligations.FenceResults := by
  refine ⟨fun s hq => ⟨fun f => ⟨fun hv he => ?_, fun hve hv he => ?_, fun h => ?_⟩, fun f => ⟨fun h => ?_, fun h => ?_, ?_, ?_, ?_, ?_⟩⟩, fun s c => ?_⟩
  · have hw := awaitQual_ok (s := s) (v := f.v) (e := f.e) (by simp [hv]) (by simp [he])
    exact scalar_ok (hw.trans (by simp [hv, he])) (((State.StoresSent.refl s).performStores _).quiet hq)
  · have hw := awaitQual_ok hv he
    exact scalar_ok (hw.trans (by simp [hve])) ((released_sent s).quiet hq)
  · exact scalar_wait (awaitQual_wait h)
  · exact scalar_ok (by rw [run_bind_ok (run_get s), waitUnless_true (by simp [h])]) hq
  · exact scalar_wait (by rw [run_bind_ok (run_get s), waitUnless_false (by simp [h])])
  · exact fun hp hl hn => halt_ok f hq hp ⟨hl, hn⟩
  · exact fun hp h => halt_wait f hp h
  · exact fun hl hn he => ndone_ok f ⟨hl, hn⟩ he
  · exact ndone_wait f
  · obtain ⟨b, h, hy⟩ := vacate_ctx_self s c
    intro v x y k
    have hy : y = Ctx.left { x with stores := [], binds := b, held := h } := hy
    refine ⟨leaveNode_none s c, fun r hr => leaveNode_some s c hr, ?_⟩
    rw [hy]
    refine ⟨rfl, rfl, rfl, rfl, rfl, rfl, rfl, fun q => by simp [Ctx.left], rfl, rfl, rfl, rfl, rfl, rfl, rfl, fun c' hc => vacate_ctx_ne s c hc, vacate_slots s c, vacate_dcache s c,
      fun r g n hg hn hrun => retireNode_nodes hg hn hrun⟩

end Sys2Proof.Machine
end

section
/-! PROOF. The format table, VSETL and VSHAPE (O24). -/

namespace Sys2Proof.Machine

section
variable {s : State}

/-! FTWR and FTRD. -/

theorem entryCheck_ge {n : Nat} {w : Word} (h : entryCheck n w = 0) : 8 ≤ n := by
  unfold entryCheck at h
  by_contra hn
  rw [if_pos (by omega)] at h
  cases h

/-- Marking the operations that use an entry changes the marks alone: of the running context its queue and its kept entries, and of each entry neither the instruction nor what it captured (R82). -/
theorem replaceEntry_frame (s : State) (n : Nat) :
    replaceEntry s s.cur n = { s with ctxs := (replaceEntry s s.cur n).ctxs, cores := (replaceEntry s s.cur n).cores,
                                      tugs := (replaceEntry s s.cur n).tugs, walks := (replaceEntry s s.cur n).walks } := rfl

/-- An operation that uses the entry holds a replaced value. -/
def markUse (s : State) (n : Nat) (e : QEntry) : QEntry := if (entriesUsed s s.cur e).contains n then { e with stale := true } else e

theorem markUse_keeps (s : State) (n : Nat) (e : QEntry) : ((markUse s n e).instr, (markUse s n e).cap) = (e.instr, e.cap) := by
  unfold markUse
  split <;> rfl

theorem replaceEntry_me (s : State) (n : Nat) :
    (replaceEntry s s.cur n).me = { s.me with queue := s.me.queue.map (markUse s n), kept := s.me.kept.map (markUse s n) } :=
  State.ctx_modCtx_self s s.cur fun x => { x with queue := x.queue.map (markUse s n), kept := x.kept.map (markUse s n) }

/-- Marking the operations of the core's array that use an entry. -/
def markArray (s : State) (n : Nat) (k : Core) : Core :=
  { k with arr := { k.arr with ops := k.arr.ops.map fun o => if o.lc == s.cur.lc then { o with entry := o.entry.map (markUse s n) } else o } }

theorem replaceEntry_core (s : State) (n : Nat) : (replaceEntry s s.cur n).core s.cur.core.val = markArray s n (s.core s.cur.core.val) :=
  State.core_modCore_self (s.modCtx s.cur fun x => { x with queue := x.queue.map (markUse s n), kept := x.kept.map (markUse s n) }) s.cur.core.val (markArray s n)

theorem replaceEntry_pool (s : State) (n a : Nat) : (replaceEntry s s.cur n).poolByte s.cur.core.val a = s.poolByte s.cur.core.val a := by
  unfold State.poolByte
  rw [replaceEntry_core]
  rfl

theorem replaceEntry_quiet (n : Nat) (hq : s.Quiet) : (replaceEntry s s.cur n).Quiet := by
  rcases hq with h | h
  · exact .inl h
  · exact .inr (by rw [replaceEntry_me]; exact h)

theorem ftwr_ok (f : FtwrForm) (hq : s.Quiet) (hf : s.Full [f.sa]) (hk : entryCheck f.n.val (s.me.sget f.sa) = 0) :
    exec (.ftwr f) s = .next ((replaceEntry s s.cur f.n.val).went fun c =>
      { c with ents := c.ents.set (Fin.ofNat 8 (f.n.val - 8)) (if (fmtOf (s.me.sget f.sa)).valid then s.me.sget f.sa else 0) }) := by
  refine scalar_modMe ?_ (replaceEntry_quiet f.n.val hq) rfl
  rw [run_bind_ok (readS_ok (hf.get (by simp))), run_bind_ok (needN_true (by simp [hk]) _ _ s), run_bind_ok (run_modify _ s), run_modMe]

theorem ftwr_illegal (f : FtwrForm) (hf : s.Full [f.sa]) (hk : entryCheck f.n.val (s.me.sget f.sa) ≠ 0) (hl : s.me.lanesIdle = true) :
    exec (.ftwr f) s = .next (raise s s.cur .entryIllegal s.me.pc s.me.pc (BitVec.ofNat 64 (entryCheck f.n.val (s.me.sget f.sa))) 0 false) := by
  refine scalar_cause (v := some (BitVec.ofNat 64 (entryCheck f.n.val (s.me.sget f.sa)))) ?_ hl
  rw [run_bind_ok (readS_ok (hf.get (by simp))), run_bind_error (needN_false (by simpa using hk) _ _ s)]

theorem ftrd_ok (f : FtrdForm) (hq : s.Quiet) (hf : s.Full [f.sd]) : exec (.ftrd f) s = .next (s.wrote f.sd (entWord s.me.ents f.n.val)) := by
  refine scalar_write ?_ hq
  rw [run_bind_ok (run_getMe s), writeS_ok _ (hf.get (by simp))]

/-! VSETL and VSHAPE. -/

theorem needVtype_ok (h : s.me.vtFmt.valid = true) : needVtype s = .ok () s := by
  unfold needVtype
  rw [run_bind_ok (run_getMe s), needN_true h]

theorem needVtype_invalid (h : s.me.vtFmt.valid = false) :
    needVtype s = .error (.cause .entryInvalid (some (BitVec.ofNat 64 (wbits s.me.vc.vtype 0 4)))) s := by
  unfold needVtype
  rw [run_bind_ok (run_getMe s), needN_false h]

/-- The state in which VSETL and VSHAPE take VL: a pending declaration is in effect (R169). -/
def State.declared (s : State) : State :=
  if s.me.vc.pend then (s.modMe fun c => declare c c.vc.cnt).modMyCore (dropSlabs s.cur.lc.val fun _ => true) else s

theorem applyDecl_ok (h : s.me.vc.pend = true → lanesDone s s.cur = true) : applyDecl s = .ok () s.declared := by
  unfold applyDecl State.declared
  rw [run_bind_ok (run_getMe s)]
  by_cases hp : s.me.vc.pend = true
  · rw [if_pos hp, if_pos hp, run_bind_ok (awaitLanes_ok (h hp)), run_bind_ok (run_modMe _ s)]
    rfl
  · rw [if_neg hp, if_neg hp]
    rfl

theorem declared_now (h : s.me.vc.pend = false) : s.declared = s := by simp [State.declared, h]

theorem declared_me (h : s.me.vc.pend = true) : s.declared.me = declare s.me s.me.vc.cnt := by
  unfold State.declared
  rw [if_pos h, State.me_modMyCore, State.me_modMe]

theorem declared_land (s : State) : s.declared.me.land = s.me.land := by
  cases h : s.me.vc.pend
  · rw [declared_now h]
  · rw [declared_me h]
    rfl

theorem declared_scalars (s : State) : s.declared.me.s = s.me.s ∧ s.declared.me.full = s.me.full := by
  cases h : s.me.vc.pend
  · rw [declared_now h]
    exact ⟨rfl, rfl⟩
  · rw [declared_me h]
    exact ⟨rfl, rfl⟩

theorem declared_quiet (hq : s.Quiet) : s.declared.Quiet := by
  have hl : s.declared.late = s.late := by
    unfold State.declared
    split <;> rfl
  unfold State.Quiet
  rw [hl, declared_land]
  exact hq

theorem declared_full {rs : List (Fin 32)} (h : s.Full rs) : s.declared.Full rs := by
  intro r hr
  have := h r hr
  unfold Ctx.isFull at this ⊢
  rwa [(declared_scalars s).2]

/-- What VSETL and VSHAPE leave: VL and VSHAPE, and VL in sd (R168). -/
def State.granted (s : State) (sd : Fin 32) (vl : Nat) (shape : Word) : State :=
  s.declared.went fun c => (c.putVl (BitVec.ofNat 64 vl) shape).sset sd (BitVec.ofNat 64 vl)

/-- The end that VSETL and VSHAPE share: VL and VSHAPE of the state's Lim. -/
theorem putVl_run {sd : Fin 32} (vl : Nat) (shape : Word) (hd : s.me.isFull sd = true) :
    (do
      modMe fun c => c.putVl (BitVec.ofNat 64 vl) shape
      writeS sd (BitVec.ofNat 64 vl)) s = .ok () (s.modMe fun c => (c.putVl (BitVec.ofNat 64 vl) shape).sset sd (BitVec.ofNat 64 vl)) := by
  have hd' : (s.modMe fun c => c.putVl (BitVec.ofNat 64 vl) shape).me.isFull sd = true := by
    rw [State.me_modMe]
    exact hd
  rw [run_bind_ok (run_modMe _ s), writeS_ok _ hd', State.modMe_modMe]

section
variable (hq : s.Quiet) (ht : ∀ e ∈ s.me.queue, trims e.instr = true → e.noTrim = true)

/-- Rows VSHAPE grants of a length (R168). -/
def rowsOf (n len lim : Nat) : Nat := if len = 0 then 0 else min n (lim / len)

include hq ht

theorem vsetl_ok (f : A2) (hf : s.Full [f.sa, f.sd]) (hv : s.me.vtFmt.valid = true) (hp : s.me.vc.pend = true → lanesDone s s.cur = true) :
    exec (.vsetl f) s = .next (s.granted f.sd (min (s.me.sget f.sa).toNat s.declared.me.lim) 0) := by
  refine scalar_modMe ?_ (declared_quiet hq) (Ctx.sset_land _ _ _)
  rw [run_bind_ok (awaitTrim_ok ht), run_bind_ok (readS_ok (hf.get (by simp))), run_bind_ok (awaitS_ok (hf.get (by simp))), run_bind_ok (needVtype_ok hv),
    run_bind_ok (applyDecl_ok hp), run_bind_ok (run_getMe _)]
  exact putVl_run _ _ (declared_full hf f.sd (by simp))

theorem vshape_ok (f : A3) (hf : s.Full [f.sa, f.sb, f.sd]) (hv : s.me.vtFmt.valid = true) (hp : s.me.vc.pend = true → lanesDone s s.cur = true) :
    let len := min (s.me.sget f.sb).toNat s.declared.me.lim
    let rows := rowsOf (s.me.sget f.sa).toNat len s.declared.me.lim
    exec (.vshape f) s = .next (s.granted f.sd (rows * len) (BitVec.ofNat 64 (rows * 2 ^ 16 + len))) := by
  refine scalar_modMe ?_ (declared_quiet hq) (Ctx.sset_land _ _ _)
  rw [run_bind_ok (awaitTrim_ok ht), run_bind_ok (readS_ok (hf.get (by simp))), run_bind_ok (readS_ok (hf.get (by simp))), run_bind_ok (awaitS_ok (hf.get (by simp))),
    run_bind_ok (needVtype_ok hv), run_bind_ok (applyDecl_ok hp), run_bind_ok (run_getMe _)]
  exact putVl_run _ _ (declared_full hf f.sd (by simp))

omit hq

theorem vsetl_invalid (f : A2) (hf : s.Full [f.sa, f.sd]) (hv : s.me.vtFmt.valid = false) (hl : s.me.lanesIdle = true) :
    exec (.vsetl f) s = .next (raise s s.cur .entryInvalid s.me.pc s.me.pc (BitVec.ofNat 64 (wbits s.me.vc.vtype 0 4)) 0 false) := by
  refine scalar_cause (v := some (BitVec.ofNat 64 (wbits s.me.vc.vtype 0 4))) ?_ hl
  rw [run_bind_ok (awaitTrim_ok ht), run_bind_ok (readS_ok (hf.get (by simp))), run_bind_ok (awaitS_ok (hf.get (by simp))), run_bind_error (needVtype_invalid hv)]

theorem vshape_invalid (f : A3) (hf : s.Full [f.sa, f.sb, f.sd]) (hv : s.me.vtFmt.valid = false) (hl : s.me.lanesIdle = true) :
    exec (.vshape f) s = .next (raise s s.cur .entryInvalid s.me.pc s.me.pc (BitVec.ofNat 64 (wbits s.me.vc.vtype 0 4)) 0 false) := by
  refine scalar_cause (v := some (BitVec.ofNat 64 (wbits s.me.vc.vtype 0 4))) ?_ hl
  rw [run_bind_ok (awaitTrim_ok ht), run_bind_ok (readS_ok (hf.get (by simp))), run_bind_ok (readS_ok (hf.get (by simp))), run_bind_ok (awaitS_ok (hf.get (by simp))),
    run_bind_error (needVtype_invalid hv)]

end

/-! What the grant leaves. -/

theorem granted_fields (s : State) (sd : Fin 32) (vl : Nat) (shape : Word) :
    let t := (s.granted sd vl shape).me
    t.vc = { s.declared.me.vc with vl := BitVec.ofNat 64 vl, vshape := shape } ∧ t.v = s.declared.me.v ∧ t.m = s.declared.me.m ∧ t.pc = s.declared.me.pc + 4 ∧
      ∀ r, t.sget r = (s.declared.me.sset sd (BitVec.ofNat 64 vl)).sget r := by
  unfold State.granted
  rw [State.me_went]
  unfold Ctx.sset Ctx.retired
  split <;> split <;> exact ⟨rfl, rfl, rfl, rfl, fun _ => rfl⟩

/-- With no declaration pending the context alone changes. -/
theorem granted_now (h : s.me.vc.pend = false) (sd : Fin 32) (vl : Nat) (shape : Word) :
    s.OnlyMe (s.granted sd vl shape) ∧ (s.granted sd vl shape).me.vc = { s.me.vc with vl := BitVec.ofNat 64 vl, vshape := shape } ∧
      (sd ≠ 0 → (s.granted sd vl shape).me.sget sd = BitVec.ofNat 64 vl) ∧ (∀ r, r ≠ sd → (s.granted sd vl shape).me.sget r = s.me.sget r) ∧
      (s.granted sd vl shape).me.v = s.me.v ∧ (s.granted sd vl shape).me.pc = s.me.pc + 4 := by
  obtain ⟨hvc, hv, -, hpc, hs⟩ := granted_fields s sd vl shape
  rw [declared_now h] at hvc hv hpc hs
  refine ⟨by rw [State.granted, declared_now h]; exact OnlyMe.went s _, hvc, fun hd => ?_, fun r hr => ?_, hv, hpc⟩
  · rw [hs, Ctx.sget_sset_self _ _ hd]
  · rw [hs, Ctx.sget_sset_ne _ _ hr]

/-- A declaration that was pending is in effect, every register dead and every mask zero (R29, R169). -/
theorem granted_declares (h : s.me.vc.pend = true) (sd : Fin 32) (vl shape : Nat) :
    let t := s.granted sd vl (BitVec.ofNat 64 shape)
    t.me.pc = s.me.pc + 4 ∧ (∀ r, t.me.v[r]? = if r < 32 then some VReg.dead else none) ∧ (∀ m : Fin 8, t.me.m[m] = 0) ∧
      t.me.vc = { s.me.vc with eff := s.me.vc.cnt, pend := false, vlive := 0, vdirty := 0, vuse := 0, vl := BitVec.ofNat 64 vl, vshape := BitVec.ofNat 64 shape } := by
  obtain ⟨hvc, hv, hm, hpc, -⟩ := granted_fields s sd vl (BitVec.ofNat 64 shape)
  rw [declared_me h] at hvc hv hm hpc
  refine ⟨hpc, fun r => ?_, fun m => ?_, hvc⟩
  · rw [hv]
    exact Vector.getElem?_replicate
  · rw [hm]
    simp [declare]

/-- Lim under a declaration that was pending. -/
theorem declared_lim (h : s.me.vc.pend = true) : s.declared.me.lim = vlmaxOf s.me.vc.cnt / s.me.vtFmt.wid := by
  rw [declared_me h]
  rfl

end

/-- Settles O24: the format table by its entry, and VSETL and VSHAPE by what they leave of a declaration that pends (`vsetl_ok`, `vshape_ok`). -/
theorem formatAndLengthResults : Obligations.FormatAndLengthResults := by
  refine ⟨fun s hq => ⟨fun f hf => ⟨fun hk => ⟨entryCheck_ge hk, ftwr_ok f hq hf hk⟩, ⟨_, rfl, replaceEntry_frame s _, ?_, ?_, replaceEntry_pool s _⟩, ftwr_illegal f hf⟩,
    fun f => ftrd_ok f hq⟩, fun s hq ht => ⟨fun hv hp => ?_, fun hv hp hl => ?_, fun hv hl => ⟨fun f hf => vsetl_invalid ht f hf hv hl, fun f hf => vshape_invalid ht f hf hv hl⟩⟩⟩
  · rw [replaceEntry_me]
  · simp only [replaceEntry_me, List.map_map, Function.comp_def, markUse_keeps]
  · have now : s.me.vc.pend = true → lanesDone s s.cur = true := fun h => absurd h (by simp [hp])
    refine ⟨fun f hf => ⟨_, ?_, granted_now hp _ _ _⟩, fun f hf => ⟨_, ?_, granted_now hp _ _ _⟩⟩
    · have := vsetl_ok hq ht f hf hv now
      rwa [declared_now hp] at this
    · have := vshape_ok hq ht f hf hv now
      rwa [declared_now hp] at this
  · have now : s.me.vc.pend = true → lanesDone s s.cur = true := fun _ => hl
    refine ⟨fun f hf => ?_, fun f hf => ?_⟩
    · have := vsetl_ok hq ht f hf hv now
      rw [declared_lim hp] at this
      exact ⟨_, this, granted_declares hp _ _ _⟩
    · have := vshape_ok hq ht f hf hv now
      rw [declared_lim hp] at this
      exact ⟨_, this, granted_declares hp _ _ _⟩

end Sys2Proof.Machine
end

section
/-! PROOF. How an instruction of the vector queue completes (R94, R162). -/

namespace Sys2Proof.Machine

/-! The context and its core change apart. -/

theorem State.modMe_modMyCore (s : State) (f : Ctx → Ctx) (g : Core → Core) : (s.modMyCore g).modMe f = (s.modMe f).modMyCore g := rfl

/-- A context whose queue's head has completed. -/
def Ctx.popped (c : Ctx) : Ctx := ({ c with queue := c.queue.tail, laneHeld := false } : Ctx).retired

/-- What the head's completion leaves of a context. -/
theorem Ctx.popped_keeps (c : Ctx) : c.popped.v = c.v ∧ c.popped.m = c.m ∧ c.popped.vc = c.vc ∧ c.popped.fc = c.fc ∧ c.popped.pc = c.pc ∧ c.popped.q = c.q ∧
    c.popped.deadTails = c.deadTails ∧ ∀ r, c.popped.sget r = c.sget r := by
  unfold Ctx.popped Ctx.retired
  split <;> exact ⟨rfl, rfl, rfl, rfl, rfl, rfl, rfl, fun _ => rfl⟩

/-- The head leaves the queue before or after the slabs of dead tails are free. -/
theorem laneRetire_eq (s : State) : laneRetire s = freeTails (s.modMe Ctx.popped) := by
  have tails : s.me.popped.deadTails = s.me.deadTails := by
    obtain ⟨-, -, -, -, -, -, h, -⟩ := s.me.popped_keeps
    exact h
  unfold laneRetire freeTails
  simp only [State.me_modMe, tails, retire_eq]
  split
  · rw [State.modMe_modMe]
    rfl
  · rw [State.modMe_modMyCore, State.modMe_modMe]
    rfl

theorem State.entered_pc (s : State) (i : Instr) (u : Issue) : (s.entered i u).me.pc = s.me.pc + 4 := by
  simp only [State.entered, State.me_modMe]
  cases u.writes with
  | none => rfl
  | some r => simp only [Ctx.sclear]; split <;> rfl

/-- The running context after an instruction that changed it by `f` has entered the empty queue and completed, its dead tails still to be freed. -/
def State.done (s : State) (i : Instr) (u : Issue) (f : Ctx → Ctx) : State := ((s.entered i u).modMe f).modMe Ctx.popped

theorem State.ran_eq (s : State) (i : Instr) (u : Issue) (f : Ctx → Ctx) : s.ran i u f = freeTails (s.done i u f) := laneRetire_eq _

theorem OnlyMe.done (s : State) (i : Instr) (u : Issue) (f : Ctx → Ctx) : s.OnlyMe (s.done i u f) := by
  unfold State.done State.entered
  rw [State.modMe_modMe, State.modMe_modMe]
  exact OnlyMe.modMe s _

theorem State.me_done (s : State) (i : Instr) (u : Issue) (f : Ctx → Ctx) : (s.done i u f).me = (f (s.entered i u).me).popped := by
  rw [State.done, State.me_modMe, State.me_modMe]

end Sys2Proof.Machine
end

section
/-! PROOF. VAMAX and VSCL (O35). -/

namespace Sys2Proof.Machine

section
variable {s : State}

/-- A context with a new maximum of the numbers in its history, NV for a NaN among them, VSTART 0 (R79). -/
def Ctx.amaxDone (c : Ctx) (xs : List Num) : Ctx :=
  let ok := xs.filter fun x => x.cls != .nan
  let m := ok.foldl (fun m x => maxNum m { x with neg := false }) (Num.zero false)
  let c := addFlags c (if ok.length == xs.length then 0 else fNV)
  { c with
    fc := { c.fc with amax := pushAmax c.fc.amax (BitVec.ofNat 32 (toF32 m .rup)) }
    vc := { c.vc with vstart := 0 } }

/-- The active numbers of a source. -/
def activeNums (c : Ctx) (l : Lane) (va : Fin 32) : List Num :=
  (activeElems l c.m[l.mreg].toNat).map fun e => toWide l.fmt ((sourceView c va l.fmt.wid).at e)

theorem laneVamax_ok {f : VA1} {l : Lane} (hk : l.fmt.valid = true) (hr : s.me.Readable f.va) :
    laneVamax f l s = .ok () (s.modMe fun c => c.amaxDone (activeNums s.me l.indivisible f.va)) := by
  have am : activeMask l.indivisible s = .ok s.me.m[l.indivisible.mreg].toNat s := rfl
  unfold laneVamax
  rw [run_bind_ok (needVtypeEntry_ok (l := l.indivisible) hk), run_bind_ok am, run_bind_ok (decodeSource_ok hr), run_bind_ok (run_getMe s)]
  rfl

theorem activeNums_entered (s : State) (i : Instr) (u : Issue) (l : Lane) (va : Fin 32) : activeNums (s.entered i u).me l va = activeNums s.me l va := by
  unfold activeNums
  rw [State.entered_m, sourceView_congr (State.entered_vc s i u) (State.entered_v s i u)]

/-- A filter that leaves the length drops nothing. -/
theorem nan_mem_iff (xs : List Num) : ((xs.filter fun x => x.cls != .nan).length == xs.length) = false ↔ ∃ x ∈ xs, x.cls = .nan := by
  rw [beq_eq_false_iff_ne, ne_eq, List.length_filter_eq_length_iff]
  simp

theorem readable_entered {r : Fin 32} (i : Instr) (u : Issue) (h : s.me.Readable r) : (s.entered i u).me.Readable r := by
  unfold Ctx.Readable
  rwa [State.entered_vc, State.entered_v]

theorem writable_entered {r : Fin 32} {whole : Bool} (i : Instr) (u : Issue) (h : s.me.Writable r whole) : (s.entered i u).me.Writable r whole := by
  unfold Ctx.Writable
  rw [State.entered_v]
  exact ⟨h.1, fun hw => readable_entered i u (h.2 hw)⟩

/-- The newest maximum leads the history and each other one moves on by a place (R79). -/
theorem pushAmax_zero (a : Vector (BitVec 32) 16) (m : BitVec 32) : (pushAmax a m)[(0 : Fin 16)] = m := by simp [pushAmax]

theorem pushAmax_succ (a : Vector (BitVec 32) 16) (m : BitVec 32) {i j : Fin 16} (h : j.val + 1 = i.val) : (pushAmax a m)[i] = a[j] := by
  have : i ≠ 0 := fun e => by simp [e] at h
  have : i.val - 1 = j.val := by omega
  simp [pushAmax, *]

theorem amaxDone_flags (c : Ctx) (xs : List Num) :
    (c.amaxDone xs).fc.flags = c.fc.flags ||| (if ∃ x ∈ xs, x.cls = .nan then BitVec.ofNat 5 fNV else 0) := by
  unfold Ctx.amaxDone addFlags
  simp only [← nan_mem_iff]
  cases (xs.filter fun x => x.cls != .nan).length == xs.length <;> rfl

/-- VAMAX, run at once. -/
theorem vamax_ok {f : VA1} {u : Issue} (hu : u = { regs := [f.va.val], reads := none, writes := none }) (hc : s.CanRun u) (hk : (s.laneFor u).fmt.valid = true)
    (hr : s.me.Readable f.va) : exec (.vamax f) s = .next (s.ran (.vamax f) u fun c => c.amaxDone (activeNums s.me (s.laneFor u).indivisible f.va)) := by
  subst hu
  refine vector_ran hc ?_
  rw [laneVamax_ok hk (readable_entered _ _ hr), activeNums_entered]

/-! VSCL. -/

/-- A scale over zeros alone is 1 (R80). -/
theorem delayedScale_zeros (tick : Nat) {ms : List Num} (k : Fmt) (hz : ∀ x ∈ ms, x.cls = .zero) : delayedScale tick ms k = 0x3F800000 := by
  have pick : ∀ (xs : List Num) (m : Num), m.cls = .zero → (∀ x ∈ xs, x.cls = .zero) → (xs.foldl maxNum m).cls = .zero := by
    intro xs
    induction xs with
    | nil => intro m hm _; exact hm
    | cons x xs ih =>
      intro m hm hx
      refine ih _ ?_ fun y hy => hx y (by simp [hy])
      unfold maxNum
      split
      · exact hx x (by simp)
      · exact hm
  have nan : (ms.any fun x => x.cls == .nan) = false := by
    rw [List.any_eq_false]
    intro x hx
    simp [hz x hx]
  cases ms with
  | nil => simp [delayedScale, Num.zero]
  | cons x xs =>
    have hm := pick xs x (hz x (by simp)) fun y hy => hz y (by simp [hy])
    unfold delayedScale
    simp [nan, hm]

/-- A context with VSTART 0. -/
def Ctx.atStart (c : Ctx) : Ctx := { c with vc := { c.vc with vstart := 0 } }

theorem clearVstart_ok (s : State) : clearVstart s = .ok () (s.modMe Ctx.atStart) := rfl

/-- The scale VSCL forms of the newest maxima. -/
def scaleOf (s : State) (f : VSclForm) (l : Lane) : Word :=
  BitVec.ofNat 64 (delayedScale s.tick ((s.me.fc.amax.toList.take (if f.n.val = 0 then 16 else f.n.val)).map fun a => ofF32 a.toNat) (fmtOf (l.ent f.ent.val)))

theorem laneVscl_ok {f : VSclForm} {l : Lane} (hl : s.late = false) (hk : (fmtOf (l.ent f.ent.val)).valid = true) :
    laneVscl f l s = .ok () (s.modMe fun c => c.atStart.sset f.sd (scaleOf s f l)) := by
  unfold laneVscl
  rw [run_bind_ok (needEntry_ok hk), run_bind_ok (run_get s), run_bind_ok (clearVstart_ok s)]
  rw [landS_ok (s := s.modMe Ctx.atStart) f.sd _ hl, State.modMe_modMe]
  rfl

/-- VSCL, run at once. -/
theorem vscl_ok {f : VSclForm} {u : Issue} (hu : u = { regs := [], reads := none, writes := some f.sd }) (hc : s.CanRun u)
    (hk : (fmtOf ((s.laneFor u).ent f.ent.val)).valid = true) :
    exec (.vscl f) s = .next (s.ran (.vscl f) u fun c => c.atStart.sset f.sd (scaleOf s f (s.laneFor u))) := by
  subst hu
  have body := laneVscl_ok (s := s.entered (.vscl f) { regs := [], reads := none, writes := some f.sd }) (by rw [State.entered_late]; exact hc.1) hk
  rw [scaleOf, State.entered_fc, State.entered_tick] at body
  exact vector_ran hc body

end

theorem Ctx.sset_keeps (c : Ctx) (r : Fin 32) (w : Word) : (c.sset r w).v = c.v ∧ (c.sset r w).fc = c.fc ∧ (c.sset r w).pc = c.pc := by
  unfold Ctx.sset
  split <;> exact ⟨rfl, rfl, rfl⟩

end Sys2Proof.Machine
end

section
/-! PROOF. VPACK and VUNPK (O35). -/

namespace Sys2Proof.Machine

section
variable {s : State}

/-- A loop whose steps leave the state alone. -/
theorem forM'_still {α : Type} {f : α → M Unit} {l : List α} (h : ∀ a ∈ l, f a s = .ok () s) : forM' l f s = .ok () s := by
  induction l with
  | nil => rfl
  | cons a l ih =>
    unfold forM'
    rw [run_bind_ok (h a (by simp))]
    exact ih fun b hb => h b (by simp [hb])

theorem needRatio_ok {w k : Fmt} {m : Nat} (h : packRatio w k = some m) : needRatio w k s = .ok m s := by
  unfold needRatio
  rw [h]
  rfl

/-- The registers of a group are written whatever their elements, the context alone changing. -/
theorem packInto_ok (l : Lane) (mask sew n : Nat) (src : Nat → Nat) (conv : Nat → BitVec 32 → Coded) (ds : List (Fin 32 × Nat)) :
    ∀ s : State, ∃ t, packInto l mask sew n src conv ds s = .ok () t ∧ t.late = s.late := by
  induction ds with
  | nil => exact fun s => ⟨s, rfl, rfl⟩
  | cons d ds ih =>
    intro s
    obtain ⟨t, ht, hl⟩ := ih _
    exact ⟨t, ht, hl⟩

variable {f : VPkForm} {l : Lane} {m : Nat}

/-- VUNPK where its operands pass. -/
theorem laneVunpk_ok {t : State} (hw : l.indivisible.fmt.valid = true) (hk : (fmtOf (l.indivisible.ent f.ent.val)).valid = true) (hm : packRatio l.indivisible.fmt (fmtOf (l.indivisible.ent f.ent.val)) = some m)
    (hr : s.me.Readable f.va)
    (hd : ∀ d ∈ (groupRegs f.vd m).zipIdx, s.me.Writable d.1 (wholeFrom l.indivisible s.me.m[l.indivisible.mreg].toNat (d.2 * l.indivisible.nAt l.indivisible.fmt.wid) (l.indivisible.nAt l.indivisible.fmt.wid)))
    (ht : packInto l.indivisible s.me.m[l.indivisible.mreg].toNat l.indivisible.fmt.wid (l.indivisible.nAt l.indivisible.fmt.wid) (sourceView s.me f.va (fmtOf (l.indivisible.ent f.ent.val)).wid).at
      (fun c seed => convert c (fmtOf (l.indivisible.ent f.ent.val)) l.indivisible.fmt (roundingMode l.indivisible.cap.rmo l.indivisible.fmt) seed) (groupRegs f.vd m).zipIdx s = .ok () t) :
    laneVunpk f l s = .ok () (t.modMe Ctx.atStart) := by
  have am : activeMask l.indivisible s = .ok s.me.m[l.indivisible.mreg].toNat s := rfl
  unfold laneVunpk
  rw [run_bind_ok (needVtypeEntry_ok  hw), run_bind_ok (needEntry_ok  hk), run_bind_ok (needRatio_ok hm), run_bind_ok am,
    run_bind_ok (decodeSource_ok hr), run_bind_ok (forM'_still fun d hdm => decodeDest_ok (hd d hdm)), run_bind_ok (run_getMe s), run_bind_ok ht]
  rfl

/-- The elements of a group of one register, over its old ones. -/
def packOne (s : State) (l : Lane) (mask sew n : Nat) (src : Nat → Nat) (conv : Nat → BitVec 32 → Coded) (r : Fin 32) : List Nat × Raised :=
  packElems l mask 0 (if wholeFrom l mask 0 n then View.plain [] else oldView s.me r sew) src conv (Raised.start s.me.fc.seed) (List.range n)

/-- A group of one register. -/
theorem packInto_one (s : State) (l : Lane) (mask sew n : Nat) (src : Nat → Nat) (conv : Nat → BitVec 32 → Coded) (r : Fin 32) :
    packInto l mask sew n src conv [(r, 0)] s = .ok () (s.modMe fun c =>
      applyRaised (putRes c r (encodeElems l sew (packOne s l mask sew n src conv r).1) (l.tail sew)) (packOne s l mask sew n src conv r).2) := by
  unfold packInto
  rw [run_bind_ok (run_getMe s)]
  simp only [Nat.zero_mul, Nat.sub_zero]
  rfl

/-- The converted elements of VPACK, over the old ones of its destination (R228). -/
def packed (s : State) (f : VPkForm) (l : Lane) (m : Nat) : List Nat × Raised :=
  let w := l.fmt
  let k := fmtOf (l.ent f.ent.val)
  let mask := s.me.m[l.mreg].toNat
  let vs := (groupRegs f.va m).map fun r => sourceView s.me r w.wid
  packOne s l mask k.wid (l.nAt k.wid) (fun e => match vs[e / l.nAt w.wid]? with | some v => v.at (e % l.nAt w.wid) | none => 0)
    (fun c seed => convert c w k (roundingMode l.cap.rmo k) seed) f.vd

/-- A context with VPACK's result. -/
def Ctx.packDone (c : Ctx) (f : VPkForm) (l : Lane) (x : List Nat × Raised) : Ctx :=
  (applyRaised (putRes c f.vd (encodeElems l (fmtOf (l.ent f.ent.val)).wid x.1) (l.tail (fmtOf (l.ent f.ent.val)).wid)) x.2).atStart

/-- VPACK where its operands pass. -/
theorem laneVpack_ok (hw : l.indivisible.fmt.valid = true) (hk : (fmtOf (l.indivisible.ent f.ent.val)).valid = true) (hm : packRatio l.indivisible.fmt (fmtOf (l.indivisible.ent f.ent.val)) = some m)
    (hr : ∀ r ∈ groupRegs f.va m, s.me.Readable r)
    (hd : s.me.Writable f.vd (l.indivisible.whole s.me.m[l.indivisible.mreg].toNat (l.indivisible.nAt (fmtOf (l.indivisible.ent f.ent.val)).wid))) :
    laneVpack f l s = .ok () (s.modMe fun c => c.packDone f l.indivisible (packed s f l.indivisible m)) := by
  have am : activeMask l.indivisible s = .ok s.me.m[l.indivisible.mreg].toNat s := rfl
  unfold laneVpack
  rw [run_bind_ok (needVtypeEntry_ok  hw), run_bind_ok (needEntry_ok  hk), run_bind_ok (needRatio_ok hm), run_bind_ok am,
    run_bind_ok (forM'_still fun r hrm => decodeSource_ok (hr r hrm)), run_bind_ok (decodeDest_ok hd), run_bind_ok (run_getMe s)]
  simp only [List.getElem?_toArray]
  rw [run_bind_ok (packInto_one s _ _ _ _ _ _ _), clearVstart_ok, State.modMe_modMe]
  rfl

theorem packed_entered (s : State) (i : Instr) (u : Issue) (f : VPkForm) (l : Lane) (m : Nat) : packed (s.entered i u) f l m = packed s f l m := by
  have source := sourceView_congr (State.entered_vc s i u) (State.entered_v s i u)
  have old := oldView_congr (State.entered_vc s i u) (State.entered_v s i u)
  simp only [packed, packOne, State.entered_m, State.entered_fc, source, old]

end

end Sys2Proof.Machine
end

section
/-! PROOF. The amax history, scales and packing (O35). -/

namespace Sys2Proof.Machine

/-- Settles O35: each instruction's body run at once on operands that pass (`laneVamax_ok`, `laneVscl_ok`, `laneVunpk_ok`, `laneVpack_ok`). -/
theorem scaleAndPackResults : Obligations.ScaleAndPackResults := by
  intro s
  refine ⟨fun f => ?vamax, fun f => ?vscl, fun f m => ?packs⟩
  case vamax =>
    intro u l k v xs ok mx hc hk hr
    obtain ⟨hv, -, -, hfc, hpc, -, -, -⟩ := ((s.entered (.vamax f) u).me.amaxDone (activeNums s.me l f.va)).popped_keeps
    refine ⟨_, (vamax_ok rfl hc hk hr).trans (congrArg _ (State.ran_eq _ _ _ _)), OnlyMe.done _ _ _ _, ?_, fun i j h => ?_, ?_, ?_, ?_⟩ <;> rw [State.me_done]
    · rw [hfc]
      exact pushAmax_zero _ _
    · rw [hfc, ← State.entered_fc s (.vamax f) u]
      exact pushAmax_succ _ _ h
    · rw [hfc, amaxDone_flags, State.entered_fc]
      rfl
    · rw [hv, ← State.entered_v s (.vamax f) u]
      rfl
    · rw [hpc, ← State.entered_pc s (.vamax f) u]
      rfl
  case vscl =>
    intro u l k n ms hc hk
    obtain ⟨hv, -, -, hfc, hpc, -, -, hs⟩ := ((s.entered (.vscl f) u).me.atStart.sset f.sd (scaleOf s f l)).popped_keeps
    obtain ⟨kv, kfc, kpc⟩ := (s.entered (.vscl f) u).me.atStart.sset_keeps f.sd (scaleOf s f l)
    have put : f.sd ≠ 0 → (s.done (.vscl f) u fun c => c.atStart.sset f.sd (scaleOf s f l)).me.sget f.sd = scaleOf s f l := fun hd => by
      rw [State.me_done, hs, Ctx.sget_sset_self _ _ hd]
    refine ⟨_, (vscl_ok rfl hc hk).trans (congrArg _ (State.ran_eq _ _ _ _)), OnlyMe.done _ _ _ _, ?_, ?_, ?_, put, fun _ hz hd => ?_⟩
    · rw [State.me_done, hfc, kfc, ← State.entered_fc s (.vscl f) u]
      rfl
    · rw [State.me_done, hv, kv, ← State.entered_v s (.vscl f) u]
      rfl
    · rw [State.me_done, hpc, kpc, ← State.entered_pc s (.vscl f) u]
      rfl
    · rw [put hd, scaleOf]
      exact congrArg _ (delayedScale_zeros _ _ hz)
  case packs =>
    intro w k mask hm hw hk
    refine ⟨?_, ?_⟩
    · intro u l n hc hr hd
      obtain ⟨t, ht, hl⟩ := packInto_ok l (mask l) w.wid n (sourceView s.me f.va k.wid).at (fun c seed => convert c k w (roundingMode s.me.fc.rmo w) seed)
        (groupRegs f.vd m).zipIdx (s.entered (.vunpk f) u)
      refine ⟨t, ht, vector_runs hc (laneVunpk_ok (l := s.laneFor u) hw hk hm (readable_entered _ _ hr) (fun d hdm => ?_) ?_) ?_⟩
      · rw [State.entered_m]
        exact writable_entered _ _ (hd d hdm)
      · rw [State.entered_m, sourceView_congr (State.entered_vc s _ u) (State.entered_v s _ u)]
        exact ht
      · exact hl.trans (by rw [State.entered_late]; exact hc.1)
    · intro u l n nw vs old x hc hr hd
      have body := laneVpack_ok (s := s.entered (.vpack f) u) (f := f) (l := s.laneFor u) hw hk hm (fun r hrm => readable_entered _ _ (hr r hrm))
        (by rw [State.entered_m]; exact writable_entered _ _ hd)
      rw [packed_entered] at body
      exact vector_ran hc body

end Sys2Proof.Machine
end

section
/-! PROOF. Where the lanes' accesses of the own pool reach, in every state a stream instruction passes through (R145, R191). -/

namespace Sys2Proof.Machine

/-! What decides where an address of the pools reaches. -/

/-- Two states in which an access of the running context reaches the same place: the same context runs, with the same privilege, no partition, poisoned word, encoded window or residence of a context differing. -/
def State.SamePlaces (s t : State) : Prop :=
  t.cur = s.cur ∧ t.late = s.late ∧ t.me.priv = s.me.priv ∧ (∀ i, (t.core i).part = (s.core i).part ∧ (t.core i).poison = (s.core i).poison) ∧
    ∀ c, (t.ctx c).st = (s.ctx c).st ∧ (t.ctx c).lpenc = (s.ctx c).lpenc

theorem State.SamePlaces.refl (s : State) : s.SamePlaces s := ⟨rfl, rfl, rfl, fun _ => ⟨rfl, rfl⟩, fun _ => ⟨rfl, rfl⟩⟩

theorem State.SamePlaces.trans {s t u : State} (h : s.SamePlaces t) (g : t.SamePlaces u) : s.SamePlaces u := by
  obtain ⟨h1, h2, h3, h4, h5⟩ := h
  obtain ⟨g1, g2, g3, g4, g5⟩ := g
  exact ⟨g1.trans h1, g2.trans h2, g3.trans h3, fun i => ⟨(g4 i).1.trans (h4 i).1, (g4 i).2.trans (h4 i).2⟩, fun c => ⟨(g5 c).1.trans (h5 c).1, (g5 c).2.trans (h5 c).2⟩⟩

theorem State.SamePlaces.modMe {s : State} {f : Ctx → Ctx} (hst : (f s.me).st = s.me.st) (hw : (f s.me).lpenc = s.me.lpenc) (hp : (f s.me).priv = s.me.priv) :
    s.SamePlaces (s.modMe f) := by
  refine ⟨rfl, rfl, by rw [State.me_modMe, hp], fun _ => ⟨rfl, rfl⟩, fun c => ?_⟩
  by_cases h : c = s.cur
  · subst h
    rw [State.ctx_modMe_cur]
    exact ⟨hst, hw⟩
  · rw [State.ctx_modMe_ne s f h]
    exact ⟨rfl, rfl⟩

theorem State.SamePlaces.modMyCore {s : State} {f : Core → Core} (hpart : (f s.myCore).part = s.myCore.part) (hpois : (f s.myCore).poison = s.myCore.poison) :
    s.SamePlaces (s.modMyCore f) := by
  refine ⟨rfl, rfl, rfl, fun i => ?_, fun _ => ⟨rfl, rfl⟩⟩
  unfold State.modMyCore
  by_cases h : i = s.cur.core.val
  · subst h
    rw [State.core_modCore_self]
    exact ⟨hpart, hpois⟩
  · rw [State.core_modCore_ne s f h]
    exact ⟨rfl, rfl⟩

theorem windowLoc_congr {s t : State} (h : s.SamePlaces t) (core : Fin 1024) (priv : BitVec 2) (va n : Nat) (acc : Acc) (enc : Bool) :
    windowLoc t core priv va n acc enc = windowLoc s core priv va n acc enc := by
  obtain ⟨-, -, -, hcore, hctx⟩ := h
  have part : ∀ i, (t.core i).part = (s.core i).part := fun i => (hcore i).1
  have res : ∀ c, (t.ctx c).resident = (s.ctx c).resident := fun c => by rw [Ctx.resident, Ctx.resident, (hctx c).1]
  have win : ∀ c, (t.ctx c).lpenc = (s.ctx c).lpenc := fun c => (hctx c).2
  have area : ∀ c o, inResidentArea t c o = inResidentArea s c o := fun c o => by simp only [inResidentArea, part, res]
  have cause : ∀ c w o, poolCause t c w o = poolCause s c w o := fun c w o => by
    unfold poolCause
    rw [part, area]
  have check : ∀ c w o n, poolCheck t c w o n = poolCheck s c w o n := fun c w o n => by simp only [poolCheck, cause]
  have inwin : ∀ c o n, inWindow t c o n = inWindow s c o n := fun c o n => by simp only [inWindow, res, win]
  simp only [windowLoc, check, inwin]

theorem State.PoolAt.congr {s t : State} {a n : Nat} {acc : Acc} {off : Nat} (h : s.PoolAt a n acc off) (same : s.SamePlaces t) : t.PoolAt a n acc off := by
  obtain ⟨h1, h2, h3⟩ := h
  refine ⟨h1, ?_, ?_⟩
  · rw [windowLoc_congr same, same.1, same.2.2.1]
    exact h2
  · have pois : t.myCore.poison = s.myCore.poison := by
      rw [State.myCore, State.myCore, same.1]
      exact (same.2.2.2.1 _).2
    rw [poolPoisoned, pois]
    exact h3

/-- An instruction that enters the queue moves no place. -/
theorem State.SamePlaces.entered (s : State) (i : Instr) (u : Issue) : s.SamePlaces (s.entered i u) := by
  unfold State.entered
  refine State.SamePlaces.modMe ?_ ?_ ?_
  all_goals
    cases u.writes with
    | none => rfl
    | some r => simp only [Ctx.sclear]; split <;> rfl

theorem windowLoc_some_ge {s : State} {core : Fin 1024} {priv : BitVec 2} {va n : Nat} {acc : Acc} {enc : Bool} {l : Loc}
    (h : windowLoc s core priv va n acc enc = some (.ok l)) : ownBase ≤ va := by
  unfold windowLoc at h
  by_contra hn
  rw [if_pos (by omega)] at h
  cases h

/-! An element's access (R191). -/

section
variable {s : State} {l : Lane} {port va n align off : Nat} {acc : Acc}

theorem elemCheck_ok (hva : va < 2 ^ 56) (ha : align = 0 ∨ va % align = 0) (hp : portOk port va = true) : elemCheck port va align false s = .ok () s := by
  have ha : (decide (align = 0) || va % align == 0) = true := by simpa using ha
  unfold elemCheck
  rw [run_bind_ok (needN_true (decide_eq_true hva) _ _ s), run_bind_ok (needN_true ha _ _ s), run_bind_ok (needN_true (b := !false) rfl _ _ s)]
  exact needN_true hp _ _ s

/-- An element's access that reaches the own pool is found without any effect. -/
theorem elemLoc_pool (h : s.PoolAt va n acc off) (hl : l.priv = s.me.priv) (ha : align = 0 ∨ align = n) (hp : portOk port va = true) :
    elemLoc l port va n align false acc false s = .ok (.pool s.cur.core.val off) s := by
  obtain ⟨h1, h2, _⟩ := h
  have hw : laneWho l s = .ok { asid := s.me.asid, priv := l.priv, holder := .core s.cur.core.val } s := rfl
  have hva := windowLoc_some_lt h2
  have hal : align = 0 ∨ va % align = 0 := ha.imp_right fun e => by rw [e]; exact h1
  unfold elemLoc
  rw [run_bind_ok (elemCheck_ok hva hal hp), run_bind_ok (run_get s), run_bind_ok hw]
  unfold coreLoc
  rw [run_bind_ok (needN_true (decide_eq_true hva) _ _ s), run_bind_ok (needN_true (by simp [Nat.mod_one]) _ _ s), run_bind_ok (run_get s)]
  simp only [hl, h2]
  rfl

theorem laneRead_pool (h : poolPoisoned s.myCore off n = false) : laneRead (.pool s.cur.core.val off) n s = .ok (memRead s.myCore.pool off n) s := by
  have note : notePage (.pool s.cur.core.val off) s = .ok () s := rfl
  unfold laneRead
  rw [run_bind_ok poisonAt_pool]
  simp only
  rw [run_bind_ok note]
  exact locRead_pool h

/-- An element of a stream that has read nothing ahead, read in the own pool. -/
theorem streamRead_pool {r : QReg} {key : Nat} (he : r.early = []) (h : s.PoolAt va n .read off) (hl : l.priv = s.me.priv) (ha : align = 0 ∨ align = n)
    (hp : portOk r.desc.port va = true) : streamRead l r key va n align false false s = .ok (memRead s.myCore.pool off n) s := by
  have unread : r.hasEarly key n = false := by simp [QReg.hasEarly, he]
  unfold streamRead
  rw [if_neg (by simp [unread]), run_bind_ok (elemLoc_pool h hl ha hp)]
  exact laneRead_pool h.2.2

end

end Sys2Proof.Machine
end

section
/-! PROOF. Runs over elements none of which faults, and what conversions raise as they go (R64, R71, R75, R97). -/

namespace Sys2Proof.Machine

/-! Runs. -/

/-- The values a step gives over a list of elements, with what it carries from one to the next. -/
def runOver {α β : Type} (step : β → Nat → α × β) : β → List Nat → List (Nat × α) × β
  | b, [] => ([], b)
  | b, e :: es => ((e, (step b e).1) :: (runOver step (step b e).2 es).1, (runOver step (step b e).2 es).2)

theorem runOver_keys {α β : Type} (step : β → Nat → α × β) (b : β) (es : List Nat) : (runOver step b es).1.map (·.1) = es := by
  induction es generalizing b with
  | nil => rfl
  | cons e es ih => simp [runOver, ih]

/-- The run as a fold that appends. -/
theorem foldl_runOver {α β : Type} (step : β → Nat → α × β) (b : β) (ps : List (Nat × α)) (es : List Nat) :
    es.foldl (fun p e => (p.1 ++ [(e, (step p.2 e).1)], (step p.2 e).2)) (ps, b) = (ps ++ (runOver step b es).1, (runOver step b es).2) := by
  induction es generalizing b ps with
  | nil => simp [runOver]
  | cons e es ih => simp [runOver, ih]

/-- A function of each value, applied as the values come or when all are there. -/
theorem runOver_map {α γ β : Type} (g : α → γ) (step : β → Nat → α × β) (b : β) (es : List Nat) :
    runOver (fun b e => (g (step b e).1, (step b e).2)) b es = ((runOver step b es).1.map fun p => (p.1, g p.2), (runOver step b es).2) := by
  induction es generalizing b with
  | nil => rfl
  | cons e es ih => simp [runOver, ih]

theorem stampPages_now {s : State} (e : Nat) (h : s.late = false) : stampPages e s = .ok () s := by
  unfold stampPages
  simp [h]

theorem elemTry_ok {α : Type} {x : M α} {s t : State} {a : α} (h : x s = .ok a t) : elemTry x s = .ok (.ok a) t := by
  have tried : attempt x s = .ok (.ok a) t := by rw [run_attempt, h]
  unfold elemTry
  rw [run_bind_ok tried]
  rfl

/-- A run none of whose elements faults; `place` gives the state by what the step carries. -/
theorem tryElems_ok {α β : Type} {f : Nat → M α} {place : β → State} {step : β → Nat → α × β} (late : ∀ b, (place b).late = false) {es : List Nat}
    (h : ∀ b, ∀ e ∈ es, f e (place b) = .ok (step b e).1 (place (step b e).2)) (b : β) :
    tryElems f es (place b) = .ok { vals := (runOver step b es).1, fault := none } (place (runOver step b es).2) := by
  induction es generalizing b with
  | nil => rfl
  | cons e es ih =>
    have rest := ih (fun b x hx => h b x (by simp [hx])) (step b e).2
    unfold tryElems
    rw [run_bind_ok (elemTry_ok (h b e (by simp)))]
    simp only
    rw [run_bind_ok (stampPages_now e (late _)), run_bind_ok rest]
    rfl

theorem mapM'_ok {α β : Type} {f : α → M β} {g : α → β} {s : State} {l : List α} (h : ∀ a ∈ l, f a s = .ok (g a) s) : mapM' l f s = .ok (l.map g) s := by
  induction l with
  | nil => rfl
  | cons a l ih =>
    unfold mapM'
    rw [run_bind_ok (h a (by simp)), run_bind_ok (ih fun b hb => h b (by simp [hb]))]
    rfl

/-- A loop that changes the running context alone. -/
theorem forM'_modMe {α : Type} (g : α → Ctx → Ctx) (a : α) (l : List α) (s : State) :
    forM' (a :: l) (fun a => modMe (g a)) s = .ok () (s.modMe fun c => (a :: l).foldl (fun c a => g a c) c) := by
  induction l generalizing a s with
  | nil => rfl
  | cons b l ih =>
    unfold forM'
    rw [run_bind_ok (run_modMe _ s), ih, State.modMe_modMe]
    rfl

/-- In a state whose running context was just put, a change that leaves the context alone leaves the state alone. -/
theorem State.entered_modMe {s : State} {i : Instr} {u : Issue} {f : Ctx → Ctx} (h : f (s.entered i u).me = (s.entered i u).me) :
    (s.entered i u).modMe f = s.entered i u := by
  unfold State.entered at *
  rw [State.me_modMe] at h
  rw [State.modMe_modMe]
  exact State.modMe_congr h

/-! What conversions raise, added at once or in turn. -/

theorem addSat_addSat (c : Word) (n m : Nat) : addSat (addSat c n) m = addSat c (n + m) := by
  unfold addSat
  rw [BitVec.toNat_ofNat, Nat.mod_eq_of_lt (by omega)]
  congr 1
  omega

theorem addSat_zero (c : Word) : addSat c 0 = c := by
  unfold addSat
  have := c.isLt
  rw [Nat.min_eq_left (by omega)]
  simp

/-- What nothing raised leaves alone. -/
theorem applyRaised_start (c : Ctx) : applyRaised c (Raised.start c.fc.seed) = c := by
  unfold applyRaised Raised.start
  rw [addSat_zero]
  simp

/-- What an element raises, added to a context that has taken what came before it. -/
theorem applyRaised_add (c : Ctx) (a : Raised) (seed : BitVec 32) (x : Coded) :
    applyRaised (applyRaised c a) ((Raised.start seed).add x 1 0 0) = applyRaised c (a.add x 1 0 0) := by
  unfold applyRaised Raised.start Raised.add
  simp only [addSat_addSat, Nat.zero_or, Nat.zero_add, BitVec.or_assoc]
  rw [BitVec.ofNat_or]

/-- A code moved unchanged raises nothing. -/
theorem Raised.add_pure (a : Raised) (c : Nat) : a.add (pureCode c a.seed) 1 0 0 = a := by
  simp [Raised.add, pureCode]

end Sys2Proof.Machine
end

section
/-! PROOF. The codes of a stream instruction's elements, converted in element order (R64, R193, R196). -/

namespace Sys2Proof.Machine

/-- An element's code moved between entries, with what was raised before it and after. -/
def moveStep (l : Lane) (src dst : Nat) (keep : Bool) (raw : Nat → Nat) (a : Raised) (e : Nat) : Nat × Raised :=
  let k := fmtOf (l.ent dst)
  let c := if keep && l.ent src == l.ent dst then pureCode (raw e) a.seed else convert (raw e) (fmtOf (l.ent src)) k (roundingMode l.cap.rmo k) a.seed
  (c.code, a.add c 1 0 0)

theorem movedCodes_eq (s : State) (l : Lane) (src dst : Nat) (keep : Bool) (es : List Nat) (raw : Nat → Nat) :
    s.movedCodes l src dst keep es raw = runOver (moveStep l src dst keep raw) (Raised.start s.me.fc.seed) es :=
  (foldl_runOver (moveStep l src dst keep raw) (Raised.start s.me.fc.seed) [] es).trans (by simp)

/-- A conversion after others. -/
theorem convCode_ok (s : State) (l : Lane) (src dst : Nat) (raw : Nat → Nat) (a : Raised) (e : Nat) :
    convCode l src dst (raw e) (s.modMe fun c => applyRaised c a) =
      .ok (moveStep l src dst false raw a e).1 (s.modMe fun c => applyRaised c (moveStep l src dst false raw a e).2) := by
  unfold convCode
  rw [run_bind_ok (run_getMe _), State.me_modMe, run_bind_ok (run_modMe _ _), State.modMe_modMe]
  simp only [applyRaised_add]
  rfl

/-- A code filled in after others: moved unchanged where the entries' words are equal, else converted. -/
theorem moveCode_ok (s : State) (l : Lane) (src dst : Nat) (raw : Nat → Nat) (a : Raised) (e : Nat) :
    moveCode l src dst (raw e) (s.modMe fun c => applyRaised c a) =
      .ok (moveStep l src dst true raw a e).1 (s.modMe fun c => applyRaised c (moveStep l src dst true raw a e).2) := by
  unfold moveCode
  cases same : l.ent src == l.ent dst
  · rw [if_neg (by simp), convCode_ok]
    simp [moveStep, same]
  · rw [if_pos rfl]
    simp only [moveStep, same, Bool.and_self, if_true, Raised.add_pure]
    rfl

end Sys2Proof.Machine
end

section
/-! PROOF. What a load makes of the values it read (R90, R193). -/

namespace Sys2Proof.Machine

/-- A slot of an array after values were put into it, each at a place of its own. -/
theorem getD_putAll {vals : List (Nat × Nat)} (hn : (vals.map (·.1)).Nodup) (a : Array (Option Nat)) {e : Nat} (he : e < a.size) :
    (vals.foldl (fun a p => a.setIfInBounds p.1 (some p.2)) a).getD e none = (((vals.find? fun p => p.1 == e).map (·.2)).or (a.getD e none)) := by
  induction vals generalizing a with
  | nil => simp
  | cons p vals ih =>
    obtain ⟨hp, hn⟩ := List.nodup_cons.1 hn
    rw [List.foldl_cons, ih hn _ (by simpa using he)]
    by_cases h : p.1 = e
    · have absent : vals.find? (fun q => q.1 == e) = none := by
        rw [List.find?_eq_none]
        intro q hq
        have : q.1 ≠ p.1 := fun g => hp (List.mem_map.2 ⟨q, hq, g⟩)
        simp only [beq_iff_eq]
        omega
      simp [absent, h, he]
    · simp [h]

/-- A load's image: the values read, zeros in a cleared tail, else the old elements. -/
theorem loadImage_eq (n vl : Nat) (td : Bool) (old : View) {vals : List (Nat × Nat)} (hn : (vals.map (·.1)).Nodup) :
    loadImage n vl td old vals = (List.range n).map fun e =>
      if e ∈ vals.map (·.1) then ((vals.find? fun p => p.1 == e).map (·.2)).getD 0 else if vl ≤ e ∧ td = true then 0 else old.at e := by
  unfold loadImage
  refine List.map_congr_left fun e he => ?_
  have hsize : e < (Array.replicate n (none : Option Nat)).size := by simpa using he
  have empty : (Array.replicate n (none : Option Nat)).getD e none = none := by simp [List.mem_range.1 he]
  simp only [getD_putAll hn _ hsize, empty, Option.or_none]
  cases hf : vals.find? fun p => p.1 == e with
  | none =>
    have out : e ∉ vals.map (·.1) := by
      rw [List.find?_eq_none] at hf
      intro hm
      obtain ⟨q, hq, rfl⟩ := List.mem_map.1 hm
      exact hf q hq (by simp)
    simp [out]
  | some p =>
    have hp : p.1 = e := by simpa using List.find?_some hf
    have : e ∈ vals.map (·.1) := hp ▸ List.mem_map_of_mem (List.mem_of_find?_eq_some hf)
    simp [this]

/-- A load's image where each element reached has a value. -/
theorem loadImage_given (n vl : Nat) (td : Bool) (old : View) {es : List Nat} (hn : es.Nodup) (g : Nat → Nat) :
    loadImage n vl td old (es.map fun e => (e, g e)) = (List.range n).map fun e => if e ∈ es then g e else if vl ≤ e ∧ td = true then 0 else old.at e := by
  have keys : (es.map fun e => (e, g e)).map (·.1) = es := by simp [Function.comp_def]
  have val : ∀ e ∈ es, (((es.map fun e => (e, g e)).find? fun p => p.1 == e).map (·.2)).getD 0 = g e := fun e he => by
    cases hf : (es.map fun e => (e, g e)).find? fun p => p.1 == e with
    | none => exact absurd (List.find?_eq_none.1 hf (e, g e) (List.mem_map_of_mem he)) (by simp)
    | some p =>
      have hp : p.1 = e := by simpa using List.find?_some hf
      obtain ⟨x, -, rfl⟩ := List.mem_map.1 (List.mem_of_find?_eq_some hf)
      rw [← hp]
      rfl
  rw [loadImage_eq _ _ _ _ (by rw [keys]; exact hn), keys]
  refine List.map_congr_left fun e _ => ?_
  by_cases he : e ∈ es
  · rw [if_pos he, if_pos he, val e he]
  · rw [if_neg he, if_neg he]

end Sys2Proof.Machine
end

section
/-! PROOF. A stream load none of whose elements faults (R97, R189, R192). -/

namespace Sys2Proof.Machine

/-- A context whose stream has moved on, with nothing read ahead (R189). -/
def Ctx.streamTo (c : Ctx) (q : Fin 16) (pos : Nat) : Ctx := { c with q := c.q.set q { c.q[q] with pos := BitVec.ofNat 48 pos, early := [] } }

/-- One destination of a load, the `i`-th, from the values each element gave (R193). -/
def Ctx.loadOne (l : Lane) (sew : Nat) (vals : List (Nat × List Nat)) (c : Ctx) (p : Fin 32 × Nat) : Ctx :=
  putRes c p.1 (encodeElems l sew (loadImage (l.nAt sew) l.vl l.td (oldView c p.1 sew) (vals.map fun v => (v.1, v.2.getD p.2 0)))) (l.tail sew)

/-- Every destination of a load in turn. -/
def Ctx.loadAll (l : Lane) (sew : Nat) (regs : List (Fin 32)) (vals : List (Nat × List Nat)) (c : Ctx) : Ctx := regs.zipIdx.foldl (Ctx.loadOne l sew vals) c

theorem putRes_keeps (c : Ctx) (r : Fin 32) (x : VReg) (tail : Option Nat) (full : Bool) : (putRes c r x tail full).q = c.q ∧ (putRes c r x tail full).pc = c.pc := by
  unfold putRes
  cases tail with
  | none => exact ⟨rfl, rfl⟩
  | some k => simp only; split <;> exact ⟨rfl, rfl⟩

theorem loadAll_keeps (l : Lane) (sew : Nat) (regs : List (Fin 32)) (vals : List (Nat × List Nat)) (c : Ctx) :
    (c.loadAll l sew regs vals).q = c.q ∧ (c.loadAll l sew regs vals).pc = c.pc := by
  unfold Ctx.loadAll
  generalize regs.zipIdx = ps
  induction ps generalizing c with
  | nil => exact ⟨rfl, rfl⟩
  | cons p ps ih =>
    obtain ⟨hq, hpc⟩ := ih (c.loadOne l sew vals p)
    obtain ⟨gq, gpc⟩ := putRes_keeps c p.1 (encodeElems l sew (loadImage (l.nAt sew) l.vl l.td (oldView c p.1 sew) (vals.map fun v => (v.1, v.2.getD p.2 0)))) (l.tail sew) true
    exact ⟨hq.trans gq, hpc.trans gpc⟩

section
variable {s : State} {l : Lane} {q : Fin 16}

theorem loadWrite_ok {sew : Nat} {regs : List (Fin 32)} {vals : List (Nat × List Nat)} (hne : regs ≠ []) (hl : s.late = false) :
    loadWrite l sew l.vl l.td regs vals s = .ok () (s.modMe fun c => c.loadAll l sew regs vals) := by
  obtain ⟨r, regs, rfl⟩ := List.exists_cons_of_ne_nil hne
  unfold loadWrite
  rw [run_bind_ok (run_get s), List.zipIdx_cons, hl]
  exact forM'_modMe (fun p c => c.loadOne l sew vals p) _ _ s

theorem getQ_ok (s : State) (q : Fin 16) : getQ q s = .ok s.me.q[q] s := rfl

theorem movePos_early {used : List Nat} (pos : Nat) (he : s.me.q[q].early = []) : movePos q pos used s = .ok () (s.modMe fun c => c.streamTo q pos) := by
  unfold movePos
  rw [run_bind_ok (getQ_ok s q), he]
  exact congrArg (EStateM.Result.ok ()) (State.modMe_congr rfl)

/-- The advance of a load without the hint to read ahead. -/
theorem loadAdvance_ok {hint : Fin 8} {packed : Option Nat} {accesses : Nat → List Access} {g : Nat} (hh : hint ≠ 4) (he : s.me.q[q].early = []) :
    loadAdvance l q hint packed accesses g s = .ok () (s.modMe fun c => c.streamTo q (advancePos l s.me.q[q].desc s.me.q[q].pos.toNat g)) := by
  unfold loadAdvance
  rw [run_bind_ok (getQ_ok s q), run_bind_ok (movePos_early _ he), if_neg hh]
  rfl

theorem unlessStopped_none {α : Type} (h : l.stop = none) (f : Nat → M α) : unlessStopped l f = f := by
  funext e
  unfold unlessStopped
  rw [h]

theorem usePrepared_none {r : QReg} (h : r.prep = []) : usePrepared r s = .ok () s := by
  unfold usePrepared
  rw [h]
  rfl

/-- The loop of a load that no element's fault ends, and what follows it. -/
theorem loadRun_ok {t : State} {sew : Nat} {regs : List (Fin 32)} {elems : List Nat} {trims : Bool} {fetch : Nat → M (List Nat)} {vals : List (Nat × List Nat)}
    {hint : Fin 8} {packed : Option Nat} {accesses : Nat → List Access} {r : QReg} (hne : regs ≠ []) (hstop : l.stop = none) (run : tryElems fetch elems s = .ok { vals, fault := none } t)
    (hl : t.late = false) (hr : t.me.q[q] = r) (he : r.early = []) (hh : hint ≠ 4) :
    loadRun l sew regs elems trims fetch (loadAdvance l q hint packed accesses) s = .ok () (t.modMe fun c =>
      ((c.loadAll l sew regs vals).streamTo q (advancePos l r.desc r.pos.toNat l.vl)).atStart) := by
  have keeps : (t.modMe fun c => c.loadAll l sew regs vals).me.q[q] = r := by rw [State.me_modMe, (loadAll_keeps _ _ _ _ _).1, hr]
  unfold loadRun
  rw [unlessStopped_none hstop, run_bind_ok run]
  simp only
  rw [run_bind_ok (loadWrite_ok hne hl), run_bind_ok (loadAdvance_ok hh (by rw [keeps]; exact he)), clearVstart_ok, State.modMe_modMe, State.modMe_modMe, keeps]

/-- A stream instruction that can run: its register holds `r`, bound, of the direction asked for, plain, with nothing prepared; elements are left to do, no pre-emption point stops it, and no value is held back. Its context was just put. -/
structure State.StreamReady (s : State) (l : Lane) (q : Fin 16) (r : QReg) (writes : Bool) : Prop where
  reg : s.me.q[q] = r
  now : s.late = false
  priv : l.priv = s.me.priv
  whole : l.stop = none
  left : l.vstart < l.vl
  bound : r.bound = true
  dir : r.desc.writes = writes
  plain : r.desc.lay = false
  prep : r.prep = []
  start : s.modMe (fun c => applyRaised c (Raised.start s.me.fc.seed)) = s

theorem State.StreamReady.stream {r : QReg} {writes : Bool} (h : s.StreamReady l q r writes) : needStream q writes false s = .ok r s := by
  unfold needStream
  rw [run_bind_ok (getQ_ok s q), h.reg, run_bind_ok (needU_true h.bound _ s), run_bind_ok (needU_true (by simp [h.dir]) _ s), run_bind_ok (needU_true (by simp [h.plain]) _ s)]
  rfl

/-- A stream load's places: every access of its elements reaches the own pool. -/
def State.LoadPlaces (s : State) (r : QReg) (elems : List Nat) (pos : Nat → Nat) (accesses : Nat → List Access) : Prop :=
  ∀ e ∈ elems, pos e < r.desc.total ∧ ∀ x ∈ accesses (pos e), s.PoolAt x.1 x.2.1 .read (x.1 - ownBase) ∧ (x.2.2 = 0 ∨ x.2.2 = x.2.1) ∧ portOk r.desc.port x.1 = true

/-- What the accesses of an element read. -/
def State.readsAt (s : State) (as : List Access) : List Nat := as.map fun x => memRead s.myCore.pool (x.1 - ownBase) x.2.1

theorem streamLoad_ok {hint : Fin 8} {sew : Nat} {packed : Option Nat} {regs : List (Fin 32)} {accesses : Nat → List Access} {fill : Nat → List Nat → M (List Nat)}
    {step : Raised → Nat → List Nat × Raised} {r : QReg} (hne : regs ≠ []) (ready : s.StreamReady l q r false) (he : r.early = []) (hh : hint ≠ 4)
    (hw : ∀ x ∈ regs, s.me.Writable x (l.whole s.me.m[l.mreg].toNat (l.nAt sew) && !(List.range (l.nAt sew)).any (isEdge l r.desc r.pos.toNat)))
    (hp : s.LoadPlaces r (streamElems l r s.me.m[l.mreg].toNat) (elemPos l r.desc r.pos.toNat) accesses)
    (hfill : ∀ a, ∀ e ∈ streamElems l r s.me.m[l.mreg].toNat, fill (elemPos l r.desc r.pos.toNat e) (s.readsAt (accesses (elemPos l r.desc r.pos.toNat e)))
      (s.modMe fun c => applyRaised c a) = .ok (step a e).1 (s.modMe fun c => applyRaised c (step a e).2)) :
    let out := runOver step (Raised.start s.me.fc.seed) (streamElems l r s.me.m[l.mreg].toNat)
    streamLoad l q hint sew packed regs accesses fill s =
      .ok () (s.modMe fun c => (((applyRaised c out.2).loadAll l sew regs out.1).streamTo q (advancePos l r.desc r.pos.toNat l.vl)).atStart) := by
  intro out
  obtain ⟨hr, hl, hpriv, hstop, hvl, -, -, -, hprep, start⟩ := ready
  have am : activeMask l s = .ok s.me.m[l.mreg].toNat s := rfl
  unfold streamLoad
  rw [run_bind_ok (getQ_ok s q), hr, run_bind_ok am, run_bind_ok (forM'_still fun x hx => decodeDest_ok (hw x hx)), if_neg (by omega), run_bind_ok (usePrepared_none hprep)]
  have run := tryElems_ok (place := fun a => s.modMe fun c => applyRaised c a) (step := step) (fun _ => hl) (es := streamElems l r s.me.m[l.mreg].toNat)
    (f := fun e => do
      let vs ← mapM' (accesses (elemPos l r.desc r.pos.toNat e)) fun a =>
        streamRead l r (elemKey (elemPos l r.desc r.pos.toNat e) (accessByte r.desc l.cap.vs packed (elemPos l r.desc r.pos.toNat e) a)) a.1 a.2.1 a.2.2
          (r.desc.total ≤ elemPos l r.desc r.pos.toNat e) false
      fill (elemPos l r.desc r.pos.toNat e) vs) (fun a e hem => ?_) (Raised.start s.me.fc.seed)
  · rw [start] at run
    have loop := loadRun_ok (q := q) (sew := sew) (regs := regs) (trims := !l.shaped) (packed := packed) (accesses := accesses) hne hstop run hl
      (by rw [State.me_modMe]; exact hr) he hh
    rw [State.modMe_modMe] at loop
    exact loop
  · obtain ⟨hlt, hx⟩ := hp e hem
    have same : s.SamePlaces (s.modMe fun c => applyRaised c a) := State.SamePlaces.modMe rfl rfl rfl
    have reads := mapM'_ok (s := s.modMe fun c => applyRaised c a) (l := accesses (elemPos l r.desc r.pos.toNat e))
      (f := fun x => streamRead l r (elemKey (elemPos l r.desc r.pos.toNat e) (accessByte r.desc l.cap.vs packed (elemPos l r.desc r.pos.toNat e) x)) x.1 x.2.1 x.2.2
        (r.desc.total ≤ elemPos l r.desc r.pos.toNat e) false) (g := fun x => memRead s.myCore.pool (x.1 - ownBase) x.2.1) fun x hxm => ?_
    · rw [run_bind_ok reads]
      exact hfill a e hem
    · obtain ⟨h1, h2, h3⟩ := hx x hxm
      rw [decide_eq_false (by omega)]
      exact streamRead_pool he (h1.congr same) (hpriv.trans same.2.2.1.symm) h2 h3

end

end Sys2Proof.Machine
end

section
/-! PROOF. VLD, VLDB and VLDSEG in the lanes (R193). -/

namespace Sys2Proof.Machine

/-- A load of one destination: what it leaves of a context whose stream register holds `r`. -/
def Ctx.loadedOne (l : Lane) (sew : Nat) (q : Fin 16) (r : QReg) (vd : Fin 32) (codes : List (Nat × Nat) × Raised) (c : Ctx) : Ctx :=
  let d := (applyRaised c codes.2).vDone vd (encodeElems l sew (loadImage (l.nAt sew) l.vl l.td (oldView c vd sew) codes.1)) (l.tail sew)
  { d with q := d.q.set q { r with pos := BitVec.ofNat 48 (advancePos l r.desc r.pos.toNat l.vl), early := [] } }

/-- Values of one destination each. -/
theorem loadAll_single {l : Lane} {sew : Nat} {q : Fin 16} {r : QReg} {vd : Fin 32} {c : Ctx} (hr : c.q[q] = r) (codes : List (Nat × Nat) × Raised) :
    (((applyRaised c codes.2).loadAll l sew [vd] (codes.1.map fun p => (p.1, [p.2]))).streamTo q (advancePos l r.desc r.pos.toNat l.vl)).atStart =
      c.loadedOne l sew q r vd codes := by
  have vals : (codes.1.map fun p => (p.1, [p.2])).map (fun v => (v.1, v.2.getD 0 0)) = codes.1 := by simp [Function.comp_def]
  have all : (applyRaised c codes.2).loadAll l sew [vd] (codes.1.map fun p => (p.1, [p.2])) =
      putRes (applyRaised c codes.2) vd (encodeElems l sew (loadImage (l.nAt sew) l.vl l.td (oldView c vd sew) codes.1)) (l.tail sew) := by
    unfold Ctx.loadAll
    simp only [List.zipIdx_cons, List.zipIdx_nil, List.foldl_cons, List.foldl_nil, Ctx.loadOne, vals]
    rfl
  have reg : (putRes (applyRaised c codes.2) vd (encodeElems l sew (loadImage (l.nAt sew) l.vl l.td (oldView c vd sew) codes.1)) (l.tail sew)).q[q] = r := by
    rw [(putRes_keeps _ _ _ _ _).1]
    exact hr
  rw [all, Ctx.streamTo, reg]
  rfl

section
variable {s : State} {l : Lane} {r : QReg}

theorem streamFmt_ok {d : Desc} (h : (fmtOf (l.ent d.ent)).valid = true) : streamFmt l d s = .ok (fmtOf (l.ent d.ent)) s := needEntry_ok h

/-- The fill of a load of one destination. -/
theorem fillOne_ok (s : State) (l : Lane) (src dst : Nat) (raw : Nat → Nat) (a : Raised) (e : Nat) :
    (do let c ← moveCode l src dst (raw e); return [c] : M (List Nat)) (s.modMe fun c => applyRaised c a) =
      .ok [(moveStep l src dst true raw a e).1] (s.modMe fun c => applyRaised c (moveStep l src dst true raw a e).2) := by
  rw [run_bind_ok (moveCode_ok s l src dst raw a e)]
  rfl

/-- The position of an element of a stream instruction. -/
abbrev QReg.at (r : QReg) (l : Lane) (e : Nat) : Nat := elemPos l r.desc r.pos.toNat e

/-- The code of an element of one word. -/
def State.wordAt (s : State) (l : Lane) (r : QReg) (n e : Nat) : Nat := memRead s.myCore.pool ((elemSpot r.desc none l.cap.vs (r.at l e) 0).va - ownBase) n

/-- A load of one destination whose elements' codes are made of what was read. -/
theorem streamLoad_one {q : Fin 16} {hint : Fin 8} {sew : Nat} {packed : Option Nat} {vd : Fin 32} {accesses : Nat → List Access} {src dst : Nat} {bits : Nat → List Nat → Nat}
    {raw : Nat → Nat} (ready : s.StreamReady l q r false) (he : r.early = []) (hh : hint ≠ 4)
    (hw : s.me.Writable vd (l.whole s.me.m[l.mreg].toNat (l.nAt sew) && !(List.range (l.nAt sew)).any (isEdge l r.desc r.pos.toNat)))
    (hp : s.LoadPlaces r (streamElems l r s.me.m[l.mreg].toNat) (r.at l) accesses)
    (hraw : ∀ e ∈ streamElems l r s.me.m[l.mreg].toNat, bits (r.at l e) (s.readsAt (accesses (r.at l e))) = raw e) :
    streamLoad l q hint sew packed [vd] accesses (fun p vs => do let c ← moveCode l src dst (bits p vs); return [c]) s =
      .ok () (s.modMe fun c => c.loadedOne l sew q r vd (s.movedCodes l src dst true (streamElems l r s.me.m[l.mreg].toNat) raw)) := by
  have load := streamLoad_ok (packed := packed) (sew := sew) (regs := [vd])
    (step := fun a e => ([(moveStep l src dst true raw a e).1], (moveStep l src dst true raw a e).2))
    (fill := fun p vs => do let c ← moveCode l src dst (bits p vs); return [c]) (by simp) ready he hh (by simpa using hw) hp fun a e hem => by
      simp only [hraw e hem]
      exact fillOne_ok s l src dst raw a e
  rw [runOver_map fun c => [c], ← movedCodes_eq] at load
  exact load.trans (congrArg _ (State.modMe_congr (loadAll_single ready.reg _)))

/-- VLD where every element reaches the own pool. -/
theorem laneVld_ok {f : VLdForm} (ready : s.StreamReady l f.q r false) (he : r.early = []) (hh : f.hint ≠ 4) (hk : l.fmt.valid = true) (hm : (fmtOf (l.ent r.desc.ent)).valid = true)
    (h8 : 8 ≤ (fmtOf (l.ent r.desc.ent)).wid)
    (hw : s.me.Writable f.vd (l.whole s.me.m[l.mreg].toNat (l.nAt l.fmt.wid) && !(List.range (l.nAt l.fmt.wid)).any (isEdge l r.desc r.pos.toNat)))
    (hp : s.LoadPlaces r (streamElems l r s.me.m[l.mreg].toNat) (r.at l) fun p =>
      [((elemSpot r.desc none l.cap.vs p 0).va, (fmtOf (l.ent r.desc.ent)).wid / 8, (fmtOf (l.ent r.desc.ent)).wid / 8)]) :
    laneVld f l s = .ok () (s.modMe fun c => c.loadedOne l l.fmt.wid f.q r f.vd
      (s.movedCodes l r.desc.ent l.entNo true (streamElems l r s.me.m[l.mreg].toNat) (s.wordAt l r ((fmtOf (l.ent r.desc.ent)).wid / 8)))) := by
  unfold laneVld
  rw [run_bind_ok ready.stream, run_bind_ok (needVtypeEntry_ok hk), run_bind_ok (streamFmt_ok hm), run_bind_ok (needU_true (decide_eq_true h8) _ s)]
  exact streamLoad_one (bits := fun _ vs => vs.getD 0 0) ready he hh hw hp fun _ _ => rfl

/-! Bits packed in bytes. -/

theorem pack_bytes (m : Memory) (a n : Nat) : pack 8 ((List.range n).map fun i => memRead m (a + i) 1) = memRead m a n := by
  have byte : ∀ b, memRead m b 1 = (memGet m b).toNat := fun b => by simp [memRead]
  induction n generalizing a with
  | zero => rfl
  | succ n ih =>
    have tail := ih (a + 1)
    simp only [byte] at tail ⊢
    simp only [List.range_succ_eq_map, List.map_cons, List.map_map, pack, memRead, Function.comp_def, Nat.add_zero]
    have step : (fun i => (memGet m (a + i.succ)).toNat) = fun i => (memGet m (a + 1 + i)).toNat := by
      funext i
      rw [Nat.add_succ, Nat.add_right_comm]
    rw [step, tail]
    have := (memGet m a).isLt
    omega

/-- The code of an element packed in bits. -/
def State.bitsAt (s : State) (l : Lane) (r : QReg) (w off e : Nat) : Nat :=
  let t := elemSpot r.desc (some w) l.cap.vs (r.at l e) off
  nbits (memRead s.myCore.pool (t.va - ownBase) ((t.bit + w + 7) / 8)) t.bit w

/-- The bytes of a packed element, read one by one. -/
theorem readsAt_packed {w off e : Nat} (h0 : ownBase ≤ (elemSpot r.desc (some w) l.cap.vs (r.at l e) off).va) :
    nbits (pack 8 (s.readsAt (packedAccesses r.desc w l.cap.vs off (r.at l e)))) (elemSpot r.desc (some w) l.cap.vs (r.at l e) off).bit w = s.bitsAt l r w off e := by
  have shift : ∀ i, (elemSpot r.desc (some w) l.cap.vs (r.at l e) off).va + i - ownBase = (elemSpot r.desc (some w) l.cap.vs (r.at l e) off).va - ownBase + i := fun i => by omega
  unfold State.readsAt packedAccesses State.bitsAt
  simp only [List.map_map, Function.comp_def, shift, pack_bytes]

/-- VLDB where every byte reaches the own pool. -/
theorem laneVldb_ok {f : VLdbForm} (ready : s.StreamReady l f.q r false) (he : r.early = []) (hh : f.hint ≠ 4) (hk : l.fmt.valid = true) (hm : (fmtOf (l.ent r.desc.ent)).valid = true)
    (h46 : (fmtOf (l.ent r.desc.ent)).wid = 4 ∨ (fmtOf (l.ent r.desc.ent)).wid = 6)
    (hw : s.me.Writable f.vd (l.whole s.me.m[l.mreg].toNat (l.nAt l.fmt.wid) && !(List.range (l.nAt l.fmt.wid)).any (isEdge l r.desc r.pos.toNat)))
    (hp : s.LoadPlaces r (streamElems l r s.me.m[l.mreg].toNat) (r.at l) (packedAccesses r.desc (fmtOf (l.ent r.desc.ent)).wid l.cap.vs f.off.val)) :
    laneVldb f l s = .ok () (s.modMe fun c => c.loadedOne l l.fmt.wid f.q r f.vd
      (s.movedCodes l r.desc.ent l.entNo true (streamElems l r s.me.m[l.mreg].toNat) (s.bitsAt l r (fmtOf (l.ent r.desc.ent)).wid f.off.val))) := by
  unfold laneVldb
  rw [run_bind_ok ready.stream, run_bind_ok (needVtypeEntry_ok hk), run_bind_ok (streamFmt_ok hm), run_bind_ok (needU_true (by simpa using h46) _ s)]
  refine streamLoad_one (bits := fun p vs => nbits (pack 8 vs) (elemSpot r.desc (some (fmtOf (l.ent r.desc.ent)).wid) l.cap.vs p f.off.val).bit (fmtOf (l.ent r.desc.ent)).wid)
    ready he hh hw hp fun e hem => readsAt_packed ?_
  have first := ((hp e hem).2 ((elemSpot r.desc (some (fmtOf (l.ent r.desc.ent)).wid) l.cap.vs (r.at l e) f.off.val).va, 1, 0) ?_).1
  · exact windowLoc_some_ge first.2.1
  · exact List.mem_map.2 ⟨0, List.mem_range.2 (by omega), rfl⟩

/-! Records. -/

theorem runOver_still {α β : Type} (g : Nat → α) (b : β) (es : List Nat) : runOver (fun b e => (g e, b)) b es = (es.map fun e => (e, g e), b) := by
  induction es generalizing b with
  | nil => rfl
  | cons e es ih => simp [runOver, ih]

/-- The registers of a record's fields. -/
def fieldRegs (vd nf : Nat) : List (Fin 32) := (segRegs vd nf).map (Fin.ofNat 32)

/-- The fields of an element's record, widened or cut. -/
def State.fieldsAt (s : State) (l : Lane) (r : QReg) (f : VSegForm) (e : Nat) : List Nat :=
  (s.readsAt (recordAccesses r.desc l.cap.vs f.nf.val f.fw (r.at l e))).map (extField f.sx (8 * fieldBytes f.fw) l.fmt.wid)

/-- What VLDSEG leaves of a context. -/
def Ctx.segDone (s : State) (l : Lane) (r : QReg) (f : VSegForm) (c : Ctx) : Ctx :=
  (((applyRaised c (Raised.start s.me.fc.seed)).loadAll l l.fmt.wid (fieldRegs f.vd.val f.nf.val)
    ((streamElems l r s.me.m[l.mreg].toNat).map fun e => (e, s.fieldsAt l r f e))).streamTo f.q (advancePos l r.desc r.pos.toNat l.vl)).atStart

/-- VLDSEG where every field reaches the own pool. -/
theorem laneVldseg_ok {f : VSegForm} (ready : s.StreamReady l f.q r false) (he : r.early = []) (hh : f.hint ≠ 4) (hk : l.fmt.valid = true)
    (hsew : l.fmt.wid = 8 ∨ l.fmt.wid = 16 ∨ l.fmt.wid = 32)
    (hw : ∀ x ∈ fieldRegs f.vd.val f.nf.val,
      s.me.Writable x (l.whole s.me.m[l.mreg].toNat (l.nAt l.fmt.wid) && !(List.range (l.nAt l.fmt.wid)).any (isEdge l r.desc r.pos.toNat)))
    (hp : s.LoadPlaces r (streamElems l r s.me.m[l.mreg].toNat) (r.at l) (recordAccesses r.desc l.cap.vs f.nf.val f.fw)) :
    laneVldseg f l s = .ok () (s.modMe (Ctx.segDone s l r f)) := by
  have named : fieldRegs f.vd.val f.nf.val ≠ [] := by simp [fieldRegs, segRegs]
  unfold laneVldseg
  rw [run_bind_ok ready.stream, run_bind_ok (needVtypeEntry_ok hk), run_bind_ok (needU_true (by simpa [or_assoc] using hsew) _ s)]
  have load := streamLoad_ok (packed := none) (sew := l.fmt.wid) (step := fun a e => (s.fieldsAt l r f e, a))
    (fill := fun _ vs => return vs.map (extField f.sx (8 * fieldBytes f.fw) l.fmt.wid)) named ready he hh hw hp fun _ _ _ => rfl
  rw [runOver_still] at load
  exact load

end

/-! What the destinations of a load hold. -/

/-- The register a load's image makes. -/
def loadedReg (l : Lane) (sew : Nat) (vals : List (Nat × List Nat)) (c : Ctx) (p : Fin 32 × Nat) : VReg :=
  { encodeElems l sew (loadImage (l.nAt sew) l.vl l.td (oldView c p.1 sew) (vals.map fun v => (v.1, v.2.getD p.2 0))) with full := true, dirty := true, pois := false }

theorem putRes_fields (c : Ctx) (r : Fin 32) (x : VReg) (tail : Option Nat) :
    (putRes c r x tail).v = c.v.set r { x with full := true, dirty := true, pois := false } ∧
      (putRes c r x tail).vc = { c.vc with vlive := c.vc.vlive ||| BitVec.ofNat 32 (2 ^ r.val), vdirty := c.vc.vdirty ||| BitVec.ofNat 32 (2 ^ r.val), vuse := c.vc.vuse &&& ~~~ BitVec.ofNat 32 (2 ^ r.val) } := by
  unfold putRes
  cases tail with
  | none => exact ⟨rfl, rfl⟩
  | some k => simp only; split <;> exact ⟨rfl, rfl⟩

section
variable {l : Lane} {sew : Nat} {vals : List (Nat × List Nat)} {c : Ctx} {p : Fin 32 × Nat}

theorem loadOne_self : (c.loadOne l sew vals p).v[p.1] = loadedReg l sew vals c p := by
  obtain ⟨hv, -⟩ := putRes_fields c p.1 (encodeElems l sew (loadImage (l.nAt sew) l.vl l.td (oldView c p.1 sew) (vals.map fun v => (v.1, v.2.getD p.2 0)))) (l.tail sew)
  rw [Ctx.loadOne, hv]
  simp [loadedReg]

/-- Another register, and its old value. -/
theorem loadOne_other {r : Fin 32} (h : r ≠ p.1) : (c.loadOne l sew vals p).v[r] = c.v[r] ∧ oldView (c.loadOne l sew vals p) r sew = oldView c r sew := by
  have hn : p.1.val ≠ r.val := fun e => h (Fin.ext e.symm)
  obtain ⟨hv, hvc⟩ := putRes_fields c p.1 (encodeElems l sew (loadImage (l.nAt sew) l.vl l.td (oldView c p.1 sew) (vals.map fun v => (v.1, v.2.getD p.2 0)))) (l.tail sew)
  have reg : (c.loadOne l sew vals p).v[r] = c.v[r] := by
    rw [Ctx.loadOne, hv]
    simp [hn]
  have live : (c.loadOne l sew vals p).vc.vlive.getLsbD r.val = c.vc.vlive.getLsbD r.val := by
    have bit : (BitVec.ofNat 32 (2 ^ p.1.val)).getLsbD r.val = false := by
      rw [BitVec.getLsbD_ofNat, Nat.testBit_two_pow]
      simp [hn]
    rw [Ctx.loadOne, hvc]
    exact BitVec.getLsbD_or.trans (by rw [bit, Bool.or_false])
  have size : (c.loadOne l sew vals p).vlmax = c.vlmax := by
    rw [Ctx.loadOne, Ctx.vlmax, hvc]
    rfl
  exact ⟨reg, by rw [oldView, oldView, live, reg, size]⟩

/-- Destinations that differ each take their own image; no other register changes. -/
theorem loadOnes_v {ps : List (Fin 32 × Nat)} (hn : (ps.map (·.1)).Nodup) (c : Ctx) :
    (∀ p ∈ ps, (ps.foldl (Ctx.loadOne l sew vals) c).v[p.1] = loadedReg l sew vals c p) ∧ ∀ r, r ∉ ps.map (·.1) → (ps.foldl (Ctx.loadOne l sew vals) c).v[r] = c.v[r] := by
  induction ps generalizing c with
  | nil => exact ⟨fun _ h => absurd h List.not_mem_nil, fun _ _ => rfl⟩
  | cons p ps ih =>
    obtain ⟨hp, hn⟩ := List.nodup_cons.1 hn
    obtain ⟨put, keep⟩ := ih hn (c.loadOne l sew vals p)
    rw [List.foldl_cons]
    refine ⟨fun x hx => ?_, fun r hr => ?_⟩
    · rcases List.mem_cons.1 hx with rfl | hx
      · rw [keep _ hp, loadOne_self]
      · have : x.1 ≠ p.1 := fun e => hp (List.mem_map.2 ⟨x, hx, e⟩)
        rw [put x hx, loadedReg, loadedReg, (loadOne_other this).2]
    · rw [List.map_cons, List.mem_cons, not_or] at hr
      rw [keep r hr.2, (loadOne_other hr.1).1]

end

end Sys2Proof.Machine
end

section
/-! PROOF. Stream loads (O36). -/

namespace Sys2Proof.Machine

section
variable {s : State} {i : Instr} {u : Issue} {l : Lane} {q : Fin 16} {r : QReg}

theorem State.entered_q (s : State) (i : Instr) (u : Issue) : (s.entered i u).me.q = s.me.q := by
  simp only [State.entered, State.me_modMe]
  cases u.writes with
  | none => rfl
  | some x => simp only [Ctx.sclear]; split <;> rfl

/-- A stream instruction that has just entered the queue is ready. -/
theorem streamReady_entered {writes : Bool} (hc : s.CanRun u) (hl : l.priv = s.me.priv) (hs : l.stop = none) (hv : l.vstart < l.vl) (hr : s.me.q[q] = r)
    (hb : r.bound = true) (hd : r.desc.writes = writes) (hp : r.desc.lay = false) (hprep : r.prep = []) : (s.entered i u).StreamReady l q r writes where
  reg := by rw [State.entered_q]; exact hr
  now := by rw [State.entered_late]; exact hc.1
  priv := hl.trans (State.SamePlaces.entered s i u).2.2.1.symm
  whole := hs
  left := hv
  bound := hb
  dir := hd
  plain := hp
  prep := hprep
  start := State.entered_modMe (applyRaised_start _)

theorem loadPlaces_entered {elems : List Nat} {pos : Nat → Nat} {accesses : Nat → List Access} (h : s.LoadPlaces r elems pos accesses) :
    (s.entered i u).LoadPlaces r elems pos accesses := fun e hem => by
  obtain ⟨hlt, hx⟩ := h e hem
  refine ⟨hlt, fun x hxm => ?_⟩
  obtain ⟨h1, h2⟩ := hx x hxm
  exact ⟨h1.congr (State.SamePlaces.entered s i u), h2⟩

theorem movedCodes_entered (s : State) (i : Instr) (u : Issue) (l : Lane) (src dst : Nat) (keep : Bool) (es : List Nat) (raw : Nat → Nat) :
    (s.entered i u).movedCodes l src dst keep es raw = s.movedCodes l src dst keep es raw := by
  unfold State.movedCodes
  rw [State.entered_fc]

theorem streamElems_nodup (l : Lane) (r : QReg) (mask : Nat) : (streamElems l r mask).Nodup := (List.nodup_range.filter _).filter _

/-- A load's image of converted codes, in the terms of the state before it entered the queue. -/
theorem loadImage_entered {sew : Nat} {vd : Fin 32} {src dst : Nat} {keep : Bool} {es : List Nat} {raw : Nat → Nat} (hn : es.Nodup) :
    loadImage (l.nAt sew) l.vl l.td (oldView (s.entered i u).me vd sew) ((s.entered i u).movedCodes l src dst keep es raw).1 =
      (List.range (l.nAt sew)).map fun e => if e ∈ es then ((((s.movedCodes l src dst keep es raw).1.find? fun p => p.1 == e)).map (·.2)).getD 0
        else if l.vl ≤ e ∧ l.td = true then 0 else (oldView s.me vd sew).at e := by
  have keys : (s.movedCodes l src dst keep es raw).1.map (·.1) = es := by rw [movedCodes_eq, runOver_keys]
  rw [movedCodes_entered, loadImage_eq _ _ _ _ (by rw [keys]; exact hn), keys, oldView_congr (State.entered_vc s i u) (State.entered_v s i u)]

end

theorem mem_fieldRegs {vd nf : Nat} {x : Fin 32} (h : x ∈ fieldRegs vd nf) : ∃ i, i ≤ nf ∧ x = Fin.ofNat 32 (vd + i) := by
  unfold fieldRegs segRegs at h
  rw [List.map_map] at h
  obtain ⟨i, hi, rfl⟩ := List.mem_map.1 h
  exact ⟨i, by have := List.mem_range.1 hi; omega, rfl⟩

theorem fieldRegs_nodup {vd nf : Nat} (h : vd + nf < 32) : (fieldRegs vd nf).Nodup := by
  unfold fieldRegs segRegs
  rw [List.map_map]
  refine List.Nodup.map_on (fun x hx y hy e => ?_) List.nodup_range
  have hx := List.mem_range.1 hx
  have hy := List.mem_range.1 hy
  have e : (vd + x) % 32 = (vd + y) % 32 := congrArg Fin.val e
  omega

theorem mem_fieldRegs_zipIdx {vd nf i : Nat} (h : i ≤ nf) : (Fin.ofNat 32 (vd + i), i) ∈ (fieldRegs vd nf).zipIdx := by
  rw [List.mem_zipIdx_iff_getElem?]
  have : i < nf + 1 := by omega
  simp [fieldRegs, segRegs, this]

/-- The field of a record that goes to destination `i`. -/
theorem fieldsAt_getD {s : State} {l : Lane} {r : QReg} {f : VSegForm} {i : Nat} (e : Nat) (h : i ≤ f.nf.val) :
    (s.fieldsAt l r f e).getD i 0 = extField f.sx (8 * 2 ^ f.fw.val) l.fmt.wid
      (memRead s.myCore.pool ((elemSpot r.desc none l.cap.vs (r.at l e) 0).va + i * 2 ^ f.fw.val - ownBase) (2 ^ f.fw.val)) := by
  have : i < f.nf.val + 1 := by omega
  simp [State.fieldsAt, State.readsAt, recordAccesses, fieldBytes, this]

section
variable {s : State} {u : Issue} {l : Lane} {r : QReg} {f : VSegForm}

/-- What VLDSEG leaves besides its destinations. -/
theorem segDone_keeps (c : Ctx) : (c.segDone s l r f).pc = c.pc ∧ (c.segDone s l r f).vc.vstart = 0 ∧
    (c.segDone s l r f).q = c.q.set f.q { c.q[f.q] with pos := BitVec.ofNat 48 (advancePos l r.desc r.pos.toNat l.vl), early := [] } := by
  obtain ⟨hq, hpc⟩ := loadAll_keeps l l.fmt.wid (fieldRegs f.vd.val f.nf.val) ((streamElems l r s.me.m[l.mreg].toNat).map fun e => (e, s.fieldsAt l r f e))
    (applyRaised c (Raised.start s.me.fc.seed))
  refine ⟨hpc, rfl, ?_⟩
  rw [Ctx.segDone, Ctx.atStart, Ctx.streamTo, hq]
  rfl

/-- Each destination takes its field of every element; no other register changes. -/
theorem segDone_v (h : f.vd.val + f.nf.val < 32) (c : Ctx) :
    (∀ i, i ≤ f.nf.val → (c.segDone s l r f).v[Fin.ofNat 32 (f.vd.val + i)] =
      { encodeElems l l.fmt.wid ((List.range (l.nAt l.fmt.wid)).map fun e =>
          if e ∈ streamElems l r s.me.m[l.mreg].toNat then (s.fieldsAt l r f e).getD i 0
          else if l.vl ≤ e ∧ l.td = true then 0 else (oldView c (Fin.ofNat 32 (f.vd.val + i)) l.fmt.wid).at e) with full := true, dirty := true, pois := false }) ∧
      ∀ x : Fin 32, (∀ i, i ≤ f.nf.val → x.val ≠ f.vd.val + i) → (c.segDone s l r f).v[x] = c.v[x] := by
  have keys : (fieldRegs f.vd.val f.nf.val).zipIdx.map (·.1) = fieldRegs f.vd.val f.nf.val := by simp
  obtain ⟨put, keep⟩ := loadOnes_v (l := l) (sew := l.fmt.wid) (vals := (streamElems l r s.me.m[l.mreg].toNat).map fun e => (e, s.fieldsAt l r f e))
    (by rw [keys]; exact fieldRegs_nodup h) (applyRaised c (Raised.start s.me.fc.seed))
  refine ⟨fun i hi => ?_, fun x hx => keep x ?_⟩
  · refine (put _ (mem_fieldRegs_zipIdx hi)).trans ?_
    rw [loadedReg, List.map_map]
    rw [show ((fun v : Nat × List Nat => (v.1, v.2.getD i 0)) ∘ fun e => (e, s.fieldsAt l r f e)) = fun e => (e, (s.fieldsAt l r f e).getD i 0) from rfl,
      loadImage_given _ _ _ _ (streamElems_nodup _ _ _)]
    rfl
  · rw [keys]
    intro hm
    obtain ⟨i, hi, rfl⟩ := mem_fieldRegs hm
    exact hx i hi (Nat.mod_eq_of_lt (by omega))

end

/-- Settles O36: no element faults where every access reaches the own pool (`streamLoad_ok`), and the loop's end where one does. -/
theorem streamLoadResults : Obligations.StreamLoadResults := by
  refine ⟨fun s q => ?_, fun s l sew regs elems fetch advance r u e x run hf ht hs => ?_⟩
  · intro l k r d n elems pos ms read inPool img whole moved codes loaded hb hdir hlay hprep hearly hk hvl hend
    refine ⟨?vld, ?vldb, ?vldseg⟩
    case vld =>
      rintro f rfl hh hc hw hm h8 a hp
      have ready := streamReady_entered (i := .vld f) (l := l) (q := f.q) hc rfl rfl hvl rfl hb hdir hlay hprep
      refine vector_ran hc ?_
      have body := laneVld_ok ready hearly hh hk hm h8 (by rw [State.entered_m]; exact writable_entered _ _ hw)
        (by
          rw [State.entered_m]
          refine loadPlaces_entered fun e he => ⟨hend e he, fun x hx => ?_⟩
          obtain rfl := List.mem_singleton.1 hx
          exact ⟨(hp e he).1, .inr rfl, (hp e he).2⟩)
      refine body.trans (congrArg _ (State.modMe_congr ?_))
      rw [State.entered_m, Ctx.loadedOne, loadImage_entered (streamElems_nodup _ _ _), movedCodes_entered]
      rfl
    case vldb =>
      rintro f rfl hh hc hw hm h46 spot bytes hp
      have ready := streamReady_entered (i := .vldb f) (l := l) (q := f.q) hc rfl rfl hvl rfl hb hdir hlay hprep
      refine vector_ran hc ?_
      have body := laneVldb_ok ready hearly hh hk hm h46 (by rw [State.entered_m]; exact writable_entered _ _ hw)
        (by
          rw [State.entered_m]
          refine loadPlaces_entered fun e he => ⟨hend e he, fun x hx => ?_⟩
          obtain ⟨i, hi, rfl⟩ := List.mem_map.1 hx
          have place := hp e he i (List.mem_range.1 hi)
          exact ⟨place.1, .inl rfl, place.2⟩)
      refine body.trans (congrArg _ (State.modMe_congr ?_))
      rw [State.entered_m, Ctx.loadedOne, loadImage_entered (streamElems_nodup _ _ _), movedCodes_entered]
      rfl
    case vldseg =>
      rintro f rfl hh w u a hc hsew hw hp
      have ready := streamReady_entered (i := .vldseg f) (l := l) (q := f.q) hc rfl rfl hvl rfl hb hdir hlay hprep
      have body := laneVldseg_ok ready hearly hh hk hsew (fun x hx => by
          obtain ⟨i, hi, rfl⟩ := mem_fieldRegs hx
          rw [State.entered_m]
          exact writable_entered _ _ (hw i hi))
        (by
          rw [State.entered_m]
          refine loadPlaces_entered fun e he => ⟨hend e he, fun x hx => ?_⟩
          obtain ⟨i, hi, rfl⟩ := List.mem_map.1 hx
          have place := hp e he i (by have := List.mem_range.1 hi; omega)
          exact ⟨place.1, .inr rfl, place.2⟩)
      have run := vector_ran (i := .vldseg f) hc body
      rw [State.ran_eq] at run
      have regs : f.vd.val + f.nf.val < 32 := by
        have below : f.vd.val + f.nf.val < s.me.count := hc.2.2.1 _ (List.mem_map.2 ⟨f.nf.val, List.mem_range.2 (by omega), rfl⟩)
        exact lt_of_lt_of_le below (Nat.div_le_self _ _)
      obtain ⟨pv, -, pvc, -, ppc, pq, -, -⟩ := ((s.entered (.vldseg f) u).me.segDone (s.entered (.vldseg f) u) l r f).popped_keeps
      obtain ⟨hpc, hvs, hq⟩ := segDone_keeps (s := s.entered (.vldseg f) u) (l := l) (r := r) (f := f) (s.entered (.vldseg f) u).me
      obtain ⟨hput, hkeep⟩ := segDone_v (s := s.entered (.vldseg f) u) (l := l) (r := r) regs (s.entered (.vldseg f) u).me
      refine ⟨_, run, OnlyMe.done _ _ _ _, ?_, ?_, ?_, fun i hi => ?_, fun x hx => ?_⟩ <;> rw [State.me_done]
      · rw [ppc, hpc, State.entered_pc]
      · rw [pvc, hvs]
      · rw [pq, hq, State.entered_q]
      · rw [pv, hput i hi, State.entered_m, oldView_congr (State.entered_vc s _ u) (State.entered_v s _ u)]
        simp only [fieldsAt_getD _ hi]
        rfl
      · rw [pv, hkeep x hx, State.entered_v]
  · rw [loadRun, unlessStopped_none hs, run_bind_ok run]
    simp only [hf]
    refine ⟨fun hfirst hsplit => ?_, fun hfirst hle => ?_⟩
    · have trims : (true && !l.noTrim && x != .split && elems.head? != some e) = true := by simp [ht, hfirst, hsplit]
      rw [if_pos trims]
      rfl
    · have stops : ¬(true && !l.noTrim && x != .split && elems.head? != some e) = true := by simp [hfirst]
      rw [if_neg stops, if_neg (by omega)]
      rfl

end Sys2Proof.Machine
end

section
/-! PROOF. A stream store none of whose elements faults (R97, R189, R196). -/

namespace Sys2Proof.Machine

/-! The core changed twice. -/

theorem State.modMyCore_modMyCore (s : State) (f g : Core → Core) : (s.modMyCore f).modMyCore g = s.modMyCore fun k => g (f k) := by
  simp only [State.modMyCore, State.modCore, State.setCore, State.core, tabGet_tabSet_self, tabSet_tabSet]

/-- Two changes of the running core that agree on it give one state. -/
theorem State.modMyCore_congr {s : State} {f g : Core → Core} (h : f s.myCore = g s.myCore) : s.modMyCore f = s.modMyCore g := by
  simp only [State.modMyCore, State.modCore]
  exact congrArg _ h

theorem forM'_map {α β : Type} (g : α → β) (f : β → M Unit) (l : List α) : forM' (l.map g) f = forM' l fun a => f (g a) := by
  induction l with
  | nil => rfl
  | cons a l ih =>
    simp only [List.map_cons, forM']
    rw [ih]

/-- Writes of words of the own pool that are not poisoned, one after another. -/
theorem forM'_writes {α : Type} (off n v : α → Nat) {s : State} (x : α) (xs : List α) (h : ∀ y ∈ x :: xs, poolPoisoned s.myCore (off y) (n y) = false) :
    forM' (x :: xs) (fun y => locWrite (.pool s.cur.core.val (off y)) (n y) (v y)) s =
      .ok () (s.modMyCore fun k => { k with pool := (x :: xs).foldl (fun m y => memWrite m (off y) (n y) (v y)) k.pool }) := by
  induction xs generalizing x s with
  | nil =>
    unfold forM'
    rw [run_bind_ok (locWrite_pool (v x) (h x (by simp)))]
    rfl
  | cons y ys ih =>
    have rest : ∀ z ∈ y :: ys, poolPoisoned (s.modMyCore fun k => { k with pool := memWrite k.pool (off x) (n x) (v x) }).myCore (off z) (n z) = false := fun z hz => by
      rw [State.myCore_modMyCore]
      exact h z (List.mem_cons_of_mem _ hz)
    unfold forM'
    rw [run_bind_ok (locWrite_pool (v x) (h x (by simp)))]
    refine (ih y rest).trans ?_
    rw [State.modMyCore_modMyCore]
    rfl

section
variable {s : State} {l : Lane} {q : Fin 16} {r : QReg}

/-- A run none of whose elements faults from a state that is no place of its own; with no element it leaves that state. -/
theorem tryElems_from {α β : Type} {f : Nat → M α} {place : β → State} {step : β → Nat → α × β} (b : β) {es : List Nat} (hl : ∀ b, (place b).late = false)
    (h0 : ∀ e ∈ es, f e s = .ok (step b e).1 (place (step b e).2)) (h : ∀ b, ∀ e ∈ es, f e (place b) = .ok (step b e).1 (place (step b e).2)) :
    tryElems f es s = .ok { vals := (runOver step b es).1, fault := none } (if es = [] then s else place (runOver step b es).2) := by
  cases es with
  | nil => rfl
  | cons e es =>
    have rest := tryElems_ok hl (fun b x hx => h b x (List.mem_cons_of_mem _ hx)) (step b e).2
    unfold tryElems
    rw [run_bind_ok (elemTry_ok (h0 e (by simp)))]
    simp only
    rw [run_bind_ok (stampPages_now e (hl _)), run_bind_ok rest]
    rfl

/-- A context whose stream has moved on, what was read ahead kept (R189). -/
def Ctx.streamPast (c : Ctx) (q : Fin 16) (pos : Nat) : Ctx := { c with q := c.q.set q { c.q[q] with pos := BitVec.ofNat 48 pos } }

theorem movePos_store (q : Fin 16) (pos : Nat) : movePos q pos [] s = .ok () (s.modMe fun c => c.streamPast q pos) := by
  have kept : (if s.me.q[q].early.isEmpty then [] else s.me.q[q].early.filter fun b => !([] : List Nat).contains (b.1 / 128)) = s.me.q[q].early := by
    cases h : s.me.q[q].early <;> simp
  unfold movePos
  rw [run_bind_ok (getQ_ok s q), kept]
  exact congrArg (EStateM.Result.ok ()) (State.modMe_congr rfl)

/-- A store whose run ends without a fault. -/
theorem streamStore_ok {t : State} {put : Nat → Nat → M Unit} {vals : List (Nat × Unit)} (ready : s.StreamReady l q r true)
    (run : tryElems (fun e => put e (r.at l e)) (streamElems l r s.me.m[l.mreg].toNat) s = .ok { vals, fault := none } t) :
    streamStore l q put s = .ok () (t.modMe fun c => (c.streamPast q (advancePos l r.desc r.pos.toNat l.vl)).atStart) := by
  obtain ⟨hr, hl, hpriv, hstop, hvl, -, -, -, hprep, start⟩ := ready
  have am : activeMask l s = .ok s.me.m[l.mreg].toNat s := rfl
  unfold streamStore
  rw [run_bind_ok (getQ_ok s q), hr, run_bind_ok am, if_neg (by omega), run_bind_ok (usePrepared_none hprep)]
  unfold storeRun
  rw [unlessStopped_none hstop, run_bind_ok run]
  simp only
  rw [run_bind_ok (movePos_store q _), clearVstart_ok, State.modMe_modMe]

end

/-! Converted elements, stored in turn. -/

/-- An element converted and stored: `put` gives the pool after it. -/
def storeStep (l : Lane) (src dst : Nat) (raw : Nat → Nat) (put : Memory → Nat → Nat → Memory) (b : Memory × Raised) (e : Nat) : Unit × Memory × Raised :=
  ((), put b.1 e (moveStep l src dst false raw b.2 e).1, (moveStep l src dst false raw b.2 e).2)

theorem runOver_store (l : Lane) (src dst : Nat) (raw : Nat → Nat) (put : Memory → Nat → Nat → Memory) (m : Memory) (a : Raised) (es : List Nat) :
    (runOver (storeStep l src dst raw put) (m, a) es).2 =
      ((runOver (moveStep l src dst false raw) a es).1.foldl (fun m x => put m x.1 x.2) m, (runOver (moveStep l src dst false raw) a es).2) := by
  induction es generalizing m a with
  | nil => rfl
  | cons e es ih =>
    simp only [runOver, List.foldl_cons]
    exact ih _ _

/-- What elements stored by one function of the pool leave of it. -/
theorem runOver_pool (put : Memory → Nat → Memory) (m : Memory) (es : List Nat) : (runOver (fun m e => ((), put m e)) m es).2 = es.foldl put m := by
  induction es generalizing m with
  | nil => rfl
  | cons e es ih => exact ih _

end Sys2Proof.Machine
end

section
/-! PROOF. A field of bits replaced in a range of bytes, byte by byte (R188, R196). -/

namespace Sys2Proof.Machine

/-- A bit of a number with a field replaced: of the new field inside it, of the number outside it. -/
theorem testBit_replaceField (v lo n x i : Nat) :
    (v - nbits v lo n * 2 ^ lo + x % 2 ^ n * 2 ^ lo).testBit i = if lo ≤ i ∧ i < lo + n then x.testBit (i - lo) else v.testBit i := by
  have value : v - nbits v lo n * 2 ^ lo + x % 2 ^ n * 2 ^ lo = 2 ^ lo * (2 ^ n * (v / 2 ^ (lo + n)) + x % 2 ^ n) + v % 2 ^ lo := by
    have h := nbits_split v lo n
    generalize v / 2 ^ (lo + n) = hi at *
    generalize nbits v lo n = mid at *
    generalize v % 2 ^ lo = low at *
    rw [h, Nat.mul_add, Nat.mul_add, Nat.mul_comm mid, Nat.mul_comm (x % 2 ^ n)]
    omega
  rw [value, Nat.testBit_two_pow_mul_add _ (Nat.mod_lt _ (Nat.two_pow_pos lo))]
  by_cases h1 : i < lo
  · rw [if_pos h1, if_neg (by omega), Nat.testBit_mod_two_pow]
    simp [h1]
  · rw [if_neg h1, Nat.testBit_two_pow_mul_add _ (Nat.mod_lt _ (Nat.two_pow_pos n))]
    by_cases h3 : i - lo < n
    · rw [if_pos h3, if_pos (by omega), Nat.testBit_mod_two_pow]
      simp [h3]
    · rw [if_neg h3, if_neg (by omega), Nat.testBit_div_two_pow]
      congr 1
      omega

/-- The bytes of a range, read as one number. -/
theorem memRead_nbits (m : Memory) (a n : Nat) {i : Nat} (h : i < n) : nbits (memRead m a n) (8 * i) 8 = memRead m (a + i) 1 := by
  induction n generalizing a i with
  | zero => omega
  | succ n ih =>
    have hb := (memGet m a).isLt
    cases i with
    | zero =>
      simp only [nbits, memRead, Nat.add_zero, Nat.mul_zero, Nat.pow_zero, Nat.div_one]
      omega
    | succ i =>
      have rest := ih (a + 1) (i := i) (by omega)
      have shift : memRead m a (n + 1) / 2 ^ (8 * (i + 1)) = memRead m (a + 1) n / 2 ^ (8 * i) := by
        rw [Nat.mul_add, Nat.pow_add, Nat.mul_comm (2 ^ (8 * i)), ← Nat.div_div_eq_div_mul]
        congr 1
        simp only [memRead]
        omega
      rw [nbits, shift, ← nbits, rest, Nat.add_right_comm, Nat.add_assoc]

/-- A range written byte by byte. -/
theorem memWrite_bytes (m : Memory) (a n v : Nat) : memWrite m a n v = (List.range n).foldl (fun m i => memWrite m (a + i) 1 (nbits v (8 * i) 8)) m := by
  have byte : ∀ (m : Memory) (a x y : Nat), x % 256 = y % 256 → memWrite m a 1 x = memWrite m a 1 y := fun m a x y h => by
    have : BitVec.ofNat 8 x = BitVec.ofNat 8 y := BitVec.eq_of_toNat_eq (by simpa using h)
    simp only [memWrite, this]
  induction n generalizing m a v with
  | zero => rfl
  | succ n ih =>
    rw [List.range_succ_eq_map, List.foldl_cons, List.foldl_map]
    have first : memWrite m (a + 0) 1 (nbits v (8 * 0) 8) = memSet m a (BitVec.ofNat 8 v) := byte m a _ v (by simp [nbits])
    rw [first, memWrite, ih]
    congr 1
    funext m i
    have shift : nbits (v / 256) (8 * i) 8 = nbits v (8 * i.succ) 8 := by
      rw [nbits, nbits, Nat.mul_succ, Nat.add_comm, Nat.pow_add, Nat.div_div_eq_div_mul]
    rw [shift]
    exact congrArg (fun b => memWrite m b 1 (nbits v (8 * i.succ) 8)) (Nat.add_right_comm a 1 i)

/-- A byte of a field replaced, by masks. -/
theorem maskByte (old bit w c i : Nat) :
    (nbits old (8 * i) 8 ||| nbits ((2 ^ w - 1) * 2 ^ bit) (8 * i) 8) ^^^ nbits ((2 ^ w - 1) * 2 ^ bit) (8 * i) 8 ||| nbits (c % 2 ^ w * 2 ^ bit) (8 * i) 8 =
      nbits (old - nbits old bit w * 2 ^ bit + c % 2 ^ w * 2 ^ bit) (8 * i) 8 := by
  apply Nat.eq_of_testBit_eq
  intro j
  simp only [Nat.testBit_or, Nat.testBit_xor, testBit_nbits, testBit_replaceField, Nat.testBit_mul_two_pow, Nat.testBit_two_pow_sub_one, Nat.testBit_mod_two_pow]
  by_cases hj : j < 8
  · by_cases hlo : bit ≤ 8 * i + j
    · by_cases hhi : 8 * i + j < bit + w
      · have : 8 * i + j - bit < w := by omega
        simp [hj, hlo, hhi, this]
      · have : ¬ 8 * i + j - bit < w := by omega
        simp [hj, hlo, hhi, this]
    · simp [hj, hlo]
  · simp [hj]

end Sys2Proof.Machine
end

section
/-! PROOF. VST and VSTSEG in the lanes (R196). -/

namespace Sys2Proof.Machine

section
variable {s : State} {l : Lane} {r : QReg}

/-- A stream store's places: every access of its elements reaches the own pool. -/
def State.StorePlaces (s : State) (l : Lane) (r : QReg) (elems : List Nat) (accesses : Nat → List Access) : Prop :=
  ∀ e ∈ elems, r.at l e < r.desc.total ∧
    ∀ x ∈ accesses (r.at l e), s.PoolAt x.1 x.2.1 .write (x.1 - ownBase) ∧ (x.2.2 = 0 ∨ x.2.2 = x.2.1) ∧ portOk r.desc.port x.1 = true

/-- The running core's pool and what was raised so far. -/
def State.storedTo (s : State) (b : Memory × Raised) : State := (s.modMyCore fun k => { k with pool := b.1 }).modMe fun c => applyRaised c b.2

theorem samePlaces_storedTo (s : State) (b : Memory × Raised) : s.SamePlaces (s.storedTo b) :=
  (State.SamePlaces.modMyCore rfl rfl).trans (State.SamePlaces.modMe rfl rfl rfl)

/-- One element converted, and stored by `put`, from a state that has the places of `s`. -/
def StoresOne (s : State) (l : Lane) (src dst : Nat) (raw : Nat → Nat) (put : Memory → Nat → Nat → Memory) (e : Nat) (x : M Unit) : Prop :=
  ∀ t, s.SamePlaces t → x t = .ok () ((t.modMe fun c => applyRaised c ((Raised.start t.me.fc.seed).add
      (convert (raw e) (fmtOf (l.ent src)) (fmtOf (l.ent dst)) (roundingMode l.cap.rmo (fmtOf (l.ent dst))) t.me.fc.seed) 1 0 0)).modMyCore fun k =>
    { k with pool := put k.pool e (convert (raw e) (fmtOf (l.ent src)) (fmtOf (l.ent dst)) (roundingMode l.cap.rmo (fmtOf (l.ent dst))) t.me.fc.seed).code })

/-- An element stored after others. -/
theorem StoresOne.next {src dst : Nat} {raw : Nat → Nat} {put : Memory → Nat → Nat → Memory} {e : Nat} {x : M Unit} (h : StoresOne s l src dst raw put e x) (b : Memory × Raised) :
    x (s.storedTo b) = .ok () (s.storedTo (storeStep l src dst raw put b e).2) := by
  have seed : (s.storedTo b).me.fc.seed = b.2.seed := by rw [State.storedTo, State.me_modMe]; rfl
  rw [h _ (samePlaces_storedTo s b), seed, State.storedTo, State.modMe_modMe]
  simp only [applyRaised_add]
  rw [State.modMe_modMyCore, State.modMyCore_modMyCore]
  rfl

/-- The first element stored. -/
theorem StoresOne.first {src dst : Nat} {raw : Nat → Nat} {put : Memory → Nat → Nat → Memory} {e : Nat} {x : M Unit} (h : StoresOne s l src dst raw put e x) :
    x s = .ok () (s.storedTo (storeStep l src dst raw put (s.myCore.pool, Raised.start s.me.fc.seed) e).2) := by
  rw [h s (State.SamePlaces.refl s)]
  exact congrArg (EStateM.Result.ok ()) (State.modMyCore_congr rfl)

theorem storeAccess_ok {a : Access} {es : List Nat} {accesses : Nat → List Access} (hp : s.StorePlaces l r es accesses) {e : Nat} (he : e ∈ es) (ha : a ∈ accesses (r.at l e))
    (hl : l.priv = s.me.priv) {t : State} (same : s.SamePlaces t) :
    elemLoc l r.desc.port a.1 a.2.1 a.2.2 (r.desc.total ≤ r.at l e) .write false t = .ok (.pool t.cur.core.val (a.1 - ownBase)) t ∧
      poolPoisoned t.myCore (a.1 - ownBase) a.2.1 = false := by
  obtain ⟨hlt, hx⟩ := hp e he
  obtain ⟨h1, h2, h3⟩ := hx a ha
  have place := h1.congr same
  rw [decide_eq_false (by omega)]
  exact ⟨elemLoc_pool place (hl.trans same.2.2.1.symm) h2 h3, place.2.2⟩

/-- A conversion that starts from what the context holds. -/
theorem convCode_now (l : Lane) (src dst c : Nat) (t : State) :
    convCode l src dst c t = .ok (convert c (fmtOf (l.ent src)) (fmtOf (l.ent dst)) (roundingMode l.cap.rmo (fmtOf (l.ent dst))) t.me.fc.seed).code
      (t.modMe fun x => applyRaised x ((Raised.start t.me.fc.seed).add
        (convert c (fmtOf (l.ent src)) (fmtOf (l.ent dst)) (roundingMode l.cap.rmo (fmtOf (l.ent dst))) t.me.fc.seed) 1 0 0)) := rfl

/-- What VST's loop leaves, each element stored by `put`. -/
theorem vstLoop_ok {q : Fin 16} {src dst : Nat} {raw : Nat → Nat} {put : Memory → Nat → Nat → Memory} {x : Nat → Nat → M Unit} (ready : s.StreamReady l q r true)
    (h : ∀ e ∈ streamElems l r s.me.m[l.mreg].toNat, StoresOne s l src dst raw put e (x e (r.at l e))) :
    let es := streamElems l r s.me.m[l.mreg].toNat
    let codes := s.movedCodes l src dst false es raw
    streamStore l q x s = .ok () ((s.storing es fun k => { k with pool := codes.1.foldl (fun m x => put m x.1 x.2) s.myCore.pool }).modMe fun c =>
      ((applyRaised c codes.2).streamPast q (advancePos l r.desc r.pos.toNat l.vl)).atStart) := by
  intro es codes
  have run := tryElems_from (place := s.storedTo) (step := storeStep l src dst raw put) (s.myCore.pool, Raised.start s.me.fc.seed) (fun _ => ready.now)
    (fun e he => (h e he).first) fun b e he => (h e he).next b
  rw [runOver_store, ← movedCodes_eq] at run
  refine (streamStore_ok ready run).trans ?_
  unfold State.storing
  split
  next empty =>
    have nothing : codes.2 = Raised.start s.me.fc.seed := by
      show (s.movedCodes l src dst false (streamElems l r s.me.m[l.mreg].toNat) raw).2 = _
      rw [movedCodes_eq, empty]
      rfl
    refine congrArg (EStateM.Result.ok ()) (State.modMe_congr ?_)
    rw [nothing, applyRaised_start]
  next => rw [State.storedTo, State.modMe_modMe]

/-- VST's access of an element of whole bytes. -/
def wordStore (l : Lane) (r : QReg) (n src dst : Nat) (va raw : Nat → Nat) (e p : Nat) : M Unit := do
  let loc ← elemLoc l r.desc.port (va p) n n (r.desc.total ≤ p) .write false
  let c ← convCode l src dst (raw e)
  locWrite loc n c

/-- An element of whole bytes. -/
theorem storesOne_word {src dst n : Nat} {raw : Nat → Nat} {e : Nat} {es : List Nat} {va : Nat → Nat} (hp : s.StorePlaces l r es fun p => [(va p, n, n)]) (he : e ∈ es)
    (hl : l.priv = s.me.priv) :
    StoresOne s l src dst raw (fun m x c => memWrite m (va (r.at l x) - ownBase) n c) e (wordStore l r n src dst va raw e (r.at l e)) := by
  intro t same
  unfold wordStore
  obtain ⟨loc, pois⟩ := storeAccess_ok hp he (List.mem_singleton.2 rfl) hl same
  rw [run_bind_ok loc, run_bind_ok (convCode_now l src dst (raw e) t)]
  exact locWrite_pool _ pois

/-- The bytes of a packed element, found and read. -/
theorem packedBytes_ok {w e : Nat} {es : List Nat} (hp : s.StorePlaces l r es (packedAccesses r.desc w l.cap.vs 0)) (he : e ∈ es) (hl : l.priv = s.me.priv) {t : State}
    (same : s.SamePlaces t) :
    mapM' (packedAccesses r.desc w l.cap.vs 0 (r.at l e)) (fun x => do
        let loc ← elemLoc l r.desc.port x.1 1 0 (r.desc.total ≤ r.at l e) .write false
        let old ← laneRead loc 1
        return (loc, old)) t =
      .ok ((packedAccesses r.desc w l.cap.vs 0 (r.at l e)).map fun x => (.pool t.cur.core.val (x.1 - ownBase), memRead t.myCore.pool (x.1 - ownBase) 1)) t := by
  refine mapM'_ok fun x hx => ?_
  obtain ⟨loc, pois⟩ := storeAccess_ok hp he hx hl same
  obtain ⟨i, -, rfl⟩ := List.mem_map.1 hx
  rw [run_bind_ok loc, run_bind_ok (laneRead_pool pois)]
  rfl

/-- Places in a list of images of a range. -/
theorem zipIdx_map_range {α : Type} (g : Nat → α) (n : Nat) : ((List.range n).map g).zipIdx = (List.range n).map fun i => (g i, i) := by
  apply List.ext_getElem <;> simp

/-- The bits of a packed element put into bytes that were read before. -/
theorem putPacked_ok {o n : Nat} (bit w c : Nat) {t : State} (hn : 0 < n) (pois : ∀ i, i < n → poolPoisoned t.myCore (o + i) 1 = false) :
    putPacked ((List.range n).map fun i => (.pool t.cur.core.val (o + i), memRead t.myCore.pool (o + i) 1)) bit w c t = .ok () (t.modMyCore fun k =>
      { k with pool := memWrite k.pool o n (memRead k.pool o n - nbits (memRead k.pool o n) bit w * 2 ^ bit + c % 2 ^ w * 2 ^ bit) }) := by
  have bytes : List.range n = 0 :: (List.range (n - 1)).map Nat.succ := by
    rw [← List.range_succ_eq_map]
    congr 1
    omega
  have writes := forM'_writes (s := t) (fun i => o + i) (fun _ => 1)
    (fun i => (memRead t.myCore.pool (o + i) 1 ||| nbits ((2 ^ w - 1) * 2 ^ bit) (8 * i) 8) ^^^ nbits ((2 ^ w - 1) * 2 ^ bit) (8 * i) 8 ||| nbits (c % 2 ^ w * 2 ^ bit) (8 * i) 8)
    0 ((List.range (n - 1)).map Nat.succ) (by rw [← bytes]; exact fun i hi => pois i (List.mem_range.1 hi))
  rw [← bytes] at writes
  unfold putPacked
  rw [zipIdx_map_range, forM'_map]
  refine writes.trans (congrArg (EStateM.Result.ok ()) (State.modMyCore_congr ?_))
  rw [memWrite_bytes]
  congr 1
  refine List.foldl_ext _ _ _ fun m i hi => ?_
  rw [← memRead_nbits _ _ _ (List.mem_range.1 hi), maskByte]

/-- VST's access of an element packed in bits. -/
def bitsStore (l : Lane) (r : QReg) (w src dst : Nat) (raw : Nat → Nat) (e p : Nat) : M Unit := do
  let ps ← mapM' (packedAccesses r.desc w l.cap.vs 0 p) fun x => do
    let loc ← elemLoc l r.desc.port x.1 1 0 (r.desc.total ≤ p) .write false
    let old ← laneRead loc 1
    return (loc, old)
  let c ← convCode l src dst (raw e)
  putPacked ps (elemSpot r.desc (some w) l.cap.vs p 0).bit w c

/-- The pool after a packed element at a place has been stored. -/
def putBits (w : Nat) (t : Spot) (m : Memory) (c : Nat) : Memory :=
  let old := memRead m (t.va - ownBase) ((t.bit + w + 7) / 8)
  memWrite m (t.va - ownBase) ((t.bit + w + 7) / 8) (old - nbits old t.bit w * 2 ^ t.bit + c % 2 ^ w * 2 ^ t.bit)

/-- An element packed in bits: the other bits of its bytes stay. -/
theorem storesOne_bits {src dst w : Nat} {raw : Nat → Nat} {e : Nat} {es : List Nat} (hw : 0 < w) (hp : s.StorePlaces l r es (packedAccesses r.desc w l.cap.vs 0)) (he : e ∈ es)
    (hl : l.priv = s.me.priv) :
    StoresOne s l src dst raw (fun m x c => putBits w (elemSpot r.desc (some w) l.cap.vs (r.at l x) 0) m c) e (bitsStore l r w src dst raw e (r.at l e)) := by
  intro t same
  have first : ((elemSpot r.desc (some w) l.cap.vs (r.at l e) 0).va, 1, 0) ∈ packedAccesses r.desc w l.cap.vs 0 (r.at l e) :=
    List.mem_map.2 ⟨0, List.mem_range.2 (by omega), rfl⟩
  have h0 : ownBase ≤ (elemSpot r.desc (some w) l.cap.vs (r.at l e) 0).va := windowLoc_some_ge ((hp e he).2 _ first).1.2.1
  have shift : ∀ i, (elemSpot r.desc (some w) l.cap.vs (r.at l e) 0).va + i - ownBase = (elemSpot r.desc (some w) l.cap.vs (r.at l e) 0).va - ownBase + i := fun i => by omega
  have read := packedBytes_ok hp he hl same
  rw [packedAccesses, List.map_map] at read
  simp only [Function.comp_def, shift] at read
  unfold bitsStore
  rw [packedAccesses, run_bind_ok read, run_bind_ok (convCode_now l src dst (raw e) t)]
  refine putPacked_ok (t := t.modMe _) _ _ _ (by omega) fun i hi => ?_
  have pois := (storeAccess_ok hp he (List.mem_map.2 ⟨i, List.mem_range.2 hi, rfl⟩) hl same).2
  rw [← shift]
  exact pois

end

end Sys2Proof.Machine
end

section
/-! PROOF. Stream stores (O37). -/

namespace Sys2Proof.Machine

section
variable {s : State} {l : Lane} {r : QReg}

/-- The state after a stream store: the pool holds `m`, what was raised is added, the stream has moved on, VSTART is 0. -/
def State.vstDone (s : State) (l : Lane) (q : Fin 16) (r : QReg) (m : Memory) (x : Raised) : State :=
  (s.storing (streamElems l r s.me.m[l.mreg].toNat) fun k => { k with pool := m }).modMe fun c =>
    ((applyRaised c x).streamPast q (advancePos l r.desc r.pos.toNat l.vl)).atStart

/-- The codes VST stores. -/
def State.vstCodes (s : State) (l : Lane) (r : QReg) (vs : Fin 32) : List (Nat × Nat) × Raised :=
  s.movedCodes l l.entNo r.desc.ent false (streamElems l r s.me.m[l.mreg].toNat) (sourceView s.me vs l.fmt.wid).at

/-- VST of whole bytes where every element reaches the own pool. -/
theorem laneVst_word {f : VStForm} (ready : s.StreamReady l f.q r true) (hk : l.fmt.valid = true) (hm : (fmtOf (l.ent r.desc.ent)).valid = true)
    (h8 : 8 ≤ (fmtOf (l.ent r.desc.ent)).wid) (hr : s.me.Readable f.vs)
    (hp : s.StorePlaces l r (streamElems l r s.me.m[l.mreg].toNat) fun p =>
      [((elemSpot r.desc none l.cap.vs p 0).va, (fmtOf (l.ent r.desc.ent)).wid / 8, (fmtOf (l.ent r.desc.ent)).wid / 8)]) :
    laneVst f l s = .ok () (s.vstDone l f.q r ((s.vstCodes l r f.vs).1.foldl (fun m x =>
      memWrite m ((elemSpot r.desc none l.cap.vs (r.at l x.1) 0).va - ownBase) ((fmtOf (l.ent r.desc.ent)).wid / 8) x.2) s.myCore.pool) (s.vstCodes l r f.vs).2) := by
  have whole : ¬((fmtOf (l.ent r.desc.ent)).wid = 4 || (fmtOf (l.ent r.desc.ent)).wid = 6) = true := by
    simp only [Bool.or_eq_true, decide_eq_true_eq]
    omega
  have loop := vstLoop_ok ready fun e he => storesOne_word (src := l.entNo) (dst := r.desc.ent) (raw := (sourceView s.me f.vs l.fmt.wid).at) hp he ready.priv
  unfold laneVst
  rw [run_bind_ok ready.stream, run_bind_ok (needVtypeEntry_ok hk), run_bind_ok (streamFmt_ok hm), run_bind_ok (decodeSource_ok hr), run_bind_ok (run_getMe s)]
  simp only [if_neg whole]
  exact loop

/-- VST of packed bits where every byte reaches the own pool. -/
theorem laneVst_bits {f : VStForm} (ready : s.StreamReady l f.q r true) (hk : l.fmt.valid = true) (hm : (fmtOf (l.ent r.desc.ent)).valid = true)
    (h46 : (fmtOf (l.ent r.desc.ent)).wid = 4 ∨ (fmtOf (l.ent r.desc.ent)).wid = 6) (hr : s.me.Readable f.vs)
    (hp : s.StorePlaces l r (streamElems l r s.me.m[l.mreg].toNat) (packedAccesses r.desc (fmtOf (l.ent r.desc.ent)).wid l.cap.vs 0)) :
    laneVst f l s = .ok () (s.vstDone l f.q r ((s.vstCodes l r f.vs).1.foldl (fun m x =>
      putBits (fmtOf (l.ent r.desc.ent)).wid (elemSpot r.desc (some (fmtOf (l.ent r.desc.ent)).wid) l.cap.vs (r.at l x.1) 0) m x.2) s.myCore.pool) (s.vstCodes l r f.vs).2) := by
  have packed : ((fmtOf (l.ent r.desc.ent)).wid = 4 || (fmtOf (l.ent r.desc.ent)).wid = 6) = true := by simpa using h46
  have loop := vstLoop_ok ready fun e he => storesOne_bits (src := l.entNo) (dst := r.desc.ent) (raw := (sourceView s.me f.vs l.fmt.wid).at) (by omega) hp he ready.priv
  unfold laneVst
  rw [run_bind_ok ready.stream, run_bind_ok (needVtypeEntry_ok hk), run_bind_ok (streamFmt_ok hm), run_bind_ok (decodeSource_ok hr), run_bind_ok (run_getMe s)]
  simp only [if_pos packed]
  exact loop

/-! Records. -/

/-- The pool after the fields of an element's record have been stored. -/
def State.recordPut (s : State) (l : Lane) (r : QReg) (f : VStSegForm) (m : Memory) (e : Nat) : Memory :=
  (List.range (f.nf.val + 1)).foldl (fun m i => memWrite m ((elemSpot r.desc none l.cap.vs (r.at l e) 0).va + i * fieldBytes f.fw - ownBase) (fieldBytes f.fw)
    (extField f.sx l.fmt.wid (8 * fieldBytes f.fw) ((sourceView s.me (Fin.ofNat 32 (f.vs.val + i)) l.fmt.wid).at e))) m

/-- VSTSEG's access of an element: the places of its fields, then the fields. -/
def recordStore (l : Lane) (r : QReg) (f : VStSegForm) (views : List View) (e p : Nat) : M Unit := do
  let locs ← mapM' (recordAccesses r.desc l.cap.vs f.nf.val f.fw p) fun a => elemLoc l r.desc.port a.1 a.2.1 a.2.2 (r.desc.total ≤ p) .write false
  forM' (locs.zip views) fun x => locWrite x.1 (fieldBytes f.fw) (extField f.sx l.fmt.wid (8 * fieldBytes f.fw) (x.2.at e))

/-- The sources of a record's fields. -/
def fieldViews (c : Ctx) (vs nf sew : Nat) : List View := (fieldRegs vs nf).map fun v => sourceView c v sew

/-- A record stored. -/
theorem recordStore_ok {f : VStSegForm} {e : Nat} {es : List Nat} (hp : s.StorePlaces l r es (recordAccesses r.desc l.cap.vs f.nf.val f.fw)) (he : e ∈ es) (hl : l.priv = s.me.priv)
    {t : State} (same : s.SamePlaces t) :
    recordStore l r f (fieldViews s.me f.vs.val f.nf.val l.fmt.wid) e (r.at l e) t = .ok () (t.modMyCore fun k => { k with pool := s.recordPut l r f k.pool e }) := by
  have locs := mapM'_ok (s := t) (l := recordAccesses r.desc l.cap.vs f.nf.val f.fw (r.at l e)) (g := fun a => Loc.pool t.cur.core.val (a.1 - ownBase))
    (f := fun a => elemLoc l r.desc.port a.1 a.2.1 a.2.2 (r.desc.total ≤ r.at l e) .write false) fun a ha => (storeAccess_ok hp he ha hl same).1
  have fields : List.range (f.nf.val + 1) = 0 :: (List.range f.nf.val).map Nat.succ := List.range_succ_eq_map
  have writes := forM'_writes (s := t) (fun i => (elemSpot r.desc none l.cap.vs (r.at l e) 0).va + i * fieldBytes f.fw - ownBase) (fun _ => fieldBytes f.fw)
    (fun i => extField f.sx l.fmt.wid (8 * fieldBytes f.fw) ((sourceView s.me (Fin.ofNat 32 (f.vs.val + i)) l.fmt.wid).at e)) 0 ((List.range f.nf.val).map Nat.succ)
    (by rw [← fields]; exact fun i hi => (storeAccess_ok hp he (List.mem_map.2 ⟨i, hi, rfl⟩) hl same).2)
  rw [← fields] at writes
  unfold recordStore
  rw [run_bind_ok locs, recordAccesses, fieldViews, fieldRegs, segRegs, List.map_map, List.map_map, List.map_map, List.zip_map', forM'_map]
  exact writes

/-- VSTSEG where every field reaches the own pool. -/
theorem laneVstseg_ok {f : VStSegForm} (ready : s.StreamReady l f.q r true) (hk : l.fmt.valid = true) (hsew : l.fmt.wid = 8 ∨ l.fmt.wid = 16 ∨ l.fmt.wid = 32)
    (hr : ∀ x ∈ fieldRegs f.vs.val f.nf.val, s.me.Readable x)
    (hp : s.StorePlaces l r (streamElems l r s.me.m[l.mreg].toNat) (recordAccesses r.desc l.cap.vs f.nf.val f.fw)) :
    laneVstseg f l s = .ok () (s.vstDone l f.q r ((streamElems l r s.me.m[l.mreg].toNat).foldl (s.recordPut l r f) s.myCore.pool) (Raised.start s.me.fc.seed)) := by
  have run := tryElems_from (place := fun m => s.modMyCore fun k => { k with pool := m }) (step := fun m e => ((), s.recordPut l r f m e)) (s := s) s.myCore.pool
    (es := streamElems l r s.me.m[l.mreg].toNat) (f := fun e => recordStore l r f (fieldViews s.me f.vs.val f.nf.val l.fmt.wid) e (r.at l e)) (fun _ => ready.now)
    (fun e he => (recordStore_ok hp he ready.priv (State.SamePlaces.refl s)).trans (congrArg (EStateM.Result.ok ()) (State.modMyCore_congr rfl)))
    (fun m e he => (recordStore_ok hp he ready.priv (State.SamePlaces.modMyCore rfl rfl)).trans (congrArg (EStateM.Result.ok ()) (State.modMyCore_modMyCore s _ _)))
  have decoded : forM' ((segRegs f.vs.val f.nf.val).map (Fin.ofNat 32)) (fun v => decodeSource v f.fe) s = .ok () s := forM'_still fun x hx => decodeSource_ok (hr x hx)
  have me : ∀ g, (s.storing (streamElems l r s.me.m[l.mreg].toNat) g).me = s.me := fun g => by
    unfold State.storing
    split <;> rfl
  rw [runOver_pool] at run
  have loop := streamStore_ok (put := recordStore l r f (fieldViews s.me f.vs.val f.nf.val l.fmt.wid)) ready run
  unfold laneVstseg
  rw [run_bind_ok ready.stream, run_bind_ok (needVtypeEntry_ok hk), run_bind_ok (needU_true (by simpa [or_assoc] using hsew) _ s), run_bind_ok decoded, run_bind_ok (run_getMe s)]
  refine loop.trans (congrArg (EStateM.Result.ok ()) ?_)
  refine State.modMe_congr (s := s.storing _ _) ?_
  rw [me, applyRaised_start]

/-! Where an instruction has just entered the queue. -/

theorem storePlaces_entered {i : Instr} {u : Issue} {elems : List Nat} {accesses : Nat → List Access} (h : s.StorePlaces l r elems accesses) :
    (s.entered i u).StorePlaces l r elems accesses := fun e hem => by
  obtain ⟨hlt, hx⟩ := h e hem
  refine ⟨hlt, fun x hxm => ?_⟩
  obtain ⟨h1, h2⟩ := hx x hxm
  exact ⟨h1.congr (State.SamePlaces.entered s i u), h2⟩

theorem vstCodes_entered (s : State) (i : Instr) (u : Issue) (l : Lane) (r : QReg) (vs : Fin 32) : (s.entered i u).vstCodes l r vs = s.vstCodes l r vs := by
  unfold State.vstCodes
  rw [movedCodes_entered, State.entered_m, sourceView_congr (State.entered_vc s i u) (State.entered_v s i u)]

theorem recordPut_entered (s : State) (i : Instr) (u : Issue) (l : Lane) (r : QReg) (f : VStSegForm) : (s.entered i u).recordPut l r f = s.recordPut l r f := by
  funext m e
  simp only [State.recordPut, sourceView_congr (State.entered_vc s i u) (State.entered_v s i u)]

/-- A stream store in the terms of its stream register before it entered the queue. -/
theorem vstDone_entered {q : Fin 16} (hr : s.me.q[q] = r) (i : Instr) (u : Issue) (l : Lane) (m : Memory) (x : Raised) :
    (s.entered i u).vstDone l q r m x = ((s.entered i u).storing (streamElems l r s.me.m[l.mreg].toNat) fun k => { k with pool := m }).modMe fun c =>
      let c := applyRaised c x
      { c with q := c.q.set q { r with pos := BitVec.ofNat 48 (advancePos l r.desc r.pos.toNat l.vl) }, vc := { c.vc with vstart := 0 } } := by
  have me : ∀ es g, ((s.entered i u).storing es g).me.q[q] = r := fun es g => by
    rw [← hr, ← State.entered_q s i u]
    unfold State.storing
    split <;> rfl
  unfold State.vstDone
  rw [State.entered_m]
  refine State.modMe_congr ?_
  have reg : (applyRaised ((s.entered i u).storing (streamElems l r s.me.m[l.mreg].toNat) fun k => { k with pool := m }).me x).q[q] = r := me _ _
  rw [Ctx.streamPast, reg]
  rfl

theorem storing_late {i : Instr} {u : Issue} (hc : s.CanRun u) (es : List Nat) (g : Core → Core) (f : Ctx → Ctx) : (((s.entered i u).storing es g).modMe f).late = false := by
  unfold State.storing
  split <;> exact (State.entered_late s i u).trans hc.1

/-- Bytes no store reaches stay. -/
theorem memGet_stores {xs : List (Nat × Nat)} {off : Nat → Nat} {n b : Nat} (h : ∀ x ∈ xs, b < off x.1 ∨ off x.1 + n ≤ b) (m : Memory) :
    memGet (xs.foldl (fun m x => memWrite m (off x.1) n x.2) m) b = memGet m b := by
  induction xs generalizing m with
  | nil => rfl
  | cons x xs ih =>
    have := h x (by simp)
    rw [List.foldl_cons, ih (fun y hy => h y (by simp [hy])), memGet_write, if_neg (by omega)]

end

/-- Settles O37: no element faults where every access reaches the own pool (`vstLoop_ok`, `laneVstseg_ok`). -/
theorem streamStoreResults : Obligations.StreamStoreResults := by
  intro s q l k r d elems pos off inPool stored ms hb hdir hlay hprep hk hvl hend
  refine ⟨?vst, ?vstseg⟩
  case vst =>
    rintro f rfl hc hr hm codes
    have ready := streamReady_entered (i := .vst f) (l := l) (q := f.q) hc rfl rfl hvl rfl hb hdir hlay hprep
    refine ⟨?words, ?bits⟩
    case words =>
      intro h8 a hp m
      have body := laneVst_word ready hk hm h8 (readable_entered _ _ hr)
        (by
          rw [State.entered_m]
          refine storePlaces_entered fun e he => ⟨hend e he, fun x hx => ?_⟩
          obtain rfl := List.mem_singleton.1 hx
          exact ⟨(hp e he).1, .inr rfl, (hp e he).2⟩)
      rw [vstDone_entered rfl, vstCodes_entered] at body
      refine ⟨vector_runs hc body (storing_late hc _ _ _), fun b hfree => ?_⟩
      have keys : codes.1.map (·.1) = elems := by
        simp only [codes, movedCodes_eq, runOver_keys]
      refine memGet_stores (off := fun e => off (a e)) (fun x hx => hfree x.1 ?_) _
      rw [← keys]
      exact List.mem_map_of_mem hx
    case bits =>
      intro h46 spot bytes hp
      have body := laneVst_bits ready hk hm h46 (readable_entered _ _ hr)
        (by
          rw [State.entered_m]
          refine storePlaces_entered fun e he => ⟨hend e he, fun x hx => ?_⟩
          obtain ⟨i, hi, rfl⟩ := List.mem_map.1 hx
          have place := hp e he i (List.mem_range.1 hi)
          exact ⟨place.1, .inl rfl, place.2⟩)
      rw [vstDone_entered rfl, vstCodes_entered] at body
      exact vector_runs hc body (storing_late hc _ _ _)
  case vstseg =>
    rintro f rfl w u a hc hsew hr hp
    have ready := streamReady_entered (i := .vstseg f) (l := l) (q := f.q) hc rfl rfl hvl rfl hb hdir hlay hprep
    have body := laneVstseg_ok ready hk hsew (fun x hx => by
        obtain ⟨i, hi, rfl⟩ := mem_fieldRegs hx
        exact readable_entered _ _ (hr i hi))
      (by
        rw [State.entered_m]
        refine storePlaces_entered fun e he => ⟨hend e he, fun x hx => ?_⟩
        obtain ⟨i, hi, rfl⟩ := List.mem_map.1 hx
        have place := hp e he i (by have := List.mem_range.1 hi; omega)
        exact ⟨place.1, .inr rfl, place.2⟩)
    rw [vstDone_entered rfl, recordPut_entered, State.entered_m, State.entered_fc] at body
    exact vector_runs hc body (storing_late hc _ _ _)

end Sys2Proof.Machine
end

section
/-! PROOF. An instruction that raises a cause at the head of the queue, having done nothing (R164, R431). -/

namespace Sys2Proof.Machine

section
variable {s : State} {i : Instr} {u : Issue} {body : Lane → M Unit}

/-- An instruction that can run at once is the only entry of its queue. -/
theorem State.CanRun.queue (h : s.CanRun u) (i : Instr) : (s.entered i u).me.queue = [s.entryFor i u] := by
  rw [State.me_entered_queue, h.2.1]
  rfl

/-- The lane of the entry just made. -/
theorem laneOf_entryFor (s : State) (i : Instr) (u : Issue) : laneOf (s.entered i u).me (s.entryFor i u) = s.laneFor u := by
  unfold laneOf
  rw [State.entered_vc]
  rfl

/-- An instruction that can run at once runs its body. -/
theorem vector_heads (h : s.CanRun u) : vector i u body s = runHead (body (s.laneFor u)) (s.entered i u) := by
  have queue := h.queue i
  obtain ⟨hl, hq, h3, h4, h5, h6⟩ := h
  have en := enqueue_ok (i := i) h3 h4 h5 (by simp [hq]) (by simp [hq])
  have awake : ((s.entered i u).core (s.entered i u).cur.core.val).retained = 0 := by simpa [State.entered, State.myCore] using h6
  have here : onHead body (s.entered i u) = body (s.laneFor u) (s.entered i u) := by
    unfold onHead
    rw [run_bind_ok (run_getMe _), queue]
    simp only
    rw [laneOf_entryFor]
  simp only [vector, en]
  rw [if_neg (by simp [hl, hq])]
  simp only [runHead, wakeGroups_awake awake, here]

/-- A cause without a TVAL of its own, raised by an instruction that has done nothing. -/
theorem vector_traps {c : Cause} (h : s.CanRun u) (hc : (c == .moduleLost || c == .memUe) = false)
    (hb : body (s.laneFor u) (s.entered i u) = .error (.cause c none) (s.entered i u)) :
    vector i u body s = .next (laneTrap (s.entered i u) c (Config.tval s.tick) 0) := by
  have awake : ((s.entered i u).core (s.entered i u).cur.core.val).retained = 0 := by simpa [State.entered, State.myCore] using h.2.2.2.2.2
  have tval : laneTval (s.entered i u) (s.entered i u) c none = Config.tval s.tick := by
    unfold laneTval
    rw [h.queue i]
    simp only [hc, Bool.and_false, Bool.false_eq_true, if_false, tvalOf, State.entered_tick]
  rw [vector_heads h]
  simp only [runHead, wakeGroups_awake awake, hb, tval]

/-- A check that fails after one that passes. -/
theorem needU_fails {α : Type} {b : Bool} {c : Cause} {k : Unit → M α} (h : b = false) (s : State) : (needU b c >>= k) s = .error (.cause c none) s :=
  run_bind_error (needU_false h _ _)

end

end Sys2Proof.Machine
end

section
/-! PROOF. VARI and VFP (O29). -/

namespace Sys2Proof.Machine

/-- The source registers of a function of a register and a second source; some read vd too. -/
def vbRegs (vd va : Fin 32) (b : Option VSrc) (third : Bool) : List (Fin 32) :=
  va :: (b.toList.flatMap vsrcRegs).map (·.1) ++ (if third then [vd] else [])

/-- Their values at the width of the VTYPE entry. -/
def vbSources (c : Ctx) (l : Lane) (vd va : Fin 32) (b : Option VSrc) (third : Bool) : List Src :=
  [.vec va.val (sourceView c va l.fmt.wid)] ++ b.toList.map (vsrcOperand c l l.fmt.wid) ++ (if third then [.vec vd.val (oldView c vd l.fmt.wid)] else [])

/-- The whole scalar, where it counts a shift (R170). -/
def shiftOf (l : Lane) (b : VSrc) : Option Nat :=
  match b with
  | .sca _ => some l.scalar.toNat
  | .vec _ _ => none

section
variable {s : State} {l : Lane} {vd va : Fin 32} {feA x : Bool}

/-- The registers DecodeOperands passes, without their fe bits. -/
theorem vbRegs_eq (vd va : Fin 32) (feA : Bool) (b : Option VSrc) (third : Bool) :
    ([(va, feA)] ++ b.toList.flatMap vsrcRegs ++ (if third then [(vd, false)] else [])).map (·.1) = vbRegs vd va b third := by
  cases third <;> simp [vbRegs]

theorem vbSources_entered (s : State) (i : Instr) (u : Issue) (l : Lane) (vd va : Fin 32) (b : Option VSrc) (third : Bool) :
    vbSources (s.entered i u).me l vd va b third = vbSources s.me l vd va b third := by
  have source := sourceView_congr (State.entered_vc s i u) (State.entered_v s i u)
  have old := oldView_congr (State.entered_vc s i u) (State.entered_v s i u)
  unfold vbSources vsrcOperand
  simp only [source, old]

/-- A VARI function where its operands pass. -/
theorem variRun_ok {op : VariOp} {b : VSrc} (hk : l.fmt.valid = true) (stop : l.stop = none) (h : s.EwReady l vd l.fmt.wid (vbRegs vd va (some b) (op == .macc))) :
    variRun op vd va feA b x l s = .ok () (s.modMe fun c =>
      c.ewDone (s.ewOf l vd l.fmt.wid l.fmt.wid (variBase op b) (vbSources s.me l vd va (some b) (op == .macc)) (variElem op l.fmt (shiftOf l b))) vd x) := by
  rw [← vbRegs_eq vd va feA, Option.toList_some, List.flatMap_singleton] at h
  unfold variRun
  rw [run_bind_ok (needVtypeEntry_ok hk)]
  exact elementWise_ok h stop

/-- A VFP function where its operands pass. -/
theorem vfpRun_ok {op : VfpOp} {b : Option VSrc} (hk : l.fmt.valid = true) (hf : l.fmt.kind = 0) (stop : l.stop = none)
    (h : s.EwReady l vd l.fmt.wid (vbRegs vd va b (vfpThird op))) :
    vfpRun op vd va feA b x l s = .ok () (s.modMe fun c =>
      c.ewDone (s.ewOf l vd l.fmt.wid l.fmt.wid false (vbSources s.me l vd va b (vfpThird op)) (vfpElem op l.fmt (roundingMode l.cap.rmo l.fmt))) vd x) := by
  rw [← vbRegs_eq vd va feA] at h
  unfold vfpRun
  rw [run_bind_ok (needVtypeEntry_ok hk), run_bind_ok (needKind_ok (by simp [Fmt.isInt, hf]))]
  exact elementWise_ok h stop

/-- A VFP function on an integer entry (R164). -/
theorem vfpRun_kind {op : VfpOp} {b : Option VSrc} (hk : l.fmt.valid = true) (hf : l.fmt.kind ≠ 0) :
    vfpRun op vd va feA b x l s = .error (.cause .entryKind none) s := by
  unfold vfpRun
  rw [run_bind_ok (needVtypeEntry_ok hk)]
  exact needU_fails (by simp [Fmt.isInt, hf]) _

variable {i : Instr} {u : Issue}

/-- A VARI function, run at once. -/
theorem vari_ok (op : VariOp) {b : VSrc} (hi : exec i s = vector i u (variRun op vd va feA b x) s) (hc : s.CanRun u) (hk : (s.laneFor u).fmt.valid = true)
    (h : s.EwReady (s.laneFor u) vd (s.laneFor u).fmt.wid (vbRegs vd va (some b) (op == .macc))) :
    exec i s = .next (s.ran i u fun c => c.ewDone (s.ewOf (s.laneFor u) vd (s.laneFor u).fmt.wid (s.laneFor u).fmt.wid (variBase op b)
      (vbSources s.me (s.laneFor u) vd va (some b) (op == .macc)) (variElem op (s.laneFor u).fmt (shiftOf (s.laneFor u) b))) vd x) := by
  have body := variRun_ok (feA := feA) (x := x) hk rfl (h.entered i u)
  rw [State.ewOf_entered, vbSources_entered] at body
  rw [hi]
  exact vector_ran hc body

/-- A VFP function, run at once. -/
theorem vfp_ok (op : VfpOp) {b : Option VSrc} (hi : exec i s = vector i u (vfpRun op vd va feA b x) s) (hc : s.CanRun u) (hk : (s.laneFor u).fmt.valid = true)
    (hf : (s.laneFor u).fmt.kind = 0) (h : s.EwReady (s.laneFor u) vd (s.laneFor u).fmt.wid (vbRegs vd va b (vfpThird op))) :
    exec i s = .next (s.ran i u fun c => c.ewDone (s.ewOf (s.laneFor u) vd (s.laneFor u).fmt.wid (s.laneFor u).fmt.wid false
      (vbSources s.me (s.laneFor u) vd va b (vfpThird op)) (vfpElem op (s.laneFor u).fmt (roundingMode s.me.fc.rmo (s.laneFor u).fmt))) vd x) := by
  have body := vfpRun_ok (feA := feA) (x := x) hk hf rfl (h.entered i u)
  rw [State.ewOf_entered, vbSources_entered] at body
  rw [hi]
  exact vector_ran hc body

/-- A VFP function on an integer entry, run at once. -/
theorem vfp_kindTrap {op : VfpOp} {b : Option VSrc} (hi : exec i s = vector i u (vfpRun op vd va feA b x) s) (hc : s.CanRun u) (hk : (s.laneFor u).fmt.valid = true)
    (hf : (s.laneFor u).fmt.kind ≠ 0) : s.KindTrap i u := hi.trans (vector_traps hc rfl (vfpRun_kind hk hf))

end

/-- Settles O29: each function by its run with its own operator (`vari_ok`, `vfp_ok`), the second source a register or the scalar, and the trap of an integer entry (`vfp_kindTrap`). -/
theorem vectorArithmeticRuns : Obligations.VectorArithmeticRuns := by
  refine ⟨?vari, fun s => ⟨?vfp, ?unary⟩⟩
  case vari =>
    rintro ⟨vd, va, b, x, feA, hint⟩ s u l k bs a second shift based runs hc hk
    have go (op : VariOp) {i : Instr} (hi : exec i s = vector i u (variRun op vd va feA b x) s) := vari_ok op hi hc hk
    cases b <;>
      exact ⟨go .add rfl, go .sub rfl, go .mul rfl, go .mulh rfl, go .and rfl, go .or rfl, go .xor rfl, go .sll rfl, go .srl rfl, go .sra rfl,
        go .min rfl, go .max rfl, go .sadd rfl, go .ssub rfl, go .macc rfl⟩
  case vfp =>
    rintro ⟨vd, va, b, x, feA, hint⟩ u l k bs a second runs third hc hk
    refine ⟨fun hf => ?_, fun hf => ?_⟩
    · have go (op : VfpOp) {i : Instr} (hi : exec i s = vector i u (vfpRun op vd va feA (some b) x) s) := vfp_ok op hi hc hk hf
      cases b <;> exact ⟨go .add rfl, go .sub rfl, go .mul rfl, go .div rfl, go .min rfl, go .max rfl, go .fma rfl, go .nms rfl⟩
    · have trap {op : VfpOp} {i : Instr} (hi : exec i s = vector i u (vfpRun op vd va feA (some b) x) s) : s.KindTrap i u := vfp_kindTrap hi hc hk hf
      simp only [List.forall_mem_cons]
      exact ⟨trap rfl, trap rfl, trap rfl, trap rfl, trap rfl, trap rfl, trap rfl, trap rfl, List.forall_mem_nil _⟩
  case unary =>
    rintro ⟨vd, va, x, feA, hint⟩ u l k runs hc hk
    refine ⟨fun hf => ?_, fun hf => ?_⟩
    · have go (op : VfpOp) {i : Instr} (hi : exec i s = vector i u (vfpRun op vd va feA none x) s) := vfp_ok op hi hc hk hf
      exact ⟨go .sqrt rfl, go .abs rfl, go .neg rfl, go .recip rfl, go .rsq rfl, go .exp2 rfl⟩
    · have trap {op : VfpOp} {i : Instr} (hi : exec i s = vector i u (vfpRun op vd va feA none x) s) : s.KindTrap i u := vfp_kindTrap hi hc hk hf
      simp only [List.forall_mem_cons]
      exact ⟨trap rfl, trap rfl, trap rfl, trap rfl, trap rfl, trap rfl, List.forall_mem_nil _⟩

end Sys2Proof.Machine
end

section
/-! PROOF. Movement (O33): an image formed from one source, given by a value for each element (R90, R95, R176, R178). -/

namespace Sys2Proof.Machine

/-! Elements put in place one after another. -/

/-- Elements put in distinct places: each place holds what was put there, every other what it held. -/
theorem foldl_setIfInBounds {ps : List (Nat × Nat)} (hp : (ps.map (·.1)).Nodup) {n : Nat} {rest g : Nat → Nat}
    (hin : ∀ p ∈ ps, g p.1 = p.2) (hout : ∀ e, e ∉ ps.map (·.1) → g e = rest e) :
    (ps.foldl (fun img p => img.setIfInBounds p.1 p.2) ((List.range n).map rest).toArray).toList = (List.range n).map g := by
  induction ps generalizing rest with
  | nil =>
    have : rest = g := funext fun e => (hout e (by simp)).symm
    rw [List.foldl_nil, this]
  | cons p ps ih =>
    obtain ⟨hnot, hps⟩ := List.nodup_cons.mp hp
    have put : ((List.range n).map rest).toArray.setIfInBounds p.1 p.2 = ((List.range n).map (Function.update rest p.1 p.2)).toArray := by
      rw [List.setIfInBounds_toArray]
      refine congrArg _ (List.ext_getElem (by simp) fun e h _ => ?_)
      rw [List.getElem_set]
      by_cases he : p.1 = e
      · simp [he]
      · simp [he, Ne.symm he]
    rw [List.foldl_cons, put]
    refine ih hps (fun q hq => hin q (by simp [hq])) fun e he => ?_
    by_cases h : e = p.1
    · rw [h, Function.update_self, hin p (by simp)]
    · rw [Function.update_of_ne h]
      exact hout e (by simp [h, List.mem_map] at he ⊢; exact he)

/-- Elements of a list put in their own places, each with a value by its index (VEXPD, VBPFX). -/
theorem spread_eq {act : List Nat} (ha : act.Nodup) (v rest : Nat → Nat) (n : Nat) :
    (act.zipIdx.foldl (fun img p => img.setIfInBounds p.1 (v p.2)) ((List.range n).map rest).toArray).toList =
      (List.range n).map fun e => (if act.contains e then some (v (act.idxOf e)) else none).getD (rest e) := by
  have keys : (act.zipIdx.map fun p => (p.1, v p.2)).map (·.1) = act := by simp [Function.comp_def]
  have fold := foldl_setIfInBounds (ps := act.zipIdx.map fun p => (p.1, v p.2)) (by rwa [keys]) (n := n) (rest := rest)
    (g := fun e => (if act.contains e then some (v (act.idxOf e)) else none).getD (rest e)) ?_ ?_
  · rwa [List.foldl_map] at fold
  · simp only [List.forall_mem_map]
    rintro ⟨e, j⟩ h
    have hj : act[j]? = some e := List.mem_zipIdx_iff_getElem?.mp h
    obtain ⟨hlt, rfl⟩ := List.getElem?_eq_some_iff.mp hj
    simp [List.Nodup.idxOf_getElem ha]
  · rw [keys]
    intro e he
    simp [he]

/-- The elements of a list put in the places of their indices (VCOMP). -/
theorem packed_eq (act : List Nat) (v rest : Nat → Nat) (n : Nat) :
    (act.zipIdx.foldl (fun img p => img.setIfInBounds p.2 (v p.1)) ((List.range n).map rest).toArray).toList =
      (List.range n).map fun e => ((act[e]?).map v).getD (rest e) := by
  have keys : (act.zipIdx.map fun p => (p.2, v p.1)).map (·.1) = List.range act.length := by
    simp [Function.comp_def, List.range_eq_range']
  have fold := foldl_setIfInBounds (ps := act.zipIdx.map fun p => (p.2, v p.1)) (by rw [keys]; exact List.nodup_range) (n := n) (rest := rest)
    (g := fun e => ((act[e]?).map v).getD (rest e)) ?_ ?_
  · rwa [List.foldl_map] at fold
  · simp only [List.forall_mem_map]
    rintro ⟨e, j⟩ h
    simp [List.mem_zipIdx_iff_getElem?.mp h]
  · rw [keys]
    intro e he
    rw [List.mem_range, Nat.not_lt] at he
    simp [he]

/-- The counts VBPFX takes are values by index. -/
theorem prefixCounts_eq {sew : Nat} (a : View) {c : Nat} (hc : c < 2 ^ sew) (es : List Nat) (img : Array Nat) :
    prefixCounts sew a c es img =
      es.zipIdx.foldl (fun img p => img.setIfInBounds p.1 ((c + ((es.take p.2).map fun e => countBits (a.at e)).sum) % 2 ^ sew)) img := by
  induction es generalizing c img with
  | nil => rfl
  | cons e es ih =>
    have next : (c + countBits (a.at e)) % 2 ^ sew < 2 ^ sew := Nat.mod_lt _ (Nat.two_pow_pos _)
    unfold prefixCounts
    rw [ih next, List.zipIdx_cons', List.foldl_cons, List.foldl_map]
    simp [Nat.mod_eq_of_lt hc, Nat.add_assoc]

/-! The images of the movement instructions. -/

/-- The classes of R90 with their conditions as propositions. -/
theorem classImage_eq (l : Lane) (mask n : Nat) (old : View) (f : Nat → Nat) :
    classImage l mask n old f = (List.range n).map fun e => if l.written mask e then f e else if l.vl ≤ e ∧ l.td = true then 0 else old.at e := by
  simp [classImage]

/-- An element that is not Written: 0 in a tail that ERULE.TD leaves dead, else the old one (R90). -/
def restOf (l : Lane) (old : View) (e : Nat) : Nat := if l.vl ≤ e ∧ l.td = true then 0 else old.at e

theorem tailImage_eq (l : Lane) (n : Nat) (old : View) : tailImage l n old = ((List.range n).map (restOf l old)).toArray := by
  simp [tailImage, restOf]

theorem activeElems_nodup (l : Lane) (mask : Nat) : (activeElems l mask).Nodup := List.nodup_range.filter _

/-- The image of a movement instruction by its lane, the mask, the element count, the source and the old destination. -/
abbrev ImageFn := Lane → Nat → Nat → View → View → List Nat

/-- VSLUP: moved up by the scalar. -/
def upImage : ImageFn := fun l mask n a old => classImage l mask n old fun e => if l.scalar.toNat ≤ e then a.at (e - l.scalar.toNat) else old.at e

/-- VSLDN: moved down by the scalar, zeros past VL. -/
def downImage : ImageFn := fun l mask n a old => classImage l mask n old fun e => if e + l.scalar.toNat < l.vl then a.at (e + l.scalar.toNat) else 0

/-- VCOMP: the active elements packed. -/
def packImage : ImageFn := fun l mask n a old =>
  (((activeElems l mask).zipIdx).foldl (fun img p => img.setIfInBounds p.2 (a.at p.1)) (tailImage l n old)).toList

/-- VEXPD: elements spread over the active places. -/
def spreadImage : ImageFn := fun l mask n a old =>
  (((activeElems l mask).zipIdx).foldl (fun img p => img.setIfInBounds p.1 (a.at p.2)) (tailImage l n old)).toList

/-- VBPFX: the bits before each active element. -/
def prefixImage : ImageFn := fun l mask n a old => (prefixCounts l.sew a 0 (activeElems l mask) (tailImage l n old)).toList

/-- VIOTA: the numbers of the elements. -/
def numberImage : ImageFn := fun l mask n _ old => classImage l mask n old fun e => e % 2 ^ l.fmt.wid

/-- VCOMP's image by what each place holds. -/
theorem packImage_eq (l : Lane) (mask n : Nat) (a old : View) :
    packImage l mask n a old = (List.range n).map fun e => (((activeElems l mask)[e]?).map a.at).getD (restOf l old e) := by
  unfold packImage
  rw [tailImage_eq, packed_eq]

/-- VEXPD's. -/
theorem spreadImage_eq (l : Lane) (mask n : Nat) (a old : View) : spreadImage l mask n a old =
    (List.range n).map fun e => (if (activeElems l mask).contains e then some (a.at ((activeElems l mask).idxOf e)) else none).getD (restOf l old e) := by
  unfold spreadImage
  rw [tailImage_eq, spread_eq (activeElems_nodup l mask)]

/-- VBPFX's. -/
theorem prefixImage_eq (l : Lane) (mask n : Nat) (a old : View) : prefixImage l mask n a old =
    (List.range n).map fun e => (if (activeElems l mask).contains e then
      some ((((activeElems l mask).take ((activeElems l mask).idxOf e)).map fun j => countBits (a.at j)).sum % 2 ^ l.sew) else none).getD (restOf l old e) := by
  unfold prefixImage
  rw [prefixCounts_eq a (Nat.two_pow_pos _), tailImage_eq]
  simp only [Nat.zero_add]
  exact spread_eq (activeElems_nodup l mask) (fun j => (((activeElems l mask).take j).map fun e => countBits (a.at e)).sum % 2 ^ l.sew) _ _

section
variable {s : State}

/-- The source of a movement instruction; VIOTA has none. -/
def permSource (c : Ctx) (l : Lane) (src : Option (Fin 32 × Bool)) : View :=
  match src with
  | some r => sourceView c r.1 l.fmt.wid
  | none => View.plain []

/-- The image a movement instruction forms. -/
def permImage (c : Ctx) (l : Lane) (vd : Fin 32) (src : Option (Fin 32 × Bool)) (image : ImageFn) : List Nat :=
  image l c.m[l.mreg].toNat (l.nAt l.fmt.wid) (permSource c l src) (oldView c vd l.fmt.wid)

theorem permImage_entered (s : State) (i : Instr) (u : Issue) (l : Lane) (vd : Fin 32) (src : Option (Fin 32 × Bool)) (image : ImageFn) :
    permImage (s.entered i u).me l vd src image = permImage s.me l vd src image := by
  have source := sourceView_congr (State.entered_vc s i u) (State.entered_v s i u)
  have old := oldView_congr (State.entered_vc s i u) (State.entered_v s i u)
  unfold permImage permSource
  simp only [State.entered_m, source, old]

variable {keeps : Bool} {vd : Fin 32} {src : Option (Fin 32 × Bool)} {image : ImageFn} {l : Lane}

theorem permKeep_ok (hk : l.fmt.valid = true) (hr : ∀ r ∈ src.toList, s.me.Readable r.1)
    (hd : s.me.Writable vd (l.whole s.me.m[l.mreg].toNat (l.nAt l.fmt.wid) && !keeps)) :
    permKeep keeps vd src image l s = .ok () (s.modMe fun c => c.vDone vd (encodeElems l l.fmt.wid (permImage s.me l vd src image)) (l.tail l.fmt.wid)) := by
  have am : activeMask l s = .ok s.me.m[l.mreg].toNat s := rfl
  unfold permKeep
  rw [run_bind_ok (needVtypeEntry_ok hk), run_bind_ok am, run_bind_ok (forM'_decode hr), run_bind_ok (decodeDest_ok hd), run_bind_ok (run_getMe s)]
  rfl

/-- A movement instruction, run at once. -/
theorem perm_ok (image : ImageFn) {i : Instr} {u : Issue} {body : Lane → M Unit} (hi : exec i s = vector i u body s) (hb : body (s.laneFor u) (s.entered i u) = permKeep keeps vd src image l (s.entered i u))
    (hc : s.CanRun u) (hk : l.fmt.valid = true) (hr : ∀ r ∈ src.toList, s.me.Readable r.1)
    (hd : s.me.Writable vd (l.whole s.me.m[l.mreg].toNat (l.nAt l.fmt.wid) && !keeps)) :
    exec i s = .next (s.ran i u fun c => c.vDone vd (encodeElems l l.fmt.wid (permImage s.me l vd src image)) (l.tail l.fmt.wid)) := by
  have run := permKeep_ok (s := s.entered i u) (image := image) hk (fun r h => readable_entered i u (hr r h)) (by rw [State.entered_m]; exact writable_entered i u hd)
  rw [permImage_entered, ← hb] at run
  rw [hi]
  exact vector_ran hc run

/-- What VIOTA leaves as deltas: the base 0 and every difference 1 (R178). -/
theorem laneViota_delta {f : VD} (hk : l.fmt.valid = true) (hw : l.whole s.me.m[l.mreg].toNat (l.nAt l.fmt.wid) = true) (hint : l.fmt.kind ≠ 0) (h8 : 8 ≤ l.fmt.wid)
    (hm : l.mode ≠ 1) (hd : s.me.Writable f.vd true) :
    laneViota f l s = .ok () (s.modMe fun c => c.vDone f.vd (mkDelta l.fmt.wid 0 (List.replicate (l.nAt l.fmt.wid - 1) 1) 0)) := by
  have am : activeMask l s = .ok s.me.m[l.mreg].toNat s := rfl
  unfold laneViota
  rw [run_bind_ok (needVtypeEntry_ok hk), run_bind_ok am]
  simp only
  rw [if_pos (by rw [hw]; simp [Fmt.isInt, hint, h8, hm]), run_bind_ok (decodeDest_ok hd)]
  rfl

/-- Where VIOTA's result is no delta it is the plain image of the element numbers. -/
theorem laneViota_image {f : VD} (hk : l.fmt.valid = true)
    (h : ¬(l.whole s.me.m[l.mreg].toNat (l.nAt l.fmt.wid) = true ∧ l.fmt.kind ≠ 0 ∧ 8 ≤ l.fmt.wid ∧ l.mode ≠ 1)) :
    laneViota f l s = permRun f.vd none numberImage l s := by
  have am : activeMask l s = .ok s.me.m[l.mreg].toNat s := rfl
  unfold laneViota
  rw [run_bind_ok (needVtypeEntry_ok hk), run_bind_ok am]
  simp only
  rw [if_neg (by simpa [Fmt.isInt, and_assoc] using h)]
  rfl

end

end Sys2Proof.Machine
end

section
/-! PROOF. Reductions and VMVS (O33, R100, R101, R176, R177). -/

namespace Sys2Proof.Machine

/-! A scalar destination written as the instruction completes. -/

theorem Ctx.isFull_sset_self (c : Ctx) {r : Fin 32} (v : Word) (h : r ≠ 0) : (c.sset r v).isFull r = true := by
  have := r.isLt
  have bit : (BitVec.ofNat 32 (2 ^ r.val)).getLsbD r.val = true := by
    rw [BitVec.getLsbD_ofNat]
    simp
  simp only [Ctx.isFull, Ctx.sset, if_neg h, BitVec.getLsbD_or, bit, Bool.or_true]

theorem Ctx.sset_vc (c : Ctx) (r : Fin 32) (w : Word) : (c.sset r w).vc = c.vc := by unfold Ctx.sset; split <;> rfl
theorem Ctx.sset_m (c : Ctx) (r : Fin 32) (w : Word) : (c.sset r w).m = c.m := by unfold Ctx.sset; split <;> rfl

theorem Ctx.popped_isFull (c : Ctx) (r : Fin 32) : c.popped.isFull r = c.isFull r := by
  unfold Ctx.popped Ctx.retired
  split <;> rfl

theorem State.entered_sget (s : State) (i : Instr) (u : Issue) (r : Fin 32) : (s.entered i u).me.sget r = s.me.sget r := by
  simp only [State.entered, State.me_modMe]
  cases u.writes with
  | none => rfl
  | some q => simp only [Ctx.sclear]; split <;> rfl

section
variable {s : State} {f : VS}

/-- A context after a reduction that raised flags and may have saturated, its result still to be written (R75, R166). -/
def Ctx.reduced (c : Ctx) (flags : Nat) (sat : Bool) : Ctx :=
  { c with
    fc := { c.fc with flags := c.fc.flags ||| BitVec.ofNat 5 flags, satcnt := addSat c.fc.satcnt sat.toNat }
    vc := { c.vc with vstart := 0 } }

/-- The result of a reduction, its flags and whether it saturated, by the lane, the entry, the mask and the source. -/
abbrev ReduceFn := Lane → Fmt → Nat → View → Word × Nat × Bool

theorem reduceRun_ok {float : Bool} (g : ReduceFn) {l : Lane} (hl : s.late = false) (hk : l.fmt.valid = true) (hf : float = true → l.fmt.kind = 0) (hr : s.me.Readable f.va)
    {w : Word} {flags : Nat} {sat : Bool} (hg : g l l.fmt s.me.m[l.mreg].toNat (sourceView s.me f.va l.fmt.wid) = (w, flags, sat)) :
    reduceRun f float (g l) l s = .ok () (s.modMe fun c => (c.reduced flags sat).sset f.vd w) := by
  have am : activeMask l s = .ok s.me.m[l.mreg].toNat s := rfl
  have kind : (!float || !l.fmt.isInt) = true := by
    cases float with
    | false => rfl
    | true => simp [Fmt.isInt, hf rfl]
  unfold reduceRun
  rw [run_bind_ok (needVtypeEntry_ok hk), run_bind_ok (needKind_ok kind), run_bind_ok am, run_bind_ok (decodeSource_ok hr), run_bind_ok (run_getMe s)]
  simp only [hg]
  rw [run_bind_ok (run_modMe _ s), landS_ok (s := s.modMe _) f.vd w hl, State.modMe_modMe]
  rfl

/-- A reduction, run at once. -/
theorem reduce_ok (g : ReduceFn) {i : Instr} {u : Issue} {float : Bool} (hi : exec i s = vector i u (fun l => reduceRun f float (g l) l) s) (hc : s.CanRun u)
    {l : Lane} (hl : l = s.laneFor u) (hk : l.fmt.valid = true) (hf : float = true → l.fmt.kind = 0) (hr : s.me.Readable f.va)
    {w : Word} {flags : Nat} {sat : Bool} (hg : g l l.fmt s.me.m[l.mreg].toNat (sourceView s.me f.va l.fmt.wid) = (w, flags, sat)) :
    exec i s = .next (s.ran i u fun c => (c.reduced flags sat).sset f.vd w) := by
  subst hl
  have late : (s.entered i u).late = false := by rw [State.entered_late]; exact hc.1
  rw [hi]
  refine vector_ran hc (reduceRun_ok g late hk hf (readable_entered _ _ hr) ?_)
  rw [State.entered_m, sourceView_congr (State.entered_vc s i u) (State.entered_v s i u)]
  exact hg

/-- VREDS: init and the sum, modulo 2^w (R100). -/
def sumOf : ReduceFn := fun l k mask v =>
  (extCode k (intMod k.wid ((weighted l.indivisible mask v).foldl (fun t p => t + k.val p.1 * (p.2 : Int)) (k.val (l.scalar.toNat % 2 ^ k.wid)))), 0, false)

/-- VREDMX and VREDMN: the extreme of init and the values some Written element has (R177). -/
def extremeOf (larger : Bool) : ReduceFn := fun l k mask v =>
  let r := extreme k larger (l.scalar.toNat % 2 ^ k.wid :: ((weighted l.indivisible mask v).filter fun p => p.2 != 0).map (·.1))
  (extCode k r.1, r.2, false)

/-- VFREDS: the sum in FP32, rounded to the entry (R101). -/
def floatSumOf : ReduceFn := fun l k mask v =>
  let t := sumF32 k l.indivisible mask v (ofF32 (l.scalar.toNat % 2 ^ 32))
  let c := fromWide t.1 k .rne 0
  (BitVec.ofNat 64 c.code, t.2 ||| c.flags, c.sat)

/-- VMVS: one element, 0 beyond the register (R176). -/
def elementOf : ReduceFn := fun l k _ v => (if l.scalar.toNat < l.nAt k.wid then extCode k (v.at l.scalar.toNat) else 0, 0, false)

/-- What a reduction leaves of the running context: its destination, the flags and the count, VSTART 0, and everything else. -/
def State.Reduced (s : State) (t : State) (vd : Fin 32) (w : Word) (flags sats : Nat) : Prop :=
  s.OnlyMe t ∧ t.me.vc = { s.me.vc with vstart := 0 } ∧ t.me.v = s.me.v ∧ t.me.m = s.me.m ∧ t.me.pc = s.me.pc + 4 ∧
    t.me.fc = { s.me.fc with flags := s.me.fc.flags ||| BitVec.ofNat 5 flags, satcnt := addSat s.me.fc.satcnt sats } ∧
    (vd ≠ 0 → t.me.sget vd = w ∧ t.me.isFull vd = true) ∧ (∀ r, r ≠ vd → t.me.sget r = s.me.sget r)

theorem reduced_done (s : State) (i : Instr) (u : Issue) (vd : Fin 32) (w : Word) (flags : Nat) (sat : Bool) :
    s.Reduced (s.done i u fun c => (c.reduced flags sat).sset vd w) vd w flags sat.toNat := by
  obtain ⟨hv, hm, hvc, hfc, hpc, -, -, hs⟩ := (((s.entered i u).me.reduced flags sat).sset vd w).popped_keeps
  obtain ⟨kv, kfc, kpc⟩ := ((s.entered i u).me.reduced flags sat).sset_keeps vd w
  refine ⟨OnlyMe.done _ _ _ _, ?_, ?_, ?_, ?_, ?_, fun hd => ⟨?_, ?_⟩, fun r hr => ?_⟩ <;> rw [State.me_done]
  · rw [hvc, Ctx.sset_vc, ← State.entered_vc s i u]
    rfl
  · rw [hv, kv, ← State.entered_v s i u]
    rfl
  · rw [hm, Ctx.sset_m, ← State.entered_m s i u]
    rfl
  · rw [hpc, kpc, ← State.entered_pc s i u]
    rfl
  · rw [hfc, kfc, ← State.entered_fc s i u]
    rfl
  · rw [hs, Ctx.sget_sset_self _ _ hd]
  · rw [Ctx.popped_isFull, Ctx.isFull_sset_self _ _ hd]
  · rw [hs, Ctx.sget_sset_ne _ _ hr, ← State.entered_sget s i u]
    rfl

/-- A source read element by element counts each active element once. -/
theorem weighted_elems {l : Lane} {mask : Nat} {v : View} (h : v.kind = .plain ∨ v.kind = .delta) : weighted l mask v = (activeElems l mask).map fun e => (v.at e, 1) := by
  unfold weighted
  rcases h with h | h <;> rw [h]

/-- The exact sum of values each counted once (R100). -/
theorem foldl_counted (k : Fmt) (v : View) (init : Int) (act : List Nat) :
    (act.map fun e => (v.at e, 1)).foldl (fun t p => t + k.val p.1 * ((p.2 : Nat) : Int)) init = init + (act.map fun e => k.val (v.at e)).sum := by
  induction act generalizing init with
  | nil => simp
  | cons e act ih =>
    simp only [List.map_cons, List.foldl_cons, ih, List.sum_cons]
    omega

theorem sumOf_elems {l : Lane} {k : Fmt} {mask : Nat} {v : View} (h : v.kind = .plain ∨ v.kind = .delta) : sumOf l k mask v =
    (extCode k (intMod k.wid (k.val (l.scalar.toNat % 2 ^ k.wid) + ((activeElems l.indivisible mask).map fun e => k.val (v.at e)).sum)), 0, false) := by
  unfold sumOf
  rw [weighted_elems h, foldl_counted]

end

end Sys2Proof.Machine
end

section
/-! PROOF. Movement and reduction instructions (O33). -/

namespace Sys2Proof.Machine

/-- Settles O33: the movement instructions by the images they form (`perm_ok`), those that put elements in place by what each place holds (`packed_eq`, `spread_eq`), and the reductions by what their result leaves (`reduce_ok`, `reduced_done`). -/
theorem movementAndReductionResults : Obligations.MovementAndReductionResults := by
  refine ⟨?movement, ?reductions⟩
  case movement =>
    intro s vd va u l k n mask a old rest act img moved gives hc hk
    refine ⟨fun hr => ?slides, fun hr hd => ?places, fun hd hint hu => ?iota⟩
    case slides =>
      rintro sb feA hint rfl t
      have source : ∀ r ∈ (some (va, feA)).toList, s.me.Readable r.1 := by simpa using hr
      refine ⟨fun hd => ?_, fun hd => ?_⟩
      · have keeps : (!(l.scalar != 0)) = decide (t = 0) := by
          have : l.scalar = s.me.sget sb := rfl
          rw [this, bne, Bool.not_not, Bool.eq_iff_iff, beq_iff_eq, decide_eq_true_eq, ← BitVec.toNat_inj]
          rfl
        rw [← keeps] at hd
        have run := perm_ok upImage (i := .vslup { vd, va, sb, feA, hint }) rfl rfl hc hk source hd
        simp only [permImage, upImage, classImage_eq] at run
        exact run
      · have run := perm_ok downImage (i := .vsldn { vd, va, sb, feA, hint }) (keeps := false) rfl rfl hc hk source (by rw [Bool.not_false, Bool.and_true]; exact hd)
        simp only [permImage, downImage, classImage_eq] at run
        exact run
    case places =>
      rintro feA hint rfl
      have source : ∀ r ∈ (some (va, feA)).toList, s.me.Readable r.1 := by simpa using hr
      have whole : s.me.Writable vd (l.indivisible.whole mask n && !false) := by rwa [Bool.not_false, Bool.and_true]
      refine ⟨?_, ?_, ?_⟩
      · have run := perm_ok packImage (i := .vcomp { vd, va, feA, hint }) (l := l.indivisible) rfl rfl hc hk source whole
        rw [permImage, packImage_eq] at run
        exact run
      · have run := perm_ok spreadImage (i := .vexpd { vd, va, feA, hint }) (l := l.indivisible) rfl rfl hc hk source whole
        rw [permImage, spreadImage_eq] at run
        exact run
      · have run := perm_ok prefixImage (i := .vbpfx { vd, va, feA, hint }) (l := l.indivisible) rfl rfl hc hk source whole
        rw [permImage, prefixImage_eq] at run
        exact run
    case iota =>
      subst hu
      have source : ∀ r ∈ (none : Option (Fin 32 × Bool)).toList, s.me.Readable r.1 := by simp
      refine ⟨fun h => ?_, fun h => ?_⟩
      · obtain ⟨hw, hint, h8, hm⟩ := h
        rw [hw] at hd
        refine vector_ran hc (laneViota_delta hk ?_ hint h8 hm (writable_entered _ _ hd))
        rw [State.entered_m]
        exact hw
      · have run := perm_ok numberImage (i := .viota { vd, hint }) (keeps := false) rfl (laneViota_image hk (by rw [State.entered_m]; exact h)) hc hk source
          (by rw [Bool.not_false, Bool.and_true]; exact hd)
        simp only [permImage, numberImage, classImage_eq] at run
        exact run
  case reductions =>
    intro f s u l k mask v l0 init gives hc hk hr
    have go {i : Instr} {float : Bool} (g : ReduceFn) (hi : exec i s = vector i u (fun l => reduceRun f float (g l) l) s) (hf : float = true → l.fmt.kind = 0)
        {w : Word} {flags : Nat} {sat : Bool} (hg : g l k mask v = (w, flags, sat)) : gives i w flags sat.toNat :=
      ⟨_, (reduce_ok g hi hc rfl hk hf hr hg).trans (congrArg _ (State.ran_eq _ _ _ _)), reduced_done s i u f.vd w flags sat⟩
    exact ⟨fun hv => go sumOf (float := false) rfl (by simp) (sumOf_elems hv), ⟨go (extremeOf true) (float := false) rfl (by simp) rfl,
      go (extremeOf false) (float := false) rfl (by simp) rfl⟩, fun hf => go floatSumOf (float := true) rfl (fun _ => hf) rfl, go elementOf (float := false) rfl (by simp) rfl⟩

end Sys2Proof.Machine
end

section
/-! PROOF. VENC: encodings made and changed (O34, R179 to R181). -/

namespace Sys2Proof.Machine

/-- A new tag depends on the vector registers alone (R88). -/
theorem newTag_entered (s : State) (i : Instr) (u : Issue) : newTag (s.entered i u).me = newTag s.me := by
  unfold newTag
  rw [State.entered_v]

/-- VRENC's choice as a chain of alternatives, the first that fits (R179). -/
theorem reencode_eq (c : Ctx) (l : Lane) (k : Fmt) (img : List Nat) :
    reencode c l k img =
      (((encodeRuns k.wid l.slabs (runCap k.wid l.slabs / 2) img).or (encodeDict k.wid (newTag c) img)).or
        ((if k.kind ≠ 0 then encodeDelta k.wid l.eruleDw img else none).or (encodeRuns k.wid l.slabs (runCap k.wid l.slabs) img))).getD (mkPlain k.wid img) := by
  have delta : (if k.isInt then encodeDelta k.wid l.eruleDw img else none) = if k.kind ≠ 0 then encodeDelta k.wid l.eruleDw img else none := by simp [Fmt.isInt]
  unfold reencode
  simp only [delta]
  cases encodeRuns k.wid l.slabs (runCap k.wid l.slabs / 2) img with
  | some r => rfl
  | none =>
    cases encodeDict k.wid (newTag c) img with
    | some r => rfl
    | none => cases (if k.kind ≠ 0 then encodeDelta k.wid l.eruleDw img else none) <;> rfl

section
variable {s : State} {f : VU} {g : VV} {l : Lane} {i : Instr} {u : Issue}

/-- The image of an encoding function: a copy of va under the classes of R90. -/
def copyImage (c : Ctx) (f : VU) (l : Lane) : List Nat :=
  classImage l c.m[l.mreg].toNat (l.nAt l.fmt.wid) (oldView c f.vd l.fmt.wid) (sourceView c f.va l.fmt.wid).at

theorem copyImage_entered (s : State) (i : Instr) (u : Issue) (f : VU) (l : Lane) : copyImage (s.entered i u).me f l = copyImage s.me f l := by
  unfold copyImage
  rw [State.entered_m, oldView_congr (State.entered_vc s i u) (State.entered_v s i u), sourceView_congr (State.entered_vc s i u) (State.entered_v s i u)]

/-- An encoding function where its operands pass; `m` is its lane, which VSTART does not cut. -/
theorem encRun_ok {int : Bool} {enc : Ctx → Lane → Fmt → List Nat → VReg} {m : Lane} (hm : l.indivisible = m) (hk : m.fmt.valid = true) (hint : int = true → m.fmt.kind ≠ 0)
    (hr : s.me.Readable f.va) (hd : s.me.Writable f.vd (m.whole s.me.m[m.mreg].toNat (m.nAt m.fmt.wid))) :
    encRun f int enc l s = .ok () (s.modMe fun c => c.vDone f.vd (enc s.me m m.fmt (copyImage s.me f m)) (m.tail m.fmt.wid)) := by
  have am : activeMask m s = .ok s.me.m[m.mreg].toNat s := rfl
  have kind : (!int || m.fmt.isInt) = true := by
    cases int with
    | false => rfl
    | true => exact bne_iff_ne.mpr (hint rfl)
  unfold encRun
  simp only [hm]
  rw [run_bind_ok (needVtypeEntry_ok hk), run_bind_ok (needKind_ok kind), run_bind_ok am, run_bind_ok (decodeSource_ok hr), run_bind_ok (decodeDest_ok hd),
    run_bind_ok (run_getMe s), run_modMe]
  exact congrArg _ (State.modMe_congr rfl)

/-- An encoding function, run at once, the new register by the image. -/
theorem enc_ok {int : Bool} {enc : Ctx → Lane → Fmt → List Nat → VReg} (hi : exec i s = vector i u (encRun f int enc) s) (hc : s.CanRun u) {m : Lane}
    (hm : (s.laneFor u).indivisible = m) (hk : m.fmt.valid = true) (hint : int = true → m.fmt.kind ≠ 0) (hr : s.me.Readable f.va)
    (hd : s.me.Writable f.vd (m.whole s.me.m[m.mreg].toNat (m.nAt m.fmt.wid))) {x : VReg} (hx : enc (s.entered i u).me m m.fmt (copyImage s.me f m) = x) :
    exec i s = .next (s.ran i u fun c => c.vDone f.vd x (m.tail m.fmt.wid)) := by
  have run := encRun_ok (s := s.entered i u) (enc := enc) hm hk hint (readable_entered i u hr) (by rw [State.entered_m]; exact writable_entered i u hd)
  rw [copyImage_entered, hx] at run
  rw [hi]
  exact vector_ran hc run

/-! VDICT (R181). -/

theorem writable_whole {c : Ctx} {r : Fin 32} (h : c.v[r].full = true) : c.Writable r true := ⟨h, by simp⟩

theorem laneVdictExtract_run (hk : l.fmt.valid = true) (hr : s.me.Readable f.va) (hd : s.me.v[f.vd].full = true) :
    laneVdictExtract f l s =
      if (sourceView s.me f.va l.fmt.wid).kind = .dictionary then .ok () (s.modMe fun c => c.vDone f.vd (mkPlain l.fmt.wid (sourceView s.me f.va l.fmt.wid).vals))
      else .error (.cause .encKind none) s := by
  unfold laneVdictExtract
  rw [run_bind_ok (needVtypeEntry_ok hk), run_bind_ok (decodeSource_ok hr), run_bind_ok (decodeDest_ok (writable_whole hd)), run_bind_ok (run_getMe s)]
  simp only
  by_cases hv : (sourceView s.me f.va l.fmt.wid).kind = .dictionary
  · rw [if_pos hv, run_bind_ok (needU_true (by simp [hv]) _ s)]
    rfl
  · rw [if_neg hv]
    exact needU_fails (by simp [hv]) s

theorem laneVdictReplace_run (hk : l.fmt.valid = true) (ha : s.me.Readable g.va) (hb : s.me.Readable g.vb) (hd : s.me.v[g.vd].full = true) :
    laneVdictReplace g l s =
      if (sourceView s.me g.va l.fmt.wid).kind = .dictionary then
        .ok () (s.modMe fun c => c.vDone g.vd (mkDict l.fmt.wid ((List.range (sourceView s.me g.va l.fmt.wid).vals.length).map (sourceView s.me g.vb l.fmt.wid).at)
          (sourceView s.me g.va l.fmt.wid).codes (sourceView s.me g.va l.fmt.wid).tag))
      else .error (.cause .encKind none) s := by
  unfold laneVdictReplace
  rw [run_bind_ok (needVtypeEntry_ok hk), run_bind_ok (decodeSource_ok ha), run_bind_ok (decodeSource_ok hb), run_bind_ok (decodeDest_ok (writable_whole hd)), run_bind_ok (run_getMe s)]
  simp only
  by_cases hv : (sourceView s.me g.va l.fmt.wid).kind = .dictionary
  · rw [if_pos hv, run_bind_ok (needU_true (by simp [hv]) _ s)]
    rfl
  · rw [if_neg hv]
    exact needU_fails (by simp [hv]) s

/-! VENCQ (R180). -/

/-- The codes of the elements of va under vb's dictionary with their flags, code 0 past VL. -/
def quantized (c : Ctx) (g : VV) (l : Lane) : List (Nat × Nat) :=
  (List.range (l.nAt l.fmt.wid)).map fun e =>
    if e < l.vl then quantCode l.fmt (((sourceView c g.vb l.fmt.wid).vals.map (toWide l.fmt)).zipIdx) ((sourceView c g.va l.fmt.wid).at e) else (0, 0)

theorem laneVencq_run (hk : l.fmt.valid = true) (ha : s.me.Readable g.va) (hb : s.me.Readable g.vb) (hd : s.me.v[g.vd].full = true) :
    laneVencq g l s =
      if (sourceView s.me g.vb l.fmt.wid).kind = .dictionary then
        .ok () (s.modMe fun c => addFlags (c.vDone g.vd (mkDict l.fmt.wid (sourceView s.me g.vb l.fmt.wid).vals ((quantized s.me g l).map (·.1)) (sourceView s.me g.vb l.fmt.wid).tag))
          ((quantized s.me g l).foldl (fun fl r => fl ||| r.2) 0))
      else .error (.cause .encKind none) s := by
  unfold laneVencq
  simp only
  rw [run_bind_ok (needVtypeEntry_ok (l := l.indivisible) hk), run_bind_ok (decodeSource_ok ha), run_bind_ok (decodeSource_ok hb), run_bind_ok (decodeDest_ok (writable_whole hd)),
    run_bind_ok (run_getMe s)]
  by_cases hv : (sourceView s.me g.vb l.fmt.wid).kind = .dictionary
  · rw [if_pos hv]
    refine (run_bind_ok (needU_true ?_ _ s)).trans rfl
    exact beq_iff_eq.mpr hv
  · rw [if_neg hv]
    exact needU_fails (beq_eq_false_iff_ne.mpr hv) s

/-! The instructions that need a dictionary, run at once. -/

/-- An instruction whose last check decides whether it changes the running context or raises a cause. -/
theorem vector_decides {body : Lane → M Unit} {p : Prop} [Decidable p] {h : Ctx → Ctx} {c : Cause} (hc : s.CanRun u) (hv : (c == .moduleLost || c == .memUe) = false)
    (hb : body (s.laneFor u) (s.entered i u) = if p then .ok () ((s.entered i u).modMe h) else .error (.cause c none) (s.entered i u)) :
    vector i u body s = if p then .next (s.ran i u h) else .next (laneTrap (s.entered i u) c (Config.tval s.tick) 0) := by
  by_cases hp : p
  · rw [if_pos hp] at hb ⊢
    exact vector_ran hc hb
  · rw [if_neg hp] at hb ⊢
    exact vector_traps hc hv hb

theorem full_entered {r : Fin 32} (i : Instr) (u : Issue) (h : s.me.v[r].full = true) : (s.entered i u).me.v[r].full = true := by rwa [State.entered_v]

theorem vdictExtract_run (hu : u = { regs := [f.vd.val, f.va.val], reads := none, writes := none }) (hc : s.CanRun u) (hl : l = s.laneFor u) (hk : l.fmt.valid = true)
    (hr : s.me.Readable f.va) (hd : s.me.v[f.vd].full = true) :
    exec (.vdictExtract f) s = if (sourceView s.me f.va l.fmt.wid).kind = .dictionary then
        .next (s.ran (.vdictExtract f) u fun c => c.vDone f.vd (mkPlain l.fmt.wid (sourceView s.me f.va l.fmt.wid).vals))
      else .next (laneTrap (s.entered (.vdictExtract f) u) .encKind (Config.tval s.tick) 0) := by
  subst hl hu
  have run := laneVdictExtract_run (f := f) hk (readable_entered (.vdictExtract f) (vuIssue f) hr) (full_entered _ _ hd)
  rw [sourceView_congr (State.entered_vc s _ _) (State.entered_v s _ _)] at run
  exact vector_decides hc rfl run

theorem vdictReplace_run (hu : u = { regs := [g.vd.val, g.va.val, g.vb.val], reads := none, writes := none }) (hc : s.CanRun u) (hl : l = s.laneFor u) (hk : l.fmt.valid = true)
    (ha : s.me.Readable g.va) (hb : s.me.Readable g.vb) (hd : s.me.v[g.vd].full = true) :
    exec (.vdictReplace g) s = if (sourceView s.me g.va l.fmt.wid).kind = .dictionary then
        .next (s.ran (.vdictReplace g) u fun c => c.vDone g.vd
          (mkDict l.fmt.wid ((List.range (sourceView s.me g.va l.fmt.wid).vals.length).map (sourceView s.me g.vb l.fmt.wid).at)
            (sourceView s.me g.va l.fmt.wid).codes (sourceView s.me g.va l.fmt.wid).tag))
      else .next (laneTrap (s.entered (.vdictReplace g) u) .encKind (Config.tval s.tick) 0) := by
  subst hl
  have run := laneVdictReplace_run (g := g) hk (readable_entered (.vdictReplace g) u ha) (readable_entered _ _ hb) (full_entered _ _ hd)
  rw [sourceView_congr (State.entered_vc s _ _) (State.entered_v s _ _), sourceView_congr (State.entered_vc s _ _) (State.entered_v s _ _)] at run
  subst hu
  exact vector_decides hc rfl run

theorem vencq_run (hu : u = { regs := [g.vd.val, g.va.val, g.vb.val], reads := none, writes := none }) (hc : s.CanRun u) (hl : l = s.laneFor u) (hk : l.fmt.valid = true)
    (ha : s.me.Readable g.va) (hb : s.me.Readable g.vb) (hd : s.me.v[g.vd].full = true) :
    exec (.vencq g) s = if (sourceView s.me g.vb l.fmt.wid).kind = .dictionary then
        .next (s.ran (.vencq g) u fun c => addFlags
          (c.vDone g.vd (mkDict l.fmt.wid (sourceView s.me g.vb l.fmt.wid).vals ((quantized s.me g l).map (·.1)) (sourceView s.me g.vb l.fmt.wid).tag))
          ((quantized s.me g l).foldl (fun fl r => fl ||| r.2) 0))
      else .next (laneTrap (s.entered (.vencq g) u) .encKind (Config.tval s.tick) 0) := by
  subst hl
  have codes : quantized (s.entered (.vencq g) u).me g (s.laneFor u) = quantized s.me g (s.laneFor u) := by
    unfold quantized
    simp only [sourceView_congr (State.entered_vc s (.vencq g) u) (State.entered_v s (.vencq g) u)]
  have run := laneVencq_run (g := g) hk (readable_entered (.vencq g) u ha) (readable_entered _ _ hb) (full_entered _ _ hd)
  rw [codes, sourceView_congr (State.entered_vc s _ _) (State.entered_v s _ _)] at run
  subst hu
  exact vector_decides hc rfl run

end

end Sys2Proof.Machine
end

section
/-! PROOF. VRENC, VENCQ and VDICT (O34). -/

namespace Sys2Proof.Machine

/-- Settles O34: the encoding functions by the image they copy (`enc_ok`), and VDICT and VENCQ by the kind of the source that must be a dictionary. -/
theorem encodingResults : Obligations.EncodingResults := by
  refine fun s => ⟨fun f => ?encode, fun f => ?dictionary⟩
  case encode =>
    intro u l k n mask a old img cap gives hc hk hr
    have image : copyImage s.me f l = img := classImage_eq _ _ _ _ _
    have tag (i : Instr) : newTag (s.entered i u).me = newTag s.me := newTag_entered s i u
    refine ⟨fun hd => ?_, fun hd => ⟨fun hv => (vdictExtract_run rfl hc rfl hk hr hd).trans (if_pos hv), fun hv => (vdictExtract_run rfl hc rfl hk hr hd).trans (if_neg hv)⟩⟩
    have run {i : Instr} {int : Bool} {enc : Ctx → Lane → Fmt → List Nat → VReg} (hi : exec i s = vector i u (encRun f int enc) s) (hint : int = true → k.kind ≠ 0)
        {x : VReg} (hx : enc (s.entered i u).me l k img = x) : gives i x := enc_ok hi hc rfl hk hint hr hd ((congrArg _ image).trans hx)
    exact ⟨run rfl (by simp) rfl, run rfl (by simp) (by rw [tag]), fun hint => run rfl (fun _ => hint) rfl, run rfl (by simp) rfl,
      run rfl (by simp) (by rw [reencode_eq, tag])⟩
  case dictionary =>
    intro u l k a b hc hk ha hb hd
    have replace := vdictReplace_run (s := s) (g := f) rfl hc rfl hk ha hb hd
    have quantize := vencq_run (s := s) (g := f) rfl hc rfl hk ha hb hd
    exact ⟨fun hv => replace.trans (if_pos hv), fun hv => replace.trans (if_neg hv), fun hv => quantize.trans (if_neg hv), fun hv => quantize.trans (if_pos hv)⟩

end Sys2Proof.Machine
end

section
/-! PROOF. Tiles and planes: what a tile written reads as (R212). -/

namespace Sys2Proof.Machine

/-- A list of bytes from an address on reads as it is written, zeros included. -/
theorem memGet_listedBytes (off : Nat) (bs : List Byte) (k : Nat) {i : Nat} (hi : i < bs.length) : memGet (listedBytes off bs k) (off + k + i) = bs.getD i 0 := by
  induction bs generalizing k i with
  | nil => exact absurd hi (Nat.not_lt_zero i)
  | cons b bs ih =>
    have low : ∀ c ∈ listedBytes off bs (k + 1), off + k + 1 ≤ c.1 := fun c hc => (listedBytes_range c hc).1
    rw [listedBytes_cons]
    cases i with
    | zero =>
      split
      next hb => rw [memGet_out _ _ fun c hc => by have := low c hc; omega, hb]; rfl
      next hb => simp [memGet]
    | succ i =>
      have rest := ih (k + 1) (Nat.lt_of_succ_lt_succ hi)
      have place : off + (k + 1) + i = off + k + (i + 1) := by omega
      rw [place] at rest
      split
      · exact rest
      · rw [memGet, if_neg (by omega)]
        exact rest

theorem numBytes_getD (n v : Nat) {i : Nat} (hi : i < n) : (numBytes n v).getD i 0 = BitVec.ofNat 8 (v / 256 ^ i) := by
  induction n generalizing v i with
  | zero => exact absurd hi (Nat.not_lt_zero i)
  | succ n ih =>
    cases i with
    | zero => simp [numBytes]
    | succ i =>
      rw [numBytes, List.getD_cons_succ, ih _ (Nat.lt_of_succ_lt_succ hi), Nat.div_div_eq_div_mul, Nat.pow_succ']

/-- The bytes of words in a row. -/
theorem memGet_wordBytes {off x i : Nat} {ws : List Nat} (hx : x < ws.length) (hi : i < 4) :
    memGet (wordBytes off ws) (off + 4 * x + i) = BitVec.ofNat 8 (ws.getD x 0 / 256 ^ i) := by
  induction ws generalizing off x with
  | nil => exact absurd hx (Nat.not_lt_zero x)
  | cons w ws ih =>
    have later : ∀ c ∈ wordBytes (off + 4) ws, off + 4 ≤ c.1 := fun c hc => (wordBytes_range c hc).1
    have first : ∀ c ∈ listedBytes off (numBytes 4 w) 0, c.1 < off + 4 := fun c hc => (cellsOf_range (v := w) c hc).2
    have parts : wordBytes off (w :: ws) = listedBytes off (numBytes 4 w) 0 ++ wordBytes (off + 4) ws := rfl
    rw [parts]
    cases x with
    | zero =>
      rw [memGet_append_left _ _ _ fun c hc => by have := later c hc; omega]
      exact (memGet_listedBytes off (numBytes 4 w) 0 hi).trans (numBytes_getD 4 w hi)
    | succ x =>
      have place : off + 4 * (x + 1) + i = off + 4 + 4 * x + i := by omega
      rw [memGet_append_out _ _ _ fun c hc => by have := first c hc; omega, place]
      exact ih (Nat.lt_of_succ_lt_succ hx)

/-- Four bytes make up a word (R1). -/
theorem memRead_word {m : Memory} {a w : Nat} (h : ∀ i, i < 4 → memGet m (a + i) = BitVec.ofNat 8 (w / 256 ^ i)) : memRead m a 4 = w % 2 ^ 32 := by
  have h0 := congrArg BitVec.toNat (h 0 (by omega))
  have h1 := congrArg BitVec.toNat (h 1 (by omega))
  have h2 := congrArg BitVec.toNat (h 2 (by omega))
  have h3 := congrArg BitVec.toNat (h 3 (by omega))
  simp only [BitVec.toNat_ofNat, Nat.add_zero] at h0 h1 h2 h3
  simp only [memRead, h0, h1, h2, h3]
  omega

variable {c : Core} {off : Nat} {ws : List Nat}

theorem tilePut_word (hws : ws.length = 4096) {x : Nat} (hx : x < 4096) : memRead (c.tilePut off ws).pool (off + 4 * x) 4 = ws.getD x 0 % 2 ^ 32 := by
  refine memRead_word fun i hi => ?_
  have inside : off ≤ off + 4 * x + i ∧ off + 4 * x + i < off + 16384 := by omega
  unfold Core.tilePut
  rw [memGet_replace _ _ _ _ _ (fun c hc => by have := wordBytes_range c hc; omega), if_pos inside, memGet_wordBytes (by omega) hi]

theorem tilePut_outside (hws : ws.length = 4096) {a : Nat} (ha : a < off ∨ off + 16384 ≤ a) : memGet (c.tilePut off ws).pool a = memGet c.pool a := by
  unfold Core.tilePut
  rw [memGet_replace _ _ _ _ _ (fun c hc => by have := wordBytes_range c hc; omega), if_neg (by omega)]

end Sys2Proof.Machine
end

section
/-! PROOF. How an operation of the array completes (R221), and the tiles and planes it works on (R38, R212). -/

namespace Sys2Proof.Machine

section
variable {s t : State}

/-- An operation whose checks pass, with nothing of the array in flight: its effect, numbered and complete. -/
theorem arrayRun_ok {α : Type} {check : M α} {effect : α → M Unit} {a : α} (hc : check s = .ok a s) (he : effect a s = .ok () t) (late : s.late = false)
    (ops : (t.core s.cur.core.val).arr.ops = []) : arrayRun check effect s = .ok () (t.modCore s.cur.core.val Core.arrayDone) := by
  have body : (check >>= effect) s = .ok () t := by rw [run_bind_ok hc, he]
  have tried : attempt (check >>= effect) s = .ok (.ok ()) t := by rw [run_attempt, body]
  unfold arrayRun
  rw [run_bind_ok (run_get s), run_bind_ok tried]
  simp only
  unfold arrayTake
  rw [run_modify]
  exact congrArg (fun k => EStateM.Result.ok () (t.setCore s.cur.core.val k)) (if_neg (by simp [late, ops]))

theorem tileBase_ok {acc : Fin 16} {off : Nat} (h : s.TileAt acc off) : tileBase s.cur acc s = .ok off s := by
  obtain ⟨hin, rfl⟩ := h
  unfold State.myCore at hin
  unfold tileBase
  rw [run_bind_ok (run_get s), run_bind_ok (needN_true (decide_eq_true hin) _ _ s)]
  rfl

theorem kindRead_ok {acc : Fin 16} {plane : Bool} {off : Nat} (h : s.TileClean acc plane off) : kindRead s.cur acc plane off s = .ok (s.tileOf acc plane off) s := by
  unfold kindRead State.tileOf
  rw [run_bind_ok (run_get s)]
  by_cases hk : tileKind s s.cur acc plane = .none
  · rw [if_pos (beq_iff_eq.mpr hk), if_pos hk]
    rfl
  · have clean := h hk
    rw [if_neg (fun e => hk (beq_iff_eq.mp e)), if_neg hk]
    unfold tileRead
    rw [run_bind_ok (run_get s)]
    unfold State.myCore at clean
    rw [clean]
    rfl

theorem tileWrite_ok (c off : Nat) (ws : List Nat) (s : State) : tileWrite c off ws s = .ok () (s.modCore c fun k => k.tilePut off ws) := rfl

/-- A context with the kind of a tile or its plane set. -/
def Ctx.setKind (x : Ctx) (acc : Fin 16) (plane : Bool) (k : TileKind) : Ctx := if plane then { x with pk := x.pk.set acc k } else { x with tk := x.tk.set acc k }

theorem setKind_ok (acc : Fin 16) (plane : Bool) (k : TileKind) (s : State) : setKind s.cur acc plane k s = .ok () (s.modMe fun x => x.setKind acc plane k) := rfl

/-! What entering the queue leaves alone. -/

theorem State.entered_kinds (s : State) (i : Instr) (u : Issue) : (s.entered i u).me.tk = s.me.tk ∧ (s.entered i u).me.pk = s.me.pk ∧ (s.entered i u).me.rels = s.me.rels := by
  simp only [State.entered, State.me_modMe]
  cases u.writes with
  | none => exact ⟨rfl, rfl, rfl⟩
  | some r => simp only [Ctx.sclear]; split <;> exact ⟨rfl, rfl, rfl⟩

theorem tileKind_entered (s : State) (i : Instr) (u : Issue) (acc : Fin 16) (plane : Bool) : tileKind (s.entered i u) (s.entered i u).cur acc plane = tileKind s s.cur acc plane := by
  obtain ⟨tk, pk, -⟩ := s.entered_kinds i u
  unfold State.me at tk pk
  unfold tileKind
  rw [tk, pk]

theorem tileOf_entered (s : State) (i : Instr) (u : Issue) (acc : Fin 16) (plane : Bool) (off : Nat) : (s.entered i u).tileOf acc plane off = s.tileOf acc plane off := by
  unfold State.tileOf
  rw [tileKind_entered]
  rfl

theorem tileClean_entered {acc : Fin 16} {plane : Bool} {off : Nat} (i : Instr) (u : Issue) (h : s.TileClean acc plane off) : (s.entered i u).TileClean acc plane off := by
  unfold State.TileClean
  rw [tileKind_entered]
  exact h

theorem tileAt_entered {acc : Fin 16} {off : Nat} (i : Instr) (u : Issue) (h : s.TileAt acc off) : (s.entered i u).TileAt acc off := h

end

section
variable {s : State} {i : Instr} {u : Issue}

/-- The state an operation of the array leaves: its core changed, its number taken, its context changed. -/
def State.arrayRan (s : State) (i : Instr) (u : Issue) (put : Core → Core) (h : Ctx → Ctx) : State :=
  laneRetire (((s.entered i u).modMyCore fun c => (put c).arrayDone).modMe h)

/-- An operation of the array, run at once with nothing of the array in flight. -/
theorem array_ok {body : Lane → M Unit} {α : Type} {check : M α} {effect : α → M Unit} {a : α} {put : Core → Core} {h : Ctx → Ctx}
    (hi : exec i s = vector i u body s) (hc : s.CanRun u) (ops : s.myCore.arr.ops = []) (hput : ∀ k, (put k).arr = k.arr)
    (hb : body (s.laneFor u) (s.entered i u) = arrayRun check effect (s.entered i u)) (hk : check (s.entered i u) = .ok a (s.entered i u))
    (he : effect a (s.entered i u) = .ok () (((s.entered i u).modMyCore put).modMe h)) : exec i s = .next (s.arrayRan i u put h) := by
  have late : (s.entered i u).late = false := by rw [State.entered_late]; exact hc.1
  have core : (((s.entered i u).modMyCore put).modMe h).myCore = put s.myCore := by
    rw [State.myCore_modMe, State.myCore_modMyCore]
    rfl
  have done : (((s.entered i u).modMyCore put).modMe h).myCore.arr.ops = [] := by rw [core, hput, ops]
  have run := arrayRun_ok hk he late done
  rw [hi]
  refine (vector_runs hc (hb.trans run) late).trans ?_
  refine congrArg (fun t => Host.Outcome.next (laneRetire t)) ?_
  exact (State.modMe_modMyCore ((s.entered i u).modMyCore put) h Core.arrayDone).symm.trans (congrArg (fun t => t.modMe h) (State.modMyCore_modMyCore _ _ _))

end

end Sys2Proof.Machine
end

section
/-! PROOF. MZERO and the products (O41, R102, R212 to R216). -/

namespace Sys2Proof.Machine

section
variable {s : State} {off : Nat}

/-- Tile and plane written and their kinds set. -/
theorem putBoth_ok (acc : Fin 16) (ws zs : List Nat) (k q : TileKind) (s : State) :
    (do tileWrite s.cur.core.val off ws; tileWrite s.cur.core.val (off + 16384) zs; setKind s.cur acc false k; setKind s.cur acc true q : M Unit) s =
      .ok () ((s.modMyCore fun c => (c.tilePut off ws).tilePut (off + 16384) zs).modMe fun x => (x.setKind acc false k).setKind acc true q) := by
  rw [run_bind_ok (tileWrite_ok _ _ _ _), run_bind_ok (tileWrite_ok _ _ _ _)]
  have core : (s.modCore s.cur.core.val fun c => c.tilePut off ws).modCore s.cur.core.val (fun c => c.tilePut (off + 16384) zs) =
      s.modMyCore fun c => (c.tilePut off ws).tilePut (off + 16384) zs := State.modMyCore_modMyCore s _ _
  rw [core]
  refine (run_bind_ok (setKind_ok acc false k (s.modMyCore fun c => (c.tilePut off ws).tilePut (off + 16384) zs))).trans ?_
  refine (setKind_ok acc true q (State.modMe _ _)).trans ?_
  rw [State.modMe_modMe]

/-- MZERO's effect: tile and plane zero, both of no kind. -/
theorem zeroEffect_ok (acc : Fin 16) : zeroEffect s.cur acc off s =
    .ok () ((s.modMyCore fun c => (c.tilePut off zeroTile).tilePut (off + 16384) zeroTile).modMe fun x => (x.setKind acc false .none).setKind acc true .none) :=
  putBoth_ok acc zeroTile zeroTile .none .none s

/-! The slots of a product (R213, R220). -/

/-- A slot that the checks of an operation pass at a place of the queue. -/
def State.SlotReady (s : State) (p : Place) (n : Fin 32) : Prop :=
  s.myCore.slots[n].ownedBy s.cur.lc = true ∧ slotView s s.cur n p = .full ∧ awaitsRelease s s.cur n = false ∧ ∀ q ∈ openScales s s.cur n, q.before' p = false

variable {p : Place} {a b : Fin 32}

theorem awaitRels_ok (ha : s.SlotReady p a) (hb : s.SlotReady p b) : awaitRels [a, b] s = .ok () s := by
  obtain ⟨-, -, ha, -⟩ := ha
  obtain ⟨-, -, hb, -⟩ := hb
  unfold awaitRels
  rw [run_bind_ok (run_get s)]
  exact waitUnless_true (by simp [ha, hb]) s

/-- A check on both operands. -/
theorem forM'_pair {f : Fin 32 → M Unit} (ha : f a s = .ok () s) (hb : f b s = .ok () s) : forM' [a, b] f s = .ok () s :=
  forM'_still fun n hn => by
    rcases List.mem_pair.mp hn with rfl | rfl
    · exact ha
    · exact hb

theorem needSlots_ok (ha : s.SlotReady p a) (hb : s.SlotReady p b) : needSlots s.cur p a b s = .ok () s := by
  obtain ⟨ha1, ha2, -, ha4⟩ := ha
  obtain ⟨hb1, hb2, -, hb4⟩ := hb
  unfold needSlots
  rw [run_bind_ok (run_get s), run_bind_ok (forM'_pair (needN_true ha1 _ _ s) (needN_true hb1 _ _ s)),
    run_bind_ok (forM'_pair (needN_true (by rw [ha2]; rfl) _ _ s) (needN_true (by rw [hb2]; rfl) _ _ s))]
  refine waitUnless_true ?_ s
  simp only [List.all_cons, List.all_nil, ha2, hb2, Bool.and_true, Bool.and_eq_true, Bool.not_eq_true', List.any_eq_false]
  exact ⟨⟨rfl, fun q hq => by simp [ha4 q hq]⟩, rfl, fun q hq => by simp [hb4 q hq]⟩

theorem needSound_ok {ns : List (Fin 32)} {data side : Bool} (h : ∀ n ∈ ns, slotBad s.myCore n data side = false) : needSound s.cur ns data side s = .ok () s := by
  have sound : (ns.any fun n => slotBad (s.core s.cur.core.val) n data side) = false := List.any_eq_false.mpr fun n hn => ne_true_of_eq_false (h n hn)
  unfold needSound
  rw [run_bind_ok (run_get s), sound]
  rfl

theorem slotReady_entered {n : Fin 32} (i : Instr) (u : Issue) (h : s.SlotFull n) : (s.entered i u).SlotReady (.entry (s.me.vIn + 1)) n := by
  obtain ⟨h1, h2, h3, h4⟩ := h
  refine ⟨h1, h2, ?_, h4⟩
  obtain ⟨-, -, rels⟩ := s.entered_kinds i u
  unfold awaitsRelease at h3 ⊢
  unfold State.me at rels
  rw [rels]
  exact h3

theorem headPlace_entered {i : Instr} {u : Issue} (hc : s.CanRun u) : headPlace (s.entered i u) = .ok (.entry (s.me.vIn + 1)) (s.entered i u) := by
  unfold headPlace
  rw [run_bind_ok (run_getMe _), hc.queue i]
  rfl

/-! The checks of a product, in order. -/

/-- A check made in one case alone, before what follows. -/
theorem guard_run {α : Type} {c : Prop} [Decidable c] {x : M Unit} {k : Unit → M α} {r : EStateM.Result Exc State α} (hx : c → x s = .ok () s) (hk : k () s = r) :
    (if c then x >>= k else k ()) s = r := by
  by_cases hc : c
  · rw [if_pos hc, run_bind_ok (hx hc), hk]
  · rw [if_neg hc, hk]

/-- Three checks made in one case alone, before what follows. -/
theorem guard_run3 {α : Type} {c : Prop} [Decidable c] {x y z : M Unit} {k : Unit → M α} {r : EStateM.Result Exc State α} (hx : c → x s = .ok () s)
    (hy : c → y s = .ok () s) (hz : c → z s = .ok () s) (hk : k () s = r) : (if c then x >>= fun _ => y >>= fun _ => z >>= k else k ()) s = r := by
  by_cases hc : c
  · rw [if_pos hc, run_bind_ok (hx hc), run_bind_ok (hy hc), run_bind_ok (hz hc), hk]
  · rw [if_neg hc, hk]

/-- An entry of a width that an operand may have, integers without block scales (R213). -/
theorem operandEntry_ok {x : Fmt} (hw : x.wid = 4 ∨ x.wid = 6 ∨ x.wid = 8 ∨ x.wid = 16) (hs : x.bsk = 1 → x.isInt = false) :
    ([4, 6, 8, 16].contains x.wid && !(x.isInt && x.bsk == 1)) = true := by
  have scaled : (x.isInt && x.bsk == 1) = false := by
    by_cases h : x.bsk = 1
    · rw [hs h, Bool.false_and]
    · rw [beq_eq_false_iff_ne.mpr h, Bool.and_false]
  rw [scaled]
  rcases hw with h | h | h | h <;> rw [h] <;> rfl

/-- The block scales of an operand: there, E8M0, of the data's tag, and enough of them (R213). -/
theorem operandScales_ok {k : Core} {n : Fin 32} {x : Fmt} {kl len : Nat} (hkl : len = kl)
    (h : x.bsk = 1 → x.isInt = false ∧ k.slots[n].svalid = true ∧ k.slots[n].sw32 = false ∧ k.slots[n].stag = k.slots[n].dtag ∧
      64 * ((kl + 2 ^ x.blog - 1) / 2 ^ x.blog) ≤ sideBytes k n) :
    (if x.bsk = 1 then do
      needN (k.slots[n].svalid && !k.slots[n].sw32) .slotState n.val
      needN (k.slots[n].stag == k.slots[n].dtag) .scaleSkew n.val
      needN (64 * ((len + 2 ^ x.blog - 1) / 2 ^ x.blog) ≤ sideBytes k n) .mxFmt n.val
    else pure () : M Unit) s = .ok () s := by
  subst hkl
  by_cases hx : x.bsk = 1
  · obtain ⟨-, hv, hw, ht, hb⟩ := h hx
    rw [if_pos hx, run_bind_ok (needN_true (by rw [hv, hw]; rfl) _ _ s), run_bind_ok (needN_true (beq_iff_eq.mpr ht) _ _ s)]
    exact needN_true (decide_eq_true hb) _ _ s
  · rw [if_neg hx]
    rfl

/-- The plan of a product whose checks pass (R213, R215, R216). -/
theorem productPlan_ok {i : Instr} {u : Issue} {l : Lane} {fn : MxFn} {f : MmaForm} (h : s.ProductOk l fn f off) :
    productPlan fn s.cur (.entry (s.me.vIn + 1)) l.cap.ents f.acc f.slotA f.slotB f.p (s.entered i u) = .ok (s.planOf l fn f off) (s.entered i u) := by
  obtain ⟨hat, -, ⟨fullA, validA, widA, scaleA, soundA, nextA⟩, ⟨fullB, validB, widB, scaleB, soundB, nextB⟩, ints, kinds, slide, sparse⟩ := h
  have readyA := slotReady_entered i u fullA
  have readyB := slotReady_entered i u fullB
  have len : (if fn = .mmas then 2 * (if fn = .mslide then lineLen (s.planOf l fn f off).fa.wid else min (lineLen (s.planOf l fn f off).fa.wid) (lineLen (s.planOf l fn f off).fb.wid))
      else if fn = .mslide then lineLen (s.planOf l fn f off).fa.wid else min (lineLen (s.planOf l fn f off).fa.wid) (lineLen (s.planOf l fn f off).fb.wid)) = (s.planOf l fn f off).kl := by
    cases fn <;> rfl
  have kind : (tileKind (s.entered i u) s.cur f.acc f.p == .none || tileKind (s.entered i u) s.cur f.acc f.p == if (s.planOf l fn f off).fa.isInt then .int32 else .fp32) = true := by
    have same : tileKind (s.entered i u) s.cur f.acc f.p = tileKind s s.cur f.acc f.p := tileKind_entered s i u f.acc f.p
    simpa [same] using kinds
  unfold productPlan
  refine (run_bind_ok (tileBase_ok (tileAt_entered i u hat))).trans ?_
  refine (run_bind_ok (needSlots_ok readyA readyB)).trans ?_
  refine (run_bind_ok (run_get _)).trans ?_
  refine (run_bind_ok (forM'_pair (needN_true validA _ _ _) (needN_true validB _ _ _))).trans ?_
  refine (run_bind_ok (forM'_pair (needN_true (operandEntry_ok widA fun h => (scaleA h).1) _ _ _) (needN_true (operandEntry_ok widB fun h => (scaleB h).1) _ _ _))).trans ?_
  refine (run_bind_ok (needN_true (beq_iff_eq.mpr ints) _ _ _)).trans ?_
  refine guard_run (fun hs => needN_true ((by simpa using slide hs : ((s.planOf l fn f off).fa.wid == 8 || (s.planOf l fn f off).fa.wid == 16) = true)) _ _ _) ?_
  refine guard_run3 (fun hs => waitUnless_true ?_ _) (fun hs => forM'_pair (needN_true ?_ _ _ _) (needN_true ?_ _ _ _)) (fun hs => needN_true (beq_iff_eq.mpr (sparse hs).1) _ _ _) ?_
  · have full : ∀ n, slotView (s.entered i u) s.cur (slotNext n) (.entry (s.me.vIn + 1)) = slotView s s.cur (slotNext n) (.entry (s.me.vIn + 1)) := fun _ => rfl
    obtain ⟨-, ⟨-, viewA, -⟩, -, viewB, -⟩ := sparse hs
    simp [full, viewA, viewB]
  · obtain ⟨-, ⟨dblA, viewA, -⟩, -⟩ := sparse hs
    exact Bool.and_eq_true_iff.mpr ⟨dblA, beq_iff_eq.mpr viewA⟩
  · obtain ⟨-, -, dblB, viewB, -⟩ := sparse hs
    exact Bool.and_eq_true_iff.mpr ⟨dblB, beq_iff_eq.mpr viewB⟩
  refine (run_bind_ok (needU_true kind _ _)).trans ?_
  refine (run_bind_ok (forM'_pair (operandScales_ok len scaleA) (operandScales_ok len scaleB))).trans ?_
  refine guard_run (fun hs => forM'_pair (needN_true ?_ _ _ _) (needN_true ?_ _ _ _)) ?_
  · obtain ⟨-, ⟨-, -, indexA⟩, -⟩ := sparse hs
    exact (congrArg _ len).trans indexA
  · obtain ⟨-, -, -, -, indexB⟩ := sparse hs
    exact (congrArg _ len).trans indexB
  refine (run_bind_ok (needSound_ok (s := s.entered i u) (List.forall_mem_singleton.mpr soundA))).trans ?_
  refine (run_bind_ok (needSound_ok (s := s.entered i u) (List.forall_mem_singleton.mpr soundB))).trans ?_
  refine (run_bind_ok (forM'_still fun p hp => needSound_ok (s := s.entered i u) (List.forall_mem_singleton.mpr ?_))).trans ?_
  · obtain ⟨hp, double⟩ := List.mem_filter.mp hp
    rcases List.mem_pair.mp hp with rfl | rfl
    · exact (congrArg (fun kl => slotBad _ _ _ (_ && readsNext _ _ kl _)) len).trans (nextA double)
    · exact (congrArg (fun kl => slotBad _ _ _ (_ && readsNext _ _ kl _)) len).trans (nextB double)
  cases fn <;> rfl

/-- The words of a product in its tile or plane, whose kind they set (R214). -/
theorem productEffect_ok {fn : MxFn} {f : MmaForm} {m : MxPlan} (h : s.TileClean f.acc f.p m.off) : productEffect fn s.cur f.acc f.slotA f.slotB f.p m s =
    .ok () ((s.modMyCore fun c => c.tilePut (if f.p then m.off + 16384 else m.off) (s.productWords fn f m)).modMe fun x =>
      x.setKind f.acc f.p (if m.int then .int32 else .fp32)) := by
  unfold productEffect
  rw [run_bind_ok (kindRead_ok h), run_bind_ok (run_get s), run_bind_ok (tileWrite_ok _ _ _ _)]
  rfl

theorem productWords_entered (s : State) (i : Instr) (u : Issue) (fn : MxFn) (f : MmaForm) (m : MxPlan) :
    (s.entered i u).productWords fn f m = s.productWords fn f m := by
  unfold State.productWords
  rw [tileOf_entered]
  rfl

/-- A product, run at once. -/
theorem product_ok {fn : MxFn} {f : MmaForm} {i : Instr} {u : Issue} (hi : exec i s = vector i u (productRun fn f) s) (hc : s.CanRun u) (ops : s.myCore.arr.ops = [])
    (h : s.ProductOk (s.laneFor u) fn f off) :
    exec i s = .next (s.arrayRan i u
      (fun c => c.tilePut (if f.p then off + 16384 else off) (s.productWords fn f (s.planOf (s.laneFor u) fn f off)))
      fun x => x.setKind f.acc f.p (if (s.planOf (s.laneFor u) fn f off).int then .int32 else .fp32)) := by
  have plan := productPlan_ok (i := i) (u := u) h
  obtain ⟨-, clean, ⟨fullA, -⟩, ⟨fullB, -⟩, -⟩ := h
  have rels := awaitRels_ok (slotReady_entered i u fullA) (slotReady_entered i u fullB)
  have effect := productEffect_ok (fn := fn) (m := s.planOf (s.laneFor u) fn f off) (tileClean_entered i u clean)
  rw [productWords_entered] at effect
  have checks : (awaitRels [f.slotA, f.slotB] >>= fun _ =>
      productPlan fn s.cur (.entry (s.me.vIn + 1)) (s.laneFor u).cap.ents f.acc f.slotA f.slotB f.p) (s.entered i u) = .ok _ (s.entered i u) := (run_bind_ok rels).trans plan
  refine array_ok hi hc ops (fun _ => rfl) ?_ checks effect
  unfold productRun
  rw [run_bind_ok (run_get _), run_bind_ok (headPlace_entered hc)]
  rfl

/-- MZERO, run at once. -/
theorem mzero_ok {f : MZeroForm} {u : Issue} (hu : u = { regs := [], reads := none, writes := none }) (hc : s.CanRun u) (ops : s.myCore.arr.ops = []) (h : s.TileAt f.acc off) :
    exec (.mzero f) s = .next (s.arrayRan (.mzero f) u (fun c => (c.tilePut off zeroTile).tilePut (off + 16384) zeroTile)
      fun x => (x.setKind f.acc false .none).setKind f.acc true .none) := by
  subst hu
  refine array_ok rfl hc ops (fun _ => rfl) ?_ (tileBase_ok (tileAt_entered (.mzero f) _ h)) (zeroEffect_ok _)
  unfold laneMzero
  rw [run_bind_ok (run_get _)]

/-! Promotion (R103, R217). -/

theorem unpack_getD {w n : Nat} (x : Nat) {i : Nat} (hi : i < n) (g : Nat → Num) (d : Num) : ((unpack w n x).map g).toArray.getD i d = g (nbits x (w * i) w) := by
  induction n generalizing x i with
  | zero => exact absurd hi (Nat.not_lt_zero i)
  | succ n ih =>
    cases i with
    | zero => simp [unpack, nbits]
    | succ i =>
      have rest := ih (x / 2 ^ w) (Nat.lt_of_succ_lt_succ hi)
      have shift : nbits (x / 2 ^ w) (w * i) w = nbits x (w * (i + 1)) w := by
        unfold nbits
        rw [Nat.div_div_eq_div_mul, ← Nat.pow_add, Nat.mul_succ, Nat.add_comm]
      rw [shift] at rest
      simpa [unpack] using rest

/-- A scale of an operand's side area (R217). -/
def Core.scaleAt (k : Core) (n : Fin 32) (i : Nat) : Num := ofF32 (nbits k.slots[n].side.toNat (32 * i) 32)

/-- A slot that holds FP32 scales of its data, none of them poisoned (R217). -/
def Core.ScalesOk (k : Core) (n : Fin 32) : Prop :=
  k.slots[n].svalid = true ∧ k.slots[n].sw32 = true ∧ k.slots[n].stag = k.slots[n].dtag ∧ slotBad k n false true = false

theorem promoteCheck_ok {acc : Fin 16} (hat : s.TileAt acc off) (ha : s.SlotReady p a) (hb : s.SlotReady p b) (ka : s.myCore.ScalesOk a) (kb : s.myCore.ScalesOk b)
    (kind : tileKind s s.cur acc false ≠ .int32) : promoteCheck s.cur p acc a b s = .ok off s := by
  obtain ⟨va, wa, ta, sa⟩ := ka
  obtain ⟨vb, wb, tb, sb⟩ := kb
  unfold promoteCheck
  refine (run_bind_ok (tileBase_ok hat)).trans ?_
  refine (run_bind_ok (needSlots_ok ha hb)).trans ?_
  refine (run_bind_ok (run_get s)).trans ?_
  refine (run_bind_ok (forM'_pair (needN_true (Bool.and_eq_true_iff.mpr ⟨va, wa⟩) _ _ s) (needN_true (Bool.and_eq_true_iff.mpr ⟨vb, wb⟩) _ _ s))).trans ?_
  refine (run_bind_ok (forM'_pair (needN_true (beq_iff_eq.mpr ta) _ _ s) (needN_true (beq_iff_eq.mpr tb) _ _ s))).trans ?_
  refine (run_bind_ok (needU_true (bne_iff_ne.mpr kind) _ s)).trans ?_
  refine (run_bind_ok (needSound_ok fun n hn => ?_)).trans rfl
  rcases List.mem_pair.mp hn with rfl | rfl
  · exact sa
  · exact sb

/-- The tile after a promotion: the scaled plane added (R103). -/
def State.promoted (s : State) (f : MPromForm) (off : Nat) : List Nat :=
  (List.range 4096).map fun x => promoteElem (ofF32 ((s.tileOf f.acc false off).getD x 0)) (planeNum (tileKind s s.cur f.acc true) ((s.tileOf f.acc true off).getD x 0))
    (s.myCore.scaleAt f.slotA (x / 64)) (s.myCore.scaleAt f.slotB (x % 64))

theorem promoteEffect_ok {f : MPromForm} (ht : s.TileClean f.acc false off) (hp : s.TileClean f.acc true off) : promoteEffect s.cur f.acc f.slotA f.slotB off s =
    .ok () ((s.modMyCore fun c => (c.tilePut off (s.promoted f off)).tilePut (off + 16384) zeroTile).modMe fun x => (x.setKind f.acc false .fp32).setKind f.acc true .none) := by
  have words : ((List.range 4096).map fun x => promoteElem (ofF32 ((s.tileOf f.acc false off).getD x 0)) (planeNum (tileKind s s.cur f.acc true) ((s.tileOf f.acc true off).getD x 0))
      (((unpack 32 64 (s.myCore.slots[f.slotA]).side.toNat).map ofF32).toArray.getD (x / 64) plusZero)
      (((unpack 32 64 (s.myCore.slots[f.slotB]).side.toNat).map ofF32).toArray.getD (x % 64) plusZero)) = s.promoted f off := by
    refine List.map_congr_left fun x hx => ?_
    have := List.mem_range.mp hx
    rw [unpack_getD _ (by omega), unpack_getD _ (by omega)]
    rfl
  unfold promoteEffect
  refine (run_bind_ok (kindRead_ok ht)).trans ?_
  refine (run_bind_ok (kindRead_ok hp)).trans ?_
  refine (run_bind_ok (run_get s)).trans ?_
  rw [← words]
  exact putBoth_ok f.acc _ zeroTile .fp32 .none s

theorem promoted_entered (s : State) (i : Instr) (u : Issue) (f : MPromForm) (off : Nat) : (s.entered i u).promoted f off = s.promoted f off := by
  unfold State.promoted
  rw [tileOf_entered, tileOf_entered, tileKind_entered]
  rfl

/-- MPROM, run at once. -/
theorem mprom_ok {f : MPromForm} {u : Issue} (hu : u = { regs := [], reads := none, writes := none }) (hc : s.CanRun u) (ops : s.myCore.arr.ops = []) (hat : s.TileAt f.acc off)
    (ht : s.TileClean f.acc false off) (hp : s.TileClean f.acc true off) (fullA : s.SlotFull f.slotA) (fullB : s.SlotFull f.slotB)
    (ka : s.myCore.ScalesOk f.slotA) (kb : s.myCore.ScalesOk f.slotB) (kind : tileKind s s.cur f.acc false ≠ .int32) :
    exec (.mprom f) s = .next (s.arrayRan (.mprom f) u (fun c => (c.tilePut off (s.promoted f off)).tilePut (off + 16384) zeroTile)
      fun x => (x.setKind f.acc false .fp32).setKind f.acc true .none) := by
  subst hu
  have readyA := slotReady_entered (.mprom f) noRegs fullA
  have readyB := slotReady_entered (.mprom f) noRegs fullB
  have checks : (awaitRels [f.slotA, f.slotB] >>= fun _ => promoteCheck s.cur (.entry (s.me.vIn + 1)) f.acc f.slotA f.slotB) (s.entered (.mprom f) noRegs) =
      .ok off (s.entered (.mprom f) noRegs) :=
    (run_bind_ok (awaitRels_ok readyA readyB)).trans (promoteCheck_ok (tileAt_entered _ _ hat) readyA readyB ka kb (by rw [tileKind_entered]; exact kind))
  have effect := promoteEffect_ok (tileClean_entered (.mprom f) noRegs ht) (tileClean_entered (.mprom f) noRegs hp)
  rw [promoted_entered] at effect
  refine array_ok rfl hc ops (fun _ => rfl) ?_ checks effect
  unfold laneMprom
  rw [run_bind_ok (run_get _), run_bind_ok (headPlace_entered hc)]
  rfl

end

end Sys2Proof.Machine
end

section
/-! PROOF. MACCWR and MACCRD (O41, R218, R219). -/

namespace Sys2Proof.Machine

section
variable {s : State} {off : Nat} {l : Lane}

/-- Rows of a tile that a block of the VTYPE entry's width holds (R218). -/
def Lane.blockRows (l : Lane) : Nat := min 64 (l.nAt l.fmt.wid / 64)

theorem needBlock_ok {blk : Fin 32} (hk : l.fmt.valid = true) (hin : blk.val * l.blockRows < 64) (hs : l.fmt.bsk = 0) : needBlock l blk s = .ok (l.fmt, l.blockRows) s := by
  unfold needBlock
  refine (run_bind_ok (needVtypeEntry_ok hk)).trans ?_
  refine (run_bind_ok (needU_true (decide_eq_true hin) _ s)).trans ?_
  exact (run_bind_ok (needKind_ok (beq_iff_eq.mpr hs))).trans rfl

/-! MACCWR. -/

/-- An element of the source as a word of the tile. -/
def State.tileWord (s : State) (f : MAccWrForm) (l : Lane) (e : Nat) : Coded :=
  if l.fmt.isInt then pureCode (intMod 32 (l.fmt.intValue ((sourceView s.me f.vs l.fmt.wid).at e))) 0
  else fromWide (toWide l.fmt ((sourceView s.me f.vs l.fmt.wid).at e)) fp32 .rne 0

/-- The tile with the block's rows from the source. -/
def State.blockPut (s : State) (f : MAccWrForm) (l : Lane) (off : Nat) : List Nat :=
  (List.range 4096).map fun x =>
    if l.blockRows * f.blk.val * 64 ≤ x ∧ x < min 64 (l.blockRows * f.blk.val + l.blockRows) * 64 then (s.tileWord f l (x - l.blockRows * f.blk.val * 64)).code
    else (s.tileOf f.acc false off).getD x 0

/-- The flags its conversions raise. -/
def State.blockFlags (s : State) (f : MAccWrForm) (l : Lane) : Nat :=
  (List.range ((min 64 (l.blockRows * f.blk.val + l.blockRows) - l.blockRows * f.blk.val) * 64)).foldl (fun a e => a ||| (s.tileWord f l e).flags) 0

theorem tileWord_entered (s : State) (i : Instr) (u : Issue) (f : MAccWrForm) (l : Lane) (e : Nat) : (s.entered i u).tileWord f l e = s.tileWord f l e := by
  unfold State.tileWord
  rw [sourceView_congr (State.entered_vc s i u) (State.entered_v s i u)]

theorem blockPut_entered (s : State) (i : Instr) (u : Issue) (f : MAccWrForm) (l : Lane) (off : Nat) : (s.entered i u).blockPut f l off = s.blockPut f l off := by
  simp only [State.blockPut, tileWord_entered, tileOf_entered]

theorem blockFlags_entered (s : State) (i : Instr) (u : Issue) (f : MAccWrForm) (l : Lane) : (s.entered i u).blockFlags f l = s.blockFlags f l := by
  simp only [State.blockFlags, tileWord_entered]

/-- The model writes the two bounds of a block's words as Booleans. -/
theorem blockPut_eq (s : State) (f : MAccWrForm) (l : Lane) (off : Nat) :
    ((List.range 4096).map fun x =>
      if l.blockRows * f.blk.val * 64 ≤ x && x < min 64 (l.blockRows * f.blk.val + l.blockRows) * 64 then (s.tileWord f l (x - l.blockRows * f.blk.val * 64)).code
      else (s.tileOf f.acc false off).getD x 0) = s.blockPut f l off := by
  simp only [State.blockPut, Bool.and_eq_true, decide_eq_true_eq]

/-- What MACCWR does after its words are in the tile. -/
theorem setKind_modMe_ok (acc : Fin 16) (plane : Bool) (k : TileKind) (put : Core → Core) (g : Ctx → Ctx) (s : State) :
    (setKind s.cur acc plane k >>= fun _ => modMe g) (s.modMyCore put) = .ok () ((s.modMyCore put).modMe fun x => g (x.setKind acc plane k)) :=
  (run_bind_ok (setKind_ok acc plane k (s.modMyCore put))).trans (congrArg _ (State.modMe_modMe _ _ _))

/-- MACCWR, run at once. -/
theorem maccwr_ok {f : MAccWrForm} {u : Issue} (hu : u = { regs := [f.vs.val], reads := none, writes := none }) (hc : s.CanRun u) (hl : l = s.laneFor u)
    (ops : s.myCore.arr.ops = []) (hk : l.fmt.valid = true) (hin : f.blk.val * l.blockRows < 64) (hs : l.fmt.bsk = 0) (hat : s.TileAt f.acc off) (ht : s.TileClean f.acc false off)
    (hr : s.me.Readable f.vs) (kind : tileKind s s.cur f.acc false = .none ∨ tileKind s s.cur f.acc false = if l.fmt.isInt then .int32 else .fp32) :
    exec (.maccwr f) s = .next (s.arrayRan (.maccwr f) u (fun c => c.tilePut off (s.blockPut f l off))
      fun x => addFlags (x.setKind f.acc false (if l.fmt.isInt then .int32 else .fp32)) (s.blockFlags f l)) := by
  subst hu hl
  refine array_ok (u := { regs := [f.vs.val], reads := none, writes := none }) (α := (Fmt × Nat) × Nat × Array Nat) (check := ?check) (effect := ?effect) (a := ?plan)
    rfl hc ops (fun _ => rfl) ?body ?checks ?effects
  case body =>
    unfold laneMaccwr
    rw [run_bind_ok (run_get _)]
  case checks =>
    refine (run_bind_ok (needBlock_ok hk hin hs)).trans ?_
    refine (run_bind_ok (tileBase_ok (tileAt_entered _ _ hat))).trans ?_
    refine (run_bind_ok (decodeSource_ok (readable_entered _ _ hr))).trans ?_
    refine (run_bind_ok (run_get _)).trans ?_
    refine (run_bind_ok (needU_true ?_ _ _)).trans ?_
    · rw [← tileKind_entered s (.maccwr f)] at kind
      simpa using kind
    refine (run_bind_ok (kindRead_ok (tileClean_entered _ _ ht))).trans ?_
    rfl
  case effects =>
    rw [← blockPut_entered s (.maccwr f), ← blockFlags_entered s (.maccwr f), ← blockPut_eq]
    refine (run_bind_ok (run_getMe _)).trans ?_
    refine (run_bind_ok (tileWrite_ok _ _ _ _)).trans ?_
    exact setKind_modMe_ok f.acc false _ _ _ (s.entered (.maccwr f) { regs := [f.vs.val], reads := none, writes := none })

/-! MACCRD. -/

/-- What a fold collects, its newest first, read backwards is what it collects in order. -/
theorem foldl_cons_reverse {α β ρ : Type} (code : α → ρ → β) (next : α → ρ → ρ) (es : List α) (xs : List β) (r : ρ) :
    ((es.foldl (fun (a : List β × ρ) e => (code e a.2 :: a.1, next e a.2)) (xs, r)).1.reverse, (es.foldl (fun (a : List β × ρ) e => (code e a.2 :: a.1, next e a.2)) (xs, r)).2) =
      es.foldl (fun (a : List β × ρ) e => (a.1 ++ [code e a.2], next e a.2)) (xs.reverse, r) := by
  induction es generalizing xs r with
  | nil => rfl
  | cons e es ih => exact (ih _ _).trans (by simp)

/-- An element of a block of a tile, converted into the VTYPE entry (R218). -/
def State.blockElem (s : State) (f : MAccRdForm) (l : Lane) (off e : Nat) (seed : BitVec 32) : Coded :=
  convert ((s.tileOf f.acc false off).getD (f.blk.val * l.blockRows * 64 + e) 0) (if tileKind s s.cur f.acc false = .int32 then int32Fmt else fp32) l.fmt
    (roundingMode s.me.fc.rmo l.fmt) seed f.sat

/-- Elements of a block, the last block shorter. -/
def Lane.blockLen (l : Lane) (f : MAccRdForm) : Nat := (min 64 (f.blk.val * l.blockRows + l.blockRows) - f.blk.val * l.blockRows) * 64

/-- The elements of a block in order, and what their conversions raised. -/
def State.block (s : State) (f : MAccRdForm) (l : Lane) (off : Nat) : List Nat × Raised :=
  (List.range (l.blockLen f)).foldl (fun a e => (a.1 ++ [(s.blockElem f l off e a.2.seed).code], a.2.add (s.blockElem f l off e a.2.seed) 1 0 0)) ([], Raised.start s.me.fc.seed)

theorem block_entered (s : State) (i : Instr) (u : Issue) (f : MAccRdForm) (l : Lane) (off : Nat) : (s.entered i u).block f l off = s.block f l off := by
  simp only [State.block, State.blockElem, State.entered_fc, tileKind_entered, tileOf_entered]

/-- The register a block goes to: its elements, zero above (R218). -/
def State.blockReg (s : State) (f : MAccRdForm) (l : Lane) (off : Nat) : VReg :=
  encodeElems l l.fmt.wid ((s.block f l off).1 ++ List.replicate (l.nAt l.fmt.wid - l.blockLen f) 0)

theorem laneMaccrd_ok {f : MAccRdForm} (hrmo : l.cap.rmo = s.me.fc.rmo) (late : s.late = false) (hk : l.fmt.valid = true) (hin : f.blk.val * l.blockRows < 64) (hs : l.fmt.bsk = 0)
    (hat : s.TileAt f.acc off) (ht : s.TileClean f.acc false off) (hd : s.me.v[f.vd].full = true) :
    laneMaccrd f l s = .ok () (s.modMe fun c => applyRaised (putV c f.vd (s.blockReg f l off)) (s.block f l off).2) := by
  have collected := foldl_cons_reverse (fun e (r : Raised) => (s.blockElem f l off e r.seed).code) (fun e r => r.add (s.blockElem f l off e r.seed) 1 0 0)
    (List.range (l.blockLen f)) [] (Raised.start s.me.fc.seed)
  have elems : _ = (s.block f l off).1 := congrArg Prod.fst collected
  have raised : _ = (s.block f l off).2 := congrArg Prod.snd collected
  have src : (if tileKind s s.cur f.acc false == .int32 then int32Fmt else fp32) = if tileKind s s.cur f.acc false = .int32 then int32Fmt else fp32 := by simp only [beq_iff_eq]
  unfold laneMaccrd
  refine (run_bind_ok (needBlock_ok hk hin hs)).trans ?_
  refine (run_bind_ok (run_get s)).trans ?_
  refine (run_bind_ok (tileBase_ok hat)).trans ?_
  refine (run_bind_ok (decodeDest_ok (writable_whole hd))).trans ?_
  refine (run_bind_ok (kindRead_ok ht)).trans ?_
  simp only [src, hrmo, late]
  refine (run_modMe _ _).trans (congrArg _ (congrArg (fun g => s.modMe g) (funext fun c => ?_)))
  unfold State.blockReg
  rw [← elems, ← raised]
  rfl

/-- MACCRD, run at once. -/
theorem maccrd_ok {f : MAccRdForm} {u : Issue} (hu : u = { regs := [f.vd.val], reads := none, writes := none }) (hc : s.CanRun u) (hl : l = s.laneFor u)
    (hk : l.fmt.valid = true) (hin : f.blk.val * l.blockRows < 64) (hs : l.fmt.bsk = 0) (hat : s.TileAt f.acc off) (ht : s.TileClean f.acc false off)
    (hd : s.me.v[f.vd].full = true) :
    exec (.maccrd f) s = .next (s.ran (.maccrd f) u fun c => applyRaised (putV c f.vd (s.blockReg f l off)) (s.block f l off).2) := by
  subst hl hu
  have late : (s.entered (.maccrd f) { regs := [f.vd.val], reads := none, writes := none }).late = false := by rw [State.entered_late]; exact hc.1
  have run := laneMaccrd_ok (f := f) (by rw [State.entered_fc]; rfl) late hk hin hs (tileAt_entered _ _ hat) (tileClean_entered _ _ ht) (full_entered _ _ hd)
  simp only [State.blockReg, block_entered] at run
  exact vector_ran hc run

end

end Sys2Proof.Machine
end

section
/-! PROOF. The array's operations settled (O41). -/

namespace Sys2Proof.Machine

/-- Settles O41: each operation's checks pass on the entered state and change nothing, its effect is read off once, and the operation, with none in flight, completes at once;
MACCRD is an operation of the lanes that reads the tile and collects the block in order. -/
theorem arrayResults : Obligations.ArrayResults := by
  unfold Obligations.ArrayResults
  refine ⟨?array, ?read⟩
  case array =>
    intro s off none' done zeros at' kind ops
    refine ⟨fun hc => ?tiles, ?write, ?words⟩
    case tiles =>
      intro l
      refine ⟨fun f hat => mzero_ok rfl hc ops hat, fun f => ⟨fun h => product_ok rfl hc ops h, fun h => product_ok rfl hc ops h, fun h => product_ok rfl hc ops h⟩, ?prom⟩
      intro f ok scale pk tile plane hat ht hp ⟨fullA, ka⟩ ⟨fullB, kb⟩ kind
      exact mprom_ok rfl hc ops hat ht hp fullA fullB ka kb kind
    case write =>
      intro f u l k nr first last v t val want hc hk hin hs hat ht hr kind
      exact maccwr_ok (f := f) (l := l) rfl hc rfl ops hk hin hs hat ht hr kind
    case words => exact fun c ws hws => ⟨fun x hx => tilePut_word hws hx, fun a ha => tilePut_outside hws ha⟩
  case read =>
    intro f s off u l k nr first n src r hc hk hin hs hat ht hd
    exact maccrd_ok rfl hc rfl hk hin hs hat ht hd

end Sys2Proof.Machine
end
